-- ==== Sys2Proof/Word.lean ====
section
/-! DEFINITION. Word types of the Volyth V4 and their plainest arithmetic (R2, R57, R61). -/

namespace Sys2Proof

/-- One byte of memory. -/
abbrev Byte := BitVec 8
/-- One lane of a vector register (R57). -/
abbrev Word := BitVec 32
/-- A register pair, an extension or literal word, an address or a handle (R61, R171, R244). -/
abbrev DWord := BitVec 64
/-- One bit per lane of a warp: predicates and lane masks (R45, R61). -/
abbrev Mask := BitVec 128
/-- The number of a vector register (R247). -/
abbrev Reg := BitVec 6
/-- The number of a predicate (R247). -/
abbrev PReg := BitVec 3
/-- The number of a rejoin set (R247). -/
abbrev SetNo := BitVec 4

/-- The number of lanes of a warp (R7). -/
def laneCount : Nat := 128

/-- The pair value with `lo` in the even register (R61). -/
def pairOf (lo hi : Word) : DWord := hi ++ lo
/-- Bits [31:0] of a pair. -/
def loWord (x : DWord) : Word := x.setWidth 32
/-- Bits [63:32] of a pair. -/
def hiWord (x : DWord) : Word := (x >>> 32).setWidth 32

end Sys2Proof
end

