-- ==== Sys2Proof/Machine/Bits.lean ====
section
/-! DEFINITION. Bit-field, sign, lane-list and byte-order helpers of the machine. -/

namespace Sys2Proof.Machine

/-- Bits [lo + w - 1 : lo] of a number. -/
def bitsAt (x lo w : Nat) : Nat := x >>> lo % 2 ^ w

/-- Bit `i` of a number. -/
def bitAt (x i : Nat) : Bool := x.testBit i

/-- The list of a value per lane, lane 0 first. -/
def lanesOf {α : Type} (f : Nat → α) : List α := (List.range laneCount).map f

/-- The numbers of the lanes set in a mask, ascending. -/
def maskLanes (m : Mask) : List Nat := (List.range laneCount).filter fun l => m.getLsbD l

/-- The mask of the lanes at which `f` holds. -/
def maskOf (f : Nat → Bool) : Mask :=
  BitVec.ofNat 128 ((List.range laneCount).foldl (fun acc l => if f l then acc + 2 ^ l else acc) 0)

/-- The lowest lane of a mask; 0 when the mask is empty. -/
def lowestLane (m : Mask) : Nat := (maskLanes m).headD 0

/-- The signed value of an n-bit number. -/
def signedVal (n x : Nat) : Int := if x % 2 ^ n < 2 ^ (n - 1) then (x % 2 ^ n : Nat) else ((x % 2 ^ n : Nat) : Int) - 2 ^ n

/-- The n low bits of an integer, as a number. -/
def wrapInt (n : Nat) (t : Int) : Nat := (t % (2 ^ n : Int)).toNat

/-- A 32-bit value sign-extended to 64 bits (R250, R339). -/
def sext64 (x : Word) : DWord := x.signExtend 64

/-- The n-byte little-endian bytes of a number (R2). -/
def bytesLE : Nat → Nat → List Byte
  | 0, _ => []
  | n + 1, x => BitVec.ofNat 8 x :: bytesLE n (x / 256)

/-- The number a little-endian byte list holds (R2). -/
def numLE : List Byte → Nat
  | [] => 0
  | b :: bs => b.toNat + 256 * numLE bs

/-- The list with entry `i` replaced by `f` of it; unchanged when there is no such entry. -/
def updAt {α : Type} (f : α → α) : Nat → List α → List α
  | _, [] => []
  | 0, x :: xs => f x :: xs
  | n + 1, x :: xs => x :: updAt f n xs

/-- The list of `n` entries with entry `i` replaced; an entry the old list does not have reads `d`. -/
def putAt {α : Type} (n : Nat) (d : α) (i : Nat) (v : α) (xs : List α) : List α := (List.range n).map fun k => if k = i then v else xs.getD k d

/-- The list with `f` applied to the entries that satisfy `p`. -/
def updWhere {α : Type} (p : α → Bool) (f : α → α) (xs : List α) : List α := xs.map fun x => if p x then f x else x

/-- The list with an entry inserted or replaced by key, entries kept in rising key order. -/
def putKey {α : Type} (key : α → Nat) (v : α) : List α → List α
  | [] => [v]
  | x :: xs => if key v < key x then v :: x :: xs else if key v = key x then v :: xs else x :: putKey key v xs

/-- The entry of a list with a given key. -/
def getKey {α : Type} (key : α → Nat) (k : Nat) (xs : List α) : Option α := xs.find? fun x => key x == k

/-- The list without its entry of a given key. -/
def dropKey {α : Type} (key : α → Nat) (k : Nat) (xs : List α) : List α := xs.filter fun x => key x != k

/-- Saturating addition to a w-bit counter. -/
def satAdd (w x y : Nat) : Nat := min (x + y) (2 ^ w - 1)

end Sys2Proof.Machine
end

