-- ==== Sys2Proof/Config.lean ====
section
/-! DEFINITION. What an implementation fixes and the free values: opaque constants, which no proof can evaluate.
Each is named in notes/assumptions/3.md or 12.md. -/

namespace Sys2Proof.Config

/-- The published bound of R81 holds of the special functions; the function itself "is not published and is not
architected". `specialChoice fn x` is what this silicon revision would answer for function number `fn` on input bits `x`. -/
opaque specialChoice : Nat → Word → Word

/-- A value the spec leaves undefined, fresh for each use: the model applies it to the counter `State.fresh`. -/
opaque freeWord : Nat → Word

/-- The scale byte a copy writes for a block with a NaN or an infinity, of which R154 states no logarithm: by entry and block. -/
opaque freeScale : Nat → Nat → Byte

/-- SHA3-512 (FIPS 202), which R272 and R273 name and do not define: 64 digest bytes of a byte string. -/
opaque sha3 : List Byte → Nat → Byte

/-- The ML-DSA-87 signature (FIPS 204) by the device identity key, which only Headland can use (R273). -/
opaque signature : List Byte → Nat → Byte

/-- The image digests of Headland and of the Estuary slot in use (R273): the images are outside the spec. -/
opaque imageDigest : Nat → Nat → Byte

/-- The bytes of the core records and of the context record, whose layout R221 does not give: of the record number `k`. -/
opaque recordByte : Nat → Nat → Byte

/-- How many bytes of the context record are written, of which R221 says only that they are at most 8 MiB. -/
opaque recordLength : Nat → Nat

end Sys2Proof.Config
end

