-- ==== Sys2Proof/Machine/Formats.lean ====
section
/-! DEFINITION. Number formats and their arithmetic (spec/05_number_formats.md, R66 to R88): exact values, one rounding,
flushes, saturation, special functions, conversions and the quantiser, each with the counts it raises. -/

namespace Sys2Proof.Machine

/-- An exact value: NaN (or NaV), an infinity, or (-1)^neg * m * 2^e, where m = 0 is a signed zero. -/
inductive Ext where
  | nan
  | inf (neg : Bool)
  | num (neg : Bool) (m : Nat) (e : Int)
deriving DecidableEq, Repr

/-- The counts one element raises (R88): saturations, flushes, NaNs. -/
structure Counts where
  sat : Nat
  ftz : Nat
  nan : Nat
deriving DecidableEq, Repr

/-- No count. -/
def Counts.zero : Counts := ⟨0, 0, 0⟩
/-- The counts of two events together. -/
def Counts.add (a b : Counts) : Counts := ⟨a.sat + b.sat, a.ftz + b.ftz, a.nan + b.nan⟩
/-- One saturation. -/
def Counts.oneSat : Counts := ⟨1, 0, 0⟩
/-- One flush. -/
def Counts.oneFtz : Counts := ⟨0, 1, 0⟩
/-- One NaN. -/
def Counts.oneNan : Counts := ⟨0, 0, 1⟩

/-- A binary floating-point format (R69, R70). -/
structure FloatFmt where
  ebits : Nat
  mbits : Nat
  bias : Nat
  hasInf : Bool
  maxCode : Nat
  nanCode : Nat
deriving DecidableEq, Repr

/-- FP32 (R69). -/
def fp32 : FloatFmt := ⟨8, 23, 127, true, 0x7F7FFFFF, 0x7FC00000⟩
/-- BF16 (R66, R69). -/
def bf16 : FloatFmt := ⟨8, 7, 127, true, 0x7F7F, 0x7FC0⟩
/-- FP16 (R69). -/
def fp16 : FloatFmt := ⟨5, 10, 15, true, 0x7BFF, 0x7E00⟩
/-- E4M3 (R70). -/
def e4m3 : FloatFmt := ⟨4, 3, 7, false, 0x7E, 0x7F⟩
/-- E5M2 (R70). -/
def e5m2 : FloatFmt := ⟨5, 2, 15, true, 0x7B, 0x7F⟩

/-- The sign bit's place. -/
def FloatFmt.signAt (f : FloatFmt) : Nat := f.ebits + f.mbits
/-- The exponent of the smallest subnormal. -/
def FloatFmt.minExp (f : FloatFmt) : Int := 1 - (f.bias : Int) - f.mbits
/-- The code of infinity. -/
def FloatFmt.infCode (f : FloatFmt) : Nat := f.maxCode + 1
/-- A magnitude code with a sign. -/
def FloatFmt.signed (f : FloatFmt) (neg : Bool) (code : Nat) : Nat := if neg then 2 ^ f.signAt + code else code

/-- The exact value of a code (R69, R70). -/
def FloatFmt.decode (f : FloatFmt) (bits : Nat) : Ext :=
  let neg := bits.testBit f.signAt
  let mag := bits % 2 ^ f.signAt
  if mag > f.maxCode then if f.hasInf && mag == f.infCode then .inf neg else .nan
  else
    let ex := mag / 2 ^ f.mbits
    let fr := mag % 2 ^ f.mbits
    if ex = 0 then .num neg fr f.minExp else .num neg (2 ^ f.mbits + fr) (f.minExp + ((ex : Int) - 1))

/-- True of a subnormal code. -/
def FloatFmt.isSubnormal (f : FloatFmt) (bits : Nat) : Bool :=
  let mag := bits % 2 ^ f.signAt
  mag != 0 && decide (mag < 2 ^ f.mbits)

/-- The integer nearest m * 2^e (of the given sign) in the direction RND (R76), as a magnitude. -/
def roundMag (rnd : BitVec 2) (neg : Bool) (m : Nat) (e : Int) : Nat :=
  if 0 ≤ e then m * 2 ^ e.toNat
  else
    let d := 2 ^ (-e).toNat
    let q := m / d
    let r := m % d
    if r = 0 then q
    else match rnd.toNat with
      | 0 => if 2 * r > d ∨ (2 * r = d ∧ q % 2 = 1) then q + 1 else q
      | 1 => q
      | 2 => if neg then q + 1 else q
      | _ => if neg then q else q + 1

/-- floor(log2 (m * 2^e)) for m ≠ 0. -/
def log2Mag (m : Nat) (e : Int) : Int := (m.log2 : Int) + e

/-- The magnitude code of m * 2^e rounded once with an unbounded exponent: above `maxCode` on overflow (R79, R85). -/
def FloatFmt.roundCode (f : FloatFmt) (rnd : BitVec 2) (neg : Bool) (m : Nat) (e : Int) : Nat :=
  if m = 0 then 0
  else
    let q := max (log2Mag m e - f.mbits) f.minExp
    (q - f.minExp).toNat * 2 ^ f.mbits + roundMag rnd neg m (e - q)

/-- True when overflow in direction RND gives the largest finite value, not infinity (R79). -/
def overflowToMax (rnd : BitVec 2) (neg : Bool) : Bool :=
  match rnd.toNat with
  | 0 => false
  | 1 => true
  | 2 => !neg
  | _ => neg

/-- FZO on a rounded code (R77): the code and its flush. -/
def FloatFmt.flushOut (f : FloatFmt) (fzo : Bool) (code : Nat) : Nat × Counts :=
  if fzo && f.isSubnormal code then (f.signed (code.testBit f.signAt) 0, .oneFtz) else (code, .zero)

/-- FZI on an input code (R77). -/
def FloatFmt.flushIn (f : FloatFmt) (fzi : Bool) (code : Nat) : Nat × Counts :=
  if fzi && f.isSubnormal code then (f.signed (code.testBit f.signAt) 0, .oneFtz) else (code, .zero)

/-- SAT on an arithmetic result (R78): clamped to [+0.0, 1.0]; NaN and negative values give +0.0. -/
def FloatFmt.clamp01 (f : FloatFmt) (sat : Bool) (code : Nat) : Nat × Counts :=
  if sat then
    let one := f.bias * 2 ^ f.mbits
    match f.decode code with
    | .nan => (0, .oneSat)
    | .inf neg => (if neg then 0 else one, .oneSat)
    | .num neg m _ =>
      if m = 0 then (0, .zero)
      else if neg then (0, .oneSat)
      else if code > one then (one, .oneSat) else (code, .zero)
  else (code, .zero)

/-- An exact arithmetic result rounded once, then FZO, then SAT (R77 to R79). `invalid` marks an invalid operation, which counts
one NaN. -/
def FloatFmt.finish (f : FloatFmt) (rnd : BitVec 2) (sat fzo : Bool) (r : Ext) (invalid : Bool) : Nat × Counts :=
  let raw : Nat := match r with
    | .nan => f.nanCode
    | .inf neg => f.signed neg f.infCode
    | .num neg m e =>
      let code := f.roundCode rnd neg m e
      f.signed neg (if code > f.maxCode then (if overflowToMax rnd neg then f.maxCode else f.infCode) else code)
  let o := f.flushOut fzo raw
  let c := f.clamp01 sat o.1
  (c.1, ((if invalid then Counts.oneNan else .zero).add o.2).add c.2)

/-- The signed integer value of m scaled to a common exponent. -/
def scaled (neg : Bool) (m : Nat) (e base : Int) : Int :=
  let v : Int := (m * 2 ^ (e - base).toNat : Nat)
  if neg then -v else v

/-- The exact sum of two values and whether it is an invalid operation (R79): an exactly zero sum is +0, or -0 under RD, unless both
addends are zeros of one sign. -/
def extAdd (rnd : BitVec 2) (x y : Ext) : Ext × Bool :=
  match x, y with
  | .nan, _ => (.nan, false)
  | _, .nan => (.nan, false)
  | .inf a, .inf b => if a = b then (.inf a, false) else (.nan, true)
  | .inf a, _ => (.inf a, false)
  | _, .inf b => (.inf b, false)
  | .num na ma ea, .num nb mb eb =>
    let base := min ea eb
    let t := scaled na ma ea base + scaled nb mb eb base
    if t = 0 then
      if ma = 0 ∧ mb = 0 ∧ na = nb then (.num na 0 0, false) else (.num (rnd == 2) 0 0, false)
    else (.num (decide (t < 0)) t.natAbs base, false)

/-- The exact product of two values and whether it is an invalid operation (R79). -/
def extMul (x y : Ext) : Ext × Bool :=
  match x, y with
  | .nan, _ => (.nan, false)
  | _, .nan => (.nan, false)
  | .inf a, .inf b => (.inf (a != b), false)
  | .inf a, .num b m _ => if m = 0 then (.nan, true) else (.inf (a != b), false)
  | .num a m _, .inf b => if m = 0 then (.nan, true) else (.inf (a != b), false)
  | .num a ma ea, .num b mb eb => (.num (a != b) (ma * mb) (ea + eb), false)

/-- The value with its sign inverted. -/
def Ext.neg : Ext → Ext
  | .nan => .nan
  | .inf n => .inf (!n)
  | .num n m e => .num (!n) m e

/-- True of NaN. -/
def Ext.isNan : Ext → Bool
  | .nan => true
  | _ => false

/-- a + b in a format (R79). -/
def FloatFmt.fadd (f : FloatFmt) (rnd : BitVec 2) (sat fzi fzo : Bool) (a b : Nat) : Nat × Counts :=
  let a' := f.flushIn fzi a
  let b' := f.flushIn fzi b
  let s := extAdd rnd (f.decode a'.1) (f.decode b'.1)
  let r := f.finish rnd sat fzo s.1 s.2
  (r.1, (a'.2.add b'.2).add r.2)

/-- a - b in a format (R79). -/
def FloatFmt.fsub (f : FloatFmt) (rnd : BitVec 2) (sat fzi fzo : Bool) (a b : Nat) : Nat × Counts :=
  let a' := f.flushIn fzi a
  let b' := f.flushIn fzi b
  let s := extAdd rnd (f.decode a'.1) (f.decode b'.1).neg
  let r := f.finish rnd sat fzo s.1 s.2
  (r.1, (a'.2.add b'.2).add r.2)

/-- a * b in a format (R79). -/
def FloatFmt.fmul (f : FloatFmt) (rnd : BitVec 2) (sat fzi fzo : Bool) (a b : Nat) : Nat × Counts :=
  let a' := f.flushIn fzi a
  let b' := f.flushIn fzi b
  let s := extMul (f.decode a'.1) (f.decode b'.1)
  let r := f.finish rnd sat fzo s.1 s.2
  (r.1, (a'.2.add b'.2).add r.2)

/-- a * b + c with one rounding (R79). A NaN addend with a product of 0 and infinity counts nothing: DEDUCED, log 7. -/
def FloatFmt.ffma (f : FloatFmt) (rnd : BitVec 2) (sat fzi fzo : Bool) (a b c : Nat) : Nat × Counts :=
  let a' := f.flushIn fzi a
  let b' := f.flushIn fzi b
  let c' := f.flushIn fzi c
  let cv := f.decode c'.1
  let p := extMul (f.decode a'.1) (f.decode b'.1)
  let s := extAdd rnd p.1 cv
  let r := f.finish rnd sat fzo s.1 ((p.2 && !cv.isNan) || s.2)
  (r.1, ((a'.2.add b'.2).add c'.2).add r.2)

/-- Comparison of two values that are not NaN: less than, with -0 equal to +0. -/
def extLt : Ext → Ext → Bool
  | .inf true, .inf false => true
  | .inf _, .inf _ => false
  | .inf n, .num _ _ _ => n
  | .num _ _ _, .inf n => !n
  | .num na ma ea, .num nb mb eb =>
    let base := min ea eb
    decide (scaled na ma ea base < scaled nb mb eb base)
  | _, _ => false

/-- True of a value with the sign bit set. -/
def Ext.isNeg : Ext → Bool
  | .nan => false
  | .inf n => n
  | .num n _ _ => n

/-- The order of R80: -0.0 below +0.0. -/
def extLtSigned (x y : Ext) : Bool := extLt x y || (!extLt y x && x.isNeg && !y.isNeg)

/-- Minimum (`big` false) or maximum of two elements (R80). -/
def FloatFmt.fminmax (f : FloatFmt) (big fzi fzo : Bool) (a b : Nat) : Nat × Counts :=
  let a' := f.flushIn fzi a
  let b' := f.flushIn fzi b
  let x := f.decode a'.1
  let y := f.decode b'.1
  let raw := if x.isNan then (if y.isNan then f.nanCode else b'.1)
    else if y.isNan then a'.1
    else if extLtSigned y x then (if big then a'.1 else b'.1) else (if big then b'.1 else a'.1)
  let o := f.flushOut fzo raw
  (o.1, (a'.2.add b'.2).add o.2)

/-- The `FCMP` condition on two FP32 values (R318) and its flush counts. -/
def fcmpBit (fzi : Bool) (cond : BitVec 3) (a b : Nat) : Bool × Counts :=
  let a' := fp32.flushIn fzi a
  let b' := fp32.flushIn fzi b
  let x := fp32.decode a'.1
  let y := fp32.decode b'.1
  let un := x.isNan || y.isNan
  let lt := extLt x y
  let gt := extLt y x
  let r := match cond.toNat with
    | 0 => !un && !lt && !gt
    | 1 => un || lt || gt
    | 2 => !un && lt
    | 3 => !un && !gt
    | 4 => !un && gt
    | 5 => !un && !lt
    | 6 => !un
    | _ => un
  (r, a'.2.add b'.2)

/-- The class number of an FP32 code (R319). -/
def fclassOf (bits : Nat) : Nat :=
  match fp32.decode bits with
  | .nan => 8
  | .inf neg => if neg then 0 else 7
  | .num neg m _ =>
    if m = 0 then (if neg then 3 else 4)
    else if fp32.isSubnormal bits then (if neg then 2 else 5)
    else (if neg then 1 else 6)

/-- `FRND` (R82): the FP32 code rounded to an integral value, the sign kept. -/
def frndBits (rnd : BitVec 2) (fzi : Bool) (a : Nat) : Nat × Counts :=
  let a' := fp32.flushIn fzi a
  match fp32.decode a'.1 with
  | .nan => (fp32.nanCode, a'.2)
  | .inf neg => (fp32.signed neg fp32.infCode, a'.2)
  | .num neg m e => (fp32.signed neg (fp32.roundCode 0 neg (roundMag rnd neg m e) 0), a'.2)

/-! ## Special functions (R81) -/

/-- `FSQRT`: correctly rounded. The exact root is given to the rounding as floor(sqrt) with one more bit that says whether it is inexact. -/
def sqrtExt : Ext → Ext × Bool
  | .nan => (.nan, false)
  | .inf neg => if neg then (.nan, true) else (.inf false, false)
  | .num neg m e =>
    if m = 0 then (.num neg 0 0, false)
    else if neg then (.nan, true)
    else
      let odd := e % 2 = 1
      let m2 := (if odd then 2 * m else m) * 2 ^ 64
      let e2 := ((if odd then e - 1 else e) - 64) / 2
      let q := Nat.sqrt m2
      (.num false (2 * q + (if q * q = m2 then 0 else 1)) (e2 - 1), false)

/-- A rational number as numerator over a positive denominator, for the bounds of R81. -/
structure Frac where
  num : Int
  den : Nat
deriving DecidableEq, Repr

/-- The rational value of m * 2^e with a sign. -/
def fracOf (neg : Bool) (m : Nat) (e : Int) : Frac :=
  let v : Int := (m * 2 ^ e.toNat : Nat)
  ⟨if neg then -v else v, 2 ^ (-e).toNat⟩
/-- The distance of two rationals is at most `b`. -/
def Frac.within (a t b : Frac) : Bool :=
  decide ((a.num * t.den - t.num * a.den).natAbs * b.den ≤ b.num.natAbs * (a.den * t.den))

/-- floor(log2 x) of a positive rational. -/
def fracLog2 (x : Frac) : Int :=
  let k : Int := (x.num.natAbs.log2 : Int) - x.den.log2
  if 0 ≤ k then (if x.den * 2 ^ k.toNat ≤ x.num.natAbs then k else k - 1)
  else (if x.den ≤ x.num.natAbs * 2 ^ (-k).toNat then k else k - 1)

/-- `n` times an ulp (R81): the spacing of FP32 numbers in [2^k, 2^(k+1)). -/
def ulps (n : Nat) (k : Int) : Frac := fracOf false n (max (k - 23) (-149))

/-- Fraction bits of the fixed-point values below. -/
def fixBits : Nat := 256

/-- n binary digits of log2 of a fixed-point y in [1, 2). -/
def log2Digits : Nat → Nat → Nat
  | 0, _ => 0
  | n + 1, y =>
    let y2 := y * y / 2 ^ fixBits
    if y2 ≥ 2 ^ (fixBits + 1) then 2 ^ n + log2Digits n (y2 / 2) else log2Digits n y2

/-- The product of 2^(1/2), 2^(1/4), ... for the set digits of an n-digit fraction `f`; `root` is the current power of two's root. -/
def exp2Digits (f : Nat) : Nat → Nat → Nat → Nat
  | 0, _, acc => acc
  | n + 1, root, acc =>
    let r := Nat.sqrt (root * 2 ^ fixBits)
    exp2Digits f n r (if f.testBit n then acc * r / 2 ^ fixBits else acc)

/-- Fixed-point Taylor sum of sin (k = 1) or cos (k = 0): `term` is the current term, x2 the square of the argument. -/
def taylorFix (x2 : Int) : Nat → Nat → Int → Int
  | 0, _, term => term
  | n + 1, k, term => term + taylorFix x2 n (k + 2) (-(term * x2 / 2 ^ fixBits) / ((k + 1) * (k + 2)))

/-- Angle doubling, n times, on fixed-point (sin, cos). -/
def doubleAngle : Nat → Int × Int → Int × Int
  | 0, p => p
  | n + 1, (s, c) => doubleAngle n (2 * s * c / 2 ^ fixBits, 2 ^ fixBits - 2 * s * s / 2 ^ fixBits)

/-- sin x (or cos x) of a small rational, |x| ≤ 2^-60: the first terms of its series, exact. -/
def smallAngle (cos : Bool) (x : Frac) : Frac :=
  let n := x.num
  let d : Int := x.den
  if cos then ⟨24 * d ^ 4 - 12 * n ^ 2 * d ^ 2 + n ^ 4, 24 * x.den ^ 4⟩ else ⟨6 * n * d ^ 2 - n ^ 3, 6 * x.den ^ 3⟩

/-- The result of function `fn` (0 FRCP, 1 FRSQ, 2 FEX2, 3 FLG2, 4 FSIN, 5 FCOS) at a finite value that is not special: exact where it is a rational number, else an
approximation to many more places than an FP32 number has (log 3), for a small x > 0 one of the numbers between 1 and 1 + x, where 2^x lies; none where it is past the
largest FP32 number. -/
def specialExact (fn : Nat) (neg : Bool) (m : Nat) (e : Int) : Option Frac :=
  let x := fracOf neg m e
  match fn with
  | 0 => let t : Frac := ⟨if neg then -(x.den : Int) else x.den, x.num.natAbs⟩
         if fracLog2 ⟨x.den, x.num.natAbs⟩ ≥ 128 then none else some t
  | 1 => -- 1/sqrt(m 2^e) with e made even
    let m2 := if e % 2 = 1 then 2 * m else m
    let e2 := (if e % 2 = 1 then e - 1 else e) / 2
    some ⟨(fracOf false 1 (-e2)).num * 2 ^ 128, (fracOf false 1 (-e2)).den * Nat.sqrt (m2 * 2 ^ 256)⟩
  | 2 =>
    let fl := Int.fdiv x.num x.den
    if fl ≥ 128 then none
    else if decide (0 < x.num) && decide (x.num.natAbs * 2 ^ 96 ≤ x.den) then some ⟨2 * x.den + x.num, 2 * x.den⟩
    else
      let fl' := max fl (-200)
      let fr := if fl < -200 then 0 else ((x.num - fl * x.den).natAbs * 2 ^ 96 / x.den)
      let y := exp2Digits fr 96 (2 ^ (fixBits + 1)) (2 ^ fixBits)
      some ⟨(fracOf false y fl').num, (fracOf false y fl').den * 2 ^ fixBits⟩
  | 3 =>
    let k := fracLog2 x
    let y := if 0 ≤ k then x.num.natAbs * 2 ^ fixBits / (x.den * 2 ^ k.toNat) else x.num.natAbs * 2 ^ (-k).toNat * 2 ^ fixBits / x.den
    some ⟨k * 2 ^ 96 + log2Digits 96 y, 2 ^ 96⟩
  | _ => if x.num.natAbs * 2 ^ 60 ≤ x.den then some (smallAngle (fn = 5) x) else
    let xf : Int := x.num * 2 ^ fixBits / (x.den * 2 ^ 20 : Nat)
    let x2 := xf * xf / 2 ^ fixBits
    let p := doubleAngle 20 (taylorFix x2 40 1 xf, taylorFix x2 40 0 (2 ^ fixBits))
    some ⟨if fn = 4 then p.1 else p.2, 2 ^ fixBits⟩

/-- The bound of R81 for function `fn` at argument `x` and exact result `t`. -/
def specialBound (fn : Nat) (x t : Frac) : Frac :=
  match fn with
    | 0 => ulps 1 (fracLog2 ⟨t.num.natAbs, t.den⟩)
    | 3 => if decide (x.den ≤ 2 * x.num.natAbs) && decide (x.num.natAbs ≤ 2 * x.den) then fracOf false 1 (-22)
           else ulps 2 (fracLog2 ⟨t.num.natAbs, t.den⟩)
    | 4 => fracOf false 1 (-21)
    | 5 => fracOf false 1 (-21)
    | _ => ulps 2 (fracLog2 ⟨t.num.natAbs, t.den⟩)

/-- A rational rounded to the nearest FP32 code. -/
def fracToFp32 (t : Frac) : Nat :=
  let n := t.num.natAbs
  if n = 0 then 0
  else
    let sh : Int := 64 - ((n.log2 : Int) - t.den.log2)
    let q := n * 2 ^ sh.toNat / (t.den * 2 ^ (-sh).toNat)
    fp32.signed (decide (t.num < 0)) (fp32.roundCode 0 false (2 * q + 1) (-sh - 1))

/-- The result of a special function where R81 gives only a bound: this silicon revision's own choice, wherever it lies within the bound
(else, so that the bound always holds, the nearest number); where no FP32 number lies within it unconstrained, a NaN being the canonical one (R69, log 3). Past |x| = 2^16 the
bound of `FSIN` and `FCOS` is [-1, 1] (else 0). -/
def specialValue (fn : Nat) (x : Word) (neg : Bool) (m : Nat) (e : Int) : Word :=
  let choice := Config.specialChoice fn x
  let xf := fracOf neg m e
  let holds (p : Frac → Bool) : Bool := match fp32.decode choice.toNat with
    | .num n' m' e' => p (fracOf n' m' e')
    | _ => false
  if 4 ≤ fn ∧ xf.num.natAbs > 65536 * xf.den then (if holds fun r => decide (r.num.natAbs ≤ r.den) then choice else 0)
  else match specialExact fn neg m e with
    | none => match fp32.decode choice.toNat with
      | .nan => BitVec.ofNat 32 fp32.nanCode
      | _ => choice
    | some t => if holds fun r => r.within t (specialBound fn xf t) then choice else BitVec.ofNat 32 (fracToFp32 t)

/-- Function `fn` on an FP32 code: the special values of R81, and `specialValue` elsewhere; FZI before and FZO after. -/
def specialBits (fn : Nat) (fzi fzo : Bool) (a : Nat) : Nat × Counts :=
  let a' := fp32.flushIn fzi a
  let one : Nat := 0x3F800000
  let r : Nat × Bool := match fp32.decode a'.1 with
    | .nan => (fp32.nanCode, false)
    | .inf neg => match fn with
      | 0 => (fp32.signed neg 0, false)
      | 1 => if neg then (fp32.nanCode, true) else (0, false)
      | 2 => (if neg then 0 else fp32.infCode, false)
      | 3 => if neg then (fp32.nanCode, true) else (fp32.infCode, false)
      | _ => (fp32.nanCode, true)
    | .num neg m e =>
      let gen (_ : Unit) := (specialValue fn (BitVec.ofNat 32 a'.1) neg m e).toNat
      match fn with
      | 0 => (if m = 0 then fp32.signed neg fp32.infCode else gen (), false)
      | 1 => if m = 0 then (fp32.signed neg fp32.infCode, false) else if neg then (fp32.nanCode, true) else (gen (), false)
      | 2 =>
        let v := scaled neg (roundMag 1 neg m e) 0 0
        if roundMag 1 neg m e = roundMag 3 false m e && decide (-149 ≤ v) && decide (v ≤ 127)
          then (fp32.roundCode 0 false 1 v, false) else (gen (), false)
      | 3 =>
        if m = 0 then (fp32.signed true fp32.infCode, false)
        else if neg then (fp32.nanCode, true)
        else if a'.1 = one then (0, false) else (gen (), false)
      | 4 => if m = 0 then (fp32.signed neg 0, false) else (gen (), false)
      | _ => (gen (), false)
  let o := fp32.flushOut fzo r.1
  (o.1, (a'.2.add (if r.2 then .oneNan else .zero)).add o.2)

/-- `FSQRT` on an FP32 code (R81). -/
def sqrtBits (rnd : BitVec 2) (fzi fzo : Bool) (a : Nat) : Nat × Counts :=
  let a' := fp32.flushIn fzi a
  let s := sqrtExt (fp32.decode a'.1)
  let r := fp32.finish rnd false fzo s.1 s.2
  (r.1, a'.2.add r.2)

/-! ## Tapered formats and conversions (R72 to R75, R83 to R87) -/

/-- The length of the run of bits equal to bit n - 1, from that bit down. -/
def runLength (x : Nat) (b : Bool) : Nat → Nat
  | 0 => 0
  | n + 1 => if x.testBit n = b then 1 + runLength x b n else 0

/-- The positive value of a tapered field F of `n` bits, F ≠ 0 (R72): mantissa and exponent. -/
def taperedValue (n F : Nat) : Nat × Int :=
  let b := F.testBit (n - 1)
  let k := runLength F b n
  let r : Int := if b then (k : Int) - 1 else -(k : Int)
  let rest := n - k - 1
  let e : Nat := if rest = 0 then 0 else if F.testBit (rest - 1) then 1 else 0
  let nf := rest - 1
  let fr := F % 2 ^ nf
  (2 ^ nf + fr, 2 * r + e - nf)

/-- Decode a tapered code with an n-bit field (n = 7 for T8, 5 for T6): R72, R73. -/
def taperedDecode (n code : Nat) : Ext :=
  let neg := code.testBit n
  let F := code % 2 ^ n
  if F = 0 then if neg then .nan else .num false 0 0
  else .num neg (taperedValue n F).1 (taperedValue n F).2

/-- x ≤ y for non-negative dyadics. -/
def magLe (m1 : Nat) (e1 : Int) (m2 : Nat) (e2 : Int) : Bool :=
  let base := min e1 e2
  decide (m1 * 2 ^ (e1 - base).toNat ≤ m2 * 2 ^ (e2 - base).toNat)

/-- Encode a value into a tapered format (R86). -/
def taperedEncode (n : Nat) (x : Ext) : Nat × Counts :=
  let top := 2 ^ n - 1
  let sgn (neg : Bool) (F : Nat) : Nat := if neg then 2 ^ n + F else F
  match x with
  | .nan => (2 ^ n, .zero)
  | .inf neg => (sgn neg top, .oneSat)
  | .num neg m e =>
    let v (F : Nat) := taperedValue n F
    if m = 0 then (0, .zero)
    else if !magLe m e (v top).1 (v top).2 then (sgn neg top, .oneSat)
    else if !magLe (v 1).1 ((v 1).2 - 1) m e then (0, .oneFtz)
    else if !magLe (v 1).1 (v 1).2 m e then (sgn neg 1, .zero)
    else
      -- the largest field whose value is at most |x|; the field above it is nearer past the halfway point
      let F := ((List.range (2 ^ n)).filter fun F => F != 0 && magLe (v F).1 (v F).2 m e).length
      if F = top then (sgn neg F, .zero)
      else
        let lo := v F
        let hi := v (F + 1)
        let base := min (min lo.2 hi.2) e
        let sum := scaled false lo.1 lo.2 base + scaled false hi.1 hi.2 base
        let twice := 2 * scaled false m e base
        let up := decide (twice > sum) || (decide (twice = sum) && F % 2 == 1)
        (sgn neg (if up then F + 1 else F), .zero)

/-- Decode an E8M0 code (R74). -/
def e8m0Decode (code : Nat) : Ext := if code = 255 then .nan else .num false 1 ((code : Int) - 127)

/-- Encode into E8M0 (R87). -/
def e8m0Encode : Ext → Nat × Counts
  | .nan => (255, .zero)
  | .inf _ => (255, .oneNan)
  | .num _ m e =>
    if m = 0 then (0, .zero)
    else
      let k := log2Mag m e + 127
      if k < 0 then (0, .oneSat) else if k > 254 then (254, .oneSat) else (k.toNat, .zero)

/-- The format of a code of R67 that has a sign-exponent-fraction form. -/
def floatOfCode : Nat → Option FloatFmt
  | 0 => some fp32
  | 1 => some bf16
  | 2 => some fp16
  | 3 => some e4m3
  | 4 => some e5m2
  | _ => none

/-- The exact value of a source of format code `c` after FZI (R83, R313), with its flush count. -/
def cvtDecode (c : Nat) (fzi : Bool) (x : Nat) : Ext × Counts :=
  match floatOfCode c with
  | some f =>
    let a := f.flushIn fzi (x % 2 ^ (f.signAt + 1))
    (f.decode a.1, a.2)
  | none =>
    let ofInt (v : Int) : Ext := .num (decide (v < 0)) v.natAbs 0
    match c with
    | 5 => (ofInt (signedVal 8 x), .zero)
    | 6 => (taperedDecode 7 (x % 256), .zero)
    | 7 => (taperedDecode 5 (x % 64), .zero)
    | 8 => (ofInt (signedVal 32 x), .zero)
    | 9 => (ofInt ((x % 2 ^ 32 : Nat)), .zero)
    | 10 => (e8m0Decode (x % 256), .zero)
    | _ => (.nan, .zero)

/-- Encode into an integer format of range [lo, hi] and width n (R83). -/
def intEncode (rnd : BitVec 2) (lo hi : Int) (n : Nat) : Ext → Nat × Counts
  | .nan => (0, .oneSat)
  | .inf neg => (wrapInt n (if neg then lo else hi), .oneSat)
  | .num neg m e =>
    let v := scaled neg (roundMag rnd neg m e) 0 0
    if v < lo then (wrapInt n lo, .oneSat)
    else if v > hi then (wrapInt n hi, .oneSat)
    else (wrapInt n v, if m != 0 && v == 0 then .oneFtz else .zero)

/-- Encode into a floating-point format under `CVT` (R83 to R85). -/
def FloatFmt.encode (f : FloatFmt) (rnd : BitVec 2) (sat fzo : Bool) (x : Ext) : Nat × Counts :=
  match x with
  | .nan => (f.nanCode, .zero)
  | .inf neg =>
    if f.hasInf then
      -- E5M2 saturates an infinity under SAT; FP32, BF16 and FP16 keep it
      if sat && f.ebits + f.mbits == 7 then (f.signed neg f.maxCode, .oneSat) else (f.signed neg f.infCode, .zero)
    else if sat then (f.signed neg f.maxCode, .oneSat) else (f.nanCode, .oneNan)
  | .num neg m e =>
    let code := f.roundCode rnd neg m e
    if code > f.maxCode then
      if sat then (f.signed neg f.maxCode, .oneSat)
      else if overflowToMax rnd neg then (f.signed neg f.maxCode, .zero)
      else if f.hasInf then (f.signed neg f.infCode, .zero) else (f.nanCode, .oneSat)
    else if m != 0 && (code == 0 || (fzo && f.isSubnormal code)) then (f.signed neg 0, .oneFtz)
    else (f.signed neg code, .zero)

/-- Encode an exact value into format code `c` (R83 to R87). -/
def cvtEncode (c : Nat) (rnd : BitVec 2) (sat fzo : Bool) (x : Ext) : Nat × Counts :=
  match floatOfCode c with
  | some f => f.encode rnd sat fzo x
  | none =>
    match c with
    | 5 => intEncode rnd (-128) 127 8 x
    | 6 => taperedEncode 7 x
    | 7 => taperedEncode 5 x
    | 8 => intEncode rnd (-(2 ^ 31)) (2 ^ 31 - 1) 32 x
    | 9 => intEncode rnd 0 (2 ^ 32 - 1) 32 x
    | _ => e8m0Encode x

/-- `CVT` of one element (R83); what FZI flushes on the way into E8M0 is not counted (R87). -/
def cvtBits (src dst : Nat) (rnd : BitVec 2) (sat fzi fzo : Bool) (x : Nat) : Nat × Counts :=
  let v := cvtDecode src fzi x
  let r := cvtEncode dst rnd sat fzo v.1
  (r.1, if dst = 10 then r.2 else v.2.add r.2)

/-- One FP32 code in a BF16 code's place (R66). -/
def bf16ToFp32 (x : Nat) : Nat := x * 65536

/-- The quantiser of R75 on FP32 codes: the scale code, the signed mantissas and the counts. `a6` selects A6. -/
def quantise (a6 fzi : Bool) (xs : List Nat) : Nat × List Int × Counts :=
  let fl := xs.map (fp32.flushIn fzi)
  let c0 := fl.foldl (fun c x => c.add x.2) .zero
  let vs := fl.map fun x => fp32.decode x.1
  if vs.any Ext.isNan then (255, xs.map (fun _ => 0), c0.add .oneNan)
  else
    let fin := vs.map fun v => match v with
      | .inf neg => (Ext.num neg (2 ^ 24 - 1) 104, Counts.oneSat)
      | v => (v, Counts.zero)
    let c1 := fin.foldl (fun c x => c.add x.2) c0
    let es : List Int := fin.filterMap fun v => match v.1 with
      | .num _ m e => if m = 0 then none else some (log2Mag m e)
      | _ => none
    if es.isEmpty then (0, xs.map (fun _ => 0), c1)
    else
      let E := es.foldl max (-127)
      let sh : Int := if a6 then 4 - E else 6 - E
      let lim : Int := if a6 then 31 else 127
      let ms := fin.map fun v => match v.1 with
        | .num neg m e =>
          let t := scaled neg (roundMag 0 neg m (e + sh)) 0 0
          let r := max (-lim) (min lim t)
          (r, ((if r != t then Counts.oneSat else .zero).add (if m != 0 && r == 0 then .oneFtz else .zero)))
        | _ => (0, Counts.zero)
      ((E + 127).toNat, ms.map (fun x => x.1), ms.foldl (fun c x => c.add x.2) c1)

end Sys2Proof.Machine
end

