-- ==== Sys2Proof/Syntax.lean ====
section
/-! DEFINITION. The instruction type: one constructor per row of spec/opcode_table.json. Instruction forms carry the
fields of their words (R243 to R249); events carry which unit or request they concern and what the spec leaves open in them. -/

namespace Sys2Proof

/-- The fields every instruction has: guard, length code, tensor identifier and yield hint (R243, R244, R275). -/
structure Ctl where
  gn : Bool
  g : PReg
  len : BitVec 2
  tid : BitVec 6
  yh : Bool
deriving DecidableEq, Repr

/-- Integer modifiers: 64-bit pairs, unsigned, saturate (R248, R327). -/
structure IMod where
  w : Bool
  un : Bool
  sat : Bool
deriving DecidableEq, Repr

/-- Floating-point controls: rounding, saturate, flush inputs, flush results (R76 to R78). -/
structure FMod where
  rnd : BitVec 2
  sat : Bool
  fzi : Bool
  fzo : Bool
deriving DecidableEq, Repr

/-- Memory controls: size code, order, scope, cache hint and signed byte offset (R121, R131, R249). -/
structure MMod where
  sz : BitVec 3
  ord : BitVec 2
  scope : BitVec 3
  ch : BitVec 2
  off : Word
deriving DecidableEq, Repr

/-- Copy controls (R157): order, scope, cache hint, wide C operand, queue, barrier arrival, coordinate registers. -/
structure CMod where
  ord : BitVec 2
  scope : BitVec 3
  ch : BitVec 2
  wide : Bool
  queue : BitVec 9
  barv : Bool
  bar : BitVec 5
  nc : BitVec 3
deriving DecidableEq, Repr

/-- `AXM` controls (R101, R289): activation width, fragment format, repeat code, flushes, array, M - 1, K - 1. -/
structure AMod where
  pa6 : Bool
  bf16 : Bool
  rep : BitVec 2
  fzi : Bool
  fzo : Bool
  arr : BitVec 5
  m1 : BitVec 3
  k1 : BitVec 8
deriving DecidableEq, Repr

/-- Parts of a request that an event performs: of these lanes, and of a 16-byte access these 8-byte halves (R141). -/
structure Parts where
  id : Nat
  mask : Mask
  halves : BitVec 2
deriving DecidableEq, Repr

/-- Parts of a store that have come to the caches of their core and die, or to their homes (R119, R123). -/
structure Notice where
  parts : Parts
  home : Bool
deriving DecidableEq, Repr

/-- Lanes of an atomic that an event performs. -/
structure LaneSet where
  id : Nat
  mask : Mask
deriving DecidableEq, Repr

/-- A copy entry and how many of its units an event moves at most: elements, or messages of an XRED (R164, R220). -/
structure Moves where
  id : Nat
  units : Nat
deriving DecidableEq, Repr

/-- The link a PTP message came over, as TMCTL names it (R210). -/
structure PtpLink where
  port : Nat
  domain : Nat
  pdly : Bool
deriving DecidableEq, Repr

/-- What an `XRED` rank on a peer part has delivered (R166, R167): its rank number, its RANKS, and its COUNT elements as FP32 codes. -/
structure PeerRank where
  rank : Nat
  ranks : Nat
  xs : List Nat
deriving DecidableEq, Repr

/-- A register offset in the management target, and who writes it: the host or Estuary (R271). -/
structure RegAt where
  host : Bool
  off : Nat
deriving DecidableEq, Repr

/-- What a soft error strikes (R238). -/
inductive Strike where
  | homeByte (pa : Nat) (bit : Nat)
  | homeSector (sector : Nat)
  | tile (core phys offset bit : Nat)
  | tileBit (core phys offset bit : Nat)
  | tileWord (core phys offset : Nat)
  | register (core pos reg : Nat)
  | l1Word (core pa bit : Nat)
  | l2Word (die pa bit : Nat)
  | icacheWord (core pa : Nat)
  | corrected
deriving DecidableEq, Repr

/-- An uncorrectable error in a bank card's RUN (R208): the rank of the bank, the micro-command (4,094 the broadcast load, 4,095 the write of partial
`lo`), and the window the part chooses. -/
structure BankError where
  rank : Nat
  command : Nat
  lo : Nat
  hi : Nat
deriving DecidableEq, Repr

/-- What a RUN of a bank card does in one event: the errors that strike it, and the partials it writes (R208). -/
structure BankRun where
  errors : List BankError
  first : Nat
  count : Nat
deriving DecidableEq, Repr

/-- What start-up finds on one start (R272): whether each Estuary slot verifies, the outcomes that decide the configuration, the cores that are
disabled (R18, R19), and the arrays (core, physical array, USABLE) that have not all four granules (R11, R20). -/
structure StartUp where
  headlandOk : Bool
  slot0Ok : Bool
  slot1Ok : Bool
  memFail : BitVec 4
  coreDieFail : BitVec 8
  portsOk : Bool
  cxlOk : Bool
  estuaryOk : Bool
  coresOff : List Nat
  harvest : List (Nat × Nat × Nat)
deriving DecidableEq, Repr

/-- One instruction form or one event of the part: the rows of spec/opcode_table.json in their order, three rows without
arguments last. -/
inductive Instr where
  | iadd (c : Ctl) (m : IMod) (d a b : Reg)
  | iaddImmediate (c : Ctl) (m : IMod) (d a : Reg) (imm : DWord)
  | isub (c : Ctl) (m : IMod) (d a b : Reg)
  | isubImmediate (c : Ctl) (m : IMod) (d a : Reg) (imm : DWord)
  | imul (c : Ctl) (m : IMod) (d a b : Reg)
  | imulImmediate (c : Ctl) (m : IMod) (d a : Reg) (imm : DWord)
  | imulh (c : Ctl) (m : IMod) (d a b : Reg)
  | imulhImmediate (c : Ctl) (m : IMod) (d a : Reg) (imm : DWord)
  | imad (c : Ctl) (m : IMod) (d a b e : Reg)
  | imadImmediate (c : Ctl) (m : IMod) (d a : Reg) (imm : DWord) (e : Reg)
  | imin (c : Ctl) (m : IMod) (d a b : Reg)
  | iminImmediate (c : Ctl) (m : IMod) (d a : Reg) (imm : DWord)
  | imax (c : Ctl) (m : IMod) (d a b : Reg)
  | imaxImmediate (c : Ctl) (m : IMod) (d a : Reg) (imm : DWord)
  | iabs (c : Ctl) (m : IMod) (d a : Reg)
  | ineg (c : Ctl) (m : IMod) (d a : Reg)
  | and (c : Ctl) (w : Bool) (d a b : Reg)
  | andImmediate (c : Ctl) (w : Bool) (d a : Reg) (imm : DWord)
  | or (c : Ctl) (w : Bool) (d a b : Reg)
  | orImmediate (c : Ctl) (w : Bool) (d a : Reg) (imm : DWord)
  | xor (c : Ctl) (w : Bool) (d a b : Reg)
  | xorImmediate (c : Ctl) (w : Bool) (d a : Reg) (imm : DWord)
  | not (c : Ctl) (w : Bool) (d a : Reg)
  | shl (c : Ctl) (w : Bool) (d a b : Reg)
  | shlImmediate (c : Ctl) (w : Bool) (d a : Reg) (imm : DWord)
  | shr (c : Ctl) (w : Bool) (d a b : Reg)
  | shrImmediate (c : Ctl) (w : Bool) (d a : Reg) (imm : DWord)
  | sar (c : Ctl) (w : Bool) (d a b : Reg)
  | sarImmediate (c : Ctl) (w : Bool) (d a : Reg) (imm : DWord)
  | popc (c : Ctl) (w : Bool) (d a : Reg)
  | clz (c : Ctl) (w : Bool) (d a : Reg)
  | brev (c : Ctl) (w : Bool) (d a : Reg)
  | bfe (c : Ctl) (w un : Bool) (d a : Reg) (pos wid1 : BitVec 6)
  | bfi (c : Ctl) (w : Bool) (d a e : Reg) (pos wid1 : BitVec 6)
  | icmp (c : Ctl) (w un : Bool) (cond : BitVec 3) (p : PReg) (a b : Reg)
  | icmpImmediate (c : Ctl) (w un : Bool) (cond : BitVec 3) (p : PReg) (a : Reg) (imm : DWord)
  | sel (c : Ctl) (d a b : Reg) (p : PReg)
  | selImmediate (c : Ctl) (d a : Reg) (imm : Word) (p : PReg)
  | lea (c : Ctl) (w un : Bool) (d a b : Reg) (shift : BitVec 5)
  | leaImmediate (c : Ctl) (w : Bool) (d a : Reg) (imm : DWord) (shift : BitVec 5)
  | fadd (c : Ctl) (m : FMod) (d a b : Reg)
  | faddImmediate (c : Ctl) (m : FMod) (d a : Reg) (imm : Word)
  | fsub (c : Ctl) (m : FMod) (d a b : Reg)
  | fsubImmediate (c : Ctl) (m : FMod) (d a : Reg) (imm : Word)
  | fmul (c : Ctl) (m : FMod) (d a b : Reg)
  | fmulImmediate (c : Ctl) (m : FMod) (d a : Reg) (imm : Word)
  | ffma (c : Ctl) (m : FMod) (d a b e : Reg)
  | ffmaImmediate (c : Ctl) (m : FMod) (d a : Reg) (imm : Word) (e : Reg)
  | fmin (c : Ctl) (m : FMod) (d a b : Reg)
  | fminImmediate (c : Ctl) (m : FMod) (d a : Reg) (imm : Word)
  | fmax (c : Ctl) (m : FMod) (d a b : Reg)
  | fmaxImmediate (c : Ctl) (m : FMod) (d a : Reg) (imm : Word)
  | fcmp (c : Ctl) (fzi : Bool) (cond : BitVec 3) (p : PReg) (a b : Reg)
  | fcmpImmediate (c : Ctl) (fzi : Bool) (cond : BitVec 3) (p : PReg) (a : Reg) (imm : Word)
  | fclass (c : Ctl) (p : PReg) (a : Reg) (mask : BitVec 9)
  | frcp (c : Ctl) (m : FMod) (d a : Reg)
  | frsq (c : Ctl) (m : FMod) (d a : Reg)
  | fsqrt (c : Ctl) (m : FMod) (d a : Reg)
  | fex2 (c : Ctl) (m : FMod) (d a : Reg)
  | flg2 (c : Ctl) (m : FMod) (d a : Reg)
  | fsin (c : Ctl) (m : FMod) (d a : Reg)
  | fcos (c : Ctl) (m : FMod) (d a : Reg)
  | frnd (c : Ctl) (m : FMod) (d a : Reg)
  | hadd2 (c : Ctl) (m : FMod) (d a b : Reg)
  | hadd2Immediate (c : Ctl) (m : FMod) (d a : Reg) (imm : Word)
  | hmul2 (c : Ctl) (m : FMod) (d a b : Reg)
  | hmul2Immediate (c : Ctl) (m : FMod) (d a : Reg) (imm : Word)
  | hfma2 (c : Ctl) (m : FMod) (d a b e : Reg)
  | hfma2Immediate (c : Ctl) (m : FMod) (d a : Reg) (imm : Word) (e : Reg)
  | hmin2 (c : Ctl) (m : FMod) (d a b : Reg)
  | hmin2Immediate (c : Ctl) (m : FMod) (d a : Reg) (imm : Word)
  | hmax2 (c : Ctl) (m : FMod) (d a b : Reg)
  | hmax2Immediate (c : Ctl) (m : FMod) (d a : Reg) (imm : Word)
  | cvt (c : Ctl) (m : FMod) (src dst : BitVec 4) (d a : Reg)
  | mov (c : Ctl) (w : Bool) (d a : Reg)
  | movi (c : Ctl) (w : Bool) (d : Reg) (imm : DWord)
  | lanex (c : Ctl) (seg : BitVec 3) (mode : BitVec 2) (d a b : Reg)
  | lanexImmediate (c : Ctl) (seg : BitVec 3) (mode : BitVec 2) (d a : Reg) (imm : Word)
  | vote (c : Ctl) (form : BitVec 2) (d : Reg) (p : PReg)
  | pset (c : Ctl) (opc : BitVec 3) (p : PReg) (x y : Reg)
  | pcnt (c : Ctl) (pfx : Bool) (d : Reg) (p : PReg)
  | unif (c : Ctl) (d a : Reg)
  | shape (c : Ctl) (d a : Reg)
  | ld (c : Ctl) (m : MMod) (d a : Reg)
  | st (c : Ctl) (m : MMod) (a b : Reg)
  | lds (c : Ctl) (m : MMod) (d a : Reg)
  | sts (c : Ctl) (m : MMod) (a b : Reg)
  | ldx (c : Ctl) (m : MMod) (d a k : Reg)
  | stx (c : Ctl) (m : MMod) (a b k : Reg)
  | atom (c : Ctl) (m : MMod) (op : BitVec 3) (d a b : Reg)
  | atoms (c : Ctl) (m : MMod) (op : BitVec 3) (d a b : Reg)
  | atomsCluster (c : Ctl) (m : MMod) (op : BitVec 3) (d a b k : Reg)
  | red (c : Ctl) (m : MMod) (op : BitVec 3) (a b : Reg)
  | fence (c : Ctl) (ord : BitVec 2) (scope : BitVec 3)
  | cctlL1inv (c : Ctl) (a : Reg) (off : Word)
  | cctlWb (c : Ctl) (a : Reg) (off : Word)
  | cctlIcore (c : Ctl)
  | cctlIdie (c : Ctl)
  | cctlIdev (c : Ctl)
  | pref (c : Ctl) (l2 : Bool) (a : Reg) (off : Word)
  | bra (c : Ctl) (off : Word)
  | brx (c : Ctl) (a : Reg)
  | call (c : Ctl) (off : Word)
  | callx (c : Ctl) (a : Reg)
  | ret (c : Ctl)
  | exit (c : Ctl)
  | yield (c : Ctl)
  | nop (c : Ctl)
  | jenter (c : Ctl) (j : SetNo)
  | jenterF (c : Ctl) (j : SetNo)
  | jquit (c : Ctl) (j : SetNo)
  | jwait (c : Ctl) (j : SetNo)
  | jget (c : Ctl) (d : Reg) (j : SetNo)
  | jput (c : Ctl) (j : SetNo) (a : Reg)
  | barSync (c : Ctl) (b : BitVec 5)
  | barArrive (c : Ctl) (b : BitVec 5)
  | barWait (c : Ctl) (b : BitVec 5)
  | trap (c : Ctl) (code : BitVec 8)
  | brk (c : Ctl)
  | bcopy (c : Ctl) (m : CMod) (t a b e : Reg)
  | bcopyr (c : Ctl) (m : CMod) (rop : BitVec 3) (t a b e : Reg)
  | xred (c : Ctl) (m : CMod) (t a : Reg)
  | qfence (c : Ctl) (ch : BitVec 2) (t : Reg) (base : BitVec 9) (mask : BitVec 8)
  | qinit (c : Ctl) (q : BitVec 3) (a : Reg) (log2n : BitVec 4) (esz : Bool)
  | qpush (c : Ctl) (d8 : Bool) (p : PReg) (q : BitVec 3) (b : Reg)
  | qpop (c : Ctl) (d8 : Bool) (p : PReg) (q : BitVec 3) (d : Reg)
  | amode (c : Ctl) (rg tc : Bool) (a : Reg) (mask : Word)
  | acfg (c : Ctl) (a6 : Bool) (sgc : BitVec 2) (arr : BitVec 5)
  | axm (c : Ctl) (m : AMod) (d a : Reg)
  | aqry (c : Ctl) (d a : Reg)
  | aqryImmediate (c : Ctl) (d : Reg) (arr : BitVec 5)
  | invoke (c : Ctl) (d a : Reg)
  | invokeCore (c : Ctl) (d a e : Reg)
  | invokePark (c : Ctl) (d a e : Reg)
  | chain (c : Ctl) (d a b : Reg)
  | await (c : Ctl) (p : PReg) (d b : Reg)
  | awaitT (c : Ctl) (p : PReg) (d b : Reg)
  | hpoll (c : Ctl) (p : PReg) (b : Reg)
  | hset (c : Ctl) (a : Reg)
  | hbreak (c : Ctl) (code : BitVec 8)
  | hdrop (c : Ctl) (b : Reg)
  | bjob (c : Ctl) (t a : Reg)
  | sread (c : Ctl) (d : Reg) (n : BitVec 8)
  | swrite (c : Ctl) (a : Reg)
  | time (c : Ctl) (d : Reg)
  | timeCc (c : Ctl) (d : Reg)
  | sleep (c : Ctl) (n : Word)
  | sleepRegister (c : Ctl) (a : Reg)
  | sleepAbs (c : Ctl) (a : Reg)
  | stat (c : Ctl)
  | statOne (c : Ctl) (t : BitVec 6)
  | trapret (c : Ctl)
  -- events of the part
  | splitAged (core pos : Nat) (pc : DWord)
  | instructionFetch (core pos : Nat) (pc : DWord)
  | slotsFreedInvokeResume (id : Nat)
  | sleepWake (core pos : Nat)
  | registerWriteReturn (id : Nat)
  | clusterPlace (launch : Nat) (cores : List Nat)
  | workgroupRelease (wg : Nat)
  | launchComplete (launch : Nat)
  | amodeAccept (id : Nat)
  | arrayEnterCompute (core phys : Nat) (parityFails : Bool)
  | arrayEnterStorage (core phys : Nat)
  | arrayAccessAccept (p : Parts)
  | acfgAccept (id : Nat)
  | axmAccept (id : Nat)
  | axmStart (core phys repeats : Nat)
  | axmResultWrite (core phys : Nat)
  | loadServed (p : Parts) (leaseL2 leaseL1 : Nat)
  | leaseExpire (l2 : Bool) (unit sector : Nat)
  | storeNoticeArrive (n : Notice)
  | recall (line : Nat)
  | l2Eviction (die line : Nat)
  | atomicPerform (p : LaneSet) (lease : Nat)
  | releaseSend (id : Nat)
  | acquireComplete (core pos : Nat)
  | fenceComplete (core pos : Nat)
  | accessChecked (id : Nat)
  | accessRefused (id : Nat)
  | faultRollback (core pos : Nat)
  | pageWalkComplete (core ctx : Nat) (va : DWord)
  | tlbicGo (v : Word)
  | tlbInvalidationDone
  | copyEntryAccept (id : Nat)
  | copyEntryBegin (m : Moves)
  | copyEntryComplete (id : Nat)
  | copyTranslationFault (id : Nat)
  | qctlAbort (q : Nat)
  | qctlResume (q : Nat)
  | qctlBind (q : Nat) (bound : Bool) (ctx : BitVec 3)
  | reductionMessageArrive (q seq chunk : Nat)
  | floorNoticeArrive (slice q seq chunk : Nat)
  | reductionAckArrive (q seq chunk : Nat)
  | reductionResend (q seq chunk : Nat)
  | qfenceMarkersLeave (id : Nat)
  | xredPhase1Complete (group epoch : Nat) (peers : List PeerRank)
  | xredEntryComplete (m : Moves)
  | peerWriteReceive (port ctx : Nat) (va : DWord) (data : List Byte)
  | peerAcknowledge (id elem : Nat) (refused : Bool)
  | linkRetryExhausted (id elem : Nat)
  | parkArrive (handle : DWord)
  | taskDispatch (core : Nat)
  | handleResolve (handle : DWord)
  | successorDecrement (handle : DWord) (second : Bool)
  | decrementAcknowledge (handle : DWord)
  | handleMessageArrive (id : Nat)
  | chainListRun (handle : DWord)
  | awaitWake (handle : DWord)
  | bankCardAccept (id : Nat)
  | bankCardClean (id : Nat)
  | bankCardRun (id : Nat) (run : BankRun)
  | bankCardDone (id : Nat)
  | ptpMessageReceive (link : PtpLink) (ns : Nat)
  | hold
  | tmctlWrite (v : Word)
  | timetableLaunchFiring (n : Nat)
  | timetableGangSwitchFiring (n : Nat)
  | timetableStopFiring (n : Nat)
  | deferredFiringAct (n : Nat)
  | ttctlArm (n : Nat) (v : Word)
  | timetableEntryWrite (n word : Nat) (v : Word)
  | stagingStart (n : Nat)
  | warpStop (core pos : Nat)
  | switchStopDeadline
  | queuePause (q : Nat)
  | switchSaveComplete
  | switchIn
  | ctxdActivate (n : Nat) (v : DWord)
  | ctxdTeardown (n : Nat)
  | contextStopDone (n : Nat)
  | partReset (u : StartUp)
  | dieReset (d : Nat)
  | dieResetReturn (d : Nat)
  | overlimitReset (u : StartUp)
  | atctlGo (v : Word)
  | atctlClear (v : Word)
  | attestationReportDone
  | attestInputWrite (off : Nat) (v : Word)
  | hostMemRead (off n : Nat)
  | hostMemWrite (off : Nat) (data : List Byte)
  | hostRegisterBadWidth (write : Bool)
  | registerWrite (r : RegAt) (wide : Bool) (v : DWord)
  | softError (x : Strike)
  | cxlCacheAcknowledgement (p : Parts)
  | bootclr
  | powerLimitExceeded
  | powerWithinLimits
deriving DecidableEq, Repr

end Sys2Proof
end

