-- ==== Sys2Proof/Machine/State.lean ====
section
/-! DEFINITION. The state of the part as plain data, its faults and refusals, and the state after reset.
Every field names the rules of spec/ that give it; INVENTORY.md lists them with their reset values. -/

namespace Sys2Proof.Machine

/-! ## Warps (spec/02, 03, 04, 13) -/

/-- A vector register (R57): uniform, affine or general (lane values, lane 0 first). -/
inductive VReg where
  | u (x : Word)
  | a (base stride : Word)
  | g (xs : List Word)
deriving DecidableEq, Repr

/-- The state of a lane (R32). An Awaiting lane names the request it waits for; a lane At barrier names the barrier and, once the warp's
arrival is counted, the phase whose completion releases it; a Sleeping lane its wake time. -/
inductive LaneState where
  | runnable
  | parked
  | awaiting (req : Nat)
  | atBarrier (b : BitVec 5) (sync : Bool) (phase : Option (BitVec 16))
  | sleeping (wake : Nat)
  | exited
deriving DecidableEq, Repr

/-- A lane (R32, R37, R39, R47). `bpc` is the PC of the instruction that blocked it, kept for the save area (R65). -/
structure Lane where
  pc : DWord
  st : LaneState
  wait : BitVec 16
  depth : BitVec 16
  ym : Bool
  bpc : DWord
deriving DecidableEq, Repr

/-- A rejoin set (R45). -/
structure RejoinSet where
  m : Mask
  w : Mask
  fb : Bool
  d : BitVec 16
deriving DecidableEq, Repr

/-- What blocks the handler split (R233, R239). -/
inductive HandlerBlock where
  | sleep (wake : Nat)
  | await (req : Nat)
deriving DecidableEq, Repr

/-- Handler mode (R231 to R234): mask, handler PC, entry resume point, the sixteen record words, and what blocks it. -/
structure Handler where
  mask : Mask
  pc : DWord
  epc : DWord
  words : List Word
  blk : Option HandlerBlock
deriving DecidableEq, Repr

/-- The part of a warp that a checkpoint holds (R229); `bad` marks the registers whose read fails (R238). -/
structure Arch where
  lanes : List Lane
  vregs : List VReg
  preds : List Mask
  sets : List RejoinSet
  handler : Option Handler
  bad : BitVec 64
deriving DecidableEq, Repr

/-- Registers and predicates whose write by instruction `id` is pending (R34, R35); `async` marks the tokens and `AWAIT` results of R41;
`ready` is the cc at which the result of a pipe is available, and `query` marks that of an `AQRY`, for which the position of an exited warp waits (R41). `hdl`, here and below, is true of an instruction issued in handler mode, where
register 60 names the record (R232). -/
structure Pend where
  id : Nat
  regs : List Reg
  preds : List PReg
  async : Bool
  ready : Option Nat
  query : Bool
  hdl : Bool
deriving DecidableEq, Repr

/-- A launch header (R23): its nine 64-bit fields. -/
structure Header where
  entry : DWord
  argp : DWord
  statp : DWord
  safep : DWord
  traph : DWord
  idw : DWord
  glim : DWord
  resw : DWord
  schw : DWord
deriving DecidableEq, Repr

/-- Why a split is held at issue: INVOKE or CHAIN for slots, copies for their queue, bank jobs for their dispatcher (R158, R177, R206). -/
inductive HoldKind where
  | slots (n : Nat)
  | queue (ins : Nat)
  | jobs (ins : Nat)
deriving DecidableEq, Repr

/-- Lanes held at issue. -/
structure Hold where
  mask : Mask
  kind : HoldKind
deriving DecidableEq, Repr

/-- A fence or acquire whose conditions are not yet met (R137 to R139, R320): requests below `upto` are the earlier ones; `pushed` once
its push at `.sys` is made (R119). -/
structure FenceCond where
  acq : Bool
  rel : Bool
  scope : Nat
  upto : Nat
  pushed : Bool
deriving DecidableEq, Repr

/-- The bytes of the instruction at a PC as some lanes have fetched them ahead of its issue (R309). -/
structure Fetched where
  pc : DWord
  lanes : Mask
  bytes : List Byte
deriving DecidableEq, Repr

/-- What an `INVOKE` or `CHAIN` has read for its active lanes before it waits for slots (R310, R330): the words of each lane's record, and the place of each
lane's counter. -/
structure SlotRead where
  pc : DWord
  act : Mask
  recs : List (Nat × List DWord)
  ctrs : List (Nat × Nat)
deriving DecidableEq, Repr

/-- A warp (R10, R32 to R44). `uid` names it for life; `task` is the handle of a task warp (R181), `succs` its record's SUCCA and SUCCB (R183) and `hset` a
value it recorded (R182). -/
structure Warp where
  uid : Nat
  core : Nat
  pos : Nat
  wg : Nat
  index : Nat
  hdr : Header
  ctx : BitVec 3
  task : Option DWord
  succs : List DWord
  argp : DWord
  hset : Option DWord
  arch : Arch
  snaps : List (Nat × Arch)
  pends : List Pend
  ctime : List Nat
  acqUntil : Nat
  stampMax : Nat
  fences : List FenceCond
  holds : List Hold
  fetched : List Fetched
  reads : List SlotRead
  stalled : Bool
  acted : Mask
  ymNew : Mask
  ymUse : Bool
deriving DecidableEq, Repr

/-- A candidate of a partition: a warp and the PC of its split. -/
structure Cand where
  uid : Nat
  pc : DWord
deriving DecidableEq, Repr

/-- What a split started in this cc names and writes (R36). -/
structure Started where
  uid : Nat
  names : List Reg
  writes : List Reg
  pnames : List PReg
  pwrites : List PReg
deriving DecidableEq, Repr

/-- The issue of a partition in this cc (R35, R36, R38): the cc until which each of the six resources is busy, the candidates still to be walked once the
list is formed, and the splits started. -/
structure Partition where
  core : Nat
  part : Nat
  busy : List Nat
  cands : Option (List Cand)
  started : List Started
deriving DecidableEq, Repr

/-! ## Workgroups and launches (spec/02, 05, 10, 16) -/

/-- A barrier (R292). -/
structure Barrier where
  phase : BitVec 16
  arrived : BitVec 16
  deferred : BitVec 16
  ncopy : Nat
  carr : Nat
deriving DecidableEq, Repr

/-- A lane queue (R192). -/
structure LaneQueue where
  init : Bool
  base : Nat
  log2n : Nat
  esz8 : Bool
  head : Word
  tail : Word
deriving DecidableEq, Repr

/-- The four statistics counters of one tensor identifier (R88). -/
structure StatRow where
  tid : Nat
  nsat : Nat
  nftz : Nat
  nnan : Nat
  nmrg : Nat
deriving DecidableEq, Repr

/-- A placed workgroup (R27 to R29, R42, R43). `members` are the keys of its cluster's workgroups in rank order; `left` is set once its
warps have exited and its slot is returned. -/
structure Workgroup where
  key : Nat
  core : Nat
  launch : Option Nat
  rank : Nat
  cluster : Nat
  members : List Nat
  hdr : Header
  ctx : BitVec 3
  warps : Nat
  arrays : List Nat
  bars : List Barrier
  queues : List LaneQueue
  stats : List StatRow
  lastPos : Nat
  left : Bool
deriving DecidableEq, Repr

/-- A kernel launch (R24, R29, R44): `start` is the Tidemark from which each die acts on its firing (R216), `acqTime` that of the acquire its warps begin
with (R217), `statTime` the time by which its statistics have performed (R91); `ended` once PREEMPT or teardown ends it, on each die from Tidemark `stop` (R216). -/
structure Launch where
  key : Nat
  ctx : BitVec 3
  hdr : Header
  next : Nat
  total : Nat
  left : Nat
  entry : Option Nat
  start : Nat
  acqTime : Nat
  statTime : Nat
  ended : Bool
  stop : Nat
deriving DecidableEq, Repr

/-! ## Compute arrays (spec/06) -/

/-- An accepted `AXM` (R101 to R111): operands read at issue; `result` is filled when it runs. -/
structure AxmJob where
  id : Nat
  uid : Nat
  tid : Nat
  d : Reg
  m : Nat
  k : Nat
  pa6 : Bool
  rep : Nat
  fzi : Bool
  fzo : Bool
  acts : List (List Word)
  cs : List (List Word)
  result : Option (List (List Word))
  hdl : Bool
deriving DecidableEq, Repr

/-- What an array has accepted and not yet performed, in order (R97 to R100): accesses of a request, bytes that copy entry `id` writes, which reach the tile once the
die's Tidemark has reached `due` (R135), and `AMODE` targets (true: compute) of a warp that take effect when the transition ends. -/
inductive ArrayItem where
  | access (id : Nat)
  | write (id : Nat) (cells : List Host.Cell) (due : Nat)
  | mode (compute : Bool) (uid : Nat)
deriving DecidableEq, Repr

/-- A compute array (R93 to R98): physical array `phys` of core `core`. `flips` are the bits (offset, bit) that soft errors have changed since its parity check: the
converters read them changed, and storage reads correct them (R97, R238). -/
structure ArrayRec where
  core : Nat
  phys : Nat
  usable : Nat
  mode : BitVec 2
  wfmt6 : Bool
  sg : Nat
  poisoned : Bool
  queue : List ArrayItem
  axms : List AxmJob
  flips : List (Nat × Nat)
deriving DecidableEq, Repr

/-! ## Memory (spec/07, 08, 13) -/

/-- A release stamp (R138): scope, instance of that scope, completion time. -/
structure Stamp where
  scope : Nat
  inst : Nat
  time : Nat
deriving DecidableEq, Repr

/-- A cached byte with its stamp. -/
structure CByte where
  b : Byte
  stamp : Option Stamp
deriving DecidableEq, Repr

/-- A valid L1 sector (R117, R118): 64 bytes of physical sector `sec` under a lease; bit k of `bad` marks 64-bit word k uncorrectable (R238). -/
structure L1Sector where
  core : Nat
  sec : Nat
  expiry : Nat
  data : List CByte
  bad : Byte
deriving DecidableEq, Repr

/-- An L2 sector (R118): clean bytes are valid under the lease, dirty bytes always. `ef` marks it for eviction first (R121), `bad` its uncorrectable
64-bit words (R238). -/
structure L2Sector where
  die : Nat
  sec : Nat
  expiry : Option Nat
  data : List CByte
  dirty : DWord
  ef : Bool
  bad : Byte
deriving DecidableEq, Repr

/-- Bytes of a store that its core's L1 and its die's L2 have accepted and whose notice is on its way to the home (R118, R123, R135): the part `half` of lane
`lane` of request `id`, to be delivered once the die's Tidemark has reached `due`. -/
structure NearStore where
  id : Nat
  lane : Nat
  half : Nat
  die : Nat
  pa : Nat
  bytes : List CByte
  due : Nat
deriving DecidableEq, Repr

/-- A valid leaf held by a TLB (R126): `core` below 192 is a core's L1 TLB, 192 + d the L2 TLB of compute die d. -/
structure TlbEntry where
  unit : Nat
  ctx : BitVec 3
  va : Nat
  size : Nat
  entry : DWord
deriving DecidableEq, Repr

/-- A word a core's instruction cache holds (R221, R253, R308), tagged by context and physical address; `bad` marks it uncorrectable (R238). -/
structure ILine where
  core : Nat
  ctx : BitVec 3
  pa : Nat
  bytes : List Byte
  bad : Bool
deriving DecidableEq, Repr

/-- The range of an invalidation (R127): context, ALL, first address and pages. -/
structure TlbRange where
  ctx : BitVec 3
  all : Bool
  va : Nat
  pages : Nat
deriving DecidableEq, Repr

/-- The memory of the part: home bytes and stamps, scratchpad bytes, poison (64-byte sectors at the home, 8-byte words of scratchpad), caches with the
stores they have accepted, oldest first, leases, TLBs, the time by which each context's statistics additions have performed (R91), and what the running invalidation waits for (R127), a condition, copy entries and bank cards, with its
range. -/
structure MemSys where
  home : List Host.Cell
  spad : List Host.Cell
  stamps : List (Nat × Stamp)
  poison : List Nat
  spadPoison : List Nat
  l1 : List L1Sector
  l2 : List L2Sector
  near : List NearStore
  l2Lease : List (Nat × Nat)
  l1Lease : List (Nat × Nat × Nat)
  tlb : List TlbEntry
  icache : List ILine
  addTimes : List (Nat × Nat)
  tlbia : DWord
  tlbic : Word
  tlbKey : Nat
  tlbWait : List Nat
  tlbRange : TlbRange
deriving DecidableEq, Repr

/-! ## Requests in flight (R227 to R229) -/

/-- The address space of a memory access. -/
inductive Space where
  | global
  | spad
deriving DecidableEq, Repr

/-- What a memory access does: a load (sign-extended or not), a store, or an atomic (`ret`: the old value is returned). -/
inductive MemOp where
  | load (sgn : Bool)
  | store
  | atom (op : BitVec 3) (ret : Bool)
deriving DecidableEq, Repr

/-- One lane's access: virtual or scratchpad address, place (physical address, or scratchpad cell), page policy, operands, loaded value. A 16-byte access has
two parts of 8 bytes, any other one (R141): bit h of `left` is set until part h is served or accepted, bit h of `far` until the notice of part h of a store to
global memory has reached its home. -/
structure LaneAcc where
  lane : Nat
  va : Nat
  pa : Nat
  cp : BitVec 2
  data : Nat
  cmp : Nat
  res : Nat
  left : BitVec 2
  far : BitVec 2
deriving DecidableEq, Repr

/-- A memory access of one instruction. `pred` is the predicate a queue instruction answers with, and its lanes (R349). -/
structure MemReq where
  space : Space
  cluster : Bool
  op : MemOp
  sz : Nat
  ord : BitVec 2
  scope : Nat
  ch : BitVec 2
  lanes : List LaneAcc
  dests : List Reg
  uni : Bool
  pred : Option (PReg × Mask)
deriving DecidableEq, Repr

/-- What a request asks for. -/
inductive ReqKind where
  | mem (m : MemReq)
  | acfg (phys : Nat) (arr : Nat) (a6 : Bool) (sg : Nat)
  | amode (targets : List Nat) (compute : Bool)
  | axm (phys : Nat) (arr : Nat) (j : AxmJob)
  | await (hs : List (Nat × DWord)) (d : Reg) (p : PReg) (t : Bool)
  | hpoll (hs : List (Nat × DWord)) (p : PReg)
  | hdrop (hs : List (Nat × DWord))
  | chain (hs : List (Nat × DWord × DWord))
  | stat (words : List (Nat × Nat)) (statp : Nat)
deriving DecidableEq, Repr

/-- The content of a trap (R225, R231, R232). -/
structure TrapInfo where
  cause : Nat
  detail : Nat
  aux : Nat
  lane : Option Nat
  addr : DWord
  acc : Nat
  actm : Mask
  hmask : Mask
  tpc : DWord
  rpc : DWord
deriving DecidableEq, Repr

/-- A request in flight: who issued it, what it asks, and how far it is (checked: R227; sent: the release of R137 has left; held: its arrays have
accepted it; served: its data is bound). `due` is the die and the Tidemark there from which the message in flight for it is delivered (R135). An atomic is struck when the value it read
met an uncorrectable error after its check (R238). -/
structure Req where
  id : Nat
  uid : Nat
  core : Nat
  pos : Nat
  ctx : BitVec 3
  wg : Nat
  tid : Nat
  pc : DWord
  next : DWord
  act : Mask
  split : Mask
  live : Mask
  kind : ReqKind
  checked : Bool
  sent : Bool
  held : Bool
  served : Bool
  fault : Option TrapInfo
  hdl : Bool
  due : Nat × Nat
  struck : Bool
deriving DecidableEq, Repr

/-- A release condition of an entity that is not a memory request (R137, R146): requests of warp `uid` below `upto` performed and the
Tidemark of `die` at `time`, the latest completion time up to `scope`. -/
structure RelCond where
  key : Nat
  uid : Nat
  die : Nat
  upto : Nat
  scope : Nat
  time : Nat
deriving DecidableEq, Repr

/-! ## Tasks (spec/10) -/

/-- Handle slot states (R174). -/
inductive SlotState where
  | free
  | pending
  | running
  | settling
  | resolved
  | broken
deriving DecidableEq, Repr

/-- A handle slot (R171 to R175): a home slot, or (`home` = false) a result slot. `words` is the record of R169 as eight words; `brk` the
break word of R189; `chain` the ordered list of R184; `exec` the core that runs the task, `forward` its result slot and `time` the Tidemark there at
which its value or break was released, or its last decrement acknowledged (R146, R183); `due` is when the acknowledgement of its latest decrement comes (R135). -/
structure Slot where
  core : Nat
  ctx : BitVec 3
  idx : Nat
  home : Bool
  state : SlotState
  gen : BitVec 23
  dropped : Bool
  value : Option DWord
  brk : Option DWord
  words : List DWord
  chain : List DWord
  isChain : Bool
  exec : Option Nat
  forward : Option Nat
  cond : Nat
  decs : List (Bool × Bool)
  time : Nat
  due : Nat × Nat
deriving DecidableEq, Repr

/-- A placed task in a ready queue (R180), with the values a `CHAIN` starts with (R184) and the time of the acquire it begins with (R147). It enters the queue when it has come
there from another die, and is dispatched when, after that, the word of its release has: `due` is the die and the Tidemark there for the one of these that is on its way
(R135, R146). -/
structure ReadyTask where
  core : Nat
  ctx : BitVec 3
  prio : Nat
  handle : DWord
  upValue : DWord
  upHandle : DWord
  acqTime : Nat
  here : Bool
  told : Bool
  due : Nat × Nat
deriving DecidableEq, Repr

/-- A task parked on a counter (R179), or on its way there from `due` on (R135). -/
structure ParkedTask where
  pa : Nat
  handle : DWord
  arrived : Bool
  due : Nat × Nat
deriving DecidableEq, Repr

/-- A successor decrement still to be made for a task whose slot no longer waits for it (R183, R190): one broken before its warp ran, or one that completes
after its handle broke. It is made from `core` once condition `cond` holds, and arrives from `due` on (R135). -/
structure LateDec where
  handle : DWord
  core : Nat
  va : DWord
  second : Bool
  cond : Nat
  due : Option (Nat × Nat)
deriving DecidableEq, Repr

/-- Tasks and handles. `decSeen` holds the home slice and core of each decrement applied in this cc (R185), `decTimes` the latest completion time of the decrements each
counter has taken (R385). -/
structure TaskSys where
  slots : List Slot
  ready : List ReadyTask
  parked : List ParkedTask
  chaff : List (Nat × Nat)
  late : List LateDec
  decSeen : List (Nat × Nat)
  decTimes : List (Nat × Nat)
deriving DecidableEq, Repr

/-! ## Copy engines (spec/09) -/

/-- What an entry of a copy queue is: a copy, a reducing copy, an `XRED` rank, or a join marker of `QFENCE` number `join`. -/
inductive CopyKind where
  | copy
  | reduce (rop : BitVec 3)
  | xred
  | marker (join : Nat)
deriving DecidableEq, Repr

/-- How far an entry is (R145, R150, R160): waiting to begin or to go on, stopped by a translation fault of a detail code at an element, waiting
for acknowledgements, other ranks or a peer, or moved (its status decided, its writes performed by `time`). -/
inductive CopyPhase where
  | waiting
  | faulted (elem : Nat) (va : DWord) (code : Nat)
  | sending
  | moved
deriving DecidableEq, Repr

/-- An entry of a copy queue (R150, R158) of instruction `ins`; `acc` is its place in the order of acceptance, 0 while its lane waits; `rec'` is the
record read when it began, `next` the element it goes on from, `cnt` the counts it has raised (R91) and `cols` the columns of the scale group of a tile under
way, scale code and mantissas (R155). `rel` is the scope of its release, 0 for none (R145). -/
structure CopyEntry where
  id : Nat
  ins : Nat
  acc : Nat
  q : Nat
  kind : CopyKind
  uid : Nat
  core : Nat
  wg : Nat
  ctx : BitVec 3
  tid : Nat
  statp : DWord
  addr : DWord
  org : List Int
  dense : DWord
  wide : Bool
  ch : BitVec 2
  tok : Reg
  lane : Nat
  bar : Option (BitVec 5)
  cond : Option Nat
  phase : CopyPhase
  seq : Nat
  next : Nat
  status : Nat
  detail : Nat
  time : Nat
  hdl : Bool
  rec' : List Byte
  cnt : Counts
  cols : List (Nat × List Int)
  rel : Nat
deriving DecidableEq, Repr

/-- The state of a queue's QCTL register and its sequence count (R151, R163). -/
structure QueueRec where
  q : Nat
  flt : Bool
  qflt : DWord
  paused : Bool
  bound : Bool
  ctx : BitVec 3
  seq : Nat
deriving DecidableEq, Repr

/-- One element of a reducing message: box index, the places of its bytes, format code and operand (R162). -/
structure RedElem where
  idx : Nat
  pas : List Nat
  fmt : Nat
  x : Nat
deriving DecidableEq, Repr

/-- A reducing message (R163) with its stamp; `sent` once the engine has sent it, `flying` when it is on its way, `ack` when its acknowledgement is, `acked` when that arrived;
`due` is the die and the Tidemark there from which what is on its way is delivered (R135). -/
structure RedMsg where
  id : Nat
  q : Nat
  seq : Nat
  chunk : Nat
  slice : Nat
  rop : BitVec 3
  rnd : BitVec 2
  sat : Bool
  fzi : Bool
  fzo : Bool
  elems : List RedElem
  sent : Bool
  flying : Bool
  ack : Bool
  acked : Bool
  due : Nat × Nat
deriving DecidableEq, Repr

/-- The window a slice keeps for a queue (R163): its floor and the applied stamps at or above it. -/
structure RedWindow where
  slice : Nat
  q : Nat
  fseq : Nat
  fchunk : Nat
  stamps : List (Nat × Nat)
deriving DecidableEq, Repr

/-- A floor the engine last sent to a slice for a queue (R163); `flying` while the notice is on its way. -/
structure RedFloor where
  slice : Nat
  q : Nat
  seq : Nat
  chunk : Nat
  flying : Bool
deriving DecidableEq, Repr

/-- An `XRED` rank that takes part (R165 to R167): the numbers of the ranks that its table places on peer parts, its contribution as FP32 codes after FZI, from when on it
has reached the other ranks (R135), and the result codes once phase 1 is complete. -/
structure XredRank where
  id : Nat
  group : Nat
  epoch : Nat
  count : Nat
  ranks : Nat
  rank : Nat
  dst : DWord
  dfmt : Nat
  fzo : Bool
  away : List Nat
  xs : List Nat
  due : Nat × Nat
  result : Option (List Nat)
deriving DecidableEq, Repr

/-- Writes of an entry sent to a peer part and not yet acknowledged (R168), in order: element, virtual address there and bytes. -/
structure PeerSend where
  id : Nat
  port : Nat
  part : Nat
  pctx : BitVec 3
  writes : List (Nat × Nat × List Byte)
deriving DecidableEq, Repr

/-- A `QFENCE` whose markers have not left (R161). -/
structure JoinRec where
  id : Nat
  uid : Nat
  tok : Reg
  act : Mask
  ctx : BitVec 3
  queues : List Nat
  upto : Nat
  hdl : Bool
deriving DecidableEq, Repr

/-- A rank of an `XRED` that has taken part and ended: a later rank of the same use of its group that disagrees with it ends with XMATCH (R166). -/
structure XredEnd where
  group : Nat
  epoch : Nat
  count : Nat
  ranks : Nat
deriving DecidableEq, Repr

/-- Copy engines and collectives. -/
structure CopySys where
  queues : List QueueRec
  entries : List CopyEntry
  msgs : List RedMsg
  windows : List RedWindow
  floors : List RedFloor
  ranks : List XredRank
  peers : List PeerSend
  joins : List JoinRec
  ended : List XredEnd
deriving DecidableEq, Repr

/-! ## Bank units (spec/11) -/

/-- Phases of a card (R203). -/
inductive CardPhase where
  | queued
  | clean
  | run
  | done
deriving DecidableEq, Repr

/-- A job card (R197, R203 to R207) of instruction `ins`: `acc` is its place in the order of acceptance, 0 while its lane waits; CLEAN leaves the places
of its weight columns (command by command, ranks within), of its vector elements and of its partials; `out` are the partials RUN has still to write: number,
place and value. -/
structure BankCard where
  id : Nat
  ins : Nat
  acc : Nat
  uid : Nat
  core : Nat
  ctx : BitVec 3
  die : Nat
  pch : Nat
  card : List Byte
  cols : List Nat
  vec : List Nat
  dst : List Nat
  tok : Reg
  lane : Nat
  phase : CardPhase
  status : Nat
  detail : Nat
  time : Nat
  hdl : Bool
  out : List (Nat × Nat × Nat)
deriving DecidableEq, Repr

/-! ## Time, timetable and contexts (spec/01, 12) -/

/-- Discipline of Tidemark (R210 to R212). -/
structure TimeCtl where
  tmctl : Word
  lock : Bool
  hold : Bool
  offs : Int
  seen : Bool
  good : Nat
  lastSync : Nat
deriving DecidableEq, Repr

/-- A timetable entry (R215): its registers, the next firing time, the held firing and the launch of its previous firing. `known` is the Tidemark at which
it was armed or last fired, from which R216 and R223 count; `staged` is true once its images are being read ahead. -/
structure TtEntry where
  n : Nat
  start : DWord
  period : Word
  slot : Word
  lh : DWord
  ctl : Word
  last : Nat
  nskip : Nat
  nfire : Nat
  nextT : Nat
  held : Option Nat
  launch : Option Nat
  known : Nat
  staged : Bool
deriving DecidableEq, Repr

/-- Context states (R213). -/
inductive CtxState where
  | empty
  | ready
  | running
  | switching
  | failed
deriving DecidableEq, Repr

/-- A context (R213, R214): its register, state, last failure and the six descriptor words in use. -/
structure Context where
  n : Nat
  ctxd : DWord
  state : CtxState
  err : Nat
  desc : List DWord
deriving DecidableEq, Repr

/-- The steps of a gang switch (R219 to R222): warps stop and are saved, then the incoming context is restored. -/
inductive SwitchPhase where
  | stopping
  | restoring
deriving DecidableEq, Repr

/-- A gang switch or teardown in progress: from, to, the firing's entry and time; `teardown` for R213. `stopped` names the warps that have stopped and
`tables` holds the safe points (PC and live mask) read through each SAFEP when the switch began (R263). -/
structure Switch where
  phase : SwitchPhase
  leaving : Option Nat
  entering : Option Nat
  entry : Option Nat
  start : Nat
  slot : Nat
  teardown : Bool
  stopped : List Nat
  tables : List (DWord × List (DWord × DWord))
deriving DecidableEq, Repr

/-- What the core records and the context record of a saved context hold (R221), whose layout is not architected: what of each warp is outside its save
area, workgroups, array modes and configurations, bad scratchpad words, sequence windows. -/
structure SavedCtx where
  ctx : Nat
  warps : List Warp
  wgs : List Workgroup
  arrays : List ArrayRec
  spadPoison : List Nat
  windows : List RedWindow
deriving DecidableEq, Repr

/-- A token write held for a warp that a switch has stopped or saved (R220). -/
structure HeldWrite where
  uid : Nat
  ins : Nat
  hdl : Bool
  tok : Reg
  mask : Mask
  word : Word
deriving DecidableEq, Repr

/-- Timetable, contexts and the switch. `waiting` holds firings (entry, T) that wait for a switch to end (R217), `dieResets` die resets that wait for one and
`down` the compute dies that have not returned from theirs (R274). -/
structure CtlSys where
  tm : TimeCtl
  tt : List TtEntry
  ctxs : List Context
  slotEnd : Nat
  switch : Option Switch
  waiting : List (Nat × Nat)
  saved : List SavedCtx
  heldWrites : List HeldWrite
  dieResets : List Nat
  down : List Nat
deriving DecidableEq, Repr

/-! ## Host, trust and start-up (spec/01, 15) -/

/-- One grant of an access table (R270): for a context and class (none: any), a target (none: any), over [lo, hi). Class codes are those
of R237; targets are coded 16 * kind + unit. -/
structure Grant where
  ctx : Option (BitVec 3)
  cls : Option Nat
  target : Option Nat
  lo : Nat
  hi : Nat
  read : Bool
  write : Bool
deriving DecidableEq, Repr

/-- Result of a start-up step in the boot record (R272). -/
inductive StepResult where
  | notRun
  | pass
  | fail
  | skipped
deriving DecidableEq, Repr

/-- Capability block, boot and attestation registers (R18, R224, R272, R273). `atDue` is the Tidemark at which a report that is written has performed. -/
structure BootSys where
  cden : Byte
  memen : BitVec 4
  stken : Byte
  coreen : List (BitVec 24)
  harvest : List (Nat × Nat × Nat)
  rev : Byte
  gsw : Word
  phase : BitVec 4
  slot : Bool
  record : List StepResult
  memFail : BitVec 4
  dieFail : Byte
  bootclr : Bool
  portsUp : Bool
  nonce : List Byte
  ataddr : DWord
  atctl : Word
  atDue : Option Nat
deriving DecidableEq, Repr

/-- What the host sees of an access (R148, R268, R271): a read's bytes with the poison indication, an Unsupported Request, whose read returns all-ones,
or the completion of a write from a Tidemark of the I/O die on. -/
inductive HostReply where
  | data (bytes : List Byte) (poison : Bool)
  | unsupported (ones : Bool)
  | written (time : Nat)
deriving DecidableEq, Repr

/-- A move of one agent: a split issues, an event happens, the host or Estuary reads a register (R268), Estuary writes the access tables (R270), neither of which the
opcode table gives a row, or the clocks advance by the given ticks and cycles per die. -/
inductive Turn where
  | issue (core pos : Nat) (pc : DWord)
  | event (i : Instr)
  | readReg (host : Bool) (off : Nat) (wide : Bool)
  | tables (gs : List Grant)
  | clock (ticks : List Nat) (cycles : List Nat)
deriving DecidableEq, Repr

/-- The state of the part. `cur` is the warp in focus and `others` the rest; `ipc` is the PC of the split that issues; `hostDue` are the completion times of host writes whose
completion has not returned (R148). The last fields are the
model's own: the schedule `turns` (log 1), the counter `fresh` of free values (log 3) and the next request number. -/
structure State where
  cur : Warp
  others : List Warp
  ipc : DWord
  parts : List Partition
  wgs : List Workgroup
  launches : List Launch
  arrays : List ArrayRec
  mem : MemSys
  reqs : List Req
  conds : List RelCond
  tasks : TaskSys
  copy : CopySys
  cards : List BankCard
  tide : List Nat
  cc : List Nat
  ctl : CtlSys
  grants : List Grant
  boot : BootSys
  throttled : Bool
  hostOut : List HostReply
  hostDue : List Nat
  notices : Nat
  turns : List Turn
  fresh : Nat
  nextId : Nat
deriving DecidableEq, Repr

/-! ## Stops -/

/-- Why the part stops for good. -/
inductive Fault where
  /-- Raised by every step while BOOTSTAT.PHASE is 15: the part halted in start-up (R272). Safe: the spec gives a halted part no effect. -/
  | halted
deriving DecidableEq, Repr

/-- Why the model gives no meaning. -/
inductive Refusal where
  /-- An instruction without a meaning yet, named by its mnemonic. Safe: nothing is claimed of it. No arm uses it once the model is whole. -/
  | notModelled (mnemonic : String)
deriving DecidableEq, Repr

/-! ## Reset -/

/-- The scope-indexed completion times at their restart value (R220). -/
def ctimeZero : List Nat := [0, 0, 0, 0, 0]

/-- The empty rejoin set (R45). -/
def RejoinSet.empty : RejoinSet := ⟨0, 0, false, 0⟩

/-- A launch header of zeros. -/
def Header.zero : Header := ⟨0, 0, 0, 0, 0, 0, 0, 0, 0⟩

/-- A lane in a given state at a PC, with wait count, depth and yield mark 0 (R31). -/
def Lane.start (pc : DWord) (st : LaneState) : Lane := ⟨pc, st, 0, 0, false, pc⟩

/-- The registers, predicates and sets of a warp at its start (R31). -/
def Arch.start (lanes : List Lane) : Arch :=
  ⟨lanes, List.replicate 64 (.u 0), List.replicate 7 0, List.replicate 16 .empty, none, 0⟩

/-- No warp: every lane Exited (log 6). It stands in `cur` while the part runs none. -/
def Warp.vacant : Warp :=
  ⟨0, 0, 0, 0, 0, .zero, 0, none, [], 0, none, .start (List.replicate laneCount (.start 0 .exited)), [], [], ctimeZero, 0, 0, [], [], [], [],
    false, 0, 0, false⟩

/-- A context at reset (R213). -/
def Context.reset (n : Nat) : Context := ⟨n, 0, .empty, 0, [0, 0, 0, 0, 0, 0]⟩

/-- The access tables at reset: their contents are not architected, so every access is granted (log 5). -/
def Grant.all : Grant := ⟨none, none, none, 0, 2 ^ 52, true, true⟩

/-- The part right after reset (R272, logs 4, 5 and 6), before start-up step 1, in the full configuration: no warp, no launch, every
context EMPTY, every Tidemark copy 0, memory with nothing listed. -/
def State.reset : State where
  cur := .vacant
  others := []
  ipc := 0
  parts := []
  wgs := []
  launches := []
  arrays := []
  mem := ⟨[], [], [], [], [], [], [], [], [], [], [], [], [], 0, 0, 0, [], ⟨0, false, 0, 0⟩⟩
  reqs := []
  conds := []
  tasks := ⟨[], [], [], [], [], [], []⟩
  copy := ⟨[], [], [], [], [], [], [], [], []⟩
  cards := []
  tide := List.replicate 13 0
  cc := List.replicate 8 0
  ctl := ⟨⟨0, false, false, 0, false, 0, 0⟩, [], (List.range 8).map Context.reset, 0, none, [], [], [], [], []⟩
  grants := [.all]
  boot := ⟨0xFF, 0xF, 0xFF, List.replicate 8 0xFFFFFF, [], 0, 0x003C0043, 0, false, List.replicate 7 .notRun, 0, 0, false, true,
    List.replicate 64 0, 0, 0, none⟩
  throttled := false
  hostOut := []
  hostDue := []
  notices := 0
  turns := []
  fresh := 0
  nextId := 1

end Sys2Proof.Machine
end

