-- ==== Sys2Proof/Machine/Warp.lean ====
section
/-! DEFINITION. Warps: launch-header fields, focus, lanes, masks, register and predicate reads and writes, shapes and G slots
(R23, R32, R33, R57 to R62, R232). -/

namespace Sys2Proof.Machine

/-! ## Launch-header fields (R23) -/

/-- REGS. -/
def Header.regs (h : Header) : Nat := bitsAt h.resw.toNat 0 7
/-- GMAX. -/
def Header.gmax (h : Header) : Nat := bitsAt h.resw.toNat 7 7
/-- SPADKB. -/
def Header.spadkb (h : Header) : Nat := bitsAt h.resw.toNat 14 9
/-- ARRAYS. -/
def Header.arrays (h : Header) : Nat := bitsAt h.resw.toNat 23 6
/-- BARS. -/
def Header.bars (h : Header) : Nat := bitsAt h.resw.toNat 29 6
/-- QUEUES. -/
def Header.queues (h : Header) : Nat := bitsAt h.resw.toNat 35 4
/-- CTX. -/
def Header.ctx (h : Header) : Nat := bitsAt h.schw.toNat 0 3
/-- PROG. -/
def Header.prog (h : Header) : Bool := bitAt h.schw.toNat 3
/-- The fairness interval F; 0 selects 256. -/
def Header.fint (h : Header) : Nat := if bitsAt h.schw.toNat 4 16 = 0 then 256 else bitsAt h.schw.toNat 4 16
/-- The width W_i of identifier field i. -/
def Header.width (h : Header) (i : Nat) : Nat := bitsAt h.idw.toNat (6 * i) 6
/-- WGCUT. -/
def Header.wgcut (h : Header) : Nat := bitsAt h.idw.toNat 36 3
/-- CLCUT. -/
def Header.clcut (h : Header) : Nat := bitsAt h.idw.toNat 39 3
/-- The summed width of fields lo to hi - 1: o_i is the sum below i (R25). -/
def Header.sumWidth (h : Header) (lo hi : Nat) : Nat := ((List.range hi).filter (lo ≤ ·)).foldl (fun t i => t + h.width i) 0
/-- A, the compute arrays of a workgroup (R27). -/
def Header.arrayCount (h : Header) : Nat := max h.arrays ((h.spadkb + 11) / 12)

/-- The compute die of a core (R9). -/
def dieOfCore (core : Nat) : Nat := core / 24
/-- The cluster number of a core (R9). -/
def clusterOfCore (core : Nat) : Nat := core / 4

/-! ## Focus -/

/-- Every warp, the one in focus first. -/
def State.warps (s : State) : List Warp := s.cur :: s.others

/-- Bring a warp into focus; unchanged when there is none. -/
def State.focus (s : State) (uid : Nat) : State :=
  if s.cur.uid = uid then s
  else match s.others.find? fun w => w.uid == uid with
    | some w => { s with cur := w, others := (if s.cur.uid = 0 then [] else [s.cur]) ++ s.others.filter fun w => w.uid != uid }
    | none => s

/-- Apply `f` to the warp named `uid`, wherever it stands. -/
def State.mapWarp (s : State) (uid : Nat) (f : Warp → Warp) : State :=
  { s with cur := if s.cur.uid = uid then f s.cur else s.cur, others := updWhere (fun w => w.uid == uid) f s.others }

/-- Apply `f` to every warp. -/
def State.mapWarps (s : State) (f : Warp → Warp) : State := { s with cur := f s.cur, others := s.others.map f }

/-- The warp named `uid`. -/
def State.warpOf (s : State) (uid : Nat) : Option Warp := s.warps.find? fun w => w.uid == uid && uid != 0

/-! ## Lanes -/

/-- Lane l of a warp. -/
def Arch.lane (a : Arch) (l : Nat) : Lane := a.lanes.getD l (.start 0 .exited)
/-- Lane l of a warp. -/
def Warp.lane (w : Warp) (l : Nat) : Lane := w.arch.lane l
/-- True of an Exited lane. -/
def Lane.exited (x : Lane) : Bool := x.st == .exited
/-- True of a Runnable lane. -/
def Lane.runnable (x : Lane) : Bool := x.st == .runnable

/-- The lanes that are not Exited. -/
def Arch.live (a : Arch) : Mask := maskOf fun l => !(a.lane l).exited
/-- The lanes that are not Exited. -/
def Warp.live (w : Warp) : Mask := w.arch.live
/-- A warp whose 128 lanes are all Exited has exited (R41). -/
def Warp.hasExited (w : Warp) : Bool := w.live == 0
/-- True in handler mode (R231). -/
def Warp.inHandler (w : Warp) : Bool := w.arch.handler.isSome

/-- Apply `f l` to each lane l of a mask. -/
def Arch.mapLanes (a : Arch) (m : Mask) (f : Nat → Lane → Lane) : Arch :=
  { a with lanes := lanesOf fun l => if m.getLsbD l then f l (a.lane l) else a.lane l }
/-- Apply `f l` to each lane l of a mask. -/
def Warp.mapLanes (w : Warp) (m : Mask) (f : Nat → Lane → Lane) : Warp := { w with arch := w.arch.mapLanes m f }

/-- What a warp has fetched ahead is let go (R309): its next instructions are fetched anew, as after an acquire. -/
def Warp.refetch (w : Warp) : Warp := { w with fetched := [] }

/-- Apply `f` to the warp's state and to every checkpoint taken after request `id` was issued (R229). -/
def Warp.mapArchFrom (w : Warp) (id : Nat) (f : Arch → Arch) : Warp :=
  { w with arch := f w.arch, snaps := w.snaps.map fun p => if id < p.1 then (p.1, f p.2) else p }

/-- Apply `f` to the warp's state and to every checkpoint. -/
def Warp.mapArchAll (w : Warp) (f : Arch → Arch) : Warp :=
  { w with arch := f w.arch, snaps := w.snaps.map fun p => (p.1, f p.2) }

/-- The split at a PC (R33): in handler mode the handler split, otherwise the Runnable lanes there that have not issued or been released
in this cc. -/
def Warp.splitAt (w : Warp) (pc : DWord) : Mask :=
  match w.arch.handler with
  | some h => if h.pc = pc then h.mask else 0
  | none => maskOf fun l => (w.lane l).runnable && (w.lane l).pc == pc && !w.acted.getLsbD l

/-- The split that issues. -/
def State.split (s : State) : Mask := s.cur.splitAt s.ipc

/-- A predicate as a lane mask (R61): p7 reads all ones. -/
def Warp.pred (w : Warp) (p : PReg) : Mask := if p = 7 then BitVec.allOnes 128 else w.arch.preds.getD p.toNat 0

/-- The guard of an instruction as a lane mask (R5, R243). -/
def Warp.guard (w : Warp) (c : Ctl) : Mask := if c.gn then ~~~ w.pred c.g else w.pred c.g

/-- The active mask (R5): the split's lanes with the guard applied. -/
def State.act (s : State) (c : Ctl) : Mask := s.split &&& s.cur.guard c

/-- The length of an instruction in bytes by its length code (R241). -/
def lenOf (len : BitVec 2) : Nat := match len.toNat with
  | 0 => 4
  | 1 => 12
  | 2 => 12
  | _ => 20

/-- The address of the next instruction. -/
def State.next (s : State) (c : Ctl) : DWord := s.ipc + BitVec.ofNat 64 (lenOf c.len)

/-! ## Registers -/

/-- The value lane l reads from a register (R57). -/
def VReg.lane : VReg → Nat → Word
  | .u x, _ => x
  | .a b st, l => b + st * BitVec.ofNat 32 l
  | .g xs, l => xs.getD l 0

/-- The tag code (R57). -/
def VReg.code : VReg → Nat
  | .u _ => 0
  | .a _ _ => 1
  | .g _ => 2

/-- True of a G register. -/
def VReg.isG : VReg → Bool
  | .g _ => true
  | _ => false
/-- True of a U register. -/
def VReg.isU : VReg → Bool
  | .u _ => true
  | _ => false

/-- A register as the program reads it: register 60 is the record register in handler mode (R232). -/
def Arch.vreg (a : Arch) (r : Reg) : VReg :=
  match a.handler with
  | some h => if r = 60 then .g (lanesOf fun l => if l < 16 then h.words.getD l 0 else 0) else a.vregs.getD r.toNat (.u 0)
  | none => a.vregs.getD r.toNat (.u 0)
/-- A register of the warp in focus. -/
def State.reg (s : State) (r : Reg) : VReg := s.cur.arch.vreg r
/-- The value lane l reads from register r. -/
def State.rd (s : State) (r : Reg) (l : Nat) : Word := (s.reg r).lane l
/-- The value lane l reads from the pair that starts at r (R61). -/
def State.rdPair (s : State) (r : Reg) (l : Nat) : DWord := pairOf (s.rd r l) (s.rd (r + 1) l)

/-- A register that may be named (R31, R232). -/
def Warp.nameable (w : Warp) (r : Reg) : Bool := decide (r.toNat < w.hdr.regs) || (w.inHandler && r == 60)

/-- Registers r to r + n - 1. -/
def regBlock (r : Reg) (n : Nat) : List Reg := (List.range n).map fun i => r + BitVec.ofNat 6 i

/-- A new value for a register, for the active lanes. -/
structure RegWrite where
  reg : Reg
  val : VReg
deriving DecidableEq, Repr

/-- A write is whole when every lane that is not Exited is active (R58). -/
def wholeWrite (live act : Mask) : Bool := live &&& ~~~ act == 0

/-- The register after a write by the active lanes (R58, R59): a whole write takes the new tag, a partial one gives G, and lanes that are not
active keep what they read before. -/
def mergeWrite (live act : Mask) (old new : VReg) : VReg :=
  let lanes := VReg.g (lanesOf fun l => if act.getLsbD l then new.lane l else old.lane l)
  if wholeWrite live act then (if new.isG then lanes else new) else lanes

/-- Write the register file (R58): a whole write ends a failing read of the register (R238). -/
def Arch.put (live act : Mask) (a : Arch) (rw : RegWrite) : Arch :=
  { a with
    vregs := putAt 64 (.u 0) rw.reg.toNat (mergeWrite live act (a.vregs.getD rw.reg.toNat (.u 0)) rw.val) a.vregs
    bad := if wholeWrite live act then a.bad &&& ~~~ ((1 : BitVec 64) <<< rw.reg.toNat) else a.bad }

/-- The part of record word l that the resume PC holds (R232): word 3 whole, bits [23:0] of word 4. -/
def recordPart (l : Nat) (x : Word) : Word := if l = 4 then x &&& 0xFFFFFF else x

/-- Write one register for an instruction issued in handler mode or not (R58, R232): a write of the record register changes only record words 3
and 4, while the handler it was issued in lasts. -/
def Arch.writeAs (hdl : Bool) (live act : Mask) (a : Arch) (rw : RegWrite) : Arch :=
  if hdl && rw.reg == 60 then
    match a.handler with
    | some h =>
      let put (ws : List Word) (l : Nat) : List Word := if act.getLsbD l then putAt 16 0 l (recordPart l (rw.val.lane l)) ws else ws
      { a with handler := some { h with words := put (put h.words 3) 4 } }
    | none => a
  else a.put live act rw

/-- Write one register at issue. -/
def Arch.write (live act : Mask) (a : Arch) (rw : RegWrite) : Arch := a.writeAs a.handler.isSome live act rw

/-- Write predicate bits of the active lanes (R61): a write of p7 is discarded. -/
def Arch.writePred (act : Mask) (a : Arch) (p : PReg) (v : Mask) : Arch :=
  if p = 7 then a else { a with preds := putAt 7 0 p.toNat ((a.preds.getD p.toNat 0 &&& ~~~ act) ||| (v &&& act)) a.preds }

/-- The number of G registers (R60). -/
def Arch.gCount (a : Arch) : Nat := (a.vregs.filter VReg.isG).length

/-- The register whose binding overflows (R60), if the writes would leave more than GMAX registers G. -/
def Warp.overflow (w : Warp) (act : Mask) (ws : List RegWrite) : Option Reg :=
  let ws := if w.inHandler then ws.filter fun x => x.reg != 60 else ws
  let old (r : Reg) : VReg := w.arch.vregs.getD r.toNat (.u 0)
  let becomesG (x : RegWrite) : Bool := (mergeWrite w.live act (old x.reg) x.val).isG
  let binds := ws.filter fun x => becomesG x && !(old x.reg).isG
  let frees := ws.filter fun x => !becomesG x && (old x.reg).isG
  let free := w.hdr.gmax - w.arch.gCount
  if w.arch.gCount + binds.length - frees.length > w.hdr.gmax then
    (((List.range 64).filter fun r => binds.any fun x => x.reg.toNat == r)[free]?).map fun r => BitVec.ofNat 6 r
  else none

/-! ## Results by shape (R59) -/

/-- A result of one source: U from U, otherwise G. -/
def shape1 (f : Word → Word) (a : VReg) : VReg :=
  match a with
  | .u x => .u (f x)
  | _ => .g (lanesOf fun l => f (a.lane l))

/-- A result of two sources: U when both are U, otherwise G. -/
def shape2 (f : Word → Word → Word) (a b : VReg) : VReg :=
  match a, b with
  | .u x, .u y => .u (f x y)
  | _, _ => .g (lanesOf fun l => f (a.lane l) (b.lane l))

/-- A result of three sources: U when all are U, otherwise G. -/
def shape3 (f : Word → Word → Word → Word) (a b c : VReg) : VReg :=
  match a, b, c with
  | .u x, .u y, .u z => .u (f x y z)
  | _, _, _ => .g (lanesOf fun l => f (a.lane l) (b.lane l) (c.lane l))

/-- A 64-bit result from `f l`: both halves U when every source is U, otherwise both G. -/
def pairResult (d : Reg) (allU : Bool) (f : Nat → DWord) : List RegWrite :=
  if allU then [⟨d, .u (loWord (f 0))⟩, ⟨d + 1, .u (hiWord (f 0))⟩]
  else [⟨d, .g (lanesOf fun l => loWord (f l))⟩, ⟨d + 1, .g (lanesOf fun l => hiWord (f l))⟩]

/-- The sum of the counts of the active lanes (R88). -/
def laneCounts (act : Mask) (f : Nat → Counts) : Counts := (maskLanes act).foldl (fun t l => t.add (f l)) .zero

/-! ## Moving lanes -/

/-- The lanes of the issuing split take the PCs `f` gives; YH marks them (R33, R39). In handler mode the handler PC takes that of the lowest
lane that is not Exited (R233). -/
def State.moveLanes (s : State) (c : Ctl) (f : Nat → DWord) : State :=
  let w := s.cur
  let sp := s.split
  let mark (w : Warp) : Warp :=
    if c.yh then { w.mapLanes sp (fun _ x => { x with ym := true }) with ymNew := w.ymNew ||| sp } else w
  match w.arch.handler with
  | some h => { s with cur := mark { w with arch := { w.arch with handler := some { h with pc := f (lowestLane (h.mask &&& w.live)) } } } }
  | none => { s with cur := mark (w.mapLanes sp fun l x => { x with pc := f l }) }

/-- Every lane of the split advances to the next instruction. -/
def State.advance (s : State) (c : Ctl) : State := s.moveLanes c fun _ => s.next c

/-- A fresh request number, and the state that has used it. -/
def State.newId (s : State) : Nat × State := (s.nextId, { s with nextId := s.nextId + 1 })

/-- The Tidemark of a die (R13): compute dies 0 to 7, memory dies 8 to 11, the I/O die 12. -/
def State.tideOf (s : State) (die : Nat) : Nat := s.tide.getD die 0
/-- The Tidemark of the die of the warp in focus. -/
def State.myTide (s : State) : Nat := s.tideOf (dieOfCore s.cur.core)
/-- The cc count of a compute die (R364). -/
def State.ccOf (s : State) (die : Nat) : Nat := s.cc.getD die 0

/-- A switch in progress has begun on a compute die: each begins it in the first cc in which its own Tidemark has reached the firing's (R216); a teardown
begins at once (R213). -/
def Switch.began (x : Switch) (now : Nat) : Bool := x.teardown || x.phase == .restoring || decide (x.start ≤ now)
/-- A gang switch or teardown is in progress as compute die `die` sees it. -/
def State.switchOn (s : State) (die : Nat) : Bool := match s.ctl.switch with
  | some x => x.began (s.tideOf die)
  | none => false

/-- On a compute die, a context is the RUNNING one and no switch has begun (R213, R216, R219). -/
def State.runsOn (s : State) (die : Nat) (ctx : BitVec 3) : Bool := match s.ctl.switch with
  | some x => x.leaving == some ctx.toNat && !x.began (s.tideOf die)
  | none => (match getKey Context.n ctx.toNat s.ctl.ctxs with | some c => c.state == .running | none => false)
/-- The same for the part as a whole, by the I/O die's Tidemark. -/
def State.runs (s : State) (ctx : BitVec 3) : Bool := s.runsOn 12 ctx

/-- The workgroup with a key. -/
def State.wgOf (s : State) (key : Nat) : Option Workgroup := s.wgs.find? fun g => g.key == key
/-- Apply `f` to the workgroup with a key. -/
def State.mapWg (s : State) (key : Nat) (f : Workgroup → Workgroup) : State := { s with wgs := updWhere (fun g => g.key == key) f s.wgs }

/-- The unchecked accesses of a warp (R227). -/
def State.unchecked (s : State) (uid : Nat) : List Req := s.reqs.filter fun r => r.uid == uid && !r.checked

end Sys2Proof.Machine
end

