-- ==== Sys2Proof/Machine/Mem.lean ====
section
/-! DEFINITION. Memory: canonical byte lists, address map, translation, access tables, caches under leases, loads, stores, atomics and the
system-scope push (R93, R113 to R130, R142, R194, R236, R267, R270). -/

namespace Sys2Proof.Machine

/-! ## Byte lists in canonical form -/

/-- The byte at an address; an unlisted address reads 0 (log 4). -/
def readByte (m : List Host.Cell) (a : Nat) : Byte := match m.find? fun c => c.1 == a with
  | some c => c.2
  | none => 0

/-- Write a byte, keeping the canonical form. -/
def writeByte (a : Nat) (b : Byte) (m : List Host.Cell) : List Host.Cell :=
  m.filter (fun c => decide (c.1 < a)) ++ (if b = 0 then [] else [(a, b)]) ++ m.filter fun c => decide (a < c.1)

/-- The canonical form: addresses strictly rising, no entry equal to what an unlisted address reads as. -/
def Memory.wf : List Host.Cell → Bool
  | [] => true
  | [(_, b)] => b != 0
  | (a, b) :: (a', b') :: m => decide (a < a') && b != 0 && Memory.wf ((a', b') :: m)

/-- n bytes from an address. -/
def readBytes (m : List Host.Cell) (a n : Nat) : List Byte := (List.range n).map fun i => readByte m (a + i)
/-- Write bytes from an address up. -/
def writeBytes (m : List Host.Cell) (a : Nat) : List Byte → List Host.Cell
  | [] => m
  | b :: bs => writeBytes (writeByte a b m) (a + 1) bs

/-- The n-byte little-endian number at an address (R2). -/
def readNum (m : List Host.Cell) (a n : Nat) : Nat := numLE (readBytes m a n)

/-! ## The physical address map (R194, R267) -/

/-- HTOP (R194). -/
def htop : Nat := 0x7735800000
/-- True of a host-memory address (R267). -/
def isHostPa (pa : Nat) : Bool := pa.testBit 51
/-- The stack of a physical address (R194). -/
def stackOf (pa : Nat) : Nat := bitsAt pa 8 3
/-- The pseudo-channel number of a physical address (R194). -/
def pchOf (pa : Nat) : Nat := 64 * stackOf pa + bitsAt pa 11 6
/-- The 256-byte line of an address (R117). -/
def lineOf (pa : Nat) : Nat := pa / 256
/-- The 64-byte sector of an address (R117). -/
def sectorOf (pa : Nat) : Nat := pa / 64
/-- The die whose Tidemark a home reads: memory die 8 to 11, or the I/O die for host memory (R120, R267). -/
def homeDie (pa : Nat) : Nat := if isHostPa pa then 12 else 8 + stackOf pa / 2
/-- The slice of a home (R8, R163): a memory die's, or the I/O die for host memory. -/
def sliceOf (pa : Nat) : Nat := if isHostPa pa then 4 else stackOf pa / 2
/-- The target code of an access table: 16 * kind + unit (R237, R270). -/
def targetOf (pa : Nat) : Nat := if isHostPa pa then 32 else stackOf pa / 2

/-! ## Translation (R113, R124 to R126, R129) -/

/-- The result of a translation. -/
inductive Xlate where
  | ok (pa : Nat) (entry : DWord)
  | bad (detail level : Nat)
deriving DecidableEq, Repr

/-- The lowest index bit of a level: also the log2 of the size a leaf there maps (R124). -/
def levelShift (level : Nat) : Nat := match level with
  | 0 => 16
  | 1 => 21
  | 2 => 30
  | _ => 43
/-- The number of index bits of a level (R124). -/
def levelBits (level : Nat) : Nat := match level with
  | 0 => 5
  | 1 => 9
  | _ => 13

/-- True of a malformed entry (R125) at a level. -/
def entryMalformed (level e : Nat) : Bool :=
  let leaf := bitAt e 1
  let addr := bitsAt e 8 44 * 256
  bitsAt e 56 8 != 0 || bitAt e 2 || (leaf && level == 3) || (!leaf && level == 0) || (!leaf && bitsAt e 2 6 != 0)
    || (leaf && bitsAt e 6 2 == 3)
    || (if leaf then addr % 2 ^ levelShift level != 0 else addr % (8 * 2 ^ levelBits (level - 1)) != 0)

/-- The walk from a table at a level (R124, R126): entries are read at their home, without recall. -/
def walk (home : List Host.Cell) (va : Nat) : Nat → Nat → Xlate
  | 0, table =>
    let e := readNum home (table + 8 * bitsAt va 16 5) 8
    if !bitAt e 0 then .bad 1 0
    else if entryMalformed 0 e then .bad 2 0
    else .ok (bitsAt e 8 44 * 256 + va % 2 ^ 16) (BitVec.ofNat 64 e)
  | level + 1, table =>
    let e := readNum home (table + 8 * bitsAt va (levelShift (level + 1)) (levelBits (level + 1))) 8
    if !bitAt e 0 then .bad 1 (level + 1)
    else if entryMalformed (level + 1) e then .bad 2 (level + 1)
    else if bitAt e 1 then .ok (bitsAt e 8 44 * 256 + va % 2 ^ levelShift (level + 1)) (BitVec.ofNat 64 e)
    else walk home va level (bitsAt e 8 44 * 256)

/-- A field of the descriptor in use of a context (R214): 0 ROOT, 1 LHTAB, 2 HTAB, 3 RQBASE, 4 FLOG, 5 SAVEBASE. -/
def State.descOf (s : State) (ctx : Nat) (i : Nat) : Nat :=
  match getKey Context.n ctx s.ctl.ctxs with
  | some c => (c.desc.getD i 0).toNat
  | none => 0

/-- The part makes translations for a context: not for an EMPTY or FAILED one (R213). -/
def State.translates (s : State) (ctx : BitVec 3) : Bool := match getKey Context.n ctx.toNat s.ctl.ctxs with
  | some c => c.state != .empty && c.state != .failed
  | none => false

/-- The translation of an address by a walk (R124); bits [63:56] set give detail 3 (R113, R129). An access of a context that has none comes of work that
teardown discards, and is dropped by who meets it (R213). -/
def State.walkVa (s : State) (ctx : BitVec 3) (va : Nat) : Xlate :=
  if va / 2 ^ 56 != 0 || !s.translates ctx then .bad 3 0xFF else walk s.mem.home va 3 (s.descOf ctx.toNat 0)

/-- A TLB entry of unit `unit` that maps an address (R126). -/
def State.tlbHit (s : State) (unit : Nat) (ctx : BitVec 3) (va : Nat) : Option TlbEntry :=
  s.mem.tlb.find? fun t => t.unit == unit && t.ctx == ctx && decide (t.va ≤ va) && decide (va < t.va + t.size)

/-- The translation seen by a core (below 192) or a die's L2 TLB (192 + die): its L1 TLB, its die's L2 TLB, then a walk (R126). -/
def State.xlate (s : State) (unit : Nat) (ctx : BitVec 3) (va : Nat) : Xlate :=
  if va / 2 ^ 56 != 0 || !s.translates ctx then .bad 3 0xFF
  else
    let hit (t : TlbEntry) : Xlate := .ok (bitsAt t.entry.toNat 8 44 * 256 + (va - t.va)) t.entry
    match s.tlbHit unit ctx va with
    | some t => hit t
    | none => match s.tlbHit (if unit < 192 then 192 + dieOfCore unit else unit) ctx va with
      | some t => hit t
      | none => s.walkVa ctx va

/-- The page size a leaf found at `va` maps: the largest level whose entry is a leaf. -/
def leafSize (home : List Host.Cell) (root va : Nat) : Nat :=
  let e2 := readNum home (root + 8 * bitsAt va 43 13) 8
  let t2 := bitsAt e2 8 44 * 256
  let e1 := readNum home (t2 + 8 * bitsAt va 30 13) 8
  let t1 := bitsAt e1 8 44 * 256
  let e0 := readNum home (t1 + 8 * bitsAt va 21 9) 8
  if bitAt e1 1 then 2 ^ 30 else if bitAt e0 1 then 2 ^ 21 else 2 ^ 16

/-- Add a leaf to the TLB of its unit (R126: 256 entries in a core's L1 TLB, 8,192 in a die's L2 TLB). Which entry leaves a full TLB is the model's choice:
the oldest (log 59). -/
def addTlb (t : TlbEntry) (ts : List TlbEntry) : List TlbEntry :=
  t :: ((ts.filter fun x => x.unit == t.unit).take ((if t.unit < 192 then 256 else 8192) - 1) ++ ts.filter fun x => x.unit != t.unit)

/-- Fill the TLBs of a core and its die with the leaf that maps an address (R126): the L1 TLB from the L2 TLB when that holds it, both from a walk that
succeeds otherwise. -/
def State.fillTlb (s : State) (core : Nat) (ctx : BitVec 3) (va : Nat) : State :=
  match s.tlbHit core ctx va with
  | some _ => s
  | none => match s.tlbHit (192 + dieOfCore core) ctx va with
    | some t => { s with mem := { s.mem with tlb := addTlb { t with unit := core } s.mem.tlb } }
    | none => match s.walkVa ctx va with
      | .ok _ e =>
        let size := leafSize s.mem.home (s.descOf ctx.toNat 0) va
        let leaf (unit : Nat) : TlbEntry := ⟨unit, ctx, va / size * size, size, e⟩
        { s with mem := { s.mem with tlb := addTlb (leaf (192 + dieOfCore core)) (addTlb (leaf core) s.mem.tlb) } }
      | .bad _ _ => s

/-- READ, W and X of a leaf (R125). -/
def leafRead (e : DWord) : Bool := bitAt e.toNat 3
/-- W of a leaf. -/
def leafWrite (e : DWord) : Bool := bitAt e.toNat 4
/-- X of a leaf. -/
def leafExec (e : DWord) : Bool := bitAt e.toNat 5
/-- CP of a leaf. -/
def leafCp (e : DWord) : BitVec 2 := BitVec.ofNat 2 (bitsAt e.toNat 6 2)

/-! ## Access tables (R173, R195, R267, R270) -/

/-- Agent classes (R237): 0 warp, 1 copy engine, 2 bank unit, 3 firmware, 4 host. Whether a target grants a master an access. -/
def State.granted (s : State) (ctx : Nat) (cls : Nat) (pa : Nat) (write : Bool) : Bool :=
  let inHandles := decide (cls < 3) && (List.range 8).any fun n =>
    (match getKey Context.n n s.ctl.ctxs with
      | some c => c.state != .empty && decide (s.descOf n 2 ≤ pa) && decide (pa < s.descOf n 2 + 2 ^ 27)
      | none => false)
  let exists' := isHostPa pa || (decide (pa < htop) && s.boot.stken.getLsbD (stackOf pa))
  exists' && !inHandles && s.grants.any fun g =>
    (match g.ctx with | some c => c.toNat == ctx | none => true)
      && (match g.cls with | some k => k == cls | none => true)
      && (match g.target with | some t => t == targetOf pa | none => true)
      && decide (g.lo ≤ pa) && decide (pa < g.hi) && (if write then g.write else g.read)

/-- A target grants an access of n bytes: every byte of it (R270). -/
def State.grantedAll (s : State) (ctx cls pa n : Nat) (write : Bool) : Bool := (List.range n).all fun i => s.granted ctx cls (pa + i) write

/-! ## Scratchpad places (R28, R93, R114) -/

/-- The place of byte `off` (body 0 to 12,287, sidecar from 12,288) of physical array `phys` of a core. -/
def spadCell (core phys off : Nat) : Nat := (core * 32 + phys) * 0x4000 + off

/-- The workgroup array of a scratchpad address with A arrays, and the offset in it; none outside the valid addresses (R93, R114). -/
def spadPlace (A a : Nat) : Option (Nat × Nat) :=
  if a < 12288 * A then some (a / 12288, a % 12288)
  else if 0x80000 ≤ a ∧ a < 0x80000 + 0x800 * A then some ((a - 0x80000) / 0x800, 12288 + (a - 0x80000) % 0x800)
  else none

/-- The array record of a physical array. -/
def State.arrayOf (s : State) (core phys : Nat) : Option ArrayRec := s.arrays.find? fun a => a.core == core && a.phys == phys
/-- Apply `f` to an array. -/
def State.mapArray (s : State) (core phys : Nat) (f : ArrayRec → ArrayRec) : State :=
  { s with arrays := updWhere (fun a => a.core == core && a.phys == phys) f s.arrays }
/-- The core and physical array of a scratchpad place. -/
def cellArray (cell : Nat) : Nat × Nat := (cell / 0x4000 / 32, cell / 0x4000 % 32)

/-! ## Home copies, leases and stamps -/

/-- The home copy of a byte with its stamp. -/
def MemSys.homeByte (m : MemSys) (pa : Nat) : CByte := ⟨readByte m.home pa, (m.stamps.find? fun p => p.1 == pa).map (·.2)⟩

/-- Write a byte at its home: its stamp replaces an earlier one (R138). -/
def MemSys.putHome (m : MemSys) (pa : Nat) (c : CByte) : MemSys :=
  { m with
    home := writeByte pa c.b m.home
    stamps := match c.stamp with
      | some st => (pa, st) :: m.stamps.filter fun p => p.1 != pa
      | none => m.stamps.filter fun p => p.1 != pa }

/-- The latest L2 lease granted on a line, if one was (R122). -/
def MemSys.leaseOf (m : MemSys) (line : Nat) : Option Nat := (m.l2Lease.find? fun p => p.1 == line).map (·.2)
/-- The latest L1 lease a die granted on a line, if one was. -/
def MemSys.l1LeaseOf (m : MemSys) (die line : Nat) : Option Nat := (m.l1Lease.find? fun p => p.1 == die && p.2.1 == line).map (·.2.2)
/-- The later of two times, the first of them there or not. -/
def later (a : Option Nat) (b : Nat) : Nat := max (a.getD 0) b
/-- A completion time (R123): the home's Tidemark when the store arrives, or the latest lease + 1 + ε when that is later. -/
def completion (now : Nat) (lease : Option Nat) : Nat := match lease with
  | some x => max now (x + 1 + 4)
  | none => now

/-- The L2 sector of a die. -/
def MemSys.l2At (m : MemSys) (die sec : Nat) : Option L2Sector := m.l2.find? fun x => x.die == die && x.sec == sec
/-- The L1 sector of a core. -/
def MemSys.l1At (m : MemSys) (core sec : Nat) : Option L1Sector := m.l1.find? fun x => x.core == core && x.sec == sec
/-- Put an L2 sector; one with neither lease nor dirty byte holds nothing. -/
def MemSys.putL2 (m : MemSys) (x : L2Sector) : MemSys :=
  let rest := m.l2.filter fun y => !(y.die == x.die && y.sec == x.sec)
  { m with l2 := if x.expiry.isNone && x.dirty == 0 then rest else x :: rest }
/-- The lines among the sectors of a list, newest first. -/
def linesOf (secs : List Nat) : List Nat := (secs.map (· / 4)).eraseDups
/-- Put an L1 sector (R10: 128 KiB, 512 lines a core). The line that leaves a full L1 is the model's choice: the oldest (log 60). -/
def MemSys.putL1 (m : MemSys) (x : L1Sector) : MemSys :=
  let l1 := x :: m.l1.filter fun y => !(y.core == x.core && y.sec == x.sec)
  { m with l1 := if l1.length ≤ 512 then l1 else
      let keep := (linesOf ((l1.filter fun y => y.core == x.core).map (·.sec))).take 512
      l1.filter fun y => y.core != x.core || keep.contains (y.sec / 4) }
/-- Drop an L1 sector of a core. -/
def MemSys.dropL1 (m : MemSys) (core sec : Nat) : MemSys := { m with l1 := m.l1.filter fun y => !(y.core == core && y.sec == sec) }
/-- Drop an L2 sector of a die, its dirty bytes lost. -/
def MemSys.dropL2 (m : MemSys) (die sec : Nat) : MemSys := { m with l2 := m.l2.filter fun y => !(y.die == die && y.sec == sec) }

/-- A dirty byte of an L2 sector stands in an uncorrectable word (R238). -/
def L2Sector.dirtyBad (x : L2Sector) : Bool := (List.range 64).any fun i => x.dirty.getLsbD i && x.bad.getLsbD (i / 8)

/-- Mark a sector poisoned at its home (R238). -/
def MemSys.taint (m : MemSys) (sec : Nat) : MemSys := { m with poison := sec :: m.poison.filter (· != sec) }

/-- Write the dirty bytes of an L2 sector to the home; an uncorrectable error among them poisons the home sector (R238). -/
def MemSys.writeBack (m : MemSys) (x : L2Sector) : MemSys :=
  let m := (List.range 64).foldl (fun m i => if x.dirty.getLsbD i then m.putHome (64 * x.sec + i) (x.data.getD i ⟨0, none⟩) else m) m
  if x.dirtyBad then m.taint x.sec else m

/-- Recall a line (R119): every L2 but those of dies `keep` admits writes its dirty bytes to the home and clears their dirty bits. -/
def MemSys.recall (m : MemSys) (line : Nat) (keep : Nat → Bool) : MemSys :=
  let hit (x : L2Sector) : Bool := x.sec / 4 == line && x.dirty != 0 && !keep x.die
  let m' := (m.l2.filter hit).foldl MemSys.writeBack m
  { m' with l2 := (m'.l2.map fun x => if hit x then { x with dirty := 0 } else x).filter fun x => x.expiry.isSome || x.dirty != 0 }

/-- A system-scope push (R119): the dirty bytes of a die's L2 reach the home; the owner keeps its copy. -/
def MemSys.push (m : MemSys) (die : Nat) : MemSys := (m.l2.filter fun x => x.die == die && x.dirty != 0).foldl MemSys.writeBack m

/-- The sectors of n bytes from an address. -/
def inSectors (pa n x : Nat) : Bool := decide (pa / 64 ≤ x) && decide (x ≤ (pa + n - 1) / 64)
/-- True when the home copy of some bytes stands in a poisoned sector (R238). -/
def MemSys.homePoisoned (m : MemSys) (pa n : Nat) : Bool := m.poison.any (inSectors pa n)
/-- True when an access that recalls meets an uncorrectable error (R238): at the home, or in the dirty bytes an L2 gives back. -/
def MemSys.poisoned (m : MemSys) (pa n : Nat) : Bool := m.homePoisoned pa n || m.l2.any fun x => inSectors pa n x.sec && x.dirtyBad

/-- An L2 gives up a line, its dirty bytes written to the home (R119). -/
def MemSys.evict (m : MemSys) (die line : Nat) : MemSys :=
  let hit (x : L2Sector) : Bool := x.die == die && x.sec / 4 == line
  let m' := (m.l2.filter hit).foldl MemSys.writeBack m
  { m' with l2 := m'.l2.filter fun x => !hit x }

/-- The lines of a die's L2 marked for eviction first (R121). -/
def MemSys.efLines (m : MemSys) (die : Nat) : List Nat := linesOf ((m.l2.filter fun x => x.die == die && x.ef).map (·.sec))

/-- Room for a line in a die's L2 (R8: 48 MiB, 196,608 lines): when it is full a line marked first for eviction leaves (R121), else the oldest, which is the
model's choice (log 60). -/
def MemSys.roomL2 (m : MemSys) (die line : Nat) : MemSys :=
  if m.l2.length < 196608 then m
  else
    let lines := linesOf ((m.l2.filter fun x => x.die == die).map (·.sec))
    if lines.contains line || decide (lines.length < 196608) then m
    else match (m.efLines die).getLast?, lines.getLast? with
      | some v, _ => m.evict die v
      | none, some v => m.evict die v
      | none, none => m

/-- An expiry chosen in the range of R122 at home Tidemark g. -/
def leaseAt (g choice : Nat) : Nat := g + min choice 4096

/-- The times of the home of a line (R123): its Tidemark, or that at which the bytes of the owner among the dies `other` names have reached it, which is later
than the owner's (R135). -/
def State.homeNow (s : State) (pa : Nat) (other : Nat → Bool) : Nat :=
  (s.mem.l2.filter fun x => x.sec / 4 == lineOf pa && x.dirty != 0 && other x.die).foldl (fun t x => max t (s.tideOf x.die + 4)) (s.tideOf (homeDie pa))

/-- The bad words of a sector filled from a home that is poisoned or not (R238): a word none of whose bytes is dirty takes the home's mark, one whose bytes all are
keeps its own, and a word of both kinds has either. -/
def filledBad (old : Option L2Sector) (poisoned : Bool) : Byte := match old with
  | none => if poisoned then 0xFF else 0
  | some o => (List.range 8).foldl (fun b k =>
      let mine := (o.dirty >>> (8 * k)) &&& 0xFF
      if (mine != 0 && o.bad.getLsbD k) || (mine != 0xFF && poisoned) then b ||| ((1 : Byte) <<< k) else b) 0

/-- An L2 sector filled from the home (R118, R122), a poisoned one marked so (R238): dirty bytes of the die stay. A lease of X = g, the choice 0, serves only
the load that requested it and leaves no valid copy. Gives the sector as it arrives, and the state. -/
def State.fillL2 (s : State) (die sec lease : Nat) (others ef : Bool) : L2Sector × State :=
  let pa := 64 * sec
  let line := sec / 4
  let m := if others then s.mem.recall line (· == die) else s.mem
  let x := leaseAt (s.tideOf (homeDie pa)) lease
  let old := m.l2At die sec
  let dirty : DWord := match old with | some o => o.dirty | none => 0
  let data := (List.range 64).map fun i => match old with
    | some o => if o.dirty.getLsbD i then o.data.getD i ⟨0, none⟩ else m.homeByte (pa + i)
    | none => m.homeByte (pa + i)
  let y : L2Sector := ⟨die, sec, some x, data, dirty, ef || old.any (·.ef), filledBad old (m.homePoisoned pa 64)⟩
  let m1 := (m.roomL2 die line).putL2 { y with expiry := if lease = 0 then none else some x }
  (y, { s with mem := { m1 with l2Lease := (line, later (m.leaseOf line) x) :: m1.l2Lease.filter fun p => p.1 != line } })

/-- An L2 holds a byte of a store whose notice is on its way (R118). -/
def MemSys.nearAt (m : MemSys) (die a : Nat) : Bool := m.near.any fun e => e.die == die && decide (e.pa ≤ a) && decide (a < e.pa + e.bytes.length)

/-- Replace the bytes of a list that stands at address `base` by those written at `pa`. -/
def patchAt (base pa : Nat) (new old : List CByte) : List CByte :=
  (List.range old.length).map fun i =>
    if pa ≤ base + i ∧ base + i < pa + new.length then new.getD (base + i - pa) ⟨0, none⟩ else old.getD i ⟨0, none⟩

/-- Bytes of a die's L2 from an address, with those of the stores it has accepted since, oldest first (R118). -/
def MemSys.withNear (m : MemSys) (die pa : Nat) (bs : List CByte) : List CByte :=
  m.near.foldl (fun bs e => if e.die == die then patchAt pa e.pa e.bytes bs else bs) bs

/-- True when an L2 serves n bytes of a sector from offset `off` at its die's Tidemark t (R118). -/
def MemSys.l2Serves (m : MemSys) (die sec t off n : Nat) : Bool := match m.l2At die sec with
  | some x => (match x.expiry with | some e => decide (t ≤ e) | none => false)
      || (List.range n).all fun i => x.dirty.getLsbD (off + i) || m.nearAt die (64 * sec + off + i)
  | none => (List.range n).all fun i => m.nearAt die (64 * sec + off + i)

/-- Some of the words of n bytes from offset `off` are marked in `bad` (R238). -/
def badWords (bad : Byte) (off n : Nat) : Bool := (List.range 8).any fun k => bad.getLsbD k && decide (off < 8 * k + 8) && decide (8 * k < off + n)

/-- The L1 sector that serves a place of a core at its die's Tidemark (R118), unless its page is not cached there (R125). -/
def State.l1Hit (s : State) (core : Nat) (cp : BitVec 2) (pa : Nat) : Option L1Sector :=
  if cp == 0 && !isHostPa pa then (s.mem.l1At core (sectorOf pa)).filter fun x => decide (s.tideOf (dieOfCore core) ≤ x.expiry) else none

/-- The pseudo-channel of a place is in the RUN of a card in all-bank mode: ordinary reads and writes at the home wait (R203). -/
def State.pchBusy (s : State) (pa : Nat) : Bool :=
  !isHostPa pa && s.cards.any fun k => k.phase == .run && (k.card.getD 0x1A 0).getLsbD 7 && k.pch == pchOf pa

/-- An access bypasses the caches (R125, R267). -/
def bypasses (cp : BitVec 2) (pa : Nat) : Bool := cp == 2 || isHostPa pa

/-- A load of n bytes at a place is served by the home: neither the L1 nor the L2 serves it (R118). -/
def State.servedAtHome (s : State) (core : Nat) (cp : BitVec 2) (pa n : Nat) : Bool :=
  bypasses cp pa
    || ((s.l1Hit core cp pa).isNone && !s.mem.l2Serves (dieOfCore core) (sectorOf pa) (s.tideOf (dieOfCore core)) (pa % 64) n)

/-- Load n bytes of one sector at a place (R118, R119, R121, R125, R267), with lease choices: the bytes with their stamps, and the state. A load that bypasses the caches leaves no clean copy in them: a later load of the lane through them
finds nothing older (R134). An L1 lease that ends at the Tidemark of its grant serves this load alone (R122). -/
def State.loadBytes (s : State) (core : Nat) (cp : BitVec 2) (ch : BitVec 2) (pa n leaseL2 leaseL1 : Nat) : List CByte × State :=
  let die := dieOfCore core
  let sec := sectorOf pa
  let line := lineOf pa
  let off := pa % 64
  let t := s.tideOf die
  if bypasses cp pa then
    let m := s.mem.recall line fun _ => false
    ((List.range n).map fun i => m.homeByte (pa + i), { s with mem := (m.dropL1 core sec).dropL2 die sec })
  else match s.l1Hit core cp pa with
    | some x => ((List.range n).map fun i => x.data.getD (off + i) ⟨0, none⟩, s)
    | none =>
      let r : L2Sector × State :=
        if s.mem.l2Serves die sec t off n then
          let x := (s.mem.l2At die sec).getD ⟨die, sec, none, List.replicate 64 ⟨0, none⟩, 0, false, 0⟩
          (x, { s with mem := s.mem.putL2 { x with ef := x.ef || ch.getLsbD 1 } })
        else s.fillL2 die sec leaseL2 true (ch.getLsbD 1)
      let data := r.2.mem.withNear die (64 * sec) r.1.data
      let m := r.2.mem
      let m := match (m.l2At die sec).bind (·.expiry) with
        | some e =>
          if cp == 0 && !ch.getLsbD 0 && decide (t ≤ e) then
            let e1 := min e (leaseAt t leaseL1)
            let m := if t < e1 then m.putL1 ⟨core, sec, e1, data, r.1.bad⟩ else m.dropL1 core sec
            { m with l1Lease := (die, line, later (m.l1LeaseOf die line) e1) :: m.l1Lease.filter fun p => !(p.1 == die && p.2.1 == line) }
          else m.dropL1 core sec
        | none => m.dropL1 core sec
      ((List.range n).map fun i => data.getD (off + i) ⟨0, none⟩, { r.2 with mem := m })

/-- A load of n bytes of one sector meets an uncorrectable error at the level that serves it (R238). -/
def State.loadFails (s : State) (core : Nat) (cp : BitVec 2) (pa n : Nat) : Bool :=
  let die := dieOfCore core
  match s.l1Hit core cp pa with
  | some x => badWords x.bad (pa % 64) n
  | none => if s.servedAtHome core cp pa n then s.mem.poisoned pa n
      else match s.mem.l2At die (sectorOf pa) with
        | some x => badWords x.bad (pa % 64) n
        | none => false

/-- The completion times of a store at its homes (R123): .wg, .cl, .die, .dev, .sys. -/
def State.storeTimes (s : State) (core pa : Nat) : List Nat :=
  let die := dieOfCore core
  let now := s.tideOf die
  let dieT := completion now (s.mem.l1LeaseOf die (lineOf pa))
  let devT := completion (s.homeNow pa (· != die)) (s.mem.leaseOf (lineOf pa))
  [now, dieT, dieT, devT, devT]

/-- Merge bytes into the L1 sector of the issuing core if it is valid (R118); a whole word written is correct again (R238). -/
def MemSys.mergeL1 (m : MemSys) (core pa : Nat) (bytes : List CByte) : MemSys :=
  let sec := sectorOf pa
  match m.l1At core sec with
  | some x => m.putL1 { x with data := patchAt (64 * sec) pa bytes x.data, bad := if bytes.length = 8 then x.bad &&& ~~~ ((1 : Byte) <<< (pa % 64 / 8)) else x.bad }
  | none => m

/-- Merge bytes into the L2 sector of a die (R118): with dirty bits, or into a valid copy of bytes the home holds. A whole word
written is correct again (`fix`, R238). -/
def MemSys.mergeL2 (m : MemSys) (die pa : Nat) (bytes : List CByte) (dirty ef fix : Bool) : MemSys :=
  let sec := sectorOf pa
  let off := pa % 64
  let bits : DWord := (List.range bytes.length).foldl (fun b i => b ||| (1 <<< (off + i))) 0
  match m.l2At die sec with
  | some x => m.putL2 { x with
      data := patchAt (64 * sec) pa bytes x.data
      dirty := if dirty then x.dirty ||| bits else x.dirty &&& ~~~ bits
      ef := x.ef || ef
      bad := if fix && bytes.length == 8 then x.bad &&& ~~~ ((1 : Byte) <<< (off / 8)) else x.bad }
  | none => if dirty then
      (m.roomL2 die (lineOf pa)).putL2 ⟨die, sec, none, patchAt (64 * sec) pa bytes (List.replicate 64 ⟨0, none⟩), bits, ef,
        if fix then 0 else (1 : Byte) <<< (off / 8)⟩
    else m

/-- A store's bytes reach their home (R118, R119): the line becomes owned by the die's L2, where they stand dirty, after the home has recalled another
owner, or the home takes them (`toHome`: CP = 10, host memory or SCOPE .sys). `fix` as for `MemSys.mergeL2`. -/
def State.storeBytes (s : State) (core : Nat) (cp : BitVec 2) (toHome ef fix : Bool) (pa : Nat) (bytes : List CByte) : State :=
  let die := dieOfCore core
  if toHome || bypasses cp pa then
    let m := s.mem.recall (lineOf pa) fun _ => false
    let m := (List.range bytes.length).foldl (fun m i => m.putHome (pa + i) (bytes.getD i ⟨0, none⟩)) m
    { s with mem := m.mergeL2 die pa bytes false ef fix }
  else { s with mem := (s.mem.recall (lineOf pa) (· == die)).mergeL2 die pa bytes true ef fix }

/-- The `.dev` completion time of a write at a place (R123). -/
def State.devTime (s : State) (pa : Nat) : Nat := completion (s.homeNow pa fun _ => true) (s.mem.leaseOf (lineOf pa))

/-- The latest time kept for a key. -/
def timeFor (k : Nat) (ts : List (Nat × Nat)) : Nat := ((ts.find? fun p => p.1 == k).map (·.2)).getD 0
/-- The latest time kept for a key is raised. -/
def raiseTime (k t : Nat) (ts : List (Nat × Nat)) : List (Nat × Nat) := (k, max t (timeFor k ts)) :: ts.filter fun p => p.1 != k

/-- Bytes written at the home by an engine, a unit, the host or the part itself (R119), with the stamp of their release: after recall of the owner. A sector that is
written whole is correct again (R238). -/
def State.homeWriteAs (s : State) (stamp : Option Stamp) (pa : Nat) (bytes : List Byte) : State :=
  let m := (List.range bytes.length).foldl (fun m i =>
    (m.recall (lineOf (pa + i)) fun _ => false).putHome (pa + i) ⟨bytes.getD i 0, stamp⟩) s.mem
  { s with mem := { m with poison := m.poison.filter fun sec => !(decide (pa ≤ 64 * sec) && decide (64 * sec + 64 ≤ pa + bytes.length)) } }

/-- Bytes written at the home with no release (R119). -/
def State.homeWrite (s : State) (pa : Nat) (bytes : List Byte) : State := s.homeWriteAs none pa bytes

/-- Bytes read at the home by an engine or a unit, after recall of the owner (R119). -/
def State.homeRead (s : State) (pa n : Nat) : List Byte × State :=
  let m := (List.range n).foldl (fun m i => m.recall (lineOf (pa + i)) fun _ => false) s.mem
  (readBytes m.home pa n, { s with mem := m })

/-! ## Atomic operations (R282, R283) -/

/-- The new value of an atomic of `sz` bytes; `.FADD` with its NaN count. -/
def atomNew (op : BitVec 3) (sz old x cmp : Nat) : Nat × Counts :=
  let w := 8 * sz
  match op.toNat with
  | 0 => ((old + x) % 2 ^ w, .zero)
  | 1 =>
    let r := fp32.fadd 0 false false false old x
    (r.1, ⟨0, 0, r.2.nan⟩)
  | 2 => (if signedVal w x < signedVal w old then x else old, .zero)
  | 3 => (if signedVal w x > signedVal w old then x else old, .zero)
  | 4 => (Nat.land old x, .zero)
  | 5 => (Nat.lor old x, .zero)
  | 6 => (x, .zero)
  | _ => (if old = cmp then x else old, .zero)

/-- An atomic performs in the issuing die's L2 (R142): scopes .wg, .cl and .die, of a page that is cached there. -/
def atomicInL2 (cp : BitVec 2) (scope pa : Nat) : Bool := decide (1 ≤ scope) && decide (scope ≤ 3) && !bypasses cp pa

/-- The copy an atomic in the L2 works on (R142): the L2's own while it serves, else a fill without recall, which is granted a lease beyond its own use only
when no other die holds dirty bytes of the line: a copy of bytes that another die has overwritten serves the atomic alone (R136, R140). -/
def State.atomicCopy (s : State) (die pa sz lease : Nat) (ef : Bool) : L2Sector × State :=
  let sec := sectorOf pa
  if s.mem.l2Serves die sec (s.tideOf die) (pa % 64) sz then
    let x := (s.mem.l2At die sec).getD ⟨die, sec, none, List.replicate 64 ⟨0, none⟩, 0, false, 0⟩
    (x, { s with mem := s.mem.putL2 { x with ef := x.ef || ef } })
  else s.fillL2 die sec (if s.mem.l2.any fun x => x.sec / 4 == lineOf pa && x.dirty != 0 && x.die != die then 0 else lease) false ef

/-- The old value of an atomic at a place meets an uncorrectable error (R238, R285): in the copy its die's L2 serves, else at the home it is filled from without
recall; or, where it performs at the home, there or in the dirty bytes an L2 gives back. -/
def State.atomicFails (s : State) (core : Nat) (cp : BitVec 2) (scope pa sz : Nat) : Bool :=
  let die := dieOfCore core
  if atomicInL2 cp scope pa then
    match (s.mem.l2At die (sectorOf pa)).filter fun _ => s.mem.l2Serves die (sectorOf pa) (s.tideOf die) (pa % 64) sz with
    | some x => badWords x.bad (pa % 64) sz
    | none => badWords (filledBad (s.mem.l2At die (sectorOf pa)) (s.mem.homePoisoned (64 * sectorOf pa) 64)) (pa % 64) sz
  else s.mem.poisoned pa sz

/-- What an atomic leaves: the old value, the counts, the bytes read with their stamps, whether a word of them is uncorrectable (R238), its completion times so far
(R123), the state, and the bytes that its die's L2 holds until their notice has reached the home. -/
structure AtomicDone where
  old : Nat
  counts : Counts
  read : List CByte
  bad : Bool
  times : List Nat
  after : State
  near : List CByte

/-- An atomic at a place (R142): in the issuing die's L2 for scopes .wg, .cl and .die, the line owned there once its notice has reached the home (R118, R123), at the
home otherwise, after recall. `stamp` gives the release stamp from the completion times, which count the lease of its own fill; `ef` marks the line (R121). -/
def State.atomicAt (s : State) (core : Nat) (cp : BitVec 2) (scope : Nat) (op : BitVec 3) (sz pa x cmp lease : Nat) (ef : Bool)
    (stamp : List Nat → Option Stamp) : AtomicDone :=
  let die := dieOfCore core
  let sec := sectorOf pa
  let new (ts : List Nat) (v : Nat) : List CByte := (bytesLE sz v).map fun b => ⟨b, stamp ts⟩
  if atomicInL2 cp scope pa then
    let r := s.atomicCopy die pa sz lease ef
    let data := r.2.mem.withNear die (64 * sec) r.1.data
    let old := (List.range sz).map fun i => data.getD (pa % 64 + i) ⟨0, none⟩
    let ov := numLE (old.map (·.b))
    let nv := atomNew op sz ov x cmp
    let ts := (r.2.storeTimes core pa).take 3
    ⟨ov, nv.2, old, badWords r.1.bad (pa % 64) sz, ts, { r.2 with mem := r.2.mem.mergeL1 core pa (new ts nv.1) }, new ts nv.1⟩
  else
    let ts := s.storeTimes core pa
    let bad := s.mem.poisoned pa sz
    let m := s.mem.recall (lineOf pa) fun _ => false
    let old := (List.range sz).map fun i => m.homeByte (pa + i)
    let ov := numLE (old.map (·.b))
    let nv := atomNew op sz ov x cmp
    let bs := new ts nv.1
    let m := (List.range sz).foldl (fun m i => m.putHome (pa + i) (bs.getD i ⟨0, none⟩)) m
    ⟨ov, nv.2, old, bad, ts, { s with mem := (m.dropL1 core sec).dropL2 die sec }, []⟩

/-! ## Stamps (R132, R138) -/

/-- The instance of a scope that holds an agent of workgroup `wg` on a core: the workgroup, its cluster's first member, the die, or the
part. -/
def State.instanceOf (s : State) (wg core scope : Nat) : Nat :=
  match scope with
  | 1 => wg
  | 2 => match s.wgOf wg with | some g => g.members.headD wg | none => wg
  | 3 => dieOfCore core
  | _ => 0

/-- The latest stamp time among bytes whose stamp's instance holds the agent (R138). -/
def State.stampTime (s : State) (wg core : Nat) (bs : List CByte) : Nat :=
  bs.foldl (fun t c => match c.stamp with
    | some st => if s.instanceOf wg core st.scope = st.inst then max t st.time else t
    | none => t) 0

/-- Raise a warp's completion times (R123). -/
def Warp.raiseCtime (w : Warp) (ts : List Nat) : Warp :=
  { w with ctime := (List.range 5).map fun i => max (w.ctime.getD i 0) (ts.getD i 0) }

/-- The latest of the completion times up to a scope. -/
def latestUpTo (ts : List Nat) (scope : Nat) : Nat := (List.range scope).foldl (fun t i => max t (ts.getD i 0)) 0

/-- A store, atomic or reduction with request number `id` of warp `uid` has performed: its times enter the warp's `ctime` and every release
condition that counts it (R123, R146). -/
def State.noteTimes (s : State) (uid id : Nat) (ts : List Nat) : State :=
  let s := s.mapWarp uid fun w => w.raiseCtime ts
  { s with conds := s.conds.map fun c =>
      if c.uid == uid && decide (id < c.upto) then { c with time := max c.time (latestUpTo ts c.scope) } else c }

/-- A release condition at a scope (R137, R146): everything the warp in focus has issued. -/
def State.newCond (s : State) (scope : Nat) : Nat × State :=
  let key := s.nextId
  (key, { s with
    conds := ⟨key, s.cur.uid, dieOfCore s.cur.core, key, scope, latestUpTo s.cur.ctime scope⟩ :: s.conds
    nextId := key + 1 })

/-- True of a request that has not performed, or whose value has not returned. -/
def Req.open (r : Req) : Bool := match r.kind with
  | .mem _ => true
  | .stat _ _ => true
  | _ => !r.checked

/-- The value of an access is still to reach its registers; an atomic whose notice is on its way after that has none left to write. -/
def MemReq.owes (m : MemReq) : Bool := match m.op with
  | .load _ => true
  | .store => false
  | .atom _ ret => ret && !m.dests.isEmpty

/-- A release at a scope waits for a request (R123, R137): for a load or atomic until its value has returned, for a store or atomic until the homes of the scopes up
to that one have given it its completion times: the array, the core's L1 and the die's L2 at acceptance, the LLC home at its notice. -/
def Req.openAt (r : Req) (scope : Nat) : Bool := match r.kind with
  | .mem m => if m.owes then true
      else if m.space == .spad then !r.held
      else if scope ≤ 3 then m.lanes.any fun x => x.left != 0
      else true
  | _ => r.open

/-- The time at which the data of a system-scope push is at its homes (R123). -/
def State.pushTime (s : State) (die : Nat) : Nat :=
  (s.mem.l2.filter fun x => x.die == die && x.dirty != 0).foldl (fun t x => max t (s.homeNow (64 * x.sec) (· == die))) 0

/-- A system-scope push for warp `uid` (R119, R123): the dirty bytes of its die's L2 reach the home, and the completion times at `.sys` of its stores are known: those
at `.dev`, or the time at which the data is there. -/
def State.pushFor (s : State) (uid die : Nat) : State :=
  let t := s.pushTime die
  State.mapWarp { s with mem := s.mem.push die } uid fun w => w.raiseCtime [0, 0, 0, 0, max t (w.ctime.getD 3 0)]

/-- A release condition is met: no earlier request of the warp is open at its scope and the die's Tidemark has reached the time. -/
def State.condMet (s : State) (key : Nat) : Bool := (s.conds.filter fun c => c.key == key).all fun c =>
  !(s.reqs.any fun r => r.uid == c.uid && decide (r.id < c.upto) && r.openAt c.scope) && decide (c.time ≤ s.tideOf c.die)

/-! ## Parts of an access (R141) and messages (R135) -/

/-- The parts of an access of n bytes: two of 8 bytes of a 16-byte one, else one. -/
def partsOf (n : Nat) : List Nat := if n = 16 then [0, 1] else [0]
/-- The parts as a mask. -/
def allParts (n : Nat) : BitVec 2 := if n = 16 then 3 else 1
/-- The bytes of a part. -/
def partLen (n : Nat) : Nat := min n 8

/-- Every lane. -/
def everyLane : Mask := BitVec.allOnes 128

/-- A message sent by a die now is delivered no earlier than 2ε = 8 tk later (R135). -/
def State.dueFrom (s : State) (die : Nat) : Nat × Nat := (die, s.tideOf die + 8)
/-- The message in flight for a request has come. -/
def State.came (s : State) (r : Req) : Bool := decide (r.due.2 ≤ s.tideOf r.due.1)

/-- The completion time a release condition has waited for (R146). -/
def State.condTime (s : State) (key : Nat) : Nat := (s.conds.filter fun c => c.key == key).foldl (fun t c => max t c.time) 0

/-- Forget a release condition. -/
def State.dropCond (s : State) (key : Nat) : State := { s with conds := s.conds.filter fun c => c.key != key }

end Sys2Proof.Machine
end

