-- ==== Sys2Proof/Machine/Tasks.lean ====
section
/-! DEFINITION. The fault log (R237) and the tasks: handles, slots, placement, completion, breaks (R169 to R191). -/

namespace Sys2Proof.Machine

/-! ## Fault log (R237) -/

/-- The content of a fault-log record. -/
structure LogRec where
  time : Nat
  kind : Nat
  cause : Nat
  detail : Nat
  cause2 : Nat
  core : Nat
  pos : Nat
  lane : Nat
  pc : DWord
  addr : DWord
  handle : DWord
  ctx : Nat
  cls : Nat
  target : Nat
deriving DecidableEq, Repr

/-- The 64 bytes of a record. -/
def LogRec.bytes (r : LogRec) : List Byte :=
  bytesLE 8 r.time ++ bytesLE 1 r.kind ++ bytesLE 1 r.cause ++ bytesLE 1 r.detail ++ bytesLE 1 r.cause2 ++ bytesLE 2 r.core
    ++ bytesLE 1 r.pos ++ bytesLE 1 r.lane ++ bytesLE 8 r.pc.toNat ++ bytesLE 8 r.addr.toNat ++ bytesLE 8 r.handle.toNat
    ++ bytesLE 2 (r.ctx * 2 ^ 13 + r.cls * 2 ^ 10) ++ bytesLE 2 (r.target / 16 * 2 ^ 12 + r.target % 16) ++ List.replicate 20 0

/-- Write a record in a context's log (R237): record, then PROD, or LOST when the log is full; Estuary is notified. PROD, CONS and LOST are read from the home copy, before
any recall, and an EMPTY context has no log, so the record is lost (log 53). -/
def State.logRecord (s : State) (r : LogRec) : State :=
  let base := s.descOf r.ctx 4
  let prod := readNum s.mem.home base 8
  let cons := readNum s.mem.home (base + 8) 8
  if (getKey Context.n r.ctx s.ctl.ctxs).all fun c => c.state == .empty then s
  else if (prod + 2 ^ 64 - cons) % 2 ^ 64 < 4095 then
    let s1 := (s.homeWrite (base + 0x40 * (1 + prod % 4095)) r.bytes).homeWrite base (bytesLE 8 (prod + 1))
    { s1 with notices := s1.notices + 1 }
  else s.homeWrite (base + 16) (bytesLE 8 (satAdd 64 (readNum s.mem.home (base + 16) 8) 1))

/-! ## Access tables of the management target (R268, R270, R271) -/

/-- The management target grants an agent class of context 0 an access to n bytes of the register space (R268, R270): 3 Estuary, 4 the host. -/
def State.mgmtGranted (s : State) (cls off n : Nat) (write : Bool) : Bool := s.grants.any fun g =>
  (match g.ctx with | some c => c == 0 | none => true) && (match g.cls with | some k => k == cls | none => true)
    && (match g.target with | some t => t == 64 | none => true)
    && decide (g.lo ≤ off) && decide (off + n ≤ g.hi) && (if write then g.write else g.read)

/-- A refused access of the host or of firmware is logged in the log of context 0 (R236, R271). -/
def State.logHost (s : State) (cls die addr target : Nat) : State :=
  s.logRecord ⟨s.tideOf die, 3, 3, 4, 0, 0xFFFF, 0, 0, 0, BitVec.ofNat 64 addr, 0, 0, cls, target⟩

/-- Estuary writes n bytes of the register space, with effect `f`, under its access table (R127, R178, R215, R268, R271); a refused access is logged, and faults
on the management core, of which the spec gives no state. -/
def State.estuary (s : State) (off n : Nat) (f : State → State) : State := if s.mgmtGranted 3 off n true then f s else s.logHost 3 12 off 64

/-- The task a warp runs, as a record names it (R237); 0 for a kernel warp or one that is gone. -/
def State.taskOf (s : State) (uid : Nat) : DWord := match s.warpOf uid with
  | some w => w.task.getD 0
  | none => 0

/-! ## Handles (R171, R172) -/

/-- One bit of the CRC-16 of R172. -/
def crcBit (c : Nat) : Nat := if c.testBit 15 then Nat.xor (c * 2 % 65536) 0x1021 else c * 2 % 65536
/-- CRC-16 over bytes, most significant byte first: polynomial 0x1021, initial value 0xFFFF. -/
def crc16 (bs : List Nat) : Nat :=
  bs.foldl (fun c b => (List.range 8).foldl (fun c _ => crcBit c) (Nat.xor c (b * 256))) 0xFFFF

/-- Bits [63:16] of a handle as six bytes, the most significant first. -/
def handleBytes (top : Nat) : List Nat := [bitsAt top 40 8, bitsAt top 32 8, bitsAt top 24 8, bitsAt top 16 8, bitsAt top 8 8, bitsAt top 0 8]

/-- The handle of a home slot (R171). -/
def mkHandle (core idx : Nat) (ctx : BitVec 3) (gen : BitVec 23) : DWord :=
  let top := 2 ^ 46 + core / 24 * 2 ^ 43 + core % 24 * 2 ^ 38 + idx * 2 ^ 26 + ctx.toNat * 2 ^ 23 + gen.toNat
  BitVec.ofNat 64 (top * 65536 + crc16 (handleBytes top))

/-- The home core a handle names. -/
def handleCore (h : DWord) : Nat := 24 * bitsAt h.toNat 59 3 + bitsAt h.toNat 54 5
/-- The home slot a handle names. -/
def handleSlot (h : DWord) : Nat := bitsAt h.toNat 42 12
/-- The context a handle names. -/
def handleCtx (h : DWord) : BitVec 3 := BitVec.ofNat 3 (bitsAt h.toNat 39 3)
/-- The generation a handle names. -/
def handleGen (h : DWord) : BitVec 23 := BitVec.ofNat 23 (bitsAt h.toNat 16 23)

/-- True of the slot a core, context and index name. -/
def Slot.isAt (x : Slot) (core : Nat) (ctx : BitVec 3) (idx : Nat) : Bool := x.core == core && x.ctx == ctx && x.idx == idx

/-- The home slot a handle names, whatever its generation. -/
def State.slotOf (s : State) (h : DWord) : Option Slot :=
  s.tasks.slots.find? fun x => x.isAt (handleCore h) (handleCtx h) (handleSlot h)

/-- Apply `f` to the home slot a handle names. -/
def State.mapSlot (s : State) (h : DWord) (f : Slot → Slot) : State :=
  { s with tasks := { s.tasks with
    slots := updWhere (fun x => x.isAt (handleCore h) (handleCtx h) (handleSlot h)) f s.tasks.slots } }

/-- The check of R172 for a warp of context `ctx`. -/
def State.handleOk (s : State) (ctx : BitVec 3) (h : DWord) : Bool :=
  bitsAt h.toNat 62 2 == 1 && crc16 (handleBytes (h.toNat / 65536)) == h.toNat % 65536 && handleCtx h == ctx
    && decide (bitsAt h.toNat 54 5 < 24)
    && (match s.slotOf h with
      | some x => x.home && x.state != .free && x.gen == handleGen h && !x.dropped
      | none => false)

/-- True of a final state (R174). -/
def SlotState.final : SlotState → Bool
  | .resolved => true
  | .broken => true
  | _ => false

/-! ## Slots (R173 to R175) -/

/-- True when slot `idx` of a core and context is FREE. -/
def State.slotFree (s : State) (core : Nat) (ctx : BitVec 3) (idx : Nat) : Bool :=
  !s.tasks.slots.any fun x => x.isAt core ctx idx && x.state != .free

/-- The home slot of a handle that is still the handle's: its generation has not passed. -/
def State.liveSlot (s : State) (h : DWord) : Option Slot := (s.slotOf h).filter fun x => x.home && x.state != .free && x.gen == handleGen h

/-- The number of FREE slots of a core and context. -/
def State.freeSlots (s : State) (core : Nat) (ctx : BitVec 3) : Nat :=
  4096 - (s.tasks.slots.filter fun x => x.core == core && x.ctx == ctx && x.state != .free).length

/-- The lowest FREE slot. -/
def State.lowestSlot (s : State) (core : Nat) (ctx : BitVec 3) : Option Nat := (List.range 4096).find? fun i => s.slotFree core ctx i

/-- The generation of a slot (0 until its first release, log 6). -/
def State.slotGen (s : State) (core : Nat) (ctx : BitVec 3) (idx : Nat) : BitVec 23 :=
  match s.tasks.slots.find? fun x => x.isAt core ctx idx with
  | some x => x.gen
  | none => 0

/-- Put a slot record. -/
def State.putSlot (s : State) (x : Slot) : State :=
  { s with tasks := { s.tasks with slots := x :: s.tasks.slots.filter fun y => !y.isAt x.core x.ctx x.idx } }

/-- Take the lowest FREE home slot for a record, PENDING (R177): the handle and the state. The handle is written into the slot's copy. -/
def State.takeSlot (s : State) (core : Nat) (ctx : BitVec 3) (words : List DWord) (isChain : Bool) (cond : Nat) : DWord × State :=
  match s.lowestSlot core ctx with
  | none => (0, s)
  | some i =>
    let g := s.slotGen core ctx i
    let h := mkHandle core i ctx g
    (h, s.putSlot ⟨core, ctx, i, true, .pending, g, bitAt (words.getD 7 0).toNat 2, none, none, words.set 6 h, [], isChain, none, none, cond, [], 0, (0, 0)⟩)

/-- A lane still waits for the answer of a handle it has named (R186). -/
def State.awaited (s : State) (h : DWord) : Bool := s.reqs.any fun r => r.checked && match r.kind with
  | .await hs _ _ _ => hs.any fun p => p.2 == h
  | _ => false

/-- A slot after its release (R175). -/
def Slot.cleared (x : Slot) : Slot := { x with state := .free, gen := x.gen + 1, dropped := false, value := none, brk := none, chain := [], exec := none, forward := none }

/-- Release a slot that is final, dropped, has no `CHAIN` left and has answered its waiting lanes, and its result slot with it (R175). -/
def State.tryFree (s : State) (h : DWord) : State :=
  match s.slotOf h with
  | some x =>
    if x.state.final && x.dropped && x.chain.isEmpty && !s.awaited h then
      let s1 := s.putSlot x.cleared
      match x.forward, x.exec with
      | some r, some e =>
        (match s1.tasks.slots.find? fun y => y.isAt e x.ctx r with
          | some y => s1.putSlot y.cleared
          | none => s1)
      | _, _ => s1
    else s
  | none => s

/-! ## Records and breaks (R169, R170, R189) -/

/-- The PRIO of a record. -/
def recPrio (words : List DWord) : Nat := bitsAt (words.getD 7 0).toNat 0 2
/-- The LHIDX of a record. -/
def recLhidx (words : List DWord) : Nat := bitsAt (words.getD 7 0).toNat 8 16
/-- True when bits [63:56] are set. -/
def high8 (x : DWord) : Bool := x.toNat / 2 ^ 56 != 0

/-- An invalid record (R170): reserved bits, alignment, bits [63:56] of an address; those of PLACE only send the task to its own core (R178, log 33). -/
def recInvalid (w : List DWord) : Bool :=
  let pfl := (w.getD 7 0).toNat
  let e := (w.getD 0 0).toNat
  bitsAt pfl 24 40 != 0 || bitsAt pfl 3 5 != 0 || e % 4 != 0 || (w.getD 3 0).toNat % 4 != 0 || (w.getD 4 0).toNat % 4 != 0
    || high8 (w.getD 0 0) || high8 (w.getD 1 0) || high8 (w.getD 3 0) || high8 (w.getD 4 0)

/-- A break word (R189). -/
def breakWord (cause detail : Nat) (origin : DWord) : DWord :=
  BitVec.ofNat 64 (cause * 2 ^ 56 + detail % 256 * 2 ^ 48 + origin.toNat / 65536)

/-- The break word of an entry whose upstream broke with word `up`: origin and original cause pass unchanged (R189). -/
def upstreamWord (up : DWord) : DWord :=
  let cause := bitsAt up.toNat 56 8
  let detail := if cause = 3 then bitsAt up.toNat 48 8 else cause
  BitVec.ofNat 64 (3 * 2 ^ 56 + detail * 2 ^ 48 + up.toNat % 2 ^ 48)

/-- The successor decrements a record calls for (R183): non-zero fields that R170 accepts, A first. -/
def recDecs (w : List DWord) : List (Bool × Bool) :=
  let ok (x : DWord) : Bool := x != 0 && x.toNat % 4 == 0 && !high8 x
  (if ok (w.getD 3 0) then [(false, false)] else []) ++ (if ok (w.getD 4 0) then [(true, false)] else [])

/-- True when the record names a successor counter. -/
def recHasSucc (w : List DWord) : Bool := w.getD 3 0 != 0 || w.getD 4 0 != 0

/-- A slot whose value or break is recorded and released settles (R174, R183): SETTLING while decrements are due, else final. -/
def Slot.settle (x : Slot) : Slot :=
  let decs := recDecs x.words
  if decs.isEmpty then { x with state := if x.brk.isSome then .broken else .resolved, decs := [] }
  else { x with state := .settling, decs := decs }

/-- The decrements of a record become due from a core, though its slot does not wait for them (R183). -/
def State.addLate (s : State) (h : DWord) (core : Nat) (words : List DWord) (cond : Nat) : State :=
  { s with tasks := { s.tasks with
    late := s.tasks.late ++ (recDecs words).map fun d => ⟨h, core, words.getD (if d.1 then 4 else 3) 0, d.1, cond, none⟩ } }

/-- A handle broken before its warp runs (R174, R183): it is BROKEN at once, and its decrements are made from its home core once condition `cond` holds. The first
break stays (R189). -/
def State.breakSlot (s : State) (h : DWord) (word : DWord) (cond : Nat) : State :=
  match s.liveSlot h with
  | some x =>
    if x.state.final then s
    else (s.mapSlot h fun x => { x with state := .broken, brk := some (x.brk.getD word), time := s.tideOf (dieOfCore x.core) }).addLate h x.core x.words cond
  | none => s

/-- A handle broken before its warp runs, its decrements due at once; a dropped one is released. -/
def State.breakUnrun (s : State) (h : DWord) (word : DWord) : State := if (s.liveSlot h).isSome then (s.breakSlot h word 0).tryFree h else s

/-! ## Placement (R178 to R180) -/

/-- CHAFFn (R178). -/
def State.chaff (s : State) (n : Nat) : Nat := match s.tasks.chaff.find? fun p => p.1 == n with
  | some p => p.2
  | none => 24 * (n / 64) + (n % 64) % 24

/-- True of an enabled core (R18, R19). -/
def State.coreEnabled (s : State) (core : Nat) : Bool :=
  decide (core < 192) && s.boot.cden.getLsbD (core / 24) && (s.boot.coreen.getD (core / 24) 0).getLsbD (core % 24)

/-- The core that PLACE selects for a task issued on `core` (R178). -/
def State.placeCore (s : State) (core : Nat) (ctx : BitVec 3) (place : DWord) : Nat :=
  if place = 0 then core
  else match s.walkVa ctx place.toNat with
    | .ok pa _ => if pa ≥ htop then core else
        let c := s.chaff (pchOf pa)
        if s.coreEnabled c then c else core
    | .bad _ _ => core

/-- Put a task in the ready queue of its level on a core (R180), with what a `CHAIN` starts with and the time of its acquire (R147). It is sent from die `die` (R135). -/
def State.enqueue (s : State) (die core : Nat) (h upValue upHandle : DWord) (acq : Nat) : State :=
  match s.slotOf h with
  | some x => { s with tasks := { s.tasks with
      ready := s.tasks.ready ++ [⟨core, x.ctx, recPrio x.words, h, upValue, upHandle, acq, die == dieOfCore core, false, s.dueFrom die⟩] } }
  | none => s

/-- The tasks that have come to their ready queues enter them (R135, R180). -/
def State.enterReady (s : State) : State :=
  let comes (t : ReadyTask) : Bool := !t.here && decide (t.due.2 ≤ s.tideOf t.due.1)
  { s with tasks := { s.tasks with
    ready := (s.tasks.ready.filter fun t => !comes t) ++ (s.tasks.ready.filter comes).map fun t => { t with here := true } } }

/-- Place a released task by PLACE (R178), from the die of its counter's home. -/
def State.placeByAddress (s : State) (die : Nat) (h : DWord) (acq : Nat) : State :=
  match s.slotOf h with
  | some x => s.enqueue die (s.placeCore x.core x.ctx (x.words.getD 5 0)) h 0 0 acq
  | none => s

/-- The latest time among the device-scope stamps of n bytes at their home (R138). -/
def MemSys.stampAt (m : MemSys) (pa n : Nat) : Nat :=
  (List.range n).foldl (fun t i => match (m.homeByte (pa + i)).stamp with
    | some st => if 4 ≤ st.scope then max t st.time else t
    | none => t) 0

/-- The counter at a place is zero after an operation that releases parked tasks (R179): all parked there are placed, in park order. Each starts with an
acquire ordered after the decrements the counter has taken (R147, R385). -/
def State.releaseParked (s : State) (pa : Nat) : State :=
  let due := s.tasks.parked.filter fun p => p.arrived && p.pa == pa
  due.foldl (fun s p => s.placeByAddress (homeDie pa) p.handle (max (s.mem.stampAt pa 4) (timeFor pa s.tasks.decTimes)))
    { s with tasks := { s.tasks with parked := s.tasks.parked.filter fun p => !(p.arrived && p.pa == pa) } }

/-! ## Completion (R182, R183) -/

/-- True when a value is committed (R183): the handle is RESOLVED, or an `HSET` recorded a value and the record names no successor counter. -/
def committed (x : Slot) (hset : Option DWord) : Bool := x.state == .resolved || (hset.isSome && !recHasSucc x.words)

/-- Lane 0's v0:v1 of a warp (R183). -/
def Warp.lane0 (w : Warp) : DWord := pairOf ((w.arch.vregs.getD 0 (.u 0)).lane 0) ((w.arch.vregs.getD 1 (.u 0)).lane 0)

/-- The writes still owed to v0 or v1 of an exited task's warp: the value its exit records is the one they leave (log 70). -/
def Warp.owesValue (w : Warp) : Bool := w.pends.any fun p => !p.async && p.ready.isNone && (p.regs.contains 0 || p.regs.contains 1)

/-- A write owed by the warp `uid` has landed: where that warp's exit has recorded lane 0's v0:v1, the record is of the register as it stands now (R41, R183,
log 70). -/
def State.retell (s : State) (uid : Nat) : State := match s.warpOf uid with
  | some w => (match w.task with
    | some h => if w.hasExited && w.hset.isNone && ((s.liveSlot h).any fun x => x.state == .running && x.value.isSome && x.brk.isNone) then
        s.mapSlot h fun x => { x with value := some w.lane0 }
      else s
    | none => s)
  | none => s

/-- The task of the warp in focus completes (R183), with a break word unless it exits: the value is recorded, the release of R146 is made
next by the event that resolves the handle. A handle that a die reset has broken, or that is gone since, takes no value and no break; the task's decrements
are made all the same (R190). -/
def State.completeTask (s : State) (brk : Option (Nat × Nat)) : State :=
  match s.cur.task with
  | none => s
  | some h =>
    let late : State :=
      let c := s.newCond 4
      c.2.addLate h s.cur.core ([0, 0, 0] ++ s.cur.succs) c.1
    match s.liveSlot h with
    | none => late
    | some x =>
      if committed x s.cur.hset then s
      else if x.state == .broken then late
      else
        let word := brk.map fun p => breakWord p.1 p.2 h
        let c := s.newCond 4
        c.2.mapSlot h fun x =>
          { x with value := some (s.cur.hset.getD s.cur.lane0), brk := match x.brk with | some b => some b | none => word, cond := c.1 }

end Sys2Proof.Machine
end

