-- ==== Sys2Proof/Machine/Ops.lean ====
section
/-! DEFINITION. The shared operations of issue: statistics, rejoin release, exit, taking a trap and returning from one, writing results,
barriers (R31, R41, R49 to R56, R60, R88, R225 to R235, R292 to R295). -/

namespace Sys2Proof.Machine

/-! ## Statistics (R88 to R90) -/

/-- Add one to the counters of an identifier, saturating at 0xFFFF_FFFF. -/
def addRow (tid sat ftz nan mrg : Nat) (rows : List StatRow) : List StatRow :=
  let old := (getKey StatRow.tid tid rows).getD ⟨tid, 0, 0, 0, 0⟩
  putKey StatRow.tid ⟨tid, satAdd 32 old.nsat sat, satAdd 32 old.nftz ftz, satAdd 32 old.nnan nan, satAdd 32 old.nmrg mrg⟩ rows

/-- Counts raised by a warp of workgroup `wg` under an identifier (R89); a launch without STATP counts nothing (R90). -/
def State.countFor (s : State) (wg tid : Nat) (c : Counts) : State :=
  if c = .zero then s
  else s.mapWg wg fun g => if g.hdr.statp = 0 then g else { g with stats := addRow tid c.sat c.ftz c.nan 0 g.stats }

/-- The tensor identifier of an instruction: 0 without an extension word (R89). -/
def tidOf (c : Ctl) : Nat := if c.len.getLsbD 0 then c.tid.toNat else 0

/-- Counts raised by the instruction that issues. -/
def State.count (s : State) (c : Ctl) (n : Counts) : State := s.countFor s.cur.wg (tidOf c) n

/-! ## Rejoin sets (R49, R50, R55) -/

/-- A set with M zero is empty (R45). -/
def RejoinSet.norm (j : RejoinSet) : RejoinSet := if j.m = 0 then .empty else j

/-- The release rule (R50) on every set: lanes of a set whose M equals its W leave Parked, Runnable with wait count 0. -/
def Warp.releaseSets (w : Warp) : Warp :=
  let free : Mask := w.arch.sets.foldl (fun m j => if j.m != 0 && j.m == j.w then m ||| j.w else m) 0
  let sets := w.arch.sets.map fun j => if j.m != 0 && j.m == j.w then { j with w := 0 } else j
  let w1 := w.mapLanes free fun _ x => if x.st = .parked then { x with st := .runnable, wait := 0 } else x
  { w1 with arch := { w1.arch with sets := sets }, acted := w.acted ||| free }

/-- True in rejoin deadlock (R55): a lane is Parked and every lane that is not Exited is. A warp in its handler is not tested. -/
def Warp.deadlocked (w : Warp) : Bool :=
  let parked := maskOf fun l => (w.lane l).st == .parked
  !w.inHandler && parked != 0 && parked == w.live

/-! ## Exit (R41, R49, R315) -/

/-- Lanes become Exited and leave every set; the release rule follows. -/
def Warp.exitLanes (w : Warp) (m : Mask) : Warp :=
  let w1 := w.mapLanes m fun _ x => { x with st := .exited }
  let w2 := { w1 with arch := { w1.arch with
    sets := (List.range 16).map fun k =>
      let j := w1.arch.sets.getD k .empty
      RejoinSet.norm { j with m := j.m &&& ~~~ m, w := j.w &&& ~~~ m } } }
  w2.releaseSets

/-- When every lane of the warp in focus is Exited, the warp exits (R41): a task completes (R183), with a break unless it exits, tokens and
`AWAIT` results still due are discarded, and the workgroup notes the position (R92). -/
def State.noteExit (s : State) (brk : Option (Nat × Nat)) : State :=
  if s.cur.hasExited then
    let s1 := s.completeTask brk
    let s2 := { s1 with cur := { s1.cur with pends := s1.cur.pends.filter fun p => !p.async, holds := [], fences := [] } }
    s2.mapWg s2.cur.wg fun g => { g with lastPos := s2.cur.pos }
  else s

/-- Every lane of the warp in focus exits, out of its handler (R235, R323). -/
def State.exitAll (s : State) (brk : Option (Nat × Nat)) : State :=
  let w := { s.cur with arch := { s.cur.arch with handler := none } }
  State.noteExit { s with cur := w.exitLanes w.live } brk

/-! ## Traps (R225 to R235) -/

/-- The sixteen record words of a trap (R232). -/
def TrapInfo.record (t : TrapInfo) (time : Nat) : List Word :=
  let w (n : Nat) : Word := BitVec.ofNat 32 n
  [w (t.cause * 2 ^ 24 + t.detail % 256 * 2 ^ 16 + t.aux % 256 * 2 ^ 8 + (if t.lane.isSome then 128 else 0) + t.lane.getD 0),
    loWord t.tpc, hiWord t.tpc &&& 0xFFFFFF, loWord t.rpc, hiWord t.rpc &&& 0xFFFFFF, loWord t.addr, hiWord t.addr, w (t.acc * 2 ^ 28),
    w (bitsAt t.actm.toNat 0 32), w (bitsAt t.actm.toNat 32 32), w (bitsAt t.actm.toNat 64 32), w (bitsAt t.actm.toNat 96 32),
    w time, w (time / 2 ^ 32), 0, 0]

/-- The warp in focus enters its handler (R231, R234): the mask, TRAPH as the handler PC, the entry resume point and the record; every lane
keeps its own PC, state, depth and wait count. -/
def State.enterHandler (s : State) (t : TrapInfo) : State :=
  let h : Handler := ⟨t.hmask, s.cur.hdr.traph, t.rpc, t.record s.myTide, none⟩
  { s with cur := { s.cur with arch := { s.cur.arch with handler := some h }, fetched := [] } }

/-- The cause of the trap a handler runs for. -/
def Handler.cause (h : Handler) : Nat := (h.words.getD 0 0).toNat / 2 ^ 24

/-- What a double fault logs of the first trap (R235, R237): its detail, lane, TPC and address. -/
def Handler.firstTrap (h : Handler) (t : TrapInfo) : TrapInfo :=
  let w0 := (h.words.getD 0 0).toNat
  { t with
    detail := bitsAt w0 16 8
    lane := if bitAt w0 7 then some (bitsAt w0 0 7) else none
    tpc := pairOf (h.words.getD 1 0) (h.words.getD 2 0)
    addr := pairOf (h.words.getD 5 0) (h.words.getD 6 0) }

/-- An unhandled trap (R235): the fault-log record (kind 1, or 2 for a double fault), every lane exits, and a task's handle breaks with cause
TRAP and the first trap's cause. -/
def State.unhandledTrap (s : State) (kind first second : Nat) (t : TrapInfo) : State :=
  let w := s.cur
  let s1 := s.logRecord ⟨s.myTide, kind, first, t.detail % 256, second, w.core, w.pos, t.lane.getD 0, t.tpc, t.addr, w.task.getD 0,
    w.ctx.toNat, 0, 0⟩
  s1.exitAll (some (1, first))

/-- Take a trap. `s0` is the state before the instruction and `s` after its effect (they are equal for a class-P cause). The trap waits until
every older access of the warp is checked (R229): until then the instruction has not issued and the warp is stalled, its other splits too, which is the model's choice (log 14).
In handler mode it is
a double fault; with TRAPH zero it is unhandled. -/
def State.takeTrap (s0 s : State) (t : TrapInfo) : State :=
  if (s0.unchecked s0.cur.uid).isEmpty then
    match s.cur.arch.handler with
    | some h => s.unhandledTrap 2 h.cause t.cause (h.firstTrap t)
    | none => if s.cur.hdr.traph = 0 then s.unhandledTrap 1 t.cause 0 t else s.enterHandler t
  else { s0 with cur := { s0.cur with stalled := true } }

/-- A class-P trap of the instruction that issues: the handler mask is its split, TPC and RPC its own address (R231). -/
def State.trapP (s : State) (act : Mask) (cause detail aux : Nat) (lane : Option Nat) (addr : DWord) (acc : Nat) : State :=
  s.takeTrap s ⟨cause, detail, aux, lane, addr, acc, act, s.split &&& s.cur.live, s.ipc, s.ipc⟩

/-- The illegal instruction trap (R31, R252). -/
def State.illegal (s : State) (act : Mask) : State := s.trapP act 1 0 0 none 0 4

/-- A barred instruction in handler mode (R233): a double fault that records CAUSE2 = 1. -/
def State.barred (s : State) (act : Mask) : State := s.illegal act

/-- `TRAPRET` (R234): handler mode ends; each Runnable lane of HMASK at EPC takes RPC, words 3 [31:0] and 4 [23:0] of the record (R232); every wait count
becomes 0. -/
def State.trapReturn (s : State) : State :=
  match s.cur.arch.handler with
  | none => s
  | some h =>
    let rpc := pairOf (h.words.getD 3 0) (h.words.getD 4 0 &&& 0xFFFFFF)
    let w := s.cur.mapLanes (BitVec.allOnes 128) fun l x =>
      { x with wait := 0, pc := if h.mask.getLsbD l && x.runnable && x.pc == h.epc then rpc else x.pc }
    { s with cur := { w with arch := { w.arch with handler := none }, fetched := [] } }

/-! ## Writing results -/

/-- The checks and the write of an instruction that computes (R31, R60, R88): the registers it names must be nameable, the bindings must
fit; then registers, predicates and counts are written and the split advances. -/
def State.commit (s : State) (c : Ctl) (names : List Reg) (ws : List RegWrite) (ps : List (PReg × Mask)) (n : Counts) : State :=
  let act := s.act c
  if !names.all s.cur.nameable then s.illegal act
  else if act = 0 then s.advance c
  else match s.cur.overflow act ws with
    | some r => s.trapP act 8 0 r.toNat none 0 4
    | none =>
      let live := s.cur.live
      let a1 := ws.foldl (fun a x => a.write live act x) s.cur.arch
      let a2 := ps.foldl (fun a p => a.writePred act p.1 p.2) a1
      (State.count { s with cur := { s.cur with arch := a2 } } c n).advance c

/-! ## Barriers (R292 to R295) -/

/-- Lanes of a mask become Runnable with wait count 0, in the state and in every checkpoint, and issue from the next cc on. -/
def Warp.wake (w : Warp) (p : Lane → Bool) : Warp :=
  let m := maskOf fun l => p (w.lane l)
  let f (a : Arch) : Arch := a.mapLanes (BitVec.allOnes 128) fun _ x => if p x then { x with st := .runnable, wait := 0 } else x
  { (w.mapArchAll f).refetch with acted := w.acted ||| m }

/-- A warp's `BAR.SYNC` arrival condition holds (R293): a lane waits at b by SYNC, uncounted, and every other live lane is Parked or At
barrier b. -/
def Warp.syncReady (w : Warp) (b : Nat) : Bool :=
  let lanes := (List.range laneCount).map w.lane
  let mine (x : Lane) : Bool := match x.st with | .atBarrier k true none => k.toNat == b | _ => false
  lanes.any mine && lanes.all fun x => x.exited || (match x.st with
    | .parked => true
    | .atBarrier k _ _ => k.toNat == b
    | _ => false)

/-- A warp with index i arrives at a barrier (R293); gives the phase its arrival counts in. -/
def Barrier.arrive (b : Barrier) (i : Nat) : Barrier × BitVec 16 :=
  if b.arrived.getLsbD i then ({ b with deferred := b.deferred ||| (1 <<< i) }, b.phase + 1)
  else ({ b with arrived := b.arrived ||| (1 <<< i) }, b.phase)

/-- The SYNC lanes of a warp at b are counted in a phase. -/
def Warp.countSync (w : Warp) (b : Nat) (ph : BitVec 16) : Warp :=
  w.mapArchAll fun a => a.mapLanes (BitVec.allOnes 128) fun _ x => match x.st with
    | .atBarrier k true none => if k.toNat == b then { x with st := .atBarrier k true (some ph) } else x
    | _ => x

/-- A warp may arrive at a barrier (R137, R139, R143, R293): an arrival is a release at `.wg`, so the warp's accesses have performed there and its die's Tidemark
has reached `ctime(.wg)`. -/
def State.mayArrive (s : State) (w : Warp) : Bool :=
  !(s.reqs.any fun r => r.uid == w.uid && (match r.kind with | .mem _ => r.openAt 1 | _ => false))
    && decide (w.ctime.getD 0 0 ≤ s.tideOf (dieOfCore w.core))

/-- The barriers of one workgroup at the end of a cycle (R293, R295): arrivals of SYNC, then completion. -/
def State.settleBar (s : State) (key b : Nat) : State :=
  let ready := s.warps.filter fun w => w.wg == key && w.uid != 0 && !w.hasExited && w.syncReady b && s.mayArrive w
  let s1 := ready.foldl (fun s w =>
    match (s.wgOf key).bind fun g => g.bars[b]? with
    | some x =>
      let r := x.arrive w.index
      (s.mapWg key fun g => { g with bars := g.bars.set b r.1 }).mapWarp w.uid fun w => w.countSync b r.2
    | none => s) s
  match (s1.wgOf key).bind fun g => g.bars[b]? with
  | none => s1
  | some x =>
    let members := s1.warps.filter fun w => w.wg == key && w.uid != 0 && !w.hasExited
    if !members.isEmpty && members.all (fun w => x.arrived.getLsbD w.index) && x.carr == x.ncopy then
      let s2 := s1.mapWg key fun g => { g with bars := g.bars.set b ⟨x.phase + 1, x.deferred, 0, 0, 0⟩ }
      s2.mapWarps fun w => if w.wg == key && w.uid != 0 then
          w.wake fun l => (match l.st with | .atBarrier k _ (some p) => k.toNat == b && p == x.phase | _ => false)
        else w
    else s1

/-- The barriers at the end of a cycle of the dies `on` names. -/
def State.settleBars (s : State) (on : Nat → Bool) : State :=
  (s.wgs.filter fun g => on (dieOfCore g.core)).foldl (fun s g => (List.range g.bars.length).foldl (fun s b =>
    if (s.warps.any fun w => w.wg == g.key && (List.range laneCount).any fun l => match (w.lane l).st with
        | .atBarrier k _ _ => k.toNat == b
        | _ => false)
      || ((s.wgOf g.key).bind fun g => g.bars[b]?).any (fun x => x.arrived != 0) then s.settleBar g.key b else s) s) s

end Sys2Proof.Machine
end

