-- ==== Sys2Proof/Machine/Operands.lean ====
section
/-! DEFINITION. Operand forms: the second source of a register or immediate form (R245), pairs (R61), effective addresses of global, scratchpad
and cluster-window accesses and their checks (R113 to R116, R125, R129), and data blocks (R249, R360). -/

namespace Sys2Proof.Machine

/-- A second source: a register, or the literal of an immediate form (R245). -/
inductive Src where
  | reg (r : Reg)
  | imm (x : DWord)
deriving DecidableEq, Repr

/-- The 32-bit source as a register value: an immediate counts as U (R57). -/
def Src.val (s : State) : Src → VReg
  | .reg r => s.reg r
  | .imm x => .u (loWord x)

/-- The 64-bit value lane l reads from a source. -/
def Src.pair (s : State) (l : Nat) : Src → DWord
  | .reg r => s.rdPair r l
  | .imm x => x

/-- True when the 64-bit source is U in both halves. -/
def Src.pairU (s : State) : Src → Bool
  | .reg r => (s.reg r).isU && (s.reg (r + 1)).isU
  | .imm _ => true

/-- The registers a 32-bit source names. -/
def Src.names : Src → List Reg
  | .reg r => [r]
  | .imm _ => []

/-- The registers a 64-bit source names. -/
def Src.pairNames : Src → List Reg
  | .reg r => [r, r + 1]
  | .imm _ => []

/-- A pair's two registers. -/
def pairRegs (r : Reg) : List Reg := [r, r + 1]

/-- True when both halves of a pair are U. -/
def State.pairU (s : State) (r : Reg) : Bool := (s.reg r).isU && (s.reg (r + 1)).isU

/-! ## Sizes of memory operands (R249) -/

/-- Bytes per lane of a size code: 000 4, 001 1 (Z8), 010 1 (S8), 011 2 (Z16), 100 2 (S16), 101 8 (D), 110 16 (Q). -/
def szBytes (sz : BitVec 3) : Nat := match sz.toNat with
  | 0 => 4
  | 1 => 1
  | 2 => 1
  | 3 => 2
  | 4 => 2
  | 5 => 8
  | _ => 16

/-- True of a sign-extending size code. -/
def szSigned (sz : BitVec 3) : Bool := sz == 2 || sz == 4

/-- Registers of a data block of `n` bytes. -/
def blockRegs (n : Nat) : Nat := if n ≤ 4 then 1 else n / 4

/-- The number a block of registers holds in lane l, low register first. -/
def State.rdBlock (s : State) (r : Reg) (n l : Nat) : Nat :=
  (List.range (blockRegs n)).foldl (fun t i => t + (s.rd (r + BitVec.ofNat 6 i) l).toNat * 2 ^ (32 * i)) 0

/-! ## Effective addresses -/

/-- The global effective address of lane l (R113): the pair plus the signed immediate, modulo 2^64. -/
def State.globalEa (s : State) (a : Reg) (off : Word) (l : Nat) : DWord := s.rdPair a l + sext64 off

/-- The scratchpad effective address of lane l (R114). -/
def State.spadEa (s : State) (a : Reg) (off : Word) (l : Nat) : Word := s.rd a l + off

/-- What an access needs of its page (R125). -/
structure Need where
  read : Bool
  write : Bool
deriving DecidableEq, Repr

/-- The fault of one lane of an access: lane, cause, detail, aux, address. -/
structure LaneFault where
  lane : Nat
  cause : Nat
  detail : Nat
  aux : Nat
  addr : DWord
deriving DecidableEq, Repr

/-- Translate and check one lane's global address (R125, R129): the place and the page's CP, or the fault. -/
def State.globalLane (s : State) (core : Nat) (ctx : BitVec 3) (need : Need) (l : Nat) (ea : DWord) : Except LaneFault (Nat × BitVec 2) :=
  match s.xlate core ctx ea.toNat with
  | .bad d lv => .error ⟨l, 2, d, lv, ea⟩
  | .ok pa e =>
    if (need.read && !leafRead e) || (need.write && !leafWrite e) then .error ⟨l, 3, 1, 0, ea⟩ else .ok (pa, leafCp e)

/-- Check one lane's scratchpad address in a workgroup (R114): its place, or the fault. -/
def spadLane (g : Workgroup) (l : Nat) (ea : Word) : Except LaneFault Nat :=
  match spadPlace g.arrays.length ea.toNat with
  | some (j, off) => .ok (spadCell g.core (g.arrays.getD j 0) off)
  | none => .error ⟨l, 3, 2, 0, ea.setWidth 64⟩

/-- The first fault of a list of lane checks, in lane order (R226). -/
def firstFault {α : Type} (xs : List (Except LaneFault α)) : Option LaneFault :=
  xs.findSome? fun x => match x with | .error e => some e | .ok _ => none

/-- The lowest active lane whose address is misaligned (R116). -/
def misaligned (act : Mask) (n : Nat) (ea : Nat → Nat) : Option Nat := (maskLanes act).find? fun l => ea l % n != 0

end Sys2Proof.Machine
end

