-- ==== Sys2Proof/Machine/Flags.lean ====
section
/-! DEFINITION. The part has no flag register: conditions go to predicates (R61, R248, R329) and every departure from an ideal result to the
counters (R88). The integer result with its saturation (R71, R78, R327) and the compare conditions stand here. -/

namespace Sys2Proof.Machine

/-- A Z-bit operand as an integer (R327): unsigned or two's complement. -/
def readInt (un : Bool) (Z x : Nat) : Int := if un then (x % 2 ^ Z : Nat) else signedVal Z x

/-- The exact result brought to Z bits (R71, R78): clamped under SAT, with one saturation if that changed it, else wrapped. -/
def narrow (un sat : Bool) (Z : Nat) (t : Int) : Nat × Counts :=
  if sat then
    let lo : Int := if un then 0 else -(2 ^ (Z - 1))
    let hi : Int := if un then 2 ^ Z - 1 else 2 ^ (Z - 1) - 1
    let r := max lo (min hi t)
    (wrapInt Z r, if r = t then .zero else .oneSat)
  else (wrapInt Z t, .zero)

/-- The condition codes of R248: EQ, NE, LT, LE, GT, GE. -/
def intCond (cond : BitVec 3) (a b : Int) : Bool := match cond.toNat with
  | 0 => a == b
  | 1 => a != b
  | 2 => decide (a < b)
  | 3 => decide (a ≤ b)
  | 4 => decide (b < a)
  | _ => decide (b ≤ a)

end Sys2Proof.Machine
end

