-- ==== Sys2Proof/Machine/Integer.lean ====
section
/-! DEFINITION. The integer and logic family: opcodes 0x00 to 0x17 (R280, R299, R303, R312, R327 to R329, R339, R342, R344, R354, R355). -/

namespace Sys2Proof.Machine

/-- The outcome of every meaning: a next state. -/
abbrev Out := Host.Outcome State Fault Refusal

/-! ## Affine rows of R59 -/

/-- Base and stride of a U or A register. -/
def VReg.affine : VReg → Option (Word × Word)
  | .u x => some (x, 0)
  | .a b st => some (b, st)
  | .g _ => none

/-- U when every source is U, else A. -/
def mkAffine (allU : Bool) (b st : Word) : VReg := if allU then .u b else .a b st

/-- `IADD`, `ISUB` of U or A sources. -/
def affSum (sub : Bool) (a b : VReg) : Option VReg :=
  match a.affine, b.affine with
  | some x, some y => some (mkAffine (a.isU && b.isU) (if sub then x.1 - y.1 else x.1 + y.1) (if sub then x.2 - y.2 else x.2 + y.2))
  | _, _ => none

/-- An operation on base and stride of the first source by a U second source (`IMUL`, `SHL`). -/
def affScale (f : Word → Word → Word) (a b : VReg) : Option VReg :=
  match a.affine, b with
  | some x, .u y => some (mkAffine a.isU (f x.1 y) (f x.2 y))
  | _, _ => none

/-- `IMAD` of U or A a, U b, U or A c. -/
def affMad (a b c : VReg) : Option VReg :=
  match a.affine, b, c.affine with
  | some x, .u y, some z => some (mkAffine (a.isU && c.isU) (x.1 * y + z.1) (x.2 * y + z.2))
  | _, _, _ => none

/-- `INEG` of U or A. -/
def affNeg (a : VReg) : Option VReg := a.affine.map fun x => mkAffine a.isU (-x.1) (-x.2)

/-! ## Forms -/

/-- Two sources (R327): `f` is the exact result, `aff` the affine row of R59, which SAT removes (R328). -/
def intBin (s : State) (c : Ctl) (m : IMod) (d a : Reg) (b : Src) (f : Int → Int → Int) (aff : VReg → VReg → Option VReg) : State :=
  if m.w then
    let r (l : Nat) := narrow m.un m.sat 64 (f (readInt m.un 64 (s.rdPair a l).toNat) (readInt m.un 64 (b.pair s l).toNat))
    s.commit c (pairRegs d ++ pairRegs a ++ b.pairNames) (pairResult d (s.pairU a && b.pairU s) fun l => BitVec.ofNat 64 (r l).1) []
      (laneCounts (s.act c) fun l => (r l).2)
  else
    let r (x y : Word) := narrow m.un m.sat 32 (f (readInt m.un 32 x.toNat) (readInt m.un 32 y.toNat))
    let va := s.reg a
    let vb := b.val s
    let v := (if m.sat then none else aff va vb).getD (shape2 (fun x y => BitVec.ofNat 32 (r x y).1) va vb)
    s.commit c ([d, a] ++ b.names) [⟨d, v⟩] [] (laneCounts (s.act c) fun l => (r (va.lane l) (vb.lane l)).2)

/-- `IMAD` (R327). -/
def intMad (s : State) (c : Ctl) (m : IMod) (d a : Reg) (b : Src) (e : Reg) : State :=
  if m.w then
    let r (l : Nat) := narrow m.un m.sat 64 (readInt m.un 64 (s.rdPair a l).toNat * readInt m.un 64 (b.pair s l).toNat
      + readInt m.un 64 (s.rdPair e l).toNat)
    s.commit c (pairRegs d ++ pairRegs a ++ b.pairNames ++ pairRegs e)
      (pairResult d (s.pairU a && b.pairU s && s.pairU e) fun l => BitVec.ofNat 64 (r l).1) [] (laneCounts (s.act c) fun l => (r l).2)
  else
    let r (x y z : Word) := narrow m.un m.sat 32 (readInt m.un 32 x.toNat * readInt m.un 32 y.toNat + readInt m.un 32 z.toNat)
    let va := s.reg a
    let vb := b.val s
    let vc := s.reg e
    let v := (if m.sat then none else affMad va vb vc).getD (shape3 (fun x y z => BitVec.ofNat 32 (r x y z).1) va vb vc)
    s.commit c ([d, a, e] ++ b.names) [⟨d, v⟩] [] (laneCounts (s.act c) fun l => (r (va.lane l) (vb.lane l) (vc.lane l)).2)

/-- One signed source (`IABS`, `INEG`). -/
def intUn (s : State) (c : Ctl) (m : IMod) (d a : Reg) (f : Int → Int) (aff : VReg → Option VReg) : State :=
  if m.w then
    let r (l : Nat) := narrow false m.sat 64 (f (readInt false 64 (s.rdPair a l).toNat))
    s.commit c (pairRegs d ++ pairRegs a) (pairResult d (s.pairU a) fun l => BitVec.ofNat 64 (r l).1) []
      (laneCounts (s.act c) fun l => (r l).2)
  else
    let r (x : Word) := narrow false m.sat 32 (f (readInt false 32 x.toNat))
    let va := s.reg a
    let v := (if m.sat then none else aff va).getD (shape1 (fun x => BitVec.ofNat 32 (r x).1) va)
    s.commit c [d, a] [⟨d, v⟩] [] (laneCounts (s.act c) fun l => (r (va.lane l)).2)

/-- A lane-wise operation on 32-bit words, or 64-bit pairs for `.W`, of two sources, without counts (R280, R342). -/
def bitBin (s : State) (c : Ctl) (w : Bool) (d a : Reg) (b : Src) (f : Word → Word → Word) (f2 : DWord → DWord → DWord) : State :=
  if w then s.commit c (pairRegs d ++ pairRegs a ++ b.pairNames)
    (pairResult d (s.pairU a && b.pairU s) fun l => f2 (s.rdPair a l) (b.pair s l)) [] .zero
  else s.commit c ([d, a] ++ b.names) [⟨d, shape2 f (s.reg a) (b.val s)⟩] [] .zero

/-- A lane-wise operation of one source, without counts (R303, R312, R342, R344). -/
def bitUn (s : State) (c : Ctl) (w : Bool) (d a : Reg) (f : Word → Word) (f2 : DWord → DWord) : State :=
  if w then s.commit c (pairRegs d ++ pairRegs a) (pairResult d (s.pairU a) fun l => f2 (s.rdPair a l)) [] .zero
  else s.commit c [d, a] [⟨d, shape1 f (s.reg a)⟩] [] .zero

/-! ## Shifts (R354) -/

/-- The count a shift of a `.W` form reads in lane l: one register, zero-extended, or the literal. -/
def Src.count (s : State) (l : Nat) : Src → Nat
  | .reg r => (s.rd r l).toNat
  | .imm x => x.toNat

/-- SHL by a count: 0 when the count is Z or more. -/
def shlN (Z x n : Nat) : Nat := if n ≥ Z then 0 else x * 2 ^ n % 2 ^ Z
/-- SHR by a count, zero fill. -/
def shrN (Z x n : Nat) : Nat := if n ≥ Z then 0 else x / 2 ^ n
/-- SAR by a count, sign fill. -/
def sarN (Z x n : Nat) : Nat := wrapInt Z (signedVal Z x / 2 ^ (min n Z))

/-- A shift: `f` takes the width, the value and the count (R354). -/
def shiftOp (s : State) (c : Ctl) (w : Bool) (d a : Reg) (b : Src) (f : Nat → Nat → Nat → Nat) (affine : Bool) : State :=
  if w then
    s.commit c (pairRegs d ++ pairRegs a ++ b.names)
      (pairResult d (s.pairU a && (b.val s).isU) fun l => BitVec.ofNat 64 (f 64 (s.rdPair a l).toNat (b.count s l))) [] .zero
  else
    let g (x y : Word) : Word := BitVec.ofNat 32 (f 32 x.toNat y.toNat)
    let va := s.reg a
    let vb := b.val s
    s.commit c ([d, a] ++ b.names) [⟨d, (if affine then affScale g va vb else none).getD (shape2 g va vb)⟩] [] .zero

/-! ## Counting and bit fields -/

/-- The number of set bits among the n low bits. -/
def popCount (n x : Nat) : Nat := ((List.range n).filter fun i => x.testBit i).length
/-- The number of leading zeros of an n-bit number (R312). -/
def leadingZeros : Nat → Nat → Nat
  | 0, _ => 0
  | n + 1, x => if x.testBit n then 0 else 1 + leadingZeros n x
/-- The n-bit number with its bits in reverse order (R303). -/
def reverseBits (n x : Nat) : Nat := (List.range n).foldl (fun t i => if x.testBit i then t + 2 ^ (n - 1 - i) else t) 0

/-- BFE of R299 on a Z-bit value. -/
def bfeVal (un : Bool) (Z x pos wid : Nat) : Nat :=
  let t := bitsAt x pos wid
  if un then t % 2 ^ Z else wrapInt Z (signedVal wid t)
/-- BFI of R299. -/
def bfiVal (x base pos wid : Nat) : Nat :=
  let keep := base % 2 ^ pos + base / 2 ^ (pos + wid) * 2 ^ (pos + wid)
  keep + x % 2 ^ wid * 2 ^ pos

/-! ## Meanings -/

/-- `IADD vD, vA, vB` (R327). -/
def execIadd (c : Ctl) (m : IMod) (d a b : Reg) (s : State) : Out := .next (intBin s c m d a (.reg b) (· + ·) (affSum false))
/-- `IADD vD, vA, #imm` (R327). -/
def execIaddImmediate (c : Ctl) (m : IMod) (d a : Reg) (imm : DWord) (s : State) : Out :=
  .next (intBin s c m d a (.imm imm) (· + ·) (affSum false))
/-- `ISUB` (R327). -/
def execIsub (c : Ctl) (m : IMod) (d a b : Reg) (s : State) : Out := .next (intBin s c m d a (.reg b) (· - ·) (affSum true))
/-- `ISUB` immediate (R327). -/
def execIsubImmediate (c : Ctl) (m : IMod) (d a : Reg) (imm : DWord) (s : State) : Out :=
  .next (intBin s c m d a (.imm imm) (· - ·) (affSum true))
/-- `IMUL` (R327). -/
def execImul (c : Ctl) (m : IMod) (d a b : Reg) (s : State) : Out := .next (intBin s c m d a (.reg b) (· * ·) (affScale (· * ·)))
/-- `IMUL` immediate (R327). -/
def execImulImmediate (c : Ctl) (m : IMod) (d a : Reg) (imm : DWord) (s : State) : Out :=
  .next (intBin s c m d a (.imm imm) (· * ·) (affScale (· * ·)))
/-- The high half of a product (R327). -/
def mulHigh (m : IMod) (x y : Int) : Int := x * y / (if m.w then 2 ^ 64 else 2 ^ 32)
/-- `IMULH` (R327). -/
def execImulh (c : Ctl) (m : IMod) (d a b : Reg) (s : State) : Out := .next (intBin s c m d a (.reg b) (mulHigh m) fun _ _ => none)
/-- `IMULH` immediate (R327). -/
def execImulhImmediate (c : Ctl) (m : IMod) (d a : Reg) (imm : DWord) (s : State) : Out :=
  .next (intBin s c m d a (.imm imm) (mulHigh m) fun _ _ => none)
/-- `IMAD` (R327). -/
def execImad (c : Ctl) (m : IMod) (d a b e : Reg) (s : State) : Out := .next (intMad s c m d a (.reg b) e)
/-- `IMAD` immediate (R327). -/
def execImadImmediate (c : Ctl) (m : IMod) (d a : Reg) (imm : DWord) (e : Reg) (s : State) : Out := .next (intMad s c m d a (.imm imm) e)
/-- `IMIN` (R327). -/
def execImin (c : Ctl) (m : IMod) (d a b : Reg) (s : State) : Out := .next (intBin s c m d a (.reg b) min fun _ _ => none)
/-- `IMIN` immediate (R327). -/
def execIminImmediate (c : Ctl) (m : IMod) (d a : Reg) (imm : DWord) (s : State) : Out :=
  .next (intBin s c m d a (.imm imm) min fun _ _ => none)
/-- `IMAX` (R327). -/
def execImax (c : Ctl) (m : IMod) (d a b : Reg) (s : State) : Out := .next (intBin s c m d a (.reg b) max fun _ _ => none)
/-- `IMAX` immediate (R327). -/
def execImaxImmediate (c : Ctl) (m : IMod) (d a : Reg) (imm : DWord) (s : State) : Out :=
  .next (intBin s c m d a (.imm imm) max fun _ _ => none)
/-- `IABS` (R327). -/
def execIabs (c : Ctl) (m : IMod) (d a : Reg) (s : State) : Out := .next (intUn s c m d a (fun x => (x.natAbs : Int)) fun _ => none)
/-- `INEG` (R327). -/
def execIneg (c : Ctl) (m : IMod) (d a : Reg) (s : State) : Out := .next (intUn s c m d a (fun x => -x) affNeg)

/-- `AND` (R280). -/
def execAnd (c : Ctl) (w : Bool) (d a b : Reg) (s : State) : Out := .next (bitBin s c w d a (.reg b) (· &&& ·) (· &&& ·))
/-- `AND` immediate (R280). -/
def execAndImmediate (c : Ctl) (w : Bool) (d a : Reg) (imm : DWord) (s : State) : Out :=
  .next (bitBin s c w d a (.imm imm) (· &&& ·) (· &&& ·))
/-- `OR` (R342). -/
def execOr (c : Ctl) (w : Bool) (d a b : Reg) (s : State) : Out := .next (bitBin s c w d a (.reg b) (· ||| ·) (· ||| ·))
/-- `OR` immediate (R342). -/
def execOrImmediate (c : Ctl) (w : Bool) (d a : Reg) (imm : DWord) (s : State) : Out :=
  .next (bitBin s c w d a (.imm imm) (· ||| ·) (· ||| ·))
/-- `XOR` (R342). -/
def execXor (c : Ctl) (w : Bool) (d a b : Reg) (s : State) : Out := .next (bitBin s c w d a (.reg b) (· ^^^ ·) (· ^^^ ·))
/-- `XOR` immediate (R342). -/
def execXorImmediate (c : Ctl) (w : Bool) (d a : Reg) (imm : DWord) (s : State) : Out :=
  .next (bitBin s c w d a (.imm imm) (· ^^^ ·) (· ^^^ ·))
/-- `NOT` (R342). -/
def execNot (c : Ctl) (w : Bool) (d a : Reg) (s : State) : Out := .next (bitUn s c w d a (~~~ ·) (~~~ ·))

/-- `SHL` (R354). -/
def execShl (c : Ctl) (w : Bool) (d a b : Reg) (s : State) : Out := .next (shiftOp s c w d a (.reg b) shlN true)
/-- `SHL` immediate (R354). -/
def execShlImmediate (c : Ctl) (w : Bool) (d a : Reg) (imm : DWord) (s : State) : Out := .next (shiftOp s c w d a (.imm imm) shlN true)
/-- `SHR` (R354). -/
def execShr (c : Ctl) (w : Bool) (d a b : Reg) (s : State) : Out := .next (shiftOp s c w d a (.reg b) shrN false)
/-- `SHR` immediate (R354). -/
def execShrImmediate (c : Ctl) (w : Bool) (d a : Reg) (imm : DWord) (s : State) : Out := .next (shiftOp s c w d a (.imm imm) shrN false)
/-- `SAR` (R354). -/
def execSar (c : Ctl) (w : Bool) (d a b : Reg) (s : State) : Out := .next (shiftOp s c w d a (.reg b) sarN false)
/-- `SAR` immediate (R354). -/
def execSarImmediate (c : Ctl) (w : Bool) (d a : Reg) (imm : DWord) (s : State) : Out := .next (shiftOp s c w d a (.imm imm) sarN false)

/-- `POPC` (R344). -/
def execPopc (c : Ctl) (w : Bool) (d a : Reg) (s : State) : Out :=
  .next (bitUn s c w d a (fun x => BitVec.ofNat 32 (popCount 32 x.toNat)) fun x => BitVec.ofNat 64 (popCount 64 x.toNat))
/-- `CLZ` (R312). -/
def execClz (c : Ctl) (w : Bool) (d a : Reg) (s : State) : Out :=
  .next (bitUn s c w d a (fun x => BitVec.ofNat 32 (leadingZeros 32 x.toNat)) fun x => BitVec.ofNat 64 (leadingZeros 64 x.toNat))
/-- `BREV` (R303). -/
def execBrev (c : Ctl) (w : Bool) (d a : Reg) (s : State) : Out :=
  .next (bitUn s c w d a (fun x => BitVec.ofNat 32 (reverseBits 32 x.toNat)) fun x => BitVec.ofNat 64 (reverseBits 64 x.toNat))
/-- `BFE` (R299). -/
def execBfe (c : Ctl) (w un : Bool) (d a : Reg) (pos wid1 : BitVec 6) (s : State) : Out :=
  .next (bitUn s c w d a (fun x => BitVec.ofNat 32 (bfeVal un 32 x.toNat pos.toNat (wid1.toNat + 1)))
    fun x => BitVec.ofNat 64 (bfeVal un 64 x.toNat pos.toNat (wid1.toNat + 1)))
/-- `BFI` (R299): the field from vA into the base vC. -/
def execBfi (c : Ctl) (w : Bool) (d a e : Reg) (pos wid1 : BitVec 6) (s : State) : Out :=
  .next (bitBin s c w d a (.reg e) (fun x y => BitVec.ofNat 32 (bfiVal x.toNat y.toNat pos.toNat (wid1.toNat + 1)))
    fun x y => BitVec.ofNat 64 (bfiVal x.toNat y.toNat pos.toNat (wid1.toNat + 1)))

/-- `ICMP` (R329): the predicate bits. -/
def icmpOp (s : State) (c : Ctl) (w un : Bool) (cond : BitVec 3) (p : PReg) (a : Reg) (b : Src) : State :=
  if w then s.commit c (pairRegs a ++ b.pairNames) []
    [(p, maskOf fun l => intCond cond (readInt un 64 (s.rdPair a l).toNat) (readInt un 64 (b.pair s l).toNat))] .zero
  else s.commit c ([a] ++ b.names) []
    [(p, maskOf fun l => intCond cond (readInt un 32 (s.rd a l).toNat) (readInt un 32 ((b.val s).lane l).toNat))] .zero
/-- `ICMP` (R329). -/
def execIcmp (c : Ctl) (w un : Bool) (cond : BitVec 3) (p : PReg) (a b : Reg) (s : State) : Out := .next (icmpOp s c w un cond p a (.reg b))
/-- `ICMP` immediate (R329). -/
def execIcmpImmediate (c : Ctl) (w un : Bool) (cond : BitVec 3) (p : PReg) (a : Reg) (imm : DWord) (s : State) : Out :=
  .next (icmpOp s c w un cond p a (.imm imm))

/-- `SEL` (R355): U only for U data sources and p7. -/
def selOp (s : State) (c : Ctl) (d a : Reg) (b : Src) (p : PReg) : State :=
  let va := s.reg a
  let vb := b.val s
  let v := if p = 7 ∧ va.isU ∧ vb.isU then va
    else .g (lanesOf fun l => if (s.cur.pred p).getLsbD l then va.lane l else vb.lane l)
  s.commit c ([d, a] ++ b.names) [⟨d, v⟩] [] .zero
/-- `SEL` (R355). -/
def execSel (c : Ctl) (d a b : Reg) (p : PReg) (s : State) : Out := .next (selOp s c d a (.reg b) p)
/-- `SEL` immediate (R355). -/
def execSelImmediate (c : Ctl) (d a : Reg) (imm : Word) (p : PReg) (s : State) : Out := .next (selOp s c d a (.imm (imm.setWidth 64)) p)

/-- `LEA` (R339). -/
def leaOp (s : State) (c : Ctl) (w un : Bool) (d a : Reg) (b : Src) (shift : BitVec 5) : State :=
  if w then
    let idx (l : Nat) : DWord := match b with
      | .reg r => if un then (s.rd r l).setWidth 64 else sext64 (s.rd r l)
      | .imm x => x
    s.commit c (pairRegs d ++ pairRegs a ++ b.names)
      (pairResult d (s.pairU a && (b.val s).isU) fun l => s.rdPair a l + (idx l <<< shift.toNat)) [] .zero
  else s.commit c ([d, a] ++ b.names) [⟨d, shape2 (fun x y => x + (y <<< shift.toNat)) (s.reg a) (b.val s)⟩] [] .zero
/-- `LEA` (R339). -/
def execLea (c : Ctl) (w un : Bool) (d a b : Reg) (shift : BitVec 5) (s : State) : Out := .next (leaOp s c w un d a (.reg b) shift)
/-- `LEA` immediate (R339). -/
def execLeaImmediate (c : Ctl) (w : Bool) (d a : Reg) (imm : DWord) (shift : BitVec 5) (s : State) : Out :=
  .next (leaOp s c w false d a (.imm imm) shift)

end Sys2Proof.Machine
end

