-- ==== Sys2Proof/Machine/Float.lean ====
section
/-! DEFINITION. The float family: opcodes 0x20 to 0x35 (R79 to R87, R313, R314, R317 to R319, R322). -/

namespace Sys2Proof.Machine

/-- A 32-bit result with its counts from a code and its counts. -/
def asWord (r : Nat × Counts) : Word × Counts := (BitVec.ofNat 32 r.1, r.2)

/-- A two-source instruction on the FMA pipe (R317): result shape of R59, counts of the active lanes. -/
def floatBin (s : State) (c : Ctl) (d a : Reg) (b : Src) (f : Word → Word → Word × Counts) : State :=
  let va := s.reg a
  let vb := b.val s
  s.commit c ([d, a] ++ b.names) [⟨d, shape2 (fun x y => (f x y).1) va vb⟩] []
    (laneCounts (s.act c) fun l => (f (va.lane l) (vb.lane l)).2)

/-- A three-source instruction (`FFMA`, `HFMA2`). -/
def floatTri (s : State) (c : Ctl) (d a : Reg) (b : Src) (e : Reg) (f : Word → Word → Word → Word × Counts) : State :=
  let va := s.reg a
  let vb := b.val s
  let ve := s.reg e
  s.commit c ([d, a, e] ++ b.names) [⟨d, shape3 (fun x y z => (f x y z).1) va vb ve⟩] []
    (laneCounts (s.act c) fun l => (f (va.lane l) (vb.lane l) (ve.lane l)).2)

/-- A one-source instruction; `special` for the special-function pipe, whose result is always G (R59). -/
def floatUn (s : State) (c : Ctl) (special : Bool) (d a : Reg) (f : Word → Word × Counts) : State :=
  let va := s.reg a
  let v := if special then .g (lanesOf fun l => (f (va.lane l)).1) else shape1 (fun x => (f x).1) va
  s.commit c [d, a] [⟨d, v⟩] [] (laneCounts (s.act c) fun l => (f (va.lane l)).2)

/-- An element operation on both BF16 halves of packed words (R68, R322). -/
def onHalves2 (f : Nat → Nat → Nat × Counts) (x y : Word) : Word × Counts :=
  let lo := f (bitsAt x.toNat 0 16) (bitsAt y.toNat 0 16)
  let hi := f (bitsAt x.toNat 16 16) (bitsAt y.toNat 16 16)
  (BitVec.ofNat 32 (hi.1 * 65536 + lo.1), lo.2.add hi.2)
/-- The same with three sources. -/
def onHalves3 (f : Nat → Nat → Nat → Nat × Counts) (x y z : Word) : Word × Counts :=
  let lo := f (bitsAt x.toNat 0 16) (bitsAt y.toNat 0 16) (bitsAt z.toNat 0 16)
  let hi := f (bitsAt x.toNat 16 16) (bitsAt y.toNat 16 16) (bitsAt z.toNat 16 16)
  (BitVec.ofNat 32 (hi.1 * 65536 + lo.1), lo.2.add hi.2)

/-- An FP32 literal as a source. -/
def fimm (x : Word) : Src := .imm (x.setWidth 64)

/-- a + b in FP32 (R79). -/
def fAdd (m : FMod) (x y : Word) : Word × Counts := asWord (fp32.fadd m.rnd m.sat m.fzi m.fzo x.toNat y.toNat)
/-- a - b in FP32 (R79). -/
def fSub (m : FMod) (x y : Word) : Word × Counts := asWord (fp32.fsub m.rnd m.sat m.fzi m.fzo x.toNat y.toNat)
/-- a * b in FP32 (R79). -/
def fMul (m : FMod) (x y : Word) : Word × Counts := asWord (fp32.fmul m.rnd m.sat m.fzi m.fzo x.toNat y.toNat)
/-- a * b + c in FP32 (R79). -/
def fFma (m : FMod) (x y z : Word) : Word × Counts := asWord (fp32.ffma m.rnd m.sat m.fzi m.fzo x.toNat y.toNat z.toNat)
/-- Minimum or maximum in FP32 (R80). -/
def fMinMax (big : Bool) (m : FMod) (x y : Word) : Word × Counts := asWord (fp32.fminmax big m.fzi m.fzo x.toNat y.toNat)

/-- `FADD` (R79, R317). -/
def execFadd (c : Ctl) (m : FMod) (d a b : Reg) (s : State) : Out := .next (floatBin s c d a (.reg b) (fAdd m))
/-- `FADD` immediate. -/
def execFaddImmediate (c : Ctl) (m : FMod) (d a : Reg) (imm : Word) (s : State) : Out := .next (floatBin s c d a (fimm imm) (fAdd m))
/-- `FSUB` (R79, R317). -/
def execFsub (c : Ctl) (m : FMod) (d a b : Reg) (s : State) : Out := .next (floatBin s c d a (.reg b) (fSub m))
/-- `FSUB` immediate. -/
def execFsubImmediate (c : Ctl) (m : FMod) (d a : Reg) (imm : Word) (s : State) : Out := .next (floatBin s c d a (fimm imm) (fSub m))
/-- `FMUL` (R79, R317). -/
def execFmul (c : Ctl) (m : FMod) (d a b : Reg) (s : State) : Out := .next (floatBin s c d a (.reg b) (fMul m))
/-- `FMUL` immediate. -/
def execFmulImmediate (c : Ctl) (m : FMod) (d a : Reg) (imm : Word) (s : State) : Out := .next (floatBin s c d a (fimm imm) (fMul m))
/-- `FFMA` (R79, R317). -/
def execFfma (c : Ctl) (m : FMod) (d a b e : Reg) (s : State) : Out := .next (floatTri s c d a (.reg b) e (fFma m))
/-- `FFMA` immediate. -/
def execFfmaImmediate (c : Ctl) (m : FMod) (d a : Reg) (imm : Word) (e : Reg) (s : State) : Out :=
  .next (floatTri s c d a (fimm imm) e (fFma m))
/-- `FMIN` (R80, R317). -/
def execFmin (c : Ctl) (m : FMod) (d a b : Reg) (s : State) : Out := .next (floatBin s c d a (.reg b) (fMinMax false m))
/-- `FMIN` immediate. -/
def execFminImmediate (c : Ctl) (m : FMod) (d a : Reg) (imm : Word) (s : State) : Out := .next (floatBin s c d a (fimm imm) (fMinMax false m))
/-- `FMAX` (R80, R317). -/
def execFmax (c : Ctl) (m : FMod) (d a b : Reg) (s : State) : Out := .next (floatBin s c d a (.reg b) (fMinMax true m))
/-- `FMAX` immediate. -/
def execFmaxImmediate (c : Ctl) (m : FMod) (d a : Reg) (imm : Word) (s : State) : Out := .next (floatBin s c d a (fimm imm) (fMinMax true m))

/-- `FCMP` (R318). -/
def fcmpOp (s : State) (c : Ctl) (fzi : Bool) (cond : BitVec 3) (p : PReg) (a : Reg) (b : Src) : State :=
  let r (l : Nat) := fcmpBit fzi cond (s.rd a l).toNat ((b.val s).lane l).toNat
  s.commit c ([a] ++ b.names) [] [(p, maskOf fun l => (r l).1)] (laneCounts (s.act c) fun l => (r l).2)
/-- `FCMP` (R318). -/
def execFcmp (c : Ctl) (fzi : Bool) (cond : BitVec 3) (p : PReg) (a b : Reg) (s : State) : Out := .next (fcmpOp s c fzi cond p a (.reg b))
/-- `FCMP` immediate. -/
def execFcmpImmediate (c : Ctl) (fzi : Bool) (cond : BitVec 3) (p : PReg) (a : Reg) (imm : Word) (s : State) : Out :=
  .next (fcmpOp s c fzi cond p a (fimm imm))
/-- `FCLASS` (R319): the raw bits, no count. -/
def execFclass (c : Ctl) (p : PReg) (a : Reg) (mask : BitVec 9) (s : State) : Out :=
  .next (s.commit c [a] [] [(p, maskOf fun l => mask.getLsbD (fclassOf (s.rd a l).toNat))] .zero)

/-- A special function by its number (R81). -/
def fSpecial (fn : Nat) (m : FMod) (x : Word) : Word × Counts := asWord (specialBits fn m.fzi m.fzo x.toNat)
/-- `FRCP` (R81). -/
def execFrcp (c : Ctl) (m : FMod) (d a : Reg) (s : State) : Out := .next (floatUn s c true d a (fSpecial 0 m))
/-- `FRSQ` (R81). -/
def execFrsq (c : Ctl) (m : FMod) (d a : Reg) (s : State) : Out := .next (floatUn s c true d a (fSpecial 1 m))
/-- `FSQRT` (R81): correctly rounded. -/
def execFsqrt (c : Ctl) (m : FMod) (d a : Reg) (s : State) : Out :=
  .next (floatUn s c true d a fun x => asWord (sqrtBits m.rnd m.fzi m.fzo x.toNat))
/-- `FEX2` (R81). -/
def execFex2 (c : Ctl) (m : FMod) (d a : Reg) (s : State) : Out := .next (floatUn s c true d a (fSpecial 2 m))
/-- `FLG2` (R81). -/
def execFlg2 (c : Ctl) (m : FMod) (d a : Reg) (s : State) : Out := .next (floatUn s c true d a (fSpecial 3 m))
/-- `FSIN` (R81). -/
def execFsin (c : Ctl) (m : FMod) (d a : Reg) (s : State) : Out := .next (floatUn s c true d a (fSpecial 4 m))
/-- `FCOS` (R81). -/
def execFcos (c : Ctl) (m : FMod) (d a : Reg) (s : State) : Out := .next (floatUn s c true d a (fSpecial 5 m))
/-- `FRND` (R82). -/
def execFrnd (c : Ctl) (m : FMod) (d a : Reg) (s : State) : Out :=
  .next (floatUn s c false d a fun x => asWord (frndBits m.rnd m.fzi x.toNat))

/-- a + b per BF16 half (R322). -/
def hAdd (m : FMod) : Word → Word → Word × Counts := onHalves2 (bf16.fadd m.rnd m.sat m.fzi m.fzo)
/-- a * b per BF16 half (R322). -/
def hMul (m : FMod) : Word → Word → Word × Counts := onHalves2 (bf16.fmul m.rnd m.sat m.fzi m.fzo)
/-- a * b + c per BF16 half (R322). -/
def hFma (m : FMod) : Word → Word → Word → Word × Counts := onHalves3 (bf16.ffma m.rnd m.sat m.fzi m.fzo)
/-- Minimum or maximum per BF16 half (R80, R322). -/
def hMinMax (big : Bool) (m : FMod) : Word → Word → Word × Counts := onHalves2 (bf16.fminmax big m.fzi m.fzo)
/-- `HADD2` (R322). -/
def execHadd2 (c : Ctl) (m : FMod) (d a b : Reg) (s : State) : Out := .next (floatBin s c d a (.reg b) (hAdd m))
/-- `HADD2` immediate. -/
def execHadd2Immediate (c : Ctl) (m : FMod) (d a : Reg) (imm : Word) (s : State) : Out := .next (floatBin s c d a (fimm imm) (hAdd m))
/-- `HMUL2` (R322). -/
def execHmul2 (c : Ctl) (m : FMod) (d a b : Reg) (s : State) : Out := .next (floatBin s c d a (.reg b) (hMul m))
/-- `HMUL2` immediate. -/
def execHmul2Immediate (c : Ctl) (m : FMod) (d a : Reg) (imm : Word) (s : State) : Out := .next (floatBin s c d a (fimm imm) (hMul m))
/-- `HFMA2` (R322). -/
def execHfma2 (c : Ctl) (m : FMod) (d a b e : Reg) (s : State) : Out := .next (floatTri s c d a (.reg b) e (hFma m))
/-- `HFMA2` immediate. -/
def execHfma2Immediate (c : Ctl) (m : FMod) (d a : Reg) (imm : Word) (e : Reg) (s : State) : Out :=
  .next (floatTri s c d a (fimm imm) e (hFma m))
/-- `HMIN2` (R322). -/
def execHmin2 (c : Ctl) (m : FMod) (d a b : Reg) (s : State) : Out := .next (floatBin s c d a (.reg b) (hMinMax false m))
/-- `HMIN2` immediate. -/
def execHmin2Immediate (c : Ctl) (m : FMod) (d a : Reg) (imm : Word) (s : State) : Out := .next (floatBin s c d a (fimm imm) (hMinMax false m))
/-- `HMAX2` (R322). -/
def execHmax2 (c : Ctl) (m : FMod) (d a b : Reg) (s : State) : Out := .next (floatBin s c d a (.reg b) (hMinMax true m))
/-- `HMAX2` immediate. -/
def execHmax2Immediate (c : Ctl) (m : FMod) (d a : Reg) (imm : Word) (s : State) : Out := .next (floatBin s c d a (fimm imm) (hMinMax true m))

/-- `CVT` (R313, R314). -/
def execCvt (c : Ctl) (m : FMod) (src dst : BitVec 4) (d a : Reg) (s : State) : Out :=
  .next (floatUn s c false d a fun x => asWord (cvtBits src.toNat dst.toNat m.rnd m.sat m.fzi m.fzo x.toNat))

end Sys2Proof.Machine
end

