-- ==== Sys2Proof/WellFormed.lean ====
section
/-! DEFINITION. Which instruction terms the encoding admits (R245 to R252 and the encoding table of each entry).
The limits that depend on the launch (REGS, BARS) are checked when the instruction issues. -/

namespace Sys2Proof

/-- The extension word is present (R241). -/
def Ctl.hasExt (c : Ctl) : Bool := c.len.getLsbD 0
/-- The literal word is present (R241). -/
def Ctl.hasLit (c : Ctl) : Bool := c.len.getLsbD 1

namespace WellFormed

/-- LEN is accepted, and without an extension word TID and YH read as zero (R244, R246). -/
def lenOk (c : Ctl) (ls : List Nat) : Bool :=
  ls.contains c.len.toNat && (c.hasExt || (c.tid == 0 && !c.yh))
/-- Without an extension word the fields it would carry are zero (R244). -/
def ext (c : Ctl) (p : Bool) : Bool := c.hasExt || p
def even (r : Reg) : Bool := r.toNat % 2 == 0
def quad (r : Reg) : Bool := r.toNat % 4 == 0
def pairs (w : Bool) (rs : List Reg) : Bool := !w || rs.all even
def block (r : Reg) (n : Nat) : Bool := decide (r.toNat + n ≤ 64)
def imm32 (w : Bool) (imm : DWord) : Bool := w || decide (imm.toNat < 2 ^ 32)

def regLens : List Nat := [0, 1]
def immLens : List Nat := [2, 3]
def allLens : List Nat := [0, 1, 2, 3]

def imod0 (m : IMod) : Bool := !m.w && !m.un && !m.sat
def fmod0 (m : FMod) : Bool := m.rnd == 0 && !m.sat && !m.fzi && !m.fzo

/-- SCOPE is at most 5, and an order other than relaxed names a scope (R131). -/
def scopeOk (ord : BitVec 2) (scope : BitVec 3) : Bool :=
  decide (scope.toNat ≤ 5) && (ord == 0 || scope != 0)
def mmod0 (m : MMod) : Bool := m.sz == 0 && m.ord == 0 && m.scope == 0 && m.ch == 0 && m.off == 0

/-- Alignment of a data block of size code `sz` (R249). -/
def sizedReg (sz : BitVec 3) (r : Reg) : Bool :=
  if sz == 5 then even r else if sz == 6 then quad r else true
def loadSz (sz : BitVec 3) : Bool := sz != 7
def storeSz (sz : BitVec 3) : Bool := [0, 1, 3, 5, 6].contains sz.toNat
def loadOk (m : MMod) (ch : Bool) : Bool :=
  loadSz m.sz && (m.ord == 0 || m.ord == 1) && scopeOk m.ord m.scope && (ch || m.ch == 0)
def storeOk (m : MMod) (ch : Bool) : Bool :=
  storeSz m.sz && (m.ord == 0 || m.ord == 2) && scopeOk m.ord m.scope && (ch || m.ch == 0)
/-- The size and data block of an atomic (R282). -/
def atomOk (m : MMod) (op : BitVec 3) (d b : Reg) (ch : Bool) : Bool :=
  (m.sz == 0 || (m.sz == 5 && op != 1)) && scopeOk m.ord m.scope && (ch || m.ch == 0) &&
  (m.sz == 0 || even d) &&
  (if op == 7 then (if m.sz == 0 then even b else quad b) else (m.sz == 0 || even b))
/-- Order, scope and blocks of a copy (R157). -/
def copyOk (m : CMod) (a b e : Reg) : Bool :=
  (m.ord == 0 || m.ord == 2) && scopeOk m.ord m.scope && even a && (!m.wide || even e) &&
  decide (1 ≤ m.nc.toNat) && decide (m.nc.toNat ≤ 5) && block b m.nc.toNat

/-- The special-register numbers of R358. -/
def sregOk (n : BitVec 8) : Bool :=
  decide (n.toNat ≤ 9) || (decide (0x10 ≤ n.toNat) && decide (n.toNat ≤ 0x15)) ||
  (decide (0x20 ≤ n.toNat) && decide (n.toNat ≤ 0x3F))
/-- The 64-bit special registers of R358. -/
def sregWide (n : BitVec 8) : Bool :=
  n == 2 || n == 6 || n == 8 || n == 9 || (decide (0x10 ≤ n.toNat) && decide (n.toNat ≤ 0x15))

/-- Registers of an `AXM` activation block (R101). -/
def axmARegs (m : AMod) : Nat :=
  (m.m1.toNat + 1) * (if m.bf16 then 1 else (m.k1.toNat + 128) / 128)
/-- Registers of an `AXM` result block (R101). -/
def axmDRegs (m : AMod) : Nat := (m.m1.toNat + 2) / 2

end WellFormed

open WellFormed

/-- An instruction term that the encoding admits. Events have no encoding; their terms are never decoded. -/
def Instr.wellFormed : Instr → Bool
  | .iadd c m d a b | .isub c m d a b | .imul c m d a b =>
      lenOk c regLens && ext c (imod0 m) && pairs m.w [d, a, b]
  | .imulh c m d a b | .imin c m d a b | .imax c m d a b =>
      lenOk c regLens && ext c (imod0 m) && !m.sat && pairs m.w [d, a, b]
  | .iaddImmediate c m d a imm | .isubImmediate c m d a imm | .imulImmediate c m d a imm =>
      lenOk c immLens && ext c (imod0 m) && pairs m.w [d, a] && imm32 m.w imm
  | .imulhImmediate c m d a imm | .iminImmediate c m d a imm | .imaxImmediate c m d a imm =>
      lenOk c immLens && ext c (imod0 m) && !m.sat && pairs m.w [d, a] && imm32 m.w imm
  | .imad c m d a b e => lenOk c [1] && pairs m.w [d, a, b, e]
  | .imadImmediate c m d a imm e => lenOk c [3] && pairs m.w [d, a, e] && imm32 m.w imm
  | .iabs c m d a | .ineg c m d a => lenOk c regLens && ext c (imod0 m) && !m.un && pairs m.w [d, a]
  | .and c w d a b | .or c w d a b | .xor c w d a b => lenOk c regLens && ext c (!w) && pairs w [d, a, b]
  | .andImmediate c w d a imm | .orImmediate c w d a imm | .xorImmediate c w d a imm
  | .shlImmediate c w d a imm | .shrImmediate c w d a imm | .sarImmediate c w d a imm =>
      lenOk c immLens && ext c (!w) && pairs w [d, a] && imm32 w imm
  | .not c w d a | .popc c w d a | .clz c w d a | .brev c w d a | .mov c w d a =>
      lenOk c regLens && ext c (!w) && pairs w [d, a]
  | .shl c w d a _ | .shr c w d a _ | .sar c w d a _ => lenOk c regLens && ext c (!w) && pairs w [d, a]
  | .bfe c w _ d a pos wid1 =>
      lenOk c [1] && pairs w [d, a] && decide (pos.toNat + wid1.toNat + 1 ≤ if w then 64 else 32)
  | .bfi c w d a e pos wid1 =>
      lenOk c [1] && pairs w [d, a, e] && decide (pos.toNat + wid1.toNat + 1 ≤ if w then 64 else 32)
  | .icmp c w un cond _ a b =>
      lenOk c regLens && ext c (!w && !un && cond == 0) && decide (cond.toNat < 6) && pairs w [a, b]
  | .icmpImmediate c w un cond _ a imm =>
      lenOk c immLens && ext c (!w && !un && cond == 0) && decide (cond.toNat < 6) && pairs w [a] && imm32 w imm
  | .sel c _ _ _ _ => lenOk c [1]
  | .selImmediate c _ _ _ _ => lenOk c [3]
  | .lea c w un d a _ sh =>
      lenOk c regLens && ext c (!w && !un && sh == 0) && (w || !un) && pairs w [d, a]
  | .leaImmediate c w d a imm sh => lenOk c immLens && ext c (!w && sh == 0) && pairs w [d, a] && imm32 w imm
  | .fadd c m _ _ _ | .fsub c m _ _ _ | .fmul c m _ _ _ | .hadd2 c m _ _ _ | .hmul2 c m _ _ _ =>
      lenOk c regLens && ext c (fmod0 m)
  | .faddImmediate c m _ _ _ | .fsubImmediate c m _ _ _ | .fmulImmediate c m _ _ _
  | .hadd2Immediate c m _ _ _ | .hmul2Immediate c m _ _ _ => lenOk c immLens && ext c (fmod0 m)
  | .ffma c _ _ _ _ _ | .hfma2 c _ _ _ _ _ => lenOk c [1]
  | .ffmaImmediate c _ _ _ _ _ | .hfma2Immediate c _ _ _ _ _ => lenOk c [3]
  | .fmin c m _ _ _ | .fmax c m _ _ _ | .hmin2 c m _ _ _ | .hmax2 c m _ _ _ =>
      lenOk c regLens && ext c (fmod0 m) && m.rnd == 0 && !m.sat
  | .fminImmediate c m _ _ _ | .fmaxImmediate c m _ _ _ | .hmin2Immediate c m _ _ _ | .hmax2Immediate c m _ _ _ =>
      lenOk c immLens && ext c (fmod0 m) && m.rnd == 0 && !m.sat
  | .fcmp c fzi cond _ _ _ => lenOk c regLens && ext c (!fzi && cond == 0)
  | .fcmpImmediate c fzi cond _ _ _ => lenOk c immLens && ext c (!fzi && cond == 0)
  | .fclass c _ _ _ => lenOk c [1]
  | .frcp c m _ _ | .frsq c m _ _ | .fsqrt c m _ _ | .fex2 c m _ _ | .flg2 c m _ _ | .fsin c m _ _ | .fcos c m _ _ =>
      lenOk c regLens && ext c (fmod0 m) && !m.sat
  | .frnd c m _ _ => lenOk c regLens && ext c (fmod0 m) && !m.sat && !m.fzo
  | .cvt c m src dst _ _ =>
      lenOk c regLens && ext c (fmod0 m && src == 0 && dst == 0) && decide (src.toNat ≤ 10) &&
      decide (dst.toNat ≤ 10) && (m.rnd == 0 || !(dst == 6 || dst == 7))
  | .movi c w d imm => lenOk c immLens && ext c (!w) && pairs w [d] && imm32 w imm
  | .lanex c seg mode _ _ _ => lenOk c regLens && ext c (seg == 0 && mode == 0) && seg != 7
  | .lanexImmediate c seg mode _ _ _ => lenOk c immLens && ext c (seg == 0 && mode == 0) && seg != 7
  | .vote c form d _ => lenOk c regLens && ext c (form == 0) && (if form == 3 then quad d else decide (d.toNat < 8))
  | .pset c opc _ x y =>
      lenOk c regLens && ext c (opc == 0) && decide (opc.toNat ≤ 4) &&
      (if opc == 4 then y == 0 else decide (x.toNat < 8) && decide (y.toNat < 8))
  | .pcnt c pfx _ _ => lenOk c regLens && ext c (!pfx)
  | .unif c _ _ | .shape c _ _ => lenOk c regLens
  | .ld c m d a => lenOk c regLens && ext c (mmod0 m) && loadOk m true && sizedReg m.sz d && even a
  | .lds c m d _ => lenOk c regLens && ext c (mmod0 m) && loadOk m false && sizedReg m.sz d
  | .ldx c m d _ _ => lenOk c [1] && loadOk m false && sizedReg m.sz d
  | .st c m a b => lenOk c regLens && ext c (mmod0 m) && storeOk m true && sizedReg m.sz b && even a
  | .sts c m _ b => lenOk c regLens && ext c (mmod0 m) && storeOk m false && sizedReg m.sz b
  | .stx c m _ b _ => lenOk c [1] && storeOk m false && sizedReg m.sz b
  | .atom c m op d a b => lenOk c regLens && ext c (mmod0 m && op == 0) && atomOk m op d b true && even a
  | .atoms c m op d _ b => lenOk c regLens && ext c (mmod0 m && op == 0) && atomOk m op d b false
  | .atomsCluster c m op d _ b k => lenOk c [1] && atomOk m op d b false && k != 0
  | .red c m op a b =>
      lenOk c regLens && ext c (mmod0 m && op == 0) && decide (op.toNat ≤ 5) && (m.ord == 0 || m.ord == 2) &&
      atomOk m op 0 b true && even a
  | .fence c ord scope => lenOk c [1] && ord != 0 && scope != 0 && decide (scope.toNat ≤ 5)
  | .cctlL1inv c a off => lenOk c regLens && ext c (off == 0) && even a
  | .cctlWb c a _ => lenOk c [1] && even a
  | .cctlIcore c | .cctlIdie c | .cctlIdev c => lenOk c [1]
  | .pref c l2 a off => lenOk c regLens && ext c (!l2 && off == 0) && even a
  | .bra c off | .call c off => lenOk c regLens && ext c (off == 0) && off.toNat % 4 == 0
  | .brx c a | .callx c a => lenOk c regLens && even a
  | .ret c | .exit c | .yield c | .nop c | .brk c | .stat c | .trapret c => lenOk c regLens
  | .jenter c _ | .jquit c _ | .jwait c _ => lenOk c regLens
  | .jenterF c _ => lenOk c [1]
  | .jget c _ _ | .jput c _ _ => lenOk c regLens
  | .barSync c b => lenOk c regLens && ext c (b == 0)
  | .barArrive c _ | .barWait c _ => lenOk c [1]
  | .trap c code => lenOk c regLens && ext c (code == 0) && code != 255
  | .bcopy c m _ a b e => lenOk c [1] && copyOk m a b e
  | .bcopyr c m rop _ a b e => lenOk c [1] && copyOk m a b e && decide (rop.toNat ≤ 4)
  | .xred c m _ a =>
      lenOk c [1] && (m.ord == 0 || m.ord == 2) && scopeOk m.ord m.scope && even a && !m.wide && m.nc == 0
  | .qfence c _ _ _ _ => lenOk c [1]
  | .qinit c _ _ log2n _ => lenOk c [2] && decide (1 ≤ log2n.toNat) && decide (log2n.toNat ≤ 12)
  | .qpush c d8 p _ b => lenOk c immLens && ext c (!d8 && p == 0) && (!d8 || even b)
  | .qpop c d8 p _ d => lenOk c immLens && ext c (!d8 && p == 0) && (!d8 || even d)
  | .amode c rg _ a mask => lenOk c [1] && (if rg then mask == 0 else a == 0)
  | .acfg c _ _ _ => lenOk c [1]
  | .axm c m d a => lenOk c [1] && m.rep != 3 && block d (axmDRegs m) && block a (axmARegs m)
  | .aqry c _ _ => lenOk c regLens
  | .aqryImmediate c _ _ => lenOk c [1]
  | .invoke c d a => lenOk c regLens && even d && even a
  | .invokeCore c d a _ => lenOk c [1] && even d && even a
  | .invokePark c d a e => lenOk c [1] && even d && even a && even e
  | .chain c d a b => lenOk c regLens && even d && even a && even b
  | .await c _ d b | .awaitT c _ d b => lenOk c [1] && even d && even b
  | .hpoll c _ b => lenOk c [1] && even b
  | .hset c a => lenOk c regLens && even a
  | .hbreak c code => lenOk c regLens && ext c (code == 0)
  | .hdrop c b => lenOk c regLens && even b
  | .bjob c _ a => lenOk c regLens && even a
  | .sread c d n => lenOk c regLens && ext c (n == 0) && sregOk n && (!sregWide n || even d)
  | .swrite c _ => lenOk c [1]
  | .time c d => lenOk c regLens && even d
  | .timeCc c d => lenOk c [1] && even d
  | .sleep c n => lenOk c regLens && ext c (n == 0)
  | .sleepRegister c _ => lenOk c [1]
  | .sleepAbs c a => lenOk c [1] && even a
  | .statOne c _ => lenOk c [1]
  | .splitAged .. | .instructionFetch .. | .slotsFreedInvokeResume .. | .sleepWake .. | .registerWriteReturn ..
  | .clusterPlace .. | .workgroupRelease .. | .launchComplete .. | .amodeAccept .. | .arrayEnterCompute ..
  | .arrayEnterStorage .. | .arrayAccessAccept .. | .acfgAccept .. | .axmAccept .. | .axmStart ..
  | .axmResultWrite .. | .loadServed .. | .leaseExpire .. | .storeNoticeArrive .. | .recall .. | .l2Eviction ..
  | .atomicPerform .. | .releaseSend .. | .acquireComplete .. | .fenceComplete .. | .accessChecked ..
  | .accessRefused .. | .faultRollback .. | .pageWalkComplete .. | .tlbicGo .. | .tlbInvalidationDone
  | .copyEntryAccept .. | .copyEntryBegin .. | .copyEntryComplete .. | .copyTranslationFault .. | .qctlAbort ..
  | .qctlResume .. | .qctlBind .. | .reductionMessageArrive .. | .floorNoticeArrive .. | .reductionAckArrive ..
  | .reductionResend .. | .qfenceMarkersLeave .. | .xredPhase1Complete .. | .xredEntryComplete ..
  | .peerWriteReceive .. | .peerAcknowledge .. | .linkRetryExhausted .. | .parkArrive .. | .taskDispatch ..
  | .handleResolve .. | .successorDecrement .. | .decrementAcknowledge .. | .handleMessageArrive ..
  | .chainListRun .. | .awaitWake .. | .bankCardAccept .. | .bankCardClean .. | .bankCardRun .. | .bankCardDone ..
  | .ptpMessageReceive .. | .hold | .tmctlWrite .. | .timetableLaunchFiring .. | .timetableGangSwitchFiring ..
  | .timetableStopFiring .. | .deferredFiringAct .. | .ttctlArm .. | .timetableEntryWrite .. | .stagingStart ..
  | .warpStop .. | .switchStopDeadline | .queuePause .. | .switchSaveComplete | .switchIn | .ctxdActivate ..
  | .ctxdTeardown .. | .contextStopDone .. | .partReset .. | .dieReset .. | .dieResetReturn .. | .bootclr
  | .powerLimitExceeded | .overlimitReset .. | .atctlGo .. | .atctlClear .. | .attestationReportDone
  | .attestInputWrite .. | .hostMemRead .. | .hostMemWrite .. | .hostRegisterBadWidth .. | .registerWrite ..
  | .softError .. | .powerWithinLimits | .cxlCacheAcknowledgement .. => false

end Sys2Proof
end

