-- ==== Sys2Proof/Decode.lean ====
section
/-! DEFINITION. Reading instructions from bytes and writing them (R241 to R252 and the encoding table of each entry).
The decoder picks the instruction form that OP, LEN and MOD name, takes its fields, and accepts it only when writing those
fields back gives every bit of the words: a field the entry does not name must be zero (R248, R252). -/

namespace Sys2Proof

/-- The little-endian value of a byte string (R2). -/
def leNat : List Byte → Nat
  | [] => 0
  | x :: xs => x.toNat + 256 * leNat xs

/-- The low `n` bytes of `v`, lowest first (R2). -/
def leBytes : Nat → Nat → List Byte
  | 0, _ => []
  | n + 1, v => BitVec.ofNat 8 v :: leBytes n (v / 256)

/-- The fields of an instruction's words (R243, R244, R245). Fields of an absent word are zero. -/
structure Raw where
  gn : Bool
  g : PReg
  b : Reg
  a : Reg
  d : Reg
  op : Byte
  len : BitVec 2
  imm : Word
  r31 : Bool
  tid : BitVec 6
  yh : Bool
  ch : BitVec 2
  ord : BitVec 2
  scope : BitVec 3
  sat : Bool
  fzo : Bool
  fzi : Bool
  rnd : BitVec 2
  md : BitVec 6
  e : Reg
  lit : DWord
deriving DecidableEq, Repr

/-- The fields of a base word, an extension word and a literal word (R243 to R245). -/
def Raw.ofWords (base : Word) (ext lit : DWord) : Raw where
  gn := base.getLsbD 31
  g := base.extractLsb' 28 3
  b := base.extractLsb' 22 6
  a := base.extractLsb' 16 6
  d := base.extractLsb' 10 6
  op := base.extractLsb' 2 8
  len := base.extractLsb' 0 2
  imm := ext.extractLsb' 32 32
  r31 := ext.getLsbD 31
  tid := ext.extractLsb' 25 6
  yh := ext.getLsbD 24
  ch := ext.extractLsb' 22 2
  ord := ext.extractLsb' 20 2
  scope := ext.extractLsb' 17 3
  sat := ext.getLsbD 16
  fzo := ext.getLsbD 15
  fzi := ext.getLsbD 14
  rnd := ext.extractLsb' 12 2
  md := ext.extractLsb' 6 6
  e := ext.extractLsb' 0 6
  lit := lit

/-- The base word of the fields (R243). -/
def Raw.base (r : Raw) : Word :=
  BitVec.ofBool r.gn ++ r.g ++ r.b ++ r.a ++ r.d ++ r.op ++ r.len

/-- The extension word of the fields (R244). -/
def Raw.ext (r : Raw) : DWord :=
  r.imm ++ BitVec.ofBool r.r31 ++ r.tid ++ BitVec.ofBool r.yh ++ r.ch ++ r.ord ++ r.scope ++ BitVec.ofBool r.sat ++
  BitVec.ofBool r.fzo ++ BitVec.ofBool r.fzi ++ r.rnd ++ r.md ++ r.e

/-- The controls every instruction has. -/
def Raw.ctl (r : Raw) : Ctl := ⟨r.gn, r.g, r.len, r.tid, r.yh⟩
/-- The literal word is present (R241). -/
def Raw.hasLit (r : Raw) : Bool := r.len.getLsbD 1
/-- MOD [11] W, MOD [10] UN and SAT of the integer family (R327). -/
def Raw.imod (r : Raw) : IMod := ⟨r.md.getLsbD 5, r.md.getLsbD 4, r.sat⟩
/-- RND, SAT, FZI, FZO (R76 to R78). -/
def Raw.fmod (r : Raw) : FMod := ⟨r.rnd, r.sat, r.fzi, r.fzo⟩
/-- SZ, ORD, SCOPE, CH and the byte offset (R249). -/
def Raw.mmod (r : Raw) : MMod := ⟨r.md.extractLsb' 0 3, r.ord, r.scope, r.ch, r.imm⟩
/-- The atomic operation or OPC in MOD [11:9]. -/
def Raw.op3 (r : Raw) : BitVec 3 := r.md.extractLsb' 3 3
/-- The copy controls of R157. -/
def Raw.cmod (r : Raw) : CMod :=
  ⟨r.ord, r.scope, r.ch, r.md.getLsbD 2, r.imm.extractLsb' 23 9, r.imm.getLsbD 22, r.imm.extractLsb' 17 5,
    r.imm.extractLsb' 14 3⟩
/-- The `AXM` controls of R289. -/
def Raw.amod (r : Raw) : AMod :=
  ⟨r.md.getLsbD 5, r.md.getLsbD 4, r.md.extractLsb' 2 2, r.fzi, r.fzo, r.imm.extractLsb' 0 5, r.imm.extractLsb' 5 3,
    r.imm.extractLsb' 8 8⟩
/-- The predicate or set in the low bits of a register field (R247). -/
def pOf (x : Reg) : PReg := x.setWidth 3
def jOf (x : Reg) : SetNo := x.setWidth 4

/-- The instruction form that OP, LEN and MOD name, with its fields taken from the words. `none`: a reserved opcode. -/
def Raw.candidate (r : Raw) : Option Instr :=
  let c := r.ctl
  let w := r.md.getLsbD 5
  let un := r.md.getLsbD 4
  let form2 : BitVec 2 := r.md.extractLsb' 0 2
  let bit6 := r.md.getLsbD 0
  match r.op.toNat with
  | 0x00 => some (if r.hasLit then .iaddImmediate c r.imod r.d r.a r.lit else .iadd c r.imod r.d r.a r.b)
  | 0x01 => some (if r.hasLit then .isubImmediate c r.imod r.d r.a r.lit else .isub c r.imod r.d r.a r.b)
  | 0x02 => some (if r.hasLit then .imulImmediate c r.imod r.d r.a r.lit else .imul c r.imod r.d r.a r.b)
  | 0x03 => some (if r.hasLit then .imulhImmediate c r.imod r.d r.a r.lit else .imulh c r.imod r.d r.a r.b)
  | 0x04 => some (if r.hasLit then .imadImmediate c r.imod r.d r.a r.lit r.e else .imad c r.imod r.d r.a r.b r.e)
  | 0x05 => some (if r.hasLit then .iminImmediate c r.imod r.d r.a r.lit else .imin c r.imod r.d r.a r.b)
  | 0x06 => some (if r.hasLit then .imaxImmediate c r.imod r.d r.a r.lit else .imax c r.imod r.d r.a r.b)
  | 0x07 => some (.iabs c r.imod r.d r.a)
  | 0x08 => some (.ineg c r.imod r.d r.a)
  | 0x09 => some (if r.hasLit then .andImmediate c w r.d r.a r.lit else .and c w r.d r.a r.b)
  | 0x0A => some (if r.hasLit then .orImmediate c w r.d r.a r.lit else .or c w r.d r.a r.b)
  | 0x0B => some (if r.hasLit then .xorImmediate c w r.d r.a r.lit else .xor c w r.d r.a r.b)
  | 0x0C => some (.not c w r.d r.a)
  | 0x0D => some (if r.hasLit then .shlImmediate c w r.d r.a r.lit else .shl c w r.d r.a r.b)
  | 0x0E => some (if r.hasLit then .shrImmediate c w r.d r.a r.lit else .shr c w r.d r.a r.b)
  | 0x0F => some (if r.hasLit then .sarImmediate c w r.d r.a r.lit else .sar c w r.d r.a r.b)
  | 0x10 => some (.popc c w r.d r.a)
  | 0x11 => some (.clz c w r.d r.a)
  | 0x12 => some (.brev c w r.d r.a)
  | 0x13 => some (.bfe c w un r.d r.a (r.imm.extractLsb' 0 6) (r.imm.extractLsb' 6 6))
  | 0x14 => some (.bfi c w r.d r.a r.e (r.imm.extractLsb' 0 6) (r.imm.extractLsb' 6 6))
  | 0x15 => some (if r.hasLit then .icmpImmediate c w un (r.md.extractLsb' 1 3) (pOf r.d) r.a r.lit
      else .icmp c w un (r.md.extractLsb' 1 3) (pOf r.d) r.a r.b)
  | 0x16 => some (if r.hasLit then .selImmediate c r.d r.a (loWord r.lit) (pOf r.e) else .sel c r.d r.a r.b (pOf r.e))
  | 0x17 => some (if r.hasLit then .leaImmediate c w r.d r.a r.lit (r.imm.extractLsb' 0 5)
      else .lea c w un r.d r.a r.b (r.imm.extractLsb' 0 5))
  | 0x20 => some (if r.hasLit then .faddImmediate c r.fmod r.d r.a (loWord r.lit) else .fadd c r.fmod r.d r.a r.b)
  | 0x21 => some (if r.hasLit then .fsubImmediate c r.fmod r.d r.a (loWord r.lit) else .fsub c r.fmod r.d r.a r.b)
  | 0x22 => some (if r.hasLit then .fmulImmediate c r.fmod r.d r.a (loWord r.lit) else .fmul c r.fmod r.d r.a r.b)
  | 0x23 => some (if r.hasLit then .ffmaImmediate c r.fmod r.d r.a (loWord r.lit) r.e
      else .ffma c r.fmod r.d r.a r.b r.e)
  | 0x24 => some (if r.hasLit then .fminImmediate c r.fmod r.d r.a (loWord r.lit) else .fmin c r.fmod r.d r.a r.b)
  | 0x25 => some (if r.hasLit then .fmaxImmediate c r.fmod r.d r.a (loWord r.lit) else .fmax c r.fmod r.d r.a r.b)
  | 0x26 => some (if r.hasLit then .fcmpImmediate c r.fzi (r.md.extractLsb' 1 3) (pOf r.d) r.a (loWord r.lit)
      else .fcmp c r.fzi (r.md.extractLsb' 1 3) (pOf r.d) r.a r.b)
  | 0x27 => some (.fclass c (pOf r.d) r.a (r.imm.extractLsb' 0 9))
  | 0x28 => some (.frcp c r.fmod r.d r.a)
  | 0x29 => some (.frsq c r.fmod r.d r.a)
  | 0x2A => some (.fsqrt c r.fmod r.d r.a)
  | 0x2B => some (.fex2 c r.fmod r.d r.a)
  | 0x2C => some (.flg2 c r.fmod r.d r.a)
  | 0x2D => some (.fsin c r.fmod r.d r.a)
  | 0x2E => some (.fcos c r.fmod r.d r.a)
  | 0x2F => some (.frnd c r.fmod r.d r.a)
  | 0x30 => some (if r.hasLit then .hadd2Immediate c r.fmod r.d r.a (loWord r.lit) else .hadd2 c r.fmod r.d r.a r.b)
  | 0x31 => some (if r.hasLit then .hmul2Immediate c r.fmod r.d r.a (loWord r.lit) else .hmul2 c r.fmod r.d r.a r.b)
  | 0x32 => some (if r.hasLit then .hfma2Immediate c r.fmod r.d r.a (loWord r.lit) r.e
      else .hfma2 c r.fmod r.d r.a r.b r.e)
  | 0x33 => some (if r.hasLit then .hmin2Immediate c r.fmod r.d r.a (loWord r.lit) else .hmin2 c r.fmod r.d r.a r.b)
  | 0x34 => some (if r.hasLit then .hmax2Immediate c r.fmod r.d r.a (loWord r.lit) else .hmax2 c r.fmod r.d r.a r.b)
  | 0x35 => some (.cvt c r.fmod (r.imm.extractLsb' 0 4) (r.imm.extractLsb' 4 4) r.d r.a)
  | 0x40 => some (.mov c w r.d r.a)
  | 0x41 => some (.movi c w r.d r.lit)
  | 0x42 => some (if r.hasLit then .lanexImmediate c (r.md.extractLsb' 2 3) form2 r.d r.a (loWord r.lit)
      else .lanex c (r.md.extractLsb' 2 3) form2 r.d r.a r.b)
  | 0x43 => some (.vote c form2 r.d (pOf r.a))
  | 0x44 => some (.pset c (r.md.extractLsb' 0 3) (pOf r.d) r.a r.b)
  | 0x45 => some (.pcnt c bit6 r.d (pOf r.a))
  | 0x46 => some (.unif c r.d r.a)
  | 0x47 => some (.shape c r.d r.a)
  | 0x50 => some (.ld c r.mmod r.d r.a)
  | 0x51 => some (.st c r.mmod r.a r.b)
  | 0x52 => some (.lds c r.mmod r.d r.a)
  | 0x53 => some (.sts c r.mmod r.a r.b)
  | 0x54 => some (.ldx c r.mmod r.d r.a r.e)
  | 0x55 => some (.stx c r.mmod r.a r.b r.e)
  | 0x56 => some (.atom c r.mmod r.op3 r.d r.a r.b)
  | 0x57 => some (if r.e == 0 then .atoms c r.mmod r.op3 r.d r.a r.b else .atomsCluster c r.mmod r.op3 r.d r.a r.b r.e)
  | 0x58 => some (.red c r.mmod r.op3 r.a r.b)
  | 0x59 => some (.fence c r.ord r.scope)
  | 0x5A => match r.op3.toNat with
    | 0 => some (.cctlL1inv c r.a r.imm)
    | 1 => some (.cctlWb c r.a r.imm)
    | 2 => some (.cctlIcore c)
    | 3 => some (.cctlIdie c)
    | 4 => some (.cctlIdev c)
    | _ => none
  | 0x5B => match r.op3.toNat with
    | 0 => some (.pref c false r.a r.imm)
    | 1 => some (.pref c true r.a r.imm)
    | _ => none
  | 0x70 => some (.bra c r.imm)
  | 0x71 => some (.brx c r.a)
  | 0x72 => some (.call c r.imm)
  | 0x73 => some (.callx c r.a)
  | 0x74 => some (.ret c)
  | 0x75 => some (.exit c)
  | 0x76 => some (.yield c)
  | 0x77 => some (.nop c)
  | 0x78 => some (if bit6 then .jenterF c (jOf r.d) else .jenter c (jOf r.d))
  | 0x79 => some (.jquit c (jOf r.d))
  | 0x7A => some (.jwait c (jOf r.d))
  | 0x7B => some (.jget c r.d (jOf r.a))
  | 0x7C => some (.jput c (jOf r.d) r.a)
  | 0x7D => match form2.toNat with
    | 0 => some (.barSync c (r.imm.extractLsb' 0 5))
    | 1 => some (.barArrive c (r.imm.extractLsb' 0 5))
    | 2 => some (.barWait c (r.imm.extractLsb' 0 5))
    | _ => none
  | 0x7E => some (.trap c (r.imm.extractLsb' 0 8))
  | 0x7F => some (.brk c)
  | 0x80 => some (.bcopy c r.cmod r.d r.a r.b r.e)
  | 0x81 => some (.bcopyr c r.cmod r.op3 r.d r.a r.b r.e)
  | 0x82 => some (.xred c r.cmod r.d r.a)
  | 0x83 => some (.qfence c r.ch r.d (r.imm.extractLsb' 23 9) (r.imm.extractLsb' 6 8))
  | 0x84 => some (.qinit c (r.lit.extractLsb' 0 3) r.a (r.lit.extractLsb' 3 4) (r.lit.getLsbD 7))
  | 0x85 => some (.qpush c bit6 (r.md.extractLsb' 2 3) (r.lit.extractLsb' 0 3) r.b)
  | 0x86 => some (.qpop c bit6 (r.md.extractLsb' 2 3) (r.lit.extractLsb' 0 3) r.d)
  | 0x90 => some (.amode c (r.md.getLsbD 1) bit6 r.a r.imm)
  | 0x91 => some (.acfg c w (r.md.extractLsb' 3 2) (r.imm.extractLsb' 0 5))
  | 0x92 => some (.axm c r.amod r.d r.a)
  | 0x93 => some (if bit6 then .aqryImmediate c r.d (r.imm.extractLsb' 0 5) else .aqry c r.d r.a)
  | 0xA0 => match form2.toNat with
    | 0 => some (.invoke c r.d r.a)
    | 1 => some (.invokeCore c r.d r.a r.e)
    | 2 => some (.invokePark c r.d r.a r.e)
    | _ => none
  | 0xA1 => some (.chain c r.d r.a r.b)
  | 0xA2 => some (if w then .awaitT c (r.md.extractLsb' 2 3) r.d r.b else .await c (r.md.extractLsb' 2 3) r.d r.b)
  | 0xA3 => some (.hpoll c (r.md.extractLsb' 2 3) r.b)
  | 0xA4 => some (.hset c r.a)
  | 0xA5 => some (.hbreak c (r.imm.extractLsb' 0 8))
  | 0xA6 => some (.hdrop c r.b)
  | 0xB0 => some (.bjob c r.d r.a)
  | 0xC0 => some (.sread c r.d (r.imm.extractLsb' 0 8))
  | 0xC1 => some (.swrite c r.a)
  | 0xC2 => some (if bit6 then .timeCc c r.d else .time c r.d)
  | 0xC3 => match form2.toNat with
    | 0 => some (.sleep c r.imm)
    | 1 => some (.sleepRegister c r.a)
    | 2 => some (.sleepAbs c r.a)
    | _ => none
  | 0xC4 => some (if bit6 then .statOne c (r.imm.extractLsb' 0 6) else .stat c)
  | 0xC5 => some (.trapret c)
  | _ => none

namespace Encode

/-- All fields zero but the controls and OP. -/
def blank (c : Ctl) (op : Byte) : Raw :=
  ⟨c.gn, c.g, 0, 0, 0, op, c.len, 0, false, c.tid, c.yh, 0, 0, 0, false, false, false, 0, 0, 0, 0⟩
def p6 (p : PReg) : Reg := p.setWidth 6
def j6 (j : SetNo) : Reg := j.setWidth 6
/-- MOD from [11] W and [10] UN. -/
def wun (w un : Bool) : BitVec 6 := BitVec.ofBool w ++ BitVec.ofBool un ++ 0#4
def int (c : Ctl) (op : Byte) (m : IMod) (d a : Reg) : Raw :=
  { blank c op with d := d, a := a, sat := m.sat, md := wun m.w m.un }
def logic (c : Ctl) (op : Byte) (w : Bool) (d a : Reg) : Raw := { blank c op with d := d, a := a, md := wun w false }
def flt (c : Ctl) (op : Byte) (m : FMod) (d a : Reg) : Raw :=
  { blank c op with d := d, a := a, rnd := m.rnd, sat := m.sat, fzi := m.fzi, fzo := m.fzo }
def lit32 (w : Word) : DWord := w.setWidth 64
def mem (c : Ctl) (op : Byte) (m : MMod) (k3 : BitVec 3) (d a b e : Reg) : Raw :=
  { blank c op with d := d, a := a, b := b, e := e, md := k3 ++ m.sz, ord := m.ord, scope := m.scope, ch := m.ch, imm := m.off }
def copy (c : Ctl) (op : Byte) (m : CMod) (rop : BitVec 3) (d a b e : Reg) : Raw :=
  { blank c op with
    d := d, a := a, b := b, e := e, ord := m.ord, scope := m.scope, ch := m.ch,
    md := rop ++ BitVec.ofBool m.wide ++ 0#2,
    imm := m.queue ++ BitVec.ofBool m.barv ++ m.bar ++ m.nc ++ 0#14 }

end Encode

open Encode

/-- The fields of an instruction's words, from the encoding tables; events have none. -/
def Instr.toRaw : Instr → Option Raw
  | .iadd c m d a b => some { int c 0x00 m d a with b := b }
  | .iaddImmediate c m d a imm => some { int c 0x00 m d a with lit := imm }
  | .isub c m d a b => some { int c 0x01 m d a with b := b }
  | .isubImmediate c m d a imm => some { int c 0x01 m d a with lit := imm }
  | .imul c m d a b => some { int c 0x02 m d a with b := b }
  | .imulImmediate c m d a imm => some { int c 0x02 m d a with lit := imm }
  | .imulh c m d a b => some { int c 0x03 m d a with b := b }
  | .imulhImmediate c m d a imm => some { int c 0x03 m d a with lit := imm }
  | .imad c m d a b e => some { int c 0x04 m d a with b := b, e := e }
  | .imadImmediate c m d a imm e => some { int c 0x04 m d a with lit := imm, e := e }
  | .imin c m d a b => some { int c 0x05 m d a with b := b }
  | .iminImmediate c m d a imm => some { int c 0x05 m d a with lit := imm }
  | .imax c m d a b => some { int c 0x06 m d a with b := b }
  | .imaxImmediate c m d a imm => some { int c 0x06 m d a with lit := imm }
  | .iabs c m d a => some (int c 0x07 m d a)
  | .ineg c m d a => some (int c 0x08 m d a)
  | .and c w d a b => some { logic c 0x09 w d a with b := b }
  | .andImmediate c w d a imm => some { logic c 0x09 w d a with lit := imm }
  | .or c w d a b => some { logic c 0x0A w d a with b := b }
  | .orImmediate c w d a imm => some { logic c 0x0A w d a with lit := imm }
  | .xor c w d a b => some { logic c 0x0B w d a with b := b }
  | .xorImmediate c w d a imm => some { logic c 0x0B w d a with lit := imm }
  | .not c w d a => some (logic c 0x0C w d a)
  | .shl c w d a b => some { logic c 0x0D w d a with b := b }
  | .shlImmediate c w d a imm => some { logic c 0x0D w d a with lit := imm }
  | .shr c w d a b => some { logic c 0x0E w d a with b := b }
  | .shrImmediate c w d a imm => some { logic c 0x0E w d a with lit := imm }
  | .sar c w d a b => some { logic c 0x0F w d a with b := b }
  | .sarImmediate c w d a imm => some { logic c 0x0F w d a with lit := imm }
  | .popc c w d a => some (logic c 0x10 w d a)
  | .clz c w d a => some (logic c 0x11 w d a)
  | .brev c w d a => some (logic c 0x12 w d a)
  | .bfe c w un d a pos wid1 => some { logic c 0x13 w d a with md := wun w un, imm := 0#20 ++ wid1 ++ pos }
  | .bfi c w d a e pos wid1 => some { logic c 0x14 w d a with e := e, imm := 0#20 ++ wid1 ++ pos }
  | .icmp c w un cond p a b =>
      some { blank c 0x15 with
        d := p6 p, a := a, b := b, md := BitVec.ofBool w ++ BitVec.ofBool un ++ cond ++ 0#1 }
  | .icmpImmediate c w un cond p a imm =>
      some { blank c 0x15 with
        d := p6 p, a := a, lit := imm, md := BitVec.ofBool w ++ BitVec.ofBool un ++ cond ++ 0#1 }
  | .sel c d a b p => some { blank c 0x16 with d := d, a := a, b := b, e := p6 p }
  | .selImmediate c d a imm p => some { blank c 0x16 with d := d, a := a, lit := lit32 imm, e := p6 p }
  | .lea c w un d a b sh => some { logic c 0x17 w d a with b := b, md := wun w un, imm := sh.setWidth 32 }
  | .leaImmediate c w d a imm sh => some { logic c 0x17 w d a with lit := imm, imm := sh.setWidth 32 }
  | .fadd c m d a b => some { flt c 0x20 m d a with b := b }
  | .faddImmediate c m d a imm => some { flt c 0x20 m d a with lit := lit32 imm }
  | .fsub c m d a b => some { flt c 0x21 m d a with b := b }
  | .fsubImmediate c m d a imm => some { flt c 0x21 m d a with lit := lit32 imm }
  | .fmul c m d a b => some { flt c 0x22 m d a with b := b }
  | .fmulImmediate c m d a imm => some { flt c 0x22 m d a with lit := lit32 imm }
  | .ffma c m d a b e => some { flt c 0x23 m d a with b := b, e := e }
  | .ffmaImmediate c m d a imm e => some { flt c 0x23 m d a with lit := lit32 imm, e := e }
  | .fmin c m d a b => some { flt c 0x24 m d a with b := b }
  | .fminImmediate c m d a imm => some { flt c 0x24 m d a with lit := lit32 imm }
  | .fmax c m d a b => some { flt c 0x25 m d a with b := b }
  | .fmaxImmediate c m d a imm => some { flt c 0x25 m d a with lit := lit32 imm }
  | .fcmp c fzi cond p a b =>
      some { blank c 0x26 with d := p6 p, a := a, b := b, fzi := fzi, md := 0#2 ++ cond ++ 0#1 }
  | .fcmpImmediate c fzi cond p a imm =>
      some { blank c 0x26 with d := p6 p, a := a, lit := lit32 imm, fzi := fzi, md := 0#2 ++ cond ++ 0#1 }
  | .fclass c p a mask => some { blank c 0x27 with d := p6 p, a := a, imm := mask.setWidth 32 }
  | .frcp c m d a => some (flt c 0x28 m d a)
  | .frsq c m d a => some (flt c 0x29 m d a)
  | .fsqrt c m d a => some (flt c 0x2A m d a)
  | .fex2 c m d a => some (flt c 0x2B m d a)
  | .flg2 c m d a => some (flt c 0x2C m d a)
  | .fsin c m d a => some (flt c 0x2D m d a)
  | .fcos c m d a => some (flt c 0x2E m d a)
  | .frnd c m d a => some (flt c 0x2F m d a)
  | .hadd2 c m d a b => some { flt c 0x30 m d a with b := b }
  | .hadd2Immediate c m d a imm => some { flt c 0x30 m d a with lit := lit32 imm }
  | .hmul2 c m d a b => some { flt c 0x31 m d a with b := b }
  | .hmul2Immediate c m d a imm => some { flt c 0x31 m d a with lit := lit32 imm }
  | .hfma2 c m d a b e => some { flt c 0x32 m d a with b := b, e := e }
  | .hfma2Immediate c m d a imm e => some { flt c 0x32 m d a with lit := lit32 imm, e := e }
  | .hmin2 c m d a b => some { flt c 0x33 m d a with b := b }
  | .hmin2Immediate c m d a imm => some { flt c 0x33 m d a with lit := lit32 imm }
  | .hmax2 c m d a b => some { flt c 0x34 m d a with b := b }
  | .hmax2Immediate c m d a imm => some { flt c 0x34 m d a with lit := lit32 imm }
  | .cvt c m src dst d a => some { flt c 0x35 m d a with imm := 0#24 ++ dst ++ src }
  | .mov c w d a => some (logic c 0x40 w d a)
  | .movi c w d imm => some { logic c 0x41 w d 0 with lit := imm }
  | .lanex c seg mode d a b => some { blank c 0x42 with d := d, a := a, b := b, md := 0#1 ++ seg ++ mode }
  | .lanexImmediate c seg mode d a imm =>
      some { blank c 0x42 with d := d, a := a, lit := lit32 imm, md := 0#1 ++ seg ++ mode }
  | .vote c form d p => some { blank c 0x43 with d := d, a := p6 p, md := 0#4 ++ form }
  | .pset c opc p x y => some { blank c 0x44 with d := p6 p, a := x, b := y, md := 0#3 ++ opc }
  | .pcnt c pfx d p => some { blank c 0x45 with d := d, a := p6 p, md := 0#5 ++ BitVec.ofBool pfx }
  | .unif c d a => some { blank c 0x46 with d := d, a := a }
  | .shape c d a => some { blank c 0x47 with d := d, a := a }
  | .ld c m d a => some (mem c 0x50 m 0 d a 0 0)
  | .st c m a b => some (mem c 0x51 m 0 0 a b 0)
  | .lds c m d a => some (mem c 0x52 m 0 d a 0 0)
  | .sts c m a b => some (mem c 0x53 m 0 0 a b 0)
  | .ldx c m d a k => some (mem c 0x54 m 0 d a 0 k)
  | .stx c m a b k => some (mem c 0x55 m 0 0 a b k)
  | .atom c m op d a b => some (mem c 0x56 m op d a b 0)
  | .atoms c m op d a b => some (mem c 0x57 m op d a b 0)
  | .atomsCluster c m op d a b k => some (mem c 0x57 m op d a b k)
  | .red c m op a b => some (mem c 0x58 m op 0 a b 0)
  | .fence c ord scope => some { blank c 0x59 with ord := ord, scope := scope }
  | .cctlL1inv c a off => some { blank c 0x5A with a := a, imm := off }
  | .cctlWb c a off => some { blank c 0x5A with a := a, imm := off, md := 0b001000#6 }
  | .cctlIcore c => some { blank c 0x5A with md := 0b010000#6 }
  | .cctlIdie c => some { blank c 0x5A with md := 0b011000#6 }
  | .cctlIdev c => some { blank c 0x5A with md := 0b100000#6 }
  | .pref c l2 a off => some { blank c 0x5B with a := a, imm := off, md := 0#2 ++ BitVec.ofBool l2 ++ 0#3 }
  | .bra c off => some { blank c 0x70 with imm := off }
  | .brx c a => some { blank c 0x71 with a := a }
  | .call c off => some { blank c 0x72 with imm := off }
  | .callx c a => some { blank c 0x73 with a := a }
  | .ret c => some (blank c 0x74)
  | .exit c => some (blank c 0x75)
  | .yield c => some (blank c 0x76)
  | .nop c => some (blank c 0x77)
  | .jenter c j => some { blank c 0x78 with d := j6 j }
  | .jenterF c j => some { blank c 0x78 with d := j6 j, md := 1#6 }
  | .jquit c j => some { blank c 0x79 with d := j6 j }
  | .jwait c j => some { blank c 0x7A with d := j6 j }
  | .jget c d j => some { blank c 0x7B with d := d, a := j6 j }
  | .jput c j a => some { blank c 0x7C with d := j6 j, a := a }
  | .barSync c b => some { blank c 0x7D with imm := b.setWidth 32 }
  | .barArrive c b => some { blank c 0x7D with imm := b.setWidth 32, md := 1#6 }
  | .barWait c b => some { blank c 0x7D with imm := b.setWidth 32, md := 2#6 }
  | .trap c code => some { blank c 0x7E with imm := code.setWidth 32 }
  | .brk c => some (blank c 0x7F)
  | .bcopy c m t a b e => some (copy c 0x80 m 0 t a b e)
  | .bcopyr c m rop t a b e => some (copy c 0x81 m rop t a b e)
  | .xred c m t a => some (copy c 0x82 m 0 t a 0 0)
  | .qfence c ch t base mask => some { blank c 0x83 with d := t, ch := ch, imm := base ++ 0#9 ++ mask ++ 0#6 }
  | .qinit c q a log2n esz =>
      some { blank c 0x84 with a := a, lit := 0#56 ++ BitVec.ofBool esz ++ log2n ++ q }
  | .qpush c d8 p q b =>
      some { blank c 0x85 with b := b, lit := q.setWidth 64, md := 0#1 ++ p ++ 0#1 ++ BitVec.ofBool d8 }
  | .qpop c d8 p q d =>
      some { blank c 0x86 with d := d, lit := q.setWidth 64, md := 0#1 ++ p ++ 0#1 ++ BitVec.ofBool d8 }
  | .amode c rg tc a mask =>
      some { blank c 0x90 with a := a, imm := mask, md := 0#4 ++ BitVec.ofBool rg ++ BitVec.ofBool tc }
  | .acfg c a6 sgc arr =>
      some { blank c 0x91 with imm := arr.setWidth 32, md := BitVec.ofBool a6 ++ sgc ++ 0#3 }
  | .axm c m d a =>
      some { blank c 0x92 with
        d := d, a := a, fzi := m.fzi, fzo := m.fzo, imm := 0#16 ++ m.k1 ++ m.m1 ++ m.arr,
        md := BitVec.ofBool m.pa6 ++ BitVec.ofBool m.bf16 ++ m.rep ++ 0#2 }
  | .aqry c d a => some { blank c 0x93 with d := d, a := a }
  | .aqryImmediate c d arr => some { blank c 0x93 with d := d, imm := arr.setWidth 32, md := 1#6 }
  | .invoke c d a => some { blank c 0xA0 with d := d, a := a }
  | .invokeCore c d a e => some { blank c 0xA0 with d := d, a := a, e := e, md := 1#6 }
  | .invokePark c d a e => some { blank c 0xA0 with d := d, a := a, e := e, md := 2#6 }
  | .chain c d a b => some { blank c 0xA1 with d := d, a := a, b := b }
  | .await c p d b => some { blank c 0xA2 with d := d, b := b, md := 0#1 ++ p ++ 0#2 }
  | .awaitT c p d b => some { blank c 0xA2 with d := d, b := b, md := 1#1 ++ p ++ 0#2 }
  | .hpoll c p b => some { blank c 0xA3 with b := b, md := 0#1 ++ p ++ 0#2 }
  | .hset c a => some { blank c 0xA4 with a := a }
  | .hbreak c code => some { blank c 0xA5 with imm := code.setWidth 32 }
  | .hdrop c b => some { blank c 0xA6 with b := b }
  | .bjob c t a => some { blank c 0xB0 with d := t, a := a }
  | .sread c d n => some { blank c 0xC0 with d := d, imm := n.setWidth 32 }
  | .swrite c a => some { blank c 0xC1 with a := a, imm := 7#32 }
  | .time c d => some { blank c 0xC2 with d := d }
  | .timeCc c d => some { blank c 0xC2 with d := d, md := 1#6 }
  | .sleep c n => some { blank c 0xC3 with imm := n }
  | .sleepRegister c a => some { blank c 0xC3 with a := a, md := 1#6 }
  | .sleepAbs c a => some { blank c 0xC3 with a := a, md := 2#6 }
  | .stat c => some (blank c 0xC4)
  | .statOne c t => some { blank c 0xC4 with imm := t.setWidth 32, md := 1#6 }
  | .trapret c => some (blank c 0xC5)
  | _ => none

/-- The instruction of a set of fields: the named form, when its own fields give every bit back and it is well formed. -/
def decodeRaw (r : Raw) : Option Instr :=
  match r.candidate with
  | none => none
  | some i => if i.toRaw = some r ∧ i.wellFormed = true then some i else none

/-- Bytes of an instruction with LEN code `len` (R241). -/
def lenBytes (len : BitVec 2) : Nat :=
  if len == 0 then 4 else if len == 3 then 20 else 12

/-- The fields of the instruction at the head of a byte string (R241); bytes beyond the end read as absent. -/
def rawOfBytes (bs : List Byte) : Raw :=
  let base : Word := BitVec.ofNat 32 (leNat (bs.take 4))
  let len : BitVec 2 := base.extractLsb' 0 2
  let second : DWord := BitVec.ofNat 64 (leNat ((bs.drop 4).take 8))
  let third : DWord := BitVec.ofNat 64 (leNat ((bs.drop 12).take 8))
  if len == 0 then Raw.ofWords base 0 0
  else if len == 1 then Raw.ofWords base second 0
  else if len == 2 then Raw.ofWords base 0 second
  else Raw.ofWords base second third

/-- Reads one instruction from bytes, with the bytes after it; `none` where the bytes are no instruction (R252). -/
def decode (bs : List Byte) : Option (Instr × List Byte) :=
  let r := rawOfBytes bs
  let n := lenBytes r.len
  if bs.length < 4 ∨ bs.length < n then none
  else (decodeRaw r).map fun i => (i, bs.drop n)

/-- The bytes of a set of fields (R241). -/
def Raw.bytes (r : Raw) : List Byte :=
  leBytes 4 r.base.toNat ++ (if r.len.getLsbD 0 then leBytes 8 r.ext.toNat else []) ++
  (if r.len.getLsbD 1 then leBytes 8 r.lit.toNat else [])

/-- The words of a well-formed instruction, as bytes in memory order. -/
def encode (i : Instr) : Option (List Byte) := i.toRaw.map Raw.bytes

/-- The instruction whose bits are `w`, numbered as spec/opcode_table.json numbers them: the words above `nbits` are zero. -/
def decodeTableWord (nbits w : Nat) : Option Instr :=
  (decode (leBytes (nbits / 8) (w % 2 ^ nbits) ++ List.replicate (20 - nbits / 8) 0)).map Prod.fst

end Sys2Proof
end

