-- ==== Sys2Proof/Machine/Access.lean ====
section
/-! DEFINITION. Memory instructions: opcodes 0x50 to 0x5B (R282 to R285, R308, R320, R336, R345, R350, R360). An access issues here: its
registers, alignment, translation and permissions are checked for every lane before any lane's access (R129), and it then stands among the
warp's requests, unchecked, until its own events check and perform it (R227). -/

namespace Sys2Proof.Machine

/-- The fault-record code of an access kind (R232). -/
def MemOp.acc : MemOp → Nat
  | .load _ => 0
  | .store => 1
  | .atom _ _ => 2

/-- What an access needs of its page (R125). -/
def MemOp.need : MemOp → Need
  | .load _ => ⟨true, false⟩
  | .store => ⟨false, true⟩
  | .atom _ _ => ⟨true, true⟩

/-- Bind the G slots of destinations whose write will leave them G (R60): they keep their values under tag G. -/
def Arch.bind (a : Arch) (live act : Mask) (ws : List RegWrite) : Arch :=
  let ws := if a.handler.isSome then ws.filter fun x => x.reg != 60 else ws
  { a with vregs := ws.foldl (fun vs x =>
      let old := vs.getD x.reg.toNat (.u 0)
      if (mergeWrite live act old x.val).isG then putAt 64 (.u 0) x.reg.toNat (.g (lanesOf old.lane)) vs else vs) a.vregs }

/-- A request of the issuing split enters: its number, the checkpoint before its issue when it is unchecked (R229), the pending writes of its
destinations (R34), and the bindings of its G results. -/
def State.addReq (s : State) (c : Ctl) (kind : ReqKind) (ws : List RegWrite) (preds : List PReg) (async checked : Bool) : State :=
  let act := s.act c
  let w := s.cur
  let id := s.nextId
  let r : Req := ⟨id, w.uid, w.core, w.pos, w.ctx, w.wg, tidOf c, s.ipc, s.next c, act, s.split, w.live, kind, checked, false, false, false, none, w.inHandler,
    s.dueFrom (dieOfCore w.core), false⟩
  { s with
    nextId := id + 1
    reqs := s.reqs ++ [r]
    cur := { w with
      snaps := if checked then w.snaps else w.snaps ++ [(id, w.arch)]
      pends := if ws.isEmpty && preds.isEmpty then w.pends else w.pends ++ [⟨id, ws.map (·.reg), preds, async, none, false, w.inHandler⟩]
      arch := w.arch.bind w.live act ws } }

/-- A lane's place, with the page's CP for a global access. -/
abbrev LanePlace := Except LaneFault (Nat × BitVec 2)

/-- The place of a scratchpad access of lane l: the workgroup's own, or the cluster member of the lane's rank (R114, R115). -/
def State.spadTarget (s : State) (rank : Option Reg) (l : Nat) (ea : Word) : LanePlace :=
  match s.wgOf s.cur.wg with
  | none => .error ⟨l, 3, 2, 0, ea.setWidth 64⟩
  | some g =>
    let at' (g : Workgroup) : LanePlace := match spadLane g l ea with | .ok p => .ok (p, 0) | .error e => .error e
    match rank with
    | none => at' g
    | some k =>
      match (g.members[(s.rd k l).toNat]?).bind s.wgOf with
      | some g' => at' g'
      | none => .error ⟨l, 3, 3, 0, ea.setWidth 64⟩

/-- Issue a memory access (R283, R336, R360): names, empty mask, G binding, alignment, the checks of every lane in lane order, then the
request. `data` gives each lane's operands. -/
def State.access (s : State) (c : Ctl) (m : MMod) (space : Space) (op : MemOp) (dests : List Reg) (a : Reg) (rank : Option Reg)
    (names : List Reg) (data : Nat → Nat × Nat) : State :=
  let act := s.act c
  let n := szBytes m.sz
  let addrRegs := (match space with | .global => pairRegs a | .spad => [a]) ++ rank.toList
  let uni := (match op with | .load _ => true | _ => false) && rank.isNone && addrRegs.all fun r => (s.reg r).isU
  let ws : List RegWrite := dests.map fun r => ⟨r, if uni then .u 0 else .g []⟩
  let ea (l : Nat) : DWord := match space with
    | .global => s.globalEa a m.off l
    | .spad => (s.spadEa a m.off l).setWidth 64
  let ls := maskLanes act
  let place (l : Nat) : LanePlace := match space with
    | .global => s.globalLane s.cur.core s.cur.ctx op.need l (ea l)
    | .spad => s.spadTarget rank l ((ea l).setWidth 32)
  if !(dests ++ addrRegs ++ names).all s.cur.nameable then s.illegal act
  else if act = 0 then s.advance c
  else match s.cur.overflow act ws with
    | some r => s.trapP act 8 0 r.toNat none 0 4
    | none => match misaligned act n fun l => (ea l).toNat with
      | some l => s.trapP act 4 0 0 (some l) (ea l) op.acc
      | none => match firstFault (ls.map place) with
        | some e => s.trapP act e.cause e.detail e.aux (some e.lane) e.addr op.acc
        | none =>
          let use := if uni then [lowestLane act] else ls
          let lanes := use.filterMap fun l => match place l with
            | .ok (p, cp) => some (LaneAcc.mk l (ea l).toNat p cp (data l).1 (data l).2 0 (allParts n)
                (if op == .store && space == .global then allParts n else 0))
            | .error _ => none
          let s1 := match space with | .global => use.foldl (fun (s : State) l => s.fillTlb s.cur.core s.cur.ctx (ea l).toNat) s | .spad => s
          (s1.addReq c (.mem ⟨space, rank.isSome, op, n, m.ord, m.scope.toNat, m.ch, lanes, dests, uni, none⟩) ws [] false false).advance c

/-- The registers of a data block for a size code. -/
def dataRegs (r : Reg) (sz : BitVec 3) : List Reg := regBlock r (blockRegs (szBytes sz))

/-- The data a store reads in lane l: the low bytes of its block. -/
def State.storeData (s : State) (b : Reg) (sz : BitVec 3) (l : Nat) : Nat × Nat :=
  (s.rdBlock b (szBytes sz) l % 2 ^ (8 * szBytes sz), 0)

/-- `LD` (R336). -/
def execLd (c : Ctl) (m : MMod) (d a : Reg) (s : State) : Out :=
  .next (s.access c m .global (.load (szSigned m.sz)) (dataRegs d m.sz) a none [] fun _ => (0, 0))
/-- `ST` (R360). -/
def execSt (c : Ctl) (m : MMod) (a b : Reg) (s : State) : Out :=
  .next (s.access c m .global .store [] a none (dataRegs b m.sz) (s.storeData b m.sz))
/-- `LDS` (R336). -/
def execLds (c : Ctl) (m : MMod) (d a : Reg) (s : State) : Out :=
  .next (s.access c m .spad (.load (szSigned m.sz)) (dataRegs d m.sz) a none [] fun _ => (0, 0))
/-- `STS` (R360). -/
def execSts (c : Ctl) (m : MMod) (a b : Reg) (s : State) : Out :=
  .next (s.access c m .spad .store [] a none (dataRegs b m.sz) (s.storeData b m.sz))
/-- `LDX` (R336). -/
def execLdx (c : Ctl) (m : MMod) (d a k : Reg) (s : State) : Out :=
  .next (s.access c m .spad (.load (szSigned m.sz)) (dataRegs d m.sz) a (some k) [] fun _ => (0, 0))
/-- `STX` (R360). -/
def execStx (c : Ctl) (m : MMod) (a b k : Reg) (s : State) : Out :=
  .next (s.access c m .spad .store [] a (some k) (dataRegs b m.sz) (s.storeData b m.sz))

/-- The operands x and cmp of an atomic in lane l (R282): for CAS, x first and cmp in the registers after it. -/
def State.atomData (s : State) (op : BitVec 3) (sz : BitVec 3) (b : Reg) (l : Nat) : Nat × Nat :=
  let n := szBytes sz
  (s.rdBlock b n l, if op = 7 then s.rdBlock (b + BitVec.ofNat 6 (blockRegs n)) n l else 0)
/-- The registers those operands name. -/
def atomRegs (op : BitVec 3) (sz : BitVec 3) (b : Reg) : List Reg := regBlock b (blockRegs (szBytes sz) * (if op = 7 then 2 else 1))

/-- `ATOM` (R283). -/
def execAtom (c : Ctl) (m : MMod) (op : BitVec 3) (d a b : Reg) (s : State) : Out :=
  .next (s.access c m .global (.atom op true) (dataRegs d m.sz) a none (atomRegs op m.sz b) (s.atomData op m.sz b))
/-- `ATOMS` in the own scratchpad (R283). -/
def execAtoms (c : Ctl) (m : MMod) (op : BitVec 3) (d a b : Reg) (s : State) : Out :=
  .next (s.access c m .spad (.atom op true) (dataRegs d m.sz) a none (atomRegs op m.sz b) (s.atomData op m.sz b))
/-- `ATOMS` in the cluster window (R282). -/
def execAtomsCluster (c : Ctl) (m : MMod) (op : BitVec 3) (d a b k : Reg) (s : State) : Out :=
  .next (s.access c m .spad (.atom op true) (dataRegs d m.sz) a (some k) (atomRegs op m.sz b) (s.atomData op m.sz b))
/-- `RED` (R350). -/
def execRed (c : Ctl) (m : MMod) (op : BitVec 3) (a b : Reg) (s : State) : Out :=
  .next (s.access c m .global (.atom op false) [] a none (atomRegs op m.sz b) (s.atomData op m.sz b))

/-- `FENCE` (R320): its conditions cover everything issued before it; they are taken off by FENCE_COMPLETE. -/
def execFence (c : Ctl) (ord : BitVec 2) (scope : BitVec 3) (s : State) : Out :=
  .next (if s.act c = 0 then s.advance c
    else State.advance { s with cur := { s.cur with
      fences := s.cur.fences ++ [⟨ord.getLsbD 0, ord.getLsbD 1, scope.toNat, s.nextId, false⟩] } } c)

/-- The lanes of an instruction that names lines (R308, R345): translated addresses, needing READ. -/
def State.lineLanes (s : State) (act : Mask) (a : Reg) (off : Word) : List LanePlace :=
  (maskLanes act).map fun l => s.globalLane s.cur.core s.cur.ctx ⟨true, false⟩ l (s.globalEa a off l)

/-- An address form of `CCTL` (R308): every lane is checked before any acts. -/
def State.cctlLines (s : State) (c : Ctl) (a : Reg) (off : Word) (f : State → Nat → State) : State :=
  let act := s.act c
  let ps := s.lineLanes act a off
  if !(pairRegs a).all s.cur.nameable then s.illegal act
  else if act = 0 then s.advance c
  else match firstFault ps with
    | some e => s.trapP act e.cause e.detail e.aux (some e.lane) e.addr 4
    | none => (ps.foldl (fun s p => match p with
        | .ok (pa, cp) => if cp == 2 || isHostPa pa then s else f s pa
        | .error _ => s) s).advance c

/-- `CCTL.L1INV` (R308): the issuing core's L1 drops every sector of each named line. -/
def execCctlL1inv (c : Ctl) (a : Reg) (off : Word) (s : State) : Out :=
  .next (s.cctlLines c a off fun (s : State) pa =>
    { s with mem := { s.mem with l1 := s.mem.l1.filter fun x => !(x.core == s.cur.core && x.sec / 4 == lineOf pa) } })

/-- `CCTL.WB` (R308): every dirty byte of each named line reaches the home, its owner keeping its copy; each write-back enters
`ctime(.sys)`. -/
def execCctlWb (c : Ctl) (a : Reg) (off : Word) (s : State) : Out :=
  .next (s.cctlLines c a off fun (s : State) pa =>
    if s.mem.l2.any fun x => x.sec / 4 == lineOf pa && x.dirty != 0 then
      let t := completion (s.homeNow pa fun _ => true) (s.mem.leaseOf (lineOf pa))
      { s with mem := s.mem.recall (lineOf pa) fun _ => false, cur := s.cur.raiseCtime [0, 0, 0, 0, t] }
    else s)

/-- The instruction-cache forms of `CCTL` (R308, R309): the lines of the issuing context leave the caches of the cores `hit` names, and the issuing warp fetches
anew; what other warps have fetched already stays with them. The caches answer at once. -/
def State.cctlInst (s : State) (c : Ctl) (hit : Nat → Bool) : State :=
  if s.act c = 0 then s.advance c
  else State.advance { s with
    cur := s.cur.refetch
    mem := { s.mem with icache := s.mem.icache.filter fun x => !(hit x.core && x.ctx == s.cur.ctx) } } c
/-- `CCTL.ICORE` (R308). -/
def execCctlIcore (c : Ctl) (s : State) : Out := .next (s.cctlInst c fun k => k == s.cur.core)
/-- `CCTL.IDIE` (R308). -/
def execCctlIdie (c : Ctl) (s : State) : Out := .next (s.cctlInst c fun k => dieOfCore k == dieOfCore s.cur.core)
/-- `CCTL.IDEV` (R308). -/
def execCctlIdev (c : Ctl) (s : State) : Out := .next (s.cctlInst c fun _ => true)

/-- `PREF` (R345): the sectors of lanes that translate are filled; the others are skipped. The lease asked for is the longest. -/
def execPref (c : Ctl) (l2 : Bool) (a : Reg) (off : Word) (s : State) : Out :=
  let act := s.act c
  .next (if !(pairRegs a).all s.cur.nameable then s.illegal act
    else ((s.lineLanes act a off).foldl (fun s p => match p with
        | .ok (pa, cp) =>
          if bypasses cp pa || !s.grantedAll s.cur.ctx.toNat 0 (64 * sectorOf pa) 64 false then s
          else if l2 then
            let die := dieOfCore s.cur.core
            if s.mem.l2Serves die (sectorOf pa) (s.tideOf die) 0 64 then s else (s.fillL2 die (sectorOf pa) 4096 true false).2
          else (s.loadBytes s.cur.core cp 0 (64 * sectorOf pa) 64 4096 4096).2
        | .error _ => s) s).advance c)

end Sys2Proof.Machine
end

