-- ==== Sys2Proof/Machine/Control.lean ====
section
/-! DEFINITION. Control flow, rejoin sets, barriers and traps: opcodes 0x70 to 0x7F (R47 to R55, R293, R294, R302 to R307, R315, R332 to R334,
R341, R352, R365). -/

namespace Sys2Proof.Machine

/-- The rejoin-deadlock test after an instruction (R55): class C, HMASK every Parked lane, TPC the instruction and RPC the next one. An instruction issued in
the handler is not tested. -/
def State.deadlockTest (s0 s : State) (c : Ctl) : State :=
  if s.cur.deadlocked && !s0.cur.inHandler then
    s0.takeTrap s ⟨10, 0, 0, none, 0, 4, s0.act c, maskOf fun l => (s.cur.lane l).st == .parked, s0.ipc, s0.next c⟩
  else s

/-- Active lanes go to the target, the others to the next instruction (R302). -/
def State.branch (s : State) (c : Ctl) (f : Nat → DWord) : State :=
  s.moveLanes c fun l => if (s.act c).getLsbD l then f l else s.next c

/-- The lanes whose computed target is checked (R233, R305): in handler mode only the lowest lane of HMASK that is not Exited. -/
def State.targetLanes (s : State) (act : Mask) : List Nat :=
  if s.cur.inHandler then (maskLanes act).filter fun l => l == lowestLane (s.split &&& s.cur.live) else maskLanes act

/-- The fault of computed targets (R305): misaligned, then an address with bits [63:56] set. -/
def State.targetTrap (s : State) (act : Mask) (f : Nat → DWord) : Option State :=
  let ls := s.targetLanes act
  match ls.find? fun l => (f l).toNat % 4 != 0 with
  | some l => some (s.trapP act 4 0 0 (some l) (f l) 3)
  | none => match ls.find? fun l => high8 (f l) with
    | some l => some (s.trapP act 2 3 0xFF (some l) (f l) 3)
    | none => none

/-- `BRA` (R302). -/
def execBra (c : Ctl) (off : Word) (s : State) : Out := .next (s.branch c fun _ => s.ipc + sext64 off)

/-- `BRX` (R305). -/
def execBrx (c : Ctl) (a : Reg) (s : State) : Out :=
  let act := s.act c
  .next (if !(pairRegs a).all s.cur.nameable then s.illegal act
    else match s.targetTrap act (s.rdPair a) with
      | some t => t
      | none => s.branch c (s.rdPair a))

/-- `CALL` and `CALLX` (R306): `t` the target, `computed` for `CALLX`. -/
def callOp (s : State) (c : Ctl) (names : List Reg) (computed : Bool) (t : Nat → DWord) : State :=
  let act := s.act c
  let link : RegWrite := ⟨62, .g (lanesOf fun _ => loWord (s.next c))⟩
  if s.cur.hdr.regs < 63 || !names.all s.cur.nameable then s.illegal act
  else if act = 0 then s.advance c
  else if s.cur.inHandler then s.barred act
  else if (maskLanes act).any fun l => (s.cur.lane l).depth == 65535 then s.illegal act
  else match s.cur.overflow act [link] with
    | some r => s.trapP act 8 0 r.toNat none 0 4
    | none => match (if computed then s.targetTrap act t else none) with
      | some x => x
      | none =>
        let s1 := s.branch c t
        { s1 with cur := { s1.cur with arch := (s1.cur.arch.mapLanes act fun _ x => { x with depth := x.depth + 1 }).write s.cur.live act link } }

/-- `CALL` (R306). -/
def execCall (c : Ctl) (off : Word) (s : State) : Out := .next (callOp s c [] false fun _ => s.ipc + sext64 off)
/-- `CALLX` (R306). -/
def execCallx (c : Ctl) (a : Reg) (s : State) : Out := .next (callOp s c (pairRegs a) true (s.rdPair a))

/-- The lowest frame-bound set that a lane of `act` belongs to above its new depth (R54, R359). -/
def Warp.orphan (w : Warp) (act : Mask) (newDepth : Nat → Nat) : Option Nat :=
  (List.range 16).find? fun j =>
    let x := w.arch.sets.getD j .empty
    x.fb && (maskLanes (act &&& x.m)).any fun l => decide (newDepth l < x.d.toNat)

/-- `RET` (R352). -/
def execRet (c : Ctl) (s : State) : Out :=
  let act := s.act c
  let t (l : Nat) : DWord := (s.ipc &&& 0x00FFFFFF00000000) + (s.rd 62 l).setWidth 64
  .next (if s.cur.hdr.regs < 64 then s.illegal act
    else if act = 0 then s.advance c
    else if s.cur.inHandler then s.barred act
    else if (maskLanes act).any fun l => (s.cur.lane l).depth == 0 then s.illegal act
    else match s.cur.orphan act fun l => (s.cur.lane l).depth.toNat - 1 with
      | some j => s.trapP act 9 1 j none 0 4
      | none => match (maskLanes act).find? fun l => (t l).toNat % 4 != 0 with
        | some l => s.trapP act 4 0 0 (some l) (t l) 3
        | none =>
          let s1 := s.branch c t
          { s1 with cur := s1.cur.mapLanes act fun _ x => { x with depth := x.depth - 1 } })

/-- `EXIT` (R315, R316): in handler mode the lanes leave HMASK, and an empty HMASK returns as `TRAPRET`. -/
def execExit (c : Ctl) (s : State) : Out :=
  let act := s.act c
  .next (if act = 0 then s.advance c
    else
      let s1 := s.advance c
      let s2 := { s1 with cur := s1.cur.exitLanes act }
      let s3 := match s2.cur.arch.handler with
        | some h =>
          let h' := { h with mask := h.mask &&& ~~~ act }
          let s' := { s2 with cur := { s2.cur with arch := { s2.cur.arch with handler := some h' } } }
          if h'.mask = 0 then s'.trapReturn else s'
        | none => s2
      if s3.cur.hasExited then s3.noteExit none else s.deadlockTest s3 c)

/-- Lanes become yield-marked (R39). -/
def State.markYield (s : State) (m : Mask) : State :=
  { s with cur := { s.cur.mapLanes m (fun _ x => { x with ym := true }) with ymNew := s.cur.ymNew ||| m } }

/-- `YIELD` (R341). -/
def execYield (c : Ctl) (s : State) : Out := .next ((s.advance { c with yh := false }).markYield (s.act c))
/-- `NOP` (R341). -/
def execNop (c : Ctl) (s : State) : Out :=
  let s1 := s.advance { c with yh := false }
  .next (if c.yh then s1.markYield (s.act c) else s1)

/-! ## Rejoin sets (R49 to R54) -/

/-- Set j of the warp in focus. -/
def State.setAt (s : State) (j : SetNo) : RejoinSet := s.cur.arch.sets.getD j.toNat .empty
/-- Replace set j, then apply the release rule. -/
def State.putSet (s : State) (j : SetNo) (x : RejoinSet) : State :=
  { s with cur := Warp.releaseSets { s.cur with arch := { s.cur.arch with sets := putAt 16 .empty j.toNat x s.cur.arch.sets } } }
/-- Set j becomes `x`, whose M may have lost lanes (R46, log 56): a lane that was Parked in j and is a member no more leaves W with M and is Runnable, with wait
count 0. -/
def State.shrinkSet (s : State) (j : SetNo) (x : RejoinSet) : State :=
  let out := (s.setAt j).w &&& ~~~ x.m
  State.putSet { s with cur := { s.cur.mapLanes out (fun _ y => if y.st = .parked then { y with st := .runnable, wait := 0 } else y) with
    acted := s.cur.acted ||| out } } j (RejoinSet.norm { x with w := x.w &&& x.m })
/-- The orphaned-set fault (R54). -/
def State.orphanTrap (s : State) (act : Mask) (detail : Nat) (j : SetNo) : State := s.trapP act 9 detail j.toNat none 0 4

/-- `JENTER` and `JENTER.F` (R49, R54). -/
def enterOp (s : State) (c : Ctl) (j : SetNo) (fb : Bool) : State :=
  let act := s.act c
  let x := s.setAt j
  let dep (l : Nat) := (s.cur.lane l).depth
  let d0 := dep (lowestLane act)
  if act = 0 then s.advance c
  else if x.m = 0 then
    if fb && (maskLanes act).any fun l => dep l != d0 then s.orphanTrap act 2 j
    else (s.advance c).putSet j ⟨act, 0, fb, if fb then d0 else 0⟩
  else if fb != x.fb then s.orphanTrap act 3 j
  else if fb && (maskLanes (act &&& ~~~ x.m)).any fun l => dep l != x.d then s.orphanTrap act 2 j
  else (s.advance c).putSet j { x with m := x.m ||| act }

/-- `JENTER` (R49). -/
def execJenter (c : Ctl) (j : SetNo) (s : State) : Out := .next (enterOp s c j false)
/-- `JENTER.F` (R49). -/
def execJenterF (c : Ctl) (j : SetNo) (s : State) : Out := .next (enterOp s c j true)

/-- `JQUIT` (R49): Parked members release in the same cycle; a warp left with no live lane is in deadlock. Only in the handler of a rejoin deadlock can an
active lane be Parked in the set; it leaves Parked with its membership (log 56). -/
def execJquit (c : Ctl) (j : SetNo) (s : State) : Out :=
  let x := s.setAt j
  let s1 := s.advance c
  .next (s.deadlockTest (s1.shrinkSet j { x with m := x.m &&& ~~~ s.act c }) c)

/-- `JWAIT` (R49): active members become Parked at the next instruction. -/
def execJwait (c : Ctl) (j : SetNo) (s : State) : Out :=
  let act := s.act c
  let x := s.setAt j
  let p := act &&& x.m
  .next (if act = 0 then s.advance c
    else if s.cur.inHandler then s.barred act
    else
      let s1 := s.advance c
      let s2 := { s1 with cur := s1.cur.mapLanes p fun _ y => { y with st := .parked, wait := 0 } }
      s.deadlockTest (s2.putSet j { x with w := x.w ||| p }) c)

/-- The per-lane word of `JGET` (R52, R334): WAIT is 0 for every active lane, in the handler too. -/
def RejoinSet.word (x : RejoinSet) (l : Nat) : Word :=
  BitVec.ofNat 32 ((if x.m.getLsbD l then 2 ^ 31 else 0) + (if x.fb then 2 ^ 29 else 0) + x.d.toNat)

/-- `JGET` (R52, R334): the result is G. -/
def execJget (c : Ctl) (d : Reg) (j : SetNo) (s : State) : Out :=
  .next (s.commit c [d] [⟨d, .g (lanesOf (s.setAt j).word)⟩] [] .zero)

/-- The set after `JPUT` of an image by the active lanes (R52), or none when the image is inconsistent. -/
def RejoinSet.restore (x : RejoinSet) (act : Mask) (img : Nat → Word) : Option RejoinSet :=
  let mem := act &&& maskOf fun l => (img l).getLsbD 31
  let fbOf (l : Nat) := (img l).getLsbD 29
  let dOf (l : Nat) : BitVec 16 := (img l).setWidth 16
  let l0 := lowestLane mem
  let same := (maskLanes mem).all fun l => fbOf l == fbOf l0 && dOf l == dOf l0
  let keeps := x.m &&& ~~~ act
  let agrees := mem == 0 || keeps == 0 || (fbOf l0 == x.fb && dOf l0 == x.d)
  if same && agrees then
    let m := keeps ||| mem
    if m = 0 then some .empty
    else if x.m = 0 then some ⟨m, 0, fbOf l0, if fbOf l0 then dOf l0 else 0⟩
    else some { x with m := m }
  else none

/-- `JPUT` (R52, R334). -/
def execJput (c : Ctl) (j : SetNo) (a : Reg) (s : State) : Out :=
  let act := s.act c
  .next (if !s.cur.nameable a then s.illegal act
    else if act = 0 then s.advance c
    else match (s.setAt j).restore act (s.rd a) with
      | none => s.orphanTrap act 3 j
      | some x => s.deadlockTest ((s.advance c).shrinkSet j x) c)

/-! ## Barriers (R292 to R295) -/

/-- The barrier b of the warp in focus. -/
def State.barAt (s : State) (b : BitVec 5) : Barrier :=
  match (s.wgOf s.cur.wg).bind fun g => g.bars[b.toNat]? with
  | some x => x
  | none => ⟨0, 0, 0, 0, 0⟩
/-- The checks every `BAR` makes: b below BARS whatever the mask, no active lane, handler mode; then the effect. -/
def State.barOp (s : State) (c : Ctl) (b : BitVec 5) (k : State) : State :=
  let act := s.act c
  if b.toNat ≥ s.cur.hdr.bars then s.illegal act
  else if act = 0 then s.advance c
  else if s.cur.inHandler then s.barred act
  else { k with cur := k.cur.refetch }

/-- Active lanes become At barrier, holding the PC of the instruction for a save (R65). -/
def State.blockAtBar (s : State) (c : Ctl) (st : LaneState) : State :=
  let s1 := s.advance c
  { s1 with cur := s1.cur.mapLanes (s.act c) fun _ x => { x with st := st, wait := 0, bpc := s.ipc } }

/-- `BAR.SYNC` (R294): active lanes wait; the warp's arrival is counted at the end of the cycle in which its condition holds (R293). -/
def execBarSync (c : Ctl) (b : BitVec 5) (s : State) : Out := .next (s.barOp c b (s.blockAtBar c (.atBarrier b true none)))
/-- `BAR.ARRIVE` (R294). -/
def execBarArrive (c : Ctl) (b : BitVec 5) (s : State) : Out :=
  .next (s.barOp c b
    ((s.mapWg s.cur.wg fun g => { g with bars := updAt (fun x => (x.arrive s.cur.index).1) b.toNat g.bars }).advance c))
/-- `BAR.WAIT` (R294): lanes wait only when the warp has arrived in the current phase. -/
def execBarWait (c : Ctl) (b : BitVec 5) (s : State) : Out :=
  let x := s.barAt b
  .next (s.barOp c b (if x.arrived.getLsbD s.cur.index then s.blockAtBar c (.atBarrier b false (some x.phase)) else s.advance c))

/-! ## Traps by instruction -/

/-- `TRAP` (R365): cause 15, class C; the lanes of the split have advanced. -/
def execTrap (c : Ctl) (code : BitVec 8) (s : State) : Out :=
  let act := s.act c
  .next (if act = 0 then s.advance c
    else s.takeTrap (s.advance c) ⟨15, code.toNat, 0, none, 0, 4, act, s.split &&& s.cur.live, s.ipc, s.next c⟩)
/-- `BRK` (R304): cause 16, class P. -/
def execBrk (c : Ctl) (s : State) : Out :=
  let act := s.act c
  .next (if act = 0 then s.advance c else s.trapP act 16 0 0 none 0 4)
/-- `TRAPRET` (R366); YH marks the lanes of the handler split (R39). -/
def execTrapret (c : Ctl) (s : State) : Out :=
  let act := s.act c
  .next (if act = 0 then s.advance c
    else if s.cur.inHandler then (if c.yh then (s.markYield s.split).trapReturn else s.trapReturn)
    else s.illegal act)

end Sys2Proof.Machine
end

