-- ==== Sys2Proof/Machine/System.lean ====
section
/-! DEFINITION. Special registers, time, sleep and statistics: opcodes 0xC0 to 0xC4 (R20, R22, R25, R26, R63, R91, R92, R357 to R359, R363,
R364). -/

namespace Sys2Proof.Machine

/-! ## Work identifiers (R25, R26) -/

/-- The mixed-radix digits of a cluster index, placed from field `i` up (R25): `k` fields are left. -/
def Header.clusterBits (h : Header) : Nat → Nat → Nat → Nat
  | 0, _, _ => 0
  | k + 1, i, q =>
    let o := h.sumWidth 0 i
    let e := bitsAt h.glim.toNat o (h.width i) + 1
    q % e * 2 ^ o + h.clusterBits k (i + 1) (q / e)

/-- The work identifier of linear index n in the workgroup of a rank in a cluster (R25). -/
def Header.workId (h : Header) (n rank cluster : Nat) : Nat :=
  let S := h.sumWidth 0 h.wgcut
  n % 2 ^ S + rank * 2 ^ S + h.clusterBits (6 - h.clcut) h.clcut cluster

/-- The work identifier of lane l of the warp in focus. -/
def State.widOf (s : State) (l : Nat) : Nat :=
  let g := s.wgOf s.cur.wg
  s.cur.hdr.workId (128 * s.cur.index + l) ((g.map (·.rank)).getD 0) ((g.map (·.cluster)).getD 0)

/-! ## Array capability words (R20, R22) -/

/-- The mode as an `AMODE` that has not taken effect shows it to its own warp: at least the state it enters (R22). -/
def modeAhead (m : BitVec 2) (compute : Bool) : BitVec 2 :=
  if compute then (if m == 0 || m == 3 then 2 else m) else if m == 1 || m == 2 then 3 else m

/-- The mode a warp sees (R22, R279): its own earlier `AMODE`s, those the array has accepted and those on their way, count at least as far as the entering
state. -/
def State.seenMode (s : State) (a : ArrayRec) : BitVec 2 :=
  let accepted := a.queue.filterMap fun q => match q with | .mode compute uid => if uid = s.cur.uid then some compute else none | _ => none
  let coming := s.reqs.filterMap fun r => match r.kind with
    | .amode ts compute => if r.uid = s.cur.uid && r.core == a.core && ts.contains a.phys then some compute else none
    | _ => none
  (accepted ++ coming).foldl modeAhead a.mode

/-- `%acapj` (R20). -/
def State.acap (s : State) (j : Nat) : Word :=
  match (s.wgOf s.cur.wg).bind fun g => (g.arrays[j]?).bind fun p => s.arrayOf g.core p with
  | some a => BitVec.ofNat 32 (2 ^ 31 + (s.seenMode a).toNat * 2 ^ 29 + a.phys * 2 ^ 8 + a.usable)
  | none => 0

/-! ## SREAD and SWRITE -/

/-- A 64-bit special register as two register writes. -/
def sreadPair (d : Reg) (lo hi : VReg) : List RegWrite := [⟨d, lo⟩, ⟨d + 1, hi⟩]

/-- A U value of 64 bits. -/
def sreadU (d : Reg) (x : DWord) : List RegWrite := sreadPair d (.u (loWord x)) (.u (hiWord x))

/-- The low word of an identifier field: U, A with stride 1, or G (R63). -/
def fieldLow (u a : Bool) (f : Nat → Nat) : VReg :=
  if u then .u (BitVec.ofNat 32 (f 0)) else if a then .a (BitVec.ofNat 32 (f 0)) 1 else .g (lanesOf fun l => BitVec.ofNat 32 (f l))

/-- What `SREAD` writes (R63, R358), or none for a number that is not listed. A task reads 0 as identifier (R181). -/
def State.special (s : State) (d : Reg) (n : Nat) : Option (List RegWrite) :=
  let w := s.cur
  let h := w.hdr
  if n = 0 then some [⟨d, .a 0 1⟩]
  else if n = 1 then some [⟨d, .u (if w.task.isSome then 0 else BitVec.ofNat 32 w.index)⟩]
  else if n = 2 then
    some (if w.task.isSome then sreadU d 0
      else sreadPair d (fieldLow false (decide (7 ≤ h.sumWidth 0 h.wgcut)) s.widOf) (.u (BitVec.ofNat 32 (s.widOf 0 / 2 ^ 32))))
  else if n = 3 then some [⟨d, .u (BitVec.ofNat 32 w.core)⟩]
  else if n = 4 then some [⟨d, .u (BitVec.ofNat 32 (clusterOfCore w.core))⟩]
  else if n = 5 then some [⟨d, .u (w.ctx.setWidth 32)⟩]
  else if n = 6 then some (sreadU d s.ipc)
  else if n = 7 then some [⟨d, .g (lanesOf fun l => (w.lane l).depth.setWidth 32)⟩]
  else if n = 8 then some (sreadU d (BitVec.ofNat 64 s.myTide))
  else if n = 9 then some (sreadU d w.argp)
  else if 0x10 ≤ n ∧ n ≤ 0x15 then
    let i := n - 0x10
    let o := h.sumWidth 0 i
    let f (l : Nat) : Nat := bitsAt (s.widOf l) o (h.width i)
    some (if w.task.isSome then sreadU d 0
      else sreadPair d (fieldLow (decide (h.wgcut ≤ i) || decide (7 ≤ o)) (o == 0 && decide (7 ≤ h.width i)) f)
        (.u (BitVec.ofNat 32 (f 0 / 2 ^ 32))))
  else if 0x20 ≤ n ∧ n ≤ 0x3F then some [⟨d, .u (s.acap (n - 0x20))⟩]
  else none

/-- `SREAD` (R63, R358). -/
def execSread (c : Ctl) (d : Reg) (n : BitVec 8) (s : State) : Out :=
  .next (match s.special d n.toNat with
    | some ws => s.commit c (ws.map (·.reg)) ws [] .zero
    | none => s.illegal (s.act c))

/-- `SWRITE %depth` (R359). -/
def execSwrite (c : Ctl) (a : Reg) (s : State) : Out :=
  let act := s.act c
  .next (if !s.cur.nameable a then s.illegal act
    else if act = 0 then s.advance c
    else if (maskLanes act).any fun l => decide (65535 < (s.rd a l).toNat) then s.illegal act
    else match s.cur.orphan act fun l => (s.rd a l).toNat with
      | some j => s.trapP act 9 1 j none 0 4
      | none =>
        let s1 := s.advance c
        { s1 with cur := s1.cur.mapLanes act fun l x => { x with depth := (s.rd a l).setWidth 16 } })

/-! ## TIME and SLEEP -/

/-- `TIME` (R364). -/
def execTime (c : Ctl) (d : Reg) (s : State) : Out :=
  .next (s.commit c (pairRegs d) (sreadU d (BitVec.ofNat 64 s.myTide)) [] .zero)
/-- `TIME.CC` (R364). -/
def execTimeCc (c : Ctl) (d : Reg) (s : State) : Out :=
  .next (s.commit c (pairRegs d) (sreadU d (BitVec.ofNat 64 (s.ccOf (dieOfCore s.cur.core)))) [] .zero)

/-- `SLEEP` until the wake times `w` (R357): lanes whose time lies ahead become Sleeping; in handler mode the handler split blocks until the
latest of them (R233). -/
def State.sleepOp (s : State) (c : Ctl) (names : List Reg) (w : Nat → Nat) : State :=
  let act := s.act c
  let late := act &&& maskOf fun l => decide (s.myTide < w l)
  let s1 := s.advance c
  if !names.all s.cur.nameable then s.illegal act
  else if late = 0 then s1
  else match s1.cur.arch.handler with
    | some h =>
      let wake := (maskLanes late).foldl (fun t l => max t (w l)) 0
      { s1 with cur := { s1.cur with arch := { s1.cur.arch with handler := some { h with blk := some (.sleep wake) } } } }
    | none =>
      { s1 with cur := s1.cur.mapLanes late fun l x => { x with st := .sleeping (w l), wait := 0, bpc := s.ipc } }

/-- `SLEEP #n` (R357). -/
def execSleep (c : Ctl) (n : Word) (s : State) : Out := .next (s.sleepOp c [] fun _ => s.myTide + n.toNat)
/-- `SLEEP vA` (R357). -/
def execSleepRegister (c : Ctl) (a : Reg) (s : State) : Out := .next (s.sleepOp c [a] fun l => s.myTide + (s.rd a l).toNat)
/-- `SLEEP.ABS` (R357). -/
def execSleepAbs (c : Ctl) (a : Reg) (s : State) : Out := .next (s.sleepOp c (pairRegs a) fun l => (s.rdPair a l).toNat)

/-! ## Statistics (R90 to R92, R363) -/

/-- Who makes a statistics addition: context, agent class, translation unit, die, and what a fault-log record names. -/
structure StatBy where
  ctx : BitVec 3
  cls : Nat
  unit : Nat
  die : Nat
  core : Nat
  pos : Nat
  handle : DWord
deriving DecidableEq, Repr

/-- One 4-byte saturating addition at the home of its word (R91), or a record of kind 7 when it is dropped (R92); none for a context that has no translation (R213). -/
def State.statAdd (s : State) (b : StatBy) (va n : Nat) : State :=
  let drop (cause detail : Nat) : State :=
    s.logRecord ⟨s.tideOf b.die, 7, cause, detail, 0, b.core, b.pos, 0, 0, BitVec.ofNat 64 va, b.handle, b.ctx.toNat, b.cls, 0⟩
  match s.xlate b.unit b.ctx va with
  | .bad d _ => if s.translates b.ctx then drop 2 d else s
  | .ok pa e =>
    if !leafRead e || !leafWrite e then drop 3 1
    else if !s.grantedAll b.ctx.toNat b.cls pa 4 false || !s.grantedAll b.ctx.toNat b.cls pa 4 true then drop 3 4
    else if s.mem.poisoned pa 4 then drop 17 1
    else
      let r := s.homeRead pa 4
      let s1 := r.2.homeWrite pa (bytesLE 4 (satAdd 32 (numLE r.1) n))
      { s1 with mem := { s1.mem with addTimes := raiseTime b.ctx.toNat (s.devTime pa) s1.mem.addTimes } }

/-- The words and counts of statistics rows at an area (R90). -/
def statWords (statp : Nat) (rows : List StatRow) : List (Nat × Nat) :=
  (rows.flatMap fun r => [(statp + 16 * r.tid, r.nsat), (statp + 16 * r.tid + 4, r.nftz), (statp + 16 * r.tid + 8, r.nnan),
    (statp + 16 * r.tid + 12, r.nmrg)]).filter fun p => p.2 != 0

/-- `STAT` (R363): the counters `hit` names are taken and zeroed; their additions go out as stores of the warp. -/
def State.statOp (s : State) (c : Ctl) (hit : StatRow → Bool) : State :=
  if s.act c = 0 then s.advance c
  else
    let rows := (((s.wgOf s.cur.wg).map (·.stats)).getD []).filter hit
    let words := statWords s.cur.hdr.statp.toNat rows
    let s1 := s.advance c
    if s.cur.hdr.statp = 0 || words.isEmpty then s1
    else
      let s2 := s1.mapWg s.cur.wg fun g => { g with stats := g.stats.filter fun r => !hit r }
      let w := s.cur
      { s2 with
        nextId := s.nextId + 1
        reqs := s2.reqs ++ [⟨s.nextId, w.uid, w.core, w.pos, w.ctx, w.wg, tidOf c, s.ipc, s.next c, s.act c, s.split, w.live,
          .stat words w.hdr.statp.toNat, true, false, false, false, none, w.inHandler, s.dueFrom (dieOfCore w.core), false⟩] }

/-- `STAT` of every identifier (R363). -/
def execStat (c : Ctl) (s : State) : Out := .next (s.statOp c fun _ => true)
/-- `STAT` of one identifier (R363). -/
def execStatOne (c : Ctl) (t : BitVec 6) (s : State) : Out := .next (s.statOp c fun r => r.tid == t.toNat)

end Sys2Proof.Machine
end

