-- ==== Sys2Proof/Machine/CopyLayout.lean ====
section
/-! DEFINITION. Tensor layout records: fields, rules and addresses (R152 to R156), and the scales of a block-scaled tensor (R154). -/

namespace Sys2Proof.Machine

/-- The n-byte field at an offset of a record. -/
def fieldAt (bs : List Byte) (off n : Nat) : Nat := numLE ((bs.drop off).take n)

/-- A layout record as it is read (R152): extents, strides (of dimensions 1 to 4) and box extents as lists, CTRL and PEER taken apart. -/
structure Layout where
  tbase : Nat
  ext : List Nat
  sfmt : Nat
  dfmt : Nat
  rank : Nat
  dir : Nat
  oob : Nat
  swz : Nat
  rnd : BitVec 2
  sat : Bool
  fzi : Bool
  fzo : Bool
  group : Nat
  strides : List Nat
  box : List Nat
  fill : Nat
  scbase : Nat
  dpitch : Nat
  port : Nat
  part : Nat
  pctx : BitVec 3
deriving DecidableEq, Repr

/-- The fields of the 128 bytes of a record. -/
def layoutOf (bs : List Byte) : Layout :=
  let ctrl := fieldAt bs 0x1C 4
  let peer := fieldAt bs 0x60 8
  { tbase := fieldAt bs 0 8
    ext := (List.range 5).map fun i => fieldAt bs (8 + 4 * i) 4
    sfmt := bitsAt ctrl 28 4
    dfmt := bitsAt ctrl 24 4
    rank := bitsAt ctrl 21 3
    dir := bitsAt ctrl 18 3
    oob := bitsAt ctrl 16 2
    swz := bitsAt ctrl 13 3
    rnd := BitVec.ofNat 2 (bitsAt ctrl 11 2)
    sat := bitAt ctrl 10
    fzi := bitAt ctrl 9
    fzo := bitAt ctrl 8
    group := 32 * 2 ^ bitsAt ctrl 6 2
    strides := (List.range 4).map fun i => fieldAt bs (0x20 + 8 * i) 8
    box := (List.range 5).map fun i => fieldAt bs (0x40 + 2 * i) 2
    fill := fieldAt bs 0x4C 4
    scbase := fieldAt bs 0x50 8
    dpitch := fieldAt bs 0x58 4
    port := bitsAt peer 0 3
    part := bitsAt peer 16 16
    pctx := BitVec.ofNat 3 (bitsAt peer 32 3) }

/-- Bytes of an element of a format code (R153). -/
def formatBytes (fmt : Nat) : Nat := match fmt with
  | 0 => 4
  | 8 => 4
  | 9 => 4
  | 1 => 2
  | 2 => 2
  | _ => 1

/-- True when the tensor is read: DIR 0, 2 and 4. -/
def Layout.reads (L : Layout) : Bool := L.dir % 2 == 0
/-- True when the dense side is scratchpad: DIR 0 and 1. -/
def Layout.spad (L : Layout) : Bool := decide (L.dir < 2)
/-- The format of the tensor side. -/
def Layout.tensorFmt (L : Layout) : Nat := if L.reads then L.sfmt else L.dfmt
/-- The format of the dense side. -/
def Layout.denseFmt (L : Layout) : Nat := if L.reads then L.dfmt else L.sfmt
/-- The elements of the box. -/
def Layout.count (L : Layout) : Nat := L.box.foldl (· * ·) 1
/-- Box extent i. -/
def Layout.boxAt (L : Layout) (i : Nat) : Nat := L.box.getD i 1
/-- Extent i. -/
def Layout.extAt (L : Layout) (i : Nat) : Nat := L.ext.getD i 0
/-- True of a format code only array-native records may name (R156). -/
def nativeFmt (fmt : Nat) : Bool := fmt == 11 || fmt == 12
/-- True of an integer format of `BCOPYR` (R162). -/
def intFmt (fmt : Nat) : Bool := fmt == 8 || fmt == 9

/-- What an entry brings from its instruction to the rules (R156, R162): the reducing operation, the origin, the C operand and its width, and
the arrays of the workgroup. -/
structure CopyOperands where
  rop : Option (BitVec 3)
  org : List Int
  dense : Nat
  wide : Bool
  arrays : Nat
deriving DecidableEq, Repr

/-- The broken rules of a record, each with the lowest offset of the fields it names (R156, log 20): rules of every record. -/
def Layout.generalRules (L : Layout) (bs : List Byte) (o : CopyOperands) : List (Bool × Nat) :=
  let ctrl := 0x1C
  let esize := formatBytes L.tensorFmt
  let esize' := formatBytes L.denseFmt
  [ (fieldAt bs 0x4A 2 != 0, 0x4A), (fieldAt bs 0x5C 4 != 0, 0x5C), (((bs.drop 0x68).take 24).any (· != 0), 0x68),
    (bitsAt (fieldAt bs ctrl 4) 0 6 != 0, ctrl), (L.rank == 0 || decide (5 < L.rank), ctrl), (decide (4 < L.dir), ctrl),
    (L.oob == 3, ctrl), (decide (3 < L.swz), ctrl), (decide (12 < max L.sfmt L.dfmt), ctrl),
    (L.swz != 3 && (nativeFmt L.sfmt || nativeFmt L.dfmt), ctrl),
    (L.oob == 1 && (floatOfCode L.dfmt).isNone, ctrl),
    ((L.dfmt == 6 || L.dfmt == 7) && L.rnd != 0, ctrl),
    (bitsAt (fieldAt bs 0x60 8) 3 13 != 0 || bitsAt (fieldAt bs 0x60 8) 35 29 != 0, 0x60),
    (L.dir != 4 && fieldAt bs 0x60 8 != 0, ctrl),
    (o.wide != decide (2 ≤ L.dir), ctrl),
    (decide (2 ^ 24 < L.count), 0x40),
    (L.dpitch % esize' != 0, 0x58), (decide (L.dpitch < L.boxAt 0 * esize'), 0x40),
    ((L.swz == 1 || L.swz == 2) && (L.dpitch % (128 * L.swz) != 0 || o.dense % (128 * L.swz) != 0), ctrl),
    (L.scbase != 0 && !(decide (3 ≤ L.tensorFmt) && decide (L.tensorFmt ≤ 7)), ctrl),
    (L.scbase != 0 && (L.boxAt 0 % 32 != 0 || o.org.getD 0 0 % 32 != 0), 0x40) ]
  ++ (List.range 5).map (fun i => (decide (i < L.rank) && L.extAt i == 0, 8 + 4 * i))
  ++ (List.range 5).map (fun i => (if i < L.rank then L.boxAt i == 0 else L.boxAt i != 1, ctrl))
  ++ (List.range 4).map (fun i => (L.strides.getD i 0 % esize != 0, 0x20 + 8 * i))

/-- The rules of an array-native record (R155) and of a reducing entry (R162). -/
def Layout.specialRules (L : Layout) (o : CopyOperands) : List (Bool × Nat) :=
  let native := L.swz == 3
  [ (native && !(L.dir == 0 && decide (L.sfmt < 2) && nativeFmt L.dfmt && decide (2 ≤ L.rank)), 0x1C),
    (native && L.boxAt 0 != (if L.dfmt == 12 then 64 else 48), 0x1C),
    (native && L.boxAt 1 % L.group != 0, 0x1C),
    (native && decide (256 < L.boxAt 1), 0x42),
    (native && L.boxAt 2 != 1, 0x44), (native && L.boxAt 3 != 1, 0x46), (native && L.boxAt 4 != 1, 0x48),
    (native && (o.dense % 12288 != 0 || decide (o.arrays ≤ o.dense / 12288)), 0x80),
    (match o.rop with
      | none => false
      | some r => !((L.dir == 1 || L.dir == 3) && (decide (L.dfmt < 3) || intFmt L.dfmt)) || (decide (3 ≤ r.toNat) && !intFmt L.dfmt), 0x1C) ]

/-- The lowest offset of a field that breaks a rule (R156); none of a valid record. -/
def Layout.offence (L : Layout) (bs : List Byte) (o : CopyOperands) : Option Nat :=
  ((L.generalRules bs o ++ L.specialRules o).filter (·.1)).foldl (fun m x => some (match m with | some y => min y x.2 | none => x.2)) none

/-! ## Elements (R153) -/

/-- The box indices of the element with linear index n, b_0 fastest. -/
def Layout.boxIndex (L : Layout) (n : Nat) : List Nat :=
  let b0 := L.boxAt 0
  let b1 := L.boxAt 1
  let b2 := L.boxAt 2
  let b3 := L.boxAt 3
  [n % b0, n / b0 % b1, n / b0 / b1 % b2, n / b0 / b1 / b2 % b3, n / b0 / b1 / b2 / b3]

/-- The tensor element of box element n. -/
def Layout.element (L : Layout) (org : List Int) (n : Nat) : List Int :=
  (List.range 5).map fun i => org.getD i 0 + (((L.boxIndex n).getD i 0 : Nat) : Int)

/-- In bounds. -/
def Layout.inBounds (L : Layout) (c : List Int) : Bool :=
  (List.range L.rank).all fun i => decide (0 ≤ c.getD i 0) && decide (c.getD i 0 < (L.extAt i : Nat))

/-- The tensor address of an element, modulo 2^64. -/
def Layout.tensorAddr (L : Layout) (c : List Int) : Nat :=
  wrapInt 64 ((List.range 4).foldl (fun (t : Int) i => t + c.getD (i + 1) 0 * (L.strides.getD i 0 : Nat))
    ((L.tbase : Nat) + c.getD 0 0 * (formatBytes L.tensorFmt : Nat)))

/-- The swizzled dense offset of box element n. -/
def Layout.denseOff (L : Layout) (n : Nat) : Nat :=
  let b := L.boxIndex n
  let g (i : Nat) : Nat := b.getD i 0
  let off := g 0 * formatBytes L.denseFmt
    + L.dpitch * (g 1 + L.boxAt 1 * (g 2 + L.boxAt 2 * (g 3 + L.boxAt 3 * g 4)))
  match L.swz with
  | 1 => Nat.xor off (bitsAt off 7 3 * 16)
  | 2 => Nat.xor off (bitsAt off 8 4 * 16)
  | _ => off

/-- The dense address of box element n: 32 bits in scratchpad, else 64. -/
def Layout.denseAddr (L : Layout) (dense n : Nat) : Nat := (dense + L.denseOff n) % (if L.spad then 2 ^ 32 else 2 ^ 64)

/-- The address of the scale of an element (R154). -/
def Layout.scaleAddr (L : Layout) (c : List Int) : Nat :=
  let g (i : Nat) : Int := c.getD i 0
  let e (i : Nat) : Int := (L.extAt i : Nat)
  wrapInt 64 ((L.scbase : Nat) + g 0 / 32 + ((e 0 + 31) / 32) * (g 1 + e 1 * (g 2 + e 2 * (g 3 + e 3 * g 4))))

/-! ## Conversion (R154) -/

/-- A value times 2^k, exactly. -/
def Ext.scale (k : Int) : Ext → Ext
  | .num n m e => .num n m (e + k)
  | x => x

/-- The conversion of one element: the bytes unchanged when the formats agree and no scale is in use (R154), bits [7:6] of a T6 byte too, where R68 would have zeros: the model
follows R154 (log 74). -/
def Layout.convert (L : Layout) (x : Nat) : Nat × Counts :=
  if L.sfmt = L.dfmt && L.scbase == 0 then (x, .zero) else cvtBits L.sfmt L.dfmt L.rnd L.sat L.fzi L.fzo x

/-- The conversion of an element read under scale code s; what FZI flushes on the way into E8M0 is not counted (R87). -/
def Layout.convertScaled (L : Layout) (s x : Nat) : Nat × Counts :=
  let v := cvtDecode L.sfmt L.fzi x
  let r := cvtEncode L.dfmt L.rnd L.sat L.fzo (if s = 255 then .nan else Ext.scale ((s : Int) - 127) v.1)
  (r.1, if L.dfmt = 10 then r.2 else v.2.add r.2)

/-- The value an out-of-bounds element delivers (R153), or none when the destination stays as it is. -/
def Layout.outside (L : Layout) : Option (Nat × Counts) :=
  match L.oob with
  | 0 => some (L.convert (if L.sfmt = 7 then L.fill % 64 else L.fill % 2 ^ (8 * formatBytes L.sfmt)))
  | 1 => some ((match floatOfCode L.dfmt with | some f => f.nanCode | none => 0), .zero)
  | _ => none

/-- emax of a scaled format (R154). -/
def scaleEmax (fmt : Nat) : Int := match fmt with
  | 3 => 8
  | 4 => 15
  | 5 => 6
  | 6 => 12
  | _ => 8

/-- The scale of a block that is written (R154): of the exact values of its in-bounds elements. R154 states none for a block that holds a NaN or an
infinity: `free` stands for it. -/
def blockScale (fmt : Nat) (free : Byte) (vs : List Ext) : Nat :=
  if vs.any fun v => match v with | .num _ _ _ => false | _ => true then free.toNat
  else
    let es : List Int := vs.filterMap fun v => match v with
      | .num _ m e => if m = 0 then none else some (log2Mag m e)
      | _ => none
    match es with
    | [] => 0
    | e :: rest => (max 0 (min 254 (rest.foldl max e - scaleEmax fmt + 127))).toNat

/-- An element written under scale code s. -/
def Layout.encodeScaled (L : Layout) (s : Nat) (v : Ext) : Nat × Counts :=
  cvtEncode L.dfmt L.rnd L.sat L.fzo (Ext.scale (127 - (s : Int)) v)

end Sys2Proof.Machine
end

