-- ==== Sys2Proof/Machine/Copies.lean ====
section
/-! DEFINITION. Copy queues and the copy instructions: opcodes 0x80 to 0x83 (R150, R151, R157 to R161, R297, R347, R368). -/

namespace Sys2Proof.Machine

/-! ## Queues -/

/-- The state of a queue; an unused queue is unbound (R151). -/
def State.queueRec (s : State) (q : Nat) : QueueRec := (getKey QueueRec.q q s.copy.queues).getD ⟨q, false, 0, false, false, 0, 0⟩
/-- Put the state of a queue. -/
def State.putQueueRec (s : State) (x : QueueRec) : State := { s with copy := { s.copy with queues := putKey QueueRec.q x s.copy.queues } }
/-- True of a queue bound to a context. -/
def State.boundTo (s : State) (q : Nat) (ctx : BitVec 3) : Bool := (s.queueRec q).bound && (s.queueRec q).ctx == ctx
/-- The entries a queue has accepted and not completed, the oldest first (R150). -/
def State.queued (s : State) (q : Nat) : List CopyEntry := s.copy.entries.filter fun e => e.q == q && e.acc != 0
/-- DEPTH (R151). -/
def State.depth (s : State) (q : Nat) : Nat := (s.queued q).length
/-- The entry with a number. -/
def State.entryOf (s : State) (id : Nat) : Option CopyEntry := s.copy.entries.find? fun e => e.id == id
/-- Apply `f` to the entry with a number. -/
def State.mapEntry (s : State) (id : Nat) (f : CopyEntry → CopyEntry) : State :=
  { s with copy := { s.copy with entries := updWhere (fun e => e.id == id) f s.copy.entries } }
/-- An entry is gone. -/
def State.dropEntry (s : State) (id : Nat) : State := { s with copy := { s.copy with entries := s.copy.entries.filter fun e => e.id != id } }

/-! ## Tokens (R159) -/

/-- A warp that a switch has stopped or saved: what is written to it asynchronously is held (R220). -/
def State.frozen (s : State) (uid : Nat) : Bool :=
  (match s.ctl.switch with | some w => w.stopped.contains uid | none => false) || s.ctl.saved.any fun c => c.warps.any fun w => w.uid == uid

/-- Write a word into lanes of a token register of a warp, in its state and its checkpoints; a warp that has exited takes none (R41), and one that is
stopped or saved takes it at switch-in. -/
def State.writeToken (s : State) (uid ins : Nat) (hdl : Bool) (tok : Reg) (m : Mask) (x : Word) : State :=
  if s.frozen uid then { s with ctl := { s.ctl with heldWrites := s.ctl.heldWrites ++ [⟨uid, ins, hdl, tok, m, x⟩] } }
  else s.mapWarp uid fun w =>
    if w.hasExited then w else w.mapArchFrom ins fun a => a.writeAs hdl w.live m ⟨tok, .g (List.replicate laneCount x)⟩

/-- Apply `f` to the workgroup with a key, placed or saved. -/
def State.mapWgAny (s : State) (key : Nat) (f : Workgroup → Workgroup) : State :=
  let s1 := s.mapWg key f
  { s1 with ctl := { s1.ctl with saved := s1.ctl.saved.map fun c => { c with wgs := updWhere (fun g => g.key == key) f c.wgs } } }

/-- The mask of one lane. -/
def laneMask (l : Nat) : Mask := (1 : Mask) <<< l

/-- A status word (R159). -/
def statusWord (status detail : Nat) : Word := BitVec.ofNat 32 (status * 2 ^ 28 + detail % 2 ^ 24)

/-- The token of instruction `ins` is pending until its last entry has written. -/
def State.settleToken (s : State) (uid ins : Nat) : State :=
  if (s.copy.entries.any fun e => e.ins == ins) || s.frozen uid then s
  else s.mapWarp uid fun w => { w with pends := w.pends.filter fun p => p.id != ins }

/-! ## Issue (R157, R158) -/

/-- What the three entry instructions share: kind, origin, dense operand. -/
structure CopyForm where
  kind : CopyKind
  org : Nat → List Int
  dense : Nat → DWord

/-- The token register becomes G, its lanes as they were (R159). -/
def State.bindToken (s : State) (t : Reg) (id : Nat) : State :=
  let w := s.cur
  { s with cur := { w with
      arch := w.arch.writeAs w.inHandler w.live 0 ⟨t, .g []⟩
      pends := w.pends ++ [⟨id, [t], [], true, none, false, w.inHandler⟩] } }

/-- `BCOPY`, `BCOPYR` and `XRED` (R157, R158, R297): the precise checks, then one entry per active lane is offered to the queue. The split is held
while an entry of it waits; acceptance is COPY_ENTRY_ACCEPT. -/
def copyOp (s : State) (c : Ctl) (m : CMod) (names : List Reg) (t a : Reg) (f : CopyForm) : State :=
  let act := s.act c
  let w := s.cur
  let rec_ (l : Nat) : DWord := s.rdPair a l
  if !(t :: names ++ pairRegs a).all w.nameable || decide (w.hdr.bars ≤ m.bar.toNat) then s.illegal act
  else if act = 0 then s.advance c
  else match w.overflow act [⟨t, .g []⟩] with
    | some r => s.trapP act 8 0 r.toNat none 0 4
    | none => match misaligned act 128 fun l => (rec_ l).toNat with
      | some l => s.trapP act 4 0 0 (some l) (rec_ l) 4
      | none =>
        if !s.boundTo m.queue.toNat w.ctx then s.trapP act 3 5 0 none 0 4
        else
          let ins := s.nextId
          let ls := maskLanes act
          let rel := if m.ord.getLsbD 1 then m.scope.toNat else 0
          let k : Option Nat × State :=
            if m.ord.getLsbD 1 then (let k := State.newCond { s with nextId := ins + 1 + ls.length } m.scope.toNat; (some k.1, k.2))
            else (none, { s with nextId := ins + 1 + ls.length })
          let entry (i : Nat) : CopyEntry :=
            let l := ls.getD i 0
            { id := ins + 1 + i, ins := ins, acc := 0, q := m.queue.toNat, kind := f.kind, uid := w.uid, core := w.core, wg := w.wg, ctx := w.ctx
              tid := tidOf c, statp := w.hdr.statp, addr := rec_ l, org := f.org l, dense := f.dense l, wide := m.wide, ch := m.ch, tok := t
              lane := l, bar := if m.barv then some m.bar else none, cond := k.1, phase := .waiting, seq := 0, next := 0, status := 0, detail := 0
              time := s.tideOf (dieOfCore w.core) + (if m.queue.toNat / 64 = dieOfCore w.core then 0 else 8), hdl := w.inHandler, rec' := [], cnt := .zero, cols := [], rel := rel }
          let s1 := k.2.bindToken t ins
          let s2 : State := { s1 with
            copy := { s1.copy with entries := s1.copy.entries ++ (List.range ls.length).map entry }
            cur := { s1.cur with holds := s1.cur.holds ++ [⟨s.split, .queue ins⟩] } }
          s2.advance c

/-- The signed coordinates of lane l (R158). -/
def State.coords (s : State) (b : Reg) (n l : Nat) : List Int :=
  (List.range 5).map fun i => if i < n then signedVal 32 (s.rd (b + BitVec.ofNat 6 i) l).toNat else 0

/-- The dense operand of lane l (R158). -/
def State.denseOf (s : State) (wide : Bool) (e : Reg) (l : Nat) : DWord := if wide then s.rdPair e l else (s.rd e l).setWidth 64

/-- The registers a box copy names beside its token and record. -/
def CMod.names (m : Sys2Proof.CMod) (b e : Reg) : List Reg := regBlock b m.nc.toNat ++ (if m.wide then pairRegs e else [e])

/-- `BCOPY` (R157, R158, R297). -/
def execBcopy (c : Ctl) (m : CMod) (t a b e : Reg) (s : State) : Out :=
  .next (copyOp s c m (CMod.names m b e) t a ⟨.copy, s.coords b m.nc.toNat, s.denseOf m.wide e⟩)

/-- `BCOPYR` (R157, R158, R162, R297). -/
def execBcopyr (c : Ctl) (m : CMod) (rop : BitVec 3) (t a b e : Reg) (s : State) : Out :=
  .next (copyOp s c m (CMod.names m b e) t a ⟨.reduce rop, s.coords b m.nc.toNat, s.denseOf m.wide e⟩)

/-- `XRED` (R157, R158, R165, R368). -/
def execXred (c : Ctl) (m : CMod) (t a : Reg) (s : State) : Out :=
  .next (copyOp s c m [] t a ⟨.xred, fun _ => [], fun _ => 0⟩)

/-- The queues a `QFENCE` names (R161). -/
def fenceQueues (base : BitVec 9) (mask : BitVec 8) : List Nat :=
  ((List.range 8).filter fun i => mask.getLsbD i).map fun i => (base.toNat + i) % 512

/-- `QFENCE` (R161, R347): a marker on each named queue. -/
def execQfence (c : Ctl) (_ch : BitVec 2) (t : Reg) (base : BitVec 9) (mask : BitVec 8) (s : State) : Out :=
  let act := s.act c
  let w := s.cur
  let qs := fenceQueues base mask
  .next (if !w.nameable t then s.illegal act
    else if act = 0 then s.advance c
    else match w.overflow act [⟨t, .g []⟩] with
      | some r => s.trapP act 8 0 r.toNat none 0 4
      | none =>
        if !(qs.all fun q => s.boundTo q w.ctx) then s.trapP act 3 5 0 none 0 4
        else if qs.isEmpty then s.commit c [t] [⟨t, .g (List.replicate laneCount 0)⟩] [] .zero
        else
          let id := s.nextId
          let marker (i : Nat) : CopyEntry :=
            { id := id + 1 + i, ins := id, acc := id + 1 + i, q := qs.getD i 0, kind := .marker id, uid := w.uid, core := w.core, wg := w.wg
              ctx := w.ctx, tid := 0, statp := 0, addr := 0, org := [], dense := 0, wide := false, ch := 0, tok := t, lane := 0, bar := none
              cond := none, phase := .waiting, seq := 0, next := 0, status := 0, detail := 0, time := 0, hdl := w.inHandler, rec' := []
              cnt := .zero, cols := [], rel := 0 }
          let s1 := State.bindToken { s with nextId := id + 1 + qs.length } t id
          let s2 : State := { s1 with copy := { s1.copy with
            entries := s1.copy.entries ++ (List.range qs.length).map marker
            joins := s1.copy.joins ++ [⟨id, w.uid, t, act, w.ctx, qs, id + 1, w.inHandler⟩] } }
          s2.advance c)

end Sys2Proof.Machine
end

