-- ==== Sys2Proof/Machine/Requests.lean ====
section
/-! DEFINITION. Requests in flight: finding, checking, failing and dropping one, and the order in which a warp's accesses reach an array (R99,
R225 to R229). -/

namespace Sys2Proof.Machine

/-- The request with a number. -/
def State.reqOf (s : State) (id : Nat) : Option Req := s.reqs.find? fun r => r.id == id
/-- Apply `f` to the request with a number. -/
def State.mapReq (s : State) (id : Nat) (f : Req → Req) : State := { s with reqs := updWhere (fun r => r.id == id) f s.reqs }
/-- A request is done. -/
def State.dropReq (s : State) (id : Nat) : State := { s with reqs := s.reqs.filter fun r => r.id != id }

/-- The checkpoint of request `id` is no longer needed. -/
def Warp.dropSnap (w : Warp) (id : Nat) : Warp := { w with snaps := w.snaps.filter fun p => p.1 != id }
/-- The registers and predicates request `id` was to write are written. -/
def Warp.dropPend (w : Warp) (id : Nat) : Warp := { w with pends := w.pends.filter fun p => p.id != id }

/-- True of a store, atomic or reduction: what R228 holds back until what came before it is checked. -/
def Req.isWrite (r : Req) : Bool := match r.kind with
  | .mem m => (match m.op with | .load _ => false | _ => true)
  | _ => false

/-- A request is checked (R227). The writes of its warp behind it, and its own, may leave the core from now on (R228, R135). -/
def State.checkReq (s : State) (id : Nat) : State :=
  match s.reqOf id with
  | some r =>
    let s1 : State := { s with reqs := s.reqs.map fun x =>
      if x.uid == r.uid && decide (id ≤ x.id) && x.isWrite then { x with due := s.dueFrom (dieOfCore x.core) } else x }
    (s1.mapReq id fun r => { r with checked := true }).mapWarp r.uid fun w => w.dropSnap id
  | none => s

/-- A request fails with a class-P cause (R225, R229): FAULT_ROLLBACK takes it once every older access is checked. -/
def State.failReq (s : State) (id : Nat) (cause detail aux : Nat) (lane : Option Nat) (addr : DWord) (acc : Nat) : State :=
  s.mapReq id fun r => { r with fault := some ⟨cause, detail, aux, lane, addr, acc, r.act, r.split, r.pc, r.pc⟩ }

/-- A request touches an array (R99): a scratchpad access to it, or an `AMODE`, `ACFG` or `AXM` that names it. -/
def Req.touches (r : Req) (core phys : Nat) : Bool := match r.kind with
  | .mem m => m.space == .spad && m.lanes.any fun x => cellArray x.pa == (core, phys)
  | .acfg p _ _ _ => r.core == core && p == phys
  | .amode ts _ => r.core == core && ts.contains phys
  | .axm p _ _ => r.core == core && p == phys
  | _ => false

/-- Accesses leave the queues of the arrays that accepted them. -/
def State.unqueue (s : State) (gone : Nat → Bool) : State :=
  { s with arrays := s.arrays.map fun a => { a with queue := a.queue.filter fun q => match q with | .access id => !gone id | _ => true } }

/-- An older request of the same warp has not reached this array yet (R99). -/
def State.olderAt (s : State) (r : Req) (core phys : Nat) : Bool :=
  s.reqs.any fun x => x.uid == r.uid && decide (x.id < r.id) && !x.held && !x.served && x.touches core phys

/-- The workgroup array number of a physical array, as the issuing workgroup numbers it (R225). -/
def State.arrayNumber (s : State) (wg core phys : Nat) : Nat := match s.wgOf wg with
  | some g =>
    let owner := if g.core = core then some g else (g.members.filterMap s.wgOf).find? fun x => x.core == core
    (owner.map fun x => x.arrays.idxOf phys).getD 0
  | none => 0

end Sys2Proof.Machine
end

