-- ==== Sys2Proof/Machine/Arrays.lean ====
section
/-! DEFINITION. Compute arrays: opcodes 0x90 to 0x93 and the events of an array (R93 to R112, R276 to R281, R289 to R291). -/

namespace Sys2Proof.Machine

/-! ## Issue -/

/-- The physical array of workgroup array j, and its record. -/
def State.myArray (s : State) (j : Nat) : Option ArrayRec :=
  (s.wgOf s.cur.wg).bind fun g => (g.arrays[j]?).bind fun p => s.arrayOf g.core p

/-- A, the number of arrays of the workgroup of the warp in focus (R27). -/
def State.arrayTotal (s : State) : Nat := match s.wgOf s.cur.wg with
  | some g => g.arrays.length
  | none => 0

/-- `AMODE` (R278): each named array accepts the transition in the cycle after issue. -/
def execAmode (c : Ctl) (rg tc : Bool) (a : Reg) (mask : Word) (s : State) : Out :=
  let act := s.act c
  let m := if rg then s.rd a 0 else mask
  let js := (List.range 32).filter fun j => m.getLsbD j
  let bad := js.find? fun j => ((s.myArray j).map (·.usable)).getD 0 == 0
  .next (if rg && !s.cur.nameable a then s.illegal act
    else if act = 0 then s.advance c
    else if rg && !(s.reg a).isU then s.trapP act 6 0xFF 0 none 0 4
    else if js.any fun j => decide (s.arrayTotal ≤ j) then s.trapP act 6 0xFF 0 none 0 4
    else match (if tc then bad else none) with
      | some j => s.trapP act 7 j 0 none 0 4
      | none =>
        let ts := js.filterMap fun j => (s.myArray j).map (·.phys)
        (if ts.isEmpty then s else s.addReq c (.amode ts tc) [] [] false true).advance c)

/-- `ACFG` (R276). -/
def execAcfg (c : Ctl) (a6 : Bool) (sgc : BitVec 2) (arr : BitVec 5) (s : State) : Out :=
  let act := s.act c
  .next (if act = 0 then s.advance c
    else match s.myArray arr.toNat with
      | none => s.trapP act 6 0xFF 0 none 0 4
      | some a => (s.addReq c (.acfg a.phys arr.toNat a6 (32 * 2 ^ sgc.toNat)) [] [] false false).advance c)

/-- KR: the registers of one F32 activation row (R101). -/
def axmKr (m : AMod) : Nat := (m.k1.toNat + 128) / 128
/-- The registers of the D block (R101). -/
def axmD (m : AMod) (d : Reg) : List Reg := regBlock d ((m.m1.toNat + 2) / 2)
/-- The registers of the A block (R101). -/
def axmA (m : AMod) (a : Reg) : List Reg := regBlock a ((m.m1.toNat + 1) * (if m.bf16 then 1 else axmKr m))

/-- Activation element (i, k) as an FP32 code (R102, R66). -/
def State.activation (s : State) (m : AMod) (a : Reg) (i k : Nat) : Word :=
  if m.bf16 then
    let x := s.rd (a + BitVec.ofNat 6 i) (k % 128)
    if k < 128 then x <<< 16 else x &&& 0xFFFF0000
  else s.rd (a + BitVec.ofNat 6 (i * axmKr m + k / 128)) (k % 128)

/-- C element (i, n) (R102). -/
def State.accumulator (s : State) (d : Reg) (i n : Nat) : Word := s.rd (d + BitVec.ofNat 6 (i / 2)) (64 * (i % 2) + n)

/-- `AXM` (R289): the operands are read at issue; the array accepts it in the warp's order. -/
def execAxm (c : Ctl) (m : AMod) (d a : Reg) (s : State) : Out :=
  let act := s.act c
  let M := m.m1.toNat + 1
  let K := m.k1.toNat + 1
  let ws : List RegWrite := (axmD m d).map fun r => ⟨r, .g []⟩
  .next (if !(axmD m d ++ axmA m a).all s.cur.nameable then s.illegal act
    else if act = 0 then s.advance c
    else match s.cur.overflow (BitVec.allOnes 128) ws with
      | some r => s.trapP act 8 0 r.toNat none 0 4
      | none => match s.myArray m.arr.toNat with
        | none => s.trapP act 6 0xFF 0 none 0 4
        | some ar =>
          if K > 64 * ar.usable then s.trapP act 7 m.arr.toNat 0 none 0 4
          else
            let job : AxmJob := ⟨s.nextId, s.cur.uid, tidOf c, d, M, K, m.pa6, 2 ^ m.rep.toNat, m.fzi, m.fzo,
              (List.range M).map fun i => (List.range K).map (s.activation m a i),
              (List.range M).map fun i => (List.range 64).map (s.accumulator d i), none, s.cur.inHandler⟩
            (s.addReq c (.axm ar.phys m.arr.toNat job) ws [] false false).advance c)

/-- `AQRY` of array numbers per lane (R281): G. -/
def aqryOp (s : State) (c : Ctl) (d : Reg) (names : List Reg) (j : Nat → Nat) : State :=
  s.commit c (d :: names) [⟨d, .g (lanesOf fun l => if j l < 32 then s.acap (j l) else 0)⟩] [] .zero

/-- `AQRY vD, vA` (R281). -/
def execAqry (c : Ctl) (d a : Reg) (s : State) : Out := .next (aqryOp s c d [a] fun l => (s.rd a l).toNat)
/-- `AQRY vD, #arr` (R281). -/
def execAqryImmediate (c : Ctl) (d : Reg) (arr : BitVec 5) (s : State) : Out := .next (aqryOp s c d [] fun _ => arr.toNat)

/-! ## Modes (R96 to R98) -/

/-- The end of a transition (R98, R100): an `AMODE` of the other mode that the array accepted meanwhile takes effect. -/
def ArrayRec.settle (a : ArrayRec) : ArrayRec :=
  let waits (c : Bool) : Bool := a.queue.any fun q => match q with | .mode k _ => k == c | _ => false
  { a with
    mode := if a.mode == 0 && waits true then 2 else if a.mode == 1 && waits false then 3 else a.mode
    queue := a.queue.filter fun q => match q with | .mode _ _ => false | _ => true }

/-- An array accepts an `AMODE` of a warp (R97, R98, R100): it starts its transition, waits for the end of one to the other mode, or does nothing. -/
def ArrayRec.acceptMode (a : ArrayRec) (compute : Bool) (uid : Nat) : ArrayRec :=
  if compute then
    if a.mode == 0 then { a with mode := 2 } else if a.mode == 3 then { a with queue := a.queue ++ [.mode true uid] } else a
  else if a.mode == 1 then { a with mode := 3 } else if a.mode == 2 then { a with queue := a.queue ++ [.mode false uid] } else a

/-- The named arrays accept an `AMODE`, once what the warp issued to them before has reached them (R96, R99). -/
def State.acceptModes (s : State) (r : Req) (ts : List Nat) (compute : Bool) : State :=
  if ts.any fun p => s.olderAt r r.core p then s
  else (ts.foldl (fun (s : State) p => s.mapArray r.core p fun a => a.acceptMode compute r.uid) s).dropReq r.id

/-- The arrays of the dies `on` names accept, in order of issue, the `AMODE`s issued before this cycle; those of this cycle follow in the next (R278). -/
def State.modesOfCycle (s : State) (on : Nat → Bool) : State :=
  let mine (r : Req) : Bool := on (dieOfCore r.core) && match r.kind with | .amode _ _ => true | _ => false
  let s1 := (s.reqs.filter fun r => mine r && r.sent).foldl (fun (s : State) r => match r.kind with
    | .amode ts compute => s.acceptModes r ts compute
    | _ => s) s
  { s1 with reqs := s1.reqs.map fun r => if mine r then { r with sent := true } else r }

/-- AMODE_ACCEPT (R96, R99, R278): the arrays accept an `AMODE` before the end of the cycle after its issue. -/
def execAmodeAccept (id : Nat) (s : State) : Out :=
  .next (match s.reqOf id with
    | some r => match r.kind with
      | .amode ts compute => s.acceptModes r ts compute
      | _ => s
    | none => s)

/-- A word of a usable row or of the sidecar of an array fails its parity check (R97). -/
def State.tileFails (s : State) (a : ArrayRec) : Bool :=
  s.mem.spadPoison.any fun w =>
    let c := 8 * w
    cellArray c == (a.core, a.phys) && (decide (c % 0x4000 < 64 * 48 * a.usable) || decide (12288 ≤ c % 0x4000))

/-- ARRAY_ENTER_COMPUTE (R97): once every access accepted before has performed, MODE becomes 01; a parity failure, of a word that holds an uncorrectable error or
another that the check finds (`parityFails`), poisons the array. -/
def execArrayEnterCompute (core phys : Nat) (parityFails : Bool) (s : State) : Out :=
  .next (s.mapArray core phys fun a =>
    if a.mode == 2 && a.queue.all (fun q => match q with | .mode _ _ => true | _ => false) then
      ArrayRec.settle { a with mode := 1, poisoned := parityFails || s.tileFails a }
    else a)

/-- ACFG_ACCEPT (R276): the configuration changes in MODE 00 and faults otherwise. -/
def execAcfgAccept (id : Nat) (s : State) : Out :=
  .next (match s.reqOf id with
    | some r => match r.kind with
      | .acfg p arr a6 sg => match s.arrayOf r.core p with
        | some a =>
          if r.fault.isSome || s.olderAt r r.core p then s
          else if a.mode != 0 then s.failReq id 6 arr 0 none 0 4
          else ((s.mapArray r.core p fun a => { a with wfmt6 := a6, sg := sg }).checkReq id).dropReq id
        | none => s
      | _ => s
    | none => s)

/-- AXM_ACCEPT (R289): by the mode the array holds; in MODE 10 it waits (R100). -/
def execAxmAccept (id : Nat) (s : State) : Out :=
  .next (match s.reqOf id with
    | some r => match r.kind with
      | .axm p arr j => match s.arrayOf r.core p with
        | some a =>
          if r.fault.isSome || s.olderAt r r.core p || a.mode == 2 then s
          else if a.mode != 1 then s.failReq id 6 arr 0 none 0 4
          else if a.poisoned then s.failReq id 17 5 0 none 0 4
          else ((s.mapArray r.core p fun a => { a with axms := a.axms ++ [j] }).checkReq id).dropReq id
        | none => s
      | _ => s
    | none => s)

/-! ## The operation (R105 to R109) -/

/-- N, the outputs of a weight format (R94). -/
def outputs (a6 : Bool) : Nat := if a6 then 64 else 48
/-- The width of a mantissa. -/
def mantBits (a6 : Bool) : Nat := if a6 then 6 else 8

/-- A byte with one bit flipped. -/
def flipBit (b : Byte) (bit : Nat) : Byte := b ^^^ ((1 : Byte) <<< (bit % 8))

/-- The byte at an offset of an array as its converters read it: with the bits that soft errors have changed since its parity check (R97). -/
def State.tileByte (s : State) (a : ArrayRec) (off : Nat) : Byte :=
  (a.flips.filter fun f => f.1 == off).foldl (fun b f => flipBit b f.2) (readByte s.mem.spad (spadCell a.core a.phys off))

/-- The weight mantissa of output n in row k, as its bits (R94). -/
def State.weight (s : State) (a : ArrayRec) (k n : Nat) : Nat :=
  let row := numLE ((List.range 48).map fun i => s.tileByte a (48 * k + i))
  bitsAt row (mantBits a.wfmt6 * n) (mantBits a.wfmt6)

/-- The scale code of group g and output n: sidecar byte 64 g + n (R94). -/
def State.scaleCode (s : State) (a : ArrayRec) (g n : Nat) : Nat := (s.tileByte a (12288 + 64 * g + n)).toNat

/-- The plane weight c(j, P) of R106. -/
def planeWeight (j P : Nat) : Int := if j + 1 = P then -(2 ^ j) else 2 ^ j

/-- The column count S of R106 over the rows of a group. -/
def columnCount (ma mw : List Nat) (p b : Nat) : Nat :=
  (ma.zip mw).foldl (fun t x => if x.1.testBit p && x.2.testBit b then t + 1 else t) 0

/-- The converter and its repeat (R107): floor(S * N / Q) * Q / N with Q = SG / 64 and N = REP. -/
def converted (sg rep S : Nat) : Nat := S * rep * 64 / sg * sg / (64 * rep)

/-- The group's integer product D_g (R106). -/
def groupProduct (pa pw sg rep : Nat) (ma mw : List Nat) : Int :=
  (List.range pa).foldl (fun t p => (List.range pw).foldl (fun t b =>
    t + planeWeight p pa * planeWeight b pw * (converted sg rep (columnCount ma mw p b) : Nat)) t) 0

/-- One accumulation step (R109): scale codes `ca` and `cw`, product `D`; `sh` is sa + sw. -/
def accStep (fzo : Bool) (ca cw sh : Nat) (D : Int) (acc : Nat) : Nat × Counts :=
  if ca = 255 || cw = 255 then (0x7FC00000, .zero)
  else
    let e : Int := ((ca : Int) - 127) + ((cw : Int) - 127) - sh
    let v := Ext.num (decide (D < 0)) D.natAbs (if D = 0 then 0 else e)
    let t := extAdd 0 (fp32.decode acc) v
    fp32.finish 0 false fzo t.1 t.2

/-- The rows of group g below K (R105). -/
def groupRows (sg K g : Nat) : List Nat := (List.range K).filter fun k => k / sg == g

/-- The scale groups of a row of activations: number, rows, and what the row drivers quantise them to (R105). -/
def AxmJob.groups (j : AxmJob) (sg : Nat) (xs : List Word) :=
  (List.range ((j.k + sg - 1) / sg)).map fun g =>
    let rows := groupRows sg j.k g
    (g, rows, quantise j.pa6 j.fzi (rows.map fun k => (xs.getD k 0).toNat))

/-- The conversions an `AXM` makes (R107, R110): REP of each bit-column, of which an array has 384, for each plane that is not skipped. -/
def AxmJob.conversions (j : AxmJob) (sg : Nat) : Nat :=
  let planes (ms : List Int) : Nat := ((List.range (mantBits j.pa6)).filter fun p => ms.any fun m => (wrapInt (mantBits j.pa6) m).testBit p).length
  384 * j.rep * ((List.range j.m).map fun i => ((j.groups sg (j.acts.getD i [])).map fun q => planes q.2.2.2.1).sum).sum

/-- The result row i of an `AXM` on an array, and its counts (R105 to R109). -/
def State.axmRow (s : State) (ar : ArrayRec) (j : AxmJob) (i : Nat) : List Word × Counts :=
  let pa := mantBits j.pa6
  let pw := mantBits ar.wfmt6
  let xs := j.acts.getD i []
  let sh := (if j.pa6 then 4 else 6) + (if ar.wfmt6 then 4 else 6)
  let groups := j.groups ar.sg xs
  let cq := groups.foldl (fun c q => c.add q.2.2.2.2) Counts.zero
  let outs := (List.range (outputs ar.wfmt6)).map fun n =>
    let c0 := fp32.flushIn j.fzi ((j.cs.getD i []).getD n 0).toNat
    groups.foldl (fun acc q =>
      let ma := q.2.2.2.1.map fun m => wrapInt pa m
      let mw := q.2.1.map fun k => s.weight ar k n
      let r := accStep j.fzo q.2.2.1 (s.scaleCode ar q.1 n) sh (groupProduct pa pw ar.sg j.rep ma mw) acc.1
      (r.1, acc.2.add r.2)) c0
  (outs.map fun o => BitVec.ofNat 32 o.1, outs.foldl (fun c o => c.add o.2) cq)

/-- AXM_START (R111): the oldest accepted `AXM` of the array runs; `repeats` margin repeats are counted, at most one of each conversion it makes (R108). -/
def execAxmStart (core phys repeats : Nat) (s : State) : Out :=
  .next (match s.arrayOf core phys with
    | some ar => match ar.axms with
      | j :: rest =>
        if j.result.isSome then s
        else
          let rows := (List.range j.m).map (s.axmRow ar j)
          let cnt := rows.foldl (fun c r => c.add r.2) Counts.zero
          let s1 := s.mapArray core phys fun a => { a with axms := { j with result := some (rows.map (·.1)) } :: rest }
          match s.warpOf j.uid with
          | some w =>
            (s1.countFor w.wg j.tid cnt).mapWg w.wg fun g =>
              let n := min repeats (j.conversions ar.sg)
              if n = 0 || g.hdr.statp = 0 then g else { g with stats := addRow j.tid 0 0 0 n g.stats }
          | none => s1
      | [] => s
    | none => s)

/-- D register i of a result (R102): lanes with an element take it, the others keep what they held. -/
def axmReg (rows : List (List Word)) (old : VReg) (i : Nat) : VReg :=
  .g (lanesOf fun l => match (rows[2 * i + l / 64]?).bind fun r => r[l % 64]? with
    | some x => x
    | none => old.lane l)

/-- AXM_RESULT_WRITE (R103, R111): every D element together; the write of a warp that has exited is discarded. -/
def execAxmResultWrite (core phys : Nat) (s : State) : Out :=
  .next (match s.arrayOf core phys with
    | some ar => match ar.axms with
      | j :: rest => match j.result with
        | some rows =>
          let n := (j.m + 1) / 2
          let s1 := s.mapArray core phys fun a => { a with axms := rest }
          s1.mapWarp j.uid fun w =>
            let all : Mask := BitVec.allOnes 128
            let put (a : Arch) : Arch := (List.range n).foldl (fun a i =>
              let r := j.d + BitVec.ofNat 6 i
              a.writeAs j.hdl all all ⟨r, axmReg rows (if j.hdl then a.vreg r else a.vregs.getD r.toNat (.u 0)) i⟩) a
            if w.hasExited then w.dropPend j.id else (w.mapArchFrom j.id put).dropPend j.id
        | none => s
      | [] => s
    | none => s)

end Sys2Proof.Machine
end

