-- ==== Sys2Proof/Machine/Transfer.lean ====
section
/-! DEFINITION. The events of a memory access: checks, service, notices, atomics, releases, acquires, fences, rollback, caches and TLBs (R99,
R100, R117 to R130, R133 to R142, R227 to R229, R236, R238, R267). -/

namespace Sys2Proof.Machine

/-! ## Requests of the memory path -/

/-- The memory access of a request. -/
def Req.mem? (r : Req) : Option MemReq := match r.kind with
  | .mem m => some m
  | _ => none

/-- True of an order that includes release. -/
def MemReq.rel (m : MemReq) : Bool := m.ord.getLsbD 1
/-- True of an order that includes acquire. -/
def MemReq.acq (m : MemReq) : Bool := m.ord.getLsbD 0
/-- True of an access that returns a value: a load, or an atomic that is no reduction. -/
def MemReq.returns (m : MemReq) : Bool := match m.op with
  | .load _ => true
  | .store => false
  | .atom _ ret => ret
/-- True of a load. -/
def MemReq.isLoad (m : MemReq) : Bool := match m.op with
  | .load _ => true
  | _ => false
/-- True of a store. -/
def MemReq.isStore (m : MemReq) : Bool := m.op == .store
/-- The release of an access has left: one at `.sys` once the times of its push are reached (R137). -/
def State.released (s : State) (r : Req) (m : MemReq) : Bool := r.sent && (m.scope != 5 || decide (r.due.2 ≤ s.tideOf (dieOfCore r.core) + 8))

/-- True when a lane's place is host memory (R267). -/
def MemReq.host (m : MemReq) : Bool := m.space == .global && m.lanes.any fun x => isHostPa x.pa

/-- The lanes of the warp whose access this is: one access stands for every active lane of a load with U addresses. -/
def Req.lanesOf (r : Req) (m : MemReq) (x : LaneAcc) : Mask := if m.uni then r.act else BitVec.twoPow 128 x.lane

/-- Older requests of the same warp. -/
def State.older (s : State) (r : Req) : List Req := s.reqs.filter fun x => x.uid == r.uid && decide (x.id < r.id)

/-- Two ranges of bytes overlap. -/
def meets (a n b k : Nat) : Bool := decide (a < b + k) && decide (b < a + n)

/-- The address of part h of a lane's access (R141). -/
def LaneAcc.partAt (x : LaneAcc) (h : Nat) : Nat := x.pa + 8 * h

/-- The parts a mask names, as a mask of two bits. -/
def partBits (ps : List Nat) : BitVec 2 := ps.foldl (fun b h => b ||| ((1 : BitVec 2) <<< h)) 0

/-- Some part of a lane's access of n bytes, among those in `mask`, overlaps the bytes [a, a + k). -/
def LaneAcc.meetsAny (x : LaneAcc) (n : Nat) (mask : BitVec 2) (a k : Nat) : Bool :=
  (partsOf n).any fun h => mask.getLsbD h && meets (x.partAt h) (partLen n) a k

/-- An older access of one of a lane's to a byte of one of its parts has not been made (R133): at the caches it has not been accepted, at the home (`home`)
its notice has not come. -/
def State.blocked (s : State) (r : Req) (m : MemReq) (home : Bool) (x : LaneAcc) (h : Nat) : Bool :=
  (s.older r).any fun q => match q.mem? with
    | some b => b.space == m.space && b.lanes.any fun y =>
        r.lanesOf m x &&& q.lanesOf b y != 0 && y.meetsAny b.sz (if home then y.left ||| y.far else y.left) (x.partAt h) (partLen m.sz)
    | none => false

/-- A lane below, among those already passed, has a part left that overlaps part h (R133): stores and atomics of one instruction to one byte take effect in
ascending lane order. `left` names the mask that counts. -/
def lowerLeft (m : MemReq) (left : LaneAcc → BitVec 2) (passed : List (LaneAcc × List Nat)) (x : LaneAcc) (h : Nat) : Bool :=
  passed.any fun p => p.1.meetsAny m.sz (left p.1 &&& ~~~ partBits p.2) (x.partAt h) (partLen m.sz)

/-- The parts that go now: of the lanes and parts named, those still left in the mask `left` that `may` go, lanes ascending. -/
def MemReq.going (m : MemReq) (mask : Mask) (halves : BitVec 2) (left : LaneAcc → BitVec 2) (may : LaneAcc → Nat → Bool) : List (LaneAcc × List Nat) :=
  m.lanes.foldl (fun done x =>
    done ++ [(x, (partsOf m.sz).filter fun h =>
      mask.getLsbD x.lane && halves.getLsbD h && (left x).getLsbD h && may x h && (m.isLoad || !lowerLeft m left done x h))]) []

/-- The lanes of a global access that a target does not grant (R270). -/
def State.refusedLanes (s : State) (r : Req) (m : MemReq) : List LaneAcc :=
  m.lanes.filter fun x =>
    (m.op.need.read && !s.grantedAll r.ctx.toNat 0 x.pa m.sz false) || (m.op.need.write && !s.grantedAll r.ctx.toNat 0 x.pa m.sz true)

/-- The lanes with a part left whose bytes meet an uncorrectable error (R238). -/
def State.failingLanes (s : State) (core : Nat) (m : MemReq) : List LaneAcc :=
  m.lanes.filter fun x => (partsOf m.sz).any fun h => x.left.getLsbD h && match m.space with
    | .global => if m.isLoad then s.loadFails core x.cp (x.partAt h) (partLen m.sz) else s.atomicFails core x.cp m.scope x.pa m.sz
    | .spad => s.mem.spadPoison.any fun w => decide (x.partAt h / 8 ≤ w) && decide (w ≤ (x.partAt h + partLen m.sz - 1) / 8)

/-- A load's or atomic's stamps: FENCE and acquires wait for them (R138, R139). -/
def State.noteStamp (s : State) (r : Req) (m : MemReq) (t : Nat) : State :=
  s.mapWarp r.uid fun w => { w with stampMax := max w.stampMax t, acqUntil := if m.acq then max w.acqUntil t else w.acqUntil }

/-- The access of a request as its parts have gone on. -/
def State.putLanes (s : State) (r : Req) (m : MemReq) (lanes : List LaneAcc) : State :=
  s.mapReq r.id fun x => { x with kind := .mem { m with lanes := lanes } }

/-- No part of an access is left. -/
def allGone (lanes : List LaneAcc) : Bool := lanes.all fun x => x.left == 0 && x.far == 0

/-- The values of a request are bound: its registers are written by REGISTER_WRITE_RETURN. -/
def State.bindReq (s : State) (r : Req) : State := s.mapReq r.id fun x => { x with served := true }

/-! ## Loads -/

/-- A lane's access with part h taken from its mask `left`. -/
def LaneAcc.take (x : LaneAcc) (h : Nat) : LaneAcc := { x with left := x.left &&& ~~~ ((1 : BitVec 2) <<< h) }

/-- A part of a load may be served (R133, R134, R135): no older access of its lanes to its bytes stands in the way; one that the home serves has come there, and
waits for the notices of its die's stores to those bytes when it bypasses the caches. -/
def State.mayServe (s : State) (r : Req) (m : MemReq) (x : LaneAcc) (h : Nat) : Bool :=
  let away := bypasses x.cp x.pa
  let die := dieOfCore r.core
  !s.blocked r m away x h && ((s.came r && !s.pchBusy x.pa) || !s.servedAtHome r.core x.cp (x.partAt h) (partLen m.sz))
    && !(away && (List.range (partLen m.sz)).any fun i => s.mem.nearAt die (x.partAt h + i))

/-- A part of a load may be served and meets no uncorrectable error; one that does waits to be reported (R226, R227). -/
def State.mayServeWhole (s : State) (r : Req) (m : MemReq) (x : LaneAcc) (h : Nat) : Bool :=
  s.mayServe r m x h && !s.loadFails r.core x.cp (x.partAt h) (partLen m.sz)

/-- The lowest lane of a load with a part that may be served and meets an uncorrectable error (R226, R238), once every part of the lanes below may be served. -/
def State.loadFailing (s : State) (r : Req) (m : MemReq) : Option LaneAcc :=
  let open' (x : LaneAcc) (p : Nat → Bool) : Bool := (partsOf m.sz).any fun h => x.left.getLsbD h && p h
  match m.lanes.find? fun x => open' x fun h => !s.mayServe r m x h || s.loadFails r.core x.cp (x.partAt h) (partLen m.sz) with
  | some x => if open' x fun h => !s.mayServe r m x h then none else some x
  | none => none

/-- What serving parts has given so far: the state, the lanes, the latest stamp and when the replies of the homes come. -/
structure Serving where
  at_ : State
  lanes : List LaneAcc
  stamp : Nat
  due : Nat × Nat

/-- One part of a lane of a load is served. -/
def Serving.part (r : Req) (m : MemReq) (leaseL2 leaseL1 : Nat) (v : Serving) (x : LaneAcc) (h : Nat) : Serving × LaneAcc :=
  let home := v.at_.servedAtHome r.core x.cp (x.partAt h) (partLen m.sz)
  let b := v.at_.loadBytes r.core x.cp m.ch (x.partAt h) (partLen m.sz) leaseL2 leaseL1
  let reply := v.at_.dueFrom (homeDie x.pa)
  ({ v with at_ := b.2, stamp := max v.stamp (v.at_.stampTime r.wg r.core b.1), due := if home && decide (v.due.2 < reply.2) then reply else v.due },
    LaneAcc.take { x with res := x.res + numLE (b.1.map CByte.b) * 2 ^ (64 * h) } h)

/-- LOAD_SERVED (R118, R119, R122, R133, R138, R141, R238): the parts named are served and their values bound, under the lease choices given. -/
def execLoadServed (p : Parts) (leaseL2 leaseL1 : Nat) (s : State) : Out :=
  .next (match s.reqOf p.id with
    | some r => match r.mem? with
      | some m =>
        if m.space == .spad || !m.isLoad || r.served || r.fault.isSome || !(s.refusedLanes r m).isEmpty then s
        else match s.loadFailing r m with
          | some x => s.failReq p.id 17 1 0 (some x.lane) (BitVec.ofNat 64 x.va) 0
          | none =>
            let t := (m.going p.mask p.halves (·.left) (s.mayServeWhole r m)).foldl (fun (v : Serving) (p : LaneAcc × List Nat) =>
              let u := p.2.foldl (fun (u : Serving × LaneAcc) h => u.1.part r m leaseL2 leaseL1 u.2 h) (v, p.1)
              { u.1 with lanes := u.1.lanes ++ [u.2] }) ⟨s, [], 0, r.due⟩
            let s1 := ((t.at_.noteStamp r m t.stamp).putLanes r m t.lanes).mapReq p.id fun x => { x with due := t.due }
            if allGone t.lanes then s1.bindReq r else s1
      | none => s
    | none => s)

/-- Word i of the value a lane reads: sign-extended for `S8` and `S16` (R249, R336). -/
def loadWord (m : MemReq) (i : Nat) (x : LaneAcc) : Word := match m.op with
  | .load true => BitVec.ofNat 32 (wrapInt 32 (signedVal (8 * m.sz) x.res))
  | _ => BitVec.ofNat 32 (bitsAt x.res (32 * i) 32)

/-- The register writes of a served access: the same address in every lane gives U (R336). -/
def MemReq.writes (m : MemReq) : List RegWrite :=
  (List.range m.dests.length).map fun i =>
    let word (l : Nat) : Word := match (if m.uni then m.lanes.head? else m.lanes.find? fun x => x.lane == l) with
      | some x => loadWord m i x
      | none => 0
    ⟨m.dests.getD i 0, if m.uni then .u (word 0) else .g (lanesOf word)⟩

/-- The lanes whose registers an access writes: those a queue instruction gave an entry, else the active ones (R193). -/
def Req.writeMask (r : Req) (m : MemReq) : Mask := if m.pred.isSome then maskOf fun l => m.lanes.any fun x => x.lane == l else r.act

/-- The registers and the predicate of a served access are written; a struck atomic leaves its registers failing (R238). -/
def Arch.takeData (a : Arch) (r : Req) (m : MemReq) : Arch :=
  let a1 := m.writes.foldl (fun a x => a.writeAs r.hdl r.live (r.writeMask m) x) a
  let a2 := match m.pred with | some p => a1.writePred r.act p.1 p.2 | none => a1
  if r.struck then { a2 with bad := m.dests.foldl (fun b d => b ||| ((1 : BitVec 64) <<< d.toNat)) a2.bad } else a2

/-- The value a request has bound is back at its core: at once from the core's arrays and caches and its die's L2, and when its reply comes from a home (R135). -/
def State.returned (s : State) (r : Req) : Bool := r.served && (decide (r.due.1 < 8) || s.came r)

/-- A request has returned its value: one whose notice is still on its way stays, with no register left to write. -/
def State.afterReturn (s : State) (r : Req) (m : MemReq) : State :=
  if m.lanes.all fun x => x.far == 0 then s.dropReq r.id else s.mapReq r.id fun x => { x with kind := .mem { m with dests := [], pred := none } }

/-- REGISTER_WRITE_RETURN (R34, R35, R58, R227): the data of a load, an atomic or a queue instruction returns and reaches its registers; the load is checked. -/
def execRegisterWriteReturn (id : Nat) (s : State) : Out :=
  .next (match s.reqOf id with
    | some r => match r.mem? with
      | some m =>
        if s.returned r && m.owes then
          (((s.checkReq id).mapWarp r.uid fun w =>
            ((if m.acq then w.refetch else w).mapArchFrom id fun a => a.takeData r m).dropPend id).afterReturn r m).retell r.uid
        else s
      | none => s
    | none => s)

/-! ## Scratchpad accesses (R99, R100) -/

/-- The distinct arrays of a scratchpad access. -/
def MemReq.arrays (m : MemReq) : List (Nat × Nat) := (m.lanes.map fun x => cellArray x.pa).eraseDups

/-- The mode of the array of a place. -/
def State.modeAt (s : State) (cell : Nat) : BitVec 2 := ((s.arrayOf (cellArray cell).1 (cellArray cell).2).map (·.mode)).getD 0

/-- An access that the array of a place accepted before access `id` has not been made to one of the bytes [a, a + n), and is not a load beside a load (R99,
R134). A copy's bytes stand in the way of no load: its token waits for them (R99, R100). -/
def State.behind (s : State) (id : Nat) (load : Bool) (a n : Nat) : Bool :=
  match s.arrayOf (cellArray a).1 (cellArray a).2 with
  | none => false
  | some ar => (ar.queue.takeWhile fun q => q != .access id).any fun q => match q with
    | .access k => (match (s.reqOf k).bind Req.mem? with
      | some b => !(load && b.isLoad) && b.lanes.any fun y => y.meetsAny b.sz y.left a n
      | none => false)
    | .write _ cs _ => !load && cs.any fun c => decide (a ≤ c.1) && decide (c.1 < a + n)
    | .mode _ _ => false

/-- A part of an accepted access may be made now (R100): a store or atomic not in MODE 11, and behind nothing it overlaps. -/
def State.mayMake (s : State) (r : Req) (m : MemReq) (x : LaneAcc) (h : Nat) : Bool :=
  (m.isLoad || s.modeAt x.pa != 3) && !s.behind r.id m.isLoad (x.partAt h) (partLen m.sz)

/-- What making parts has given so far: the bytes, the words that fail, the lanes, the counts, whether a failing word was read. -/
structure Making where
  spad : List Host.Cell
  poison : List Nat
  lanes : List LaneAcc
  counts : Counts
  bad : Bool

/-- One part of a lane of a scratchpad access is made. A store of a whole word ends its error (R238). -/
def Making.part (m : MemReq) (v : Making) (x : LaneAcc) (h : Nat) : Making × LaneAcc :=
  let a := x.partAt h
  let n := partLen m.sz
  let bad := v.poison.any fun w => decide (a / 8 ≤ w) && decide (w ≤ (a + n - 1) / 8)
  match m.op with
  | .load _ => ({ v with bad := v.bad || bad }, LaneAcc.take { x with res := x.res + readNum v.spad a n * 2 ^ (64 * h) } h)
  | .store => ({ v with
      spad := writeBytes v.spad a (bytesLE n (bitsAt x.data (64 * h) 64))
      poison := if n = 8 then v.poison.filter fun w => w != a / 8 else v.poison }, x.take h)
  | .atom op _ =>
    let old := readNum v.spad a n
    let y := atomNew op n old x.data x.cmp
    ({ v with spad := writeBytes v.spad a (bytesLE n y.1), counts := v.counts.add y.2, bad := v.bad || bad }, LaneAcc.take { x with res := old } h)

/-- Parts of an accepted scratchpad access are made, lanes ascending. An access with no part left is done: a store is gone, a load or atomic is bound. -/
def State.makeParts (s : State) (r : Req) (m : MemReq) (go : List (LaneAcc × List Nat)) : State :=
  let t := go.foldl (fun (v : Making) (p : LaneAcc × List Nat) =>
    let u := p.2.foldl (fun (u : Making × LaneAcc) h => u.1.part m u.2 h) (v, p.1)
    { u.1 with lanes := u.1.lanes ++ [u.2] }) ⟨s.mem.spad, s.mem.spadPoison, [], .zero, false⟩
  let s1 : State := { s with mem := { s.mem with spad := t.spad, spadPoison := t.poison } }
  let s2 := ((s1.countFor r.wg r.tid t.counts).putLanes r m t.lanes).mapReq r.id fun x => { x with struck := x.struck || (t.bad && r.checked) }
  let keeps (a : ArrayRec) : Bool := t.lanes.any fun x => x.left != 0 && cellArray x.pa == (a.core, a.phys)
  let s3 : State := { s2 with
    arrays := s2.arrays.map fun a => if keeps a then a else { a with queue := a.queue.filter fun q => q != .access r.id } }
  if !allGone t.lanes then s3 else if m.isStore then s3.dropReq r.id else s3.bindReq r

/-- The named arrays accept an access of a request, which is in their order from then on (R99, R100); a store or atomic is checked (R227), and its completion
times are the Tidemark at acceptance (R123). -/
def State.acceptAccess (s : State) (r : Req) (m : MemReq) : State :=
  let s1 := m.arrays.foldl (fun (s : State) p => s.mapArray p.1 p.2 fun a => { a with queue := a.queue ++ [.access r.id] }) s
  let s2 := if m.isLoad then s1 else (s1.checkReq r.id).noteTimes r.uid r.id (List.replicate 5 (s.tideOf (dieOfCore r.core)))
  s2.mapReq r.id fun x => { x with held := true }

/-- The fault an access meets at its arrays: of the lowest lane, the array busy fault before an uncorrectable error (R100, R226, R238). -/
def State.arrayFault (s : State) (r : Req) (m : MemReq) : Option (LaneAcc × Nat × Nat) :=
  let bad := if m.isStore then [] else s.failingLanes r.core m
  m.lanes.findSome? fun x =>
    if !m.isLoad && (s.modeAt x.pa == 2 || s.modeAt x.pa == 1) then some (x, 5, s.arrayNumber r.wg (cellArray x.pa).1 (cellArray x.pa).2)
    else if bad.contains x then some (x, 17, 2)
    else none

/-- Bytes are written to scratchpad; words that are written whole are correct again (R238). -/
def State.putCells (s : State) (cs : List Host.Cell) : State :=
  let whole (w : Nat) : Bool := (List.range 8).all fun i => cs.any fun c => c.1 == 8 * w + i
  { s with mem := { s.mem with
    spad := cs.foldl (fun m c => writeByte c.1 c.2 m) s.mem.spad
    spadPoison := s.mem.spadPoison.filter fun w => !whole w } }

/-- Bytes of copy entry `id` that arrays have accepted, and that have come (R135), are made: of each write those whose numbers the mask names (R99, R373). In MODE 11 they
wait for MODE 00 (R100). -/
def State.makeWrites (s : State) (id : Nat) (mask : Mask) : State :=
  let now (a : ArrayRec) (q : ArrayItem) : List Host.Cell × List Host.Cell := match q with
    | .write k cs due =>
      if k == id && a.mode != 3 && decide (due ≤ s.tideOf (dieOfCore a.core)) then
        (((List.range cs.length).filter fun i => mask.getLsbD i).map fun i => cs.getD i (0, 0),
          ((List.range cs.length).filter fun i => !mask.getLsbD i).map fun i => cs.getD i (0, 0))
      else ([], cs)
    | _ => ([], [])
  let left (a : ArrayRec) (q : ArrayItem) : Option ArrayItem := match q with
    | .write k _ due => if (now a q).2.isEmpty then none else some (.write k (now a q).2 due)
    | _ => some q
  State.putCells { s with arrays := s.arrays.map fun a => { a with queue := a.queue.filterMap (left a) } }
    (s.arrays.flatMap fun a => a.queue.flatMap fun q => (now a q).1)

/-- ARRAY_ACCESS_ACCEPT (R99, R100, R133, R141, R226): the arrays accept a scratchpad access, if they have not, and the parts named are made as far as they may.
Its lanes are accepted together. A store meeting MODE 10 or 01 takes the array busy fault; one meeting MODE 11 waits there for MODE 00. Of a copy entry the bytes its
arrays have accepted are made. -/
def execArrayAccessAccept (p : Parts) (s : State) : Out :=
  .next (match s.reqOf p.id with
    | some r => match r.mem? with
      | some m =>
        if m.space == .global || r.served || r.fault.isSome then s
        else if r.held then
          (match (if r.checked then [] else s.failingLanes r.core m) with
          | x :: _ => (s.unqueue (· == p.id)).failReq p.id 17 2 0 (some x.lane) (BitVec.ofNat 64 x.va) 0
          | [] => s.makeParts r m (m.going p.mask p.halves (·.left) (s.mayMake r m)))
        else if (m.arrays.any fun p => s.olderAt r p.1 p.2) || (m.rel && !s.released r m) then s
        else match s.arrayFault r m with
          | some e => s.failReq p.id e.2.1 e.2.2 0 (some e.1.lane) (BitVec.ofNat 64 e.1.va) m.op.acc
          | none =>
            let s1 := s.acceptAccess r m
            s1.makeParts r m (m.going p.mask p.halves (·.left) (s1.mayMake r m))
      | none => s
    | none => s.makeWrites p.id p.mask)

/-- The parts of an access that one array holds are made when it reaches MODE 00 (R100, R193). -/
def State.makeHeld (s : State) (core phys id : Nat) : State :=
  match s.reqOf id with
  | some r => match r.mem? with
    | some m =>
      let mine : Mask := maskOf fun l => m.lanes.any fun x => x.lane == l && cellArray x.pa == (core, phys)
      s.makeParts r m (m.going mine 3 (·.left) fun x h => cellArray x.pa == (core, phys) && s.mayMake r m x h)
    | none => s
  | none => s

/-- ARRAY_ENTER_STORAGE (R97, R98, R100): once every accepted `AXM` has written, MODE becomes 00, the poison mark is cleared, storage reads correct what single-bit
errors changed, the accesses it holds are made in
their order of acceptance, and an `AMODE.C` accepted meanwhile takes effect; the bytes of copies it holds are made from then on. -/
def execArrayEnterStorage (core phys : Nat) (s : State) : Out :=
  .next (match s.arrayOf core phys with
    | some a =>
      if a.mode == 3 && a.axms.isEmpty then
        let s1 := s.mapArray core phys fun a => { a with mode := 0, poisoned := false, flips := [] }
        let s2 := a.queue.foldl (fun (s : State) q => match q with
          | .access id => s.makeHeld core phys id
          | _ => s) s1
        s2.mapArray core phys ArrayRec.settle
      else s
    | none => s)

/-! ## Global stores and atomics -/

/-- ACCESS_CHECKED (R227): the target has accepted a store, atomic or reduction; an atomic whose old value cannot be read fails (R285). -/
def execAccessChecked (id : Nat) (s : State) : Out :=
  .next (match s.reqOf id with
    | some r => match r.mem? with
      | some m =>
        if m.space == .spad || m.isLoad || r.checked || r.fault.isSome || !s.came r || !(s.refusedLanes r m).isEmpty then s
        else match (if m.isStore then [] else s.failingLanes r.core m) with
          | x :: _ => s.failReq id 17 1 0 (some x.lane) (BitVec.ofNat 64 x.va) 2
          | [] => s.checkReq id
      | none => s
    | none => s)

/-- ACCESS_REFUSED (R226, R236, R237): the target of the lowest refused lane writes a REFUSED record, one for the access (log 46), and the access fails at its lowest faulting lane: with detail 4 when that lane is
refused, with the uncorrectable error when a lower lane meets one. -/
def execAccessRefused (id : Nat) (s : State) : Out :=
  .next (match s.reqOf id with
    | some r => match r.mem? with
      | some m =>
        if m.space == .spad || r.served || r.checked || r.fault.isSome || !s.came r then s
        else match s.refusedLanes r m with
          | x :: _ =>
            let h := match s.warpOf r.uid with | some w => w.task.getD 0 | none => 0
            let s1 := s.logRecord ⟨s.tideOf (homeDie x.pa), 3, 3, 4, 0, r.core, r.pos, x.lane, r.pc, BitVec.ofNat 64 x.pa, h, r.ctx.toNat, 0,
              targetOf x.pa⟩
            (match (if m.isStore then [] else s.failingLanes r.core m).find? fun y => decide (y.lane < x.lane) with
            | some y => s1.failReq id 17 1 0 (some y.lane) (BitVec.ofNat 64 y.va) m.op.acc
            | none => s1.failReq id 3 4 0 (some x.lane) (BitVec.ofNat 64 x.va) m.op.acc)
          | [] => s
      | none => s
    | none => s)

/-- A store, atomic or reduction may leave its core (R137, R228): checked, no older access of the warp unchecked, and a release has been sent. -/
def State.mayPerform (s : State) (r : Req) (m : MemReq) : Bool :=
  m.space == .global && !m.isLoad && r.checked && !r.served && !((s.older r).any fun x => !x.checked) && (!m.rel || r.sent)

/-- The stamp of a release at a place with completion times `ts` (R138). -/
def State.stampFor (s : State) (r : Req) (m : MemReq) (ts : List Nat) : Option Stamp :=
  if m.rel then some ⟨m.scope, s.instanceOf r.wg r.core m.scope, ts.getD (m.scope - 1) 0⟩ else none

/-- The sectors a set of accesses covers whole. -/
def wholeSectors (sz : Nat) (lanes : List LaneAcc) : List Nat :=
  ((lanes.map fun x => sectorOf x.pa).eraseDups).filter fun sec =>
    (List.range 64).all fun i => lanes.any fun x => decide (x.pa ≤ 64 * sec + i) && decide (64 * sec + i < x.pa + sz)

/-- A part of a store goes to its home without a stay in the caches (R118, R119, R125): its data travels with the notice, or it is a release at a scope whose
home is the LLC, whose stamp that home computes (R138). -/
def MemReq.direct (m : MemReq) (x : LaneAcc) : Bool := bypasses x.cp x.pa || m.scope == 5 || (m.rel && decide (4 ≤ m.scope))

/-- What parts of a store have given so far: the state, the lanes and the latest completion times. -/
structure Storing where
  at_ : State
  lanes : List LaneAcc
  times : List Nat

/-- The later of two lists of completion times. -/
def laterTimes (a b : List Nat) : List Nat := (List.range 5).map fun i => max (a.getD i 0) (b.getD i 0)

/-- The bytes of part h of a store, with the stamp its release has at completion times `ts`. -/
def State.partBytes (s : State) (r : Req) (m : MemReq) (x : LaneAcc) (h : Nat) (ts : List Nat) : List CByte :=
  (bytesLE (partLen m.sz) (bitsAt x.data (64 * h) 64)).map fun b => ⟨b, s.stampFor r m ts⟩

/-- The core's L1 and the die's L2 accept a part of a store (R118, R123): its bytes stand in both, its times up to `.die` are known, and its notice goes to the
home. -/
def Storing.accept (r : Req) (m : MemReq) (v : Storing) (x : LaneAcc) (h : Nat) : Storing × LaneAcc :=
  let s := v.at_
  let die := dieOfCore r.core
  let ts := (s.storeTimes r.core x.pa).take 3
  let bytes := s.partBytes r m x h ts
  let m1 := s.mem.mergeL1 r.core (x.partAt h) bytes
  ({ v with
      at_ := { s with mem := { m1 with near := m1.near ++ [⟨r.id, x.lane, h, die, x.partAt h, bytes, (s.dueFrom die).2⟩] } }
      times := laterTimes v.times ts }, x.take h)

/-- The stay of a part in the caches. -/
def State.nearOf (s : State) (r : Req) (x : LaneAcc) (h : Nat) : Option NearStore :=
  s.mem.near.find? fun e => e.id == r.id && e.lane == x.lane && e.half == h

/-- The notice of a part of a store may reach its home: a direct one has come there and is in its lane's order; of one that stays in the caches the notice has come,
behind those that its L2 accepted before it for the same bytes (R120, R133, R135). -/
def State.mayLand (s : State) (r : Req) (m : MemReq) (host : Bool) (x : LaneAcc) (h : Nat) : Bool :=
  isHostPa x.pa == host && !s.pchBusy x.pa && if m.direct x then s.came r && !s.blocked r m true x h
  else match s.nearOf r x h with
    | some e => decide (e.due ≤ s.tideOf e.die)
        && !((s.mem.near.takeWhile fun y => y != e).any fun y => y.die == e.die && meets y.pa y.bytes.length e.pa e.bytes.length)
    | none => false

/-- The notice of a part of a store, or of an atomic that its L2 performed, reaches its home (R118, R119, R123): a direct part is accepted by the caches in the same step.
Its time at `.sys` is known where its data comes with it. -/
def Storing.land (r : Req) (m : MemReq) (v : Storing) (x : LaneAcc) (h : Nat) : Storing × LaneAcc :=
  let s := v.at_
  let ts := s.storeTimes r.core x.pa
  let ef := m.ch.getLsbD 1
  let y := { x.take h with far := x.far &&& ~~~ ((1 : BitVec 2) <<< h) }
  match s.nearOf r x h with
  | some e =>
    let s1 : State := { s with mem := { s.mem with near := s.mem.near.filter fun z => z != e } }
    ({ v with at_ := s1.storeBytes r.core x.cp false ef (!r.struck) e.pa e.bytes, times := laterTimes v.times [0, 0, 0, ts.getD 3 0] }, y)
  | none =>
    let bytes := s.partBytes r m x h ts
    let s1 : State := { s with mem := s.mem.mergeL1 r.core (x.partAt h) bytes }
    let known := if m.scope == 5 || bypasses x.cp x.pa then ts else ts.take 4
    ({ v with at_ := s1.storeBytes r.core x.cp (m.scope == 5) ef true (x.partAt h) bytes, times := laterTimes v.times known }, y)

/-- A store of whole sectors ends their errors (R238): in the caches that accept it, and at the home (`home`) once it has come there. -/
def MemSys.heal (m : MemSys) (die core : Nat) (home : Bool) (secs : List Nat) : MemSys :=
  { m with
    poison := if home then m.poison.filter fun p => !secs.contains p else m.poison
    l1 := m.l1.map fun x => if x.core == core && secs.contains x.sec then { x with bad := 0 } else x
    l2 := m.l2.map fun x => if x.die == die && secs.contains x.sec then { x with bad := 0 } else x }

/-- Parts of a store, or notices of an atomic, go on as `f` says; the times enter the warp's, and an access with nothing left is done. -/
def State.storeParts (s : State) (r : Req) (m : MemReq) (go : List (LaneAcc × List Nat)) (f : Storing → LaneAcc → Nat → Storing × LaneAcc) : State :=
  let t := go.foldl (fun (v : Storing) (p : LaneAcc × List Nat) =>
    let u := p.2.foldl (fun (u : Storing × LaneAcc) h => f u.1 u.2 h) (v, p.1)
    { u.1 with lanes := u.1.lanes ++ [u.2] }) ⟨s, [], []⟩
  let s1 := t.at_.noteTimes r.uid r.id t.times
  let s2 : State := if m.isStore && t.lanes.all fun x => x.left == 0 then
      { s1 with mem := s1.mem.heal (dieOfCore r.core) r.core (allGone t.lanes) (wholeSectors m.sz m.lanes) }
    else s1
  if allGone t.lanes && !m.owes then s2.dropReq r.id else s2.putLanes r m t.lanes

/-- The 32-bit counters that an operation of `sz` bytes leaves at zero: those on which tasks may be parked (R179). -/
def zeroCounters (sz pa new : Nat) : List Nat :=
  ((List.range (sz / 4)).filter fun i => new / 2 ^ (32 * i) % 2 ^ 32 == 0).map fun i => pa + 4 * i

/-- A lane of an atomic may perform (R133, R135, R142): in its lane's order; at the home when it has come there, and not ahead of a store of its die to its bytes whose
notice is on its way. -/
def State.mayAtomic (s : State) (r : Req) (m : MemReq) (host : Bool) (x : LaneAcc) (h : Nat) : Bool :=
  let inL2 := atomicInL2 x.cp m.scope x.pa
  isHostPa x.pa == host && !s.blocked r m (!inL2) x h
    && (inL2 || (s.came r && !s.pchBusy x.pa && !((List.range m.sz).any fun i => s.mem.nearAt (dieOfCore r.core) (x.pa + i))))

/-- What lanes of an atomic have given so far: the state, the lanes, the times, the latest stamp read, the counts, whether an error was met. -/
structure Updating where
  at_ : State
  lanes : List LaneAcc
  times : List Nat
  stamp : Nat
  counts : Counts
  bad : Bool

/-- One lane of an atomic performs at its place (R142, R179, R283); of one that performs in the L2 the notice goes to the home (R123). -/
def Updating.lane (r : Req) (m : MemReq) (op : BitVec 3) (lease : Nat) (v : Updating) (x : LaneAcc) : Updating :=
  let s := v.at_
  let a := s.atomicAt r.core x.cp m.scope op m.sz x.pa x.data x.cmp lease (m.ch.getLsbD 1) (s.stampFor r m)
  let die := dieOfCore r.core
  let s1 := if m.scope == 0 || decide (4 ≤ m.scope) then
      (zeroCounters m.sz x.pa (atomNew op m.sz a.old x.data x.cmp).1).foldl (fun (s : State) pa => s.releaseParked pa) a.after
    else if a.near.isEmpty then a.after
    else { a.after with mem := { a.after.mem with near := a.after.mem.near ++ [⟨r.id, x.lane, 0, die, x.pa, a.near, (s.dueFrom die).2⟩] } }
  { v with
    at_ := s1, lanes := v.lanes ++ [{ x with res := a.old, left := 0, far := if a.near.isEmpty then 0 else 1 }], times := laterTimes v.times a.times,
    stamp := max v.stamp (s.stampTime r.wg r.core a.read), counts := v.counts.add a.counts, bad := v.bad || a.bad }

/-- Lanes of a global atomic or reduction perform, ascending (R142, R283). Its counts go to its workgroup (R91), whose release waits for it (log 61). -/
def State.atomicParts (s : State) (r : Req) (m : MemReq) (op : BitVec 3) (lease : Nat) (go : List (LaneAcc × List Nat)) : State :=
  let t := go.foldl (fun (v : Updating) (p : LaneAcc × List Nat) => if p.2.isEmpty then { v with lanes := v.lanes ++ [p.1] } else v.lane r m op lease p.1)
    ⟨s, [], [], 0, .zero, false⟩
  let s1 := ((t.at_.noteTimes r.uid r.id t.times).noteStamp r m t.stamp).countFor r.wg r.tid t.counts
  let near := m.lanes.all (fun x => atomicInL2 x.cp m.scope x.pa) || go.all fun p => p.2.isEmpty
  let s2 := (s1.putLanes r m t.lanes).mapReq r.id fun x => { x with
    struck := x.struck || t.bad
    due := if near then x.due else s.dueFrom (homeDie ((m.lanes.head?.map (·.pa)).getD 0)) }
  if t.lanes.any fun x => x.left != 0 then s2 else if m.returns then s2.bindReq r else if allGone t.lanes then s2.dropReq r.id else s2

/-- The additions of a `STAT` perform at the homes of their words (R91), all in one step (log 73), before its launch is reported complete (R44). -/
def State.performStat (s : State) (r : Req) (words : List (Nat × Nat)) : State :=
  let h := match s.warpOf r.uid with | some w => w.task.getD 0 | none => 0
  let b : StatBy := ⟨r.ctx, 0, r.core, dieOfCore r.core, r.core, r.pos, h⟩
  let t := words.foldl (fun (t : State × Nat) (p : Nat × Nat) =>
    let d := match t.1.xlate r.core r.ctx p.1 with | .ok pa _ => (t.1.storeTimes r.core pa).getD 3 0 | .bad _ _ => 0
    (t.1.statAdd b p.1 p.2, max t.2 d)) (s, 0)
  let s1 := (t.1.noteTimes r.uid r.id [0, 0, 0, t.2, 0]).dropReq r.id
  match (s1.wgOf r.wg).bind (·.launch) with
  | some k => { s1 with launches := updWhere (fun l => l.key == k) (fun l => { l with statTime := max l.statTime t.2 }) s1.launches }
  | none => s1

/-- STORE_NOTICE_ARRIVE (R91, R118, R123, R141): parts of a store reach the homes of the near scopes, the core's L1 and the die's L2, or (`home`) the LLC home, as the
notices of an atomic do that its L2 performed. A store to host memory performs at the host (R267), by CXLCACHE_ACKNOWLEDGEMENT. -/
def execStoreNoticeArrive (n : Notice) (s : State) : Out :=
  .next (match s.reqOf n.parts.id with
    | some r => match r.kind with
      | .mem m =>
        if m.isLoad || m.space == .spad then s
        else if !m.isStore then
          if n.home then s.storeParts r m (m.going n.parts.mask n.parts.halves (·.far) fun x h => (s.nearOf r x h).isSome && s.mayLand r m false x h) (Storing.land r m)
          else s
        else if !s.mayPerform r m then s
        else if n.home then s.storeParts r m (m.going n.parts.mask n.parts.halves (·.far) (s.mayLand r m false)) (Storing.land r m)
        else s.storeParts r m (m.going n.parts.mask n.parts.halves (·.left) fun x h => !m.direct x && !s.blocked r m false x h) (Storing.accept r m)
      | .stat words _ => if s.came r then s.performStat r words else s
      | _ => s
    | none => s)

/-- ATOMIC_PERFORM (R142): the lanes named perform. -/
def execAtomicPerform (p : LaneSet) (lease : Nat) (s : State) : Out :=
  .next (match s.reqOf p.id with
    | some r => match r.mem? with
      | some m => (match m.op with
        | .atom op _ => if s.mayPerform r m then s.atomicParts r m op lease (m.going p.mask 1 (·.left) (s.mayAtomic r m false)) else s
        | _ => s)
      | none => s
    | none => s)

/-- CXLCACHE_ACKNOWLEDGEMENT (R148, R267): the host has performed parts of a store, or lanes of an atomic, to host memory and acknowledges it. -/
def execCxlCacheAcknowledgement (p : Parts) (s : State) : Out :=
  .next (match s.reqOf p.id with
    | some r => match r.mem? with
      | some m =>
        if !s.mayPerform r m then s
        else (match m.op with
          | .atom op _ => s.atomicParts r m op 0 (m.going p.mask 1 (·.left) (s.mayAtomic r m true))
          | _ => s.storeParts r m (m.going p.mask p.halves (·.far) (s.mayLand r m true)) (Storing.land r m))
      | none => s
    | none => s)

/-! ## Releases, acquires, fences -/

/-- The Tidemark of a warp's die has reached `ctime(s)` for every scope up to S (R137). -/
def State.ctimeReached (s : State) (w : Warp) (scope : Nat) : Bool :=
  (List.range scope).all fun i => decide (w.ctime.getD i 0 ≤ s.tideOf (dieOfCore w.core))

/-- RELEASE_SEND (R137): earlier accesses checked, earlier loads returned, earlier stores performed and their times reached. One at `.sys` pushes (R119), and leaves
once the completion times at `.sys` that the push gives are reached. -/
def execReleaseSend (id : Nat) (s : State) : Out :=
  .next (match s.reqOf id with
    | some r => match r.mem?, s.warpOf r.uid with
      | some m, some w =>
        if m.rel && !r.sent && !((s.older r).any fun x => !x.checked || x.openAt m.scope) && s.ctimeReached w m.scope then
          let s1 := if m.scope = 5 then s.pushFor r.uid (dieOfCore r.core) else s
          let now := match (s1.warpOf r.uid).filter fun _ => m.scope == 5 with | some w => w.ctime.getD 4 0 | none => 0
          s1.mapReq id fun x => { x with sent := true, due := (dieOfCore r.core, max now (s.tideOf (dieOfCore r.core)) + 8) }
        else s
      | _, _ => s
    | none => s)

/-- The warp at a position of a core: the one that has not exited, else an exited one that is still known. -/
def State.warpAt (s : State) (core pos : Nat) : Option Warp :=
  let here := s.warps.filter fun w => w.uid != 0 && w.core == core && w.pos == pos
  match here.find? fun w => !w.hasExited with
  | some w => some w
  | none => here.head?

/-- ACQUIRE_COMPLETE (R138): the die's Tidemark has reached the stamp time. -/
def execAcquireComplete (core pos : Nat) (s : State) : Out :=
  .next (match s.warpAt core pos with
    | some w => if w.acqUntil ≤ s.tideOf (dieOfCore core) then s.mapWarp w.uid fun w => { w with acqUntil := 0 } else s
    | none => s)

/-- The conditions of a fence hold (R137, R139, R148, R320); one at `.sys` has pushed what the warp stored before, and a release waits for the times this gave. -/
def State.fenceMet (s : State) (w : Warp) (f : FenceCond) : Bool :=
  let earlier := s.reqs.filter fun r => r.uid == w.uid && decide (r.id < f.upto)
  let acq := !(earlier.any fun r => r.open && match r.mem? with | some m => m.returns | none => false)
    && decide (w.stampMax ≤ s.tideOf (dieOfCore w.core))
  let rel := !(earlier.any fun r => !r.checked || r.openAt f.scope) && s.ctimeReached w f.scope
  (!f.acq || acq) && (!f.rel || rel) && (f.scope != 5 || f.pushed)

/-- A fence at `.sys` may push (R119, R148): every store, atomic and reduction of global memory before it has reached its home. -/
def State.mayPush (s : State) (w : Warp) (f : FenceCond) : Bool :=
  f.scope == 5 && !f.pushed && !(s.reqs.any fun r => r.uid == w.uid && decide (r.id < f.upto) && match r.mem? with | some m => m.space == .global && !m.isLoad | none => false)

/-- FENCE_COMPLETE (R119, R139, R148, R320): the fences at `.sys` that may push do, whatever their order; the fences of a warp whose conditions hold are over. -/
def execFenceComplete (core pos : Nat) (s : State) : Out :=
  .next (match s.warpAt core pos with
    | some w =>
      let push (f : FenceCond) : Bool := s.mayPush w f
      let s1 := if w.fences.any push then
          (s.pushFor w.uid (dieOfCore core)).mapWarp w.uid fun w => { w with fences := w.fences.map fun f => { f with pushed := f.pushed || push f } }
        else s
      s1.mapWarp w.uid fun w =>
        if w.fences.any (s1.fenceMet w) then { w.refetch with fences := w.fences.filter fun f => !s1.fenceMet w f } else w
    | none => s)

/-! ## Rollback (R229) -/

/-- The state of a warp just before request `r` issued: its checkpoint, without what issued later. -/
def Warp.rollBack (w : Warp) (id : Nat) (a : Arch) : Warp :=
  { w with
    arch := a
    snaps := w.snaps.filter fun p => decide (p.1 < id)
    pends := w.pends.filter fun p => decide (p.id < id) && p.ready.isNone
    fences := w.fences.filter fun f => decide (f.upto ≤ id)
    holds := w.holds.filter fun h => match h.kind with
      | .queue ins => decide (ins < id)
      | .jobs ins => decide (ins < id)
      | .slots _ => true
    fetched := []
    stalled := false }

/-- FAULT_ROLLBACK (R229): the oldest faulting access of a warp, once every older access is checked: the state before it is restored, what issued after
it is discarded, and the trap is taken. -/
def execFaultRollback (core pos : Nat) (s : State) : Out :=
  .next (match s.warpAt core pos with
    | some w => match s.reqs.find? fun r => r.uid == w.uid && r.fault.isSome with
      | some r => match r.fault, w.snaps.find? fun p => p.1 == r.id with
        | some t, some p =>
          if (s.older r).any fun x => !x.checked then s
          else
            let s1 := s.focus w.uid
            let gone := (s1.reqs.filter fun x => x.uid == w.uid && decide (r.id ≤ x.id)).map (·.id)
            let s2 : State := State.unqueue { s1 with
              cur := s1.cur.rollBack r.id p.2
              reqs := s1.reqs.filter fun x => !(x.uid == w.uid && decide (r.id ≤ x.id)) } gone.contains
            s2.takeTrap s2 { t with hmask := t.hmask &&& s2.cur.live }
        | _, _ => s
      | none => s
    | none => s)

/-! ## Caches and TLBs -/

/-- LEASE_EXPIRE (R118): a copy whose lease has passed on its die no longer serves. -/
def execLeaseExpire (l2 : Bool) (unit sector : Nat) (s : State) : Out :=
  .next (if l2 then match s.mem.l2At unit sector with
      | some x => if x.expiry.any fun e => decide (e < s.tideOf unit) then { s with mem := s.mem.putL2 { x with expiry := none } } else s
      | none => s
    else match s.mem.l1At unit sector with
      | some x => if x.expiry < s.tideOf (dieOfCore unit) then { s with mem := s.mem.dropL1 unit sector } else s
      | none => s)

/-- RECALL (R119): the owner's dirty bytes of a line reach the home. -/
def execRecall (line : Nat) (s : State) : Out := .next { s with mem := s.mem.recall line fun _ => false }

/-- L2_EVICTION (R119, R121): a die's L2 gives up a line, its dirty bytes written to the home; while lines are marked for eviction first, one of those. -/
def execL2Eviction (die line : Nat) (s : State) : Out :=
  .next (if (s.mem.efLines die).isEmpty || (s.mem.efLines die).contains line then { s with mem := s.mem.evict die line } else s)

/-- PAGE_WALK_COMPLETE (R126): a walk for a warp of a core, which the TLBs of the core and its die have missed, fills both when it finds a leaf; one that fails
records nothing. -/
def execPageWalkComplete (core ctx : Nat) (va : DWord) (s : State) : Out :=
  let c : BitVec 3 := BitVec.ofNat 3 ctx
  .next (if ctx < 8 && s.runs c && (s.tlbHit (192 + dieOfCore core) c va.toNat).isNone && (s.warps.any fun w => w.uid != 0 && w.core == core && w.ctx == c)
    then s.fillTlb core c va.toNat else s)

/-- A TLB entry overlaps the range of an invalidation (R127). -/
def TlbEntry.inRange (t : TlbEntry) (r : TlbRange) : Bool :=
  t.ctx == r.ctx && (r.all || (decide (t.va < r.va + 65536 * r.pages) && decide (r.va < t.va + t.size)))

/-- A copy entry that has begun, or a bank card that has translated, may have used a translation whose access has not performed at `.dev` (R127). -/
def CopyEntry.underway (e : CopyEntry) : Bool := e.acc != 0 && (e.phase != .waiting || e.next != 0)
/-- A card that has translated its columns. -/
def BankCard.underway (k : BankCard) : Bool := k.acc != 0 && k.phase != .queued

/-- A write of TLBIC (R127): with GO, the entries of the range leave every TLB and BUSY rises until the accesses, statistics additions among them (R91), that may have used them have
performed at `.dev`; ALL covers the whole context whatever PAGES is. -/
def State.writeTlbic (s : State) (v : Word) : State :=
  let busy := s.mem.tlbic.getLsbD 30
  let go := v.getLsbD 31
  let fields := v &&& 0x3C0FFFFF
  let ctx : BitVec 3 := (v >>> 27).setWidth 3
  let all := v.getLsbD 26
  let pages := bitsAt v.toNat 0 20
  let range : TlbRange := ⟨ctx, all, bitsAt s.mem.tlbia.toNat 16 40 * 65536, pages⟩
  if go && busy then s
    else if go && (all || pages != 0) then
      let key := s.nextId
      { s with
        nextId := key + 1
        conds := RelCond.mk key 0 12 key 4 (timeFor ctx.toNat s.mem.addTimes) :: (s.warps.filter fun w => w.uid != 0 && w.ctx == ctx).map (fun w =>
          RelCond.mk key w.uid (dieOfCore w.core) key 4 (latestUpTo w.ctime 4)) ++ s.conds
        mem := { s.mem with
          tlb := s.mem.tlb.filter fun t => !t.inRange range
          tlbic := fields ||| 0x40000000
          tlbKey := key
          tlbWait := ((s.copy.entries.filter fun e => e.ctx == ctx && e.underway).map (·.id))
            ++ (s.cards.filter fun k => k.ctx == ctx && k.underway).map (·.id)
          tlbRange := range } }
    else { s with mem := { s.mem with tlbic := fields ||| (if busy then 0x40000000 else 0) } }

/-- TLBIC_GO (R127): Estuary writes TLBIC. -/
def execTlbicGo (v : Word) (s : State) : Out := .next (s.estuary 0x10008 4 fun s => s.writeTlbic v)

/-- The copies and cards an invalidation waits for have performed what they had begun (R127): they are gone, or stand still with every write performed and no reducing
message on its way. -/
def State.tlbQuiet (s : State) : Bool := s.mem.tlbWait.all fun id =>
  !(s.copy.msgs.any fun m => m.id == id && !m.acked) &&
  (s.copy.entries.all fun e => e.id != id || (match e.phase with | .sending => false | .moved => false | _ => decide (e.time ≤ s.tideOf (e.q / 64))))
    && s.cards.all fun k => k.id != id || k.phase == .queued

/-- TLB_INVALIDATION_DONE (R127): no TLB holds an entry of the range, what used a removed translation has performed, and BUSY clears. -/
def execTlbInvalidationDone (s : State) : Out :=
  .next (if s.mem.tlbic.getLsbD 30 && s.condMet s.mem.tlbKey && s.tlbQuiet then
      State.dropCond { s with mem := { s.mem with
        tlb := s.mem.tlb.filter fun t => !t.inRange s.mem.tlbRange
        tlbic := s.mem.tlbic &&& 0xBFFFFFFF
        tlbWait := [] } } s.mem.tlbKey
    else s)

end Sys2Proof.Machine
end

