-- ==== Sys2Proof/Machine/CopyMove.lean ====
section
/-! DEFINITION. The movement of one copy entry: accesses of an engine, elements, array-native tiles, scaled blocks, and the ranks of `XRED` (R119,
R153 to R156, R160, R162, R165 to R167). -/

namespace Sys2Proof.Machine

/-! ## Accesses of an engine (R119, R160, R236, R238) -/

/-- Why an entry stops: a translation fault, a status, a refusal at a target, or a wait: for an access to the same bytes that an array accepted before (R99), or for a RUN of
the banks it reaches (R203). -/
inductive CopyStop where
  | fault (va detail : Nat)
  | fail (status : Nat)
  | refused (pa : Nat)
  | held
deriving DecidableEq, Repr

/-- The die of an entry's engine (R150). -/
def CopyEntry.die (e : CopyEntry) : Nat := e.q / 64
/-- The translation unit of an engine: the L2 TLB of its die (R126). -/
def CopyEntry.unit (e : CopyEntry) : Nat := 192 + e.q / 64

/-- The scope and instance of the stamps of an entry's writes (R132, R138): none of a relaxed entry, nor of a release at a scope whose instances hold no copy
engine. -/
def CopyEntry.stampScope (e : CopyEntry) : Option (Nat × Nat) := if 4 ≤ e.rel then some (e.rel, 0) else none

/-- The place of one byte of an access that starts at `va`. -/
def State.engPlace (s : State) (e : CopyEntry) (va i : Nat) (need : Need) : Except CopyStop Nat :=
  match s.xlate e.unit e.ctx ((va + i) % 2 ^ 64) with
  | .bad d _ => .error (.fault va d)
  | .ok pa en =>
    if (need.read && !leafRead en) || (need.write && !leafWrite en) then .error (.fail 3)
    else if (need.read && !s.granted e.ctx.toNat 1 pa false) || (need.write && !s.granted e.ctx.toNat 1 pa true) then .error (.refused pa)
    else if need.read && s.mem.poisoned pa 1 then .error (.fail 6)
    else .ok pa

/-- The places of the n bytes at a virtual address. -/
def State.engPlaces (s : State) (e : CopyEntry) (va : Nat) (need : Need) : Nat → Except CopyStop (List Nat)
  | 0 => .ok []
  | n + 1 => match s.engPlaces e va need n with
    | .ok ps => match s.engPlace e va n need with
      | .ok p => .ok (ps ++ [p])
      | .error x => .error x
    | .error x => .error x

/-- Read bytes at their places, after recall (R119). -/
def State.readPlaces (s : State) (ps : List Nat) : List Byte × State :=
  let m := ps.foldl (fun m p => m.recall (lineOf p) fun _ => false) s.mem
  (ps.map (readByte m.home), { s with mem := m })

/-- Write bytes at their places (R119), as a release at a scope when there is one (R138). -/
def State.writePlaces (s : State) (scope : Option (Nat × Nat)) (ps : List Nat) (bs : List Byte) : State :=
  (List.range ps.length).foldl (fun (s : State) i =>
    let pa := ps.getD i 0
    s.homeWriteAs (scope.map fun x => ⟨x.1, x.2, s.devTime pa⟩) pa [bs.getD i 0]) s

/-- An engine reads n bytes of global memory. -/
def State.engRead (s : State) (e : CopyEntry) (va n : Nat) : Except CopyStop (List Byte × State) :=
  match s.engPlaces e va ⟨true, false⟩ n with
  | .ok ps => if ps.any s.pchBusy then .error .held else .ok (s.readPlaces ps)
  | .error x => .error x

/-- An engine writes global memory: the state and the completion time. -/
def State.engWrite (s : State) (e : CopyEntry) (va : Nat) (bs : List Byte) : Except CopyStop (State × Nat) :=
  match s.engPlaces e va ⟨false, true⟩ bs.length with
  | .ok ps => if ps.any s.pchBusy then .error .held else .ok (s.writePlaces e.stampScope ps bs, ps.foldl (fun t p => max t (s.devTime p)) 0)
  | .error x => .error x

/-- The scratchpad places of n bytes of the entry's workgroup (R114). -/
def State.engCells (s : State) (e : CopyEntry) (a n : Nat) : Option (List Nat) :=
  match s.wgOf e.wg with
  | some g => (List.range n).mapM fun i => (spadPlace g.arrays.length ((a + i) % 2 ^ 32)).map fun x => spadCell g.core (g.arrays.getD x.1 0) x.2
  | none => none

/-- An engine reads n bytes of scratchpad, in any mode (R100), once the stores and atomics that the array accepted before for the same bytes have been made (R99); one in MODE
11 finds the bytes that are stored. -/
def State.engSpadRead (s : State) (e : CopyEntry) (a n : Nat) : Except CopyStop (List Byte × State) :=
  match s.engCells e a n with
  | some cs =>
    if cs.any fun c => s.modeAt c != 3 && s.behind 0 true c 1 then .error .held
    else if cs.any fun c => s.mem.spadPoison.contains (c / 8) then .error (.fail 6)
    else .ok (cs.map (readByte s.mem.spad), s)
  | none => .error (.fail 4)

/-- Arrays accept the bytes of an entry's write, which come from a home by way of the engine (R99, R100, R135). -/
def State.acceptCells (s : State) (id : Nat) (cs : List Host.Cell) : State :=
  ((cs.map fun c => cellArray c.1).eraseDups).foldl (fun (s : State) p =>
    s.mapArray p.1 p.2 fun a => { a with queue := a.queue ++ [.write id (cs.filter fun c => cellArray c.1 == p) (s.tideOf (dieOfCore p.1) + 12)] }) s

/-- An engine writes scratchpad (R99, R100): MODE 10 and 01 fail; otherwise the arrays accept the bytes, once what they accepted before for the same bytes has been made, and
ARRAY_ACCESS_ACCEPT makes them, in MODE 11 not before MODE 00. -/
def State.engSpadWrite (s : State) (e : CopyEntry) (a : Nat) (bs : List Byte) : Except CopyStop (State × Nat) :=
  match s.engCells e a bs.length with
  | some ps =>
    let cs := ps.zip bs
    if cs.any fun c => s.modeAt c.1 == 2 || s.modeAt c.1 == 1 then .error (.fail 5)
    else if cs.any fun c => s.modeAt c.1 == 0 && s.behind 0 false c.1 1 then .error .held
    else .ok (s.acceptCells e.id cs, 0)
  | none => .error (.fail 4)

/-! ## Elements (R153, R154, R162) -/

/-- What a movement has done: the state, its counts and latest completion time, the elements of reducing messages, the writes for a peer and the columns of
the scale group under way. -/
structure Mover where
  s : State
  cnt : Counts
  time : Nat
  reds : List RedElem
  out : List (Nat × Nat × List Byte)
  cols : List (Nat × List Int)
deriving DecidableEq, Repr

/-- Add counts. -/
def Mover.add (m : Mover) (c : Counts) : Mover := { m with cnt := m.cnt.add c }

/-- The operands of an entry for the rules of its record. -/
def State.copyOperands (s : State) (e : CopyEntry) : CopyOperands :=
  ⟨match e.kind with | .reduce r => some r | _ => none, e.org, e.dense.toNat, e.wide,
    match s.wgOf e.wg with | some g => g.arrays.length | none => 0⟩

/-- Read the tensor element c: its bits, and its scale code when scales are in use. -/
def State.readTensor (s : State) (e : CopyEntry) (L : Layout) (c : List Int) : Except CopyStop (Nat × Option Nat × State) :=
  match s.engRead e (L.tensorAddr c) (formatBytes L.tensorFmt) with
  | .ok (bs, s1) =>
    if L.scbase = 0 then .ok (numLE bs, none, s1)
    else match s1.engRead e (L.scaleAddr c) 1 with
      | .ok (sc, s2) => .ok (numLE bs, some (numLE sc), s2)
      | .error x => .error x
  | .error x => .error x

/-- Write an element on the dense side: scratchpad, global memory, or the peer (R152, R168). -/
def Mover.writeDense (m : Mover) (e : CopyEntry) (L : Layout) (n v : Nat) : Except CopyStop Mover :=
  let a := L.denseAddr e.dense.toNat n
  let bs := bytesLE (formatBytes L.denseFmt) v
  if L.dir = 4 then .ok { m with out := m.out ++ [(n, a, bs)] }
  else match (if L.spad then m.s.engSpadWrite e a bs else m.s.engWrite e a bs) with
    | .ok (s, t) => .ok { m with s := s, time := max m.time t }
    | .error x => .error x

/-- Read the dense element n. -/
def State.readDense (s : State) (e : CopyEntry) (L : Layout) (n : Nat) : Except CopyStop (Nat × State) :=
  let a := L.denseAddr e.dense.toNat n
  match (if L.spad then s.engSpadRead e a (formatBytes L.denseFmt) else s.engRead e a (formatBytes L.denseFmt)) with
  | .ok (bs, s1) => .ok (numLE bs, s1)
  | .error x => .error x

/-- Write, or reduce into, the tensor element c (R153, R162). -/
def Mover.writeTensor (m : Mover) (e : CopyEntry) (L : Layout) (n : Nat) (c : List Int) (v : Nat) : Except CopyStop Mover :=
  let va := L.tensorAddr c
  let size := formatBytes L.tensorFmt
  match e.kind with
  | .reduce _ => match m.s.engPlaces e va ⟨true, true⟩ size with
    | .ok ps => .ok { m with reds := m.reds ++ [⟨n, ps, L.dfmt, v⟩] }
    | .error x => .error x
  | _ => match m.s.engWrite e va (bytesLE size v) with
    | .ok (s, t) => .ok { m with s := s, time := max m.time t }
    | .error x => .error x

/-- Move box element n, when no block is scaled on writing. -/
def Mover.element (m : Mover) (e : CopyEntry) (L : Layout) (n : Nat) : Except CopyStop Mover :=
  let c := L.element e.org n
  if L.reads then
    if L.inBounds c then
      match m.s.readTensor e L c with
      | .ok (x, sc, s1) =>
        let v := match sc with | some k => L.convertScaled k x | none => L.convert x
        (Mover.add { m with s := s1 } v.2).writeDense e L n v.1
      | .error x => .error x
    else match L.outside with
      | some v => (m.add v.2).writeDense e L n v.1
      | none => .ok m
  else if L.inBounds c then
    match m.s.readDense e L n with
    | .ok (x, s1) =>
      let v := L.convert x
      (Mover.add { m with s := s1 } v.2).writeTensor e L n c v.1
    | .error x => .error x
  else .ok m

/-- What a run of a unit of elements gives: the movement, and where and why it stopped. -/
abbrev Moved := Mover × Option (Nat × CopyStop)

/-- A unit of one element. -/
def Mover.single (m : Mover) (e : CopyEntry) (L : Layout) (n : Nat) : Moved :=
  match m.element e L n with
  | .ok m' => (m', none)
  | .error x => (m, some (n, x))

/-! ## Blocks written with a scale (R154) -/

/-- The sources of the in-bounds elements of a block of 32: index, element and exact value after FZI, with its flush count. -/
def State.blockSources (s : State) (e : CopyEntry) (L : Layout) (first : Nat) :
    Nat → Except CopyStop (List (Nat × List Int × Ext × Counts) × State)
  | 0 => .ok ([], s)
  | k + 1 => match s.blockSources e L first k with
    | .error x => .error x
    | .ok (xs, s1) =>
      let c := L.element e.org (first + k)
      if L.inBounds c then
        match s1.readDense e L (first + k) with
        | .error x => .error x
        | .ok (x, s2) =>
          let v := cvtDecode L.sfmt L.fzi x
          .ok (xs ++ [(first + k, c, v.1, v.2)], s2)
      else .ok (xs, s1)

/-- Write the elements of a block from index n on. -/
def Mover.blockElements (m : Mover) (e : CopyEntry) (L : Layout) (sc n : Nat) : List (Nat × List Int × Ext × Counts) → Moved
  | [] => (m, none)
  | (i, c, v, k) :: rest =>
    if i < n then m.blockElements e L sc n rest
    else
      let r := L.encodeScaled sc v
      match m.writeTensor e L i c r.1 with
      | .ok m' => (m'.add (k.add r.2)).blockElements e L sc n rest
      | .error x => (m, some (i, x))

/-- The block that holds element n, written from n on: the scale first, then the elements (log 21). -/
def Mover.block (m : Mover) (e : CopyEntry) (L : Layout) (n : Nat) : Moved :=
  let first := n / 32 * 32
  match m.s.blockSources e L first 32 with
  | .error x => (m, some (n, x))
  | .ok (xs, s1) =>
    let sc := blockScale L.dfmt (Config.freeScale e.id first) (xs.map fun x => x.2.2.1)
    match xs with
    | [] => (m, none)
    | (i, c, _, _) :: _ =>
      if first < n then Mover.blockElements { m with s := s1 } e L sc n xs
      else match s1.engWrite e (L.scaleAddr c) [BitVec.ofNat 8 sc] with
        | .ok (s2, t) => Mover.blockElements { m with s := s2, time := max m.time t } e L sc n xs
        | .error x => (m, some (i, x))

/-! ## Array-native tiles (R155) -/

/-- The ASG source elements of a column of a scale group, as FP32 codes. -/
def State.columnSources (s : State) (e : CopyEntry) (L : Layout) (g n : Nat) : Nat → Except CopyStop (List Nat × State)
  | 0 => .ok ([], s)
  | k + 1 => match s.columnSources e L g n k with
    | .error x => .error x
    | .ok (xs, s1) =>
      let c := L.element e.org (n + L.boxAt 0 * (g * L.group + k))
      let fp (x : Nat) : Nat := if L.sfmt = 1 then bf16ToFp32 (x % 2 ^ 16) else x % 2 ^ 32
      if L.inBounds c then
        match s1.engRead e (L.tensorAddr c) (formatBytes L.sfmt) with
        | .ok (bs, s2) => .ok (xs ++ [fp (numLE bs)], s2)
        | .error x => .error x
      else .ok (xs ++ [fp L.fill], s1)

/-- The quantised columns of a scale group: scale code and mantissas, with the counts (R75). -/
def State.tileColumns (s : State) (e : CopyEntry) (L : Layout) (g : Nat) : Nat → Except CopyStop (List (Nat × List Int) × Counts × State)
  | 0 => .ok ([], .zero, s)
  | n + 1 => match s.tileColumns e L g n with
    | .error x => .error x
    | .ok (cols, k, s1) => match s1.columnSources e L g n L.group with
      | .error x => .error x
      | .ok (xs, s2) =>
        let q := quantise (L.dfmt == 12) L.fzi xs
        .ok (cols ++ [(q.1, q.2.1)], k.add q.2.2, s2)

/-- The 48 bytes of a body row (R94): 8-bit or 6-bit mantissas, column 0 lowest. -/
def tileRow (a6 : Bool) (ms : List Int) : List Byte :=
  let w := if a6 then 6 else 8
  bytesLE 48 ((List.range ms.length).foldl (fun t n => t + wrapInt w (ms.getD n 0) * 2 ^ (w * n)) 0)

/-- Body row k of a tile, of the columns under way. -/
def Mover.bodyRow (m : Mover) (e : CopyEntry) (L : Layout) (k : Nat) : Moved :=
  match m.s.engSpadWrite e (e.dense.toNat + 48 * k) (tileRow (L.dfmt == 12) (m.cols.map fun c => c.2.getD (k % L.group) 0)) with
  | .ok (s, _) => ({ m with s := s }, none)
  | .error x => (m, some (L.boxAt 0 * k, x))

/-- The row of a tile that starts at element n; the first row of a scale group comes after the group is quantised and its sidecar bytes are written, which is done once: the
columns stay until the last row of the group. -/
def Mover.tileUnit (m : Mover) (e : CopyEntry) (L : Layout) (n : Nat) : Moved :=
  let k := n / L.boxAt 0
  let g := k / L.group
  if !m.cols.isEmpty then
    let r := m.bodyRow e L k
    if r.2.isNone && k % L.group + 1 == L.group then ({ r.1 with cols := [] }, none) else r
  else match m.s.tileColumns e L g (L.boxAt 0) with
    | .error x => (m, some (n, x))
    | .ok (cols, c, s1) =>
      match s1.engSpadWrite e (0x80000 + 0x800 * (e.dense.toNat / 12288) + 64 * g) (cols.map fun c => BitVec.ofNat 8 c.1) with
      | .ok (s2, _) => Mover.bodyRow (Mover.add { m with s := s2, cols := cols } c) e L k
      | .error x => (m, some (n, x))

/-! ## A whole entry -/

/-- Element n and the end of the unit it is moved in: one element, a block of 32, or a row of a tile. -/
def Mover.unit (m : Mover) (e : CopyEntry) (L : Layout) (n : Nat) : Moved × Nat :=
  if L.swz = 3 then (m.tileUnit e L n, n + L.boxAt 0)
  else if L.scbase != 0 && !L.reads then (m.block e L n, n / 32 * 32 + 32)
  else (m.single e L n, n + 1)

/-- Move the elements from n up, at most `fuel` units and up to the first element `halt` is true of: the movement with where and why it stopped, and the element to go on
from. -/
def Mover.run (m : Mover) (e : CopyEntry) (L : Layout) (halt : Nat → Bool) : Nat → Nat → Moved × Nat
  | 0, n => ((m, none), n)
  | fuel + 1, n =>
    if L.count ≤ n then ((m, none), n)
    else match m.unit e L n with
      | ((m', some x), _) => ((m', some x), n)
      | ((m', none), n') => if halt n' then ((m', none), n') else m'.run e L halt fuel n'

/-- Element n of an entry starts a 64-byte message of what it writes (R164, R220): the first element, or one whose destination lies in another sector than that
of the element before. -/
def Layout.startsMessage (L : Layout) (org : List Int) (dense n : Nat) : Bool :=
  let place (k : Nat) : Nat := (if L.reads then L.denseAddr dense k else L.tensorAddr (L.element org k)) / 64
  n == 0 || place n != place (n - 1)

/-! ## XRED (R165 to R167) -/

/-- The offset at which a descriptor is invalid (R165, R166). -/
def xredOffence (bs : List Byte) : Option Nat :=
  let count := fieldAt bs 0x20 4
  let ranks := fieldAt bs 0x24 2
  let ctl := fieldAt bs 0x28 4
  ([ (count % 32 != 0 || count < 32 || decide (2 ^ 24 < count), 0x20), (ranks == 0 || decide (4096 < ranks), 0x24),
     (decide (ranks ≤ fieldAt bs 0x26 2), 0x24),
     (decide (1 < bitsAt ctl 28 4) || decide (1 < bitsAt ctl 24 4) || bitsAt ctl 0 22 != 0, 0x28),
     (((bs.drop 0x2C).take 84).any (· != 0), 0x2C) ].find? (·.1)).map (·.2)

/-- The contribution of a rank (R167): FP32 codes after FZI with infinities clamped, and the counts, by element. -/
def State.xredSources (s : State) (e : CopyEntry) (src fmt : Nat) (fzi : Bool) : Nat → Except (Nat × CopyStop) (List Nat × Counts × State)
  | 0 => .ok ([], .zero, s)
  | n + 1 => match s.xredSources e src fmt fzi n with
    | .error x => .error x
    | .ok (xs, k, s1) =>
      let size := formatBytes fmt
      match s1.engRead e ((src + size * n) % 2 ^ 64) size with
      | .error x => .error (n, x)
      | .ok (bs, s2) =>
        let x := fp32.flushIn fzi (if fmt = 1 then bf16ToFp32 (numLE bs) else numLE bs)
        match fp32.decode x.1 with
        | .inf neg => .ok (xs ++ [fp32.signed neg 0x7F7FFFFF], (k.add x.2).add .oneSat, s2)
        | .nan => .ok (xs ++ [x.1], (k.add x.2).add .oneNan, s2)
        | .num .. => .ok (xs ++ [x.1], k.add x.2, s2)

/-- h = ⌈log2 RANKS⌉ (R167). -/
def ceilLog2 (n : Nat) : Nat := if n ≤ 1 then 0 else (n - 1).log2 + 1

/-- The agreed code of a block over every rank's values (R167). -/
def xredCode (vs : List Ext) : Nat :=
  if vs.any Ext.isNan then 255
  else
    let es : List Int := vs.filterMap fun v => match v with
      | .num _ m e => if m = 0 then none else some (log2Mag m e)
      | _ => none
    if es.isEmpty then 0 else (es.foldl max (-127) + 127).toNat

/-- m[r][i] for a block code (R167), with its counts. -/
def xredTerm (q code : Nat) (v : Ext) : Int × Counts :=
  match v with
  | .num neg m e =>
    let t := scaled neg (roundMag 0 neg m (e + q - ((code : Int) - 127))) 0 0
    let lim : Int := 2 ^ (q + 1) - 1
    let r := max (-lim) (min lim t)
    (r, (if r = t then Counts.zero else .oneSat).add (if m != 0 && r == 0 then .oneFtz else .zero))
  | _ => (0, .zero)

/-- Phase 2 of element i for a rank's format (R167): `vs` are every rank's values of it. -/
def xredElement (q code dfmt : Nat) (fzo : Bool) (vs : List Ext) : Nat :=
  let f := if dfmt = 1 then bf16 else fp32
  if code = 255 then f.nanCode
  else if code = 0 then 0
  else
    let t : Int := vs.foldl (fun (t : Int) v => t + (xredTerm q code v).1) 0
    if t = 0 then 0 else (f.encode 0 false fzo (.num (decide (t < 0)) t.natAbs ((code : Int) - 127 - q))).1

/-- The result of a rank and the counts of phase 2 of its own contribution `own` (R167), over the contributions `all` of every rank. -/
def xredResult (ranks count dfmt : Nat) (fzo : Bool) (all : List (List Ext)) (own : List Ext) : List Nat × Counts :=
  let q := 30 - ceilLog2 ranks
  let codes := (List.range (count / 32)).map fun b => xredCode (all.flatMap fun xs => (xs.drop (32 * b)).take 32)
  let code (i : Nat) : Nat := codes.getD (i / 32) 0
  ((List.range count).map fun i => xredElement q (code i) dfmt fzo (all.map fun xs => xs.getD i .nan),
    (List.range count).foldl (fun t i =>
      if code i = 255 || code i = 0 then t else t.add (xredTerm q (code i) (own.getD i .nan)).2) .zero)

end Sys2Proof.Machine
end

