-- ==== Sys2Proof/Machine/Place.lean ====
section
/-! DEFINITION. Launch headers as they are read and checked, and the placement of workgroups (R23, R24, R27 to R31, R170, R181). -/

namespace Sys2Proof.Machine

/-! ## Headers (R23, R24) -/

/-- The header in 128 bytes. -/
def headerOf (bs : List Byte) : Header :=
  let f (i : Nat) : DWord := BitVec.ofNat 64 (numLE ((bs.drop (8 * i)).take 8))
  ⟨f 0, f 1, f 2, f 3, f 4, f 5, f 6, f 7, f 8⟩

/-- True when bytes 0x48 to 0x7F are zero (R23). -/
def reservedZero (bs : List Byte) : Bool := ((bs.drop 72).take 56).all fun b => b == 0

/-- The fields of a header that a task uses are valid (R24, R170): pointers, RESW and SCHW. -/
def Header.coreValid (h : Header) (ctx : Nat) : Bool :=
  !high8 h.statp && h.statp.toNat % 8 == 0 && !high8 h.safep && h.safep.toNat % 8 == 0 && !high8 h.traph && h.traph.toNat % 4 == 0
    && bitsAt h.resw.toNat 39 25 == 0 && bitsAt h.schw.toNat 20 44 == 0
    && decide (1 ≤ h.regs) && decide (h.regs ≤ 64) && decide (h.gmax ≤ h.regs)
    && h.spadkb % 4 == 0 && decide (h.spadkb ≤ 384) && decide (h.arrays ≤ 32) && decide (h.arrayCount ≤ 32)
    && decide (1 ≤ h.bars) && decide (h.bars ≤ 32) && decide (h.queues ≤ 8) && h.ctx == ctx

/-- A valid header of a kernel launch in a context (R24). -/
def Header.valid (h : Header) (ctx : Nat) : Bool :=
  let total := h.sumWidth 0 6
  h.coreValid ctx && !high8 h.entry && h.entry.toNat % 4 == 0 && !high8 h.argp && h.argp.toNat % 8 == 0
    && bitsAt h.idw.toNat 42 22 == 0 && decide (h.wgcut ≤ h.clcut) && decide (h.clcut ≤ 6) && decide (total ≤ 64)
    && decide (h.sumWidth 0 h.wgcut ≤ 11) && decide (h.sumWidth h.wgcut h.clcut ≤ 2)
    && ((List.range 6).all fun i => decide (h.clcut ≤ i) || bitsAt h.glim.toNat (h.sumWidth 0 i) (h.width i) == 2 ^ h.width i - 1)
    && h.glim.toNat / 2 ^ total == 0

/-- A valid header of a task in a context (R170). -/
def Header.validTask (h : Header) (ctx : Nat) : Bool := h.coreValid ctx && decide (10 ≤ h.regs)

/-- The warps of a workgroup (R25). -/
def Header.warps (h : Header) : Nat := 2 ^ (h.sumWidth 0 h.wgcut - 7)
/-- The workgroups of a cluster (R25). -/
def Header.clusterSize (h : Header) : Nat := 2 ^ h.sumWidth h.wgcut h.clcut
/-- The clusters of a launch: the product of the extents from CLCUT up (R25). -/
def Header.clusters (h : Header) : Nat :=
  ((List.range 6).filter (h.clcut ≤ ·)).foldl (fun t i => t * (bitsAt h.glim.toNat (h.sumWidth 0 i) (h.width i) + 1)) 1

/-! ## Resources of a core (R10, R27, R41) -/

/-- A warp that keeps its position: it has not exited, or a register write that comes with its data is still due (R41); the results of the pipes, which come a
fixed time after issue, do not hold it. -/
def Warp.resident (w : Warp) : Bool := w.uid != 0 && (!w.hasExited || w.pends.any fun p => p.ready.isNone || p.query)

/-- The resident warps of a core. -/
def State.residents (s : State) (core : Nat) : List Warp := s.warps.filter fun w => w.core == core && w.resident

/-- The workgroups that hold a slot of a core. -/
def State.slotHolders (s : State) (core : Nat) : List Workgroup := s.wgs.filter fun g => g.core == core && !g.left

/-- The physical arrays of a core that no workgroup holds. -/
def State.freeArrays (s : State) (core : Nat) : List Nat :=
  (List.range 32).filter fun p => !(s.wgs.any fun g => g.core == core && g.arrays.contains p)

/-- The position for warp index i among taken positions with their GMAX (R27, R28): the lowest free one of its residue with room, else the lowest
free one with room. -/
def pickPosition (taken : List (Nat × Nat)) (i gmax : Nat) : Option Nat :=
  let free (p : Nat) : Bool :=
    let mates := taken.filter fun x => x.1 % 8 == p % 8
    !(taken.any fun x => x.1 == p) && decide (mates.length < 12) && decide (mates.foldl (fun t x => t + x.2) gmax ≤ 480)
  match ((List.range 96).filter fun p => p % 8 == i % 8).find? free with
  | some p => some p
  | none => (List.range 96).find? free

/-- Positions for n warps in index order (R28). -/
def pickPositions (gmax : Nat) : Nat → Nat → List (Nat × Nat) → Option (List Nat)
  | 0, _, _ => some []
  | n + 1, i, taken => match pickPosition taken i gmax with
    | some p => (pickPositions gmax n (i + 1) ((p, gmax) :: taken)).map (p :: ·)
    | none => none

/-- The positions a workgroup of n warps would take on a core, when all its resources fit (R27). -/
def State.fits (s : State) (core : Nat) (h : Header) (n : Nat) : Option (List Nat) :=
  let held := s.slotHolders core
  if decide (held.length < 64) && decide (h.arrayCount ≤ (s.freeArrays core).length)
      && decide (held.foldl (fun t g => t + g.bars.length) h.bars ≤ 512)
      && decide (held.foldl (fun t g => t + g.queues.length) h.queues ≤ 256) then
    pickPositions h.gmax n 0 ((s.residents core).map fun w => (w.pos, w.hdr.gmax))
  else none

/-! ## Placing (R28, R29, R31) -/

/-- USABLE of an array (R20, R21). -/
def State.usableOf (s : State) (core phys : Nat) : Nat :=
  match s.boot.harvest.find? fun x => x.1 == core && x.2.1 == phys with
  | some x => min x.2.2 4
  | none => 4

/-- A queue descriptor that is not initialised (R192). -/
def LaneQueue.fresh : LaneQueue := ⟨false, 0, 0, false, 0, 0⟩

/-- A warp at its start. -/
def Warp.fresh (uid core pos wg index : Nat) (h : Header) (ctx : BitVec 3) (task : Option DWord) (succs : List DWord) (argp : DWord)
    (acq : Nat) (a : Arch) : Warp :=
  ⟨uid, core, pos, wg, index, h, ctx, task, succs, argp, none, a, [], [], ctimeZero, acq, 0, [], [], [], [], false, 0, 0, false⟩

/-- The lanes of warp `index` of a kernel workgroup (R25, R31): those beyond 2^S begin Exited. -/
def startLanes (h : Header) (index : Nat) : List Lane :=
  lanesOf fun l => .start h.entry (if 128 * index + l < 2 ^ h.sumWidth 0 h.wgcut then .runnable else .exited)

/-- Where a workgroup is placed and for whom; `acq` is the time of the acquire its warps begin with (R147, R217). -/
structure Seat where
  core : Nat
  launch : Option Nat
  rank : Nat
  cluster : Nat
  members : List Nat
  task : Option DWord
  succs : List DWord
  argp : DWord
  acq : Nat
deriving DecidableEq, Repr

/-- Place a workgroup at positions, taking key `key` (R28 to R31): the lowest-numbered free arrays of the core (the model's choice: R28 does not say which, log 57),
zeroed in storage mode with A8 and SG 64, its barriers and queues fresh;
`start i` is the state of warp i. Warps of the core that have
exited with nothing left in flight, and whose stores' completion times are past (R127), are forgotten. -/
def State.placeWg (s : State) (key : Nat) (t : Seat) (h : Header) (ctx : BitVec 3) (ps : List Nat) (start : Nat → Arch) : State :=
  let arrays := (s.freeArrays t.core).take h.arrayCount
  let ws := (List.range ps.length).map fun i =>
    Warp.fresh (s.nextId + i) t.core (ps.getD i 0) key i h ctx t.task t.succs t.argp t.acq (start i)
  let gone (w : Warp) : Bool := w.uid == 0
    || (w.core == t.core && !w.resident && !(s.reqs.any fun r => r.uid == w.uid) && decide (latestUpTo w.ctime 5 ≤ s.tideOf (dieOfCore w.core)))
  let kept := s.warps.filter fun w => !gone w
  let all := if gone s.cur then ws ++ kept else kept ++ ws
  let inArrays (c : Host.Cell) : Bool := (cellArray c.1).1 == t.core && arrays.contains (cellArray c.1).2
  let g : Workgroup := ⟨key, t.core, t.launch, t.rank, t.cluster, t.members, h, ctx, ps.length, arrays,
    List.replicate h.bars ⟨0, 0, 0, 0, 0⟩, List.replicate h.queues .fresh, [], 0, false⟩
  { s with
    cur := all.headD .vacant
    others := all.tail
    wgs := s.wgs ++ [g]
    arrays := s.arrays.filter (fun a => !(a.core == t.core && arrays.contains a.phys))
      ++ arrays.map fun p => ⟨t.core, p, s.usableOf t.core p, 0, false, 64, false, [], [], []⟩
    mem := { s.mem with
      spad := s.mem.spad.filter fun c => !inArrays c
      spadPoison := s.mem.spadPoison.filter fun w => !((cellArray (8 * w)).1 == t.core && arrays.contains (cellArray (8 * w)).2) }
    nextId := s.nextId + ps.length }

/-- CLUSTER_PLACE (R29): the next cluster of a launch is placed whole on the cores given, when it fits there: one enabled core, or one hardware cluster
with every core enabled and rank k at position k. A die acts once its own Tidemark has reached the launch's start (R216). -/
def execClusterPlace (launch : Nat) (cores : List Nat) (s : State) : Out :=
  .next (match s.launches.find? fun l => l.key == launch with
    | some l =>
      let n := l.hdr.clusterSize
      let shape := match cores with
        | [_] => n == 1
        | c :: _ => n == cores.length && cores == (List.range n).map (c / 4 * 4 + ·) && c % 4 == 0 && (List.range 4).all fun i => s.coreEnabled (c + i)
        | [] => false
      if l.ended || l.next ≥ l.total || !shape
          || !cores.all (fun c => s.runsOn (dieOfCore c) l.ctx && s.coreEnabled c && !s.ctl.down.contains (dieOfCore c) && decide (l.start ≤ s.tideOf (dieOfCore c))) then s
      else
        let seats := cores.map fun c => (c, s.fits c l.hdr l.hdr.warps)
        if seats.any fun x => x.2.isNone then s
        else
          let keys := (List.range n).map fun i => s.nextId + i
          let s0 := { s with nextId := s.nextId + n }
          let s1 := (List.range n).foldl (fun (s : State) i =>
            let x := seats.getD i (0, none)
            s.placeWg (keys.getD i 0) ⟨x.1, some launch, i, l.next, keys, none, [], l.hdr.argp, l.acqTime⟩ l.hdr l.ctx (x.2.getD [])
              (fun w => .start (startLanes l.hdr w))) s0
          { s1 with launches := updWhere (fun y => y.key == launch) (fun y => { y with next := y.next + 1, left := y.left + n }) s1.launches }
    | none => s)

end Sys2Proof.Machine
end

