-- ==== Sys2Proof/Machine/CopyEvents.lean ====
section
/-! DEFINITION. The events of the copy engines: acceptance, start, completion, faults, QCTL, reducing messages, markers, `XRED` and peers (R145,
R150 to R168, R269). -/

namespace Sys2Proof.Machine

/-! ## Acceptance (R158) -/

/-- COPY_ENTRY_ACCEPT (R135, R158): once the offer has come there, a queue with room that is not paused accepts the entry that its instruction offers next; a barrier's expected arrivals rise.
An offer of a warp that has exited is void; one of a warp that is saved waits for its context. -/
def execCopyEntryAccept (id : Nat) (s : State) : Out :=
  .next (match s.entryOf id with
    | some e =>
      if e.acc != 0 then s
      else if (match s.warpOf e.uid with | some w => w.hasExited | none => !s.frozen e.uid) then (s.dropEntry id).settleToken e.uid e.ins
      else if (s.warpOf e.uid).isNone || s.ctl.down.contains e.die || decide (s.tideOf (dieOfCore e.core) < e.time) || (s.queueRec e.q).paused || decide (64 ≤ s.depth e.q)
          || (s.copy.entries.any fun x => x.ins == e.ins && x.acc == 0 && decide (x.id < id)) then s
      else
        let s1 := s.dropEntry id
        let s2 : State := { s1 with
          nextId := s.nextId + 1
          copy := { s1.copy with entries := s1.copy.entries ++ [{ e with acc := s.nextId, time := s.tideOf e.die + 8 }] } }
        match e.bar with
        | some b => s2.mapWg e.wg fun g => { g with bars := updAt (fun x => { x with ncopy := x.ncopy + 1 }) b.toNat g.bars }
        | none => s2
    | none => s)

/-! ## Start and movement (R145, R152 to R160) -/

/-- An entry is the oldest of its queue. -/
def State.headOf (s : State) (e : CopyEntry) : Bool := match s.queued e.q with
  | x :: _ => x.id == e.id
  | [] => false

/-- The release condition of an entry is met (R137, R145). -/
def State.entryReleased (s : State) (e : CopyEntry) : Bool := match e.cond with
  | some k => s.condMet k
  | none => true

/-- The release of an entry at `.sys` pushes what the warp stored, once, and waits for the times that this gives (R119, R123, R137). -/
def State.entryPush (s : State) (e : CopyEntry) : Option State :=
  let die := dieOfCore e.core
  let mine (c : RelCond) : Bool := some c.key == e.cond && c.scope == 5
  if s.conds.any mine then
    let s1 := s.pushFor e.uid die
    some { s1 with conds := s1.conds.map fun c => if mine c then { c with scope := 4, time := max c.time (s.pushTime die) } else c }
  else none

/-- An entry starts: its release is over. -/
def State.startEntry (s : State) (e : CopyEntry) : State := match e.cond with
  | some k => (s.dropCond k).mapEntry e.id fun x => { x with cond := none }
  | none => s

/-- The messages of an entry (R163). -/
def State.messagesOf (s : State) (e : CopyEntry) : List RedMsg := s.copy.msgs.filter fun m => m.id == e.id

/-- True while something of an entry is on its way: messages not acknowledged, or writes a peer has not acknowledged. -/
def State.outstanding (s : State) (e : CopyEntry) : Bool :=
  (s.messagesOf e).any (fun m => !m.acked) || s.copy.peers.any fun p => p.id == e.id

/-- An entry's status is decided: it waits for what is on its way. -/
def State.settleEntry (s : State) (id : Nat) : State := match s.entryOf id with
  | some e => s.mapEntry id fun x => { x with phase := if s.outstanding e then .sending else .moved }
  | none => s

/-- An entry ends with a status at an element (R159); a status it has already, at an earlier element or of a later success, stays. -/
def State.endEntry (s : State) (id status detail : Nat) : State :=
  (s.mapEntry id fun x =>
    if x.status != 0 && (status == 0 || decide (x.detail ≤ detail)) then x else { x with status := status, detail := detail }).settleEntry id

/-- An entry stops at an element (R160, R236): a translation fault holds it, a refusal is logged by its target, an access that its array accepted before makes it
wait. -/
def State.stopEntry (s : State) (e : CopyEntry) (n : Nat) : CopyStop → State
  | .fault va d => s.mapEntry e.id fun x => { x with phase := .faulted n (BitVec.ofNat 64 va) d }
  | .fail st => s.endEntry e.id st n
  | .refused pa =>
    (s.logRecord ⟨s.tideOf (homeDie pa), 3, 3, 4, 0, 0xFFFF, e.q / 4, 0, 0, BitVec.ofNat 64 pa, s.taskOf e.uid, e.ctx.toNat, 1, targetOf pa⟩).endEntry e.id 3 n
  | .held => s.mapEntry e.id fun x => { x with next := n }

/-- The elements of a movement gathered by the 64-byte sector of their first byte, in order of first touch (R163). -/
def gatherSectors : List RedElem → List (Nat × List RedElem)
  | [] => []
  | x :: xs =>
    let rest := gatherSectors xs
    let sec := sectorOf (x.pas.headD 0)
    match rest.find? fun g => g.1 == sec with
    | some g => (sec, x :: g.2) :: rest.filter fun y => y.1 != sec
    | none => (sec, [x]) :: rest

/-- The floor the engine last sent a slice for a queue (R163). -/
def State.floorOf (s : State) (slice q : Nat) : Nat × Nat :=
  match s.copy.floors.find? fun f => f.slice == slice && f.q == q with
  | some f => (f.seq, f.chunk)
  | none => (0, 0)

/-- Stamps compare by SEQ, then by chunk (R163). -/
def stampLt (a b : Nat × Nat) : Bool := decide (a.1 < b.1) || (a.1 == b.1 && decide (a.2 < b.2))

/-- Apply `f` to the message with a stamp. -/
def State.mapMsg (s : State) (q seq chunk : Nat) (f : RedMsg → RedMsg) : State :=
  { s with copy := { s.copy with msgs := updWhere (fun m => m.q == q && m.seq == seq && m.chunk == chunk) f s.copy.msgs } }

/-- Send the messages of a queue that have not been sent, while fewer than 1,024 of the queue stand at or above the floor last sent to their
slice (R163). -/
def State.sendMessages (s : State) (q : Nat) : State :=
  let due := s.copy.msgs.filter fun m => m.q == q && !m.sent
  due.foldl (fun (s : State) m =>
    let standing := s.copy.msgs.filter fun x => x.q == q && x.slice == m.slice && x.sent && !stampLt (x.seq, x.chunk) (s.floorOf m.slice q)
    if standing.length < 1024 then
      s.mapMsg q m.seq m.chunk fun x => { x with sent := true, flying := true, due := s.dueFrom (q / 64) }
    else s) s

/-- The messages of the elements a movement gathered. -/
def State.addMessages (s : State) (e : CopyEntry) (L : Layout) (rop : BitVec 3) (xs : List RedElem) : State :=
  let first := (s.messagesOf e).length
  let gs := gatherSectors xs
  let msgs := (List.range gs.length).map fun i =>
    let g := gs.getD i (0, [])
    RedMsg.mk e.id e.q e.seq (first + i) (sliceOf (64 * g.1)) rop L.rnd L.sat L.fzi L.fzo g.2 false false false false (0, 0)
  State.sendMessages { s with copy := { s.copy with msgs := s.copy.msgs ++ msgs } } e.q

/-- An entry that moves whole in one step: a reducing one, whose messages gather its elements by sector (R163). -/
def CopyEntry.whole (e : CopyEntry) : Bool := match e.kind with
  | .reduce _ => true
  | _ => false

/-- Writes of an entry go to its peer, behind those it sent before (R168). -/
def State.sendPeer (s : State) (e : CopyEntry) (L : Layout) (ws : List (Nat × Nat × List Byte)) : State :=
  let before := (s.copy.peers.filter fun p => p.id == e.id).flatMap (·.writes)
  if ws.isEmpty then s
  else { s with copy := { s.copy with peers := s.copy.peers.filter (fun p => p.id != e.id) ++ [⟨e.id, L.port, L.part, L.pctx, before ++ ws⟩] } }

/-- A switch or teardown has begun that takes the context of a queue off the part: its entries stop at their next message boundary (R213, R220). -/
def State.leavingQueue (s : State) (q : Nat) : Bool :=
  s.switchOn (q / 64) && (match s.ctl.switch with
    | some x => x.phase == .stopping && (s.queueRec q).bound && x.leaving == some (s.queueRec q).ctx.toNat
    | none => false)

/-- An element of an `XRED` result starts a message of what its rank writes (R164). -/
def XredRank.startsMessage (r : XredRank) (n : Nat) : Bool :=
  let place (k : Nat) : Nat := (r.dst.toNat + formatBytes r.dfmt * k) / 64
  n == 0 || place n != place (n - 1)

/-- An entry stands at a message boundary (R164, R220): it has not begun, it waits for others, or what it goes on with starts a message. -/
def State.atBoundary (s : State) (e : CopyEntry) : Bool := match e.phase with
  | .waiting => e.rec'.isEmpty || (layoutOf e.rec').startsMessage e.org e.dense.toNat e.next
  | .sending => (s.copy.ranks.find? fun r => r.id == e.id).all fun r => r.result.isNone || r.startsMessage e.next
  | _ => true

/-- An entry of a context that leaves goes on to its next message boundary only. -/
def State.haltsAt (s : State) (e : CopyEntry) (L : Layout) (n : Nat) : Bool := s.leavingQueue e.q && L.startsMessage e.org e.dense.toNat n

/-- Move an entry whose record is read and valid, from its element `next` up, by at most `units` units; while its context leaves, to its next message boundary. -/
def State.moveEntry (s : State) (e : CopyEntry) (L : Layout) (units : Nat) : State :=
  let r := Mover.run ⟨s, .zero, e.time, [], [], e.cols⟩ e L (s.haltsAt e L) (if e.whole then L.count else min units L.count) e.next
  let m := r.1.1
  let s1 := m.s.mapEntry e.id fun x => { x with cnt := x.cnt.add m.cnt, time := m.time, cols := m.cols, next := r.2 }
  let s2 := match e.kind with | .reduce rop => s1.addMessages e L rop m.reds | _ => s1
  let s3 := s2.sendPeer e L m.out
  match r.1.2 with
  | some (n, x) => s3.stopEntry e n x
  | none => if L.count ≤ r.2 then s3.endEntry e.id 0 0 else s3

/-- The access table of a Shoreline port grants a context's copy engines a write (R270): the bytes have no physical address here, so some range must (log 66). -/
def State.portGranted (s : State) (ctx port : Nat) : Bool := s.grants.any fun g =>
  (match g.ctx with | some c => c.toNat == ctx | none => true) && (match g.cls with | some k => k == 1 | none => true)
    && (match g.target with | some t => t == 48 + port | none => true) && g.write

/-- The record of a refusal at a Shoreline port (R236, R237). -/
def State.logPort (s : State) (e : CopyEntry) (port addr : Nat) : State :=
  s.logRecord ⟨s.tideOf 12, 3, 3, 4, 0, 0xFFFF, e.q / 4, 0, 0, BitVec.ofNat 64 addr, s.taskOf e.uid, e.ctx.toNat, 1, 48 + port⟩

/-- A copy or reducing copy begins, or goes on (R152 to R162): its record is read and checked once; a DIR 4 entry whose port is down ends with PEER
(R269), one whose port refuses it with PERM (R236). A reducing entry takes the queue's SEQ (R163). -/
def State.beginCopy (s : State) (e : CopyEntry) (units : Nat) : State :=
  let fresh := e.rec'.isEmpty
  match (if fresh then s.engRead e e.addr.toNat 128 else .ok (e.rec', s)) with
  | .error x => s.stopEntry e 0 x
  | .ok (bs, s1) =>
    let L := layoutOf bs
    match L.offence bs (s.copyOperands e) with
    | some off => if fresh then s1.endEntry e.id 1 off else s1.moveEntry e L units
    | none =>
      if fresh then
        let reduce := match e.kind with | .reduce _ => true | _ => false
        let q := s1.queueRec e.q
        let s2 := if reduce then s1.putQueueRec { q with seq := (q.seq + 1) % 2 ^ 32 } else s1
        let e2 := { e with rec' := bs, seq := q.seq }
        let s3 := s2.mapEntry e.id fun _ => e2
        if L.dir = 4 && !s3.boot.portsUp then s3.endEntry e.id 7 0
        else if L.dir = 4 && !s3.portGranted e.ctx.toNat L.port then (s3.logPort e L.port (L.denseAddr e.dense.toNat 0)).endEntry e.id 3 0
        else s3.moveEntry e2 L units
      else s1.moveEntry e L units

/-- What R166 compares of a rank. -/
def XredRank.toEnd (r : XredRank) : XredEnd := ⟨r.group, r.epoch, r.count, r.ranks⟩
/-- Two ranks of one use of a group. -/
def XredEnd.mates (a b : XredEnd) : Bool := a.group == b.group && a.epoch == b.epoch
/-- Two ranks of one use of a group disagree (R166). -/
def XredEnd.disagrees (a b : XredEnd) : Bool := a.mates b && (a.count != b.count || a.ranks != b.ranks)

/-- The ranks that wait for the phase 1 of others. -/
def State.waitingRanks (s : State) : List XredRank := s.copy.ranks.filter fun r => r.result.isNone && (match s.entryOf r.id with
  | some e => e.phase == .sending && e.status == 0
  | none => false)

/-- An `XRED` entry begins (R165, R166, R368): descriptor, group table and source are read; a valid rank takes part and waits for the others; ranks that
disagree end with XMATCH. -/
def State.beginXred (s : State) (e : CopyEntry) : State :=
  match s.engRead e e.addr.toNat 128 with
  | .error x => s.stopEntry e 0 x
  | .ok (bs, s1) =>
    match xredOffence bs with
    | some off => s1.endEntry e.id 1 off
    | none =>
      let ranks := fieldAt bs 0x24 2
      let mine := fieldAt bs 0x26 2
      match s1.engRead e (fieldAt bs 0x10 8) (8 * ranks) with
      | .error x => s1.stopEntry e 0 x
      | .ok (tab, s2) =>
        let row (r : Nat) : Nat := fieldAt tab (8 * r) 8
        let away := (List.range ranks).filter fun r => bitsAt (row r) 48 16 != 0xFFFF
        let barred := away.find? fun r => !s2.portGranted e.ctx.toNat (bitsAt (row r) 45 3)
        if bitsAt (row mine) 33 9 != e.q then s2.endEntry e.id 1 0x10
        else if !away.isEmpty && !s2.boot.portsUp then s2.endEntry e.id 7 0
        else if barred.isSome then (s2.logPort e (bitsAt (row (barred.getD 0)) 45 3) (fieldAt bs 0 8)).endEntry e.id 3 0
        else
          let ctl := fieldAt bs 0x28 4
          let count := fieldAt bs 0x20 4
          match s2.xredSources e (fieldAt bs 0 8) (bitsAt ctl 28 4) (bitAt ctl 23) count with
          | .error (n, x) => s2.stopEntry e n x
          | .ok (xs, k, s3) =>
            let me : XredRank := ⟨e.id, fieldAt bs 0x18 4, fieldAt bs 0x1C 4, count, ranks, mine, BitVec.ofNat 64 (fieldAt bs 8 8),
              bitsAt ctl 24 4, bitAt ctl 22, away, xs, s3.dueFrom e.die, none⟩
            let s4 := s3.mapEntry e.id fun x => { x with phase := .sending, rec' := bs, cnt := k }
            let foes := s4.waitingRanks.filter fun r => r.toEnd.disagrees me.toEnd
            let differs := (s4.copy.ranks.map XredRank.toEnd ++ s4.copy.ended).any fun x => x.disagrees me.toEnd
            let s5 : State := { s4 with copy := { s4.copy with ranks := s4.copy.ranks ++ [me] } }
            if differs then (me.id :: foes.map (·.id)).foldl (fun (s : State) id => s.endEntry id 9 0) s5 else s5

/-- COPY_ENTRY_BEGIN (R145, R150, R152, R160): the oldest entry of a queue that is neither paused nor held begins, once its release is over, and moves by at most
`units` elements, blocks or tile rows; one that is under way goes on. While its context leaves, one at a message boundary waits for QUEUE_PAUSE (R220). -/
def execCopyEntryBegin (m : Moves) (s : State) : Out :=
  .next (match s.entryOf m.id with
    | some e =>
      let q := s.queueRec e.q
      if e.acc == 0 || e.phase != .waiting || !s.headOf e || q.flt || q.paused || s.ctl.down.contains e.die || !s.entryReleased e
          || (e.rec'.isEmpty && decide (s.tideOf e.die < e.time))
          || (s.leavingQueue e.q && s.atBoundary e) then s
      else match s.entryPush e with
        | some s1 => s1
        | none =>
          let s1 := s.startEntry e
          match e.kind with
          | .copy => s1.beginCopy e m.units
          | .reduce _ => s1.beginCopy e m.units
          | .xred => s1.beginXred e
          | .marker _ => s
    | none => s)

/-- COPY_TRANSLATION_FAULT (R160, R237): FLT and QFLT are set, the queue is held, and the fault log names the access. -/
def execCopyTranslationFault (id : Nat) (s : State) : Out :=
  .next (match s.entryOf id with
    | some e => match e.phase with
      | .faulted _ va code =>
        let q := s.queueRec e.q
        if q.flt then s
        else (s.putQueueRec { q with flt := true, qflt := va }).logRecord
          ⟨s.tideOf e.die, 5, 2, code, 0, 0xFFFF, e.q / 4, 0, 0, va, s.taskOf e.uid, e.ctx.toNat, 1, 0⟩
      | _ => s
    | none => s)

/-! ## Completion (R91, R143, R145, R159) -/

/-- A rank of an entry that ends is remembered while its use of the group lasts (R166): until as many ranks have ended here as the group table places here, which is
the model's measure (log 62). -/
def State.endRank (s : State) (id : Nat) : State := match s.copy.ranks.find? fun r => r.id == id with
  | some r =>
    let ended := r.toEnd :: s.copy.ended
    let rest := s.copy.ranks.filter fun x => x.id != id
    let done := !(rest.any fun x => x.toEnd.mates r.toEnd) && decide (r.ranks - r.away.length ≤ (ended.filter fun x => x.mates r.toEnd).length)
    { s with copy := { s.copy with ranks := rest, ended := if done then ended.filter fun x => !x.mates r.toEnd else ended } }
  | none => s

/-- An entry leaves its queue with its status: own counts, floor notices, token, barrier arrival. -/
def State.deliver (s : State) (e : CopyEntry) : State :=
  let by' : StatBy := ⟨e.ctx, 1, e.unit, e.die, 0xFFFF, e.q / 4, s.taskOf e.uid⟩
  let counts := if e.statp = 0 then [] else statWords e.statp.toNat [⟨e.tid, e.cnt.sat, e.cnt.ftz, e.cnt.nan, 0⟩]
  let s1 := counts.foldl (fun (s : State) p => s.statAdd by' p.1 p.2) s
  let slices := (((s1.messagesOf e).filter (·.sent)).map fun m => m.slice).eraseDups
  let floors := slices.map fun sl => RedFloor.mk sl e.q (e.seq + 1) 0 true
  let s2 : State := State.endRank { s1 with copy := { s1.copy with
    floors := floors ++ s1.copy.floors.filter fun f => !(f.q == e.q && slices.contains f.slice)
    msgs := s1.copy.msgs.filter fun m => m.id != e.id
    peers := s1.copy.peers.filter fun p => p.id != e.id } } e.id
  let s3 := ((s2.dropEntry e.id).writeToken e.uid e.ins e.hdl e.tok (laneMask e.lane) (statusWord e.status e.detail)).settleToken e.uid e.ins
  let s4 := match e.bar with
    | some b => s3.mapWgAny e.wg fun g => { g with bars := updAt (fun x => { x with carr := x.carr + 1 }) b.toNat g.bars }
    | none => s3
  match e.cond with | some k => s4.dropCond k | none => s4

/-- An array holds bytes that an entry has written (R100). -/
def State.holdsFor (s : State) (id : Nat) : Bool := s.arrays.any fun a => a.queue.any fun q => match q with
  | .write k _ _ => k == id
  | _ => false

/-- The writes of an entry have performed at `.dev`, as its engine's die and the warp's die see it and hear of it (R135, R136, R145), and in their arrays (R99). -/
def State.entryPerformed (s : State) (e : CopyEntry) : Bool :=
  !s.holdsFor e.id && decide (e.time + 8 ≤ s.tideOf e.die) && decide (e.time + (if dieOfCore e.core = e.die then 8 else 16) ≤ s.tideOf (dieOfCore e.core))

/-- COPY_ENTRY_COMPLETE (R145, R159). -/
def execCopyEntryComplete (id : Nat) (s : State) : Out :=
  .next (match s.entryOf id with
    | some e => if e.phase == .moved && s.headOf e && s.entryPerformed e then s.deliver e else s
    | none => s)

/-! ## QFENCE (R161) -/

/-- The markers of a `QFENCE` leave together with a status. -/
def State.leaveMarkers (s : State) (j : JoinRec) (status : Nat) : State :=
  let s1 : State := { s with copy := { s.copy with
    entries := s.copy.entries.filter fun e => e.kind != .marker j.id
    joins := s.copy.joins.filter fun x => x.id != j.id } }
  (s1.writeToken j.uid j.id j.hdl j.tok j.act (statusWord status 0)).settleToken j.uid j.id

/-- QFENCE_MARKERS_LEAVE (R161): every entry accepted earlier on the named queues has completed. -/
def execQfenceMarkersLeave (id : Nat) (s : State) : Out :=
  .next (match s.copy.joins.find? fun j => j.id == id with
    | some j =>
      if s.copy.entries.any fun e => j.queues.contains e.q && e.acc != 0 && decide (e.acc < j.upto) then s else s.leaveMarkers j 0
    | none => s)

/-! ## QCTL (R151, R160, R166) -/

/-- The first element of an entry that is not known to have completed: of its unacknowledged messages and writes to a peer, else the one it goes on from. -/
def State.firstOpen (s : State) (e : CopyEntry) : Nat :=
  let sent := (s.copy.peers.filter fun p => p.id == e.id).flatMap fun p => p.writes.map (·.1)
  match sent ++ ((s.messagesOf e).filter fun m => !m.acked).flatMap fun m => m.elems.map (·.idx) with
  | [] => e.next
  | x :: xs => xs.foldl min x

/-- The status an abort gives an entry that is not complete (R151, R159, R160): XLATE to one held by a translation fault, else ABORTED, at its first element not
completed; with `all` a faulted one too has ABORTED (R213, R274). -/
def State.abortStatus (s : State) (e : CopyEntry) (all : Bool) : Nat × Nat := match e.phase with
  | .faulted n _ _ => (if all || e.status != 0 then 8 else 2, if e.status = 0 then min n (s.firstOpen { e with next := n }) else e.detail)
  | _ => (8, if e.status = 0 then s.firstOpen e else e.detail)

/-- An entry is aborted: it goes no further, and completes once what it has written has performed (R145); with `lost` its counts are discarded (R91). -/
def State.abortEntry (s : State) (e : CopyEntry) (all lost : Bool) : State :=
  let st := s.abortStatus e all
  let s1 := s.mapEntry e.id fun x => { x with phase := .moved, status := st.1, detail := st.2, statp := if lost then 0 else x.statp }
  { s1 with copy := { s1.copy with
    msgs := (s1.copy.msgs.filter fun m => m.id != e.id || m.sent).map fun m => if m.id == e.id then { m with acked := true } else m
    peers := s1.copy.peers.filter fun p => p.id != e.id } }

/-- Abort every incomplete entry of a queue (R151); the counts of those `lost` names are discarded. A `QFENCE` with a marker on it ends whole, on all its queues, with ABORTED: the model's choice (log 24). -/
def State.abortQueue (s : State) (q : Nat) (all : Bool) (lost : CopyEntry → Bool) : State :=
  let s0 := s.putQueueRec { s.queueRec q with flt := false, qflt := 0 }
  (s0.queued q).foldl (fun (s : State) (e : CopyEntry) => match e.kind with
    | .marker j => (match s.copy.joins.find? fun x => x.id == j with
        | some x => s.leaveMarkers x 8
        | none => s)
    | _ => s.abortEntry e all (lost e)) s0

/-- QCTL_ABORT (R151): Estuary writes ABORT to QCTLn. -/
def execQctlAbort (q : Nat) (s : State) : Out := .next (if q < 512 then s.estuary (0x20000 + 16 * q) 4 fun s => s.abortQueue q false fun _ => false else s)

/-- RESUME (R151, R160): a queue held by FLT goes on from the faulting element; an `XRED` whose result is known goes on writing it, and an entry that its peer has refused
meanwhile, or has not reached, ends (R168). -/
def State.resumeQueue (s : State) (q : Nat) : State :=
  if !(s.queueRec q).flt then s
    else
      let s1 := s.putQueueRec { s.queueRec q with flt := false, qflt := 0 }
      let replay (e : CopyEntry) : CopyEntry := match e.phase with
        | .faulted n _ _ =>
          let known := s1.copy.ranks.any fun r => r.id == e.id
          { e with phase := if known then .sending else .waiting, next := n }
        | _ => e
      let s2 : State := { s1 with copy := { s1.copy with entries := updWhere (fun e => e.q == q) replay s1.copy.entries } }
      ((s2.queued q).filter fun e => e.phase == .waiting && e.status != 0).foldl (fun (s : State) e => s.settleEntry e.id) s2

/-- QCTL_RESUME (R151): Estuary writes RESUME to QCTLn. -/
def execQctlResume (q : Nat) (s : State) : Out := .next (if q < 512 then s.estuary (0x20000 + 16 * q) 4 fun s => s.resumeQueue q else s)

/-- The queues of a context stand paused: it is READY, or on its way (R213, R222). -/
def State.queuesPaused (s : State) (ctx : BitVec 3) : Bool := match getKey Context.n ctx.toNat s.ctl.ctxs with
  | some c => c.state == .ready || (c.state == .switching && (s.ctl.switch.bind (·.leaving)) != some ctx.toNat)
  | none => false

/-- BOUND and CTX of QCTLn (R151) change only while DEPTH is zero; the queue is paused from then on as those of its context are (R213). -/
def State.bindQueue (s : State) (q : Nat) (bound : Bool) (ctx : BitVec 3) : State :=
  let x := s.queueRec q
  if s.depth q == 0 then
    s.putQueueRec { x with bound := bound, ctx := ctx, paused := if x.bound == bound && x.ctx == ctx then x.paused else bound && s.queuesPaused ctx }
  else s

/-- QCTL_BIND (R151): Estuary writes BOUND and CTX of QCTLn. -/
def execQctlBind (q : Nat) (bound : Bool) (ctx : BitVec 3) (s : State) : Out :=
  .next (if q < 512 then s.estuary (0x20000 + 16 * q) 4 fun s => s.bindQueue q bound ctx else s)

/-! ## Reducing messages (R162, R163) -/

/-- op(old, x) of a reducing copy (R162), with its counts. -/
def reduceOp (rop : BitVec 3) (fmt : Nat) (rnd : BitVec 2) (sat fzi fzo : Bool) (old x : Nat) : Nat × Counts :=
  match (if intFmt fmt then none else floatOfCode fmt) with
  | some f => match rop.toNat with
    | 0 => f.fadd rnd false fzi fzo old x
    | 1 => f.fminmax false fzi fzo old x
    | _ => f.fminmax true fzi fzo old x
  | none =>
    let un := fmt == 9
    let val (y : Nat) : Int := if un then (y % 2 ^ 32 : Nat) else signedVal 32 y
    match rop.toNat with
    | 0 =>
      let t := val old + val x
      let lo : Int := if un then 0 else -(2 ^ 31)
      let hi : Int := if un then 2 ^ 32 - 1 else 2 ^ 31 - 1
      let r := if sat then max lo (min hi t) else t
      (wrapInt 32 r, if r = t then .zero else .oneSat)
    | 1 => (if val x < val old then x else old, .zero)
    | 2 => (if val x > val old then x else old, .zero)
    | 3 => (Nat.land old x, .zero)
    | _ => (Nat.lor old x, .zero)

/-- Apply one element at its home: the state, its counts, its completion time; an element whose old value cannot be read is not applied. -/
def State.applyElem (s : State) (m : RedMsg) (x : RedElem) : Option (State × Counts × Nat) :=
  if x.pas.any fun p => s.mem.poisoned p 1 then none
  else
    let r := s.readPlaces x.pas
    let v := reduceOp m.rop x.fmt m.rnd m.sat m.fzi m.fzo (numLE r.1) x.x
    let scope := (s.entryOf m.id).bind CopyEntry.stampScope
    some (r.2.writePlaces scope x.pas (bytesLE x.pas.length v.1), v.2, x.pas.foldl (fun t p => max t (s.devTime p)) 0)

/-- Apply the elements of a message for an entry. -/
def State.applyMessage (s : State) (m : RedMsg) : State :=
  m.elems.foldl (fun (s : State) x => match s.applyElem m x with
    | some r => r.1.mapEntry m.id fun e => { e with cnt := e.cnt.add r.2.1, time := max e.time r.2.2 }
    | none => s.mapEntry m.id fun e => if e.status == 0 || decide (x.idx < e.detail) then { e with status := 6, detail := x.idx } else e) s

/-- The message with a stamp. -/
def State.msgOf (s : State) (q seq chunk : Nat) : Option RedMsg := s.copy.msgs.find? fun m => m.q == q && m.seq == seq && m.chunk == chunk

/-- The window a slice keeps for a queue (R163). -/
def State.windowOf (s : State) (slice q : Nat) : RedWindow :=
  (s.copy.windows.find? fun w => w.slice == slice && w.q == q).getD ⟨slice, q, 0, 0, []⟩
/-- Put a window. -/
def State.putWindow (s : State) (w : RedWindow) : State :=
  { s with copy := { s.copy with windows := w :: s.copy.windows.filter fun x => !(x.slice == w.slice && x.q == w.q) } }

/-- REDUCTION_MESSAGE_ARRIVE (R135, R162, R163): a message that has come and is below the floor or in the window is only acknowledged, one that finds the window full is
held, any other is applied, noted and acknowledged. -/
def execReductionMessageArrive (q seq chunk : Nat) (s : State) : Out :=
  .next (match s.msgOf q seq chunk with
    | some m =>
      let w := s.windowOf m.slice q
      let ack (s : State) : State := s.mapMsg q seq chunk fun x => { x with flying := false, ack := true, due := s.dueFrom (if m.slice = 4 then 12 else 8 + m.slice) }
      if !m.flying || decide (s.tideOf m.due.1 < m.due.2) || m.elems.any (fun x => x.pas.any s.pchBusy) then s
      else if stampLt (seq, chunk) (w.fseq, w.fchunk) || w.stamps.contains (seq, chunk) then ack s
      else if 1024 ≤ w.stamps.length then s
      else ack ((s.applyMessage m).putWindow { w with stamps := w.stamps ++ [(seq, chunk)] })
    | none => s)

/-- FLOOR_NOTICE_ARRIVE (R163): the floor rises and the stamps below it are dropped. None is on its way for the queue of a saved context, whose windows are saved
with it (R164). -/
def execFloorNoticeArrive (slice q seq chunk : Nat) (s : State) : Out :=
  .next (if s.copy.floors.any fun f => f.slice == slice && f.q == q && f.seq == seq && f.chunk == chunk && f.flying then
      let w := s.windowOf slice q
      let fl := if stampLt (w.fseq, w.fchunk) (seq, chunk) then (seq, chunk) else (w.fseq, w.fchunk)
      let s1 := s.putWindow { w with fseq := fl.1, fchunk := fl.2, stamps := w.stamps.filter fun x => !stampLt x fl }
      { s1 with copy := { s1.copy with
        floors := updWhere (fun f => f.slice == slice && f.q == q) (fun f => { f with flying := false }) s1.copy.floors } }
    else s)

/-- The chunk below which every message of an entry to a slice is acknowledged. -/
def State.ackedBelow (s : State) (e : CopyEntry) (slice : Nat) : Nat :=
  let ms := (s.messagesOf e).filter fun m => m.slice == slice
  match (ms.filter fun m => !m.acked).map (·.chunk) with
  | [] => (ms.foldl (fun t m => max t m.chunk) 0) + 1
  | c :: cs => cs.foldl min c

/-- REDUCTION_ACK_ARRIVE (R163): the engine sends a floor notice when it can raise the floor, then further messages; the last acknowledgement of an
entry whose elements are all sent ends its movement. -/
def execReductionAckArrive (q seq chunk : Nat) (s : State) : Out :=
  .next (match s.msgOf q seq chunk with
    | some m =>
      if !m.ack || m.acked || decide (s.tideOf m.due.1 < m.due.2) then s
      else
        let s1 := s.mapMsg q seq chunk fun m => { m with acked := true, flying := false }
        match s1.entryOf m.id with
        | none => s1
        | some e =>
          let c := s1.ackedBelow e m.slice
          let s2 : State := if stampLt (s1.floorOf m.slice q) (seq, c) then
              { s1 with copy := { s1.copy with
                floors := ⟨m.slice, q, seq, c, true⟩ :: s1.copy.floors.filter fun f => !(f.slice == m.slice && f.q == q) } }
            else s1
          let s3 := s2.sendMessages q
          if e.phase == .sending then s3.settleEntry e.id else s3
    | none => s)

/-- REDUCTION_RESEND (R163): a message that is not acknowledged, or a floor notice, is sent again, while the queue is not paused. -/
def execReductionResend (q seq chunk : Nat) (s : State) : Out :=
  if (s.queueRec q).paused then .next s else
  let s1 := s.mapMsg q seq chunk fun m => if m.sent && !m.acked then { m with flying := true, due := s.dueFrom (q / 64) } else m
  .next { s1 with copy := { s1.copy with
    floors := updWhere (fun f => f.q == q && f.seq == seq && f.chunk == chunk) (fun f => { f with flying := true }) s1.copy.floors } }

/-! ## XRED (R166, R167) -/

/-- XRED_PHASE1_COMPLETE (R135, R166, R167): every rank of a use of a group has delivered; `peers` are the contributions of ranks on peer parts. Each rank here gets its result,
and counts its own contribution. A rank on a peer part that disagrees ends the ranks here with XMATCH. -/
def execXredPhase1Complete (group epoch : Nat) (peers : List PeerRank) (s : State) : Out :=
  let mine := s.waitingRanks.filter fun r => r.group == group && r.epoch == epoch
  .next (match mine with
    | [] => s
    | r0 :: _ =>
      let source (k : Nat) : Option (List Nat) := match mine.find? fun r => r.rank == k with
        | some r => some r.xs
        | none => if r0.away.contains k then (peers.find? fun p => p.rank == k).map (·.xs) else none
      let all := (List.range r0.ranks).map source
      let paused := mine.any fun r => match s.entryOf r.id with | some e => (s.queueRec e.q).paused | none => false
      let foe := !r0.away.isEmpty && peers.any fun p => p.ranks != r0.ranks || p.xs.length != r0.count
      if paused then s
      else if foe then mine.foldl (fun (s : State) r => s.endEntry r.id 9 0) s
      else if all.any Option.isNone || mine.any fun r => decide (s.tideOf r.due.1 < r.due.2) then s
      else
        let vs := all.map fun x => (x.getD []).map fp32.decode
        mine.foldl (fun (s : State) r =>
          let x := xredResult r.ranks r.count r.dfmt r.fzo vs (r.xs.map fp32.decode)
          let s1 := s.mapEntry r.id fun e => { e with cnt := e.cnt.add x.2, next := 0 }
          { s1 with copy := { s1.copy with
            ranks := updWhere (fun y => y.id == r.id) (fun y => { y with result := some x.1 }) s1.copy.ranks } }) s)

/-- Write elements of the result of a rank from element n up, at most `fuel`. -/
def State.writeResult (s : State) (e : CopyEntry) (r : XredRank) (xs : List Nat) (t : Nat) : Nat → Nat → State × Nat × Option (Nat × CopyStop)
  | 0, _ => (s, t, none)
  | fuel + 1, n =>
    let size := formatBytes r.dfmt
    match s.engWrite e ((r.dst.toNat + size * n) % 2 ^ 64) (bytesLE size (xs.getD n 0)) with
    | .ok (s1, t1) => s1.writeResult e r xs (max t t1) fuel (n + 1)
    | .error x => (s, t, some (n, x))

/-- XRED_ENTRY_COMPLETE (R167): at most `units` elements of the sum are written to the rank's DST; its token follows under COPY_ENTRY_COMPLETE (R145). -/
def execXredEntryComplete (m : Moves) (s : State) : Out :=
  .next (match s.entryOf m.id, s.copy.ranks.find? fun r => r.id == m.id with
    | some e, some r => match r.result with
      | some xs =>
        if e.phase != .sending || e.status != 0 || (s.queueRec e.q).flt || (s.queueRec e.q).paused || s.ctl.down.contains e.die
            || (s.leavingQueue e.q && s.atBoundary e) then s
        else
          let left := min m.units (r.count - e.next)
          let n := if s.leavingQueue e.q then min left ((((List.range 64).map (· + 1)).find? fun k => r.startsMessage (e.next + k)).getD 64) else left
          let w := s.writeResult e r xs e.time n e.next
          let s1 := w.1.mapEntry m.id fun x => { x with time := w.2.1, next := e.next + n }
          match w.2.2 with
          | none => if e.next + n < r.count then s1 else s1.endEntry m.id 0 0
          | some (n, x) => s1.stopEntry e n x
      | none => s
    | _, _ => s)

/-! ## Peers (R168, R269, R271) -/

/-- PEER_WRITE_RECEIVE (R168, R269): a peer's write through a port that is up is a store of a copy-engine agent of context `ctx`, checked by the access tables here
and applied as a release at `.dev`; a refusal is logged. -/
def execPeerWriteReceive (port ctx : Nat) (va : DWord) (data : List Byte) (s : State) : Out :=
  let place (i : Nat) : Option Nat := match s.walkVa (BitVec.ofNat 3 ctx) (va.toNat + i) with
    | .ok pa en => if leafWrite en then some pa else none
    | .bad _ _ => none
  .next (match (if s.boot.portsUp && decide (port < 8) then (List.range data.length).mapM place else none) with
    | none => s
    | some ps => match ps.find? fun p => !s.granted (ctx % 8) 1 p true with
      | some pa => s.logRecord ⟨s.tideOf (homeDie pa), 3, 3, 4, 0, 0xFFFF, 0, 0, 0, BitVec.ofNat 64 pa, 0, ctx % 8, 1, targetOf pa⟩
      | none => if ps.any s.pchBusy then s else s.writePlaces (some (4, 0)) ps data)

/-- The element at which a peer's answer stops what an entry had sent it: the first one sent from `elem` on. -/
def answeredAt (sent : List Nat) (elem : Nat) : Nat := (sent.find? fun i => decide (elem ≤ i)).getD (sent.getLast?.getD 0)

/-- A peer's answer ends what an entry had sent it: with a status at an element, unless `status` is 0; the lowest element that failed counts (R159). An entry that had more to
send ends there, one held by a translation fault when its queue goes on (R160). The traffic of an `XRED` rank with ranks on peer parts fails as that of a copy does (R269). -/
def State.peerAnswer (s : State) (id status elem : Nat) : State :=
  let rank := s.copy.ranks.find? fun r => r.id == id && !r.away.isEmpty
  let mine := s.copy.peers.filter fun p => p.id == id
  if !mine.isEmpty || (rank.isSome && status != 0) then
    let s1 : State := { s with copy := { s.copy with peers := s.copy.peers.filter fun p => p.id != id } }
    let n := match rank with | some r => min elem (r.count - 1) | none => answeredAt (mine.flatMap fun p => p.writes.map (·.1)) elem
    match s1.entryOf id with
    | some e => match e.phase with
      | .moved => s1
      | .faulted _ _ _ => if status = 0 || (e.status != 0 && decide (e.detail ≤ n)) then s1 else s1.mapEntry id fun x => { x with status := status, detail := n }
      | .sending => if status = 0 then s1.settleEntry id else s1.endEntry id status n
      | .waiting => if status = 0 then s1 else s1.endEntry id status n
    | none => s1
  else s

/-- PEER_ACKNOWLEDGE (R168): the peer has performed an entry's writes, or has refused at an element. -/
def execPeerAcknowledge (id elem : Nat) (refused : Bool) (s : State) : Out := .next (s.peerAnswer id (if refused then 3 else 0) elem)

/-- LINK_RETRY_EXHAUSTED (R159, R168, R269): after 16 attempts the entry ends with PEER at an element. -/
def execLinkRetryExhausted (id elem : Nat) (s : State) : Out := .next (s.peerAnswer id 7 elem)

end Sys2Proof.Machine
end

