-- ==== Sys2Proof/Machine/Invoke.lean ====
section
/-! DEFINITION. Task instructions: opcodes 0xA0 to 0xA6 (R169 to R191, R287, R288, R310, R323 to R326, R330, R331). -/

namespace Sys2Proof.Machine

/-! ## Reads made at issue -/

/-- The place of an aligned block a lane reads at issue (R169, R206): translation, permission, access table, data error. -/
def State.blockLane (s : State) (l : Nat) (va : DWord) (n : Nat) : Except LaneFault (Nat × BitVec 2) :=
  match s.globalLane s.cur.core s.cur.ctx ⟨true, false⟩ l va with
  | .error e => .error e
  | .ok (pa, cp) =>
    if !s.grantedAll s.cur.ctx.toNat 0 pa n false then .error ⟨l, 3, 4, 0, va⟩
    else if s.loadFails s.cur.core cp pa n then .error ⟨l, 17, 1, 0, va⟩
    else .ok (pa, cp)

/-- The bytes of such a block of up to 64 bytes with their stamps, as a relaxed load of the warp reads them, and the state; a copy is left in no cache beyond the
load's own use. -/
def State.blockLoad (s : State) (va : DWord) (n : Nat) : List CByte × State :=
  match s.globalLane s.cur.core s.cur.ctx ⟨true, false⟩ 0 va with
  | .ok (pa, cp) => s.loadBytes s.cur.core cp 0 pa n 0 0
  | .error _ => ([], s)

/-- The blocks of n bytes at the addresses in a pair, read by the active lanes in ascending order: each lane's bytes, and the state. Their stamps count for a later
`FENCE` as those of a load do (R139). -/
def State.blockReads (s : State) (act : Mask) (a : Reg) (n : Nat) : List (Nat × List Byte) × State :=
  (maskLanes act).foldl (fun (t : List (Nat × List Byte) × State) l =>
    let r := t.2.blockLoad (s.rdPair a l) n
    (t.1 ++ [(l, r.1.map (·.b))], { r.2 with cur := { r.2.cur with stampMax := max r.2.cur.stampMax (r.2.stampTime r.2.cur.wg r.2.cur.core r.1) } }))
    ([], s)

/-- The entry of a lane in a list by lanes. -/
def laneEntry {α : Type} (xs : List (Nat × α)) (l : Nat) : Option α := (xs.find? fun p => p.1 == l).map (·.2)

/-- The record a refusing target writes for an access made at issue (R236). -/
def State.noteRefusal (s : State) (e : LaneFault) : State :=
  if e.cause == 3 && e.detail == 4 then
    match s.xlate s.cur.core s.cur.ctx e.addr.toNat with
    | .ok pa _ => s.logRecord ⟨s.tideOf (homeDie pa), 3, 3, 4, 0, s.cur.core, s.cur.pos, e.lane, s.ipc, BitVec.ofNat 64 pa, s.cur.task.getD 0,
        s.cur.ctx.toNat, 0, targetOf pa⟩
    | .bad _ _ => s
  else s

/-- The trap of a lane fault; a refusal is logged when the trap is taken. -/
def State.laneTrap (s : State) (act : Mask) (e : LaneFault) (acc : Nat) : State :=
  if (s.unchecked s.cur.uid).isEmpty then (s.noteRefusal e).trapP act e.cause e.detail e.aux (some e.lane) e.addr acc
  else s.trapP act e.cause e.detail e.aux (some e.lane) e.addr acc

/-! ## Waiting for slots (R177, R191) -/

/-- The lanes of a warp that wait for slots, or whose split does. -/
def Warp.slotWaiters (w : Warp) : Mask :=
  let held := w.holds.foldl (fun m h => match h.kind with | .slots _ => m ||| h.mask | _ => m) 0
  let pcs := (maskLanes held).map fun l => (w.lane l).pc
  held ||| maskOf fun l => (w.lane l).runnable && pcs.contains (w.lane l).pc

/-- Every lane of a warp that is not Exited is Awaiting or waits for slots; `more` are the lanes that are about to wait. -/
def Warp.stuckOnSlots (w : Warp) (more : Mask) : Bool :=
  let ws := w.slotWaiters ||| more
  let blocked (l : Nat) : Bool := ws.getLsbD l || (match (w.lane l).st with | .awaiting _ => true | .exited => true | _ => false)
    || (match w.arch.handler with
        | some h => h.mask.getLsbD l && (match h.blk with | some (.await _) => true | _ => false)
        | none => false)
  (List.range laneCount).all blocked

/-- Handle exhaustion (R191) for the warp in focus, whose lanes `mine` wait: no slot is FREE, every warp of the context on the core is stuck, and none at
a lower position waits for slots. -/
def State.exhausted (s : State) (mine : Mask) : Bool :=
  s.freeSlots s.cur.core s.cur.ctx == 0 && s.cur.stuckOnSlots mine
    && (s.others.filter fun w => w.uid != 0 && w.core == s.cur.core && w.ctx == s.cur.ctx && !w.hasExited).all fun w =>
      w.stuckOnSlots 0 && (decide (s.cur.pos < w.pos) || w.slotWaiters == 0)

/-- A warp without what the instruction at a PC had read for some lanes before it waited. -/
def Warp.dropReads (w : Warp) (pc : DWord) (act : Mask) : Warp := { w with reads := w.reads.filter fun k => !(k.pc == pc && k.act &&& act != 0) }

/-- What the instruction in focus read for its active lanes before it waited for slots (R330). -/
def State.readBefore (s : State) (act : Mask) : Option SlotRead := s.cur.reads.find? fun k => k.pc == s.ipc && k.act == act

/-- Slots for the tasks whose records have been read, or the wait (R177, R330): handle exhaustion, or the split is held, what it has read kept and its destination
bound. -/
def State.needSlots (s : State) (k : SlotRead) (binds : List RegWrite) (done : State → State) : State :=
  let w := s.cur.dropReads k.pc k.act
  if k.recs.length ≤ s.freeSlots w.core w.ctx then done { s with cur := w }
  else if s.exhausted s.split then State.trapP { s with cur := w } k.act 12 0 0 none 0 4
  else { s with cur := { w with
    holds := w.holds ++ [⟨s.split, .slots k.recs.length⟩]
    reads := w.reads ++ [k]
    arch := w.arch.bind w.live k.act binds } }

/-- SLOTS_FREED_INVOKE_RESUME (R177, R191): the waiting splits of a warp whose slots are now FREE, or that are exhausted, issue again. -/
def execSlotsFreedInvokeResume (id : Nat) (s : State) : Out :=
  .next (match s.warpOf id with
    | some w =>
      let s1 := s.focus w.uid
      let free := s1.freeSlots w.core w.ctx
      let stays (h : Hold) : Bool := match h.kind with
        | .slots n => !(decide (n ≤ free) || s1.exhausted h.mask)
        | _ => true
      if s1.cur.holds.all stays then s else { s1 with cur := { s1.cur with holds := s1.cur.holds.filter stays } }
    | none => s)

/-! ## INVOKE and CHAIN -/

/-- How an `INVOKE` places its task (R176). -/
inductive InvokeForm where
  | address
  | core (e : Reg)
  | park (e : Reg)
deriving DecidableEq, Repr

/-- The registers a form names beside the record address. -/
def InvokeForm.names : InvokeForm → List Reg
  | .address => []
  | .core e => [e]
  | .park e => pairRegs e

/-- The counter check of `INVOKE.PARK` (R330): READ and W, and no host memory. -/
def State.counterLane (s : State) (l : Nat) (va : DWord) : Except LaneFault (Nat × BitVec 2) :=
  match s.globalLane s.cur.core s.cur.ctx ⟨true, true⟩ l va with
  | .error e => .error e
  | .ok (pa, cp) =>
    if isHostPa pa then .error ⟨l, 3, 1, 0, va⟩
    else if !s.grantedAll s.cur.ctx.toNat 0 pa 4 false || !s.grantedAll s.cur.ctx.toNat 0 pa 4 true then .error ⟨l, 3, 4, 0, va⟩
    else .ok (pa, cp)

/-- Place one new task by its form (R178, R179, R330). -/
def State.placeTask (s : State) (form : InvokeForm) (h : DWord) (words : List DWord) (number : Word) (counter : Nat) : State :=
  if recInvalid words then s.breakUnrun h (breakWord 6 0 h)
  else match form with
    | .address => s.enqueue (dieOfCore s.cur.core) (s.placeCore s.cur.core s.cur.ctx (words.getD 5 0)) h 0 0 0
    | .core _ =>
      if s.coreEnabled number.toNat then s.enqueue (dieOfCore s.cur.core) number.toNat h 0 0 0
      else s.breakUnrun h (breakWord 7 (number.toNat % 256) h)
    | .park _ => { s with tasks := { s.tasks with parked := s.tasks.parked ++ [⟨counter, h, false, s.dueFrom (dieOfCore s.cur.core)⟩] } }

/-- The eight words of a record. -/
def recordWords (bs : List Byte) : List DWord := (List.range 8).map fun i => BitVec.ofNat 64 (numLE ((bs.drop (8 * i)).take 8))

/-- The records of the active lanes are read (R169), before any slot is taken; `ctr` gives the places of their counters. -/
def State.readRecords (s : State) (act : Mask) (a : Reg) (ctr : Nat → Nat) : SlotRead × State :=
  let r := s.blockReads act a 64
  (⟨s.ipc, act, r.1.map fun x => (x.1, recordWords x.2), r.1.map fun x => (x.1, ctr x.1)⟩, r.2)

/-- The new tasks of an instruction, lanes ascending (R177): each lane's handle, and the state; `place` puts a taken task where it goes. -/
def State.takeTasks (s : State) (recs : List (Nat × List DWord)) (isChain : Bool) (place : Nat → DWord → List DWord → State → State) :
    List (Nat × DWord) × State :=
  let c := s.newCond 4
  recs.foldl (fun (t : List (Nat × DWord) × State) (x : Nat × List DWord) =>
    let r := t.2.takeSlot s.cur.core s.cur.ctx x.2 isChain c.1
    (t.1 ++ [(x.1, r.1)], place x.1 r.1 (x.2.set 6 r.1) r.2)) ([], c.2)

/-- The handle a lane was given. -/
def handleFor (hs : List (Nat × DWord)) (l : Nat) : DWord := match hs.find? fun p => p.1 == l with
  | some p => p.2
  | none => 0

/-- The lowest lane at which a list of lane checks fails, with the access code of the failing check. -/
def firstOf (xs : List (Nat × Except LaneFault (Nat × BitVec 2))) : Option (Nat × LaneFault) :=
  xs.findSome? fun x => match x.2 with | .error e => some (x.1, e) | .ok _ => none

/-- A lane check fails with a cause. -/
def faultsWith (cause : Nat) (x : Except LaneFault (Nat × BitVec 2)) : Bool := match x with
  | .error e => e.cause == cause
  | .ok _ => false

/-- `INVOKE` (R330): within a lane a translation fault of the record or the counter comes first, then a permission fault, then a data error of the record (R226). -/
def invokeOp (s : State) (c : Ctl) (form : InvokeForm) (d a : Reg) : State :=
  let act := s.act c
  let ls := maskLanes act
  let names := pairRegs d ++ pairRegs a ++ form.names
  let binds : List RegWrite := (pairRegs d).map fun r => ⟨r, .g []⟩
  let ctr (l : Nat) : DWord := match form with | .park e => s.rdPair e l | _ => 0
  let num (l : Nat) : Word := match form with | .core e => s.rd e l | _ => 0
  let parks := match form with | .park _ => true | _ => false
  let counter (l : Nat) : Nat := if parks then (match s.counterLane l (ctr l) with | .ok p => p.1 | .error _ => 0) else 0
  let go (s1 : State) (k : SlotRead) : State := s1.needSlots k binds fun s2 =>
    let t := s2.takeTasks k.recs false fun l h words s => s.placeTask form h words (num l) ((laneEntry k.ctrs l).getD 0)
    t.2.commit c names (pairResult d false (handleFor t.1)) [] .zero
  let bad := ls.find? fun l => (s.rdPair a l).toNat % 64 != 0 || (parks && (ctr l).toNat % 4 != 0)
  if !names.all s.cur.nameable then s.illegal act
  else if act = 0 then s.advance c
  else match s.readBefore act with
  | some k => go s k
  | none => match s.cur.overflow act binds with
    | some r => s.trapP act 8 0 r.toNat none 0 4
    | none => match bad with
      | some l =>
        if (s.rdPair a l).toNat % 64 != 0 then s.trapP act 4 0 0 (some l) (s.rdPair a l) 0
        else s.trapP act 4 0 0 (some l) (ctr l) 2
      | none =>
        let checks := ls.flatMap fun l =>
          let rec_ := (0, s.blockLane l (s.rdPair a l) 64)
          let ctrs := if parks then [(2, s.counterLane l (ctr l))] else []
          if faultsWith 17 rec_.2 || (faultsWith 3 rec_.2 && ctrs.any fun x => faultsWith 2 x.2) then ctrs ++ [rec_] else rec_ :: ctrs
        match firstOf checks with
        | some e => s.laneTrap act e.2 e.1
        | none =>
          let r := s.readRecords act a counter
          go r.2 r.1

/-- `INVOKE` (R177, R178, R330). -/
def execInvoke (c : Ctl) (d a : Reg) (s : State) : Out := .next (invokeOp s c .address d a)
/-- `INVOKE.CORE` (R179, R330). -/
def execInvokeCore (c : Ctl) (d a e : Reg) (s : State) : Out := .next (invokeOp s c (.core e) d a)
/-- `INVOKE.PARK` (R179, R330). -/
def execInvokePark (c : Ctl) (d a e : Reg) (s : State) : Out := .next (invokeOp s c (.park e) d a)

/-- The lowest lane whose handle fails the check of R172. -/
def State.staleLane (s : State) (act : Mask) (b : Reg) : Option Nat :=
  (maskLanes act).find? fun l => !s.handleOk s.cur.ctx (s.rdPair b l)

/-- A `CHAIN` entry joins its upstream's ordered list (R184); one whose record was invalid is broken already (R170). -/
def State.joinChain (s : State) (up h : DWord) : State :=
  if ((s.liveSlot h).map (·.state)).getD .free == .pending then s.mapSlot up fun x => { x with chain := x.chain ++ [h] } else s.tryFree h

/-- A slot that a `CHAIN` took and does not keep (R310): FREE as it was, with no decrement to make. -/
def State.untake (s : State) (h : DWord) : State :=
  let s1 := s.mapSlot h fun x => { x with state := .free, dropped := false, brk := none, words := [] }
  { s1 with tasks := { s1.tasks with late := s1.tasks.late.filter fun d => d.handle != h } }

/-- The entries of a `CHAIN` with an invalid record break at once (R170); what they decrement waits until the upstream check is answered (R227, R310). -/
def State.breakInvalid (s : State) (hs : List DWord) : State :=
  let c := s.newCond 4
  hs.foldl (fun (s : State) h => match s.liveSlot h with
    | some x => if recInvalid x.words then s.breakSlot h (breakWord 6 0 h) c.1 else s
    | none => s) (if hs.any fun h => ((s.liveSlot h).map fun x => recInvalid x.words).getD false then c.2 else s)

/-- `CHAIN` (R184, R310): the handles are written, and the entries travel to the homes of their upstreams; the handle cache answers a check that fails already at
issue. -/
def execChain (c : Ctl) (d a b : Reg) (s : State) : Out :=
  let act := s.act c
  let ls := maskLanes act
  let names := pairRegs d ++ pairRegs a ++ pairRegs b
  let binds : List RegWrite := (pairRegs d).map fun r => ⟨r, .g []⟩
  let go (s1 : State) (k : SlotRead) : State := s1.needSlots k binds fun s2 =>
    let t := s2.takeTasks k.recs true fun _ _ _ s' => s'
    let s3 := t.2.addReq c (.chain (t.1.map fun x => (x.1, s.rdPair b x.1, x.2))) [] [] false false
    (s3.breakInvalid (t.1.map (·.2))).commit c names (pairResult d false (handleFor t.1)) [] .zero
  .next (if !names.all s.cur.nameable then s.illegal act
    else if act = 0 then s.advance c
    else match s.readBefore act with
    | some k => go s k
    | none => match s.cur.overflow act binds with
      | some r => s.trapP act 8 0 r.toNat none 0 4
      | none => match s.staleLane act b with
        | some l => s.trapP act 11 0 0 (some l) 0 4
        | none => match ls.find? fun l => (s.rdPair a l).toNat % 64 != 0 with
          | some l => s.trapP act 4 0 0 (some l) (s.rdPair a l) 0
          | none => match firstOf (ls.map fun l => (0, s.blockLane l (s.rdPair a l) 64)) with
            | some e => s.laneTrap act e.2 e.1
            | none =>
              let r := s.readRecords act a fun _ => 0
              go r.2 r.1)

/-! ## AWAIT, HPOLL, HDROP -/

/-- The handles of the active lanes. -/
def State.handlesOf (s : State) (act : Mask) (b : Reg) : List (Nat × DWord) := (maskLanes act).map fun l => (l, s.rdPair b l)

/-- `AWAIT` (R186, R287, R288): the active lanes wait for their answers; in handler mode the handler split blocks, and the trap form
is barred. -/
def awaitOp (s : State) (c : Ctl) (t : Bool) (p : PReg) (d b : Reg) : State :=
  let act := s.act c
  let id := s.nextId
  let binds : List RegWrite := (pairRegs d).map fun r => ⟨r, .g []⟩
  if !(pairRegs d ++ pairRegs b).all s.cur.nameable then s.illegal act
  else if act = 0 then s.advance c
  else if t && s.cur.inHandler then s.barred act
  else match s.cur.overflow act binds with
    | some r => s.trapP act 8 0 r.toNat none 0 4
    | none =>
      let s1 := (s.addReq c (.await (s.handlesOf act b) d p t) binds [p] true false).advance c
      match s1.cur.arch.handler with
      | some h => { s1 with cur := { s1.cur with arch := { s1.cur.arch with handler := some { h with blk := some (.await id) } } } }
      | none => { s1 with cur := s1.cur.mapLanes act fun _ x => { x with st := .awaiting id, wait := 0, bpc := s.ipc } }

/-- `AWAIT` (R186). -/
def execAwait (c : Ctl) (p : PReg) (d b : Reg) (s : State) : Out := .next (awaitOp s c false p d b)
/-- `AWAIT.T` (R186). -/
def execAwaitT (c : Ctl) (p : PReg) (d b : Reg) (s : State) : Out := .next (awaitOp s c true p d b)

/-- `HPOLL` (R187, R325). -/
def execHpoll (c : Ctl) (p : PReg) (b : Reg) (s : State) : Out :=
  let act := s.act c
  .next (if !(pairRegs b).all s.cur.nameable then s.illegal act
    else if act = 0 then s.advance c
    else (s.addReq c (.hpoll (s.handlesOf act b) p) [] [p] false false).advance c)

/-- `HDROP` (R188, R324): null handles are skipped. -/
def execHdrop (c : Ctl) (b : Reg) (s : State) : Out :=
  let act := s.act c
  let hs := (s.handlesOf act b).filter fun p => p.2 != 0
  .next (if !(pairRegs b).all s.cur.nameable then s.illegal act
    else if act = 0 then s.advance c
    else if hs.isEmpty then s.advance c
    else (s.addReq c (.hdrop hs) [] [] false false).advance c)

/-! ## HSET and HBREAK -/

/-- `HSET` (R182, R326): without a successor counter the resolution is committed, under the release conditions of what was issued before. A handle that a die
reset has broken takes no value (R190). -/
def execHset (c : Ctl) (a : Reg) (s : State) : Out :=
  let act := s.act c
  let v := s.rdPair a (lowestLane act)
  .next (if !(pairRegs a).all s.cur.nameable then s.illegal act
    else if act = 0 then s.advance c
    else match s.cur.task with
      | none => s.illegal act
      | some h =>
        if s.cur.hset.isSome then s.advance c
        else
          let s1 : State := { s with cur := { s.cur with hset := some v } }
          match s.liveSlot h with
          | some x =>
            if recHasSucc x.words || x.state == .broken then s1.advance c
            else
              let k := s1.newCond 4
              (k.2.mapSlot h fun x => { x with value := some v, cond := k.1 }).advance c
          | none => s1.advance c)

/-- `HBREAK` (R183, R323). -/
def execHbreak (c : Ctl) (code : BitVec 8) (s : State) : Out :=
  let act := s.act c
  .next (if act = 0 then s.advance c
    else if s.cur.task.isNone then s.illegal act
    else s.exitAll (some (2, code.toNat)))

end Sys2Proof.Machine
end

