-- ==== Sys2Proof/Machine/Banks.lean ====
section
/-! DEFINITION. Bank dot units: opcode 0xB0 and the events of a job card (R194 to R209, R301). -/

namespace Sys2Proof.Machine

/-! ## The card (R197, R198) -/

/-- The fields of a job card. -/
structure Job where
  wbase : Nat
  vsrc : Nat
  dst : Nat
  wfmt : Nat
  vfmt : Nat
  abm : Bool
  vseg : Nat
  count : Nat
  banks : List Nat
  cstride : Nat
deriving DecidableEq, Repr

/-- The fields of 64 bytes. -/
def jobOf (bs : List Byte) : Job :=
  let ctl := fieldAt bs 0x18 4
  { wbase := fieldAt bs 0 8
    vsrc := fieldAt bs 8 8
    dst := fieldAt bs 0x10 8
    wfmt := bitsAt ctl 28 4
    vfmt := bitsAt ctl 24 4
    abm := bitAt ctl 23
    vseg := bitsAt ctl 21 2 + 1
    count := bitsAt ctl 0 11
    banks := (List.range 16).filter fun b => bitAt (fieldAt bs 0x1C 2) b
    cstride := fieldAt bs 0x20 4 }

/-- Weights per column access (R196). -/
def Job.epc (j : Job) : Nat := if j.wfmt = 6 then 32 else 16
/-- Groups of commands (R201). -/
def Job.groups (j : Job) : Nat := j.count / j.vseg
/-- The pseudo-channel of a card (R199). -/
def Job.pch (j : Job) : Nat := 64 * bitsAt j.wbase 8 3 + bitsAt j.wbase 11 6

/-- The lowest offset of a field that breaks a rule (R198). -/
def jobOffence (bs : List Byte) : Option Nat :=
  let j := jobOf bs
  ([ (bitsAt j.wbase 17 4 != 0 || bitsAt j.wbase 0 5 != 0, 0), (decide (j.vfmt < 3) && j.vsrc % formatBytes j.vfmt != 0, 8), (j.dst % 4 != 0, 0x10),
     (bitsAt (fieldAt bs 0x18 4) 11 10 != 0 || !(j.wfmt == 1 || j.wfmt == 2 || j.wfmt == 6) || decide (2 < j.vfmt), 0x18),
     (j.count == 0 || decide (1024 < j.count) || j.count % j.vseg != 0, 0x18), (!j.abm && decide (1 < j.banks.length), 0x18),
     (j.banks.isEmpty, 0x1C), (fieldAt bs 0x1E 2 != 0, 0x1E), (j.cstride == 0 || decide (2 ^ 24 < j.cstride), 0x20),
     (((bs.drop 0x24).take 28).any (· != 0), 0x24) ].find? (·.1)).map (·.2)

/-- The virtual address of the column of command c on bank b (R199). -/
def Job.column (j : Job) (b c : Nat) : Nat :=
  let u := bitsAt j.wbase 5 3 + c * j.cstride
  (j.wbase / 2 ^ 21 * 2 ^ 21 + b * 2 ^ 17 + bitsAt j.wbase 8 9 * 2 ^ 8 + u / 8 * 2 ^ 21 + u % 8 * 32) % 2 ^ 64

/-! ## BJOB (R206, R301) -/

/-- `BJOB` (R206, R301): every card is read and checked before one is offered; the split is held until all are accepted. A card whose line holds an uncorrectable
error raises no fault (R301): it ends with DATA, writes nothing, and no dispatcher sees it, which the spec does not say (log 63). -/
def execBjob (c : Ctl) (t a : Reg) (s : State) : Out :=
  let act := s.act c
  let w := s.cur
  let ls := maskLanes act
  .next (if !(t :: pairRegs a).all w.nameable then s.illegal act
    else if act = 0 then s.advance c
    else match w.overflow act [⟨t, .g []⟩] with
      | some r => s.trapP act 8 0 r.toNat none 0 4
      | none => match misaligned act 64 fun l => (s.rdPair a l).toNat with
        | some l => s.trapP act 4 0 0 (some l) (s.rdPair a l) 0
        | none => match firstOf ((ls.map fun l => (0, s.blockLane l (s.rdPair a l) 64)).filter fun x => !faultsWith 17 x.2) with
          | some e => s.laneTrap act e.2 e.1
          | none =>
            let ins := s.nextId
            let r := s.blockReads act a 64
            let card (i : Nat) : BankCard :=
              let l := ls.getD i 0
              let lost := faultsWith 17 (s.blockLane l (s.rdPair a l) 64)
              let bs := (laneEntry r.1 l).getD []
              let j := jobOf bs
              { id := ins + 1 + i, ins := ins, acc := if lost then ins + 1 + i else 0, uid := w.uid, core := w.core, ctx := w.ctx, die := j.pch / 128, pch := j.pch, card := bs
                cols := [], vec := [], dst := [], tok := t, lane := l, phase := if lost then .done else .queued, status := if lost then 6 else 0
                detail := 0, time := s.tideOf (dieOfCore w.core) + 8, hdl := w.inHandler, out := [] }
            let s1 := State.bindToken { r.2 with nextId := ins + 1 + ls.length } t ins
            let s2 : State := { s1 with
              cards := s1.cards ++ (List.range ls.length).map card
              cur := { s1.cur with holds := s1.cur.holds ++ [⟨s.split, .jobs ins⟩] } }
            s2.advance c)

/-! ## Events of a card (R203 to R209) -/

/-- Apply `f` to the card with a number. -/
def State.mapCard (s : State) (id : Nat) (f : BankCard → BankCard) : State := { s with cards := updWhere (fun k => k.id == id) f s.cards }
/-- The card with a number. -/
def State.cardOf (s : State) (id : Nat) : Option BankCard := s.cards.find? fun k => k.id == id

/-- BANK_CARD_ACCEPT (R135, R204, R206): once the offer has come there, a dispatcher with room accepts the card its instruction offers next, the cards of one warp to one
pseudo-channel in issue order. An offer of a warp that has exited is void; one of a warp that is saved waits for its context. -/
def execBankCardAccept (id : Nat) (s : State) : Out :=
  .next (match s.cardOf id with
    | some k =>
      let before := s.cards.any fun x => x.acc == 0 && decide (x.id < id) && (x.ins == k.ins || (x.uid == k.uid && x.pch == k.pch))
      let held := (s.cards.filter fun x => x.acc != 0 && x.die == k.die).length
      if k.acc != 0 then s
      else if (match s.warpOf k.uid with | some w => w.hasExited | none => !s.frozen k.uid) then
        { s with cards := s.cards.filter fun x => x.id != id }
      else if (s.warpOf k.uid).isNone || before || decide (256 ≤ held) || decide (s.tideOf (dieOfCore k.core) < k.time) then s
      else { s with
        nextId := s.nextId + 1
        cards := s.cards.filter (fun x => x.id != id) ++ [{ k with acc := s.nextId }] }
    | none => s)

/-- The place of n bytes of a bank unit's access, translated by a walk, or the status it gives; a weight must lie in a page of 2 MiB or more (R199,
R207). A refusal carries the refused place. -/
def State.bankPlace (s : State) (ctx : BitVec 3) (n va : Nat) (write weight : Bool) : Except (Nat × Option Nat) Nat :=
  match s.walkVa ctx va with
  | .bad _ _ => .error (2, none)
  | .ok pa en =>
    if weight && leafSize s.mem.home (s.descOf ctx.toNat 0) va < 2 ^ 21 then .error (2, none)
    else if (!write && !leafRead en) || (write && !leafWrite en) then .error (3, none)
    else if !s.grantedAll ctx.toNat 2 pa n write then .error (3, some pa)
    else .ok pa

/-- The places of a list of accesses with their micro-commands, or the first that fails. When several accesses of one micro-command fail differently the status is
that of the first bank or element, and of a page its walk and size before its permission before the access table: the model's order (log 64). -/
def State.bankPlaces (s : State) (ctx : BitVec 3) (n : Nat) (write weight : Bool) : List (Nat × Nat) → Except (Nat × Nat × Option Nat) (List Nat)
  | [] => .ok []
  | (c, va) :: rest => match s.bankPlace ctx n va write weight with
    | .error e => .error (c, e)
    | .ok p => match s.bankPlaces ctx n write weight rest with
      | .error e => .error e
      | .ok ps => .ok (p :: ps)

/-- What CLEAN translates: the columns, the vector elements and the partials (R200, R202, R203). -/
def State.cleanPlaces (s : State) (ctx : BitVec 3) (j : Job) : Except (Nat × Nat × Option Nat) (List Nat × List Nat × List Nat) :=
  let cols := (List.range j.count).flatMap fun c => j.banks.map fun b => (c, j.column b c)
  let es := formatBytes j.vfmt
  let vec := (List.range (j.epc * j.vseg * j.banks.length)).map fun i => (4094, (j.vsrc + es * i) % 2 ^ 64)
  let dst := (List.range (j.groups * j.banks.length)).map fun i => (4095, (j.dst + 4 * i) % 2 ^ 64)
  match s.bankPlaces ctx 32 false true cols with
  | .error e => .error e
  | .ok cs => match s.bankPlaces ctx es false false vec with
    | .error e => .error e
    | .ok vs => match s.bankPlaces ctx 4 true false dst with
      | .error e => .error e
      | .ok ds => .ok (cs, vs, ds)

/-- A window (R207): HI in [23:12], LO in [11:0]. -/
def windowWord (lo hi : Nat) : Nat := hi * 2 ^ 12 + lo

/-- A card ends with a status; its token follows under BANK_CARD_DONE. -/
def State.endCard (s : State) (id status detail : Nat) : State :=
  s.mapCard id fun k => { k with phase := .done, status := status, detail := detail }

/-- BANK_CARD_CLEAN (R198, R203, R204, R207): in order of acceptance on its pseudo-channel, and while its context runs, a card is checked and
translated, and the dirty bytes of its weight lines reach the home. A card that a switch holds (R209) keeps the later ones of its pseudo-channel waiting, whatever
their context: the order of R204 stands before the finite time of R390, which is the model's choice (log 65). -/
def execBankCardClean (id : Nat) (s : State) : Out :=
  .next (match s.cardOf id with
    | some k =>
      if k.acc == 0 || k.phase != .queued || !s.runsOn (8 + k.die) k.ctx
          || (s.cards.any fun x => x.acc != 0 && decide (x.acc < k.acc) && x.pch == k.pch && x.phase == .queued) then s
      else match jobOffence k.card with
        | some off => s.endCard id 1 off
        | none => match s.cleanPlaces k.ctx (jobOf k.card) with
          | .error (c, st, place) =>
            let s1 := match place with
              | some pa => s.logRecord ⟨s.tideOf (homeDie pa), 3, 3, 4, 0, 0xFFFF, 0, 0, 0, BitVec.ofNat 64 pa, s.taskOf k.uid, k.ctx.toNat, 2,
                  targetOf pa⟩
              | none => s
            s1.endCard id st (windowWord c c)
          | .ok (cs, vs, ds) =>
            let s1 : State := { s with mem := cs.foldl (fun m p => m.recall (lineOf p) fun _ => false) s.mem }
            s1.mapCard id fun k => { k with phase := .clean, cols := cs, vec := vs, dst := ds }
    | none => s)

/-- The n-byte value of a format at a place, exact. -/
def decodeAt (home : List Host.Cell) (fmt pa n : Nat) : Ext := (cvtDecode fmt false (readNum home pa n)).1

/-- The partial of rank i and group g (R201): the exact sum, rounded once. -/
def State.partial' (s : State) (k : BankCard) (j : Job) (vec : List Ext) (i g : Nat) : Nat :=
  let nb := j.banks.length
  let w := if j.wfmt = 6 then 1 else 2
  let term (c e : Nat) : Ext :=
    (extMul (decodeAt s.mem.home j.wfmt (k.cols.getD (c * nb + i) 0 + w * e) w) (vec.getD ((i * j.vseg + c % j.vseg) * j.epc + e) .nan)).1
  let sum := (List.range j.vseg).foldl (fun t v =>
    (List.range j.epc).foldl (fun t e => (extAdd 0 t (term (g * j.vseg + v) e)).1) t) (Ext.num false 0 0)
  (fp32.finish 0 false false sum false).1

/-- The errors of a RUN (R208, R238): what strikes, and every column or vector element that is poisoned. A window holds its command and is at most 15
longer; an error of a partial write names a partial there is. -/
def State.cardErrors (s : State) (k : BankCard) (j : Job) (struck : List BankError) : List BankError :=
  let nb := j.banks.length
  let poisoned := (List.range k.cols.length).filter fun i => s.mem.poisoned (k.cols.getD i 0) 32
  let fromCols := (poisoned.map fun i => BankError.mk (i % nb) (i / nb) (i / nb) (i / nb)).filter fun e =>
    !(struck.any fun x => x.rank == e.rank && x.command == e.command)
  let load := if k.vec.any fun p => s.mem.poisoned p (formatBytes j.vfmt) then [BankError.mk 0 4094 4094 4094] else []
  let fit (e : BankError) : BankError :=
    if 4094 ≤ e.command then e
    else
      let lo := max (min e.lo e.command) (e.command - 15)
      { e with lo := lo, hi := min (max e.hi e.command) (lo + 15) }
  load ++ fromCols ++ (struck.filter fun e => decide (e.rank < nb)
    && (decide (e.command < j.count) || e.command == 4094 || (e.command == 4095 && decide (e.lo < j.groups)))).map fit

/-- The earliest error: the broadcast load, then the commands in order, then the partial writes. -/
def earliest (es : List BankError) : Option BankError :=
  let rank (e : BankError) : Nat := if e.command = 4094 then 0 else e.command + 1
  es.foldl (fun m e => match m with
    | some x => if rank e < rank x then some e else some x
    | none => some e) none

/-- The partials of a card numbered from `first` on, at most `count`, are written; RUN ends with the last. -/
def State.writePartials (s : State) (k : BankCard) (first count : Nat) : State :=
  let now (x : Nat × Nat × Nat) : Bool := decide (first ≤ x.1) && decide (x.1 < first + count)
  let t := (k.out.filter now).foldl (fun (t : State × Nat) x => (t.1.homeWrite x.2.1 (bytesLE 4 x.2.2), max t.2 (t.1.devTime x.2.1))) (s, k.time)
  let rest := k.out.filter fun x => !now x
  t.1.mapCard k.id fun y => { y with
    out := rest, time := t.2, status := k.status, detail := k.detail, phase := if rest.isEmpty then .done else .run }

/-- BANK_CARD_RUN (R200 to R205, R208): the registers are loaded, every command performed, all columns read at one moment (log 75), and the partials of a range of numbers written, by this step and those
that follow; the groups an error touches are NaN, a failing partial write leaves its word. -/
def execBankCardRun (id : Nat) (run : BankRun) (s : State) : Out :=
  .next (match s.cardOf id with
    | some k =>
      if k.phase == .run then s.writePartials k run.first run.count
      else if k.phase != .clean || !s.runsOn (8 + k.die) k.ctx
          || (s.cards.any fun x => x.acc != 0 && decide (x.acc < k.acc) && x.pch == k.pch && x.phase != .done) then s
      else
        let j := jobOf k.card
        let n := j.groups
        let s0 : State := { s with mem := k.vec.foldl (fun m p => m.recall (lineOf p) fun _ => false) s.mem }
        let es := s0.cardErrors k j run.errors
        let vec := k.vec.map fun p => decodeAt s0.mem.home j.vfmt p (formatBytes j.vfmt)
        let touched (i g : Nat) : Bool := es.any fun e => e.command == 4094
          || (decide (e.command < 4094) && e.rank == i && decide (e.lo / j.vseg ≤ g) && decide (g ≤ e.hi / j.vseg))
        let lost (i g : Nat) : Bool := es.any fun e => e.command == 4095 && e.rank == i && e.lo == g
        let slots := (List.range j.banks.length).flatMap fun i => (List.range n).map fun g => (i, g)
        let out := (slots.filter fun x => !lost x.1 x.2).map fun x =>
          (x.1 * n + x.2, k.dst.getD (x.1 * n + x.2) 0, if touched x.1 x.2 then 0x7FC00000 else s0.partial' k j vec x.1 x.2)
        match earliest es with
        | none => s0.writePartials { k with out := out } run.first run.count
        | some e =>
          let at' := if e.command = 4094 then k.vec.headD 0 else if e.command = 4095 then k.dst.getD (e.rank * n + e.lo) 0
            else k.cols.getD (e.command * j.banks.length + e.rank) 0
          let win := if 4094 ≤ e.command then windowWord e.command e.command else windowWord e.lo e.hi
          (s0.logRecord ⟨s.tideOf (8 + k.die), 6, 17, 1, 0, 0xFFFF, 0, 0, 0, BitVec.ofNat 64 at', s.taskOf k.uid, k.ctx.toNat, 2, 0⟩).writePartials
            { k with out := out, status := 6, detail := win } run.first run.count
    | none => s)

/-- The token of instruction `ins` is pending until its last card has written. -/
def State.settleJobs (s : State) (uid ins : Nat) : State :=
  if (s.cards.any fun e => e.ins == ins) || s.frozen uid then s
  else s.mapWarp uid fun w => { w with pends := w.pends.filter fun p => p.id != ins }

/-- A card leaves its dispatcher and its token is written. -/
def State.deliverCard (s : State) (k : BankCard) : State :=
  (State.writeToken { s with cards := s.cards.filter fun x => x.id != k.id } k.uid k.ins k.hdl k.tok (laneMask k.lane)
    (statusWord k.status k.detail)).settleJobs k.uid k.ins

/-- BANK_CARD_DONE (R135, R145, R202, R203, R207): the partials have performed at `.dev`; the token is written. -/
def execBankCardDone (id : Nat) (s : State) : Out :=
  .next (match s.cardOf id with
    | some k =>
      if k.phase == .done && decide (k.time ≤ s.tideOf (8 + k.die)) && decide (k.time + 8 ≤ s.tideOf (dieOfCore k.core)) then s.deliverCard k else s
    | none => s)

end Sys2Proof.Machine
end

