-- ==== Sys2Proof/Machine/TaskEvents.lean ====
section
/-! DEFINITION. The events of tasks and handles: parking, dispatch, resolution, successor decrements, answers, chains and wake-ups (R146, R170, R173,
R174, R179 to R189, R324, R325). -/

namespace Sys2Proof.Machine

/-! ## Parking and dispatch -/

/-- PARK_ARRIVE (R135, R179): the task reaches the home of its counter and parks there; when the counter is zero every task parked on it is released. -/
def execParkArrive (handle : DWord) (s : State) : Out :=
  .next (match s.tasks.parked.find? fun p => p.handle == handle && !p.arrived with
    | some p =>
      if s.pchBusy p.pa || decide (s.tideOf p.due.1 < p.due.2) then s
      else
      let r := s.homeRead p.pa 4
      let s1 : State := { r.2 with tasks := { r.2.tasks with
        parked := (r.2.tasks.parked.filter fun q => q.handle != handle) ++ [{ p with arrived := true }] } }
      if numLE r.1 = 0 then s1.releaseParked p.pa else s1
    | none => s)

/-- The head of the highest non-empty ready queue of a core and context (R180), of the tasks that have entered it. -/
def State.readyHead (s : State) (core : Nat) (ctx : BitVec 3) : Option ReadyTask :=
  [3, 2, 1, 0].findSome? fun p => s.tasks.ready.find? fun t => t.here && t.core == core && t.ctx == ctx && t.prio == p

/-- The ready queues without a task. -/
def State.dequeue (s : State) (h : DWord) : State :=
  { s with tasks := { s.tasks with ready := s.tasks.ready.filter fun t => t.handle != h } }

/-- The word of a task's release goes to the core that is to run it (R135, R146). -/
def State.tellRelease (s : State) (h : DWord) (die : Nat) : State :=
  { s with tasks := { s.tasks with ready := s.tasks.ready.map fun t => if t.handle == h then { t with told := true, due := s.dueFrom die } else t } }

/-- The initial registers and lanes of a task (R181). -/
def taskArch (words : List DWord) (h upValue upHandle : DWord) : Arch :=
  let a := Arch.start (lanesOf fun _ => .start (words.getD 0 0) .runnable)
  let two (r : Nat) (x : DWord) (vs : List VReg) : List VReg := (vs.set r (.u (loWord x))).set (r + 1) (.u (hiWord x))
  { a with vregs := two 8 upHandle (two 6 (words.getD 2 0) (two 4 (words.getD 1 0) (two 2 h (two 0 upValue a.vregs)))) }

/-- Where a header is read (R170): its place, or the detail of the INVALID break, with the target's record for a refusal. -/
def State.headerPlace (s : State) (core : Nat) (ctx : BitVec 3) (va : Nat) : Except (Option Nat) Nat :=
  match s.xlate core ctx va with
  | .bad _ _ => .error none
  | .ok pa e =>
    if !leafRead e then .error none
    else if !s.grantedAll ctx.toNat 0 pa 128 false then .error (some pa)
    else if s.mem.poisoned pa 128 then .error none
    else .ok pa

/-- TASK_DISPATCH (R135, R170, R180, R181): the head task of a core's running context is dispatched when its release condition, of which another die hears by message, a
result slot and its resources allow; a bad header breaks it. -/
def execTaskDispatch (core : Nat) (s : State) : Out :=
  .next (match (List.range 8).find? fun n => s.runsOn (dieOfCore core) (BitVec.ofNat 3 n) with
    | none => s
    | some n =>
      let ctx : BitVec 3 := BitVec.ofNat 3 n
      if s.ctl.down.contains (dieOfCore core) then s
      else match s.readyHead core ctx with
      | none => s
      | some t => match s.slotOf t.handle with
        | none => s.dequeue t.handle
        | some x =>
          let away := x.core != core
          if x.state != .pending || x.gen != handleGen t.handle then s.dequeue t.handle
          else if !s.condMet x.cond || (away && (s.lowestSlot core ctx).isNone) then s
          else if dieOfCore x.core != dieOfCore core && !t.told then s.tellRelease t.handle (dieOfCore x.core)
          else if t.told && decide (s.tideOf t.due.1 < t.due.2) then s
          else
            let va := s.descOf n 1 + 128 * recLhidx x.words
            match s.headerPlace core ctx va with
            | .error refused =>
              let s1 := match refused with
                | some pa => s.logRecord ⟨s.tideOf (homeDie pa), 3, 3, 4, 0, 0xFFFF, 0, 0, 0, BitVec.ofNat 64 pa, t.handle, n, 0, targetOf pa⟩
                | none => s
              (s1.dequeue t.handle).breakUnrun t.handle (breakWord 6 2 t.handle)
            | .ok pa =>
              let r := s.homeRead pa 128
              let h := headerOf r.1
              if !h.validTask n then (r.2.dequeue t.handle).breakUnrun t.handle (breakWord 6 1 t.handle)
              else match r.2.fits core h 1 with
                | none => s
                | some ps =>
                  let i := (r.2.lowestSlot core ctx).getD 0
                  let s1 := if away then r.2.putSlot ⟨core, ctx, i, false, .running, r.2.slotGen core ctx i, false, none, none, [], [], false,
                    none, none, 0, [], 0, (0, 0)⟩ else r.2
                  let key := s1.nextId
                  let s2 := State.placeWg { (s1.dropCond x.cond) with nextId := key + 1 } key
                    ⟨core, none, 0, 0, [key], some t.handle, [x.words.getD 3 0, x.words.getD 4 0], x.words.getD 1 0, max t.acqTime (s.condTime x.cond)⟩
                    h ctx ps (fun _ => taskArch x.words t.handle t.upValue t.upHandle)
                  (s2.dequeue t.handle).mapSlot t.handle fun x =>
                    { x with state := .running, exec := some core, forward := if away then some i else none })

/-! ## Completion (R146, R183, R185) -/

/-- HANDLE_RESOLVE (R146, R183): a recorded value or break is released once its condition holds: the slot settles. -/
def execHandleResolve (handle : DWord) (s : State) : Out :=
  .next (match s.slotOf handle with
    | some x =>
      if x.state == .running && x.gen == handleGen handle && (x.value.isSome || x.brk.isSome) && s.condMet x.cond
          && !(s.warps.any fun w => w.task == some handle && w.hasExited && w.owesValue) then
        ((s.dropCond x.cond).mapSlot handle fun x => Slot.settle { x with time := s.tideOf (dieOfCore (x.exec.getD x.core)) }).tryFree handle
      else s
    | none => s)

/-- A decrement breaks its task's handle (R185, R189). -/
def State.breakDec (s : State) (handle : DWord) (cause : Nat) (second : Bool) : State :=
  if (s.liveSlot handle).isNone then s
  else s.mapSlot handle fun x => { x with brk := some (x.brk.getD (breakWord cause (if second then 1 else 0) handle)) }

/-- One successor decrement at its counter's home (R185), made from core `core`; one of a context that is EMPTY or FAILED is dropped (R213). -/
def State.decrement (s : State) (handle : DWord) (core : Nat) (va : DWord) (second : Bool) : State :=
  let ctx := handleCtx handle
  let fail (cause detail : Nat) : State :=
    if !s.translates ctx then s else (s.logRecord ⟨s.tideOf (dieOfCore core), 8, cause, detail, 0, core, 0, 0, 0, va, handle, ctx.toNat, 0, 0⟩).breakDec handle 9 second
  match s.xlate core ctx va.toNat with
  | .bad d _ => fail 2 d
  | .ok pa e =>
    if !leafRead e || !leafWrite e then fail 3 1
    else if !s.grantedAll ctx.toNat 0 pa 4 false || !s.grantedAll ctx.toNat 0 pa 4 true then fail 3 4
    else if s.mem.poisoned pa 4 then fail 17 1
    else
      let r := s.homeRead pa 4
      let old := numLE r.1
      if old = 0 then
        ((r.2.logRecord ⟨s.tideOf (homeDie pa), 4, 13, if second then 1 else 0, 0, 0xFFFF, 0, 0, 0, va, handle, ctx.toNat, 0, 0⟩).breakDec
          handle 5 second).releaseParked pa
      else
        let st : Stamp := ⟨4, 0, (r.2.storeTimes core pa).getD 3 0⟩
        let bs := bytesLE 4 (old - 1)
        let s0 := r.2.homeWriteAs (some st) pa bs
        let s1 : State := { s0 with tasks := { s0.tasks with decTimes := raiseTime pa st.time s0.tasks.decTimes } }
        if old = 1 then s1.releaseParked pa else s1

/-- The place of a counter as a core translates it. -/
def State.decPlace (s : State) (core : Nat) (ctx : BitVec 3) (va : DWord) : Option Nat := match s.xlate core ctx va.toNat with
  | .ok pa _ => some pa
  | .bad _ _ => none

/-- A decrement from a core may arrive at a slice in this cc (R185): those that arrive in one cc apply in ascending order of the core, so one that would follow
a higher core's arrives in a later cc. -/
def State.decMay (s : State) (slice : Option Nat) (core : Nat) : Bool := match slice with
  | some x => s.tasks.decSeen.all fun p => p.1 != x || decide (p.2 ≤ core)
  | none => true

/-- A decrement from a core has arrived at a slice in this cc. -/
def State.seeDec (s : State) (slice : Option Nat) (core : Nat) : State := match slice with
  | some x => { s with tasks := { s.tasks with decSeen := (x, core) :: s.tasks.decSeen } }
  | none => s

/-- One decrement of a task arrives and applies, unless R185 keeps it for a later cc, or a RUN of the banks does (R203); `done` notes it, with the die from which its
acknowledgement comes. -/
def State.decArrive (s : State) (handle : DWord) (core : Nat) (va : DWord) (second : Bool) (done : Nat → State → State) : State :=
  let place := s.decPlace core (handleCtx handle) va
  let slice := place.map sliceOf
  if s.decMay slice core && !place.any s.pchBusy then
    done ((place.map homeDie).getD (dieOfCore core)) ((s.decrement handle core va second).seeDec slice core)
  else s

/-- SUCCESSOR_DECREMENT (R135, R183, R185): A first, then B, once the value or break is released; or one whose slot does not wait for it, which is sent once its condition
holds. -/
def execSuccessorDecrement (handle : DWord) (second : Bool) (s : State) : Out :=
  .next (match (s.liveSlot handle).filter fun x => x.state == .settling with
    | some x =>
      let core := x.exec.getD x.core
      if x.decs.contains (second, false) && (!second || !x.decs.contains (false, false)) && decide (x.time + 8 ≤ s.tideOf (dieOfCore core)) then
        s.decArrive handle core (x.words.getD (if second then 4 else 3) 0) second fun die s =>
          s.mapSlot handle fun x => { x with decs := x.decs.map (fun d => if d.1 == second then (d.1, true) else d), due := s.dueFrom die }
      else s
    | none => match s.tasks.late.find? fun d => d.handle == handle && d.second == second with
      | some d =>
        (match d.due with
        | none =>
          let sent (y : LateDec) : LateDec := if y.handle == handle && y.second == second then { y with due := some (s.dueFrom (dieOfCore d.core)) } else y
          if s.condMet d.cond then { s with tasks := { s.tasks with late := s.tasks.late.map sent } } else s
        | some due =>
          if decide (due.2 ≤ s.tideOf due.1) && (!second || !(s.tasks.late.any fun y => y.handle == handle && !y.second)) then
            s.decArrive handle d.core d.va second fun _ s =>
              { s with tasks := { s.tasks with late := s.tasks.late.filter fun y => !(y.handle == handle && y.second == second) } }
          else s)
      | none => s)

/-- DECREMENT_ACKNOWLEDGE (R135, R174, R183): with every decrement acknowledged the slot is RESOLVED, or BROKEN if any step broke it. -/
def execDecrementAcknowledge (handle : DWord) (s : State) : Out :=
  .next (match s.slotOf handle with
    | some x =>
      if x.state == .settling && x.gen == handleGen handle && (x.decs.all fun d => d.2) && decide (x.due.2 ≤ s.tideOf x.due.1) then
        (s.mapSlot handle fun x =>
          { x with state := if x.brk.isSome then .broken else .resolved, decs := [], time := s.tideOf (dieOfCore (x.exec.getD x.core)) }).tryFree handle
      else s
    | none => s)

/-- The final state of a slot has come from the die that made it to the slot's home, and from there to die `die` (R135). -/
def State.finalAt (s : State) (x : Slot) (die : Nat) : Bool :=
  let e := dieOfCore (x.exec.getD x.core)
  let h := dieOfCore x.core
  x.state.final && decide (x.time + (if e = h then 0 else 8) + (if h = die then 0 else 8) ≤ s.tideOf e)

/-- CHAIN_LIST_RUN (R135, R184, R311): the list of a final upstream starts in order on its executing core, or breaks unrun. -/
def execChainListRun (handle : DWord) (s : State) : Out :=
  .next (match s.slotOf handle with
    | some x =>
      if !s.finalAt x (dieOfCore x.core) || x.gen != handleGen handle then s
      else
        let s1 := s.mapSlot handle fun x => { x with chain := [] }
        let s2 := x.chain.foldl (fun (s : State) h => match x.state, x.brk with
          | .resolved, _ => s.enqueue (dieOfCore x.core) (x.exec.getD x.core) h (x.value.getD 0) handle x.time
          | _, some b => s.breakUnrun h (upstreamWord b)
          | _, none => s) s1
        s2.tryFree handle
    | none => s)

/-! ## Answers (R173, R186, R187, R324, R325) -/

/-- The answer a handle gives a lane on a die: its value or break word once final, and whether it is broken. -/
def State.answer (s : State) (die : Nat) (h : DWord) : Option (DWord × Bool) := match s.slotOf h with
  | some x => if s.finalAt x die then some (match x.brk with | some b => (b, true) | none => (x.value.getD 0, false)) else none
  | none => none

/-- The time at which the final handles of a list were released: an answer is an acquire ordered after it (R147). -/
def State.answerTime (s : State) (hs : List DWord) : Nat := hs.foldl (fun t h => match s.slotOf h with
  | some x => if x.state.final then max t x.time else t
  | none => t) 0

/-- The lanes of an `AWAIT` whose handles are final take their answers (R186): value or break word, predicate, Runnable again. Lanes of a broken `AWAIT.T`
take the software trap together, in their turn: not while the program's warp is in a handler or has an access unchecked (R229, R231). -/
def State.awaitAnswer (s : State) (r : Req) (hs : List (Nat × DWord)) (d : Reg) (p : PReg) (t : Bool) : State :=
  match s.warpOf r.uid with
  | none => s.dropReq r.id
  | some w =>
    let ready := hs.filterMap fun x => (s.answer (dieOfCore r.core) x.2).map fun a => (x.1, x.2, a.1, a.2)
    let mayTrap := !(w.inHandler && !r.hdl) && (s.unchecked r.uid).isEmpty
    let due := ready.filter fun x => !(t && x.2.2.2) || mayTrap
    let traps := due.filter fun x => t && x.2.2.2
    let writes := due.filter fun x => !(t && x.2.2.2)
    let inList (xs : List (Nat × DWord × DWord × Bool)) : Mask := maskOf fun l => xs.any fun x => x.1 == l
    let val (l : Nat) : DWord := match writes.find? fun x => x.1 == l with | some x => x.2.2.1 | none => 0
    let wm := inList writes
    let dm := inList due
    let put (a : Arch) : Arch :=
      let a1 := [RegWrite.mk d (.g (lanesOf fun l => loWord (val l))), ⟨d + 1, .g (lanesOf fun l => hiWord (val l))⟩].foldl
        (fun a x => if wm = 0 then a else a.writeAs r.hdl w.live wm x) a
      let a2 := a1.writePred wm p (maskOf fun l => writes.any fun x => x.1 == l && !x.2.2.2)
      a2.mapLanes dm fun _ x => if x.st == .awaiting r.id then { x with st := .runnable, wait := 0 } else x
    let rest := hs.filter fun x => !dm.getLsbD x.1
    let unblock (a : Arch) : Arch := match a.handler with
      | some h => if rest.isEmpty && h.blk == some (.await r.id) then { a with handler := some { h with blk := none } } else a
      | none => a
    let s1 := s.mapWarp r.uid fun w =>
      let w1 := { (w.mapArchFrom r.id fun a => unblock (put a)).refetch with
        acted := w.acted ||| dm, acqUntil := max w.acqUntil (s.answerTime (due.map fun x => x.2.1)) }
      if rest.isEmpty then w1.dropPend r.id else w1
    let s2 := if rest.isEmpty then s1.dropReq r.id else s1.mapReq r.id fun x => { x with kind := .await rest d p t }
    let s3 := due.foldl (fun (s : State) x => s.tryFree x.2.1) s2
    match traps with
    | [] => s3
    | x :: _ =>
      let s4 := s3.focus r.uid
      s4.takeTrap s4 ⟨15, 255, 0, some x.1, x.2.2.1, 4, r.act, inList traps &&& s4.cur.live, r.pc, r.next⟩

/-- A handle two entries of a list name, or one that fails the check of R172: the lowest such lane (R188). -/
def State.dropFault (s : State) (ctx : BitVec 3) (hs : List (Nat × DWord)) : Option Nat :=
  (hs.find? fun x => !s.handleOk ctx x.2 || hs.any fun y => y.1 != x.1 && y.2 == x.2).map (·.1)

/-- The lowest lane of a list whose handle fails the check. -/
def State.checkFault (s : State) (ctx : BitVec 3) (hs : List (Nat × DWord)) : Option Nat :=
  (hs.find? fun x => !s.handleOk ctx x.2).map (·.1)

/-- A message reaches the home of a handle no sooner than R135 lets it: one from another die takes 2ε. -/
def State.handleCame (s : State) (r : Req) (hs : List DWord) : Bool := s.came r || hs.all fun h => dieOfCore (handleCore h) == dieOfCore r.core

/-- The handles a request names. -/
def Req.handles (r : Req) : List DWord := match r.kind with
  | .await hs _ _ _ => hs.map (·.2)
  | .hpoll hs _ => hs.map (·.2)
  | .hdrop hs => hs.map (·.2)
  | .chain hs => hs.map (·.2.1)
  | _ => []

/-- HANDLE_MESSAGE_ARRIVE (R172, R173, R184, R287, R310, R324, R325): the messages of an `AWAIT`, `HPOLL`, `HDROP` or `CHAIN` reach their homes and are answered.
The entries of a `CHAIN` whose upstream has gone meanwhile take no slot; a warp that a switch has stopped takes the answer of its `AWAIT` at switch-in (R220). -/
def execHandleMessageArrive (id : Nat) (s : State) : Out :=
  .next (match s.reqOf id with
    | some r =>
      if r.checked || r.fault.isSome || !s.handleCame r r.handles then s
      else match r.kind with
        | .await hs d p t => match s.checkFault r.ctx hs with
          | some l => s.failReq id 11 0 0 (some l) 0 4
          | none => if s.frozen r.uid then s.checkReq id else (s.checkReq id).awaitAnswer r hs d p t
        | .hpoll hs p => match s.checkFault r.ctx hs with
          | some l => s.failReq id 11 0 0 (some l) 0 4
          | none =>
            let m := maskOf fun l => hs.any fun x => x.1 == l && (s.answer (dieOfCore r.core) x.2).isSome
            ((s.checkReq id).mapWarp r.uid fun w =>
              ({ w.refetch with acqUntil := max w.acqUntil (s.answerTime r.handles) }.mapArchFrom id fun a => a.writePred r.act p m).dropPend id).dropReq id
        | .hdrop hs => match s.dropFault r.ctx hs with
          | some l => s.failReq id 11 0 0 (some l) 0 4
          | none => hs.foldl (fun (s : State) x => (s.mapSlot x.2 fun y => { y with dropped := true }).tryFree x.2)
              ((s.checkReq id).dropReq id)
        | .chain hs => match s.checkFault r.ctx (hs.map fun x => (x.1, x.2.1)) with
          | some l => (hs.foldl (fun (s : State) x => s.untake x.2.2) s).failReq id 11 0 0 (some l) 0 4
          | none => hs.foldl (fun (s : State) x => s.joinChain x.2.1 x.2.2) ((s.checkReq id).dropReq id)
        | _ => s
    | none => s)

/-- AWAIT_WAKE (R186): every lane that waits for a handle that is final is answered; a warp that a switch has stopped or saved takes its answers at
switch-in (R220, R240). -/
def execAwaitWake (handle : DWord) (s : State) : Out :=
  .next (match s.slotOf handle with
    | none => s
    | some _ => s.reqs.foldl (fun (s : State) r => match r.kind with
        | .await hs d p t => if r.checked && !s.frozen r.uid && hs.any (fun x => x.2 == handle) then s.awaitAnswer r hs d p t else s
        | _ => s) s)

end Sys2Proof.Machine
end

