-- ==== Sys2Proof/Machine/Release.lean ====
section
/-! DEFINITION. Aged splits, wake-ups, the end of workgroups and of launches (R37, R38, R41 to R44, R91, R92, R357). -/

namespace Sys2Proof.Machine

/-! ## Splits and sleepers -/

/-- The age of a split: the largest wait count of its lanes (R37). -/
def Warp.age (w : Warp) (m : Mask) : Nat := (maskLanes m).foldl (fun t l => max t (w.lane l).wait.toNat) 0

/-- True of an aged split (R37): PROG = 1 and an age of at least F. -/
def Warp.aged (w : Warp) (m : Mask) : Bool := w.hdr.prog && decide (w.hdr.fint ≤ w.age m)

/-- SPLIT_AGED (R37, R38): a split whose age has reached F is listed first. -/
def execSplitAged (core pos : Nat) (pc : DWord) (s : State) : Out :=
  .next (match s.warpAt core pos with
    | some w =>
      let m := w.splitAt pc
      if m != 0 && !w.inHandler && w.aged m then { s with turns := .issue core pos pc :: s.turns } else s
    | none => s)

/-- SLEEP_WAKE (R233, R357): lanes, or the handler split, whose wake time the die's Tidemark has reached wake; a warp a switch has stopped does not
wake. -/
def execSleepWake (core pos : Nat) (s : State) : Out :=
  let t := s.tideOf (dieOfCore core)
  .next (match s.warpAt core pos with
    | some w =>
      if s.frozen w.uid then s
      else s.mapWarp w.uid fun w =>
        let w1 := w.wake fun x => match x.st with | .sleeping k => decide (k ≤ t) | _ => false
        match w1.arch.handler with
        | some h => match h.blk with
          | some (.sleep k) => if k ≤ t then { w1 with arch := { w1.arch with handler := some { h with blk := none } } } else w1
          | _ => w1
        | none => w1
    | none => s)

/-! ## Workgroup release (R42, R43) -/

/-- The warps of a workgroup have all exited (R41). -/
def State.wgExited (s : State) (g : Workgroup) : Bool := (s.warps.filter fun w => w.uid != 0 && w.wg == g.key).all fun w => w.hasExited && !w.inHandler

/-- True of a request whose effect is its warp's own: all but an `AWAIT`, whose answer an exited warp discards (R41). -/
def Req.isAccess (r : Req) : Bool := match r.kind with
  | .await _ _ _ _ => false
  | _ => true

/-- What R42 waits for: accesses on the way to, or accepted by, the arrays of a workgroup, `AXM`s on them, and copy entries of its scratchpad; and, which the spec
does not say (log 61), the other accesses of its warps that have not performed, so that its counts and its launch are complete (R91, R379, R383). -/
def State.wgBusy (s : State) (g : Workgroup) : Bool :=
  (s.reqs.any fun r => r.fault.isNone && ((r.wg == g.key && r.isAccess) || g.arrays.any fun p => r.touches g.core p))
    || (s.arrays.any fun a => a.core == g.core && g.arrays.contains a.phys && (!a.axms.isEmpty || !a.queue.isEmpty))
    || (s.copy.entries.any fun e => e.wg == g.key && !e.wide && (match e.kind with | .copy => true | .reduce _ => true | _ => false))

/-- The counts of a workgroup are added to its area (R91): the state and the time by which the additions have performed at `.dev`. -/
def State.addStats (s : State) (g : Workgroup) (handle : DWord) : State × Nat :=
  let b : StatBy := ⟨g.ctx, 0, g.core, dieOfCore g.core, g.core, g.lastPos, handle⟩
  (if g.hdr.statp = 0 then [] else statWords g.hdr.statp.toNat g.stats).foldl (fun (t : State × Nat) p =>
    let d := match t.1.xlate g.core g.ctx p.1 with | .ok pa _ => t.1.devTime pa | .bad _ _ => 0
    (t.1.statAdd b p.1 p.2, max t.2 d)) (s, 0)

/-- The task of a workgroup. -/
def State.wgTask (s : State) (key : Nat) : DWord := match s.warps.find? fun w => w.uid != 0 && w.wg == key with
  | some w => w.task.getD 0
  | none => 0

/-- Apply `f` to the launch with a key. -/
def State.mapLaunch (s : State) (key : Nat) (f : Launch → Launch) : State := { s with launches := updWhere (fun l => l.key == key) f s.launches }

/-- Steps 1 to 3 of R42 for one workgroup: its counts are added, its arrays return to storage mode, and its slot, barriers and queues return. -/
def State.leaveWg (s : State) (g : Workgroup) : State :=
  let r := s.addStats g (s.wgTask g.key)
  let s0 : State := { r.1 with
    arrays := updWhere (fun a => a.core == g.core && g.arrays.contains a.phys) (fun a => { a with mode := 0, poisoned := false, flips := [] }) r.1.arrays }
  let s1 := s0.mapWg g.key fun x => { x with left := true, stats := [] }
  match g.launch with
  | some k => s1.mapLaunch k fun l => { l with statTime := max l.statTime r.2 }
  | none => s1

/-- The members of a cluster return their arrays, in storage mode, and are gone (R42, R43). -/
def State.freeCluster (s : State) (members : List Nat) : State :=
  let gs := s.wgs.filter fun g => members.contains g.key
  let s1 : State := { s with
    wgs := s.wgs.filter fun g => !members.contains g.key
    arrays := s.arrays.filter fun a => !(gs.any fun g => g.core == a.core && g.arrays.contains a.phys) }
  gs.foldl (fun (s : State) g => match g.launch with
    | some k => s.mapLaunch k fun l => { l with left := l.left - 1 }
    | none => s) s1

/-- WORKGROUP_RELEASE (R42, R43, R91): a workgroup whose warps have exited and whose arrays are quiet leaves; when every member of its cluster has, their
arrays return. -/
def execWorkgroupRelease (wg : Nat) (s : State) : Out :=
  .next (match s.wgOf wg with
    | some g =>
      if !s.wgExited g then s
      else
        let s1 := if g.left || s.wgBusy g then s else s.leaveWg g
        let mates := s1.wgs.filter fun x => g.members.contains x.key
        if mates.all fun x => x.left && !s1.wgBusy x then s1.freeCluster g.members else s1
    | none => s)

/-- LAUNCH_COMPLETE (R44, R91, R215): every workgroup of every cluster has released and the statistics have performed; the timetable entry shows DONE
when its latest firing is this launch. -/
def execLaunchComplete (launch : Nat) (s : State) : Out :=
  .next (match s.launches.find? fun l => l.key == launch with
    | some l =>
      if l.next < l.total || l.left != 0 || decide (s.tideOf 12 < l.statTime) then s
      else { s with
        launches := s.launches.filter fun x => x.key != launch
        ctl := { s.ctl with tt := s.ctl.tt.map fun e =>
          if e.launch == some launch then { e with launch := none, last := if !l.ended && (e.last == 1 || e.last == 6) then 2 else e.last }
          else e } }
    | none => s)

end Sys2Proof.Machine
end

