-- ==== Sys2Proof/Machine/Fetch.lean ====
section
/-! DEFINITION. Instruction fetch: instruction caches, translation, X and data errors (R241, R242, R253, R309). -/

namespace Sys2Proof.Machine

/-- Why a fetch fails (R225, R242): the lowest failing byte, the trap's cause, detail and AUX, and the place a target refused. -/
structure FetchFault where
  addr : Nat
  cause : Nat
  detail : Nat
  aux : Nat
  refused : Option Nat
deriving DecidableEq, Repr

/-- The word a core's instruction cache holds. -/
def State.cachedWord (s : State) (core : Nat) (ctx : BitVec 3) (pa : Nat) : Option ILine :=
  s.mem.icache.find? fun x => x.core == core && x.ctx == ctx && x.pa == pa

/-- Keep a word in a core's instruction cache (R10: 64 KiB, 16,384 words). The word that leaves a full cache is the model's choice: the oldest (log 60). -/
def MemSys.putWord (m : MemSys) (x : ILine) : MemSys :=
  { m with icache := if m.icache.length < 16384 then x :: m.icache
      else x :: ((m.icache.filter fun y => y.core == x.core).take 16383 ++ m.icache.filter fun y => y.core != x.core) }

/-- Fetch the 4-byte word at a virtual address (R242, R253): its page needs X; the cached word, else the home copy, read without recall and kept. -/
def State.fetchWord (s : State) (core : Nat) (ctx : BitVec 3) (va : Nat) : Except FetchFault (List Byte × State) :=
  match s.xlate core ctx va with
  | .bad d lv => .error ⟨va, 2, d, lv, none⟩
  | .ok pa e =>
    if !leafExec e then .error ⟨va, 3, 1, 0, none⟩
    else match s.cachedWord core ctx pa with
      | some x => if x.bad then .error ⟨va, 17, 4, 0, none⟩ else .ok (x.bytes, s)
      | none =>
        if !s.grantedAll ctx.toNat 0 pa 4 false then .error ⟨va, 3, 4, 0, some pa⟩
        else if s.mem.homePoisoned pa 4 then .error ⟨va, 17, 4, 0, none⟩
        else
          let bs := readBytes s.mem.home pa 4
          let s1 := s.fillTlb core ctx va
          .ok (bs, { s1 with mem := s1.mem.putWord ⟨core, ctx, pa, bs, false⟩ })

/-- Fetch n words from an address up. -/
def State.fetchWords (s : State) (core : Nat) (ctx : BitVec 3) : Nat → Nat → Except FetchFault (List Byte × State)
  | _, 0 => .ok ([], s)
  | va, n + 1 => match s.fetchWord core ctx (va % 2 ^ 64) with
    | .error e => .error e
    | .ok (b, s1) => match s1.fetchWords core ctx (va + 4) n with
      | .error e => .error e
      | .ok (bs, s2) => .ok (b ++ bs, s2)

/-- The length in bytes of the instruction whose base word is the first of some bytes (R241). -/
def lenOfBytes (bs : List Byte) : Nat := lenBytes (BitVec.ofNat 2 (leNat (bs.take 1)))

/-- Fetch a whole instruction (R241, R242). -/
def State.fetch (s : State) (core : Nat) (ctx : BitVec 3) (pc : DWord) : Except FetchFault (List Byte × State) :=
  match s.fetchWords core ctx pc.toNat 1 with
  | .error e => .error e
  | .ok (b, s1) => match s1.fetchWords core ctx (pc.toNat + 4) (lenOfBytes b / 4 - 1) with
    | .error e => .error e
    | .ok (bs, s2) => .ok (b ++ bs, s2)

/-- The trap of a failing fetch by the split that issues (R232, R242): no lane is active, ADDR is the lowest failing byte, ACC 3. A refusal is
logged when the trap is taken. -/
def State.fetchTrap (s : State) (e : FetchFault) : State :=
  let s1 := match e.refused with
    | some pa => if (s.unchecked s.cur.uid).isEmpty then
        s.logRecord ⟨s.tideOf (homeDie pa), 3, 3, 4, 0, s.cur.core, s.cur.pos, 0, s.ipc, BitVec.ofNat 64 pa, s.cur.task.getD 0, s.cur.ctx.toNat,
          0, targetOf pa⟩
      else s
    | none => s
  s1.trapP 0 e.cause e.detail e.aux none (BitVec.ofNat 64 e.addr) 3

/-- What the lanes of the split that issues have fetched ahead (R309), if they have. -/
def State.ahead (s : State) : Option Fetched := s.cur.fetched.find? fun f => f.pc == s.ipc && s.split &&& ~~~ f.lanes == 0

/-- The bytes of the instruction that the split in focus issues (R242, R309): those its lanes have fetched ahead, else those fetched now. -/
def State.fetchSplit (s : State) : Except FetchFault (List Byte × State) := match s.ahead with
  | some f => .ok (f.bytes, s)
  | none => s.fetch s.cur.core s.cur.ctx s.ipc

/-- A warp may issue: its die is up, and its context runs, or a gang switch lets it go on until it stops (R213, R219, R274). -/
def State.mayIssue (s : State) (w : Warp) : Bool :=
  w.uid != 0 && !w.hasExited && !s.ctl.down.contains (dieOfCore w.core) && (match s.ctl.switch with
    | none => s.runs w.ctx
    | some x => x.phase == .stopping && !x.teardown && x.leaving == some w.ctx.toNat && !x.stopped.contains w.uid)

/-- A split of the warp stands at a PC and is not held there. -/
def Warp.fetchesAt (w : Warp) (pc : DWord) : Bool :=
  w.splitAt pc != 0 && !(w.holds.any fun h => h.mask &&& w.splitAt pc != 0) && w.fences.isEmpty
    && (match w.arch.handler with | some h => h.blk.isNone | none => true)

/-- The split of a warp at a PC has fetched its instruction. -/
def Warp.keepFetch (w : Warp) (pc : DWord) (bs : List Byte) : Warp :=
  { w with fetched := ⟨pc, w.splitAt pc, bs⟩ :: w.fetched.filter fun f => f.pc != pc }

/-- INSTRUCTION_FETCH (R242, R253, R309): a core fetches the word at an address from its home afresh; when a split of the warp stands there, its whole
instruction, which its lanes keep until it issues, and a fetch that fails traps. -/
def execInstructionFetch (core pos : Nat) (pc : DWord) (s : State) : Out :=
  .next (match s.warpAt core pos with
    | some w =>
      if !s.mayIssue w then s
      else
        let s1 : State := match s.xlate core w.ctx pc.toNat with
          | .ok pa _ => { s with mem := { s.mem with icache := s.mem.icache.filter fun x => !(x.core == core && x.ctx == w.ctx && x.pa == pa) } }
          | .bad _ _ => s
        if w.fetchesAt pc then
          match s1.fetch core w.ctx pc with
          | .ok (bs, s2) => s2.mapWarp w.uid fun w => w.keepFetch pc bs
          | .error e => State.fetchTrap { s1.focus w.uid with ipc := pc } e
        else match s1.fetchWord core w.ctx pc.toNat with
          | .ok (_, s2) => s2
          | .error _ => s1
    | none => s)

end Sys2Proof.Machine
end

