-- ==== Sys2Proof/Machine/Timetable.lean ====
section
/-! DEFINITION. Tidemark discipline, and the timetable up to the launch it submits (R24, R210 to R212, R215 to R218, R223). -/

namespace Sys2Proof.Machine

/-! ## Discipline (R210 to R212) -/

/-- TMCTL.EN. -/
def TimeCtl.en (t : TimeCtl) : Bool := t.tmctl.getLsbD 31
/-- Put the state of the discipline. -/
def State.setTm (s : State) (t : TimeCtl) : State := { s with ctl := { s.ctl with tm := t } }

/-- TMCTL.PORT. -/
def TimeCtl.port (t : TimeCtl) : Nat := bitsAt t.tmctl.toNat 28 3
/-- TMCTL.DOMAIN. -/
def TimeCtl.domain (t : TimeCtl) : Nat := bitsAt t.tmctl.toNat 20 8
/-- TMCTL.PDLY. -/
def TimeCtl.pdly (t : TimeCtl) : Bool := t.tmctl.getLsbD 19

/-- A write of TMCTL (R211, R212): EN, PORT, DOMAIN and PDLY take the value; with EN 0, LOCK and HOLD are clear. -/
def State.writeTmctl (s : State) (v : Word) : State :=
  let t := { s.ctl.tm with tmctl := v &&& 0xFFF80000 }
  s.setTm (if t.en then t else { t with lock := false, hold := false, good := 0 })
/-- TMCTL_WRITE (R211): Estuary writes TMCTL. -/
def execTmctlWrite (v : Word) (s : State) : Out := .next (s.estuary 0x41000 4 fun s => s.writeTmctl v)

/-- The number of T_k before a time (R216). -/
def TtEntry.before (e : TtEntry) (t : Nat) : Nat :=
  if t ≤ e.start.toNat then 0 else if e.period = 0 then 1 else (t - 1 - e.start.toNat) / e.period.toNat + 1

/-- The armed entries after a forward step to `now` (R212): an entry with a T_k passed fires once, at once, with the new count as its T
(log 38), and counts its other T_k passed in NSKIP. -/
def TtEntry.stepped (now : Nat) (e : TtEntry) : TtEntry :=
  if e.ctl.getLsbD 31 && decide (e.nextT ≤ now) then
    { e with nskip := satAdd 8 e.nskip (e.before (now + 1) - e.before e.nextT - 1), nextT := now }
  else e

/-- The count derived from PTP time in ns (R210): floor(ns / 1.25). -/
def ptpCount (ns : Nat) : Nat := ns * 4 / 5

/-- PTP_MESSAGE_RECEIVE (R210 to R212): while EN is 1, a sync exchange at port PORT in domain DOMAIN by the mechanism of PDLY gives the PTP time in ns. The offset
from it is measured in ns, on whole ticks (log 67). The first measurement since reset may step every die's Tidemark forward, once; OFFS saturates; LOCK sets after 16 consecutive
offsets of at most 40 ns and clears on a larger one. -/
def execPtpMessageReceive (link : PtpLink) (ns : Nat) (s : State) : Out :=
  let t := s.ctl.tm
  .next (if !t.en || !s.boot.portsUp || link.port != t.port || link.domain != t.domain || link.pdly != t.pdly then s
    else
      let fifth : Int := 5 * (s.tideOf 12 : Int) - 4 * (ns : Int)
      let offset := fifth / 4
      let count := ptpCount ns
      let near := decide (-160 ≤ fifth) && decide (fifth ≤ 160)
      let good := if near then t.good + 1 else 0
      let step := !t.seen && decide (s.tideOf 12 < count)
      let s1 : State := if step then
          { s with tide := s.tide.map (max count), ctl := { s.ctl with tt := s.ctl.tt.map (TtEntry.stepped count) } }
        else s
      s1.setTm { t with
        seen := true
        hold := false
        good := good
        lock := near && (t.lock || decide (16 ≤ good))
        offs := max (-(2 ^ 23)) (min (2 ^ 23 - 1) offset)
        lastSync := s1.tideOf 12 })

/-- HOLD (R211): no valid sync message for 2 s. -/
def execHold (s : State) : Out :=
  let t := s.ctl.tm
  .next (if t.en && t.seen && decide (t.lastSync + 1600000000 ≤ s.tideOf 12) then s.setTm { t with hold := true } else s)

/-! ## Entries (R215) -/

/-- ACT: 0 launch, 1 gang switch, 2 stop. -/
def TtEntry.act (e : TtEntry) : Nat := bitsAt e.ctl.toNat 29 2
/-- OVR: 0 DEFER, 1 SKIP, 2 PREEMPT. -/
def TtEntry.ovr (e : TtEntry) : Nat := bitsAt e.ctl.toNat 27 2
/-- CTX. -/
def TtEntry.cx (e : TtEntry) : Nat := bitsAt e.ctl.toNat 24 3
/-- EN. -/
def TtEntry.en (e : TtEntry) : Bool := e.ctl.getLsbD 31
/-- EN clear. -/
def TtEntry.disable (e : TtEntry) : TtEntry := { e with ctl := e.ctl &&& 0x7FFFFFFF, staged := false }

/-- An entry; one never written is all zero (R215). -/
def State.ttOf (s : State) (n : Nat) : TtEntry := (getKey TtEntry.n n s.ctl.tt).getD ⟨n, 0, 0, 0, 0, 0, 0, 0, 0, 0, none, none, 0, false⟩
/-- Put an entry. -/
def State.putTt (s : State) (e : TtEntry) : State := { s with ctl := { s.ctl with tt := putKey TtEntry.n e s.ctl.tt } }
/-- LAST of an entry. -/
def State.setLast (s : State) (n last : Nat) : State := s.putTt { s.ttOf n with last := last }

/-- A TTCTL value reaches an entry that is not armed (R215, R216): with EN set, a reserved ACT or OVR refuses; otherwise the entry is armed, its counts are
zeroed, and it fires first at TTSTART, or at once when that has passed. -/
def TtEntry.writeCtl (now : Nat) (v : Word) (e : TtEntry) : TtEntry :=
  let e1 := { e with ctl := v &&& 0xFF000000 }
  if !e1.en then e1
  else if e1.act == 3 || e1.ovr == 3 then { e1.disable with last := 3 }
  else { e1 with nskip := 0, nfire := 0, nextT := max now e.start.toNat, known := now, staged := false }

/-- A write to a word of an entry (R215): it disables an armed entry first; TTSTAT is read-only. -/
def State.writeTt (s : State) (n word : Nat) (v : Word) : State :=
  let e := (s.ttOf n).disable
  match word with
    | 0 => s.putTt { e with start := pairOf v (hiWord e.start) }
    | 1 => s.putTt { e with start := pairOf (loWord e.start) v }
    | 2 => s.putTt { e with period := v }
    | 3 => s.putTt { e with slot := v }
    | 4 => s.putTt { e with lh := pairOf v (hiWord e.lh) }
    | 5 => s.putTt { e with lh := pairOf (loWord e.lh) v }
    | 6 => s.putTt (e.writeCtl (s.tideOf 12) v)
    | 7 => s.putTt e
    | _ => s

/-- TTCTL_ARM (R215, R216): Estuary writes TTCTL. -/
def execTtctlArm (n : Nat) (v : Word) (s : State) : Out :=
  .next (if n < 128 then s.estuary (0x40000 + 32 * n + 24) 4 fun s => s.writeTt n 6 v else s)

/-- TIMETABLE_ENTRY_WRITE (R215): Estuary writes a word of an entry. -/
def execTimetableEntryWrite (n word : Nat) (v : Word) (s : State) : Out :=
  .next (if n < 128 ∧ word < 8 then s.estuary (0x40000 + 32 * n + 4 * word) 4 fun s => s.writeTt n word v else s)

/-- An armed entry is due: the I/O die's Tidemark has reached its next firing time, or any die's has, when the firing is known in advance (R216). -/
def State.due (s : State) (e : TtEntry) : Bool :=
  e.en && (decide (e.nextT ≤ s.tideOf 12) || (decide (e.known + 1600 ≤ e.nextT) && s.tide.any fun t => decide (e.nextT ≤ t)))

/-- An entry fires next: it is due, and none is due at an earlier time, or at the same time with a lower number (R216). -/
def State.ttDue (s : State) (n : Nat) : Bool :=
  let e := s.ttOf n
  s.due e && !(s.ctl.tt.any fun x => s.due x && (decide (x.nextT < e.nextT) || (x.nextT == e.nextT && decide (x.n < n))))

/-- The slot a launch firing opens (R216): that of its context, when it runs; of the slots open for it, the last to end counts (log 68). -/
def State.openSlot (s : State) (e : TtEntry) : State :=
  if (getKey Context.n e.cx s.ctl.ctxs).any fun c => c.state == .running then
    { s with ctl := { s.ctl with slotEnd := max s.ctl.slotEnd (e.nextT + e.slot.toNat) } }
  else s

/-- The entry after it fires at its T (R215, R216): NFIRE counts, a one-shot disarms, otherwise the next T_k after T follows. -/
def TtEntry.fired (e : TtEntry) : TtEntry :=
  let e1 := { e with nfire := (e.nfire + 1) % 2 ^ 16, known := e.nextT, staged := false }
  if e.period = 0 then e1.disable
  else { e1 with nextT := e.start.toNat + e.period.toNat * ((e.nextT - e.start.toNat) / e.period.toNat + 1) }

/-- A skipped firing (R215, R218). -/
def State.skipFiring (s : State) (n : Nat) : State :=
  let e := s.ttOf n
  s.putTt { e with nskip := satAdd 8 e.nskip 1, last := 4 }

/-- A firing held under DEFER: one at most (R218). -/
def State.deferFiring (s : State) (n T : Nat) : State :=
  let e := s.ttOf n
  if e.held.isSome then s.skipFiring n else s.putTt { e with held := some T, last := 5 }

/-- STAGING_START (R223): a gang-switch firing known 50 µs ahead is staged from T - 50 µs, where the configuration allows it; only timing changes. -/
def execStagingStart (n : Nat) (s : State) : Out :=
  let e := s.ttOf n
  .next (if e.en && e.act == 1 && decide (e.known + 40000 ≤ e.nextT) && decide (e.nextT ≤ s.tideOf 12 + 40000) && s.boot.gsw.toNat / 65536 != 0 then
      s.putTt { e with staged := true }
    else s)

/-! ## Contexts -/

/-- The record of a context. -/
def State.ctxOf (s : State) (n : Nat) : Context := (getKey Context.n n s.ctl.ctxs).getD (.reset n)
/-- Apply `f` to a context. -/
def State.mapCtx (s : State) (n : Nat) (f : Context → Context) : State :=
  { s with ctl := { s.ctl with ctxs := updWhere (fun c => c.n == n) f s.ctl.ctxs } }
/-- The state of a context. -/
def State.setCtx (s : State) (n : Nat) (x : CtxState) : State := s.mapCtx n fun c => { c with state := x }
/-- The RUNNING context (R213). -/
def State.running (s : State) : Option Nat := (s.ctl.ctxs.find? fun c => c.state == .running).map (·.n)

/-! ## Reads by the part -/

/-- Eight bytes at an aligned virtual address, read at their home by the part for a context: none when the read faults; a refusal is recorded (R236). -/
def State.partWord (s : State) (ctx : BitVec 3) (va : Nat) : Option Nat × State :=
  match s.walkVa ctx va with
  | .bad _ _ => (none, s)
  | .ok pa e =>
    if !leafRead e then (none, s)
    else if !s.grantedAll ctx.toNat 0 pa 8 false then
      (none, s.logRecord ⟨s.tideOf (homeDie pa), 3, 3, 4, 0, 0xFFFF, 0, 0, 0, BitVec.ofNat 64 pa, 0, ctx.toNat, 0, targetOf pa⟩)
    else if s.mem.poisoned pa 8 then (none, s)
    else
      let r := s.homeRead pa 8
      (some (numLE r.1), r.2)

/-- n consecutive words of eight bytes. -/
def State.partWords (s : State) (ctx : BitVec 3) : Nat → Nat → Option (List Nat) × State
  | _, 0 => (some [], s)
  | va, n + 1 => match s.partWord ctx va with
    | (none, s1) => (none, s1)
    | (some x, s1) =>
      let r := s1.partWords ctx (va + 8) n
      (r.1.map (x :: ·), r.2)

/-! ## Discarding warps (R213, R218) -/

/-- A request that discarding its warp leaves to perform: accepted, and not one that only waits for an answer. -/
def Req.survives (r : Req) : Bool := r.checked && r.fault.isNone && (match r.kind with | .await _ _ _ _ => false | _ => true)

/-- A warp discarded without a save: every lane Exited, nothing pending but the writes of `keep`. -/
def Warp.discard (w : Warp) (keep : List Nat) : Warp :=
  { w with
    arch := { w.arch.mapLanes (BitVec.allOnes 128) (fun _ x => { x with st := .exited }) with handler := none, sets := List.replicate 16 .empty }
    snaps := []
    fetched := []
    reads := []
    pends := w.pends.filter fun p => !p.async && (keep.contains p.id || p.ready.isSome)
    fences := []
    holds := []
    stalled := false }

/-- Discard the warps `hit` names, placed or saved: accepted work performs, what no unit has accepted is gone (R218). -/
def State.discardWarps (s : State) (hit : Warp → Bool) : State :=
  let ws := (s.warps ++ s.ctl.saved.flatMap (·.warps)).filter fun w => w.uid != 0 && hit w && !(w.hasExited && !w.inHandler)
  let uids := ws.map (·.uid)
  let mine (uid : Nat) : Bool := uids.contains uid
  let axms := s.arrays.flatMap fun a => a.axms.map (·.id)
  let keep := (s.reqs.filter fun r => mine r.uid && r.survives).map (·.id) ++ axms
  let f (w : Warp) : Warp := if mine w.uid then w.discard keep else w
  let s1 := s.mapWarps f
  { s1 with
    wgs := ws.foldl (fun gs w => updWhere (fun g => g.key == w.wg) (fun g => { g with lastPos := w.pos }) gs) s1.wgs
    reqs := s1.reqs.filter fun r => !mine r.uid || r.survives
    copy := { s1.copy with entries := s1.copy.entries.filter fun e => !(mine e.uid && e.acc == 0) }
    cards := s1.cards.filter fun k => !(mine k.uid && k.acc == 0)
    ctl := { s1.ctl with saved := s1.ctl.saved.map fun c => { c with warps := c.warps.map f } } }

/-! ## Launch firings (R216 to R218) -/

/-- The warps of launches that have ended are discarded, saved or on a die that has begun the action (R216, R218). -/
def State.discardEnded (s : State) : State :=
  let dead (die : Option Nat) (g : Workgroup) : Bool := s.launches.any fun l => l.ended && g.launch == some l.key && die.all fun d => decide (l.stop ≤ s.tideOf d)
  let wgs := ((s.wgs.filter fun g => dead (some (dieOfCore g.core)) g) ++ (s.ctl.saved.flatMap (·.wgs)).filter (dead none)).map (·.key)
  if wgs.isEmpty then s else s.discardWarps fun w => wgs.contains w.wg

/-- A launch ends under PREEMPT (R216, R218): nothing more of it is placed, and its warps are discarded on each die from Tidemark `start`. -/
def State.endLaunch (s : State) (key start : Nat) : State :=
  (s.mapLaunch key fun l => { l with ended := true, stop := start, next := l.total }).discardEnded

/-- The action time of a firing at T (R216): T when it was known 2 µs in advance, else a time within 1 µs after T. -/
def State.actionTime (s : State) (known T : Nat) : Nat := if known + 1600 ≤ T then T else min (s.tideOf 12) (T + 800)

/-- The latest `.dev` or `.sys` stamp among the bytes of a header (R138, R217). -/
def State.headerStamp (s : State) (pa : Nat) : Nat :=
  (List.range 128).foldl (fun t i => match (s.mem.homeByte (pa + i)).stamp with
    | some st => if 4 ≤ st.scope then max t st.time else t
    | none => t) 0

/-- Submit the launch of an entry's firing (R24, R217): the header at TTLH, valid and 128-byte aligned, in a context that is READY or RUNNING; otherwise
REFUSED. `last` is what LAST shows, `start` the action time. -/
def State.submitLaunch (s : State) (n last start : Nat) : State :=
  let e := s.ttOf n
  let refuse (s : State) : State := s.putTt { s.ttOf n with last := 3, launch := none }
  let ctx : BitVec 3 := BitVec.ofNat 3 e.cx
  let st := (s.ctxOf e.cx).state
  if !(st == .ready || st == .running) || e.lh.toNat % 128 != 0 then refuse s
  else match s.walkVa ctx e.lh.toNat with
    | .bad _ _ => refuse s
    | .ok pa _ => match s.partWords ctx e.lh.toNat 16 with
      | (none, s1) => refuse s1
      | (some ws, s1) =>
        let bs := ws.flatMap (bytesLE 8)
        let h := headerOf bs
        if !reservedZero bs || !h.valid e.cx then refuse s1
        else
          let key := s1.nextId
          let l : Launch := ⟨key, ctx, h, 0, h.clusters, 0, some n, start, max (s1.tideOf 12) (s1.headerStamp pa), 0, false, 0⟩
          State.putTt { s1 with nextId := key + 1, launches := s1.launches ++ [l] } { e with last := last, launch := some key }

/-- A held launch firing is submitted once the previous launch has completed (R218); a LAST of SKIPPED, which a later firing left, stays (R215). -/
def State.submitHeld (s : State) (n : Nat) : State :=
  let e := s.ttOf n
  if e.held.isSome && e.launch.isNone then
    let s1 := (s.putTt { e with held := none }).submitLaunch n 1 (s.tideOf 12)
    if e.last == 4 then s1.setLast n 4 else s1
  else s

/-- The launch firing of an entry at T acts (R218): when the launch of its previous firing has not completed, OVR decides. -/
def State.fireLaunch (s : State) (n T start : Nat) : State :=
  let e := s.ttOf n
  match e.launch with
  | none => s.submitLaunch n 1 start
  | some k => match e.ovr with
    | 0 => s.deferFiring n T
    | 1 => s.skipFiring n
    | _ => (s.endLaunch k start).submitLaunch n 6 start

/-- TIMETABLE_LAUNCH_FIRING (R215 to R218): an entry that is due fires, opens its slot and acts, after a firing it holds that may be submitted. -/
def execTimetableLaunchFiring (n : Nat) (s : State) : Out :=
  let e := s.ttOf n
  .next (if !s.ttDue n || e.act != 0 then s
    else
      let s1 := (s.submitHeld n).openSlot e
      (s1.putTt (s1.ttOf n).fired).fireLaunch n e.nextT (s.actionTime e.known e.nextT))

end Sys2Proof.Machine
end

