-- ==== Sys2Proof/Machine/SaveArea.lean ====
section
/-! DEFINITION. The safe-point table of an image, and the save area of a warp (R64, R65, R219, R221, R239, R240, R263). -/

namespace Sys2Proof.Machine

/-! ## Safe points (R263) -/

/-- True when the words of `.qsafe` entries ascend strictly and hold only PC bits. -/
def entriesOk : List Nat → Bool
  | [] => true
  | [x] => x % 4 == 0 && x / 2 ^ 56 == 0
  | x :: y :: rest => x % 4 == 0 && x / 2 ^ 56 == 0 && decide (x < y) && entriesOk (y :: rest)

/-- The table read through a SAFEP: safe points with their live masks; empty when a rule is broken or a read faults. -/
def State.safeTable (s : State) (ctx : BitVec 3) (safep : DWord) : List (DWord × DWord) × State :=
  if safep = 0 then ([], s)
  else match s.partWords ctx safep.toNat 2 with
    | (some [c, livep], s1) =>
      if decide (2 ^ 20 < c) || livep % 8 != 0 || livep / 2 ^ 56 != 0 then ([], s1)
      else match s1.partWords ctx (safep.toNat + 16) c with
        | (none, s2) => ([], s2)
        | (some pcs, s2) =>
          if !entriesOk pcs then ([], s2)
          else match s2.partWords ctx livep c with
            | (none, s3) => ([], s3)
            | (some ms, s3) => ((pcs.zip ms).map fun p => (BitVec.ofNat 64 p.1, BitVec.ofNat 64 p.2), s3)
    | (_, s1) => ([], s1)

/-- The safe points of a warp in a table list keyed by SAFEP. -/
def Warp.safePoints (w : Warp) (tables : List (DWord × List (DWord × DWord))) : List (DWord × DWord) :=
  ((tables.find? fun t => t.1 == w.hdr.safep).map (·.2)).getD []

/-- The PC a lane shows in a save area (R65): that of the instruction that blocked it. -/
def Lane.savedPc (x : Lane) : DWord := match x.st with
  | .awaiting _ => x.bpc
  | .atBarrier _ _ _ => x.bpc
  | .sleeping _ => x.bpc
  | _ => x.pc

/-- The lanes that stand Runnable at a safe point: a switch holds them there (R219). -/
def Warp.atSafe (w : Warp) (pts : List (DWord × DWord)) : Mask :=
  maskOf fun l => (w.lane l).runnable && pts.any fun p => p.1 == (w.lane l).pc

/-- The live registers of a warp saved at a safe point, or none when it is saved whole (R219). -/
def Warp.safeLive (w : Warp) (pts : List (DWord × DWord)) : Option DWord :=
  let ls := maskLanes w.live
  let at' (l : Nat) : Option (DWord × DWord) := pts.find? fun p => p.1 == (w.lane l).savedPc
  if !w.inHandler && ls.all fun l => (at' l).isSome then
    some (ls.foldl (fun m l => m ||| ((at' l).map (·.2)).getD 0) 0)
  else none

/-! ## Writing (R64, R239) -/

/-- State code of a lane. -/
def LaneState.code : LaneState → Nat
  | .runnable => 0
  | .parked => 1
  | .awaiting _ => 2
  | .atBarrier _ _ _ => 3
  | .sleeping _ => 4
  | .exited => 5

/-- PC bits [55:2]. -/
def pcField (pc : DWord) : Nat := bitsAt pc.toNat 2 54

/-- The trap state of a save area (R239). -/
def Arch.trapBytes (a : Arch) : List Byte := match a.handler with
  | none => List.replicate 112 0
  | some h =>
    ((List.range 16).flatMap fun i => bytesLE 4 (h.words.getD i 0).toNat) ++ bytesLE 16 h.mask.toNat
      ++ bytesLE 8 (2 ^ 63 + (if h.blk.isSome then 2 ^ 62 else 0) + pcField h.pc) ++ bytesLE 8 (pcField h.epc) ++ List.replicate 16 0

/-- The registers a warp saves (R64): `safe` is the live mask of its safe point, if it stands at one. -/
def Warp.savedRegs (w : Warp) (safe : Option DWord) : List Nat :=
  (List.range 64).filter fun i => decide (i < w.hdr.regs) && (match safe with | some m => m.getLsbD i | none => true)

/-- The save area of a warp (R64). -/
def Warp.saveBytes (w : Warp) (safe : Option DWord) : List Byte :=
  let a := w.arch
  let saved := w.savedRegs safe
  let reg (i : Nat) : VReg := a.vregs.getD i (.u 0)
  let gs := saved.filter fun i => (reg i).isG
  let cs := saved.filter fun i => !(reg i).isG
  let sets := (List.range 16).filter fun j => (a.sets.getD j .empty).m != 0
  let head := (sets.foldl (fun t j => t + 2 ^ j) 0) * 2 ^ 48 + gs.length * 2 ^ 40 + cs.length * 2 ^ 32 + (if safe.isSome then 0 else 1)
  let compact (i : Nat) : List Byte := match reg i with
    | .u x => bytesLE 8 x.toNat
    | .a b st => bytesLE 4 b.toNat ++ bytesLE 4 st.toNat
    | .g _ => []
  let set (j : Nat) : List Byte :=
    let x := a.sets.getD j .empty
    bytesLE 16 x.m.toNat ++ bytesLE 16 x.w.toNat ++ bytesLE 8 ((if x.fb then 2 ^ 16 else 0) + x.d.toNat)
  let fixed := bytesLE 8 head ++ bytesLE 16 (saved.foldl (fun t i => t + (reg i).code * 4 ^ i) 0) ++ bytesLE 8 (saved.foldl (fun t i => t + 2 ^ i) 0)
    ++ (List.range 7).flatMap (fun i => bytesLE 16 (a.preds.getD i 0).toNat) ++ a.trapBytes
    ++ (List.range laneCount).flatMap (fun l =>
        let x := a.lane l
        bytesLE 8 ((if x.ym then 2 ^ 57 else 0) + x.st.code * 2 ^ 54 + pcField x.savedPc))
    ++ (List.range laneCount).flatMap (fun l => bytesLE 4 ((a.lane l).wait.toNat * 2 ^ 16 + (a.lane l).depth.toNat))
    ++ cs.flatMap compact ++ sets.flatMap set
  let pad := (512 - fixed.length % 512) % 512
  fixed ++ List.replicate pad 0 ++ gs.flatMap fun i => (List.range laneCount).flatMap fun l => bytesLE 4 ((reg i).lane l).toNat

/-! ## Reading (R65, R222, R239, R240) -/

/-- True when an area is rejected (R65, R239): `rd off n` is the number in n bytes at an offset. R64 says that lane state codes 6 and 7 are not produced; an area that
software has given one is rejected too, which is the model's choice (log 27). -/
def areaRejected (rd : Nat → Nat → Nat) (gmax : Nat) : Bool :=
  let tags := rd 8 16
  let mask := rd 0x18 8
  let ng := bitsAt (rd 0 8) 40 8
  let code (i : Nat) : Nat := bitsAt tags (2 * i) 2
  let gs := (List.range 64).filter fun i => code i == 2
  let inh := bitAt (rd 0xE0 8) 63
  decide (gmax < ng) || ((List.range 64).any fun i => code i == 3) || (gs.any fun i => !bitAt mask i) || decide (ng < gs.length)
    || ((List.range laneCount).any fun l => decide (6 ≤ bitsAt (rd (0x100 + 8 * l) 8) 54 3))
    || (!inh && (rd 0x90 80 != 0 || rd 0xE0 8 != 0 || rd 0xE8 8 != 0 || rd 0xF0 16 != 0))

/-- A lane of an area over what the core record kept of it: a blocked lane whose condition was kept waits again, one without runs. `safe` is true of a
lane that was held at a safe point. -/
def restoreLane (rd : Nat → Nat → Nat) (old : Lane) (safe : Bool) (l : Nat) : Lane :=
  let x := rd (0x100 + 8 * l) 8
  let d := rd (0x500 + 4 * l) 4
  let pc : DWord := BitVec.ofNat 64 (bitsAt x 0 54 * 4)
  let st := bitsAt x 54 3
  let wait : BitVec 16 := if safe then 0 else BitVec.ofNat 16 (d / 2 ^ 16)
  let mk (st : LaneState) (pc bpc : DWord) : Lane := ⟨pc, st, wait, BitVec.ofNat 16 d, bitAt x 57, bpc⟩
  if st = 1 then mk .parked pc pc
  else if st = 5 then mk .exited pc pc
  else if 2 ≤ st ∧ st ≤ 4 ∧ old.st.code = st then mk old.st (pc + (old.pc - old.bpc)) pc
  else mk .runnable pc pc

/-- The registers of an area: what is not saved is U with value 0. -/
def restoreRegs (rd : Nat → Nat → Nat) : List VReg :=
  let tags := rd 8 16
  let mask := rd 0x18 8
  let code (i : Nat) : Nat := bitsAt tags (2 * i) 2
  let saved := (List.range 64).filter fun i => bitAt mask i
  let cs := saved.filter fun i => code i != 2
  let gs := saved.filter fun i => code i == 2
  let nc := bitsAt (rd 0 8) 32 8
  let nsets := ((List.range 16).filter fun j => bitAt (rd 0 8) (48 + j)).length
  let gbase := (0x700 + 8 * nc + 40 * nsets + 511) / 512 * 512
  (List.range 64).map fun i =>
    if !bitAt mask i then .u 0
    else if code i = 2 then .g (lanesOf fun l => BitVec.ofNat 32 (rd (gbase + 512 * gs.idxOf i + 4 * l) 4))
    else
      let e := rd (0x700 + 8 * cs.idxOf i) 8
      if code i = 1 then .a (BitVec.ofNat 32 e) (BitVec.ofNat 32 (e / 2 ^ 32)) else .u (BitVec.ofNat 32 e)

/-- The rejoin sets of an area, as they stand there: R65 rejects no area whose sets disagree with its lanes (log 27). -/
def restoreSets (rd : Nat → Nat → Nat) : List RejoinSet :=
  let nc := bitsAt (rd 0 8) 32 8
  let present := (List.range 16).filter fun j => bitAt (rd 0 8) (48 + j)
  (List.range 16).map fun j =>
    if present.contains j then
      let o := 0x700 + 8 * nc + 40 * present.idxOf j
      let f := rd (o + 32) 8
      ⟨BitVec.ofNat 128 (rd o 16), BitVec.ofNat 128 (rd (o + 16) 16), bitAt f 16, BitVec.ofNat 16 f⟩
    else .empty

/-- The handler state of an area (R239, R240): a blocked handler split waits on the condition the core record kept. -/
def restoreHandler (rd : Nat → Nat → Nat) (old : Option Handler) : Option Handler :=
  let x := rd 0xE0 8
  if bitAt x 63 then
    some ⟨BitVec.ofNat 128 (rd 0xD0 16), BitVec.ofNat 64 (bitsAt x 0 54 * 4), BitVec.ofNat 64 (bitsAt (rd 0xE8 8) 0 54 * 4),
      (List.range 16).map (fun i => BitVec.ofNat 32 (rd (0x90 + 4 * i) 4)), if bitAt x 62 then old.bind (·.blk) else none⟩
  else none

/-- A warp rebuilt from its save area and what the core record kept (R65, R222): every `ctime` is 0 again (R220). In the kept warp, `acted` names the
lanes that were held at safe points. -/
def Warp.restore (rd : Nat → Nat → Nat) (w : Warp) : Warp :=
  { w with
    arch := {
      lanes := lanesOf fun l => restoreLane rd (w.lane l) (w.acted.getLsbD l) l
      vregs := restoreRegs rd
      preds := (List.range 7).map fun i => BitVec.ofNat 128 (rd (0x20 + 16 * i) 16)
      sets := restoreSets rd
      handler := restoreHandler rd w.arch.handler
      bad := w.arch.bad &&& BitVec.ofNat 64 (rd 0x18 8) }
    ctime := ctimeZero
    snaps := []
    fetched := []
    reads := []
    acted := 0
    ymNew := 0 }

end Sys2Proof.Machine
end

