-- ==== Sys2Proof/Machine/Switch.lean ====
section
/-! DEFINITION. Contexts and gang switching: firings, stopping, saving, restoring, activation and teardown (R164, R209, R213, R214, R217 to R222, R239,
R240, R253). -/

namespace Sys2Proof.Machine

/-! ## Beginning a switch (R217 to R219) -/

/-- Apply `f` to the switch in progress. -/
def State.mapSwitch (s : State) (f : Switch → Switch) : State := { s with ctl := { s.ctl with switch := s.ctl.switch.map f } }

/-- The warps of a context that have not exited. -/
def State.ctxWarps (s : State) (ctx : Nat) : List Warp :=
  s.warps.filter fun w => w.uid != 0 && w.ctx.toNat == ctx && (!w.hasExited || w.inHandler)

/-- The safe-point tables of the images a context runs, read when a switch begins (R263). -/
def State.readTables (s : State) (ctx : Nat) : List (DWord × List (DWord × DWord)) × State :=
  (((s.ctxWarps ctx).map fun w => w.hdr.safep).eraseDups).foldl (fun (t : List (DWord × List (DWord × DWord)) × State) p =>
    let r := t.2.safeTable (BitVec.ofNat 3 ctx) p
    (t.1 ++ [(p, r.1)], r.2)) ([], s)

/-- A gang switch or stop begins (R217, R219): both contexts are SWITCHING, and the outgoing one's tables are read. -/
def State.beginSwitch (s : State) (leaving entering : Option Nat) (n start : Nat) : State :=
  let t := match leaving with | some c => s.readTables c | none => ([], s)
  let s1 := [leaving, entering].foldl (fun (s : State) c => match c with | some c => s.setCtx c .switching | none => s) t.2
  { s1 with
    ctl := { s1.ctl with
      switch := some ⟨if leaving.isSome then .stopping else .restoring, leaving, entering, some n, start, (s.ttOf n).slot.toNat, false, [], t.1⟩ } }

/-- The running context's slot has not ended (R218). -/
def State.slotBusy (s : State) : Bool := s.running.isSome && decide (s.tideOf 12 < s.ctl.slotEnd)

/-- A gang-switch or stop firing at T acts (R215, R217): a gang switch opens the slot of the context it finds or leaves running. -/
def State.actSwitch (s : State) (n T start : Nat) : State :=
  let e := s.ttOf n
  let c := e.cx
  let st := (s.ctxOf c).state
  let slot (s : State) : State := { s with ctl := { s.ctl with slotEnd := T + e.slot.toNat } }
  if e.act == 2 then
    if s.running == some c then (s.beginSwitch (some c) none n start).setLast n 1
    else s.setLast n (if st == .ready then 2 else 3)
  else if s.running == some c then (slot s).setLast n 2
  else if st != .ready then s.setLast n 3
  else (slot (s.beginSwitch s.running (some c) n start)).setLast n 1

/-- A gang-switch or stop firing is judged at its action time, or now when that has passed (R216, R218). -/
def State.judgeSwitch (s : State) (n T start : Nat) : State :=
  if s.running.isSome && decide (max start (s.tideOf 12) < s.ctl.slotEnd) then match (s.ttOf n).ovr with
    | 0 => s.deferFiring n T
    | 1 => s.skipFiring n
    | _ => s.actSwitch n T start
  else s.actSwitch n T start

/-- A gang-switch or stop entry that is due fires (R215 to R218): while a switch is in progress its firing waits. -/
def State.fireSwitch (s : State) (n : Nat) : State :=
  let e := s.ttOf n
  let s1 := s.putTt e.fired
  if s.ctl.switch.isSome then { s1 with ctl := { s1.ctl with waiting := s1.ctl.waiting ++ [(n, e.nextT)] } }
  else s1.judgeSwitch n e.nextT (s.actionTime e.known e.nextT)

/-- TIMETABLE_GANG_SWITCH_FIRING (R217, R218). -/
def execTimetableGangSwitchFiring (n : Nat) (s : State) : Out := .next (if s.ttDue n && (s.ttOf n).act == 1 then s.fireSwitch n else s)
/-- TIMETABLE_STOP_FIRING (R217, R218). -/
def execTimetableStopFiring (n : Nat) (s : State) : Out := .next (if s.ttDue n && (s.ttOf n).act == 2 then s.fireSwitch n else s)

/-- A held gang-switch or stop firing acts; a LAST of SKIPPED, which a later firing left, stays (R215). -/
def State.actHeld (s : State) (n T : Nat) : State :=
  let e := s.ttOf n
  let s1 := (s.putTt { e with held := none }).actSwitch n T (s.tideOf 12)
  if e.last == 4 then s1.setLast n 4 else s1

/-- DEFERRED_FIRING_ACT (R217, R218): the first firing that waited for a switch is judged once it has ended; a held launch firing is submitted once the
previous launch has completed, a held gang-switch or stop firing acts once the slot has ended. -/
def execDeferredFiringAct (n : Nat) (s : State) : Out :=
  let e := s.ttOf n
  let waits := match s.ctl.waiting with | x :: _ => x.1 == n && s.ctl.switch.isNone | [] => false
  .next (if waits then
      State.judgeSwitch { s with ctl := { s.ctl with waiting := s.ctl.waiting.tail } } n ((s.ctl.waiting.headD (0, 0)).2) (s.tideOf 12)
    else match e.held with
      | none => s
      | some T =>
        if e.act == 0 then s.submitHeld n
        else if s.ctl.switch.isSome || s.slotBusy then s
        else s.actHeld n T)

/-! ## Stopping (R219, R220) -/

/-- A gang switch stops the warps of a context. -/
def State.stoppingCtx (s : State) : Option Nat := match s.ctl.switch with
  | some x => if x.phase == .stopping && !x.teardown then x.leaving else none
  | none => none

/-- The tables of the switch in progress. -/
def State.switchTables (s : State) : List (DWord × List (DWord × DWord)) := match s.ctl.switch with | some x => x.tables | none => []

/-- A warp stops (R219, R321): in its handler or at a `FENCE` at once, else when no lane is Runnable and unheld. -/
def State.stops (s : State) (w : Warp) : Bool :=
  let held := w.holds.foldl (fun m h => m ||| h.mask) (w.atSafe (w.safePoints s.switchTables))
  w.inHandler || (w.fences.any fun f => f.acq && f.rel) || maskOf (fun l => (w.lane l).runnable) &&& ~~~ held == 0

/-- Stop the warps with these names. -/
def State.stopWarps (s : State) (uids : List Nat) : State := s.mapSwitch fun x => { x with stopped := x.stopped ++ uids }

/-- A compute die has begun the switch in progress (R216). -/
def State.stoppingOn (s : State) (die : Nat) : Bool := s.stoppingCtx.isSome && s.switchOn die

/-- WARP_STOP (R219, R239). -/
def execWarpStop (core pos : Nat) (s : State) : Out :=
  .next (match s.stoppingCtx, s.warpAt core pos with
    | some c, some w => if w.ctx.toNat == c && !s.frozen w.uid && (!w.hasExited || w.inHandler) && s.stoppingOn (dieOfCore core) && s.stops w then
      s.stopWarps [w.uid] else s
    | _, _ => s)

/-- SWITCH_STOP_DEADLINE (R219): 20 µs after T every warp not yet stopped stops where it stands. -/
def execSwitchStopDeadline (s : State) : Out :=
  .next (match s.stoppingCtx, s.ctl.switch with
    | some c, some x =>
      s.stopWarps (((s.ctxWarps c).filter fun w => decide (x.start + 16000 ≤ s.tideOf (dieOfCore w.core)) && !s.frozen w.uid).map (·.uid))
    | _, _ => s)

/-- QUEUE_PAUSE (R164, R213, R220): a queue of the outgoing context pauses once the entry under way stands at a message boundary; what is left of it, its unsent and
unacknowledged messages among it, is its continuation. -/
def execQueuePause (q : Nat) (s : State) : Out :=
  .next (match s.ctl.switch with
    | some x => match x.leaving with
      | some c =>
        let r := s.queueRec q
        if s.leavingQueue q && r.ctx.toNat == c && !r.paused && (s.queued q).all s.atBoundary then
          let s1 := s.putQueueRec { r with paused := true }
          { s1 with copy := { s1.copy with
            msgs := updWhere (fun m => m.q == q && !m.acked) (fun m => { m with sent := false, flying := false, ack := false }) s1.copy.msgs } }
        else s
      | none => s
    | none => s)

/-! ## Saving (R64, R91, R220, R221) -/

/-- The arrays of a context. -/
def State.ctxArrays (s : State) (ctx : Nat) : List ArrayRec :=
  s.arrays.filter fun a => s.wgs.any fun g => g.ctx.toNat == ctx && g.core == a.core && g.arrays.contains a.phys

/-- The queues bound to a context. -/
def State.ctxQueues (s : State) (ctx : Nat) : List Nat := (s.copy.queues.filter fun r => r.bound && r.ctx.toNat == ctx).map (·.q)

/-- Every die has begun the switch in progress (R216). -/
def State.allBegun (s : State) : Bool := match s.ctl.switch with
  | some x => s.tide.all fun t => decide (x.start ≤ t)
  | none => true

/-- The outgoing context is ready to be saved: every warp has stopped, every queue has paused with no floor notice and no message on its way, every card in RUN has written its
token, and every access has performed at `.dev` (R164, R209, R220). -/
def State.drained (s : State) (ctx : Nat) : Bool :=
  (s.ctxWarps ctx).all (fun w => s.frozen w.uid)
    && (s.ctxQueues ctx).all (fun q => (s.queueRec q).paused && !(s.copy.floors.any fun f => f.q == q && f.flying) && !(s.copy.msgs.any fun m => m.q == q && m.flying))
    && s.cards.all (fun k => k.ctx.toNat != ctx || k.acc == 0 || (k.phase != .run && k.phase != .done))
    && s.reqs.all (fun r => r.ctx.toNat != ctx || (r.checked && r.fault.isNone && (match r.kind with | .await _ _ _ _ => true | _ => false)))
    && (s.ctxArrays ctx).all (fun a => a.axms.isEmpty && a.queue.isEmpty && a.mode != 3)
    && s.warps.all fun w => w.uid == 0 || w.ctx.toNat != ctx || decide (latestUpTo w.ctime 4 ≤ s.tideOf (dieOfCore w.core))

/-- The save area of a warp position (R221). -/
def warpArea (base core pos : Nat) : Nat := base + core * 0x400000 + 0x80000 + 0x9000 * pos
/-- The image of a physical array (R221). -/
def arrayImage (base core phys : Nat) : Nat := base + core * 0x400000 + 0x1000 + 0x3800 * phys

/-- Save one array: its body, then its sidecar. -/
def State.saveArray (s : State) (base : Nat) (a : ArrayRec) : State :=
  s.homeWrite (arrayImage base a.core a.phys) (readBytes s.mem.spad (spadCell a.core a.phys 0) 0x3800)

/-- Save one warp (R64): at a safe point its live registers, otherwise whole. -/
def State.saveWarp (s : State) (base : Nat) (w : Warp) : State :=
  s.homeWrite (warpArea base w.core w.pos) (w.saveBytes (w.safeLive (w.safePoints s.switchTables)))

/-- The places of a list of arrays. -/
def inArrays (as : List ArrayRec) (cell : Nat) : Bool := as.any fun a => cellArray cell == (a.core, a.phys)

/-- Remove what a context holds on the cores: its warps, workgroups, arrays and scratchpad. -/
def State.clearCtx (s : State) (ctx : Nat) : State :=
  let as := s.ctxArrays ctx
  let keep := s.warps.filter fun w => w.uid != 0 && w.ctx.toNat != ctx
  { s with
    cur := keep.headD .vacant
    others := keep.tail
    wgs := s.wgs.filter fun g => g.ctx.toNat != ctx
    arrays := s.arrays.filter fun a => !as.contains a
    mem := { s.mem with
      spad := s.mem.spad.filter fun c => !inArrays as c.1
      spadPoison := s.mem.spadPoison.filter fun w => !inArrays as (8 * w) } }

/-- The core records of the cores that hold something of a context, and its context record, whose layout is not architected (R221, log 27): bytes of no stated value. -/
def State.saveRecords (s : State) (base ctx : Nat) : State :=
  let cores := (((s.wgs.filter fun g => g.ctx.toNat == ctx).map (·.core)).eraseDups)
  let s1 := cores.foldl (fun (s : State) c => s.homeWrite (base + c * 0x400000) ((List.range 4096).map (Config.recordByte (s.fresh + c)))) s
  State.homeWrite { s1 with fresh := s1.fresh + 193 } (base + 0x30000000) ((List.range (min (Config.recordLength s.fresh) 0x800000)).map (Config.recordByte (s.fresh + 192)))

/-- The workgroup with the position that names it in records of a gang switch: the lowest among its warps (R92). -/
def State.lowestPos (s : State) (g : Workgroup) : Workgroup :=
  match (s.warps.filter fun w => w.uid != 0 && w.wg == g.key).map (·.pos) with
  | [] => g
  | p :: ps => { g with lastPos := ps.foldl min p }

/-- Save a context (R91, R92, R209, R221): statistics are added, areas, images and records are written; what the records hold is kept. Its cards in CLEAN are held to
restart. -/
def State.saveCtx (s : State) (ctx : Nat) : State :=
  let base := s.descOf ctx 5
  let s1 := (s.wgs.filter fun g => g.ctx.toNat == ctx).foldl (fun (s : State) g =>
    let r := s.addStats (s.lowestPos g) (s.wgTask g.key)
    let s1 := r.1.mapWg g.key fun x => { x with stats := [] }
    match g.launch with
    | some k => s1.mapLaunch k fun l => { l with statTime := max l.statTime r.2 }
    | none => s1) s
  let ws := s1.warps.filter fun w => w.uid != 0 && w.ctx.toNat == ctx
  let s2 := (s1.ctxWarps ctx).foldl (fun (s : State) w => s.saveWarp base w) s1
  let as := s2.ctxArrays ctx
  let s3 := as.foldl (fun (s : State) a => s.saveArray base a) s2
  let kept : SavedCtx := { ctx := ctx
                           warps := ws.map fun w => { w with acted := w.atSafe (w.safePoints s.switchTables) }
                           wgs := s3.wgs.filter fun g => g.ctx.toNat == ctx
                           arrays := as
                           spadPoison := s3.mem.spadPoison.filter fun w => inArrays as (8 * w)
                           windows := s3.copy.windows.filter fun w => (s.ctxQueues ctx).contains w.q }
  let s4 := (s3.saveRecords base ctx).clearCtx ctx
  { s4 with
    cards := updWhere (fun k => k.ctx.toNat == ctx && k.phase == .clean) (fun k => { k with phase := .queued }) s4.cards
    copy := { s4.copy with windows := s4.copy.windows.filter fun w => !(s.ctxQueues ctx).contains w.q }
    ctl := { s4.ctl with saved := s4.ctl.saved ++ [kept] } }

/-- The status of the firing that began the switch: its entry's LAST, while it still shows RUNNING. -/
def State.switchLast (s : State) (entry : Option Nat) (last : Nat) : State := match entry with
  | some n => if (s.ttOf n).last == 1 then s.setLast n last else s
  | none => s

/-- SWITCH_SAVE_COMPLETE (R216, R220, R221): the outgoing context is READY; a stop ends here, a gang switch goes on to restore. -/
def execSwitchSaveComplete (s : State) : Out :=
  .next (match s.stoppingCtx, s.ctl.switch with
    | some c, some x =>
      if !s.drained c || !s.allBegun then s
      else
        let s1 := (s.saveCtx c).setCtx c .ready
        if x.entering.isSome then s1.mapSwitch fun x => { x with phase := .restoring, leaving := none, stopped := [], tables := [] }
        else ({ s1 with ctl := { s1.ctl with switch := none } } : State).switchLast x.entry 2
    | _, _ => s)

/-! ## Descriptors (R213, R214) -/

/-- The six words of a descriptor in 128 bytes, or none for an invalid one (R214). -/
def descriptorOf (bs : List Byte) : Option (List DWord) :=
  let f (i : Nat) : Nat := numLE ((bs.drop (8 * i)).take 8)
  let ok (i a : Nat) : Bool := f i % a == 0
  if ok 0 0x10000 && ok 1 128 && ok 2 0x200000 && ok 3 0x200000 && ok 4 0x40000 && ok 5 0x400000 && (bs.drop 48).all (· == 0) then
    some ((List.range 6).map fun i => BitVec.ofNat 64 (f i))
  else none

/-- Read the descriptor of a context at its CTXDn.ADDR. -/
def State.readDescriptor (s : State) (n : Nat) : Option (List DWord) × State :=
  let r := s.homeRead (bitsAt (s.ctxOf n).ctxd.toNat 7 45 * 128) 128
  (descriptorOf r.1, r.2)

/-! ## Restoring (R65, R222, R239, R240) -/

/-- A switch-in fails (R222): the context is FAILED and the part idles; the firing's LAST is FAILED and Estuary is notified. -/
def State.failSwitchIn (s : State) (c err : Nat) (entry : Option Nat) : State :=
  let s1 := s.mapCtx c fun x => { x with state := .failed, err := err }
  ({ s1 with notices := s1.notices + 1, ctl := { s1.ctl with switch := none } } : State).switchLast entry 7

/-- Reads in the save area of a warp. -/
def State.areaReader (s : State) (base : Nat) (w : Warp) (off n : Nat) : Nat := readNum s.mem.home (warpArea base w.core w.pos + off) n

/-- The token of an instruction of a restored warp is pending while an entry or card of it is left. -/
def State.settlePend (s : State) (uid ins : Nat) : State :=
  if (s.copy.entries.any fun e => e.ins == ins) || s.cards.any fun k => k.ins == ins then s
  else s.mapWarp uid fun w => { w with pends := w.pends.filter fun p => p.id != ins }

/-- Put back what a saved context held (R222): warps, workgroups and arrays at their own cores and positions; an array saved in compute mode enters it
again. -/
def State.restoreCtx (s : State) (base : Nat) (k : SavedCtx) : State :=
  let ws := k.warps.map fun w => if w.hasExited && !w.inHandler then w else w.restore (s.areaReader base w)
  let all := ws ++ s.warps.filter fun w => w.uid != 0
  let spad := k.arrays.foldl (fun m a => writeBytes m (spadCell a.core a.phys 0) (readBytes s.mem.home (arrayImage base a.core a.phys) 0x3800)) s.mem.spad
  { s with
    cur := all.headD .vacant
    others := all.tail
    wgs := s.wgs ++ k.wgs
    arrays := s.arrays ++ k.arrays.map fun a => { a with mode := if a.mode == 1 then 2 else a.mode, flips := [] }
    mem := { s.mem with spad := spad, spadPoison := s.mem.spadPoison ++ k.spadPoison }
    copy := { s.copy with windows := s.copy.windows ++ k.windows }
    ctl := { s.ctl with saved := s.ctl.saved.filter fun x => x.ctx != k.ctx } }

/-- Held writes apply in order, tokens that nothing is left to write end, and `AWAIT`s whose handles became final are answered (R220, R222, R240). -/
def State.applyHeld (s : State) (uids : List Nat) : State :=
  let due := s.ctl.heldWrites.filter fun h => uids.contains h.uid
  let s1 : State := { s with ctl := { s.ctl with heldWrites := s.ctl.heldWrites.filter fun h => !uids.contains h.uid } }
  let s2 := due.foldl (fun (s : State) h => s.writeToken h.uid h.ins h.hdl h.tok h.mask h.word) s1
  let s3 := uids.foldl (fun (s : State) u => match s.warpOf u with
    | some w => (w.pends.filter fun p => p.async && p.preds.isEmpty).foldl (fun (s : State) p => s.settlePend u p.id) s
    | none => s) s2
  s3.reqs.foldl (fun (s : State) r => match r.kind with
    | .await hs d p t => if r.checked && uids.contains r.uid then s.awaitAnswer r hs d p t else s
    | _ => s) s3

/-- SWITCH_IN (R214, R216, R222, R253): once every die has begun the switch, the descriptor is read again, every area is checked, the context is restored, held writes apply, queues resume, and the
instruction caches drop the context. -/
def execSwitchIn (s : State) : Out :=
  .next (match s.ctl.switch with
    | some x => match x.phase, x.entering with
      | .restoring, some c =>
        if !s.allBegun then s
        else (match s.readDescriptor c with
        | (none, s1) => s1.failSwitchIn c 1 x.entry
        | (some d, s1) =>
          let s2 := s1.mapCtx c fun y => { y with desc := d }
          let base := s2.descOf c 5
          let kept := (s2.ctl.saved.find? fun k => k.ctx == c).getD ⟨c, [], [], [], [], []⟩
          let bad (w : Warp) : Bool := !(w.hasExited && !w.inHandler) && areaRejected (s2.areaReader base w) w.hdr.gmax
          if kept.warps.any bad then s2.failSwitchIn c 2 x.entry
          else
            let s3 := s2.restoreCtx base kept
            let s4 : State := { s3 with
              mem := { s3.mem with icache := s3.mem.icache.filter fun y => y.ctx.toNat != c }
              ctl := { s3.ctl with switch := none } }
            let s5 := (s4.setCtx c .running).applyHeld (kept.warps.map (·.uid))
            let s6 := (s5.ctxQueues c).foldl (fun (s : State) q => (s.putQueueRec { s.queueRec q with paused := false }).sendMessages q) s5
            s6.switchLast x.entry 2)
      | _, _ => s
    | none => s)

/-! ## Activation and teardown (R213) -/

/-- VALID = 1 written to an EMPTY context reads its descriptor (R213, R214); the queues of a READY context are paused. -/
def State.activate (s : State) (n : Nat) (v : DWord) : State :=
  if (s.ctxOf n).state != .empty || !v.getLsbD 63 then s
    else
      let r := (s.mapCtx n fun c => { c with ctxd := v &&& 0x800FFFFFFFFFFF80 }).readDescriptor n
      match r.1 with
      | none => r.2.mapCtx n fun c => { c with err := 1, ctxd := c.ctxd &&& 0x000FFFFFFFFFFF80 }
      | some d =>
        (s.ctxQueues n).foldl (fun (s : State) q => s.putQueueRec { s.queueRec q with paused := true })
          (r.2.mapCtx n fun c => { c with state := .ready, err := 0, desc := d })

/-- CTXD_ACTIVATE (R213): Estuary writes CTXDn with VALID = 1. -/
def execCtxdActivate (n : Nat) (v : DWord) (s : State) : Out := .next (if n < 8 then s.estuary (0x41100 + 8 * n) 8 fun s => s.activate n v else s)

/-- Work of a context that no unit has accepted is dropped, and so are loads. -/
def State.dropUnaccepted (s : State) (ctx : Nat) : State :=
  { s with
    reqs := s.reqs.filter fun r => r.ctx.toNat != ctx || r.survives
    copy := { s.copy with entries := s.copy.entries.filter fun e => !(e.ctx.toNat == ctx && e.acc == 0) }
    cards := s.cards.filter fun k => !(k.ctx.toNat == ctx && k.acc == 0) }

/-- The unfinished handles of a context break with a cause (R189, R190, R213): no decrement is made, and what is chained to them breaks with them. -/
def State.breakHandles (s : State) (hit : Slot → Bool) (cause detail : Nat) : State :=
  let due := s.tasks.slots.filter fun x => x.home && hit x && x.state != .free && !x.state.final
  let handle (x : Slot) : DWord := mkHandle x.core x.idx x.ctx x.gen
  due.foldl (fun (s : State) x =>
    let h := handle x
    (s.mapSlot h fun y => { y with state := .broken, brk := some (y.brk.getD (breakWord cause detail h)), decs := [] }).tryFree h) s

/-- The state of a context whose teardown is complete (R188, R213): every slot of it is released. -/
def State.tearDown (s : State) (n : Nat) : State :=
  let ctx : BitVec 3 := BitVec.ofNat 3 n
  let dead := (s.launches.filter fun l => l.ctx == ctx).map (·.key)
  let ended (e : TtEntry) : Bool := match e.launch with | some k => dead.contains k | none => false
  let qs := s.ctxQueues n
  let s1 : State := { s with
    launches := s.launches.filter fun l => l.ctx != ctx
    ctl := { s.ctl with tt := updWhere ended (fun e => { e with last := 6, launch := none }) s.ctl.tt } }
  let s2 := qs.foldl (fun (s : State) q =>
    let s1 := s.abortQueue q true fun _ => true
    s1.putQueueRec { s1.queueRec q with paused := false }) (s1.dropUnaccepted n)
  let s3 := s2.breakHandles (fun x => x.ctx == ctx) 8 0
  let uids := ((s3.warps ++ s3.ctl.saved.flatMap (·.warps)).filter fun w => w.ctx == ctx).map (·.uid)
  let s4 := s3.clearCtx n
  { s4 with
    reqs := s4.reqs.filter fun r => r.ctx != ctx
    cards := s4.cards.filter fun k => k.ctx != ctx
    tasks := { s4.tasks with
      slots := s4.tasks.slots.map fun x => if x.ctx == ctx && x.state != .free then x.cleared else x
      late := s4.tasks.late.filter fun d => handleCtx d.handle != ctx
      ready := s4.tasks.ready.filter fun t => t.ctx != ctx
      parked := s4.tasks.parked.filter fun p => handleCtx p.handle != ctx }
    mem := { s4.mem with tlb := s4.mem.tlb.filter fun t => t.ctx != ctx, icache := s4.mem.icache.filter fun x => x.ctx != ctx }
    ctl := { s4.ctl with
      saved := s4.ctl.saved.filter fun k => k.ctx != n
      heldWrites := s4.ctl.heldWrites.filter fun h => !uids.contains h.uid
      ctxs := updWhere (fun c => c.n == n) (fun c => { c with state := .empty, ctxd := c.ctxd &&& 0x7FFFFFFFFFFFFFFF }) s4.ctl.ctxs } }

/-- VALID = 0 written to a READY or FAILED context tears it down; a RUNNING one is first stopped (R213). -/
def State.teardown (s : State) (n : Nat) : State :=
  match (s.ctxOf n).state with
    | .ready => s.tearDown n
    | .failed => s.tearDown n
    | .running =>
      let uids := ((s.warps.filter fun w => w.uid != 0 && w.ctx.toNat == n)).map (·.uid)
      let s1 := (s.setCtx n .switching).dropUnaccepted n
      { s1 with ctl := { s1.ctl with switch := some ⟨.stopping, some n, none, none, s.tideOf 12, 0, true, uids, []⟩ } }
    | _ => s

/-- CTXD_TEARDOWN (R213): Estuary writes CTXDn with VALID = 0, in the half that holds it. -/
def execCtxdTeardown (n : Nat) (s : State) : Out := .next (if n < 8 then s.estuary (0x41104 + 8 * n) 4 fun s => s.teardown n else s)

/-- CONTEXT_STOP_DONE (R213): every accepted `AXM`, store, atomic and reduction, and every card in RUN, has completed, and every queue has stopped at a message
boundary. -/
def execContextStopDone (n : Nat) (s : State) : Out :=
  let busy := (s.reqs.any fun r => r.ctx.toNat == n && r.survives && r.open)
    || (s.ctxArrays n).any (fun a => !a.axms.isEmpty)
    || (s.cards.any fun k => k.ctx.toNat == n && (k.phase == .run || k.phase == .done))
    || (s.ctxQueues n).any fun q => !(s.queueRec q).paused
  .next (match s.ctl.switch with
    | some x => if x.teardown && x.leaving == some n && !busy then State.tearDown { s with ctl := { s.ctl with switch := none } } n else s
    | none => s)

end Sys2Proof.Machine
end

