-- ==== Sys2Proof/Machine/Host.lean ====
section
/-! DEFINITION. The host, the registers it sees, start-up, resets, power, attestation and soft errors (R17, R18, R127, R148, R151, R178, R190, R211 to R215,
R224, R238, R266 to R274). -/

namespace Sys2Proof.Machine

/-! ## Switch bounds (R224) -/

/-- The quotient rounded up. -/
def ceilDiv (x y : Nat) : Nat := (x + y - 1) / y

/-- DCAP_GSW of a configuration (R224): the enabled cores, the most on one die, the enabled stacks and memory dies. -/
def gswWord (nc cmax ns nm : Nat) : Word :=
  let I := 2723840 * nc + 8388608
  let H := 3000000 * ns
  let staged := if decide (I ≤ 134217728 * nm) && decide (2 * I ≤ 50 * H) then
      max 60 (ceilDiv (22 * 4 * H + 4 * I + 2723840 * cmax * ns) (4 * H))
    else 0
  BitVec.ofNat 32 (staged * 2 ^ 16 + ceilDiv (22 * H + 2 * I) H)

/-! ## Registers (R18, R127, R151, R178, R211 to R215, R268, R272, R273) -/

/-- The enabled stacks, counted upward. -/
def State.stacks (s : State) : List Nat := (List.range 8).filter fun i => s.boot.stken.getLsbD i

/-- The number of clear bits of the low n bits. -/
def bitCount (n x : Nat) : Nat := ((List.range n).filter fun i => x.testBit i).length

/-- State code of a context (R213). -/
def CtxState.code : CtxState → Nat
  | .empty => 0
  | .ready => 1
  | .running => 2
  | .switching => 3
  | .failed => 4

/-- QCTLn as it reads (R151). -/
def State.qctl (s : State) (q : Nat) : Nat :=
  let r := s.queueRec q
  (if r.flt then 2 ^ 29 else 0) + (if r.paused then 2 ^ 28 else 0) + (if r.bound then 2 ^ 27 else 0) + r.ctx.toNat * 2 ^ 24 + s.depth q

/-- A word of a timetable entry as it reads (R215). -/
def TtEntry.word (e : TtEntry) (i : Nat) : Nat := match i with
  | 0 => (loWord e.start).toNat
  | 1 => (hiWord e.start).toNat
  | 2 => e.period.toNat
  | 3 => e.slot.toNat
  | 4 => (loWord e.lh).toNat
  | 5 => (hiWord e.lh).toNat
  | 6 => e.ctl.toNat
  | _ => e.last * 2 ^ 28 + e.nskip * 2 ^ 16 + e.nfire

/-- TMSTAT (R211). -/
def TimeCtl.stat (t : TimeCtl) : Nat := (if t.lock then 2 ^ 31 else 0) + (if t.hold then 2 ^ 30 else 0) + wrapInt 24 t.offs

/-- BOOTSTAT (R272). -/
def BootSys.stat (b : BootSys) : Nat :=
  b.phase.toNat * 2 ^ 28 + (if b.slot then 2 ^ 27 else 0) + (if b.cden != 0xFF || b.memen != 0xF then 2 ^ 26 else 0)

/-- One half of a 64-bit register. -/
def halfOf (x : DWord) (off : Nat) : Nat := if off % 8 = 0 then (loWord x).toNat else (hiWord x).toNat

/-- The 32-bit word at an aligned offset of the host-visible register space (R268); an unlisted offset reads zero. -/
def State.readReg (s : State) (off : Nat) : Word :=
  let b := s.boot
  BitVec.ofNat 32 (
    if off = 0 then 0x5604 * 2 ^ 16 + b.rev.toNat * 2 ^ 8
    else if off = 4 then b.memen.toNat * 2 ^ 8 + b.cden.toNat
    else if 0x10 ≤ off ∧ off < 0x30 then (b.coreen.getD ((off - 0x10) / 4) 0).toNat
    else if off = 0x40 then 800 * 2 ^ 16 + 800
    else if off = 0x44 then 64 * 2 ^ 16 + b.stken.toNat
    else if off = 0x48 then b.gsw.toNat
    else if 0x10000 ≤ off ∧ off < 0x10008 then halfOf s.mem.tlbia off
    else if off = 0x10008 then s.mem.tlbic.toNat
    else if 0x20000 ≤ off ∧ off < 0x22000 then
      let q := (off - 0x20000) / 16
      if off % 16 = 0 then s.qctl q else if 8 ≤ off % 16 then halfOf (s.queueRec q).qflt off else 0
    else if 0x30000 ≤ off ∧ off < 0x30800 then s.chaff ((off - 0x30000) / 4)
    else if 0x40000 ≤ off ∧ off < 0x41000 then (s.ttOf ((off - 0x40000) / 32)).word (off % 32 / 4)
    else if off = 0x41000 then s.ctl.tm.tmctl.toNat
    else if off = 0x41004 then s.ctl.tm.stat
    else if 0x41100 ≤ off ∧ off < 0x41140 then halfOf (s.ctxOf ((off - 0x41100) / 8)).ctxd off
    else if 0x41140 ≤ off ∧ off < 0x41160 then
      let c := s.ctxOf ((off - 0x41140) / 4)
      c.state.code * 2 ^ 28 + c.err * 2 ^ 24
    else if off = 0x50004 then b.stat
    else if 0x50100 ≤ off ∧ off < 0x50140 then numLE ((b.nonce.drop (off - 0x50100)).take 4)
    else if off = 0x50140 then b.atctl.toNat
    else if 0x50148 ≤ off ∧ off < 0x50150 then halfOf b.ataddr off
    else 0)

/-! ## Access tables (R270) -/

/-- The targets that hold an access table, as R237 codes them: the LLC slices and the MMIO of each memory die, the CXL port, the Shoreline ports, management. -/
def tableTargets : List Nat := [0, 1, 2, 3, 16, 17, 18, 19, 32, 48, 49, 50, 51, 52, 53, 54, 55, 64]

/-- At most 64 ranges of a table are a master's (R270). -/
def rangesFit (gs : List Grant) : Bool :=
  tableTargets.all fun t => (List.range 8).all fun c => (List.range 5).all fun k =>
    decide ((gs.filter fun g => (g.target.all (· == t)) && (g.ctx.all (·.toNat == c)) && g.cls.all (· == k)).length ≤ 64)

/-- Estuary writes the tables (R270), whose layout is not architected, in one move: the rows of every class but its own, which stay as Headland locked them; what would give
a master more than 64 ranges of a target takes no effect (log 69). -/
def State.writeTables (s : State) (gs : List Grant) : State :=
  let own := s.grants.filterMap fun g => match g.cls with
    | none => some { g with cls := some 3 }
    | some k => if k = 3 then some g else none
  if gs.all (fun g => g.cls.any fun k => decide (k < 5) && k != 3) && rangesFit (own ++ gs) then { s with grants := own ++ gs } else s

/-- A reply to the host. -/
def State.reply (s : State) (r : HostReply) : State := { s with hostOut := s.hostOut ++ [r] }

/-! ## Host memory accesses (R148, R238, R266, R271) -/

/-- The physical address of a host offset (R266). -/
def State.hostPa (s : State) (H : Nat) : Nat :=
  let L := H / 256
  let ss := s.stacks
  L / ss.length * 2 ^ 11 + ss.getD (L % ss.length) 0 * 2 ^ 8 + H % 256

/-- True of a range inside the host-managed device memory (R266). -/
def State.inHostRange (s : State) (off n : Nat) : Bool := decide (off + n ≤ s.stacks.length * (htop / 8)) && n != 0

/-- HOST_MEM_READ (R148, R203, R238, R271): the bytes at the home, without recall, with the poison indication; a refused read is all-ones with poison. -/
def execHostMemRead (off n : Nat) (s : State) : Out :=
  let pas := (List.range n).map fun i => s.hostPa (off + i)
  .next (if !s.inHostRange off n then s
    else match pas.find? fun p => !s.granted 0 4 p false with
      | some p => (s.logHost 4 (homeDie p) p (targetOf p)).reply (.data (List.replicate n 0xFF) true)
      | none =>
        if pas.any s.pchBusy then s else s.reply (.data (pas.map (readByte s.mem.home)) (pas.any fun p => s.mem.homePoisoned p 1)))

/-- The completions of host writes whose time has passed return (R148). -/
def State.returnDue (s : State) : State :=
  { s with
    hostOut := s.hostOut ++ (s.hostDue.filter fun t => decide (t ≤ s.tideOf 12)).map .written
    hostDue := s.hostDue.filter fun t => !decide (t ≤ s.tideOf 12) }

/-- HOST_MEM_WRITE (R135, R148, R203, R238, R271): a store at `.sys`, whose completion returns when its `.dev` completion time has passed and the I/O die has heard of it; a write of a whole sector ends
its poison; a refused write is dropped. -/
def execHostMemWrite (off : Nat) (data : List Byte) (s : State) : Out :=
  let pas := (List.range data.length).map fun i => s.hostPa (off + i)
  .next (if !s.inHostRange off data.length then s
    else match pas.find? fun p => !s.granted 0 4 p true with
      | some p => (s.logHost 4 (homeDie p) p (targetOf p)).reply (.written (s.tideOf 12))
      | none =>
        if pas.any s.pchBusy then s
        else
        let t := pas.foldl (fun t p => max t (s.devTime p + 8)) 0
        let s1 := s.writePlaces none pas data
        let whole (sec : Nat) : Bool := (List.range 64).all fun i => pas.contains (64 * sec + i)
        State.returnDue { s1 with
          mem := { s1.mem with poison := s1.mem.poison.filter fun p => !whole p }
          hostDue := s1.hostDue ++ [t] })

/-! ## Start-up and reset (R190, R212, R272, R274) -/

/-- True when the previous start's step i (from 0) failed and its fallback is in force. -/
def BootSys.failed (b : BootSys) (i : Nat) : Bool := b.record.getD i .notRun == .fail

/-- The configuration after start-up (R18, R224, R272): the steps run in order; a failed mandatory step takes its fallback, on this start and until BOOTCLR;
an optional step that failed on the previous start is skipped. Where step 7 fails and the alternate slot does not verify, the part halts (log 43). -/
def BootSys.start (b0 : BootSys) (u : StartUp) : BootSys :=
  let b := if b0.bootclr then { b0 with record := List.replicate 7 .notRun, memFail := 0, dieFail := 0, bootclr := false } else b0
  let slotOk (x : Bool) : Bool := if x then u.slot1Ok else u.slot0Ok
  let res (ok : Bool) : StepResult := if ok then .pass else .fail
  let ok1 := u.headlandOk && !b.failed 0
  let ok2 := u.slot0Ok && !b.failed 1
  let slot := !ok2 || b.failed 6
  let memFail := b.memFail ||| u.memFail
  let dieFail := b.dieFail ||| u.coreDieFail
  let step5 : StepResult := if b.failed 4 then .skipped else res u.portsOk
  let ok6 := u.cxlOk && !b.failed 5
  let ok7 := u.estuaryOk && !b.failed 6
  let slot7 := if u.estuaryOk then slot else !slot
  let rs := [res ok1, res ok2, res (memFail == 0), res (dieFail == 0), step5, res ok6, res ok7]
  let fatal := [!ok1, !slotOk slot, memFail == 0xF, dieFail == 0xFF, false, !ok6, !slotOk slot7]
  let run := (fatal.takeWhile (!·)).length
  let stken : Byte := BitVec.ofNat 8 ((List.range 8).foldl (fun t i => if memFail.getLsbD (i / 2) then t else t + 2 ^ i) 0)
  let cores (d : Nat) : BitVec 24 := if dieFail.getLsbD d then 0
    else BitVec.ofNat 24 ((List.range 24).foldl (fun t i => if u.coresOff.contains (24 * d + i) then t else t + 2 ^ i) 0)
  let coreen := (List.range 8).map cores
  let counts := coreen.map fun c => bitCount 24 c.toNat
  { b with
    cden := ~~~ dieFail
    memen := ~~~ memFail
    stken := stken
    coreen := coreen
    harvest := u.harvest
    gsw := gswWord (counts.foldl (· + ·) 0) (counts.foldl max 0) (bitCount 8 stken.toNat) (4 - bitCount 4 memFail.toNat)
    phase := if run = 7 then 2 else 15
    slot := slot7
    record := (List.range 7).map fun i => if i ≤ run then rs.getD i .notRun else .notRun
    memFail := memFail
    dieFail := dieFail
    portsUp := step5 == .pass
    nonce := List.replicate 64 0
    ataddr := 0
    atctl := 0
    atDue := none }

/-- Every unit as at reset (R212, R274), with the configuration `b`. The bytes of memory and their poison, what the host has seen, and the model's own counters
stay. -/
def State.resetUnits (s : State) (b : BootSys) : State :=
  { State.reset with
    mem := { State.reset.mem with home := s.mem.home, poison := s.mem.poison }
    boot := b
    hostOut := s.hostOut
    notices := s.notices
    turns := s.turns
    fresh := s.fresh
    nextId := s.nextId }

/-- A part reset (R212, R272, R274): every unit is as at reset, and start-up runs. -/
def State.resetPart (s : State) (u : StartUp) : State := s.resetUnits (s.boot.start u)
/-- A part reset that a register write asks for (R274): every unit is as at reset, and start-up is due, which PART_RESET then runs. -/
def State.beginReset (s : State) : State := s.resetUnits { s.boot with phase := 0, nonce := List.replicate 64 0, ataddr := 0, atctl := 0, atDue := none }

/-- PART_RESET (R272, R274): start-up runs, when it is due or Estuary writes RSTCTL.PART. -/
def execPartReset (u : StartUp) (s : State) : Out := .next (if s.boot.phase = 0 then s.resetPart u else s.estuary 0x50000 4 fun s => s.resetPart u)
/-- OVERLIMIT_RESET (R17). -/
def execOverlimitReset (u : StartUp) (s : State) : Out := .next (s.resetPart u)

/-- What a die reset takes away (R274): warps and workgroups of the die, their unaccepted and unfinished accesses, arrays, caches with the stores they hold, TLBs, the
decrements its cores had still to make (R190), and the entries of its queues; of those the counts of other dies' workgroups are added (R91). -/
def State.loseDie (s : State) (d : Nat) : State :=
  let onDie (core : Nat) : Bool := dieOfCore core == d
  let gone := s.warps.filter fun w => w.uid != 0 && onDie w.core
  let lost := gone.map (·.uid)
  let keep := s.warps.filter fun w => w.uid != 0 && !onDie w.core
  let as := s.arrays.filter fun a => onDie a.core
  let s1 : State := { s with
    cur := keep.headD .vacant
    others := keep.tail
    wgs := s.wgs.filter fun g => !onDie g.core
    launches := s.launches.map fun l => { l with left := l.left - (s.wgs.filter fun g => onDie g.core && g.launch == some l.key).length }
    parts := s.parts.filter fun p => !onDie p.core
    arrays := s.arrays.filter fun a => !onDie a.core
    reqs := s.reqs.filter fun r => !lost.contains r.uid
    cards := s.cards.filter fun k => !(lost.contains k.uid && k.acc == 0)
    tasks := { s.tasks with late := s.tasks.late.filter fun x => !onDie x.core }
    copy := { s.copy with entries := s.copy.entries.filter fun e => !(lost.contains e.uid && e.acc == 0) }
    mem := { s.mem with
      spad := s.mem.spad.filter fun c => !inArrays as c.1
      spadPoison := s.mem.spadPoison.filter fun w => !inArrays as (8 * w)
      l1 := s.mem.l1.filter fun x => !onDie x.core
      l2 := s.mem.l2.filter fun x => x.die != d
      near := s.mem.near.filter fun x => x.die != d
      l1Lease := s.mem.l1Lease.filter fun x => x.1 != d
      tlb := s.mem.tlb.filter fun t => !(if t.unit < 192 then onDie t.unit else t.unit == 192 + d)
      icache := s.mem.icache.filter fun x => !onDie x.core }
    cc := s.cc.set d 0 }
  (List.range 64).foldl (fun (s : State) i =>
    let q := 64 * d + i
    if s.copy.entries.any (fun e => e.q == q) || (s.queueRec q).flt then s.abortQueue q true fun e => onDie e.core else s) s1

/-- The home slot, or the result slot, of a handle lies on a die (R190). -/
def Slot.onDie (x : Slot) (d : Nat) : Bool := dieOfCore x.core == d || (match x.exec, x.forward with | some e, some _ => dieOfCore e == d | _, _ => false)

/-- Compute die d is reset (R190, R274): its result slots stay until their home slots are released (R175), and USABLE of its arrays stays that of start-up (log 43). -/
def State.resetDie (s : State) (d : Nat) : State :=
  let s1 := (s.loseDie d).breakHandles (fun x => x.onDie d) 4 d
  { s1 with ctl := { s1.ctl with dieResets := s1.ctl.dieResets.filter (· != d), down := d :: s1.ctl.down.filter (· != d) } }

/-- A gang switch is in progress: a die reset waits for its end (R274). A teardown is none. -/
def State.gangSwitch (s : State) : Bool := s.ctl.switch.any fun x => !x.teardown

/-- Bit d of RSTCTL is written (R274). -/
def State.askReset (s : State) (d : Nat) : State :=
  if decide (8 ≤ d) || !s.boot.cden.getLsbD d then s
  else if s.gangSwitch then { s with ctl := { s.ctl with dieResets := d :: s.ctl.dieResets.filter (· != d) } }
  else s.resetDie d

/-- DIE_RESET (R274): a reset that waited for a gang switch takes effect once it has ended; any other is Estuary's write of RSTCTL. -/
def execDieReset (d : Nat) (s : State) : Out :=
  .next (if s.ctl.dieResets.contains d then (if s.gangSwitch then s else s.resetDie d) else s.estuary 0x50000 4 fun s => s.askReset d)

/-- DIE_RESET_RETURN (R212, R274): the die returns with its Tidemark loaded from the I/O die's count, not below the value it held. -/
def execDieResetReturn (d : Nat) (s : State) : Out :=
  .next (if s.ctl.down.contains d then
      { s with
        tide := s.tide.set d (max (s.tideOf d) (s.tideOf 12))
        cc := s.cc.set d 0
        ctl := { s.ctl with down := s.ctl.down.filter (· != d) } }
    else s)

/-- BOOTSTAT.BOOTCLR written (R272): every step is NOTRUN at the next start. -/
def State.clearBoot (s : State) : State := { s with boot := { s.boot with bootclr := true } }
/-- BOOTCLR (R272): Estuary writes it. -/
def execBootclr (s : State) : Out := .next (s.estuary 0x50004 4 State.clearBoot)

/-- POWER_LIMIT_EXCEEDED (R17): the issue rate is lowered; only timing changes. -/
def execPowerLimitExceeded (s : State) : Out := .next { s with throttled := true }
/-- POWER_WITHIN_LIMITS (R17). -/
def execPowerWithinLimits (s : State) : Out := .next { s with throttled := false }

/-! ## Attestation (R273) -/

/-- Why a report range fails (R273), if it does: codes 1 to 3 with the byte a table refuses. -/
def State.reportFault (s : State) : Option (Nat × Nat) :=
  let a := s.boot.ataddr.toNat
  let pas := (List.range 4947).map fun i => a + i
  if a % 64 != 0 then some (1, 0)
  else if pas.any fun p => !isHostPa p && (decide (htop ≤ p) || !s.boot.stken.getLsbD (stackOf p)) then some (2, 0)
  else (pas.find? fun p => !s.granted 0 3 p true).map fun p => (3, p)

/-- A write of GO = 1 while GO reads 0 clears DONE, ERR and ERRC and starts a request (R273); its range is checked before a byte is written. -/
def State.startReport (s : State) (v : Word) : State :=
  if !v.getLsbD 31 || s.boot.atctl.getLsbD 31 then s
    else match s.reportFault with
      | none => { s with boot := { s.boot with atctl := 0x80000000 } }
      | some (code, p) =>
        let s1 : State := { s with boot := { s.boot with atctl := 0x20000000 ||| BitVec.ofNat 32 code } }
        if code = 3 then s1.logHost 3 (homeDie p) p (targetOf p) else s1

/-- A 1 written to DONE or ERR clears it (R273). -/
def State.clearReport (s : State) (v : Word) : State :=
  if v.getLsbD 31 then s else { s with boot := { s.boot with atctl := s.boot.atctl &&& ~~~ (v &&& 0x60000000) } }

/-- ATCTL_GO (R273): Estuary writes ATCTL with GO. -/
def execAtctlGo (v : Word) (s : State) : Out := .next (s.estuary 0x50140 4 fun s => s.startReport v)
/-- ATCTL_CLEAR (R273): Estuary writes ATCTL without GO. -/
def execAtctlClear (v : Word) (s : State) : Out := .next (s.estuary 0x50140 4 fun s => s.clearReport v)

/-- The bytes of the boot record. -/
def BootSys.recordBytes (b : BootSys) : List Byte := b.record.map fun r => match r with
  | .notRun => 0
  | .pass => 1
  | .fail => 2
  | .skipped => 3

/-- The attestation report (R273). -/
def State.report (s : State) : List Byte :=
  let digest (f : Nat → Byte) : List Byte := (List.range 64).map f
  let caps := (List.range 19).flatMap fun i => bytesLE 4 (s.readReg (4 * i)).toNat
  let body := s.boot.nonce ++ digest (Config.imageDigest 0) ++ digest (Config.imageDigest (if s.boot.slot then 2 else 1))
    ++ digest (Config.sha3 s.boot.recordBytes) ++ digest (Config.sha3 caps)
  body ++ (List.range 4627).map (Config.signature body)

/-- The Tidemark at which bytes written to a range have performed at `.sys`, as the I/O die hears of it (R123, R135). -/
def State.sysTime (s : State) (pa n : Nat) : Nat := (List.range (n / 64 + 2)).foldl (fun t i => max t (s.devTime (pa + min (64 * i) (n - 1)) + 8)) 0

/-- ATTESTATION_REPORT_DONE (R273): the report is written at `.sys`, then, once it has performed, DONE sets and GO clears. -/
def execAttestationReportDone (s : State) : Out :=
  .next (if s.boot.atctl.getLsbD 31 then
      (match s.boot.atDue with
      | none =>
        let s1 := s.homeWrite s.boot.ataddr.toNat s.report
        { s1 with boot := { s1.boot with atDue := some (s.sysTime s.boot.ataddr.toNat 4947) } }
      | some t => if t ≤ s.tideOf 12 then { s with boot := { s.boot with atctl := 0x40000000, atDue := none } } else s)
    else s)

/-- A word of ATNONCE or ATADDR (R273), by its offset in the register space; no effect while GO reads 1. -/
def State.writeAttest (s : State) (off : Nat) (v : Word) : State :=
  let b := s.boot
  if b.atctl.getLsbD 31 || off % 4 != 0 then s
    else if 0x50100 ≤ off ∧ off < 0x50140 then
      { s with boot := { b with nonce := b.nonce.take (off - 0x50100) ++ bytesLE 4 v.toNat ++ b.nonce.drop (off - 0x50100 + 4) } }
    else if off = 0x50148 then { s with boot := { b with ataddr := pairOf v (hiWord b.ataddr) } }
    else if off = 0x5014C then { s with boot := { b with ataddr := pairOf (loWord b.ataddr) v } }
    else s
/-- ATTEST_INPUT_WRITE (R273): Estuary writes a word of ATNONCE or ATADDR. -/
def execAttestInputWrite (off : Nat) (v : Word) (s : State) : Out := .next (s.estuary off 4 fun s => s.writeAttest off v)

/-! ## Register writes (R268) -/

/-- HOST_REGISTER_BAD_WIDTH (R268): a read returns all-ones, a write is dropped, and either completes as Unsupported Request. -/
def execHostRegisterBadWidth (write : Bool) (s : State) : Out := .next (s.reply (.unsupported (!write)))

/-- One half of a 64-bit register written. -/
def putHalf (x : DWord) (off : Nat) (v : Word) : DWord := if off % 8 = 0 then pairOf v (hiWord x) else pairOf (loWord x) v

/-- A write of a whole CTXDn (R213): it tears down, activates, or sets ADDR of an EMPTY context. -/
def State.writeCtxd (s : State) (n : Nat) (v : DWord) : State :=
  match (s.ctxOf n).state with
  | .empty =>
    if v.getLsbD 63 then s.activate n v else s.mapCtx n fun c => { c with ctxd := v &&& 0x000FFFFFFFFFFF80 }
  | .switching => s
  | _ => if v.getLsbD 63 then s else s.teardown n

/-- A 32-bit write at an aligned offset, by the host or by Estuary; BOOTCLR takes Estuary's only. -/
def State.writeReg (s : State) (host : Bool) (off : Nat) (v : Word) : State :=
  if 0x10000 ≤ off ∧ off < 0x10008 then { s with mem := { s.mem with tlbia := putHalf s.mem.tlbia off v &&& 0x00FFFFFFFFFF0000 } }
  else if off = 0x10008 then s.writeTlbic v
  else if 0x20000 ≤ off ∧ off < 0x22000 ∧ off % 16 = 0 then
    let q := (off - 0x20000) / 16
    let s1 := s.bindQueue q (v.getLsbD 27) (BitVec.ofNat 3 (v.toNat / 2 ^ 24))
    let s2 := if v.getLsbD 31 then s1.abortQueue q false fun _ => false else s1
    if v.getLsbD 30 then s2.resumeQueue q else s2
  else if 0x30000 ≤ off ∧ off < 0x30800 then
    let n := (off - 0x30000) / 4
    { s with tasks := { s.tasks with chaff := (n, v.toNat % 256) :: s.tasks.chaff.filter fun p => p.1 != n } }
  else if 0x40000 ≤ off ∧ off < 0x41000 then
    s.writeTt ((off - 0x40000) / 32) (off % 32 / 4) v
  else if off = 0x41000 then s.writeTmctl v
  else if 0x41100 ≤ off ∧ off < 0x41140 then
    let n := (off - 0x41100) / 8
    let x := putHalf (s.ctxOf n).ctxd off v
    if off % 8 = 4 then s.writeCtxd n x
    else if (s.ctxOf n).state == .empty then s.mapCtx n fun c => { c with ctxd := x &&& 0x800FFFFFFFFFFF80 } else s
  else if off = 0x50000 then
    (if v.getLsbD 31 then s.beginReset else (List.range 8).foldl (fun (s : State) d => if v.getLsbD d then s.askReset d else s) s)
  else if off = 0x50004 then (if !host && v.getLsbD 0 then s.clearBoot else s)
  else if off = 0x50140 then (if v.getLsbD 31 then s.startReport v else s.clearReport v)
  else if 0x50100 ≤ off ∧ off < 0x50150 then s.writeAttest off v
  else s

/-- True of the offsets of 64-bit registers (R268). -/
def is64 (off : Nat) : Bool :=
  off % 8 == 0 && (decide (off = 0x10000) || (decide (0x20000 ≤ off) && decide (off < 0x22000) && off % 16 == 8)
    || (decide (0x40000 ≤ off) && decide (off < 0x41000) && (off % 32 == 0 || off % 32 == 16))
    || (decide (0x41100 ≤ off) && decide (off < 0x41140)))

/-- A reply that only the host sees. -/
def State.replyTo (s : State) (host : Bool) (r : HostReply) : State := if host then s.reply r else s
/-- The agent class of the host or of Estuary (R237). -/
def classOf (host : Bool) : Nat := if host then 4 else 3

/-- REGISTER_WRITE (R4, R18, R127, R178, R268, R271, R274): a write of 32 bits, or of 64 to a 64-bit register, by the host or by Estuary. Reserved and read-only fields, and
unlisted offsets, take nothing; a refused access is logged and completes as Unsupported Request. -/
def execRegisterWrite (r : RegAt) (wide : Bool) (v : DWord) (s : State) : Out :=
  .next (if r.off % 4 != 0 || (wide && !is64 r.off) then s.replyTo r.host (.unsupported false)
    else if !s.mgmtGranted (classOf r.host) r.off (if wide then 8 else 4) true then (s.logHost (classOf r.host) 12 r.off 64).replyTo r.host (.unsupported false)
    else
      let s1 := s.replyTo r.host (.written (s.tideOf 12))
      if !wide then s1.writeReg r.host r.off (loWord v)
      else if 0x41100 ≤ r.off ∧ r.off < 0x41140 then s1.writeCtxd ((r.off - 0x41100) / 8) v
      else (s1.writeReg r.host r.off (loWord v)).writeReg r.host (r.off + 4) (hiWord v))

/-- A read of 32 bits, or of 64 from a 64-bit register, by the host or by Estuary (R268, R271). -/
def State.agentReadReg (s : State) (host : Bool) (off : Nat) (wide : Bool) : State :=
  if off % 4 != 0 || (wide && !is64 off) then s.replyTo host (.unsupported true)
  else if !s.mgmtGranted (classOf host) off (if wide then 8 else 4) false then (s.logHost (classOf host) 12 off 64).replyTo host (.unsupported false)
  else s.replyTo host (.data (bytesLE 4 (s.readReg off).toNat ++ (if wide then bytesLE 4 (s.readReg (off + 4)).toNat else [])) false)

/-! ## Soft errors (R97, R238) -/

/-- A bit flipped in a byte of a cached sector. -/
def flipAt (off bit : Nat) (xs : List CByte) : List CByte := xs.modify off fun c => { c with b := flipBit c.b bit }

/-- SOFT_ERROR (R97, R238): a corrected error has no effect but on the `AXM`s of an array in compute mode, until a second one in its 64-bit word makes it uncorrectable; an uncorrectable one leaves its 64-byte sector poisoned, its scratchpad word, cached word or register failing.
A struck register holds an undefined value, a free value of the model. -/
def execSoftError (x : Strike) (s : State) : Out :=
  .next (match x with
    | .corrected => s
    | .homeByte pa bit => { s with mem := { s.mem with home := writeByte pa (flipBit (readByte s.mem.home pa) bit) s.mem.home
                                                       poison := sectorOf pa :: s.mem.poison.filter (· != sectorOf pa) } }
    | .homeSector sec => { s with mem := { s.mem with poison := sec :: s.mem.poison.filter (· != sec) } }
    | .tile core phys off bit =>
      let a := spadCell (core % 192) (phys % 32) (off % 0x3800)
      { s with mem := { s.mem with spad := writeByte a (flipBit (readByte s.mem.spad a) bit) s.mem.spad
                                   spadPoison := a / 8 :: s.mem.spadPoison.filter (· != a / 8) } }
    | .tileBit core phys off bit =>
      let a := spadCell (core % 192) (phys % 32) (off % 0x3800)
      match s.arrayOf (core % 192) (phys % 32) with
      | some ar =>
        if ar.mode != 1 && ar.mode != 3 then s
        else
          let at' : Nat × Nat := (off % 0x3800, bit % 8)
          let met := !ar.flips.contains at' && ar.flips.any fun f => f.1 / 8 == at'.1 / 8
          let s1 := s.mapArray ar.core ar.phys fun x => { x with flips := if x.flips.contains at' then x.flips.erase at' else at' :: x.flips }
          if met then { s1 with mem := { s1.mem with spadPoison := a / 8 :: s1.mem.spadPoison.filter (· != a / 8) } } else s1
      | none => s
    | .tileWord core phys off =>
      let a := spadCell (core % 192) (phys % 32) (off % 0x3800)
      { s with mem := { s.mem with spadPoison := a / 8 :: s.mem.spadPoison.filter (· != a / 8) } }
    | .l1Word core pa bit => { s with mem := { s.mem with
        l1 := updWhere (fun x => x.core == core && x.sec == sectorOf pa)
          (fun x => { x with data := flipAt (pa % 64) bit x.data, bad := x.bad ||| ((1 : Byte) <<< (pa % 64 / 8)) }) s.mem.l1 } }
    | .l2Word die pa bit => { s with mem := { s.mem with
        l2 := updWhere (fun x => x.die == die && x.sec == sectorOf pa)
          (fun x => { x with data := flipAt (pa % 64) bit x.data, bad := x.bad ||| ((1 : Byte) <<< (pa % 64 / 8)) }) s.mem.l2 } }
    | .icacheWord core pa => { s with mem := { s.mem with
        icache := updWhere (fun x => x.core == core && x.pa == pa) (fun x => { x with bad := true }) s.mem.icache } }
    | .register core pos reg =>
      match s.warpAt core pos with
      | none => s
      | some w =>
        let r := reg % 64
        let free (i : Nat) : Word := Config.freeWord (s.fresh + i)
        let strike (a : Arch) : Arch :=
          let v : VReg := match a.vregs.getD r (.u 0) with
            | .u _ => .u (free 0)
            | .a _ _ => .a (free 0) (free 1)
            | .g _ => .g (lanesOf free)
          { a with vregs := putAt 64 (.u 0) r v a.vregs, bad := a.bad ||| ((1 : BitVec 64) <<< r) }
        State.mapWarp { s with fresh := s.fresh + laneCount } w.uid fun w => w.mapArchAll strike)

end Sys2Proof.Machine
end

