-- ==== Sys2Proof/Machine/Moves.lean ====
section
/-! DEFINITION. Moves, lanes, predicates and shapes: opcodes 0x40 to 0x47 (R62, R335, R340, R343, R346, R356, R367). -/

namespace Sys2Proof.Machine

/-- `MOV` (R340): a U or A source keeps its tag. `.W` gives U when both halves are U, otherwise G in both, as R59's last row has it for an A source and for
combinations its table does not list (log 58). -/
def execMov (c : Ctl) (w : Bool) (d a : Reg) (s : State) : Out :=
  .next (if w then s.commit c (pairRegs d ++ pairRegs a) (pairResult d ((s.reg a).isU && (s.reg (a + 1)).isU) (s.rdPair a)) [] .zero
    else s.commit c [d, a] [⟨d, s.reg a⟩] [] .zero)

/-- `MOVI` (R340). -/
def execMovi (c : Ctl) (w : Bool) (d : Reg) (imm : DWord) (s : State) : Out :=
  .next (if w then s.commit c (pairRegs d) [⟨d, .u (loWord imm)⟩, ⟨d + 1, .u (hiWord imm)⟩] [] .zero
    else s.commit c [d] [⟨d, .u (loWord imm)⟩] [] .zero)

/-- The source lane of `LANEX` (R335): segment code, mode, lane and operand. -/
def lanexSrc (seg : BitVec 3) (mode : BitVec 2) (l b : Nat) : Nat :=
  let W := 128 >>> seg.toNat
  let base := l - l % W
  let i := l % W
  match mode.toNat with
  | 0 => base + b % W
  | 1 => base + Nat.xor i (b % W)
  | 2 => if b ≤ i then base + (i - b) else l
  | _ => if i + b < W then base + (i + b) else l

/-- `LANEX` (R335): every source lane supplies its value as the register holds it. -/
def lanexOp (s : State) (c : Ctl) (seg : BitVec 3) (mode : BitVec 2) (d a : Reg) (b : Src) : State :=
  let va := s.reg a
  let vb := b.val s
  s.commit c ([d, a] ++ b.names) [⟨d, .g (lanesOf fun l => va.lane (lanexSrc seg mode l (vb.lane l).toNat))⟩] [] .zero
/-- `LANEX` (R335). -/
def execLanex (c : Ctl) (seg : BitVec 3) (mode : BitVec 2) (d a b : Reg) (s : State) : Out := .next (lanexOp s c seg mode d a (.reg b))
/-- `LANEX` immediate. -/
def execLanexImmediate (c : Ctl) (seg : BitVec 3) (mode : BitVec 2) (d a : Reg) (imm : Word) (s : State) : Out :=
  .next (lanexOp s c seg mode d a (.imm (imm.setWidth 64)))

/-- `VOTE` (R367): forms 0 ALL, 1 ANY, 2 UNI into a predicate; 3 BAL into four registers. -/
def execVote (c : Ctl) (form : BitVec 2) (d : Reg) (p : PReg) (s : State) : Out :=
  let act := s.act c
  let m := s.cur.pred p &&& act
  let all (b : Bool) : Mask := if b then BitVec.allOnes 128 else 0
  .next (match form.toNat with
    | 0 => s.commit c [] [] [(d.setWidth 3, all (m == act))] .zero
    | 1 => s.commit c [] [] [(d.setWidth 3, all (m != 0))] .zero
    | 2 => s.commit c [] [] [(d.setWidth 3, all (m == 0 || m == act))] .zero
    | _ => s.commit c (regBlock d 4) ((List.range 4).map fun i =>
        ⟨d + BitVec.ofNat 6 i, .u (BitVec.ofNat 32 (bitsAt m.toNat (32 * i) 32))⟩) [] .zero)

/-- The predicate result of `PSET` (R346): 0 AND, 1 OR, 2 XOR, 3 ANDN of predicates x and y, 4 V2P of register x. -/
def psetMask (s : State) (opc : BitVec 3) (x y : Reg) : Mask :=
  let px := s.cur.pred (x.setWidth 3)
  let py := s.cur.pred (y.setWidth 3)
  match opc.toNat with
  | 0 => px &&& py
  | 1 => px ||| py
  | 2 => px ^^^ py
  | 3 => px &&& ~~~ py
  | _ => maskOf fun l => s.rd x l != 0

/-- `PSET` (R346). -/
def execPset (c : Ctl) (opc : BitVec 3) (p : PReg) (x y : Reg) (s : State) : Out :=
  .next (s.commit c (if opc = 4 then [x] else []) [] [(p, psetMask s opc x y)] .zero)

/-- `PCNT` (R343). -/
def execPcnt (c : Ctl) (pfx : Bool) (d : Reg) (p : PReg) (s : State) : Out :=
  let m := s.cur.pred p &&& s.act c
  let v : VReg := if pfx then .g (lanesOf fun l => BitVec.ofNat 32 (popCount l m.toNat))
    else .u (BitVec.ofNat 32 (popCount 128 m.toNat))
  .next (s.commit c [d] [⟨d, v⟩] [] .zero)

/-- The inverse of an odd number modulo 2^n: n Newton steps are more than enough. -/
def oddInverse (n o : Nat) : Nat := (List.range n).foldl (fun x _ => x * ((2 + 2 ^ n - o * x % 2 ^ n) % 2 ^ n) % 2 ^ n) 1

/-- The number of trailing zero bits, up to n. -/
def trailingZeros : Nat → Nat → Nat
  | 0, _ => 0
  | n + 1, x => if x % 2 = 1 then 0 else 1 + trailingZeros n (x / 2)

/-- `UNIF` (R62) over the lanes that are not Exited: U, else the A of the one candidate stride, else the values themselves. -/
def unifVal (live : Mask) (v : VReg) : VReg :=
  let ls := maskLanes live
  let x (l : Nat) : Nat := (v.lane l).toNat
  match ls with
  | [] => v
  | l0 :: rest =>
    if ls.all fun l => x l == x l0 then .u (v.lane l0)
    else match rest with
      | [] => .u (v.lane l0)
      | l1 :: _ =>
        let d := (x l1 + 2 ^ 32 - x l0) % 2 ^ 32
        let t := trailingZeros 7 (l1 - l0)
        let o := (l1 - l0) / 2 ^ t
        let gen := VReg.g (lanesOf v.lane)
        if d % 2 ^ t ≠ 0 then gen
        else
          let st := d / 2 ^ t * oddInverse (32 - t) o % 2 ^ (32 - t)
          if ls.all fun l => x l == (x l0 + st * (l - l0)) % 2 ^ 32 then
            .a (v.lane l0 - BitVec.ofNat 32 (st * l0)) (BitVec.ofNat 32 st)
          else gen

/-- An instruction that acts on the warp and writes a register whole, whatever the guard (R62, R275, R356). -/
def commitWhole (s : State) (c : Ctl) (names : List Reg) (w : RegWrite) : State :=
  let act := s.act c
  let live := s.cur.live
  if !names.all s.cur.nameable then s.illegal act
  else if act = 0 then s.advance c
  else match s.cur.overflow live [w] with
    | some r => s.trapP act 8 0 r.toNat none 0 4
    | none => State.advance { s with cur := { s.cur with arch := s.cur.arch.write live live w } } c

/-- `UNIF` (R62, R356). -/
def execUnif (c : Ctl) (d a : Reg) (s : State) : Out := .next (commitWhole s c [d, a] ⟨d, unifVal s.cur.live (s.reg a)⟩)
/-- `SHAPE` (R62, R356). -/
def execShape (c : Ctl) (d a : Reg) (s : State) : Out := .next (commitWhole s c [d, a] ⟨d, .u (BitVec.ofNat 32 (s.reg a).code)⟩)

end Sys2Proof.Machine
end

