-- ==== Sys2Proof/Machine/Queues.lean ====
section
/-! DEFINITION. Workgroup lane queues: opcodes 0x84 to 0x86 (R192, R193, R348, R349). -/

namespace Sys2Proof.Machine

/-- Queue q of the workgroup of the warp in focus. -/
def State.queueAt (s : State) (q : BitVec 3) : Option LaneQueue := (s.wgOf s.cur.wg).bind fun g => g.queues[q.toNat]?
/-- Replace queue q. -/
def State.putQueue (s : State) (q : BitVec 3) (x : LaneQueue) : State :=
  s.mapWg s.cur.wg fun g => { g with queues := g.queues.set q.toNat x }

/-- The entry size. -/
def LaneQueue.esz (x : LaneQueue) : Nat := if x.esz8 then 8 else 4
/-- The number of entries of a ring. -/
def LaneQueue.size (x : LaneQueue) : Nat := 2 ^ x.log2n
/-- The entries a queue holds: tail - head, as counters of 32 bits. -/
def LaneQueue.count (x : LaneQueue) : Nat := (x.tail - x.head).toNat

/-- The queue misuse fault (R192, R193). -/
def State.misuse (s : State) (act : Mask) (q : BitVec 3) : State := s.trapP act 14 q.toNat 0 none 0 4

/-- `QINIT` (R192, R348): counters zero, ring as given; the ring is not written. -/
def execQinit (c : Ctl) (q : BitVec 3) (a : Reg) (log2n : BitVec 4) (esz : Bool) (s : State) : Out :=
  let act := s.act c
  let base := (s.rd a 0).toNat
  let x : LaneQueue := ⟨true, base, log2n.toNat, esz, 0, 0⟩
  .next (if !s.cur.nameable a then s.illegal act
    else if act = 0 then s.advance c
    else if (s.queueAt q).isNone || !(s.reg a).isU || base % x.esz != 0 || decide (12288 * s.arrayTotal < base + x.esz * x.size) then
      s.misuse act q
    else (s.putQueue q x).advance c)

/-- The scratchpad address and the place of the entry with counter value i. -/
def State.entryPlace (s : State) (x : LaneQueue) (i : Nat) : Nat × Nat :=
  let a := x.base + x.esz * (i % x.size)
  (a, match s.wgOf s.cur.wg with
    | some g => match spadPlace g.arrays.length a with
      | some (j, off) => spadCell g.core (g.arrays.getD j 0) off
      | none => 0
    | none => 0)

/-- The lanes of a queue instruction that take an entry, ascending, with the entry's counter value: `room` entries from `first`. -/
def takers (act : Mask) (first room : Nat) : List (Nat × Nat) :=
  let ls := (maskLanes act).take room
  (List.range ls.length).map fun i => (ls.getD i 0, first + i)

/-- An access of a queue instruction to its entries (R99, R100, R193): its arrays accept it when the queue unit does, it is made as far as it may, and the rest
waits at them. -/
def State.enterQueue (s : State) (c : Ctl) (m : MemReq) (ws : List RegWrite) (preds : List PReg) : State :=
  let s1 := s.addReq c (.mem m) ws preds false true
  match s1.reqs.getLast? with
  | some r =>
    let s2 := s1.acceptAccess r m
    s2.makeParts r m (m.going everyLane 3 (·.left) (s2.mayMake r m))
  | none => s1

/-- The entry of a lane as an access. -/
def State.entryLane (s : State) (x : LaneQueue) (data : Nat → Nat) (t : Nat × Nat) : LaneAcc :=
  let e := s.entryPlace x t.2
  ⟨t.1, e.1, e.2, 0, data t.1, 0, 0, 1, 0⟩

/-- The lanes that took an entry. -/
def takenMask (ts : List (Nat × Nat)) : Mask := maskOf fun l => ts.any fun t => t.1 == l

/-- `QPUSH` (R193): lanes push in ascending order while there is room; the unit's answer is the predicate of those that did. -/
def execQpush (c : Ctl) (d8 : Bool) (p : PReg) (q : BitVec 3) (b : Reg) (s : State) : Out :=
  let act := s.act c
  let names := if d8 then pairRegs b else [b]
  .next (if !names.all s.cur.nameable then s.illegal act
    else if act = 0 then s.advance c
    else match s.queueAt q with
      | none => s.misuse act q
      | some x =>
        if !x.init || x.esz8 != d8 then s.misuse act q
        else
          let ts := takers act x.tail.toNat (x.size - x.count)
          let accs := ts.map (s.entryLane x fun l => if d8 then (s.rdPair b l).toNat else (s.rd b l).toNat)
          match accs.find? fun y => s.modeAt y.pa == 2 || s.modeAt y.pa == 1 with
          | some y => s.trapP act 5 (s.arrayNumber s.cur.wg (cellArray y.pa).1 (cellArray y.pa).2) 0 (some y.lane) (BitVec.ofNat 64 y.va) 1
          | none =>
            let s1 := s.putQueue q { x with tail := x.tail + BitVec.ofNat 32 ts.length }
            let s2 := if accs.isEmpty then s1 else s1.enterQueue c ⟨.spad, false, .store, x.esz, 0, 0, 0, accs, [], false, none⟩ [] []
            (s2.enterQueue c ⟨.spad, false, .load false, x.esz, 0, 0, 0, [], [], false, some (p, takenMask ts)⟩ [] [p]).advance c)

/-- `QPOP` (R193, R349): lanes take entries in ascending order and the head moves at once; the read of an entry whose write is held waits for it. -/
def execQpop (c : Ctl) (d8 : Bool) (p : PReg) (q : BitVec 3) (d : Reg) (s : State) : Out :=
  let act := s.act c
  let dests := if d8 then pairRegs d else [d]
  let binds : List RegWrite := dests.map fun r => ⟨r, .g []⟩
  .next (if !dests.all s.cur.nameable then s.illegal act
    else if act = 0 then s.advance c
    else match s.cur.overflow act binds with
      | some r => s.trapP act 8 0 r.toNat none 0 4
      | none => match s.queueAt q with
        | none => s.misuse act q
        | some x =>
          if !x.init || x.esz8 != d8 then s.misuse act q
          else
            let ts := takers act x.head.toNat x.count
            let m : MemReq := ⟨.spad, false, .load false, x.esz, 0, 0, 0, ts.map (s.entryLane x fun _ => 0), dests, false, some (p, takenMask ts)⟩
            match s.failingLanes s.cur.core m with
            | y :: _ => s.trapP act 17 2 0 (some y.lane) (BitVec.ofNat 64 y.va) 0
            | [] => ((s.putQueue q { x with head := x.head + BitVec.ofNat 32 ts.length }).enterQueue c m binds [p]).advance c)

end Sys2Proof.Machine
end

