-- ==== Sys2Proof/Machine/Dispatch.lean ====
section
/-! DEFINITION. The dispatch of an instruction or an event of the part to its meaning: one arm per row of the opcode table. -/

namespace Sys2Proof.Machine

def exec (i : Instr) (s : State) : Host.Outcome State Fault Refusal :=
  match i with
  | .iadd c m d a b => Sys2Proof.Machine.execIadd c m d a b s
  | .iaddImmediate c m d a imm => Sys2Proof.Machine.execIaddImmediate c m d a imm s
  | .isub c m d a b => Sys2Proof.Machine.execIsub c m d a b s
  | .isubImmediate c m d a imm => Sys2Proof.Machine.execIsubImmediate c m d a imm s
  | .imul c m d a b => Sys2Proof.Machine.execImul c m d a b s
  | .imulImmediate c m d a imm => Sys2Proof.Machine.execImulImmediate c m d a imm s
  | .imulh c m d a b => Sys2Proof.Machine.execImulh c m d a b s
  | .imulhImmediate c m d a imm => Sys2Proof.Machine.execImulhImmediate c m d a imm s
  | .imad c m d a b e => Sys2Proof.Machine.execImad c m d a b e s
  | .imadImmediate c m d a imm e => Sys2Proof.Machine.execImadImmediate c m d a imm e s
  | .imin c m d a b => Sys2Proof.Machine.execImin c m d a b s
  | .iminImmediate c m d a imm => Sys2Proof.Machine.execIminImmediate c m d a imm s
  | .imax c m d a b => Sys2Proof.Machine.execImax c m d a b s
  | .imaxImmediate c m d a imm => Sys2Proof.Machine.execImaxImmediate c m d a imm s
  | .iabs c m d a => Sys2Proof.Machine.execIabs c m d a s
  | .ineg c m d a => Sys2Proof.Machine.execIneg c m d a s
  | .and c w d a b => Sys2Proof.Machine.execAnd c w d a b s
  | .andImmediate c w d a imm => Sys2Proof.Machine.execAndImmediate c w d a imm s
  | .or c w d a b => Sys2Proof.Machine.execOr c w d a b s
  | .orImmediate c w d a imm => Sys2Proof.Machine.execOrImmediate c w d a imm s
  | .xor c w d a b => Sys2Proof.Machine.execXor c w d a b s
  | .xorImmediate c w d a imm => Sys2Proof.Machine.execXorImmediate c w d a imm s
  | .not c w d a => Sys2Proof.Machine.execNot c w d a s
  | .shl c w d a b => Sys2Proof.Machine.execShl c w d a b s
  | .shlImmediate c w d a imm => Sys2Proof.Machine.execShlImmediate c w d a imm s
  | .shr c w d a b => Sys2Proof.Machine.execShr c w d a b s
  | .shrImmediate c w d a imm => Sys2Proof.Machine.execShrImmediate c w d a imm s
  | .sar c w d a b => Sys2Proof.Machine.execSar c w d a b s
  | .sarImmediate c w d a imm => Sys2Proof.Machine.execSarImmediate c w d a imm s
  | .popc c w d a => Sys2Proof.Machine.execPopc c w d a s
  | .clz c w d a => Sys2Proof.Machine.execClz c w d a s
  | .brev c w d a => Sys2Proof.Machine.execBrev c w d a s
  | .bfe c w un d a pos wid1 => Sys2Proof.Machine.execBfe c w un d a pos wid1 s
  | .bfi c w d a e pos wid1 => Sys2Proof.Machine.execBfi c w d a e pos wid1 s
  | .icmp c w un cond p a b => Sys2Proof.Machine.execIcmp c w un cond p a b s
  | .icmpImmediate c w un cond p a imm => Sys2Proof.Machine.execIcmpImmediate c w un cond p a imm s
  | .sel c d a b p => Sys2Proof.Machine.execSel c d a b p s
  | .selImmediate c d a imm p => Sys2Proof.Machine.execSelImmediate c d a imm p s
  | .lea c w un d a b shift => Sys2Proof.Machine.execLea c w un d a b shift s
  | .leaImmediate c w d a imm shift => Sys2Proof.Machine.execLeaImmediate c w d a imm shift s
  | .fadd c m d a b => Sys2Proof.Machine.execFadd c m d a b s
  | .faddImmediate c m d a imm => Sys2Proof.Machine.execFaddImmediate c m d a imm s
  | .fsub c m d a b => Sys2Proof.Machine.execFsub c m d a b s
  | .fsubImmediate c m d a imm => Sys2Proof.Machine.execFsubImmediate c m d a imm s
  | .fmul c m d a b => Sys2Proof.Machine.execFmul c m d a b s
  | .fmulImmediate c m d a imm => Sys2Proof.Machine.execFmulImmediate c m d a imm s
  | .ffma c m d a b e => Sys2Proof.Machine.execFfma c m d a b e s
  | .ffmaImmediate c m d a imm e => Sys2Proof.Machine.execFfmaImmediate c m d a imm e s
  | .fmin c m d a b => Sys2Proof.Machine.execFmin c m d a b s
  | .fminImmediate c m d a imm => Sys2Proof.Machine.execFminImmediate c m d a imm s
  | .fmax c m d a b => Sys2Proof.Machine.execFmax c m d a b s
  | .fmaxImmediate c m d a imm => Sys2Proof.Machine.execFmaxImmediate c m d a imm s
  | .fcmp c fzi cond p a b => Sys2Proof.Machine.execFcmp c fzi cond p a b s
  | .fcmpImmediate c fzi cond p a imm => Sys2Proof.Machine.execFcmpImmediate c fzi cond p a imm s
  | .fclass c p a mask => Sys2Proof.Machine.execFclass c p a mask s
  | .frcp c m d a => Sys2Proof.Machine.execFrcp c m d a s
  | .frsq c m d a => Sys2Proof.Machine.execFrsq c m d a s
  | .fsqrt c m d a => Sys2Proof.Machine.execFsqrt c m d a s
  | .fex2 c m d a => Sys2Proof.Machine.execFex2 c m d a s
  | .flg2 c m d a => Sys2Proof.Machine.execFlg2 c m d a s
  | .fsin c m d a => Sys2Proof.Machine.execFsin c m d a s
  | .fcos c m d a => Sys2Proof.Machine.execFcos c m d a s
  | .frnd c m d a => Sys2Proof.Machine.execFrnd c m d a s
  | .hadd2 c m d a b => Sys2Proof.Machine.execHadd2 c m d a b s
  | .hadd2Immediate c m d a imm => Sys2Proof.Machine.execHadd2Immediate c m d a imm s
  | .hmul2 c m d a b => Sys2Proof.Machine.execHmul2 c m d a b s
  | .hmul2Immediate c m d a imm => Sys2Proof.Machine.execHmul2Immediate c m d a imm s
  | .hfma2 c m d a b e => Sys2Proof.Machine.execHfma2 c m d a b e s
  | .hfma2Immediate c m d a imm e => Sys2Proof.Machine.execHfma2Immediate c m d a imm e s
  | .hmin2 c m d a b => Sys2Proof.Machine.execHmin2 c m d a b s
  | .hmin2Immediate c m d a imm => Sys2Proof.Machine.execHmin2Immediate c m d a imm s
  | .hmax2 c m d a b => Sys2Proof.Machine.execHmax2 c m d a b s
  | .hmax2Immediate c m d a imm => Sys2Proof.Machine.execHmax2Immediate c m d a imm s
  | .cvt c m src dst d a => Sys2Proof.Machine.execCvt c m src dst d a s
  | .mov c w d a => Sys2Proof.Machine.execMov c w d a s
  | .movi c w d imm => Sys2Proof.Machine.execMovi c w d imm s
  | .lanex c seg mode d a b => Sys2Proof.Machine.execLanex c seg mode d a b s
  | .lanexImmediate c seg mode d a imm => Sys2Proof.Machine.execLanexImmediate c seg mode d a imm s
  | .vote c form d p => Sys2Proof.Machine.execVote c form d p s
  | .pset c opc p x y => Sys2Proof.Machine.execPset c opc p x y s
  | .pcnt c pfx d p => Sys2Proof.Machine.execPcnt c pfx d p s
  | .unif c d a => Sys2Proof.Machine.execUnif c d a s
  | .shape c d a => Sys2Proof.Machine.execShape c d a s
  | .ld c m d a => Sys2Proof.Machine.execLd c m d a s
  | .st c m a b => Sys2Proof.Machine.execSt c m a b s
  | .lds c m d a => Sys2Proof.Machine.execLds c m d a s
  | .sts c m a b => Sys2Proof.Machine.execSts c m a b s
  | .ldx c m d a k => Sys2Proof.Machine.execLdx c m d a k s
  | .stx c m a b k => Sys2Proof.Machine.execStx c m a b k s
  | .atom c m op d a b => Sys2Proof.Machine.execAtom c m op d a b s
  | .atoms c m op d a b => Sys2Proof.Machine.execAtoms c m op d a b s
  | .atomsCluster c m op d a b k => Sys2Proof.Machine.execAtomsCluster c m op d a b k s
  | .red c m op a b => Sys2Proof.Machine.execRed c m op a b s
  | .fence c ord scope => Sys2Proof.Machine.execFence c ord scope s
  | .cctlL1inv c a off => Sys2Proof.Machine.execCctlL1inv c a off s
  | .cctlWb c a off => Sys2Proof.Machine.execCctlWb c a off s
  | .cctlIcore c => Sys2Proof.Machine.execCctlIcore c s
  | .cctlIdie c => Sys2Proof.Machine.execCctlIdie c s
  | .cctlIdev c => Sys2Proof.Machine.execCctlIdev c s
  | .pref c l2 a off => Sys2Proof.Machine.execPref c l2 a off s
  | .bra c off => Sys2Proof.Machine.execBra c off s
  | .brx c a => Sys2Proof.Machine.execBrx c a s
  | .call c off => Sys2Proof.Machine.execCall c off s
  | .callx c a => Sys2Proof.Machine.execCallx c a s
  | .ret c => Sys2Proof.Machine.execRet c s
  | .exit c => Sys2Proof.Machine.execExit c s
  | .yield c => Sys2Proof.Machine.execYield c s
  | .nop c => Sys2Proof.Machine.execNop c s
  | .jenter c j => Sys2Proof.Machine.execJenter c j s
  | .jenterF c j => Sys2Proof.Machine.execJenterF c j s
  | .jquit c j => Sys2Proof.Machine.execJquit c j s
  | .jwait c j => Sys2Proof.Machine.execJwait c j s
  | .jget c d j => Sys2Proof.Machine.execJget c d j s
  | .jput c j a => Sys2Proof.Machine.execJput c j a s
  | .barSync c b => Sys2Proof.Machine.execBarSync c b s
  | .barArrive c b => Sys2Proof.Machine.execBarArrive c b s
  | .barWait c b => Sys2Proof.Machine.execBarWait c b s
  | .trap c code => Sys2Proof.Machine.execTrap c code s
  | .brk c => Sys2Proof.Machine.execBrk c s
  | .bcopy c m t a b e => Sys2Proof.Machine.execBcopy c m t a b e s
  | .bcopyr c m rop t a b e => Sys2Proof.Machine.execBcopyr c m rop t a b e s
  | .xred c m t a => Sys2Proof.Machine.execXred c m t a s
  | .qfence c ch t base mask => Sys2Proof.Machine.execQfence c ch t base mask s
  | .qinit c q a log2n esz => Sys2Proof.Machine.execQinit c q a log2n esz s
  | .qpush c d8 p q b => Sys2Proof.Machine.execQpush c d8 p q b s
  | .qpop c d8 p q d => Sys2Proof.Machine.execQpop c d8 p q d s
  | .amode c rg tc a mask => Sys2Proof.Machine.execAmode c rg tc a mask s
  | .acfg c a6 sgc arr => Sys2Proof.Machine.execAcfg c a6 sgc arr s
  | .axm c m d a => Sys2Proof.Machine.execAxm c m d a s
  | .aqry c d a => Sys2Proof.Machine.execAqry c d a s
  | .aqryImmediate c d arr => Sys2Proof.Machine.execAqryImmediate c d arr s
  | .invoke c d a => Sys2Proof.Machine.execInvoke c d a s
  | .invokeCore c d a e => Sys2Proof.Machine.execInvokeCore c d a e s
  | .invokePark c d a e => Sys2Proof.Machine.execInvokePark c d a e s
  | .chain c d a b => Sys2Proof.Machine.execChain c d a b s
  | .await c p d b => Sys2Proof.Machine.execAwait c p d b s
  | .awaitT c p d b => Sys2Proof.Machine.execAwaitT c p d b s
  | .hpoll c p b => Sys2Proof.Machine.execHpoll c p b s
  | .hset c a => Sys2Proof.Machine.execHset c a s
  | .hbreak c code => Sys2Proof.Machine.execHbreak c code s
  | .hdrop c b => Sys2Proof.Machine.execHdrop c b s
  | .bjob c t a => Sys2Proof.Machine.execBjob c t a s
  | .sread c d n => Sys2Proof.Machine.execSread c d n s
  | .swrite c a => Sys2Proof.Machine.execSwrite c a s
  | .time c d => Sys2Proof.Machine.execTime c d s
  | .timeCc c d => Sys2Proof.Machine.execTimeCc c d s
  | .sleep c n => Sys2Proof.Machine.execSleep c n s
  | .sleepRegister c a => Sys2Proof.Machine.execSleepRegister c a s
  | .sleepAbs c a => Sys2Proof.Machine.execSleepAbs c a s
  | .stat c => Sys2Proof.Machine.execStat c s
  | .statOne c t => Sys2Proof.Machine.execStatOne c t s
  | .trapret c => Sys2Proof.Machine.execTrapret c s
  | .splitAged core pos pc => Sys2Proof.Machine.execSplitAged core pos pc s
  | .instructionFetch core pos pc => Sys2Proof.Machine.execInstructionFetch core pos pc s
  | .slotsFreedInvokeResume id => Sys2Proof.Machine.execSlotsFreedInvokeResume id s
  | .sleepWake core pos => Sys2Proof.Machine.execSleepWake core pos s
  | .registerWriteReturn id => Sys2Proof.Machine.execRegisterWriteReturn id s
  | .clusterPlace launch cores => Sys2Proof.Machine.execClusterPlace launch cores s
  | .workgroupRelease wg => Sys2Proof.Machine.execWorkgroupRelease wg s
  | .launchComplete launch => Sys2Proof.Machine.execLaunchComplete launch s
  | .amodeAccept id => Sys2Proof.Machine.execAmodeAccept id s
  | .arrayEnterCompute core phys parityFails => Sys2Proof.Machine.execArrayEnterCompute core phys parityFails s
  | .arrayEnterStorage core phys => Sys2Proof.Machine.execArrayEnterStorage core phys s
  | .arrayAccessAccept p => Sys2Proof.Machine.execArrayAccessAccept p s
  | .acfgAccept id => Sys2Proof.Machine.execAcfgAccept id s
  | .axmAccept id => Sys2Proof.Machine.execAxmAccept id s
  | .axmStart core phys repeats => Sys2Proof.Machine.execAxmStart core phys repeats s
  | .axmResultWrite core phys => Sys2Proof.Machine.execAxmResultWrite core phys s
  | .loadServed p leaseL2 leaseL1 => Sys2Proof.Machine.execLoadServed p leaseL2 leaseL1 s
  | .leaseExpire l2 unit sector => Sys2Proof.Machine.execLeaseExpire l2 unit sector s
  | .storeNoticeArrive n => Sys2Proof.Machine.execStoreNoticeArrive n s
  | .recall line => Sys2Proof.Machine.execRecall line s
  | .l2Eviction die line => Sys2Proof.Machine.execL2Eviction die line s
  | .atomicPerform p lease => Sys2Proof.Machine.execAtomicPerform p lease s
  | .releaseSend id => Sys2Proof.Machine.execReleaseSend id s
  | .acquireComplete core pos => Sys2Proof.Machine.execAcquireComplete core pos s
  | .fenceComplete core pos => Sys2Proof.Machine.execFenceComplete core pos s
  | .accessChecked id => Sys2Proof.Machine.execAccessChecked id s
  | .accessRefused id => Sys2Proof.Machine.execAccessRefused id s
  | .faultRollback core pos => Sys2Proof.Machine.execFaultRollback core pos s
  | .pageWalkComplete core ctx va => Sys2Proof.Machine.execPageWalkComplete core ctx va s
  | .tlbicGo v => Sys2Proof.Machine.execTlbicGo v s
  | .tlbInvalidationDone => Sys2Proof.Machine.execTlbInvalidationDone s
  | .copyEntryAccept id => Sys2Proof.Machine.execCopyEntryAccept id s
  | .copyEntryBegin m => Sys2Proof.Machine.execCopyEntryBegin m s
  | .copyEntryComplete id => Sys2Proof.Machine.execCopyEntryComplete id s
  | .copyTranslationFault id => Sys2Proof.Machine.execCopyTranslationFault id s
  | .qctlAbort q => Sys2Proof.Machine.execQctlAbort q s
  | .qctlResume q => Sys2Proof.Machine.execQctlResume q s
  | .qctlBind q bound ctx => Sys2Proof.Machine.execQctlBind q bound ctx s
  | .reductionMessageArrive q seq chunk => Sys2Proof.Machine.execReductionMessageArrive q seq chunk s
  | .floorNoticeArrive slice q seq chunk => Sys2Proof.Machine.execFloorNoticeArrive slice q seq chunk s
  | .reductionAckArrive q seq chunk => Sys2Proof.Machine.execReductionAckArrive q seq chunk s
  | .reductionResend q seq chunk => Sys2Proof.Machine.execReductionResend q seq chunk s
  | .qfenceMarkersLeave id => Sys2Proof.Machine.execQfenceMarkersLeave id s
  | .xredPhase1Complete group epoch peers => Sys2Proof.Machine.execXredPhase1Complete group epoch peers s
  | .xredEntryComplete m => Sys2Proof.Machine.execXredEntryComplete m s
  | .peerWriteReceive port ctx va data => Sys2Proof.Machine.execPeerWriteReceive port ctx va data s
  | .peerAcknowledge id elem refused => Sys2Proof.Machine.execPeerAcknowledge id elem refused s
  | .linkRetryExhausted id elem => Sys2Proof.Machine.execLinkRetryExhausted id elem s
  | .parkArrive handle => Sys2Proof.Machine.execParkArrive handle s
  | .taskDispatch core => Sys2Proof.Machine.execTaskDispatch core s
  | .handleResolve handle => Sys2Proof.Machine.execHandleResolve handle s
  | .successorDecrement handle second => Sys2Proof.Machine.execSuccessorDecrement handle second s
  | .decrementAcknowledge handle => Sys2Proof.Machine.execDecrementAcknowledge handle s
  | .handleMessageArrive id => Sys2Proof.Machine.execHandleMessageArrive id s
  | .chainListRun handle => Sys2Proof.Machine.execChainListRun handle s
  | .awaitWake handle => Sys2Proof.Machine.execAwaitWake handle s
  | .bankCardAccept id => Sys2Proof.Machine.execBankCardAccept id s
  | .bankCardClean id => Sys2Proof.Machine.execBankCardClean id s
  | .bankCardRun id run => Sys2Proof.Machine.execBankCardRun id run s
  | .bankCardDone id => Sys2Proof.Machine.execBankCardDone id s
  | .ptpMessageReceive link ns => Sys2Proof.Machine.execPtpMessageReceive link ns s
  | .hold => Sys2Proof.Machine.execHold s
  | .tmctlWrite v => Sys2Proof.Machine.execTmctlWrite v s
  | .timetableLaunchFiring n => Sys2Proof.Machine.execTimetableLaunchFiring n s
  | .timetableGangSwitchFiring n => Sys2Proof.Machine.execTimetableGangSwitchFiring n s
  | .timetableStopFiring n => Sys2Proof.Machine.execTimetableStopFiring n s
  | .deferredFiringAct n => Sys2Proof.Machine.execDeferredFiringAct n s
  | .ttctlArm n v => Sys2Proof.Machine.execTtctlArm n v s
  | .timetableEntryWrite n word v => Sys2Proof.Machine.execTimetableEntryWrite n word v s
  | .stagingStart n => Sys2Proof.Machine.execStagingStart n s
  | .warpStop core pos => Sys2Proof.Machine.execWarpStop core pos s
  | .switchStopDeadline => Sys2Proof.Machine.execSwitchStopDeadline s
  | .queuePause q => Sys2Proof.Machine.execQueuePause q s
  | .switchSaveComplete => Sys2Proof.Machine.execSwitchSaveComplete s
  | .switchIn => Sys2Proof.Machine.execSwitchIn s
  | .ctxdActivate n v => Sys2Proof.Machine.execCtxdActivate n v s
  | .ctxdTeardown n => Sys2Proof.Machine.execCtxdTeardown n s
  | .contextStopDone n => Sys2Proof.Machine.execContextStopDone n s
  | .partReset u => Sys2Proof.Machine.execPartReset u s
  | .dieReset d => Sys2Proof.Machine.execDieReset d s
  | .dieResetReturn d => Sys2Proof.Machine.execDieResetReturn d s
  | .overlimitReset u => Sys2Proof.Machine.execOverlimitReset u s
  | .atctlGo v => Sys2Proof.Machine.execAtctlGo v s
  | .atctlClear v => Sys2Proof.Machine.execAtctlClear v s
  | .attestationReportDone => Sys2Proof.Machine.execAttestationReportDone s
  | .attestInputWrite off v => Sys2Proof.Machine.execAttestInputWrite off v s
  | .hostMemRead off n => Sys2Proof.Machine.execHostMemRead off n s
  | .hostMemWrite off data => Sys2Proof.Machine.execHostMemWrite off data s
  | .hostRegisterBadWidth write => Sys2Proof.Machine.execHostRegisterBadWidth write s
  | .registerWrite r wide v => Sys2Proof.Machine.execRegisterWrite r wide v s
  | .softError x => Sys2Proof.Machine.execSoftError x s
  | .cxlCacheAcknowledgement p => Sys2Proof.Machine.execCxlCacheAcknowledgement p s
  | .bootclr => Sys2Proof.Machine.execBootclr s
  | .powerLimitExceeded => Sys2Proof.Machine.execPowerLimitExceeded s
  | .powerWithinLimits => Sys2Proof.Machine.execPowerWithinLimits s

end Sys2Proof.Machine
end

