-- ==== Sys2Proof/Machine/Names.lean ====
section
/-! DEFINITION. What an instruction names: its guard and controls, the registers and predicates it reads and writes (R34, R36, R51), and the issue
resource it needs with its occupancy and the delay of its result (R35, R59). -/

namespace Sys2Proof.Machine

/-- The controls of an instruction form; events have none. -/
def instrCtl (i : Instr) : Option Ctl := i.toRaw.map Raw.ctl

/-- The opcode of an instruction form. -/
def instrOp (i : Instr) : Nat := match i.toRaw with
  | some r => r.op.toNat
  | none => 0

/-- The registers and predicates an instruction reads and writes; the guard comes with `instrUse`. -/
structure Use where
  reads : List Reg
  writes : List Reg
  preads : List PReg
  pwrites : List PReg
deriving DecidableEq, Repr

/-- A register or, for a 64-bit form, its pair. -/
def wide (w : Bool) (r : Reg) : List Reg := if w then pairRegs r else [r]

/-- Reads and writes of vector registers only. -/
def Use.regs (reads writes : List Reg) : Use := ⟨reads, writes, [], []⟩
/-- Nothing beside the guard. -/
def Use.none : Use := ⟨[], [], [], []⟩

/-- What an instruction names beside its guard (R34, R61, R62, R101, R157, R232, R249, R282, R306, R352, R367). -/
def operandUse : Instr → Use
  | .iadd _ m d a b | .isub _ m d a b | .imul _ m d a b | .imulh _ m d a b | .imin _ m d a b | .imax _ m d a b =>
      .regs (wide m.w a ++ wide m.w b) (wide m.w d)
  | .iaddImmediate _ m d a _ | .isubImmediate _ m d a _ | .imulImmediate _ m d a _ | .imulhImmediate _ m d a _ | .iminImmediate _ m d a _
  | .imaxImmediate _ m d a _ | .iabs _ m d a | .ineg _ m d a => .regs (wide m.w a) (wide m.w d)
  | .imad _ m d a b e => .regs (wide m.w a ++ wide m.w b ++ wide m.w e) (wide m.w d)
  | .imadImmediate _ m d a _ e => .regs (wide m.w a ++ wide m.w e) (wide m.w d)
  | .and _ w d a b | .or _ w d a b | .xor _ w d a b => .regs (wide w a ++ wide w b) (wide w d)
  | .andImmediate _ w d a _ | .orImmediate _ w d a _ | .xorImmediate _ w d a _ | .not _ w d a | .shlImmediate _ w d a _ | .shrImmediate _ w d a _
  | .sarImmediate _ w d a _ | .popc _ w d a | .clz _ w d a | .brev _ w d a | .bfe _ w _ d a _ _ | .mov _ w d a
  | .leaImmediate _ w d a _ _ => .regs (wide w a) (wide w d)
  | .shl _ w d a b | .shr _ w d a b | .sar _ w d a b | .lea _ w _ d a b _ => .regs (wide w a ++ [b]) (wide w d)
  | .bfi _ w d a e _ _ => .regs (wide w a ++ wide w e) (wide w d)
  | .icmp _ w _ _ p a b => ⟨wide w a ++ wide w b, [], [], [p]⟩
  | .icmpImmediate _ w _ _ p a _ => ⟨wide w a, [], [], [p]⟩
  | .sel _ d a b p => ⟨[a, b], [d], [p], []⟩
  | .selImmediate _ d a _ p => ⟨[a], [d], [p], []⟩
  | .fadd _ _ d a b | .fsub _ _ d a b | .fmul _ _ d a b | .fmin _ _ d a b | .fmax _ _ d a b | .hadd2 _ _ d a b | .hmul2 _ _ d a b
  | .hmin2 _ _ d a b | .hmax2 _ _ d a b | .lanex _ _ _ d a b => .regs [a, b] [d]
  | .faddImmediate _ _ d a _ | .fsubImmediate _ _ d a _ | .fmulImmediate _ _ d a _ | .fminImmediate _ _ d a _ | .fmaxImmediate _ _ d a _
  | .hadd2Immediate _ _ d a _ | .hmul2Immediate _ _ d a _ | .hmin2Immediate _ _ d a _ | .hmax2Immediate _ _ d a _
  | .frcp _ _ d a | .frsq _ _ d a | .fsqrt _ _ d a | .fex2 _ _ d a | .flg2 _ _ d a | .fsin _ _ d a | .fcos _ _ d a | .frnd _ _ d a
  | .cvt _ _ _ _ d a | .lanexImmediate _ _ _ d a _ | .unif _ d a | .shape _ d a => .regs [a] [d]
  | .ffma _ _ d a b e | .hfma2 _ _ d a b e => .regs [a, b, e] [d]
  | .ffmaImmediate _ _ d a _ e | .hfma2Immediate _ _ d a _ e => .regs [a, e] [d]
  | .fcmp _ _ _ p a b => ⟨[a, b], [], [], [p]⟩
  | .fcmpImmediate _ _ _ p a _ | .fclass _ p a _ => ⟨[a], [], [], [p]⟩
  | .movi _ w d _ => .regs [] (wide w d)
  | .vote _ form d p => if form = 3 then ⟨[], regBlock d 4, [p], []⟩ else ⟨[], [], [p], [d.setWidth 3]⟩
  | .pset _ opc p x y => if opc = 4 then ⟨[x], [], [], [p]⟩ else ⟨[], [], [x.setWidth 3, y.setWidth 3], [p]⟩
  | .pcnt _ _ d p => ⟨[], [d], [p], []⟩
  | .ld _ m d a => .regs (pairRegs a) (dataRegs d m.sz)
  | .st _ m a b => .regs (pairRegs a ++ dataRegs b m.sz) []
  | .lds _ m d a => .regs [a] (dataRegs d m.sz)
  | .sts _ m a b => .regs (a :: dataRegs b m.sz) []
  | .ldx _ m d a k => .regs [a, k] (dataRegs d m.sz)
  | .stx _ m a b k => .regs (a :: k :: dataRegs b m.sz) []
  | .atom _ m op d a b => .regs (pairRegs a ++ atomRegs op m.sz b) (dataRegs d m.sz)
  | .atoms _ m op d a b => .regs (a :: atomRegs op m.sz b) (dataRegs d m.sz)
  | .atomsCluster _ m op d a b k => .regs (a :: k :: atomRegs op m.sz b) (dataRegs d m.sz)
  | .red _ m op a b => .regs (pairRegs a ++ atomRegs op m.sz b) []
  | .cctlL1inv _ a _ | .cctlWb _ a _ | .pref _ _ a _ | .brx _ a | .hset _ a | .sleepAbs _ a => .regs (pairRegs a) []
  | .call _ _ => .regs [] [62]
  | .callx _ a => .regs (pairRegs a) [62]
  | .ret _ => .regs [62] []
  | .jget _ d _ => .regs [] [d]
  | .jput _ _ a | .swrite _ a | .sleepRegister _ a | .qinit _ _ a _ _ => .regs [a] []
  | .bcopy _ m t a b e | .bcopyr _ m _ t a b e => .regs (pairRegs a ++ CMod.names m b e) [t]
  | .xred _ _ t a | .bjob _ t a => .regs (pairRegs a) [t]
  | .qfence _ _ t _ _ => .regs [] [t]
  | .qpush _ d8 p _ b => ⟨wide d8 b, [], [], [p]⟩
  | .qpop _ d8 p _ d => ⟨[], wide d8 d, [], [p]⟩
  | .amode _ rg _ a _ => .regs (if rg then [a] else []) []
  | .axm _ m d a => .regs (axmA m a ++ axmD m d) (axmD m d)
  | .aqry _ d a => .regs [a] [d]
  | .aqryImmediate _ d _ => .regs [] [d]
  | .invoke _ d a => .regs (pairRegs a) (pairRegs d)
  | .invokeCore _ d a e => .regs (pairRegs a ++ [e]) (pairRegs d)
  | .invokePark _ d a e => .regs (pairRegs a ++ pairRegs e) (pairRegs d)
  | .chain _ d a b => .regs (pairRegs a ++ pairRegs b) (pairRegs d)
  | .await _ p d b | .awaitT _ p d b => ⟨pairRegs b, pairRegs d, [], [p]⟩
  | .hpoll _ p b => ⟨pairRegs b, [], [], [p]⟩
  | .hdrop _ b => .regs (pairRegs b) []
  | .sread _ d n => .regs [] (wide (WellFormed.sregWide n) d)
  | .time _ d | .timeCc _ d => .regs [] (pairRegs d)
  | .fence .. | .cctlIcore .. | .cctlIdie .. | .cctlIdev .. | .bra .. | .exit .. | .yield .. | .nop .. | .jenter .. | .jenterF .. | .jquit ..
  | .jwait .. | .barSync .. | .barArrive .. | .barWait .. | .trap .. | .brk .. | .acfg .. | .hbreak .. | .sleep .. | .stat .. | .statOne ..
  | .trapret .. => .none
  | .splitAged .. | .instructionFetch .. | .slotsFreedInvokeResume .. | .sleepWake .. | .registerWriteReturn ..
  | .clusterPlace .. | .workgroupRelease .. | .launchComplete .. | .amodeAccept .. | .arrayEnterCompute ..
  | .arrayEnterStorage .. | .arrayAccessAccept .. | .acfgAccept .. | .axmAccept .. | .axmStart ..
  | .axmResultWrite .. | .loadServed .. | .leaseExpire .. | .storeNoticeArrive .. | .recall .. | .l2Eviction ..
  | .atomicPerform .. | .releaseSend .. | .acquireComplete .. | .fenceComplete .. | .accessChecked ..
  | .accessRefused .. | .faultRollback .. | .pageWalkComplete .. | .tlbicGo .. | .tlbInvalidationDone
  | .copyEntryAccept .. | .copyEntryBegin .. | .copyEntryComplete .. | .copyTranslationFault .. | .qctlAbort ..
  | .qctlResume .. | .qctlBind .. | .reductionMessageArrive .. | .floorNoticeArrive .. | .reductionAckArrive ..
  | .reductionResend .. | .qfenceMarkersLeave .. | .xredPhase1Complete .. | .xredEntryComplete ..
  | .peerWriteReceive .. | .peerAcknowledge .. | .linkRetryExhausted .. | .parkArrive .. | .taskDispatch ..
  | .handleResolve .. | .successorDecrement .. | .decrementAcknowledge .. | .handleMessageArrive ..
  | .chainListRun .. | .awaitWake .. | .bankCardAccept .. | .bankCardClean .. | .bankCardRun .. | .bankCardDone ..
  | .ptpMessageReceive .. | .hold | .tmctlWrite .. | .timetableLaunchFiring .. | .timetableGangSwitchFiring ..
  | .timetableStopFiring .. | .deferredFiringAct .. | .ttctlArm .. | .timetableEntryWrite .. | .stagingStart ..
  | .warpStop .. | .switchStopDeadline | .queuePause .. | .switchSaveComplete | .switchIn | .ctxdActivate ..
  | .ctxdTeardown .. | .contextStopDone .. | .partReset .. | .dieReset .. | .dieResetReturn .. | .bootclr
  | .powerLimitExceeded | .overlimitReset .. | .atctlGo .. | .atctlClear .. | .attestationReportDone
  | .attestInputWrite .. | .hostMemRead .. | .hostMemWrite .. | .hostRegisterBadWidth .. | .registerWrite ..
  | .softError .. | .powerWithinLimits | .cxlCacheAcknowledgement .. => .none

/-- What an instruction names, its guard among the predicates it reads (R34). -/
def instrUse (i : Instr) : Use :=
  let u := operandUse i
  match instrCtl i with
  | some c => { u with preads := c.g :: u.preads }
  | none => u

/-- Every register an instruction names. -/
def Use.allRegs (u : Use) : List Reg := u.reads ++ u.writes
/-- Every predicate an instruction names; p7 is a constant. -/
def Use.allPreds (u : Use) : List PReg := (u.preads ++ u.pwrites).filter (· != 7)

/-! ## Issue resources (R35, R59) -/

/-- The six resources of a partition. -/
inductive Resource where
  | scalar
  | int
  | fma
  | sfu
  | mem
  | control
deriving DecidableEq, Repr

/-- The place of a resource in a partition's list. -/
def Resource.idx : Resource → Nat
  | .scalar => 0
  | .int => 1
  | .fma => 2
  | .sfu => 3
  | .mem => 4
  | .control => 5

/-- The pipe an opcode goes to when it does not take the scalar path (R35). -/
def opResource (op : Nat) : Resource :=
  if op < 0x20 then .int
  else if 0x28 ≤ op ∧ op ≤ 0x2E then .sfu
  else if op < 0x40 then .fma
  else if op < 0x50 then .int
  else if op < 0x70 then .mem
  else .control

/-- With an A source among U and A sources, the forms that stay affine (R59, R328): the first source may be A, the second and, for `IMAD`, b must be U. `MOV.W`
is among the `.W` forms of R59's last row: with an A half it gives G on the lane pipe (log 58). -/
def staysAffine (s : State) : Instr → Bool
  | .iadd _ m _ _ _ | .isub _ m _ _ _ | .iaddImmediate _ m _ _ _ | .isubImmediate _ m _ _ _ => !m.w && !m.sat
  | .ineg _ m _ _ => !m.w && !m.sat
  | .imul _ m _ _ b => !m.w && !m.sat && (s.reg b).isU
  | .imulImmediate _ m _ _ _ => !m.w && !m.sat
  | .imad _ m _ _ b _ => !m.w && !m.sat && (s.reg b).isU
  | .imadImmediate _ m _ _ _ _ => !m.w && !m.sat
  | .shl _ w _ _ b => !w && (s.reg b).isU
  | .shlImmediate _ w _ _ _ => !w
  | .mov _ w _ _ => !w
  | .unif _ _ _ => true
  | .shape _ _ _ => true
  | _ => false

/-- The instruction takes the scalar path (R35, R59, R343, R346, R354, R356, R358, R367): its sources are U or A and its result is. A load with a U address, of which R35 and R59
speak both ways, takes the memory port (log 72). -/
def scalarPath (s : State) (i : Instr) : Bool :=
  let rs := (operandUse i).reads
  match i with
  | .lanex .. | .lanexImmediate .. | .jget .. => false
  | .pset _ opc _ x _ => opc == 4 && (s.reg x).isU
  | .pcnt _ pfx _ _ => !pfx
  | .sel _ _ a b p => p == 7 && (s.reg a).isU && (s.reg b).isU
  | .selImmediate _ _ a _ p => p == 7 && (s.reg a).isU
  | .sread _ d n => (s.special d n.toNat).any fun ws => ws.all fun w => !w.val.isG
  | .time .. | .timeCc .. => true
  | i => (decide (instrOp i < 0x50) && opResource (instrOp i) != .sfu) && rs.all (fun r => !(s.reg r).isG)
      && (rs.all (fun r => (s.reg r).isU) || staysAffine s i)

/-- The groups of n lanes with an active lane, at least one (R35). -/
def laneGroups (act : Mask) (n : Nat) : Nat :=
  max 1 ((List.range (laneCount / n)).filter fun g => (List.range n).any fun l => act.getLsbD (n * g + l)).length

/-- The resource an instruction needs, its occupancy and, for results that come a fixed time after issue, that time (R35, R281, R346, R356, R358,
R364). -/
def resourceOf (s : State) (i : Instr) (act : Mask) : Resource × Nat × Option Nat :=
  let g := laneGroups act 32
  if scalarPath s i then (.scalar, 1, some 1)
  else match i with
    | .pset _ opc _ _ _ => if opc = 4 then (.int, g, some (g + 2)) else (.int, 1, some 3)
    | .unif .. => (.int, 4, some 6)
    | .shape .. => (.int, 1, some 3)
    | .sread .. => (.int, g, some (g + 2))
    | .aqry .. | .aqryImmediate .. => (.control, 1, some 2)
    | i => match opResource (instrOp i) with
      | .int => (.int, g, some (g + 2))
      | .fma => (.fma, g, some (g + 4))
      | .sfu => (.sfu, laneGroups act 8, some (laneGroups act 8 + 6))
      | .mem => (.mem, 1, none)
      | _ => (.control, 1, none)

end Sys2Proof.Machine
end

