-- ==== Sys2Proof/Machine/Pick.lean ====
section
/-! DEFINITION. Eligibility and the pick of a partition (R33 to R40, R133, R137 to R139, R206, R219, R220, R227, R228, R293, R320, R364), and what an issue
leaves behind (R35 to R39, R226, R230, R238). -/

namespace Sys2Proof.Machine

/-! ## Eligibility -/

/-- A pending write is still due in cc `t`. -/
def Pend.due (p : Pend) (t : Nat) : Bool := match p.ready with
  | some r => decide (t < r)
  | none => true

/-- A pending write meets names (R34); register 60 is the record register in handler mode and a general one outside it (R232). -/
def Pend.hits (p : Pend) (hdl : Bool) (rs : List Reg) (ps : List PReg) : Bool :=
  rs.any (fun r => p.regs.contains r && (r != 60 || p.hdl == hdl)) || ps.any fun q => p.preds.contains q

/-- The instruction names no register or predicate with a write pending (R34). -/
def State.namesFree (s : State) (u : Use) : Bool :=
  !(s.cur.pends.any fun p => p.due (s.ccOf (dieOfCore s.cur.core)) && p.hits s.cur.inHandler u.allRegs u.allPreds)

/-- The opcodes of instructions whose effect leaves the warp: they wait while an access is unchecked (R228, R309). -/
def leavesWarp (op : Nat) : Bool :=
  [0x53, 0x55, 0x57, 0x5A, 0x75, 0x7D, 0x80, 0x81, 0x82, 0x83, 0x84, 0x85, 0x86, 0x90, 0x91, 0x92, 0xA0, 0xA1, 0xA4, 0xA5, 0xA6, 0xB0, 0xC1, 0xC3, 0xC4].contains op

/-- The opcodes that an unmet release of `FENCE` holds (R320): stores, atomics, reductions, copies, `INVOKE`, `CHAIN`, `BJOB`. -/
def afterRelease (op : Nat) : Bool :=
  [0x51, 0x53, 0x55, 0x56, 0x57, 0x58, 0x80, 0x81, 0x82, 0x83, 0xA0, 0xA1, 0xB0].contains op

/-- The memory opcodes 0x50 to 0xB7 (R138, R320). -/
def memoryOp (op : Nat) : Bool := decide (0x50 ≤ op) && decide (op ≤ 0xB7)

/-- The requests of the warp in focus. -/
def State.myReqs (s : State) : List Req := s.reqs.filter fun r => r.uid == s.cur.uid

/-- An acquire or a release of the warp in focus is not over: later memory instructions wait (R137, R138). An acquiring access is over once its value has returned; an
`HPOLL` that is not answered may be an acquire (R147, R325). -/
def State.ordered (s : State) : Bool :=
  decide (s.myTide < s.cur.acqUntil)
    || (s.myReqs.any fun r => match r.kind with
        | .mem m => (m.acq && (m.owes || m.lanes.any fun x => x.left != 0)) || (m.rel && !s.released r m)
        | .hpoll _ _ => true
        | _ => false)
    || s.copy.entries.any fun e => e.uid == s.cur.uid && !s.entryReleased e

/-- The unmet fences of the warp in focus hold an opcode (R320). -/
def State.fenced (s : State) (op : Nat) : Bool :=
  s.cur.fences.any fun f => (f.acq && f.rel) || (f.rel && afterRelease op) || (f.acq && memoryOp op)

/-- A lane of the warp in focus has a store, atomic or reduction of a byte of [pa, pa + n) that has not been made where its loads read it (R133, R169). -/
def State.ownStore (s : State) (l : Nat) (cp : BitVec 2) (pa n : Nat) : Bool := s.myReqs.any fun r => match r.mem? with
  | some m => m.space == .global && !m.isLoad && m.lanes.any fun x =>
      x.lane == l && x.meetsAny m.sz (if bypasses cp pa then x.left ||| x.far else x.left) pa n
  | none => false

/-- The blocks of n bytes that active lanes read at issue hold no byte that the lane itself has still to write. -/
def State.readMay (s : State) (act : Mask) (a : Reg) (n : Nat) : Bool := (maskLanes act).all fun l =>
  match s.globalLane s.cur.core s.cur.ctx ⟨true, false⟩ l (s.rdPair a l) with
  | .ok p => !s.ownStore l p.2 p.1 n
  | .error _ => true

/-- An `AMODE` of the warp in focus that an array has not accepted. -/
def State.amodeComing (s : State) (p : List Nat → Bool → Bool) : Bool := s.myReqs.any fun r => match r.kind with
  | .amode ts compute => p ts compute
  | _ => false

/-- An `AXM` waits while its array enters compute, while an `AMODE.C` of its warp has not taken it there, or while it holds four (R100, R220, R290). -/
def State.axmMay (s : State) (j : Nat) : Bool := match s.myArray j with
  | some a =>
    let coming := s.reqs.filter fun r => match r.kind with | .axm p _ _ => r.core == a.core && p == a.phys | _ => false
    a.mode != 2 && !(s.amodeComing fun ts compute => compute && ts.contains a.phys) && !a.queue.contains (.mode true s.cur.uid)
      && decide (a.axms.length + coming.length < 4)
  | none => true

/-- A `QFENCE` waits for room on its queues and for those that are paused (R161): the spec counts a marker as an entry and states no wait, so this is the model's
choice (log 24). One that faults, for a queue that is not bound to its context (R151), or does nothing does not wait. -/
def State.qfenceMay (s : State) (c : Ctl) (qs : List Nat) : Bool :=
  s.act c == 0 || !(qs.all fun q => s.boundTo q s.cur.ctx) || qs.all fun q => decide (s.depth q < 64) && !(s.queueRec q).paused

/-- The conditions that instructions add to R34 of their own. A lane's read of a record or a card finds its own earlier stores (R133, R169). -/
def State.mayStart (s : State) (i : Instr) : Bool := match i with
  | .barArrive _ b => s.mayArrive s.cur && !(s.barAt b).deferred.getLsbD s.cur.index
  | .axm _ m _ _ => s.axmMay m.arr.toNat
  | .invoke c _ a | .invokeCore c _ a _ | .invokePark c _ a _ | .chain c _ a _ | .bjob c _ a => s.readMay (s.act c) a 64
  | .qfence c _ _ base mask => s.qfenceMay c (fenceQueues base mask)
  | .qpush .. | .qpop .. => !(s.amodeComing fun _ _ => true)
  | .time .. | .timeCc .. => !(s.cur.pends.any fun p => p.due (s.ccOf (dieOfCore s.cur.core)))
  | _ => true

/-- A gang switch lets the warp in focus issue an opcode (R219). -/
def State.switchMay (s : State) (op : Nat) : Bool := !s.switchOn (dieOfCore s.cur.core) || !([0x80, 0x81, 0x82, 0x92, 0xA0, 0xA1, 0xB0].contains op)

/-- The instruction in place may issue (R34, R137 to R139, R219, R227, R228, R320). -/
def State.mayIssueInstr (s : State) (i : Instr) : Bool :=
  let op := instrOp i
  let unchecked := (s.unchecked s.cur.uid).length
  s.namesFree (instrUse i)
    && !(memoryOp op && decide (32 ≤ unchecked))
    && !(leavesWarp op && unchecked != 0)
    && !(memoryOp op && s.ordered)
    && !s.fenced op
    && s.switchMay op
    && s.mayStart i

/-- The instruction at the PC in focus, if its words can be fetched and are one. -/
def State.peek (s : State) : Option Instr := match s.fetchSplit with
  | .error _ => none
  | .ok (bs, _) => (decode bs).map (·.1)

/-- The split in focus (warp `cur`, PC `ipc`) stands there and its warp may issue (R33, R219, R229, R233). -/
def State.present (s : State) : Bool :=
  s.mayIssue s.cur && !s.cur.stalled && s.split != 0
    && (match s.cur.arch.handler with | some h => h.blk.isNone && !s.switchOn (dieOfCore s.cur.core) | none => true)

/-- The split in focus may be considered: it is there, and nothing holds its lanes (R33, R158, R177, R206, R219, R320). -/
def State.unheld (s : State) : Bool :=
  let w := s.cur
  let m := s.split
  s.present
    && !(w.holds.any fun h => h.mask &&& m != 0)
    && (!s.switchOn (dieOfCore w.core) || w.atSafe (w.safePoints s.switchTables) &&& m == 0)
    && !(w.fences.any fun f => f.acq && f.rel)

/-- The split in focus is eligible (R34). Words that cannot be fetched, or are no instruction, name nothing: they trap when they issue. -/
def State.eligible (s : State) : Bool := s.unheld && match s.peek with
  | some i => s.mayIssueInstr i
  | none => true

/-- The state with a candidate in focus. -/
def State.at' (s : State) (c : Cand) : State := { s.focus c.uid with ipc := c.pc }

/-! ## The pick (R36 to R39) -/

/-- The PCs of a warp's splits (R33). -/
def Warp.splitPcs (w : Warp) : List DWord := match w.arch.handler with
  | some h => [h.pc]
  | none => (((List.range laneCount).filter fun l => (w.lane l).runnable && !w.acted.getLsbD l).map fun l => (w.lane l).pc).eraseDups

/-- The warps of a partition. -/
def State.partWarps (s : State) (core part : Nat) : List Warp := s.warps.filter fun w => w.core == core && w.pos % 8 == part && s.mayIssue w

/-- The PCs of the eligible splits of a warp. -/
def State.eligiblePcs (s : State) (w : Warp) : List DWord := w.splitPcs.filter fun pc => (s.at' ⟨w.uid, pc⟩).eligible

/-- A split holds a yield-marked lane (R39). -/
def Warp.marked (w : Warp) (pc : DWord) : Bool := (maskLanes (w.splitAt pc)).any fun l => (w.lane l).ym && !w.ymNew.getLsbD l

/-- The yield marks of a warp apply in this cycle: some eligible split holds none (R39). -/
def marksApply (w : Warp) (pcs : List DWord) : Bool := pcs.any (w.marked ·) && pcs.any fun pc => !w.marked pc

/-- The place of a warp's eligible split in its partition's list (R38) as a number: aged splits by age, distance and PC, then the others by rank and
distance. -/
def State.listKey (s : State) (w : Warp) (pcs : List DWord) (pc : DWord) : Nat :=
  let dist := (w.pos / 8 + 12 - s.ccOf (dieOfCore w.core) % 12) % 12
  let last (p : DWord) : Bool := marksApply w pcs && w.marked p
  let before (p : DWord) : Bool := !w.aged (w.splitAt p) && ((!last p && last pc) || (last p == last pc && decide (p < pc)))
  if w.aged (w.splitAt pc) then (65535 - w.age (w.splitAt pc)) * 2 ^ 80 + dist * 2 ^ 64 + pc.toNat
  else 2 ^ 100 + (pcs.filter before).length * 2 ^ 64 + dist

/-- The candidates of a partition, in order (R38). -/
def State.candidates (s : State) (core part : Nat) : List Cand :=
  let all := (s.partWarps core part).flatMap fun w =>
    let pcs := s.eligiblePcs w
    pcs.map fun pc => (s.listKey w pcs pc, Cand.mk w.uid pc)
  (all.foldl (fun l c => putKey Prod.fst c l) []).map (·.2)

/-- The record of a partition. -/
def State.partOf (s : State) (core part : Nat) : Partition :=
  (s.parts.find? fun p => p.core == core && p.part == part).getD ⟨core, part, [0, 0, 0, 0, 0, 0], none, []⟩
/-- Put the record of a partition. -/
def State.putPart (s : State) (p : Partition) : State :=
  { s with parts := p :: s.parts.filter fun q => !(q.core == p.core && q.part == p.part) }

/-- The yield marks of a warp are used in this cycle: they go at its end (R39). -/
def State.useMarks (s : State) (w : Warp) : Warp := if marksApply w (s.eligiblePcs w) then { w with ymUse := true } else w

/-- Two instructions conflict (R36): one names what the other writes. -/
def Started.conflicts (x : Started) (u : Use) : Bool :=
  x.names.any u.writes.contains || x.writes.any u.allRegs.contains || x.pnames.any u.pwrites.contains
    || x.pwrites.any u.allPreds.contains

/-- The partition after a start (R35, R36). -/
def Partition.start (p : Partition) (uid cc : Nat) (u : Use) (r : Resource × Nat × Option Nat) : Partition :=
  { p with
    busy := p.busy.set r.1.idx (cc + r.2.1)
    started := p.started ++ [⟨uid, u.allRegs, u.writes, u.allPreds, u.pwrites⟩] }

/-- The active lanes of an instruction. -/
def State.actOf (s : State) (i : Instr) : Mask := match instrCtl i with | some c => s.act c | none => 0

/-- A candidate starts (R35, R36): its split is there, its resource is free, no register it names has a write pending, and it conflicts with no split of its warp
started in this cycle. -/
def State.canStart (s : State) (p : Partition) (c : Cand) : Bool :=
  let st := s.at' c
  st.cur.uid == c.uid && st.present && (match st.peek with
    | none => true
    | some i =>
      let u := instrUse i
      st.namesFree u && decide (p.busy.getD (resourceOf st i (st.actOf i)).1.idx 0 ≤ s.ccOf (dieOfCore p.core))
        && !(p.started.any fun x => x.uid == c.uid && x.conflicts u))

/-- A partition with a candidate started. -/
def State.startsIn (s : State) (p : Partition) (c : Cand) : Partition :=
  let st := s.at' c
  match st.peek with
  | some i => p.start c.uid (s.ccOf (dieOfCore p.core)) (instrUse i) (resourceOf st i (st.actOf i))
  | none => { p with started := p.started ++ [⟨c.uid, [], [], [], []⟩] }

/-- The starts a partition makes in a cycle: four (R35); one while the power manager lowers the issue rate (R17). -/
def State.startLimit (s : State) : Nat := if s.throttled then 1 else 4

/-- The walk of R38 along a list: each candidate that can start beside those chosen before it, up to the limit. -/
def State.walk (s : State) : Partition → List Cand → List Cand
  | _, [] => []
  | p, c :: cs =>
    if s.startLimit ≤ p.started.length then []
    else if s.canStart p c then c :: s.walk (s.startsIn p c) cs
    else s.walk p cs

/-! ## Issue -/

/-- The split took a trap, or waits for one to be taken: what it was doing ended there. -/
def State.trapped (s0 s1 : State) : Bool :=
  s1.cur.stalled || (s1.cur.inHandler && !s0.cur.inHandler) || s1.cur.hasExited

/-- A source register of an instruction fails when it is read (R238). -/
def State.failsRead (s : State) (i : Instr) : Bool :=
  (match instrCtl i with | some c => s.act c != 0 | none => false)
    && (operandUse i).reads.any fun r => s.cur.arch.bad.getLsbD r.toNat && !(s.cur.inHandler && r == 60)

/-- The instruction did not issue: its trap waits for older accesses (R229), or its lanes wait for slots (R177). -/
def State.unissued (s0 s1 : State) : Bool :=
  s1.cur.stalled || (decide (s0.cur.holds.length < s1.cur.holds.length) && match s1.cur.holds.getLast? with
    | some h => (match h.kind with | .slots _ => true | _ => false)
    | none => false)

/-- What an issue leaves in the warp (R33, R34, R37): its lanes have issued in this cc, with wait count 0 outside the handler and unless it trapped in place,
and a result that comes later is pending. -/
def State.afterIssue (s0 s1 : State) (i : Instr) : Warp :=
  let w := s1.cur
  let m := s0.split
  let here := match w.arch.handler with | some h => h.epc == s0.ipc && !s0.cur.inHandler | none => false
  let w1 := if s0.cur.inHandler || here then w else w.mapLanes m fun _ x => { x with wait := 0 }
  let act := match instrCtl i with | some c => s0.act c | none => 0
  let u := operandUse i
  let query := match i with | .aqry .. | .aqryImmediate .. => true | _ => false
  match (resourceOf s0 i act).2.2 with
  | some d =>
    if act = 0 || s0.trapped s1 then { w1 with acted := w1.acted ||| m }
    else { w1 with
      acted := w1.acted ||| m
      pends := w1.pends ++ [⟨0, u.writes, u.pwrites, false, some (s0.ccOf (dieOfCore w.core) + d), query, s0.cur.inHandler⟩] }
  | none => { w1 with acted := w1.acted ||| m }

/-- The state after the split of `s0` has issued instruction `i` with effect `s1`. -/
def State.finishIssue (s0 s1 : State) (i : Instr) : State :=
  if s0.unissued s1 then s1
  else
    let part := s0.cur.pos % 8
    let p := (s1.partOf s0.cur.core part).start s0.cur.uid (s0.ccOf (dieOfCore s0.cur.core)) (instrUse i) (resourceOf s0 i (s0.actOf i))
    State.putPart { s1 with cur := { s0.afterIssue s1 i with fetched := s1.cur.fetched.filter fun f => f.pc != s0.ipc } } p

/-- The split in focus issues its instruction (R33, R226, R238, R242, R252): the words are fetched and decoded; a failed fetch and words that are no
instruction trap; otherwise the instruction has its meaning, unless a source register fails. -/
def State.issueSplit (s : State) : Out :=
  match s.fetchSplit with
  | .error e => .next (s.fetchTrap e)
  | .ok (bs, s0) => match decode bs with
    | none => .next (s0.illegal (s0.act (rawOfBytes bs).ctl))
    | some (i, _) => match exec i s0 with
      | .next s1 =>
        if s0.failsRead i && !s0.trapped s1 then
          let t := s0.trapP (match instrCtl i with | some c => s0.act c | none => 0) 17 3 0 none 0 4
          .next (s0.finishIssue t i)
        else .next (s0.finishIssue s1 i)
      | .fault f => .fault f
      | .refused r => .refused r

/-- A candidate would take a trap if it started now, or wait to take one (R229). -/
def State.wouldTrap (s : State) (c : Cand) : Bool :=
  let st := s.at' c
  !st.cur.inHandler && match st.issueSplit with
    | .next t => t.cur.inHandler || t.cur.stalled || (t.cur.hasExited && st.split != st.cur.live)
    | _ => false

/-- The turn of a start among those of its warp in one cycle, which the model takes one after another (R36, R230, log 8): instructions whose effect leaves the
warp, then memory accesses, then the rest; those that trap come last. -/
def State.startRank (s : State) (c : Cand) : Nat := match (s.at' c).peek with
  | some i => if 0x70 ≤ instrOp i && leavesWarp (instrOp i) then 0 else if 0x50 ≤ instrOp i && instrOp i < 0x70 then 1 else 2
  | none => 2

/-- The starts of a cycle in the order in which they take effect (R36, R230): when splits of one warp trap in one cycle the lowest PC traps and the others have
not issued; every start that does not trap takes effect before it. -/
def State.startOrder (s : State) (cs : List Cand) : List Cand :=
  let traps := cs.filter fun c => (cs.any fun x => x.uid == c.uid && x.pc != c.pc) && s.wouldTrap c
  let calm := cs.filter fun c => !traps.contains c
  let first := traps.filter fun c => traps.all fun x => x.uid != c.uid || decide (c.pc ≤ x.pc)
  ([0, 1, 2].flatMap fun k => calm.filter fun c => s.startRank c == k) ++ first

/-- A partition forms its list once in a cycle and walks it once (R38): what is left to do are the starts, in the order in which they take effect. -/
def State.formList (s : State) (core part : Nat) : State :=
  let p := s.partOf core part
  if p.cands.isSome then s
  else
    let s1 := s.mapWarps fun w => if w.core == core && w.pos % 8 == part && s.mayIssue w then s.useMarks w else w
    s1.putPart { p with cands := some (s.startOrder (s.walk { p with started := [] } (s.candidates core part))) }

/-- The start that stands next in a partition whose list is formed; a start whose split is there no more is passed over. -/
def State.starts (s : State) (core part : Nat) : Option (Cand × List Cand) :=
  match ((s.partOf core part).cands.getD []).dropWhile fun c => !s.canStart (s.partOf core part) c with
  | [] => none
  | c :: rest => some (c, rest)

/-! ## The starts of a cycle -/

/-- The start that stands next is made: its split issues. -/
def State.makeStart (s : State) (core part : Nat) (c : Cand) (rest : List Cand) : Out :=
  State.issueSplit ((s.at' c).putPart { s.partOf core part with cands := some rest })

/-- A split of the warp at a position of a core issues, when it is the next start of its partition (R38); otherwise the turn passes. -/
def State.issueTurnOf (s : State) (core pos : Nat) (pc : DWord) : Out :=
  let s1 := s.formList core (pos % 8)
  match s1.starts core (pos % 8) with
  | some (c, rest) =>
    let s2 := (s1.at' c).putPart { s1.partOf core (pos % 8) with cands := some rest }
    if s2.cur.core == core && s2.cur.pos == pos && c.pc == pc then s2.issueSplit else .next s
  | none => .next s

/-- The partition makes the starts its walk has left in this cycle, at most n (R38). -/
def State.restOfWalk (core part : Nat) : Nat → State → State
  | 0, s => s
  | n + 1, s =>
    let s1 := s.formList core part
    match s1.starts core part with
    | some (c, rest) => (match s1.makeStart core part c rest with
      | .next t => State.restOfWalk core part n t
      | _ => s)
    | none => s1

/-- The partitions with a warp that may issue. -/
def State.livePartitions (s : State) : List (Nat × Nat) :=
  ((s.warps.filter s.mayIssue).map fun w => (w.core, w.pos % 8)).eraseDups

/-- Every start still due in this cc on the dies `on` names is made (R38, R40): no cc ends before. -/
def State.finishStarts (s : State) (on : Nat → Bool) : State :=
  (s.livePartitions.filter fun p => on (dieOfCore p.1)).foldl (fun s p => State.restOfWalk p.1 p.2 4 s) s

end Sys2Proof.Machine
end

