-- ==== Sys2Proof/Machine/Clock.lean ====
section
/-! DEFINITION. The clocks (R12, R13, R35 to R39, R212, R293, R295), what settles between turns (R158, R177, R206, R229), and the order in which the model's
default schedule takes the events of the part (notes/assumptions/1.md, 2.md). -/

namespace Sys2Proof.Machine

/-! ## Clocks -/

/-- The largest and the smallest of the Tidemark copies differ by at most 4 (R13). -/
def withinEps (ts : List Nat) : Bool := ts.all fun a => ts.all fun b => decide (a ≤ b + 4)

/-- The copies after each has advanced by its ticks; a move that would take two copies more than 4 apart is not made (R13). -/
def advanceTides (ts adds : List Nat) : List Nat :=
  let next := (List.range ts.length).map fun i => ts.getD i 0 + adds.getD i 0
  if withinEps next then next else ts

/-- The wait counts of a warp's lanes stand still: handler mode, or held by a gang switch (R37, R219). -/
def State.countsHeld (s : State) (w : Warp) : Bool := w.inHandler || !s.mayIssue w

/-- A warp at the end of a cycle (R37, R39): the lanes that stood Runnable and did not issue have waited, yield marks that applied go, and results that are due
are no longer pending in cc `cc`. -/
def Warp.endCycle (w : Warp) (held safe : Mask) (cc : Nat) : Warp :=
  let w1 := w.mapLanes (BitVec.allOnes 128) fun l x =>
    { x with
      wait := if x.runnable && !held.getLsbD l && !w.acted.getLsbD l && !safe.getLsbD l then (if x.wait = 65535 then 65535 else x.wait + 1) else x.wait
      ym := x.ym && (!w.ymUse || w.ymNew.getLsbD l) }
  { w1 with acted := 0, ymNew := 0, ymUse := false, pends := w.pends.filter fun p => p.due cc }

/-- The end of a cc on the dies `on` names: modes, marks, barriers, wait counts, the next cc (R35 to R39, R278, R293, R295). -/
def State.endCycle (s : State) (on : Nat → Bool) : State :=
  let s1 := (s.modesOfCycle on).settleBars on
  let safe (w : Warp) : Mask := if s.switchOn (dieOfCore w.core) then w.atSafe (w.safePoints s.switchTables) else 0
  let held (w : Warp) : Mask := if s.countsHeld w then BitVec.allOnes 128 else 0
  let s2 := s1.mapWarps fun w =>
    if w.uid != 0 && on (dieOfCore w.core) then w.endCycle (held w) (safe w) (s.ccOf (dieOfCore w.core) + 1) else w
  { s2 with
    cc := (List.range s.cc.length).map fun d => if on d then (s.ccOf d + 1) % 2 ^ 64 else s.ccOf d
    parts := (s2.parts.map fun p => if on (dieOfCore p.core) then { p with cands := none, started := [] } else p).filter fun p =>
      p.cands.isSome || p.busy.any fun b => decide (s.ccOf (dieOfCore p.core) + 1 < b) }

/-- The clocks advance: Tidemark copies by the ticks given, and one cc on each die whose entry of `cycles` is not 0 (R12, R13); a cc ends once every start due in
it has been made (R38, R40). The warps of a launch that a firing has ended go on each die as it begins the action (R216), and tasks that have come enter their queues (R180). -/
def State.clock (s : State) (ticks cycles : List Nat) : State :=
  let on (d : Nat) : Bool := cycles.getD d 0 != 0
  let s1 := if cycles.any (· != 0) then (s.finishStarts on).endCycle on else s
  State.enterReady <| State.discardEnded <| State.returnDue { s1 with
    tide := advanceTides s.tide ticks
    tasks := if cycles.any (· != 0) then { s1.tasks with decSeen := [] } else s1.tasks }

/-! ## Between turns -/

/-- What a turn settles: a warp whose accesses are all checked is no longer stalled (R229), and a split whose entries or cards are all accepted is no
longer held (R158, R206). -/
def State.settle (s : State) : State :=
  s.mapWarps fun w => { w with
    stalled := w.stalled && !(s.unchecked w.uid).isEmpty
    holds := w.holds.filter fun h => match h.kind with
      | .queue ins => s.copy.entries.any fun e => e.ins == ins && e.acc == 0
      | .jobs ins => s.cards.any fun k => k.ins == ins && k.acc == 0
      | .slots _ => true }

/-! ## The default schedule (log 1) -/

/-- A start in which every step passes and nothing is harvested. -/
def goodStart : StartUp := ⟨true, true, true, 0, 0, true, true, true, [], []⟩

/-- The events that may be due for a request. -/
def Req.events (r : Req) : List Instr := match r.kind with
  | .mem _ => [.releaseSend r.id, .accessRefused r.id, .accessChecked r.id, .arrayAccessAccept ⟨r.id, everyLane, 3⟩, .loadServed ⟨r.id, everyLane, 3⟩ 4096 4096,
      .storeNoticeArrive ⟨⟨r.id, everyLane, 3⟩, false⟩, .storeNoticeArrive ⟨⟨r.id, everyLane, 3⟩, true⟩, .atomicPerform ⟨r.id, everyLane⟩ 4096,
      .cxlCacheAcknowledgement ⟨r.id, everyLane, 3⟩, .registerWriteReturn r.id]
  | .acfg _ _ _ _ => [.acfgAccept r.id]
  | .amode _ _ => [.amodeAccept r.id]
  | .axm _ _ _ => [.axmAccept r.id]
  | .await _ _ _ _ => [.handleMessageArrive r.id]
  | .hpoll _ _ => [.handleMessageArrive r.id]
  | .hdrop _ => [.handleMessageArrive r.id]
  | .chain _ => [.handleMessageArrive r.id]
  | .stat _ _ => [.storeNoticeArrive ⟨⟨r.id, everyLane, 3⟩, true⟩]

/-- The events that may be due for a warp. -/
def Warp.events (w : Warp) : List Instr :=
  [.faultRollback w.core w.pos, .acquireComplete w.core w.pos, .fenceComplete w.core w.pos, .sleepWake w.core w.pos, .slotsFreedInvokeResume w.uid,
    .warpStop w.core w.pos]

/-- The events that may be due for a handle slot. -/
def Slot.events (x : Slot) : List Instr :=
  let h := mkHandle x.core x.idx x.ctx x.gen
  if x.home then [.handleResolve h, .successorDecrement h false, .successorDecrement h true, .decrementAcknowledge h, .chainListRun h, .awaitWake h] else []

/-- The events that may be due for an array. -/
def ArrayRec.events (a : ArrayRec) : List Instr :=
  [.arrayEnterCompute a.core a.phys false, .axmStart a.core a.phys 0, .axmResultWrite a.core a.phys, .arrayEnterStorage a.core a.phys]

/-- The events that may be due for a copy entry. -/
def CopyEntry.events (e : CopyEntry) : List Instr :=
  [.copyEntryAccept e.id, .arrayAccessAccept ⟨e.id, everyLane, 3⟩, .copyEntryBegin ⟨e.id, 2 ^ 24⟩, .copyTranslationFault e.id, .xredEntryComplete ⟨e.id, 2 ^ 24⟩, .copyEntryComplete e.id]

/-- The events that may be due for a job card. -/
def BankCard.events (k : BankCard) : List Instr :=
  [.bankCardAccept k.id, .bankCardClean k.id, .bankCardRun k.id ⟨[], 0, 16384⟩, .bankCardDone k.id]

/-- The events that may be due for a timetable entry. -/
def TtEntry.events (e : TtEntry) : List Instr :=
  [.timetableLaunchFiring e.n, .timetableGangSwitchFiring e.n, .timetableStopFiring e.n, .deferredFiringAct e.n, .stagingStart e.n]

/-- The places the next cluster of a launch may take. -/
def Launch.places (l : Launch) : List Instr :=
  if l.next < l.total then
    if l.hdr.clusterSize = 1 then (List.range 192).map fun c => .clusterPlace l.key [c]
    else (List.range 48).map fun k => .clusterPlace l.key ((List.range l.hdr.clusterSize).map (4 * k + ·))
  else []

/-- The events that may be due, in the order the default schedule tries them. -/
def State.mayBeDue (s : State) : List Instr :=
  List.flatten [
    s.reqs.flatMap Req.events,
    (s.warps.filter fun w => w.uid != 0).flatMap Warp.events,
    s.arrays.flatMap ArrayRec.events,
    s.copy.entries.flatMap CopyEntry.events,
    s.copy.msgs.flatMap (fun m => [.reductionMessageArrive m.q m.seq m.chunk, .reductionAckArrive m.q m.seq m.chunk]),
    s.copy.floors.map (fun f => .floorNoticeArrive f.slice f.q f.seq f.chunk),
    s.copy.joins.map (fun j => .qfenceMarkersLeave j.id),
    s.copy.ranks.map (fun r => .xredPhase1Complete r.group r.epoch []),
    s.tasks.parked.map (fun p => .parkArrive p.handle),
    s.tasks.slots.flatMap Slot.events,
    s.tasks.late.map (fun d => .successorDecrement d.handle d.second),
    s.cards.flatMap BankCard.events,
    s.ctl.tt.flatMap TtEntry.events,
    [.switchStopDeadline],
    s.copy.queues.map (fun r => .queuePause r.q),
    [.switchSaveComplete, .switchIn],
    (List.range 8).map (fun n => .contextStopDone n),
    s.ctl.dieResets.map (fun d => .dieReset d),
    s.ctl.down.map (fun d => .dieResetReturn d),
    [.tlbInvalidationDone, .attestationReportDone],
    s.wgs.map (fun g => .workgroupRelease g.key),
    s.launches.map (fun l => .launchComplete l.key),
    s.launches.flatMap Launch.places,
    s.tasks.ready.map (fun t => .taskDispatch t.core)]

/-- An event changes the state. -/
def State.changes (s : State) (i : Instr) : Bool := match exec i s with
  | .next t => decide (t ≠ s)
  | _ => true

/-- The issue turn of a candidate. -/
def State.issueTurn (s : State) (c : Cand) : Option Turn := (s.warpOf c.uid).map fun w => .issue w.core w.pos c.pc

/-- The turn the default schedule takes (log 1): start-up, the first event that changes the state, the next start of a partition, else one tick and one
cc. -/
def State.defaultTurn (s : State) : Turn :=
  if s.boot.phase = 0 then .event (.partReset goodStart)
  else match s.mayBeDue.find? s.changes with
    | some i => .event i
    | none => match s.livePartitions.findSome? fun p => (((s.formList p.1 p.2).starts p.1 p.2).bind fun c => s.issueTurn c.1) with
      | some t => t
      | none => .clock (List.replicate 13 1) (List.replicate 8 1)

end Sys2Proof.Machine
end

