-- ==== Sys2Proof/Machine/Load.lean ====
section
/-! DEFINITION. The load that `State.withFetchWord` stands for (notes/assumptions/13.md): one workgroup of one warp, placed by hand on core 0 position 0 in context 0,
whose code page maps virtual to physical addresses one to one. -/

namespace Sys2Proof.Machine

/-- Where the loaded code stands. -/
def loadPc : DWord := 0x1000

/-- The header of the loaded warp: 64 registers and G slots, 32 barriers, 8 queues, one array, a handler at 0x2000. -/
def loadHeader : Header := ⟨loadPc, 0, 0, 0, 0x2000, 7, 127, BitVec.ofNat 64 (64 + 64 * 2 ^ 7 + 12 * 2 ^ 14 + 2 ^ 23 + 32 * 2 ^ 29 + 8 * 2 ^ 35), 0⟩

/-- The two tables of the loaded context, at 0x10000 and 0x20000, and the code bytes: a leaf of 1 GiB with READ, W and X. -/
def loadHome (bs : List Byte) (home : List Host.Cell) : List Host.Cell :=
  writeBytes (writeBytes (writeBytes home loadPc.toNat bs) 0x10000 (bytesLE 8 (0x20000 + 1))) 0x20000 (bytesLE 8 0x3B)

/-- The bytes of an instruction whose bits are `w`, the bits above `nbits` zero (R241). -/
def loadBytesOf (nbits w : Nat) : List Byte := leBytes (nbits / 8) (w % 2 ^ nbits) ++ List.replicate (20 - nbits / 8) 0

/-- The loaded warp, of workgroup `key`: all lanes Runnable at the code. -/
def loadWarp (uid key : Nat) : Warp :=
  Warp.fresh uid 0 0 key 0 loadHeader 0 none [] 0 0 (.start (List.replicate laneCount (.start loadPc .runnable)))

/-- Its workgroup. -/
def loadGroup (key : Nat) : Workgroup :=
  ⟨key, 0, none, 0, 0, [key], loadHeader, 0, 1, [0], List.replicate 32 ⟨0, 0, 0, 0, 0⟩, List.replicate 8 .fresh, [], 0, false⟩

/-- The state with some bytes loaded as the code of one warp, whose issue is the next turn. -/
def State.loaded (s : State) (bs : List Byte) : State :=
  let uid := s.nextId
  let key := s.nextId + 1
  { s with
    cur := loadWarp uid key
    others := []
    ipc := loadPc
    parts := []
    wgs := [loadGroup key]
    arrays := [⟨0, 0, 4, 0, false, 64, false, [], [], []⟩]
    mem := { s.mem with home := loadHome bs s.mem.home, poison := [], tlb := [], icache := [] }
    ctl := { s.ctl with
      switch := none
      ctxs := (Context.mk 0 0x8000000000000000 .running 0 [0x10000, 0x30000, 0x8000000, 0x10000000, 0x40000, 0x800000])
        :: s.ctl.ctxs.filter fun c => c.n != 0 }
    grants := [.all]
    boot := { s.boot with phase := 2 }
    turns := .issue 0 0 loadPc :: s.turns
    nextId := s.nextId + 2 }

end Sys2Proof.Machine
end

