-- ==== Sys2Proof/Machine/Step.lean ====
section
/-! DEFINITION. One step of the part: one turn of one agent (notes/assumptions/1.md). -/

namespace Sys2Proof.Machine

/-- The outcome with `f` applied to a next state. -/
def Out.map (f : State → State) : Out → Out
  | .next s => .next (f s)
  | .fault r => .fault r
  | .refused r => .refused r


/-- One turn: a split issues, an event of the part happens, the host or Estuary reads a register, Estuary writes the access tables, or the clocks advance. Instruction forms issue from memory only. -/
def State.take (s : State) : Turn → Out
  | .issue core pos pc => s.issueTurnOf core pos pc
  | .event i => if i.toRaw.isSome then .next s else exec i s
  | .readReg host off wide => .next (s.agentReadReg host off wide)
  | .tables gs => .next (s.writeTables gs)
  | .clock ticks cycles => .next (s.clock ticks cycles)

/-- True of a turn that resets the part: all that moves a part that has halted (R272, R274). -/
def Turn.resets : Turn → Bool
  | .event (.partReset _) => true
  | .event (.overlimitReset _) => true
  | _ => false

/-- The turn a state takes next, and the state without it. -/
def State.turn (s : State) : Turn × State := match s.turns with
  | t :: ts => (t, { s with turns := ts })
  | [] => (s.defaultTurn, s)

/-- One step: the next turn of the schedule, or of the default schedule when it is empty. A part that has halted in start-up moves by a reset only (R272). -/
def step (s : State) : Host.Outcome State Fault Refusal :=
  if s.boot.phase = 15 && !s.turn.1.resets then .fault .halted
  else (s.turn.2.take s.turn.1).map State.settle

/-- The state whose next step issues the instruction with the bits `w` (notes/assumptions/13.md). -/
def State.withFetchWord (s : State) (nbits w : Nat) : State := s.loaded (loadBytesOf nbits w)

end Sys2Proof.Machine
end

