-- ==== Sys2Proof/Safety.lean ====
section
/-! DEFINITION. The terms statements are made in: when an instruction may complete, what a register, a predicate or a lane holds after it, what an
instruction leaves alone, and what counts as a safe state. -/

namespace Sys2Proof.Machine

/-! ## Conditions on the state and the operands -/

/-- Lane l is active for an instruction that issues (R5). -/
def State.active (s : State) (c : Ctl) (l : Nat) : Bool := (s.act c).getLsbD l

/-- Register d is the record register, which takes writes in words 3 and 4 only (R232). -/
def State.isRecord (s : State) (d : Reg) : Bool := s.cur.inHandler && d == 60

/-- The G slots leave room for `ds` to become G (R60); the record register takes no slot (R232). -/
def State.HasRoom (s : State) (ds : List Reg) : Prop :=
  s.cur.arch.gCount + (ds.filter fun d => !(s.cur.arch.vregs.getD d.toNat (.u 0)).isG && !s.isRecord d).length ≤ s.cur.hdr.gmax

/-- What every instruction that computes needs to complete: the registers it names may be named (R31), a lane is active (R5), and its destinations have
room (R60). A whole write of values that are not G, which `flat` says, binds no slot. -/
structure State.Ready (s : State) (c : Ctl) (names ds : List Reg) (flat : Bool) : Prop where
  named : ∀ r ∈ names, s.cur.nameable r = true
  some : s.act c ≠ 0
  room : (flat = true ∧ wholeWrite s.cur.live (s.act c) = true) ∨ s.HasRoom ds

/-! ## Results -/

/-- Register d of `t` holds `f l` in each active lane l, and what it held in each other lane that is not Exited (R58); of the record register only lanes 3
and 4 change, lane 4 in its bits [23:0] (R232). -/
def State.Wrote (s t : State) (c : Ctl) (d : Reg) (f : Nat → Word) : Prop := ∀ l < 128,
  (s.active c l = true ∧ (s.isRecord d = true → l = 3 ∨ l = 4) → t.rd d l = if s.isRecord d = true then recordPart l (f l) else f l)
  ∧ (s.active c l = false ∧ s.cur.live.getLsbD l = true → t.rd d l = s.rd d l)
  ∧ (s.isRecord d = true ∧ l ≠ 3 ∧ l ≠ 4 → t.rd d l = s.rd d l)

/-- The pair that starts at d holds `f l` in each active lane l (R61). -/
def State.WrotePair (s t : State) (c : Ctl) (d : Reg) (f : Nat → DWord) : Prop :=
  s.Wrote t c d (fun l => loWord (f l)) ∧ s.Wrote t c (d + 1) (fun l => hiWord (f l))

/-- Predicate p of `t` holds `f l` in each active lane l and what it held in the others; p7 stays all ones (R61). -/
def State.WrotePred (s t : State) (c : Ctl) (p : PReg) (f : Nat → Bool) : Prop := ∀ l < 128,
  (t.cur.pred p).getLsbD l = if p = 7 then true else if s.active c l then f l else (s.cur.pred p).getLsbD l

/-- The lanes of the issuing split stand at the next instruction, the others where they stood; in handler mode the handler PC does (R33, R233). -/
structure State.Advanced (s t : State) (c : Ctl) : Prop where
  lanes : ∀ l < 128, (t.cur.lane l).pc = if s.cur.inHandler = false ∧ s.split.getLsbD l = true then s.next c else (s.cur.lane l).pc
  handler : t.cur.arch.handler.map (·.pc) = s.cur.arch.handler.map fun _ => s.next c

/-! ## Frames -/

/-- A workgroup without its counters. -/
def Workgroup.noStats (g : Workgroup) : Workgroup := { g with stats := [] }

/-- What an instruction that writes only registers `ds` and predicates `ps` leaves alone: every other register, its failing mark (R238) and predicate, the rejoin sets, the state,
depth and wait count of every lane, handler mode, every byte of memory and every other part of the state; the counters of R88 may rise. -/
structure State.RegFrame (s t : State) (ds : List Reg) (ps : List PReg) : Prop where
  rest : t = { s with cur := t.cur, wgs := t.wgs }
  bytes : ∀ a, readByte t.mem.home a = readByte s.mem.home a ∧ readByte t.mem.spad a = readByte s.mem.spad a
  groups : t.wgs.map Workgroup.noStats = s.wgs.map Workgroup.noStats
  warp : t.cur = { s.cur with arch := t.cur.arch, ymNew := t.cur.ymNew }
  regs : ∀ r, r ∉ ds → t.reg r = s.reg r
  preds : ∀ p, p ∉ ps → t.cur.pred p = s.cur.pred p
  sets : t.cur.arch.sets = s.cur.arch.sets
  failing : ∀ r, r ∉ ds → t.cur.arch.bad.getLsbD r.toNat = s.cur.arch.bad.getLsbD r.toNat
  lanes : ∀ l < 128, { t.cur.lane l with pc := 0, ym := false } = { s.cur.lane l with pc := 0, ym := false }
  handler : t.cur.arch.handler.map (fun h => (h.mask, h.epc, h.blk)) = s.cur.arch.handler.map fun h => (h.mask, h.epc, h.blk)

/-! ## Completing -/

/-- Instruction i completes from s, in a next state that satisfies `P`. -/
def State.Completes (s : State) (i : Instr) (P : State → Prop) : Prop := ∃ t, exec i s = .next t ∧ P t

/-- i completes: register d takes `f l` in each active lane, the split advances, the counts `n` are raised (R88) and nothing else changes. -/
def State.Yields (s : State) (i : Instr) (c : Ctl) (d : Reg) (f : Nat → Word) (n : Counts) : Prop := s.Completes i fun t =>
  s.Wrote t c d f ∧ s.Advanced t c ∧ s.RegFrame t [d] [] ∧ t.wgs = (s.count c n).wgs

/-- The same for a 64-bit result in the pair that starts at d. -/
def State.YieldsPair (s : State) (i : Instr) (c : Ctl) (d : Reg) (f : Nat → DWord) (n : Counts) : Prop := s.Completes i fun t =>
  s.WrotePair t c d f ∧ s.Advanced t c ∧ s.RegFrame t [d, d + 1] [] ∧ t.wgs = (s.count c n).wgs

/-- The same for a predicate. -/
def State.YieldsPred (s : State) (i : Instr) (c : Ctl) (p : PReg) (f : Nat → Bool) (n : Counts) : Prop := s.Completes i fun t =>
  s.WrotePred t c p f ∧ s.Advanced t c ∧ s.RegFrame t [] [p] ∧ t.wgs = (s.count c n).wgs

/-! ## Operands and exact integer results -/

/-- The 32-bit value lane l reads from a second source. -/
def Src.at (b : Src) (s : State) (l : Nat) : Word := (b.val s).lane l

/-- An operand read as an unsigned or a signed integer (R327). -/
def intOf {n : Nat} (un : Bool) (x : BitVec n) : Int := if un then x.toNat else x.toInt

/-- The nearest integer that n bits hold, signed or unsigned (R71). -/
def clampInt (un : Bool) (n : Nat) (t : Int) : Int :=
  if un then max 0 (min (2 ^ n - 1) t) else max (-(2 ^ (n - 1))) (min (2 ^ (n - 1) - 1) t)

/-- An exact integer result brought to n bits: clamped under SAT, else modulo 2^n (R327). -/
def fitInt (un sat : Bool) (n : Nat) (t : Int) : BitVec n := BitVec.ofInt n (if sat then clampInt un n t else t)

/-- One saturation when the clamp under SAT changes the exact result (R327). -/
def fitCount (un sat : Bool) (n : Nat) (t : Int) : Counts := if sat = true ∧ clampInt un n t ≠ t then .oneSat else .zero

/-- A register that is U or A. -/
def State.flat (s : State) (r : Reg) : Bool := !(s.reg r).isG
/-- A second source that is U (an immediate counts as U, R57). -/
def Src.isU (b : Src) (s : State) : Bool := (b.val s).isU
/-- A second source that is U or A. -/
def Src.flat (b : Src) (s : State) : Bool := !(b.val s).isG

/-- What an instruction of the integer family with two sources does (R327): `f` is the exact result, `fl` says when its 32-bit result is not G (R59, R328). -/
def State.IntegerTwo (s : State) (i : Instr) (c : Ctl) (m : IMod) (d a : Reg) (b : Src) (f : Int → Int → Int) (fl : Bool) : Prop :=
  let x (l : Nat) : Int := f (intOf m.un (s.rd a l)) (intOf m.un (b.at s l))
  let y (l : Nat) : Int := f (intOf m.un (s.rdPair a l)) (intOf m.un (b.pair s l))
  (m.w = false → s.Ready c ([d, a] ++ b.names) [d] fl →
    s.Yields i c d (fun l => fitInt m.un m.sat 32 (x l)) (laneCounts (s.act c) fun l => fitCount m.un m.sat 32 (x l)))
  ∧ (m.w = true → s.Ready c (pairRegs d ++ pairRegs a ++ b.pairNames) [d, d + 1] (s.pairU a && b.pairU s) →
    s.YieldsPair i c d (fun l => fitInt m.un m.sat 64 (y l)) (laneCounts (s.act c) fun l => fitCount m.un m.sat 64 (y l)))

/-- What a lane-wise instruction of two sources without counts does. -/
def State.BitwiseTwo (s : State) (i : Instr) (c : Ctl) (w : Bool) (d a : Reg) (b : Src) (f : Word → Word → Word) (g : DWord → DWord → DWord) : Prop :=
  (w = false → s.Ready c ([d, a] ++ b.names) [d] ((s.reg a).isU && b.isU s) →
    s.Yields i c d (fun l => f (s.rd a l) (b.at s l)) .zero)
  ∧ (w = true → s.Ready c (pairRegs d ++ pairRegs a ++ b.pairNames) [d, d + 1] (s.pairU a && b.pairU s) →
    s.YieldsPair i c d (fun l => g (s.rdPair a l) (b.pair s l)) .zero)

/-- What a lane-wise instruction of one source without counts does. -/
def State.BitwiseOne (s : State) (i : Instr) (c : Ctl) (w : Bool) (d a : Reg) (f : Word → Word) (g : DWord → DWord) : Prop :=
  (w = false → s.Ready c [d, a] [d] (s.reg a).isU → s.Yields i c d (fun l => f (s.rd a l)) .zero)
  ∧ (w = true → s.Ready c (pairRegs d ++ pairRegs a) [d, d + 1] (s.pairU a) → s.YieldsPair i c d (fun l => g (s.rdPair a l)) .zero)

/-- What a shift does: B names one register even in `.W` (R354); `f` takes the value and the count. -/
def State.Shifts (s : State) (i : Instr) (c : Ctl) (w : Bool) (d a : Reg) (b : Src) (f : Word → Nat → Word) (g : DWord → Nat → DWord) (fl : Bool) : Prop :=
  (w = false → s.Ready c ([d, a] ++ b.names) [d] fl → s.Yields i c d (fun l => f (s.rd a l) (b.at s l).toNat) .zero)
  ∧ (w = true → s.Ready c (pairRegs d ++ pairRegs a ++ b.names) [d, d + 1] (s.pairU a && b.isU s) →
    s.YieldsPair i c d (fun l => g (s.rdPair a l) (b.count s l)) .zero)

/-- What a floating-point instruction of two sources does: a value and its counts per lane. -/
def State.FloatTwo (s : State) (i : Instr) (c : Ctl) (d a : Reg) (b : Src) (f : Word → Word → Word × Counts) : Prop :=
  s.Ready c ([d, a] ++ b.names) [d] ((s.reg a).isU && b.isU s) →
    s.Yields i c d (fun l => (f (s.rd a l) (b.at s l)).1) (laneCounts (s.act c) fun l => (f (s.rd a l) (b.at s l)).2)

/-- The same with three sources. -/
def State.FloatThree (s : State) (i : Instr) (c : Ctl) (d a : Reg) (b : Src) (e : Reg) (f : Word → Word → Word → Word × Counts) : Prop :=
  s.Ready c ([d, a, e] ++ b.names) [d] ((s.reg a).isU && b.isU s && (s.reg e).isU) →
    s.Yields i c d (fun l => (f (s.rd a l) (b.at s l) (s.rd e l)).1) (laneCounts (s.act c) fun l => (f (s.rd a l) (b.at s l) (s.rd e l)).2)

/-- The same with one source; a special function always gives G (R59). -/
def State.FloatOne (s : State) (i : Instr) (c : Ctl) (d a : Reg) (special : Bool) (f : Word → Word × Counts) : Prop :=
  s.Ready c [d, a] [d] (!special && (s.reg a).isU) → s.Yields i c d (fun l => (f (s.rd a l)).1) (laneCounts (s.act c) fun l => (f (s.rd a l)).2)

/-! ## Control -/

/-- The lanes of the issuing split take the PCs `f` gives and the others keep theirs; in handler mode the handler PC takes that of the lowest lane of HMASK
that is not Exited (R33, R233). -/
structure State.Moved (s t : State) (f : Nat → DWord) : Prop where
  lanes : ∀ l < 128, (t.cur.lane l).pc = if s.cur.inHandler = false ∧ s.split.getLsbD l = true then f l else (s.cur.lane l).pc
  handler : t.cur.arch.handler.map (·.pc) = s.cur.arch.handler.map fun h => f (lowestLane (h.mask &&& s.cur.live))

/-- What an instruction that acts on the lanes of its warp leaves alone: everything outside the warp, the warp's registers but `ds`, its predicates, its handler
state but the PC, and of each lane what `keep` keeps. -/
structure State.WarpFrame (s t : State) (ds : List Reg) (keep : Lane → Lane) : Prop where
  rest : t = { s with cur := t.cur }
  warp : t.cur = { s.cur with arch := t.cur.arch, ymNew := t.cur.ymNew, acted := t.cur.acted }
  regs : ∀ r, r ∉ ds → t.reg r = s.reg r
  preds : ∀ p, t.cur.pred p = s.cur.pred p
  failing : ∀ r, r ∉ ds → t.cur.arch.bad.getLsbD r.toNat = s.cur.arch.bad.getLsbD r.toNat
  lanes : ∀ l < 128, keep (t.cur.lane l) = keep (s.cur.lane l)
  handler : t.cur.arch.handler.map (fun h => (h.mask, h.epc, h.words)) = s.cur.arch.handler.map fun h => (h.mask, h.epc, h.words)

/-- A lane without its PC and its yield mark. -/
def Lane.noPc (x : Lane) : Lane := { x with pc := 0, ym := false }
/-- A lane without its PC, yield mark and depth. -/
def Lane.noDepth (x : Lane) : Lane := { x with pc := 0, ym := false, depth := 0 }
/-- A lane without its PC, yield mark, state and wait count, and the PC it blocked at. -/
def Lane.noState (x : Lane) : Lane := { x with pc := 0, ym := false, st := .runnable, wait := 0, bpc := 0 }

/-- A computed target is an instruction address (R305). -/
def goodTarget (x : DWord) : Prop := x.toNat % 4 = 0 ∧ x.toNat < 2 ^ 56

/-- Rejoin set k of the warp in focus. -/
def State.setNo (s : State) (k : Nat) : RejoinSet := s.cur.arch.sets.getD k .empty
/-- A set that releases (R50): its members all wait. -/
def RejoinSet.full (x : RejoinSet) : Bool := x.m != 0 && x.m == x.w
/-- The sets of `t` are `f`, each after the release rule (R50). -/
def State.SetsAre (t : State) (f : Nat → RejoinSet) : Prop := ∀ k < 16, t.setNo k = if (f k).full then { f k with w := 0 } else f k
/-- The release rule frees lane l. -/
def freed (f : Nat → RejoinSet) (l : Nat) : Bool := (List.range 16).any fun k => (f k).full && (f k).w.getLsbD l
/-- The lanes of `t`: state and wait count are those `g` gives, but a Parked lane the release rule frees is Runnable with wait count 0 (R50). -/
def State.LanesAre (s t : State) (f : Nat → RejoinSet) (g : Nat → LaneState × BitVec 16) : Prop := ∀ l < 128,
  ((t.cur.lane l).st, (t.cur.lane l).wait) = (if freed f l = true ∧ (g l).1 = .parked then (.runnable, 0) else g l) ∧ (t.cur.lane l).depth = (s.cur.lane l).depth

/-! ## Exceptions -/

/-- No older access of the warp is unchecked, so a trap is taken at once (R229). -/
def State.mayTrap (s : State) : Prop := s.unchecked s.cur.uid = []

/-- The warp may enter a handler: it has one, it is not in it, and no older access is unchecked (R229, R231). -/
structure State.TakesTraps (s : State) : Prop where
  outside : s.cur.arch.handler = none
  handler : s.cur.hdr.traph ≠ 0
  checked : s.mayTrap

/-- The record of a trap: its sixteen words (R232). -/
def recordOf (cause detail aux : Nat) (lane : Option Nat) (tpc rpc addr : DWord) (acc : Nat) (actm : Mask) (time : Nat) : List Word :=
  [BitVec.ofNat 32 (cause * 2 ^ 24 + detail * 2 ^ 16 + aux * 2 ^ 8 + (match lane with | some l => 128 + l | none => 0)),
    tpc.setWidth 32, (tpc >>> 32).setWidth 32 &&& 0xFFFFFF, rpc.setWidth 32, (rpc >>> 32).setWidth 32 &&& 0xFFFFFF,
    addr.setWidth 32, (addr >>> 32).setWidth 32, BitVec.ofNat 32 (acc * 2 ^ 28),
    actm.setWidth 32, (actm >>> 32).setWidth 32, (actm >>> 64).setWidth 32, (actm >>> 96).setWidth 32,
    BitVec.ofNat 32 time, BitVec.ofNat 32 (time / 2 ^ 32), 0, 0]

/-- The warp has entered its handler (R231, R234): the mask, TRAPH as the handler PC, the resume point and the record, and what the warp has fetched ahead is let go;
every other part of the state and every lane stand as they did. -/
def State.EnteredHandler (s t : State) (mask : Mask) (rpc : DWord) (record : List Word) : Prop :=
  t = { s with cur := { s.cur with arch := { s.cur.arch with handler := some ⟨mask, s.cur.hdr.traph, rpc, record, none⟩ }, fetched := [] } }

/-- Instruction i takes a precise trap: the handler is entered for its split, which stands at i, with the record of the cause (R231, R232). -/
def State.TrapsAt (s : State) (i : Instr) (c : Ctl) (cause detail aux : Nat) (lane : Option Nat) (addr : DWord) (acc : Nat) : Prop :=
  s.Completes i fun t => s.EnteredHandler t (s.split &&& s.cur.live) s.ipc (recordOf cause detail aux lane s.ipc s.ipc addr acc (s.act c) s.myTide)

/-! ## Memory instructions -/

/-- A memory request has issued: it stands among the warp's requests with nothing performed, its results are pending, the checkpoint of R229 is kept, every
register reads as before and memory is untouched but for what the TLBs hold. -/
structure State.Issued (s t : State) (c : Ctl) (m : MemReq) : Prop where
  rest : t = { s with cur := t.cur, reqs := t.reqs, mem := t.mem, nextId := s.nextId + 1 }
  req : t.reqs = s.reqs ++ [⟨s.nextId, s.cur.uid, s.cur.core, s.cur.pos, s.cur.ctx, s.cur.wg, if c.len.getLsbD 0 then c.tid.toNat else 0, s.ipc, s.next c,
    s.act c, s.split, s.cur.live, .mem m, false, false, false, false, none, s.cur.inHandler, s.dueFrom (dieOfCore s.cur.core), false⟩]
  pending : t.cur.pends = if m.dests = [] then s.cur.pends else s.cur.pends ++ [⟨s.nextId, m.dests, [], false, none, false, s.cur.inHandler⟩]
  checkpoint : t.cur.snaps = s.cur.snaps ++ [(s.nextId, s.cur.arch)]
  regs : ∀ r, ∀ l < 128, t.rd r l = s.rd r l
  preds : t.cur.arch.preds = s.cur.arch.preds
  sets : t.cur.arch.sets = s.cur.arch.sets
  lanes : ∀ l < 128, (t.cur.lane l).noPc = (s.cur.lane l).noPc
  mem : t.mem = { s.mem with tlb := t.mem.tlb }

/-- The effective address of lane l of an access (R113, R114). -/
def State.accessEa (s : State) (m : MMod) (spad : Bool) (a : Reg) (l : Nat) : DWord :=
  if spad then (s.rd a l + m.off).setWidth 64 else s.rdPair a l + m.off.signExtend 64

/-- A memory instruction may name its registers, has an active lane, and its results have room: `LD` and `LDS` with address registers that are all U give U (R59,
R336). -/
def State.AccessReady (s : State) (c : Ctl) (op : MemOp) (dests : List Reg) (spad : Bool) (a : Reg) (rank : Option Reg) (names : List Reg) : Prop :=
  let addrRegs : List Reg := (if spad then [a] else [a, a + 1]) ++ rank.toList
  s.Ready c (dests ++ addrRegs ++ names) dests ((match op with | .load _ => true | _ => false) && rank.isNone && addrRegs.all fun r => (s.reg r).isU)

/-- A memory instruction has trapped at a lane: the handler is entered with its record, whose ACC is 0 for a load, 1 for a store and 2 for an atomic (R232), and
everything else, every byte of memory among it, stands as it did. -/
def State.AccessTrapped (s : State) (c : Ctl) (op : MemOp) (cause detail aux lane : Nat) (addr : DWord) (t : State) : Prop :=
  s.EnteredHandler t (s.split &&& s.cur.live) s.ipc (recordOf cause detail aux (some lane) s.ipc s.ipc addr
    (match op with | .load _ => 0 | .store => 1 | .atom _ _ => 2) (s.act c) s.myTide)

/-- What a memory instruction does at issue (R129, R283, R336, R350, R360): when its registers may be named, its results have room, and every active lane's
address is aligned and has a place it may use, its request issues with one access for each active lane, in lane order, or one for the warp when the
address registers of `LD` or `LDS` are all U. -/
def State.IssuesAccess (s : State) (i : Instr) (c : Ctl) (m : MMod) (op : MemOp) (dests : List Reg) (spad : Bool) (a : Reg) (rank : Option Reg)
    (names : List Reg) (data : Nat → Nat × Nat) : Prop := ∀ (at' : Nat → Nat × BitVec 2),
  let addrRegs : List Reg := (if spad then [a] else [a, a + 1]) ++ rank.toList
  let uni : Bool := (match op with | .load _ => true | _ => false) && rank.isNone && addrRegs.all fun r => (s.reg r).isU
  let ea (l : Nat) : DWord := if spad then (s.rd a l + m.off).setWidth 64 else s.rdPair a l + m.off.signExtend 64
  let place (l : Nat) : LanePlace := if spad then s.spadTarget rank l (s.rd a l + m.off) else s.globalLane s.cur.core s.cur.ctx op.need l (ea l)
  let lanes : List Nat := (List.range 128).filter (s.active c)
  let used : List Nat := if uni then lanes.take 1 else lanes
  s.Ready c (dests ++ addrRegs ++ names) dests uni →
  (∀ l < 128, s.active c l = true → (ea l).toNat % szBytes m.sz = 0 ∧ place l = .ok (at' l)) →
    s.Completes i fun t => s.Advanced t c
      ∧ s.Issued t c ⟨if spad then .spad else .global, rank.isSome, op, szBytes m.sz, m.ord, m.scope.toNat, m.ch,
          used.map fun l => ⟨l, (ea l).toNat, (at' l).1, (at' l).2, (data l).1, (data l).2, 0, allParts (szBytes m.sz),
            if op = .store ∧ spad = false then allParts (szBytes m.sz) else 0⟩, dests, uni, none⟩

/-- A request other than a memory access has entered (R34, R229): it stands last among the requests, its results are pending, the checkpoint is kept while
it is unchecked, and every register, predicate, rejoin set and place outside the warp reads as before. -/
structure State.Requested (s t : State) (c : Ctl) (k : ReqKind) (dests : List Reg) (preds : List PReg) (async checked : Bool) : Prop where
  rest : t = { s with cur := t.cur, reqs := t.reqs, nextId := s.nextId + 1 }
  req : t.reqs = s.reqs ++ [⟨s.nextId, s.cur.uid, s.cur.core, s.cur.pos, s.cur.ctx, s.cur.wg, if c.len.getLsbD 0 then c.tid.toNat else 0, s.ipc, s.next c,
    s.act c, s.split, s.cur.live, k, checked, false, false, false, none, s.cur.inHandler, s.dueFrom (dieOfCore s.cur.core), false⟩]
  warp : t.cur = { s.cur with arch := t.cur.arch, pends := t.cur.pends, snaps := t.cur.snaps, ymNew := t.cur.ymNew }
  pending : t.cur.pends = if dests = [] ∧ preds = [] then s.cur.pends else s.cur.pends ++ [⟨s.nextId, dests, preds, async, none, false, s.cur.inHandler⟩]
  checkpoint : t.cur.snaps = if checked then s.cur.snaps else s.cur.snaps ++ [(s.nextId, s.cur.arch)]
  regs : ∀ r, ∀ l < 128, t.rd r l = s.rd r l
  others : ∀ r, r ∉ dests → t.reg r = s.reg r
  preds : t.cur.arch.preds = s.cur.arch.preds
  sets : t.cur.arch.sets = s.cur.arch.sets
  lanes : ∀ l < 128, (t.cur.lane l).noState = (s.cur.lane l).noState

/-- An entry of a copy queue or a job card has been offered for each active lane: the token register is G with its values as they were and pending, the
split is held, and nothing else of the warp changes but its PCs (R158, R159, R206). -/
structure State.Offered (s t : State) (c : Ctl) (tok : Reg) (held : List Hold) : Prop where
  advanced : s.Advanced t c
  pending : t.cur.pends = s.cur.pends ++ [⟨s.nextId, [tok], [], true, none, false, s.cur.inHandler⟩]
  held : t.cur.holds = s.cur.holds ++ held
  token : ∀ l < 128, t.rd tok l = s.rd tok l
  frame : s.WarpFrame { s with cur := { t.cur with pends := s.cur.pends, holds := s.cur.holds } } [tok] Lane.noPc

/-! ## Safe states -/

/-- Thirteen Tidemark copies, no two of them more than 4 apart (R12, R13). -/
def State.TideOk (s : State) : Prop := s.tide.length = 13 ∧ withinEps s.tide = true

/-- Every listed byte of memory and scratchpad is in canonical form. -/
def State.MemOk (s : State) : Prop := Memory.wf s.mem.home = true ∧ Memory.wf s.mem.spad = true

end Sys2Proof.Machine
end

