-- ==== Sys2Proof/Certificates/Slice0/Obligations.lean ====
section
/-! DEFINITION. The statements for the provers. -/

open Sys2Proof Sys2Proof.Machine

/-! ## Encoding and the step -/

/-- R241 to R252: the words of every well-formed instruction decode to that instruction, whatever bytes follow, with every operand at every value the encoding
admits. -/
def Obligations.DecodeEncodeRoundTrip : Prop := ∀ (i : Instr) (bs rest : List Byte),
  i.wellFormed = true → encode i = some bs → decode (bs ++ rest) = some (i, rest)

/-- R244, R252: bytes that decode are the words of the instruction they decode to, which is well formed; two encodings of one instruction do not exist. -/
def Obligations.DecodedBytesAreTheEncoding : Prop := ∀ (bs rest : List Byte) (i : Instr),
  decode bs = some (i, rest) → i.wellFormed = true ∧ ∃ ws, encode i = some ws ∧ ws ++ rest = bs

/-- R241: an instruction takes 4, 12 or 20 bytes by its LEN code, and the next one starts after them. -/
def Obligations.DecodedLength : Prop := ∀ (bs rest : List Byte) (i : Instr) (c : Ctl) (s : State),
  decode bs = some (i, rest) → instrCtl i = some c →
    bs.length = rest.length + (if c.len = 0 then 4 else if c.len = 3 then 20 else 12)
    ∧ s.next c = s.ipc + BitVec.ofNat 64 (bs.length - rest.length)

/-- The worked encodings of the entries: some words of the spec and what they stand for. -/
def Obligations.WorkedEncodings : Prop :=
  let c (n : BitVec 2) : Ctl := ⟨false, 7, n, 0, false⟩
  decodeTableWord 32 0x70010848 = some (.brev (c 0) false 2 1)
  ∧ decodeTableWord 96 0x0000000000010000_70811001 = some (.iadd (c 1) ⟨false, false, true⟩ 4 1 2)
  ∧ decodeTableWord 96 0x0000000000000500_70C20455 = some (.icmp (c 1) false true 2 1 2 3)
  ∧ decodeTableWord 96 0x0000001000180000_70062141 = some (.ld (c 1) ⟨0, 1, 4, 0, 16⟩ 8 6)
  ∧ decodeTableWord 96 0x0000000000000040_700021E1 = some (.jenterF (c 1) 8)
  ∧ decodeTableWord 32 0x73042A84 = some (.chain (c 0) 10 4 12)
  ∧ decodeTableWord 96 0x0000000300000040_7000164D = some (.aqryImmediate (c 1) 5 3)
  ∧ decodeTableWord 32 0x70000314 = some (.trapret (c 0))

/-- A split that issues runs the instruction its bytes decode to: when it is the next start of its partition (R38) and its words, those its lanes have fetched
ahead (R309) or else those fetched now, decode,
the step answers what exec answers, with what issuing adds (R33 to R39); a failing source register traps (R238), and words that are no instruction take the
illegal instruction trap (R252).
The model's choices in it: notes/assumptions/1.md, 8.md, 10.md and 11.md. -/
def Obligations.StepRunsDecodedInstruction : Prop := ∀ (s s2 f : State) (core pos : Nat) (pc : DWord) (ts : List Turn) (cd : Cand) (rest : List Cand)
    (bs : List Byte),
  let s1 := State.formList { s with turns := ts } core (pos % 8)
  s.boot.phase ≠ 15 → s.turns = .issue core pos pc :: ts → s1.starts core (pos % 8) = some (cd, rest) →
  s2 = (s1.at' cd).putPart { s1.partOf core (pos % 8) with cands := some rest } → s2.cur.core = core → s2.cur.pos = pos → cd.pc = pc →
  (match s2.cur.fetched.find? fun k => k.pc == s2.ipc && s2.split &&& ~~~ k.lanes == 0 with
    | some k => bs = k.bytes ∧ f = s2
    | none => s2.fetch s2.cur.core s2.cur.ctx s2.ipc = .ok (bs, f)) →
    (∀ i tail t, decode bs = some (i, tail) → exec i f = .next t → (f.failsRead i = true → f.trapped t = true) →
      step s = .next (f.finishIssue t i).settle)
    ∧ (∀ i tail t c, decode bs = some (i, tail) → exec i f = .next t → instrCtl i = some c → f.failsRead i = true → f.trapped t = false →
      step s = .next (f.finishIssue (f.trapP (f.act c) 17 3 0 none 0 4) i).settle)
    ∧ (decode bs = none → step s = .next (f.illegal (f.act (rawOfBytes bs).ctl)).settle)

/-- An event of the part is one step of its own: the step answers what exec answers and settles; an instruction form is no event.
The model's choices in it: notes/assumptions/1.md. -/
def Obligations.StepRunsEvents : Prop := ∀ (s t : State) (i : Instr) (ts : List Turn),
  s.boot.phase ≠ 15 → s.turns = .event i :: ts →
    (i.toRaw = none → exec i { s with turns := ts } = .next t → step s = .next t.settle)
    ∧ (i.toRaw ≠ none → step s = .next (State.settle { s with turns := ts }))

/-- R272: a part that has halted in start-up moves by a reset only. -/
def Obligations.HaltedPartStops : Prop := ∀ (s : State), s.boot.phase = 15 → s.turn.1.resets = false → step s = .fault .halted

/-- R33, R34, R37: what an issue leaves in the warp. Outside the handler the lanes of the split have issued in this cycle and hold wait count 0; a result that
comes a fixed time later is pending: an entry of the scoreboard with the registers and predicates the instruction writes and the cycle in which its resource has
the result; nothing else is added. An `AQRY` is marked as a query (R41).
The model's choices in it: notes/assumptions/8.md. -/
def Obligations.IssueLeavesTheWarp : Prop := ∀ (s t : State) (i : Instr),
  s.unissued t = false → s.cur.inHandler = false → t.cur.inHandler = false →
    let w := (s.finishIssue t i).cur
    w.acted = t.cur.acted ||| s.split
    ∧ (∀ delay, (resourceOf s i (s.actOf i)).2.2 = some delay → s.actOf i ≠ 0 → s.trapped t = false →
        w.pends = t.cur.pends ++ [⟨0, (operandUse i).writes, (operandUse i).pwrites, false, some (s.ccOf (t.cur.core / 24) + delay),
          match i with | .aqry .. | .aqryImmediate .. => true | _ => false, false⟩])
    ∧ ((resourceOf s i (s.actOf i)).2.2 = none ∨ s.actOf i = 0 ∨ s.trapped t = true → w.pends = t.cur.pends)
    ∧ (∀ l < 128, w.lane l = if s.split.getLsbD l then { t.cur.lane l with wait := 0 } else t.cur.lane l)
    ∧ w.arch.vregs = t.cur.arch.vregs ∧ w.arch.preds = t.cur.arch.preds ∧ w.arch.sets = t.cur.arch.sets
    ∧ (s.finishIssue t i).mem = t.mem ∧ (s.finishIssue t i).tide = t.tide

/-- R13: from every state in which thirteen Tidemark copies stand at most ε = 4 ticks apart, every step leads to a state in which they do.
The model's choices in it: notes/assumptions/2.md. -/
def Obligations.TidemarkCopiesStayWithinEpsilon : Prop := ∀ (s t : State), s.TideOk → step s = .next t → t.TideOk

/-- R229, R158, R206: after every step a stalled warp has an unchecked access, and a split is held only by a queue entry or a bank card not yet accepted, or
by slots it waits for.
The model's choices in it: notes/assumptions/1.md and 55.md. -/
def Obligations.EveryStepSettles : Prop := ∀ (s t : State), step s = .next t → ∀ w ∈ t.warps,
  (w.stalled = true → t.unchecked w.uid ≠ [])
  ∧ ∀ h ∈ w.holds, match h.kind with
    | .queue ins => ∃ e ∈ t.copy.entries, e.ins = ins ∧ e.acc = 0
    | .jobs ins => ∃ k ∈ t.cards, k.ins = ins ∧ k.acc = 0
    | .slots _ => True

/-- R13, R213, R272: right after reset the Tidemark copies agree and stand at 0, no warp, launch or access exists, every context is EMPTY and start-up has
not begun.
The model's choices in it: notes/assumptions/4.md and 6.md. -/
def Obligations.ResetState : Prop :=
  State.reset.TideOk ∧ (∀ d < 13, State.reset.tideOf d = 0) ∧ State.reset.MemOk
  ∧ State.reset.wgs = [] ∧ State.reset.launches = [] ∧ State.reset.reqs = [] ∧ State.reset.others = [] ∧ State.reset.cur.hasExited = true
  ∧ (∀ n < 8, (getKey Context.n n State.reset.ctl.ctxs).map (·.state) = some .empty)
  ∧ State.reset.boot.phase = 0

/-! ## Integer, logic and bit-field instructions -/

/-- R327, R328, R58, R61: every two-source instruction of the integer family completes with the exact result, clamped under SAT or modulo 2^Z, and counts one
saturation for each active lane the clamp changed. -/
def Obligations.IntegerTwoSourceResults : Prop := ∀ (s : State) (c : Ctl) (m : IMod) (d a b : Reg) (imm : DWord),
  let flat (x : Src) : Bool := ((s.reg a).isU && x.isU s) || (!m.sat && s.flat a && x.flat s)
  let flatMul (x : Src) : Bool := ((s.reg a).isU || (!m.sat && s.flat a)) && x.isU s
  let flatU (x : Src) : Bool := (s.reg a).isU && x.isU s
  let high (x y : Int) : Int := x * y / 2 ^ (if m.w then 64 else 32)
  s.IntegerTwo (.iadd c m d a b) c m d a (.reg b) (· + ·) (flat (.reg b))
  ∧ s.IntegerTwo (.iaddImmediate c m d a imm) c m d a (.imm imm) (· + ·) (flat (.imm imm))
  ∧ s.IntegerTwo (.isub c m d a b) c m d a (.reg b) (· - ·) (flat (.reg b))
  ∧ s.IntegerTwo (.isubImmediate c m d a imm) c m d a (.imm imm) (· - ·) (flat (.imm imm))
  ∧ s.IntegerTwo (.imul c m d a b) c m d a (.reg b) (· * ·) (flatMul (.reg b))
  ∧ s.IntegerTwo (.imulImmediate c m d a imm) c m d a (.imm imm) (· * ·) (flatMul (.imm imm))
  ∧ s.IntegerTwo (.imulh c m d a b) c m d a (.reg b) high (flatU (.reg b))
  ∧ s.IntegerTwo (.imulhImmediate c m d a imm) c m d a (.imm imm) high (flatU (.imm imm))
  ∧ s.IntegerTwo (.imin c m d a b) c m d a (.reg b) min (flatU (.reg b))
  ∧ s.IntegerTwo (.iminImmediate c m d a imm) c m d a (.imm imm) min (flatU (.imm imm))
  ∧ s.IntegerTwo (.imax c m d a b) c m d a (.reg b) max (flatU (.reg b))
  ∧ s.IntegerTwo (.imaxImmediate c m d a imm) c m d a (.imm imm) max (flatU (.imm imm))

/-- R327, R328: `IMAD`, `IABS` and `INEG` complete with their exact results, clamped under SAT or modulo 2^Z. -/
def Obligations.IntegerMadAbsNegResults : Prop := ∀ (s : State) (c : Ctl) (m : IMod) (d a b e : Reg) (imm : DWord),
  let mad (i : Instr) (x : Src) : Prop :=
    let p (l : Nat) : Int := intOf m.un (s.rd a l) * intOf m.un (x.at s l) + intOf m.un (s.rd e l)
    let q (l : Nat) : Int := intOf m.un (s.rdPair a l) * intOf m.un (x.pair s l) + intOf m.un (s.rdPair e l)
    (m.w = false → s.Ready c ([d, a, e] ++ x.names) [d]
        (((s.reg a).isU && x.isU s && (s.reg e).isU) || (!m.sat && s.flat a && x.isU s && s.flat e)) →
      s.Yields i c d (fun l => fitInt m.un m.sat 32 (p l)) (laneCounts (s.act c) fun l => fitCount m.un m.sat 32 (p l)))
    ∧ (m.w = true → s.Ready c (pairRegs d ++ pairRegs a ++ x.pairNames ++ pairRegs e) [d, d + 1] (s.pairU a && x.pairU s && s.pairU e) →
      s.YieldsPair i c d (fun l => fitInt m.un m.sat 64 (q l)) (laneCounts (s.act c) fun l => fitCount m.un m.sat 64 (q l)))
  let one (i : Instr) (f : Int → Int) (fl : Bool) : Prop :=
    (m.w = false → s.Ready c [d, a] [d] fl →
      s.Yields i c d (fun l => fitInt false m.sat 32 (f (s.rd a l).toInt)) (laneCounts (s.act c) fun l => fitCount false m.sat 32 (f (s.rd a l).toInt)))
    ∧ (m.w = true → s.Ready c (pairRegs d ++ pairRegs a) [d, d + 1] (s.pairU a) →
      s.YieldsPair i c d (fun l => fitInt false m.sat 64 (f (s.rdPair a l).toInt))
        (laneCounts (s.act c) fun l => fitCount false m.sat 64 (f (s.rdPair a l).toInt)))
  mad (.imad c m d a b e) (.reg b) ∧ mad (.imadImmediate c m d a imm e) (.imm imm)
  ∧ one (.iabs c m d a) (fun x => |x|) (s.reg a).isU
  ∧ one (.ineg c m d a) (fun x => -x) ((s.reg a).isU || (!m.sat && s.flat a))

/-- R280, R342: the logic instructions complete with the bitwise result on words, or on pairs for `.W`. -/
def Obligations.LogicResults : Prop := ∀ (s : State) (c : Ctl) (w : Bool) (d a b : Reg) (imm : DWord),
  s.BitwiseTwo (.and c w d a b) c w d a (.reg b) (· &&& ·) (· &&& ·)
  ∧ s.BitwiseTwo (.andImmediate c w d a imm) c w d a (.imm imm) (· &&& ·) (· &&& ·)
  ∧ s.BitwiseTwo (.or c w d a b) c w d a (.reg b) (· ||| ·) (· ||| ·)
  ∧ s.BitwiseTwo (.orImmediate c w d a imm) c w d a (.imm imm) (· ||| ·) (· ||| ·)
  ∧ s.BitwiseTwo (.xor c w d a b) c w d a (.reg b) (· ^^^ ·) (· ^^^ ·)
  ∧ s.BitwiseTwo (.xorImmediate c w d a imm) c w d a (.imm imm) (· ^^^ ·) (· ^^^ ·)
  ∧ s.BitwiseOne (.not c w d a) c w d a (~~~ ·) (~~~ ·)

/-- R354, R339: the shifts complete with the shifted value, zero or the sign for a count of Z or more; `LEA` adds its first source and its shifted second. -/
def Obligations.ShiftAndLeaResults : Prop := ∀ (s : State) (c : Ctl) (w un : Bool) (d a b : Reg) (imm : DWord) (shift : BitVec 5),
  let left (x : Src) : Bool := s.flat a && x.isU s
  let other (x : Src) : Bool := (s.reg a).isU && x.isU s
  let lea (i : Instr) (x : Src) (idx : Nat → DWord) : Prop :=
    (w = false → s.Ready c ([d, a] ++ x.names) [d] (other x) → s.Yields i c d (fun l => s.rd a l + (x.at s l <<< shift.toNat)) .zero)
    ∧ (w = true → s.Ready c (pairRegs d ++ pairRegs a ++ x.names) [d, d + 1] (s.pairU a && x.isU s) →
      s.YieldsPair i c d (fun l => s.rdPair a l + (idx l <<< shift.toNat)) .zero)
  s.Shifts (.shl c w d a b) c w d a (.reg b) (· <<< ·) (· <<< ·) (left (.reg b))
  ∧ s.Shifts (.shlImmediate c w d a imm) c w d a (.imm imm) (· <<< ·) (· <<< ·) (left (.imm imm))
  ∧ s.Shifts (.shr c w d a b) c w d a (.reg b) (· >>> ·) (· >>> ·) (other (.reg b))
  ∧ s.Shifts (.shrImmediate c w d a imm) c w d a (.imm imm) (· >>> ·) (· >>> ·) (other (.imm imm))
  ∧ s.Shifts (.sar c w d a b) c w d a (.reg b) BitVec.sshiftRight BitVec.sshiftRight (other (.reg b))
  ∧ s.Shifts (.sarImmediate c w d a imm) c w d a (.imm imm) BitVec.sshiftRight BitVec.sshiftRight (other (.imm imm))
  ∧ lea (.lea c w un d a b shift) (.reg b) (fun l => if un then (s.rd b l).setWidth 64 else (s.rd b l).signExtend 64)
  ∧ lea (.leaImmediate c w d a imm shift) (.imm imm) (fun _ => imm)

/-- R344, R312, R299: bit counts and bit fields. -/
def Obligations.BitFieldResults : Prop := ∀ (s : State) (c : Ctl) (w un : Bool) (d a e : Reg) (pos wid1 : BitVec 6),
  let count {n : Nat} (x : BitVec n) : BitVec n := BitVec.ofNat n ((List.range n).countP fun i => x.getLsbD i)
  let zeros {n : Nat} (x : BitVec n) : BitVec n := BitVec.ofNat n (if x = 0 then n else n - 1 - Nat.log2 x.toNat)
  let field {n : Nat} (x : BitVec n) : BitVec n :=
    if un then (x.extractLsb' pos.toNat (wid1.toNat + 1)).setWidth n else (x.extractLsb' pos.toNat (wid1.toNat + 1)).signExtend n
  let mask (n : Nat) : BitVec n := (BitVec.ofNat n (2 ^ (wid1.toNat + 1) - 1)) <<< pos.toNat
  let insert {n : Nat} (x y : BitVec n) : BitVec n := (y &&& ~~~ mask n) ||| ((x <<< pos.toNat) &&& mask n)
  s.BitwiseOne (.popc c w d a) c w d a count count
  ∧ s.BitwiseOne (.clz c w d a) c w d a zeros zeros
  ∧ s.BitwiseOne (.bfe c w un d a pos wid1) c w d a field field
  ∧ s.BitwiseTwo (.bfi c w d a e pos wid1) c w d a (.reg e) insert insert

/-- R303: `BREV`. Bit i of the result is bit Z - 1 - i of the source, over the pair for `.W`; a whole write of a U source gives U and of any other source G;
an input of 1 gives 0x8000_0000, and the word of the entry stands for the instruction it names. -/
def Obligations.BitReversal : Prop := ∀ (s : State) (c : Ctl) (w : Bool) (d a : Reg),
  s.BitwiseOne (.brev c w d a) c w d a BitVec.reverse BitVec.reverse
  ∧ (∀ (x : Word) (i : Nat), i < 32 → x.reverse.getLsbD i = x.getLsbD (31 - i))
  ∧ (∀ (x : DWord) (i : Nat), i < 64 → x.reverse.getLsbD i = x.getLsbD (63 - i))
  ∧ (w = false → s.Ready c [d, a] [d] (s.reg a).isU → wholeWrite s.cur.live (s.act c) = true → s.isRecord d = false →
      s.Completes (.brev c w d a) fun t => (t.reg d).isU = (s.reg a).isU ∧ (t.reg d).isG = !(s.reg a).isU)
  ∧ (w = true → s.Ready c (pairRegs d ++ pairRegs a) [d, d + 1] (s.pairU a) → wholeWrite s.cur.live (s.act c) = true →
      s.isRecord d = false → s.isRecord (d + 1) = false →
      s.Completes (.brev c w d a) fun t => (t.reg d).isU = s.pairU a ∧ (t.reg (d + 1)).isU = s.pairU a
        ∧ (t.reg d).isG = !s.pairU a ∧ (t.reg (d + 1)).isG = !s.pairU a)
  ∧ BitVec.reverse (0x00000001 : Word) = 0x80000000
  ∧ decodeTableWord 32 0x70010848 = some (.brev ⟨false, 7, 0, 0, false⟩ false 2 1)

/-- R329, R318, R319: the compare instructions set a predicate bit in each active lane. -/
def Obligations.CompareResults : Prop := ∀ (s : State) (c : Ctl) (w un fzi : Bool) (cond : BitVec 3) (p : PReg) (a b : Reg) (imm : DWord) (fimm : Word)
    (mask : BitVec 9),
  let icmp (i : Instr) (x : Src) : Prop :=
    (w = false → s.Ready c ([a] ++ x.names) [] true → s.YieldsPred i c p (fun l => intCond cond (intOf un (s.rd a l)) (intOf un (x.at s l))) .zero)
    ∧ (w = true → s.Ready c (pairRegs a ++ x.pairNames) [] true →
      s.YieldsPred i c p (fun l => intCond cond (intOf un (s.rdPair a l)) (intOf un (x.pair s l))) .zero)
  let fcmp (i : Instr) (x : Src) : Prop :=
    s.Ready c ([a] ++ x.names) [] true → s.YieldsPred i c p (fun l => (fcmpBit fzi cond (s.rd a l).toNat (x.at s l).toNat).1)
      (laneCounts (s.act c) fun l => (fcmpBit fzi cond (s.rd a l).toNat (x.at s l).toNat).2)
  icmp (.icmp c w un cond p a b) (.reg b) ∧ icmp (.icmpImmediate c w un cond p a imm) (.imm imm)
  ∧ fcmp (.fcmp c fzi cond p a b) (.reg b) ∧ fcmp (.fcmpImmediate c fzi cond p a fimm) (.imm (fimm.setWidth 64))
  ∧ (s.Ready c [a] [] true → s.YieldsPred (.fclass c p a mask) c p (fun l => mask.getLsbD (fclassOf (s.rd a l).toNat)) .zero)

/-- R59: the affine rows. A whole write of `IADD`, `ISUB`, `INEG`, `IMUL`, `SHL` or `IMAD` with A and U sources and no SAT gives the A register with the
base and the stride the table names, which for a stride of 0 and U sources is the U register. -/
def Obligations.AffineShapes : Prop := ∀ (s : State) (c : Ctl) (un : Bool) (d a b e : Reg) (x y z : Word × Word) (k : Word),
  let val (u : Bool) (b st : Word) : VReg := if u then .u b else .a b st
  let aff (r : Reg) (v : Word × Word) : Prop := (s.reg r).affine = some v
  let m : IMod := ⟨false, un, false⟩
  let gives (i : Instr) (names : List Reg) (v : VReg) : Prop :=
    s.Ready c names [d] true → wholeWrite s.cur.live (s.act c) = true → s.isRecord d = false → s.Completes i fun t => t.reg d = v
  aff a x →
    (aff b y → gives (.iadd c m d a b) [d, a, b] (val ((s.reg a).isU && (s.reg b).isU) (x.1 + y.1) (x.2 + y.2))
      ∧ gives (.isub c m d a b) [d, a, b] (val ((s.reg a).isU && (s.reg b).isU) (x.1 - y.1) (x.2 - y.2)))
    ∧ gives (.ineg c m d a) [d, a] (val (s.reg a).isU (-x.1) (-x.2))
    ∧ (s.reg b = .u k → gives (.imul c m d a b) [d, a, b] (val (s.reg a).isU (x.1 * k) (x.2 * k))
      ∧ gives (.shl c false d a b) [d, a, b] (val (s.reg a).isU (x.1 <<< k.toNat) (x.2 <<< k.toNat)))
    ∧ (s.reg b = .u k → aff e z → gives (.imad c m d a b e) [d, a, e, b] (val ((s.reg a).isU && (s.reg e).isU) (x.1 * k + z.1) (x.2 * k + z.2)))
    ∧ gives (.mov c false d a) [d, a] (s.reg a)

/-! ## Floating point -/

/-- R79, R80, R317, R322: the two- and three-source floating-point instructions complete with the value and the counts of their operation in every active
lane, in FP32 or in both BF16 halves.
The model's choices in it: notes/assumptions/7.md. -/
def Obligations.FloatArithmeticResults : Prop := ∀ (s : State) (c : Ctl) (m : FMod) (d a b e : Reg) (imm : Word),
  let two (r : Instr) (i : Instr) (f : Word → Word → Word × Counts) : Prop :=
    s.FloatTwo r c d a (.reg b) f ∧ s.FloatTwo i c d a (.imm (imm.setWidth 64)) f
  two (.fadd c m d a b) (.faddImmediate c m d a imm) (fun x y => asWord (fp32.fadd m.rnd m.sat m.fzi m.fzo x.toNat y.toNat))
  ∧ two (.fsub c m d a b) (.fsubImmediate c m d a imm) (fun x y => asWord (fp32.fsub m.rnd m.sat m.fzi m.fzo x.toNat y.toNat))
  ∧ two (.fmul c m d a b) (.fmulImmediate c m d a imm) (fun x y => asWord (fp32.fmul m.rnd m.sat m.fzi m.fzo x.toNat y.toNat))
  ∧ two (.fmin c m d a b) (.fminImmediate c m d a imm) (fun x y => asWord (fp32.fminmax false m.fzi m.fzo x.toNat y.toNat))
  ∧ two (.fmax c m d a b) (.fmaxImmediate c m d a imm) (fun x y => asWord (fp32.fminmax true m.fzi m.fzo x.toNat y.toNat))
  ∧ two (.hadd2 c m d a b) (.hadd2Immediate c m d a imm) (onHalves2 (bf16.fadd m.rnd m.sat m.fzi m.fzo))
  ∧ two (.hmul2 c m d a b) (.hmul2Immediate c m d a imm) (onHalves2 (bf16.fmul m.rnd m.sat m.fzi m.fzo))
  ∧ two (.hmin2 c m d a b) (.hmin2Immediate c m d a imm) (onHalves2 (bf16.fminmax false m.fzi m.fzo))
  ∧ two (.hmax2 c m d a b) (.hmax2Immediate c m d a imm) (onHalves2 (bf16.fminmax true m.fzi m.fzo))
  ∧ s.FloatThree (.ffma c m d a b e) c d a (.reg b) e (fun x y z => asWord (fp32.ffma m.rnd m.sat m.fzi m.fzo x.toNat y.toNat z.toNat))
  ∧ s.FloatThree (.ffmaImmediate c m d a imm e) c d a (.imm (imm.setWidth 64)) e
      (fun x y z => asWord (fp32.ffma m.rnd m.sat m.fzi m.fzo x.toNat y.toNat z.toNat))
  ∧ s.FloatThree (.hfma2 c m d a b e) c d a (.reg b) e (onHalves3 (bf16.ffma m.rnd m.sat m.fzi m.fzo))
  ∧ s.FloatThree (.hfma2Immediate c m d a imm e) c d a (.imm (imm.setWidth 64)) e (onHalves3 (bf16.ffma m.rnd m.sat m.fzi m.fzo))

/-- R81, R82, R313, R314: the special functions, `FRND` and `CVT` complete; a special function always gives G (R59).
The model's choices in it: notes/assumptions/3.md and 7.md. -/
def Obligations.FloatUnaryResults : Prop := ∀ (s : State) (c : Ctl) (m : FMod) (src dst : BitVec 4) (d a : Reg),
  let special (i : Instr) (n : Nat) : Prop := s.FloatOne i c d a true (fun x => asWord (specialBits n m.fzi m.fzo x.toNat))
  special (.frcp c m d a) 0 ∧ special (.frsq c m d a) 1 ∧ special (.fex2 c m d a) 2 ∧ special (.flg2 c m d a) 3
  ∧ special (.fsin c m d a) 4 ∧ special (.fcos c m d a) 5
  ∧ s.FloatOne (.fsqrt c m d a) c d a true (fun x => asWord (sqrtBits m.rnd m.fzi m.fzo x.toNat))
  ∧ s.FloatOne (.frnd c m d a) c d a false (fun x => asWord (frndBits m.rnd m.fzi x.toNat))
  ∧ s.FloatOne (.cvt c m src dst d a) c d a false (fun x => asWord (cvtBits src.toNat dst.toNat m.rnd m.sat m.fzi m.fzo x.toNat))

/-! ## Moves, lanes and predicates -/

/-- R340, R355: `MOV`, `MOVI` and `SEL`.
The model's choices in it: notes/assumptions/58.md. -/
def Obligations.MoveAndSelectResults : Prop := ∀ (s : State) (c : Ctl) (w : Bool) (d a b : Reg) (imm : DWord) (lit : Word) (p : PReg),
  let sel (i : Instr) (x : Src) : Prop :=
    s.Ready c ([d, a] ++ x.names) [d] (p == 7 && (s.reg a).isU && x.isU s) →
      s.Yields i c d (fun l => if (s.cur.pred p).getLsbD l then s.rd a l else x.at s l) .zero
  (w = false → s.Ready c [d, a] [d] (s.flat a) → s.Yields (.mov c w d a) c d (s.rd a) .zero)
  ∧ (w = true → s.Ready c (pairRegs d ++ pairRegs a) [d, d + 1] (s.pairU a) → s.YieldsPair (.mov c w d a) c d (s.rdPair a) .zero)
  ∧ (w = false → s.Ready c [d] [d] true → s.Yields (.movi c w d imm) c d (fun _ => imm.setWidth 32) .zero)
  ∧ (w = true → s.Ready c (pairRegs d) [d, d + 1] true → s.YieldsPair (.movi c w d imm) c d (fun _ => imm) .zero)
  ∧ sel (.sel c d a b p) (.reg b) ∧ sel (.selImmediate c d a lit p) (.imm (lit.setWidth 64))

/-- R335: `LANEX` reads lane IDX, XOR, UP or DOWN of its segment of 128 >> SEG lanes; the last two keep the lane's own value at the segment's end. -/
def Obligations.LaneExchangeResults : Prop := ∀ (s : State) (c : Ctl) (seg : BitVec 3) (mode : BitVec 2) (d a b : Reg) (imm : Word),
  let n : Nat := 128 / 2 ^ seg.toNat
  let src (l k : Nat) : Nat :=
    if mode = 0 then l / n * n + k % n
    else if mode = 1 then l / n * n + (l % n ^^^ k % n)
    else if mode = 2 then (if k ≤ l % n then l - k else l)
    else (if l % n + k < n then l + k else l)
  let does (i : Instr) (x : Src) : Prop :=
    s.Ready c ([d, a] ++ x.names) [d] false → s.Yields i c d (fun l => s.rd a (src l (x.at s l).toNat)) .zero
  does (.lanex c seg mode d a b) (.reg b) ∧ does (.lanexImmediate c seg mode d a imm) (.imm (imm.setWidth 64))

/-- R367, R346, R343: `VOTE`, `PSET` and `PCNT`. -/
def Obligations.VoteAndPredicateResults : Prop := ∀ (s : State) (c : Ctl) (form : BitVec 2) (opc : BitVec 3) (pfx : Bool) (d x y : Reg) (p : PReg),
  let on (l : Nat) : Bool := s.active c l && (s.cur.pred p).getLsbD l
  let all : Bool := (List.range 128).all fun l => !s.active c l || (s.cur.pred p).getLsbD l
  let any : Bool := (List.range 128).any on
  let bit (r : Reg) (l : Nat) : Bool := (s.cur.pred (r.setWidth 3)).getLsbD l
  (s.Ready c [] [] true →
    (form = 0 → s.YieldsPred (.vote c form d p) c (d.setWidth 3) (fun _ => all) .zero)
    ∧ (form = 1 → s.YieldsPred (.vote c form d p) c (d.setWidth 3) (fun _ => any) .zero)
    ∧ (form = 2 → s.YieldsPred (.vote c form d p) c (d.setWidth 3) (fun _ => all || !any) .zero)
    ∧ (opc = 0 → s.YieldsPred (.pset c opc p x y) c p (fun l => bit x l && bit y l) .zero)
    ∧ (opc = 1 → s.YieldsPred (.pset c opc p x y) c p (fun l => bit x l || bit y l) .zero)
    ∧ (opc = 2 → s.YieldsPred (.pset c opc p x y) c p (fun l => bit x l ^^ bit y l) .zero)
    ∧ (opc = 3 → s.YieldsPred (.pset c opc p x y) c p (fun l => bit x l && !bit y l) .zero))
  ∧ (form = 3 → s.Ready c [d, d + 1, d + 2, d + 3] [d, d + 1, d + 2, d + 3] true → s.Completes (.vote c form d p) fun t =>
      (∀ i < 4, s.Wrote t c (d + BitVec.ofNat 6 i) fun _ => ((s.cur.pred p &&& s.act c) >>> (32 * i)).setWidth 32)
      ∧ s.Advanced t c ∧ s.RegFrame t [d, d + 1, d + 2, d + 3] [])
  ∧ (opc = 4 → s.Ready c [x] [] true → s.YieldsPred (.pset c opc p x y) c p (fun l => s.rd x l != 0) .zero)
  ∧ (s.Ready c [d] [d] (!pfx) → s.Yields (.pcnt c pfx d p) c d
      (fun l => BitVec.ofNat 32 ((List.range (if pfx then l else 128)).countP on)) .zero)

/-- R62, R356: `SHAPE` gives the tag code and `UNIF` keeps the values of the lanes that are not Exited, whatever the guard; when those lanes hold one value
the result of `UNIF` is U, and an A result fits every one of them. -/
def Obligations.ShapeAndUnifResults : Prop := ∀ (s : State) (c : Ctl) (d a : Reg),
  let does (i : Instr) (fl : Bool) (P : State → Prop) : Prop :=
    (∀ r ∈ [d, a], s.cur.nameable r = true) → s.act c ≠ 0 → (fl = true ∨ s.HasRoom [d]) → s.Completes i fun t =>
      P t ∧ s.Advanced t c ∧ s.RegFrame t [d] []
  does (.shape c d a) true (fun t => s.isRecord d = false → t.reg d = .u (BitVec.ofNat 32 (s.reg a).code))
  ∧ does (.unif c d a) (!(unifVal s.cur.live (s.reg a)).isG) (fun t => s.isRecord d = false →
      (∀ l < 128, s.cur.live.getLsbD l = true → t.rd d l = s.rd a l)
      ∧ (s.cur.live ≠ 0 → (∃ x, ∀ l < 128, s.cur.live.getLsbD l = true → s.rd a l = x) → (t.reg d).isU = true))

/-! ## Control flow -/

/-- R33, R233, R302, R305: `BRA` and `BRX` send the active lanes to the target and the others of the split to the next instruction, and change nothing else.
`BRX` asks that the targets be instruction addresses; in handler mode only that of the lowest lane of HMASK that is not Exited. Outside it a misaligned target
traps with cause 4 and one beyond the address space with cause 2 and detail 3, each for the lowest such lane. -/
def Obligations.BranchResults : Prop := ∀ (s : State) (c : Ctl) (off : Word) (a : Reg) (l0 : Nat),
  let goes (i : Instr) (f : Nat → DWord) : Prop := s.Completes i fun t =>
    s.Moved t (fun l => if s.active c l then f l else s.next c) ∧ s.WarpFrame t [] Lane.noPc ∧ t.cur.arch.sets = s.cur.arch.sets
      ∧ t.cur.acted = s.cur.acted
  goes (.bra c off) (fun _ => s.ipc + off.signExtend 64)
  ∧ (s.cur.nameable a = true → s.cur.nameable (a + 1) = true →
    ((∀ l < 128, s.active c l = true → (s.cur.inHandler = true → l = lowestLane (s.split &&& s.cur.live)) → goodTarget (s.rdPair a l)) →
      goes (.brx c a) (s.rdPair a))
    ∧ (s.TakesTraps → l0 < 128 → s.active c l0 = true →
      ((s.rdPair a l0).toNat % 4 ≠ 0 → (∀ l < l0, s.active c l = true → (s.rdPair a l).toNat % 4 = 0) →
        s.TrapsAt (.brx c a) c 4 0 0 (some l0) (s.rdPair a l0) 3)
      ∧ (2 ^ 56 ≤ (s.rdPair a l0).toNat → (∀ l < 128, s.active c l = true → (s.rdPair a l).toNat % 4 = 0) →
        (∀ l < l0, s.active c l = true → (s.rdPair a l).toNat < 2 ^ 56) → s.TrapsAt (.brx c a) c 2 3 255 (some l0) (s.rdPair a l0) 3)))

/-- R306: `CALL` and `CALLX` write the return address into v62 of the active lanes, raise their depth and send them to the target. With REGS below 63, or at
depth 65,535, the instruction is illegal; v62 without a slot overflows; a target of `CALLX` that is misaligned traps with cause 4 and one beyond the address
space with cause 2 and detail 3, each for the lowest such lane. Nothing changes then. -/
def Obligations.CallResults : Prop := ∀ (s : State) (c : Ctl) (off : Word) (a : Reg) (l0 : Nat),
  let deep : Prop := ∃ l < 128, s.active c l = true ∧ (s.cur.lane l).depth = 65535
  let calls (i : Instr) (f : Nat → DWord) : Prop :=
    63 ≤ s.cur.hdr.regs → s.act c ≠ 0 → s.cur.inHandler = false → s.HasRoom [62] → ¬deep →
      s.Completes i fun t =>
        s.Moved t (fun l => if s.active c l then f l else s.next c) ∧ s.Wrote t c 62 (fun _ => (s.next c).setWidth 32)
        ∧ (∀ l < 128, (t.cur.lane l).depth = if s.active c l then (s.cur.lane l).depth + 1 else (s.cur.lane l).depth)
        ∧ s.WarpFrame t [62] Lane.noDepth ∧ t.cur.arch.sets = s.cur.arch.sets
  let stops (i : Instr) : Prop := s.TakesTraps →
    (s.cur.hdr.regs < 63 → s.TrapsAt i c 1 0 0 none 0 4)
    ∧ (63 ≤ s.cur.hdr.regs → deep → s.TrapsAt i c 1 0 0 none 0 4)
    ∧ (63 ≤ s.cur.hdr.regs → ¬deep → s.act c ≠ 0 → (s.cur.arch.vregs.getD 62 (.u 0)).isG = false → s.cur.arch.gCount = s.cur.hdr.gmax →
        s.TrapsAt i c 8 0 62 none 0 4)
  calls (.call c off) (fun _ => s.ipc + off.signExtend 64) ∧ stops (.call c off)
  ∧ (s.cur.nameable a = true → s.cur.nameable (a + 1) = true →
    ((∀ l < 128, s.active c l = true → goodTarget (s.rdPair a l)) → calls (.callx c a) (s.rdPair a))
    ∧ stops (.callx c a)
    ∧ (s.TakesTraps → 63 ≤ s.cur.hdr.regs → ¬deep → s.HasRoom [62] → l0 < 128 → s.active c l0 = true →
      ((s.rdPair a l0).toNat % 4 ≠ 0 → (∀ l < l0, s.active c l = true → (s.rdPair a l).toNat % 4 = 0) →
        s.TrapsAt (.callx c a) c 4 0 0 (some l0) (s.rdPair a l0) 3)
      ∧ (2 ^ 56 ≤ (s.rdPair a l0).toNat → (∀ l < 128, s.active c l = true → (s.rdPair a l).toNat % 4 = 0) →
        (∀ l < l0, s.active c l = true → (s.rdPair a l).toNat < 2 ^ 56) → s.TrapsAt (.callx c a) c 2 3 255 (some l0) (s.rdPair a l0) 3)))

/-- R352, R54: `RET` sends each active lane to the address in v62 within the 4 GiB of its PC and lowers its depth. With REGS below 64, or at depth 0, it is
illegal; a frame-bound set that a lane would leave behind raises the orphaned-set fault, detail 1, with the lowest such set; a misaligned address traps with
cause 4 for the lowest such lane. Nothing changes then. -/
def Obligations.ReturnResult : Prop := ∀ (s : State) (c : Ctl) (k l0 : Nat),
  let target (l : Nat) : DWord := (s.ipc &&& 0x00FFFFFF00000000) + (s.rd 62 l).setWidth 64
  let shallow : Prop := ∃ l < 128, s.active c l = true ∧ (s.cur.lane l).depth = 0
  let leaves (k : Nat) : Prop := ∃ l < 128, s.active c l = true ∧ (s.setNo k).fb = true ∧ (s.setNo k).m.getLsbD l = true
    ∧ (s.cur.lane l).depth.toNat - 1 < (s.setNo k).d.toNat
  (64 ≤ s.cur.hdr.regs → s.act c ≠ 0 → s.cur.inHandler = false → ¬shallow → (∀ j < 16, ¬leaves j) →
    (∀ l < 128, s.active c l = true → (target l).toNat % 4 = 0) →
      s.Completes (.ret c) fun t =>
        s.Moved t (fun l => if s.active c l then target l else s.next c)
        ∧ (∀ l < 128, (t.cur.lane l).depth = if s.active c l then (s.cur.lane l).depth - 1 else (s.cur.lane l).depth)
        ∧ s.WarpFrame t [] Lane.noDepth ∧ t.cur.arch.sets = s.cur.arch.sets)
  ∧ (s.TakesTraps →
    (s.cur.hdr.regs < 64 → s.TrapsAt (.ret c) c 1 0 0 none 0 4)
    ∧ (64 ≤ s.cur.hdr.regs → shallow → s.TrapsAt (.ret c) c 1 0 0 none 0 4)
    ∧ (64 ≤ s.cur.hdr.regs → ¬shallow → k < 16 → leaves k → (∀ j < k, ¬leaves j) → s.TrapsAt (.ret c) c 9 1 k none 0 4)
    ∧ (64 ≤ s.cur.hdr.regs → ¬shallow → (∀ j < 16, ¬leaves j) → l0 < 128 → s.active c l0 = true → (target l0).toNat % 4 ≠ 0 →
        (∀ l < l0, s.active c l = true → (target l).toNat % 4 = 0) → s.TrapsAt (.ret c) c 4 0 0 (some l0) (target l0) 3))

/-- R39, R341: `NOP` and `YIELD` only advance the split; `YIELD`, and `NOP` with YH, mark the active lanes. -/
def Obligations.NopAndYieldResults : Prop := ∀ (s : State) (c : Ctl),
  let does (i : Instr) (mark : Bool) : Prop := s.Completes i fun t =>
    s.Advanced t c ∧ s.WarpFrame t [] Lane.noPc ∧ t.cur.arch.sets = s.cur.arch.sets
      ∧ ∀ l < 128, (t.cur.lane l).ym = ((mark && s.active c l) || (s.cur.lane l).ym)
  does (.nop c) c.yh ∧ does (.yield c) true

/-- R41, R49, R50, R315: `EXIT` outside the handler. The active lanes become Exited and leave every set, sets whose members then all wait release theirs, and
a warp whose lanes are all Exited has exited.
The model's choices in it: notes/assumptions/29.md. -/
def Obligations.ExitResult : Prop := ∀ (s : State) (c : Ctl),
  let left (k : Nat) : RejoinSet :=
    let x : RejoinSet := { s.setNo k with m := (s.setNo k).m &&& ~~~ s.act c, w := (s.setNo k).w &&& ~~~ s.act c }
    if x.m = 0 then .empty else x
  let after (l : Nat) : LaneState × BitVec 16 := (if s.active c l then .exited else (s.cur.lane l).st, (s.cur.lane l).wait)
  s.act c ≠ 0 → s.cur.inHandler = false →
    ((∃ l < 128, s.active c l = false ∧ (s.cur.lane l).st ≠ .exited ∧ (freed left l = true ∨ (s.cur.lane l).st ≠ .parked)) →
      s.Completes (.exit c) fun t => s.Advanced t c ∧ t.SetsAre left ∧ s.LanesAre t left after ∧ s.WarpFrame t [] Lane.noState)
    ∧ ((∀ l < 128, s.active c l = false → (s.cur.lane l).st = .exited) →
      s.Completes (.exit c) fun t => t.cur.hasExited = true ∧ t.cur.holds = [] ∧ t.cur.fences = [])

/-! ## Rejoin sets -/

/-- R49, R50, R54: `JENTER` and `JENTER.F` put the active lanes into the set; the first entry fixes whether it is frame-bound and at what depth. -/
def Obligations.RejoinEnterResults : Prop := ∀ (s : State) (c : Ctl) (j : SetNo) (fb : Bool),
  let x := s.setNo j.toNat
  let dep (l : Nat) : BitVec 16 := (s.cur.lane l).depth
  let d0 : BitVec 16 := dep (lowestLane (s.act c))
  let y : RejoinSet := if x.m = 0 then ⟨s.act c, 0, fb, if fb then d0 else 0⟩ else { x with m := x.m ||| s.act c }
  let sets (k : Nat) : RejoinSet := if k = j.toNat then y else s.setNo k
  s.act c ≠ 0 → (x.m ≠ 0 → x.fb = fb) →
  (fb = true → ∀ l < 128, s.active c l = true → x.m.getLsbD l = false → dep l = if x.m = 0 then d0 else x.d) →
    s.Completes (if fb then .jenterF c j else .jenter c j) fun t =>
      s.Advanced t c ∧ t.SetsAre sets ∧ s.LanesAre t sets (fun l => ((s.cur.lane l).st, (s.cur.lane l).wait)) ∧ s.WarpFrame t [] Lane.noState

/-- R49, R50, R55: `JQUIT` takes the active lanes out of the set and `JWAIT` parks the members among them at the next instruction; a set whose members all
wait releases them in the same instruction.
The model's choices in it: notes/assumptions/29.md and 56.md. -/
def Obligations.RejoinLeaveResults : Prop := ∀ (s : State) (c : Ctl) (j : SetNo),
  let x := s.setNo j.toNat
  let quit : RejoinSet := if x.m &&& ~~~ s.act c = 0 then .empty else { x with m := x.m &&& ~~~ s.act c, w := x.w &&& x.m &&& ~~~ s.act c }
  let wait : RejoinSet := { x with w := x.w ||| (s.act c &&& x.m) }
  let sets (y : RejoinSet) (k : Nat) : RejoinSet := if k = j.toNat then y else s.setNo k
  let unparks (l : Nat) : Bool := x.w.getLsbD l && !(x.m.getLsbD l && !s.active c l) && (s.cur.lane l).st == .parked
  let parks (l : Nat) : Bool := s.active c l && x.m.getLsbD l
  (s.act c ≠ 0 → s.Completes (.jquit c j) fun t =>
    s.Advanced t c ∧ t.SetsAre (sets quit)
    ∧ s.LanesAre t (sets quit) (fun l => if unparks l then (.runnable, 0) else ((s.cur.lane l).st, (s.cur.lane l).wait)) ∧ s.WarpFrame t [] Lane.noState)
  ∧ (s.act c ≠ 0 → s.cur.inHandler = false →
    (∃ l < 128, (s.cur.lane l).st ≠ .exited ∧ (freed (sets wait) l = true ∨ (parks l = false ∧ (s.cur.lane l).st ≠ .parked))) →
      s.Completes (.jwait c j) fun t =>
        s.Advanced t c ∧ t.SetsAre (sets wait)
        ∧ s.LanesAre t (sets wait) (fun l => if parks l then (.parked, 0) else ((s.cur.lane l).st, (s.cur.lane l).wait))
        ∧ s.WarpFrame t [] Lane.noState)

/-- R52, R334: `JGET` reads bit 31 membership, bit 30 as 0, bit 29 frame-bound and the depth below; `JPUT` makes the active lanes members as bit 31 of their words
says and leaves the others as they were. A consistent image carries one FB and one DEPTH in its members' words, the set's own when a member outside the active
lanes stays; an empty set takes them, with D zero when FB is, and a set without a member left is empty. An inconsistent image raises the orphaned-set fault
with detail 3. Putting back what was got restores the set.
The model's choices in it: notes/assumptions/29.md and 56.md. -/
def Obligations.RejoinImageResults : Prop := ∀ (s : State) (c : Ctl) (j : SetNo) (d a : Reg) (fb : Bool) (depth : BitVec 16),
  let x := s.setNo j.toNat
  let image (l : Nat) : Word := BitVec.ofBool (x.m.getLsbD l) ++ 0#1 ++ BitVec.ofBool x.fb ++ 0#13 ++ x.d
  let joins (l : Nat) : Prop := s.active c l = true ∧ (s.rd a l).getLsbD 31 = true
  let tells (l : Nat) : Bool × BitVec 16 := ((s.rd a l).getLsbD 29, (s.rd a l).extractLsb' 0 16)
  let stays : Prop := ∃ l < 128, s.active c l = false ∧ x.m.getLsbD l = true
  let m : Mask := maskOf fun l => if s.active c l then (s.rd a l).getLsbD 31 else x.m.getLsbD l
  let y : RejoinSet := if m = 0 then ⟨0, 0, false, 0⟩
    else if x.m = 0 then ⟨m, 0, fb, if fb then depth else 0⟩
    else ⟨m, x.w &&& m, x.fb, x.d⟩
  let sets (k : Nat) : RejoinSet := if k = j.toNat then y else s.setNo k
  let unparks (l : Nat) : Bool := x.w.getLsbD l && !m.getLsbD l && (s.cur.lane l).st == .parked
  (s.Ready c [d] [d] false → s.Yields (.jget c d j) c d image .zero)
  ∧ (s.cur.nameable a = true → s.act c ≠ 0 → (∀ l < 128, joins l → tells l = (fb, depth)) → (stays → ∀ l < 128, joins l → tells l = (x.fb, x.d)) →
      s.Completes (.jput c j a) fun t => s.Advanced t c ∧ t.SetsAre sets
        ∧ s.LanesAre t sets (fun l => if unparks l then (.runnable, 0) else ((s.cur.lane l).st, (s.cur.lane l).wait)) ∧ s.WarpFrame t [] Lane.noState)
  ∧ (s.TakesTraps → s.cur.nameable a = true → ((∃ k < 128, ∃ l < 128, joins k ∧ joins l ∧ tells k ≠ tells l) ∨ (stays ∧ ∃ l < 128, joins l ∧ tells l ≠ (x.fb, x.d))) →
      s.TrapsAt (.jput c j a) c 9 3 j.toNat none 0 4)
  ∧ (∀ act, x.m ≠ 0 → x.restore act image = some x)

/-! ## Barriers -/

/-- R293, R294: `BAR.SYNC` blocks the active lanes at the barrier, `BAR.ARRIVE` counts the warp's arrival, and `BAR.WAIT` blocks only a warp that has arrived
in the current phase. The warp's next instructions are fetched anew (R309).
The model's choices in it: notes/assumptions/34.md. -/
def Obligations.BarrierResults : Prop := ∀ (s : State) (c : Ctl) (b : BitVec 5),
  let x := s.barAt b
  let refetches (t : State) : State := { t with cur := { t.cur with fetched := s.cur.fetched } }
  let blocks (i : Instr) (st : LaneState) : Prop := s.Completes i fun t =>
    s.Advanced t c ∧ t.cur.fetched = [] ∧ s.WarpFrame (refetches t) [] Lane.noState ∧ t.cur.arch.sets = s.cur.arch.sets
    ∧ ∀ l < 128, ((t.cur.lane l).st, (t.cur.lane l).wait) = if s.active c l then (st, 0) else ((s.cur.lane l).st, (s.cur.lane l).wait)
  b.toNat < s.cur.hdr.bars → s.act c ≠ 0 → s.cur.inHandler = false →
    blocks (.barSync c b) (.atBarrier b true none)
    ∧ (x.arrived.getLsbD s.cur.index = true → blocks (.barWait c b) (.atBarrier b false (some x.phase)))
    ∧ (x.arrived.getLsbD s.cur.index = false → s.Completes (.barWait c b) fun t =>
      s.Advanced t c ∧ t.cur.fetched = [] ∧ s.WarpFrame (refetches t) [] Lane.noPc)
    ∧ s.Completes (.barArrive c b) fun t =>
        s.Advanced t c ∧ t.cur.fetched = [] ∧ t = { s with cur := t.cur, wgs := t.wgs } ∧ s.WarpFrame { refetches t with wgs := s.wgs } [] Lane.noPc
        ∧ ∀ g ∈ s.wgs, ∃ h ∈ t.wgs, h = { g with bars := h.bars } ∧ ∀ k z, g.bars[k]? = some z →
            h.bars[k]? = some (if g.key = s.cur.wg ∧ k = b.toNat then
              (if z.arrived.getLsbD s.cur.index then { z with deferred := z.deferred ||| (1 <<< s.cur.index) }
                else { z with arrived := z.arrived ||| (1 <<< s.cur.index) }) else z)

/-! ## Special registers, time and sleep -/

/-- R63, R181, R358: `SREAD` gives each special register; a task reads 0 as identifier.
The model's choices in it: notes/assumptions/52.md. -/
def Obligations.SpecialRegisterResults : Prop := ∀ (s : State) (c : Ctl) (d : Reg) (i j : Nat),
  let w := s.cur
  let task : Bool := w.task.isSome
  let one (n : Nat) (fl : Bool) (f : Nat → Word) : Prop := s.Ready c [d] [d] fl → s.Yields (.sread c d (BitVec.ofNat 8 n)) c d f .zero
  let two (n : Nat) (x : DWord) : Prop := s.Ready c [d, d + 1] [d, d + 1] true → s.YieldsPair (.sread c d (BitVec.ofNat 8 n)) c d (fun _ => x) .zero
  let ident (n : Nat) (fl : Bool) (f : Nat → Nat) : Prop := s.Ready c [d, d + 1] [d, d + 1] (fl || task) →
    s.Completes (.sread c d (BitVec.ofNat 8 n)) fun t =>
      s.Wrote t c d (fun l => if task then 0 else BitVec.ofNat 32 (f l)) ∧ s.Wrote t c (d + 1) (fun _ => if task then 0 else BitVec.ofNat 32 (f 0 / 2 ^ 32))
      ∧ s.Advanced t c ∧ s.RegFrame t [d, d + 1] []
  let o := w.hdr.sumWidth 0 i
  let S := w.hdr.sumWidth 0 w.hdr.wgcut
  one 0 true (fun l => BitVec.ofNat 32 l)
  ∧ one 1 true (fun _ => if task then 0 else BitVec.ofNat 32 w.index)
  ∧ ident 2 (decide (7 ≤ S)) s.widOf
  ∧ one 3 true (fun _ => BitVec.ofNat 32 w.core) ∧ one 4 true (fun _ => BitVec.ofNat 32 (w.core / 4)) ∧ one 5 true (fun _ => w.ctx.setWidth 32)
  ∧ two 6 s.ipc ∧ one 7 false (fun l => (w.lane l).depth.setWidth 32) ∧ two 8 (BitVec.ofNat 64 s.myTide) ∧ two 9 w.argp
  ∧ (i < 6 → w.hdr.wgcut ≤ w.hdr.clcut → ident (16 + i) (decide (w.hdr.wgcut ≤ i) || decide (7 ≤ o) || (o == 0 && decide (7 ≤ w.hdr.width i)))
      (fun l => s.widOf l / 2 ^ o % 2 ^ w.hdr.width i))
  ∧ (j < 32 → one (32 + j) true (fun _ => s.acap j))
  ∧ (s.Ready c [d, d + 1] [d, d + 1] true →
      s.YieldsPair (.time c d) c d (fun _ => BitVec.ofNat 64 s.myTide) .zero
      ∧ s.YieldsPair (.timeCc c d) c d (fun _ => BitVec.ofNat 64 (s.ccOf (w.core / 24))) .zero)

/-- R359, R54: `SWRITE %depth` sets the depth of the active lanes, when each value fits and no frame-bound set would be left behind. -/
def Obligations.DepthWriteResult : Prop := ∀ (s : State) (c : Ctl) (a : Reg),
  s.cur.nameable a = true → s.act c ≠ 0 → (∀ l < 128, s.active c l = true → (s.rd a l).toNat ≤ 65535) →
  (∀ k < 16, ∀ l < 128, s.active c l = true → (s.setNo k).fb = true → (s.setNo k).m.getLsbD l = true → (s.setNo k).d.toNat ≤ (s.rd a l).toNat) →
    s.Completes (.swrite c a) fun t => s.Advanced t c ∧ s.WarpFrame t [] Lane.noDepth ∧ t.cur.arch.sets = s.cur.arch.sets
      ∧ ∀ l < 128, (t.cur.lane l).depth = if s.active c l then (s.rd a l).setWidth 16 else (s.cur.lane l).depth

/-- R357, R233: `SLEEP` in its three forms. A lane whose wake time lies ahead of the die's Tidemark becomes Sleeping until then; in handler mode the handler
split blocks until the latest wake time. -/
def Obligations.SleepResults : Prop := ∀ (s : State) (c : Ctl) (n : Word) (a : Reg),
  let sleeps (i : Instr) (names : List Reg) (w : Nat → Nat) : Prop :=
    let late (l : Nat) : Prop := s.active c l = true ∧ s.myTide < w l
    (∀ r ∈ names, s.cur.nameable r = true) → s.Completes i fun t =>
      s.Advanced t c ∧ s.WarpFrame t [] Lane.noState ∧ t.cur.arch.sets = s.cur.arch.sets
      ∧ (∀ l < 128, (s.cur.inHandler = false → late l → (t.cur.lane l).st = .sleeping (w l) ∧ (t.cur.lane l).wait = 0)
          ∧ (s.cur.inHandler = true ∨ ¬late l → (t.cur.lane l).st = (s.cur.lane l).st ∧ (t.cur.lane l).wait = (s.cur.lane l).wait))
      ∧ ∀ h, t.cur.arch.handler = some h → ((∀ l < 128, ¬late l) → some h.blk = s.cur.arch.handler.map (·.blk))
          ∧ ((∃ l < 128, late l) → ∃ u, h.blk = some (.sleep u) ∧ (∃ l < 128, late l ∧ w l = u) ∧ ∀ l < 128, late l → w l ≤ u)
  sleeps (.sleep c n) [] (fun _ => s.myTide + n.toNat)
  ∧ sleeps (.sleepRegister c a) [a] (fun l => s.myTide + (s.rd a l).toNat)
  ∧ sleeps (.sleepAbs c a) [a, a + 1] (fun l => (s.rdPair a l).toNat)

/-! ## Traps -/

/-- R225, R231, R232, R304, R365, R31: taking a trap. `BRK` enters the handler with cause 16 at its own address, `TRAP` with cause 15 and its code once the split
has advanced, an instruction that names a register beyond REGS with cause 1; the record holds its sixteen words. -/
def Obligations.TrapEntry : Prop := ∀ (s : State) (c : Ctl) (code : BitVec 8) (d a b : Reg), s.TakesTraps → s.act c ≠ 0 →
    s.TrapsAt (.brk c) c 16 0 0 none 0 4
    ∧ (s.Completes (.trap c code) fun t => (s.advance c).EnteredHandler t (s.split &&& s.cur.live) (s.next c)
        (recordOf 15 code.toNat 0 none s.ipc (s.next c) 0 4 (s.act c) s.myTide))
    ∧ (s.cur.nameable d = false → s.TrapsAt (.mov c false d a) c 1 0 0 none 0 4)
    ∧ (s.cur.nameable a = false → s.TrapsAt (.xor c false d a b) c 1 0 0 none 0 4)

/-- R60, R231: a result whose registers would bind more G slots than are free takes the shape-overflow trap, cause 8, and nothing is written. The destinations that
are not G yet bind the free slots in ascending order; AUX names the first for which none is left. So for a G result of an integer or logic instruction, of one
register or a pair, a partial write of a U or A destination, a special function, `LANEX`, `JGET`, a load, an atomic, an array query, a token, a handle and an
answer. -/
def Obligations.ShapeOverflowTrap : Prop := ∀ (s : State) (c : Ctl) (m : IMod) (f : FMod) (x : MMod) (q : CMod) (op mode3 : BitVec 3) (mode : BitVec 2)
    (base : BitVec 9) (mask : BitVec 8) (j : SetNo) (arr : BitVec 5) (d a b e : Reg) (p : PReg) (imm : DWord) (n : Nat),
  let binding (ds : List Reg) : List Nat := (List.range 64).filter fun r => (ds.any fun y => y.toNat == r) && !(s.cur.arch.vregs.getD r (.u 0)).isG
  let parts : Prop := ∃ l < 128, s.cur.live.getLsbD l = true ∧ s.active c l = false
  let traps (i : Instr) (ds names : List Reg) : Prop := (∀ r ∈ ds ++ names, s.cur.nameable r = true) →
    (binding ds)[s.cur.hdr.gmax - s.cur.arch.gCount]? = some n → s.TrapsAt i c 8 0 n none 0 4
  let block (r : Reg) : List Reg := regBlock r (blockRegs (szBytes x.sz))
  let ops : List Reg := regBlock b (blockRegs (szBytes x.sz) * if op = 7 then 2 else 1)
  s.TakesTraps → s.act c ≠ 0 →
    (m.w = false → (s.flat a = false ∨ s.flat b = false ∨ parts) → traps (.iadd c m d a b) [d] [a, b])
    ∧ (m.w = true → (s.pairU a = false ∨ s.pairU b = false ∨ parts) → traps (.iadd c m d a b) (pairRegs d) (pairRegs a ++ pairRegs b))
    ∧ ((s.reg a).isU = false ∨ (s.reg b).isU = false ∨ parts → traps (.xor c false d a b) [d] [a, b])
    ∧ (s.pairU a = false ∨ s.pairU b = false ∨ parts → traps (.xor c true d a b) (pairRegs d) (pairRegs a ++ pairRegs b))
    ∧ (s.flat a = false ∨ parts → traps (.mov c false d a) [d] [a])
    ∧ (s.pairU a = false ∨ parts → traps (.mov c true d a) (pairRegs d) (pairRegs a))
    ∧ (parts → traps (.movi c false d imm) [d] [] ∧ traps (.movi c true d imm) (pairRegs d) [])
    ∧ traps (.frcp c f d a) [d] [a]
    ∧ traps (.lanex c mode3 mode d a b) [d] [a, b] ∧ traps (.lanexImmediate c mode3 mode d a (imm.setWidth 32)) [d] [a]
    ∧ traps (.jget c d j) [d] []
    ∧ (s.pairU a = false ∨ parts → traps (.ld c x d a) (block d) (pairRegs a))
    ∧ ((s.reg a).isU = false ∨ parts → traps (.lds c x d a) (block d) [a])
    ∧ traps (.ldx c x d a e) (block d) [a, e]
    ∧ traps (.atom c x op d a b) (block d) (pairRegs a ++ ops) ∧ traps (.atoms c x op d a b) (block d) (a :: ops)
    ∧ traps (.atomsCluster c x op d a b e) (block d) (a :: e :: ops)
    ∧ traps (.aqry c d a) [d] [a] ∧ traps (.aqryImmediate c d arr) [d] []
    ∧ (q.bar.toNat < s.cur.hdr.bars → traps (.bcopy c q d a b e) [d] (pairRegs a ++ regBlock b q.nc.toNat ++ if q.wide then [e, e + 1] else [e])
        ∧ traps (.xred c q d a) [d] (pairRegs a))
    ∧ traps (.qfence c mode d base mask) [d] [] ∧ traps (.bjob c d a) [d] (pairRegs a)
    ∧ ((∀ k ∈ s.cur.reads, k.pc ≠ s.ipc) → traps (.invoke c d a) (pairRegs d) (pairRegs a) ∧ traps (.chain c d a b) (pairRegs d) (pairRegs a ++ pairRegs b))
    ∧ traps (.await c p d b) (pairRegs d) (pairRegs b)

/-- R366, R234, R39: `TRAPRET` with an active lane ends handler mode. Each Runnable lane of HMASK still at the entry resume point takes the resume PC of word 3
and bits [23:0] of word 4 of the record, every wait count becomes 0, YH marks the lanes of the handler split and nothing else of the warp changes. With no active lane it does nothing and the handler continues; outside a
handler it takes the illegal instruction trap.
The model's choices in it: notes/assumptions/30.md (R39 read for TRAPRET: YH marks every lane of the handler split). -/
def Obligations.TrapReturn : Prop := ∀ (s : State) (c : Ctl) (h : Handler),
  (s.act c ≠ 0 → s.cur.arch.handler = some h → s.Completes (.trapret c) fun t =>
    t = { s with cur := { s.cur with arch := { s.cur.arch with handler := none, lanes := t.cur.arch.lanes }, ymNew := t.cur.ymNew, fetched := [] } }
    ∧ ∀ l < 128, t.cur.lane l = { s.cur.lane l with
        wait := 0
        ym := (s.cur.lane l).ym || (c.yh && s.split.getLsbD l)
        pc := if h.mask.getLsbD l = true ∧ (s.cur.lane l).st = .runnable ∧ (s.cur.lane l).pc = h.epc then pairOf (h.words.getD 3 0) (h.words.getD 4 0 &&& 0xFFFFFF)
          else (s.cur.lane l).pc })
  ∧ (s.act c = 0 → s.cur.arch.handler = some h → s.Completes (.trapret c) fun t =>
    t.cur.inHandler = true ∧ s.Advanced t c ∧ s.WarpFrame t [] Lane.noPc ∧ t.cur.arch.sets = s.cur.arch.sets)
  ∧ (s.act c ≠ 0 → s.TakesTraps → s.TrapsAt (.trapret c) c 1 0 0 none 0 4)
  ∧ decodeTableWord 32 0x70000314 = some (.trapret ⟨false, 7, 0, 0, false⟩)

/-- R235, R237, R233: a trap with TRAPH zero is unhandled and a trap in the handler is a double fault. Every lane exits, out of the handler, and the fault log takes
a record of kind 1, or of kind 2 with the first trap's cause, detail, lane and addresses and the second trap's cause. In handler mode `CALL`, `CALLX`, `RET`,
`JWAIT` and every form of `BAR` are double faults with second cause 1, `TRAP` one with second cause 15 and `BRK` with 16.
The model's choices in it: notes/assumptions/31.md and 53.md. -/
def Obligations.UnhandledTraps : Prop := ∀ (s : State) (c : Ctl) (code : BitVec 8) (off : Word) (a : Reg) (j : SetNo) (b : BitVec 5), s.act c ≠ 0 → s.mayTrap →
  let w := s.cur
  let logs (t : State) (r : LogRec) : Prop := t.mem = (s.logRecord r).mem ∧ t.notices = (s.logRecord r).notices
  (w.arch.handler = none → w.hdr.traph = 0 → s.Completes (.brk c) fun t =>
    t.cur.hasExited = true ∧ logs t ⟨s.myTide, 1, 16, 0, 0, w.core, w.pos, 0, s.ipc, 0, w.task.getD 0, w.ctx.toNat, 0, 0⟩)
  ∧ (∀ h, w.arch.handler = some h →
    let first : Word := h.words.getD 0 0
    let doubles (i : Instr) (second : Nat) : Prop := s.Completes i fun t =>
      t.cur.hasExited = true ∧ t.cur.inHandler = false
      ∧ logs t ⟨s.myTide, 2, (first >>> 24).toNat, ((first >>> 16) &&& 255).toNat, second, w.core, w.pos, if first.getLsbD 7 then (first &&& 127).toNat else 0,
          pairOf (h.words.getD 1 0) (h.words.getD 2 0), pairOf (h.words.getD 5 0) (h.words.getD 6 0), w.task.getD 0, w.ctx.toNat, 0, 0⟩
    doubles (.brk c) 16 ∧ doubles (.trap c code) 15 ∧ doubles (.call c off) 1 ∧ doubles (.callx c a) 1 ∧ doubles (.ret c) 1 ∧ doubles (.jwait c j) 1
      ∧ doubles (.barSync c b) 1 ∧ doubles (.barArrive c b) 1 ∧ doubles (.barWait c b) 1)

/-! ## Memory instructions -/

/-- R129, R225, R227, R283, R336, R350, R360: the ten memory instructions issue their accesses, with nothing performed yet. A store carries the low bytes of its
data registers; an atomic carries x and, for CAS, the comparand after it. With every lane aligned, the first lane whose address has no place traps with its
own cause, and no access issues.
The model's choices in it: notes/assumptions/14.md and 35.md. -/
def Obligations.MemoryAccessesIssue : Prop := ∀ (s : State) (c : Ctl) (m : MMod) (op : BitVec 3) (d a b k : Reg) (l0 : Nat) (e : LaneFault),
  let words (r : Reg) (l : Nat) : Nat := (List.range (blockRegs (szBytes m.sz))).foldl (fun t i => t + (s.rd (r + BitVec.ofNat 6 i) l).toNat * 2 ^ (32 * i)) 0
  let load : MemOp := .load (m.sz == 2 || m.sz == 4)
  let block (r : Reg) : List Reg := regBlock r (blockRegs (szBytes m.sz))
  let stored (l : Nat) : Nat × Nat := (words b l % 2 ^ (8 * szBytes m.sz), 0)
  let ops : List Reg := regBlock b (blockRegs (szBytes m.sz) * if op = 7 then 2 else 1)
  let xcmp (l : Nat) : Nat × Nat := (words b l, if op = 7 then words (b + BitVec.ofNat 6 (blockRegs (szBytes m.sz))) l else 0)
  let does (i : Instr) (mo : MemOp) (dests : List Reg) (spad : Bool) (rank : Option Reg) (names : List Reg) (data : Nat → Nat × Nat) : Prop :=
    let place (l : Nat) : LanePlace := if spad then s.spadTarget rank l (s.rd a l + m.off)
      else s.globalLane s.cur.core s.cur.ctx mo.need l (s.rdPair a l + m.off.signExtend 64)
    s.IssuesAccess i c m mo dests spad a rank names data
    ∧ (s.TakesTraps → l0 < 128 → s.active c l0 = true → s.AccessReady c mo dests spad a rank names →
      (∀ l < 128, s.active c l = true → (s.accessEa m spad a l).toNat % szBytes m.sz = 0) → place l0 = .error e → e.lane = l0 → e.detail < 256 → e.aux < 256 →
      (∀ l < l0, s.active c l = true → ∃ p, place l = .ok p) →
        s.Completes i (s.AccessTrapped c mo e.cause e.detail e.aux l0 e.addr))
  does (.ld c m d a) load (block d) false none [] (fun _ => (0, 0))
  ∧ does (.lds c m d a) load (block d) true none [] (fun _ => (0, 0))
  ∧ does (.ldx c m d a k) load (block d) true (some k) [] (fun _ => (0, 0))
  ∧ does (.st c m a b) .store [] false none (block b) stored
  ∧ does (.sts c m a b) .store [] true none (block b) stored
  ∧ does (.stx c m a b k) .store [] true (some k) (block b) stored
  ∧ does (.atom c m op d a b) (.atom op true) (block d) false none ops xcmp
  ∧ does (.atoms c m op d a b) (.atom op true) (block d) true none ops xcmp
  ∧ does (.atomsCluster c m op d a b k) (.atom op true) (block d) true (some k) ops xcmp
  ∧ does (.red c m op a b) (.atom op false) [] false none ops xcmp

/-- R116: in every address space, an access whose address in some active lane is no multiple of its size takes the misaligned trap, cause 4, at the instruction,
for the lowest such lane, and no lane's access is made. -/
def Obligations.MisalignedAccessTraps : Prop := ∀ (s : State) (c : Ctl) (m : MMod) (op : BitVec 3) (d a b k : Reg) (l0 : Nat),
  let block (r : Reg) : List Reg := regBlock r (blockRegs (szBytes m.sz))
  let ops : List Reg := regBlock b (blockRegs (szBytes m.sz) * if op = 7 then 2 else 1)
  let traps (i : Instr) (mo : MemOp) (dests : List Reg) (spad : Bool) (rank : Option Reg) (names : List Reg) : Prop :=
    s.AccessReady c mo dests spad a rank names → (s.accessEa m spad a l0).toNat % szBytes m.sz ≠ 0 →
    (∀ l < l0, s.active c l = true → (s.accessEa m spad a l).toNat % szBytes m.sz = 0) →
      s.Completes i (s.AccessTrapped c mo 4 0 0 l0 (s.accessEa m spad a l0))
  let load : MemOp := .load (m.sz == 2 || m.sz == 4)
  s.TakesTraps → l0 < 128 → s.active c l0 = true →
    traps (.ld c m d a) load (block d) false none [] ∧ traps (.lds c m d a) load (block d) true none [] ∧ traps (.ldx c m d a k) load (block d) true (some k) []
    ∧ traps (.st c m a b) .store [] false none (block b) ∧ traps (.sts c m a b) .store [] true none (block b)
    ∧ traps (.stx c m a b k) .store [] true (some k) (block b)
    ∧ traps (.atom c m op d a b) (.atom op true) (block d) false none ops ∧ traps (.atoms c m op d a b) (.atom op true) (block d) true none ops
    ∧ traps (.atomsCluster c m op d a b k) (.atom op true) (block d) true (some k) ops ∧ traps (.red c m op a b) (.atom op false) [] false none ops

/-- R320, R308, R345: `FENCE` places its condition over everything issued before it; `CCTL.L1INV` drops the named lines from the core's L1, `CCTL.WB` leaves no
dirty byte of a named line in any L2, the instruction-cache forms drop the context's words from the caches they name and what
the issuing warp has fetched ahead (R309), and `PREF` changes caches only.
The model's choices in it: notes/assumptions/17.md and 19.md. -/
def Obligations.FenceAndCacheControlResults : Prop := ∀ (s : State) (c : Ctl) (ord : BitVec 2) (scope : BitVec 3) (a : Reg) (off : Word) (l2 : Bool)
    (at' : Nat → Nat × BitVec 2),
  let ea (l : Nat) : DWord := s.rdPair a l + off.signExtend 64
  let places : Prop := ∀ l < 128, s.active c l = true → s.globalLane s.cur.core s.cur.ctx ⟨true, false⟩ l (ea l) = .ok (at' l)
  let line (n : Nat) : Prop := ∃ l < 128, s.active c l = true ∧ (at' l).2 ≠ 2 ∧ isHostPa (at' l).1 = false ∧ lineOf (at' l).1 = n
  let drops (i : Instr) (hit : Nat → Prop) : Prop := s.Completes i fun t => s.Advanced t c ∧ t = { s with cur := t.cur, mem := t.mem } ∧ t.cur.fetched = []
    ∧ t.mem = { s.mem with icache := t.mem.icache } ∧ ∀ x, x ∈ t.mem.icache ↔ x ∈ s.mem.icache ∧ ¬(hit x.core ∧ x.ctx = s.cur.ctx)
  (s.act c ≠ 0 → s.Completes (.fence c ord scope) fun t => s.Advanced t c
    ∧ t.cur.fences = s.cur.fences ++ [⟨ord.getLsbD 0, ord.getLsbD 1, scope.toNat, s.nextId, false⟩]
    ∧ s.WarpFrame { t with cur := { t.cur with fences := s.cur.fences } } [] Lane.noPc)
  ∧ (s.act c ≠ 0 → drops (.cctlIcore c) (· = s.cur.core) ∧ drops (.cctlIdie c) (fun k => k / 24 = s.cur.core / 24) ∧ drops (.cctlIdev c) (fun _ => True))
  ∧ (s.cur.nameable a = true → s.cur.nameable (a + 1) = true →
    (s.act c ≠ 0 → places →
      (s.Completes (.cctlL1inv c a off) fun t => s.Advanced t c ∧ t = { s with cur := t.cur, mem := t.mem } ∧ t.mem = { s.mem with l1 := t.mem.l1 }
        ∧ ∀ x, x ∈ t.mem.l1 ↔ x ∈ s.mem.l1 ∧ ¬(x.core = s.cur.core ∧ line (x.sec / 4)))
      ∧ (s.Completes (.cctlWb c a off) fun t => s.Advanced t c ∧ t = { s with cur := t.cur, mem := t.mem }
        ∧ ∀ x ∈ t.mem.l2, line (x.sec / 4) → x.dirty = 0))
    ∧ s.Completes (.pref c l2 a off) fun t => s.Advanced t c ∧ s.WarpFrame { t with mem := s.mem } [] Lane.noPc
        ∧ t.mem.spad = s.mem.spad ∧ ∀ pa, (∀ x ∈ s.mem.l2, pa / 256 = x.sec / 4 → x.dirty = 0) → readByte t.mem.home pa = readByte s.mem.home pa)

/-- R90, R91, R363: `STAT` takes the counters it names from the workgroup and sends their additions out as stores of the warp; with STATP zero or nothing
counted it only advances the split. -/
def Obligations.StatisticsResults : Prop := ∀ (s : State) (c : Ctl) (n : BitVec 6) (g : Workgroup),
  let does (i : Instr) (hit : StatRow → Bool) : Prop :=
    let rows := g.stats.filter hit
    let words : List (Nat × Nat) := (rows.flatMap fun r => [(s.cur.hdr.statp.toNat + 16 * r.tid, r.nsat), (s.cur.hdr.statp.toNat + 16 * r.tid + 4, r.nftz),
      (s.cur.hdr.statp.toNat + 16 * r.tid + 8, r.nnan), (s.cur.hdr.statp.toNat + 16 * r.tid + 12, r.nmrg)]).filter fun p => p.2 != 0
    (s.cur.hdr.statp = 0 ∨ words = [] → s.Completes i fun t => s.Advanced t c ∧ s.WarpFrame t [] Lane.noPc)
    ∧ (s.cur.hdr.statp ≠ 0 → words ≠ [] → s.Completes i fun t => s.Advanced t c ∧ s.WarpFrame { t with reqs := s.reqs, wgs := s.wgs, nextId := s.nextId } [] Lane.noPc
        ∧ (t.wgOf s.cur.wg).map (·.stats) = some (g.stats.filter fun r => !hit r)
        ∧ ∃ r, t.reqs = s.reqs ++ [r] ∧ r.uid = s.cur.uid ∧ r.kind = .stat words s.cur.hdr.statp.toNat ∧ r.checked = true)
  s.act c ≠ 0 → s.wgOf s.cur.wg = some g → does (.stat c) (fun _ => true) ∧ does (.statOne c n) (fun r => r.tid == n.toNat)


/-! ## Compute arrays -/

/-- R276, R278, R279, R281, R289: `AMODE`, `ACFG` and `AXM` send their request to the arrays they name, with what `AXM` reads of the fragments R102
describes; `AMODE` and `ACFG` of an array beyond A take the array fault; `AQRY` gives the capability word.
The model's choices in it: notes/assumptions/52.md. -/
def Obligations.ArrayInstructionResults : Prop := ∀ (s : State) (c : Ctl) (tc a6 : Bool) (sgc : BitVec 2) (m : AMod) (d a : Reg) (mask : Word) (arr : BitVec 5)
    (x : ArrayRec),
  let named (w : Word) : List Nat := (List.range 32).filter fun j => w.getLsbD j
  let amode (i : Instr) (w : Word) : Prop :=
    let ts := (named w).filterMap fun j => (s.myArray j).map (·.phys)
    ((∀ j ∈ named w, j < s.arrayTotal ∧ (tc = true → ∃ y, s.myArray j = some y ∧ y.usable ≠ 0)) → s.Completes i fun t => s.Advanced t c
        ∧ (ts = [] → s.WarpFrame t [] Lane.noPc) ∧ (ts ≠ [] → s.Requested t c (.amode ts tc) [] [] false true))
    ∧ (s.TakesTraps → (∃ j ∈ named w, s.arrayTotal ≤ j) → s.Completes i fun t =>
        s.EnteredHandler t (s.split &&& s.cur.live) s.ipc (recordOf 6 255 0 none s.ipc s.ipc 0 4 (s.act c) s.myTide))
  let M := m.m1.toNat + 1
  let K := m.k1.toNat + 1
  let kr := (K + 127) / 128
  let dBlock := regBlock d ((M + 1) / 2)
  let aBlock := regBlock a (M * if m.bf16 then 1 else kr)
  let activation (i k : Nat) : Word :=
    if m.bf16 then
      let y := s.rd (a + BitVec.ofNat 6 i) (k % 128)
      BitVec.ofNat 32 ((if k < 128 then y.toNat % 65536 else y.toNat / 65536) * 65536)
    else s.rd (a + BitVec.ofNat 6 (i * kr + k / 128)) (k % 128)
  s.act c ≠ 0 →
    (amode (.amode c false tc a mask) mask)
    ∧ (s.cur.nameable a = true → (s.reg a).isU = true → amode (.amode c true tc a mask) (s.rd a 0))
    ∧ (s.myArray arr.toNat = some x → s.Completes (.acfg c a6 sgc arr) fun t =>
        s.Advanced t c ∧ s.Requested t c (.acfg x.phys arr.toNat a6 (32 * 2 ^ sgc.toNat)) [] [] false false)
    ∧ (s.TakesTraps → s.arrayTotal ≤ arr.toNat → s.Completes (.acfg c a6 sgc arr) fun t =>
        s.EnteredHandler t (s.split &&& s.cur.live) s.ipc (recordOf 6 255 0 none s.ipc s.ipc 0 4 (s.act c) s.myTide))
    ∧ (s.Ready c (dBlock ++ aBlock) dBlock false → s.myArray m.arr.toNat = some x → K ≤ 64 * x.usable → s.Completes (.axm c m d a) fun t =>
        s.Advanced t c ∧ ∃ job : AxmJob, s.Requested t c (.axm x.phys m.arr.toNat job) dBlock [] false false
          ∧ job = ⟨s.nextId, s.cur.uid, if c.len.getLsbD 0 then c.tid.toNat else 0, d, M, K, m.pa6, 2 ^ m.rep.toNat, m.fzi, m.fzo, job.acts, job.cs, none,
              s.cur.inHandler⟩
          ∧ (∀ i < M, ∀ k < K, (job.acts.getD i []).getD k 0 = activation i k)
          ∧ (∀ i < M, ∀ n < 64, (job.cs.getD i []).getD n 0 = s.rd (d + BitVec.ofNat 6 (i / 2)) (64 * (i % 2) + n)))
    ∧ (s.Ready c [d, a] [d] false → s.Yields (.aqry c d a) c d (fun l => if (s.rd a l).toNat < 32 then s.acap (s.rd a l).toNat else 0) .zero)
    ∧ (s.Ready c [d] [d] false → s.Yields (.aqryImmediate c d arr) c d (fun _ => s.acap arr.toNat) .zero)

/-! ## Copies, lane queues and bank jobs -/

/-- R157, R158, R159, R161, R206, R297: a copy instruction offers one entry for each active lane to its queue, in lane order, `BJOB` one card to the dispatcher
of its weights' pseudo-channel, where it comes 8 tk after its issue, and the split is held until they are accepted; the lines
of the cards are read as loads of the warp read them, in lane order; `QFENCE` puts one marker on each named queue, and with none named writes its
token at once. A card whose line holds an uncorrectable error ends with DATA; the stamps of the
cards count for a later `FENCE` as those of a load do (R139).
The model's choices in it: notes/assumptions/24.md, 55.md and 63.md. -/
def Obligations.CopyAndBankJobsAreOffered : Prop := ∀ (s : State) (c : Ctl) (m : CMod) (rop : BitVec 3) (t a b e : Reg) (ch : BitVec 2) (base : BitVec 9)
    (mask : BitVec 8),
  let lanes : List Nat := (List.range 128).filter (s.active c)
  let queues : List Nat := ((List.range 8).filter fun i => mask.getLsbD i).map fun i => (base.toNat + i) % 512
  let cond := s.nextId + 1 + lanes.length
  let copies (i : Instr) (kind : CopyKind) (names : List Reg) (org : Nat → List Int) (dense : Nat → DWord) : Prop :=
    s.Ready c (t :: names ++ [a, a + 1]) [t] false → m.bar.toNat < s.cur.hdr.bars → (∀ l ∈ lanes, (s.rdPair a l).toNat % 128 = 0) →
    (s.queueRec m.queue.toNat).bound = true → (s.queueRec m.queue.toNat).ctx = s.cur.ctx →
      s.Completes i fun u => s.Offered u c t [⟨s.split, .queue s.nextId⟩]
        ∧ u = { s with cur := u.cur, copy := { s.copy with entries := u.copy.entries }, conds := u.conds, nextId := u.nextId }
        ∧ u.conds = (if m.ord.getLsbD 1 then
            ⟨cond, s.cur.uid, s.cur.core / 24, cond, m.scope.toNat, latestUpTo s.cur.ctime m.scope.toNat⟩ :: s.conds else s.conds)
        ∧ ∃ news, u.copy.entries = s.copy.entries ++ news ∧ news.length = lanes.length
          ∧ ∀ k < lanes.length, ∀ x, news[k]? = some x →
              x.ins = s.nextId ∧ x.id = s.nextId + 1 + k ∧ x.acc = 0 ∧ x.q = m.queue.toNat ∧ x.kind = kind ∧ x.uid = s.cur.uid ∧ x.core = s.cur.core ∧ x.wg = s.cur.wg
              ∧ x.ctx = s.cur.ctx ∧ x.lane = lanes.getD k 0 ∧ x.addr = s.rdPair a x.lane ∧ x.org = org x.lane ∧ x.dense = dense x.lane ∧ x.tok = t
              ∧ x.bar = (if m.barv then some m.bar else none) ∧ x.phase = .waiting ∧ x.wide = m.wide
              ∧ x.cond = (if m.ord.getLsbD 1 then some cond else none)
  let org (l : Nat) : List Int := (List.range 5).map fun i => if i < m.nc.toNat then (s.rd (b + BitVec.ofNat 6 i) l).toInt else 0
  let dense (l : Nat) : DWord := if m.wide then s.rdPair e l else (s.rd e l).setWidth 64
  let names : List Reg := regBlock b m.nc.toNat ++ (if m.wide then [e, e + 1] else [e])
  let read := s.blockReads (s.act c) a 64
  let card (l : Nat) : List Byte := ((read.1.find? fun x => x.1 == l).map (·.2)).getD []
  let lost (l : Nat) : Bool := faultsWith 17 (s.blockLane l (s.rdPair a l) 64)
  let wbase (l : Nat) : Nat := numLE ((card l).take 8)
  copies (.bcopy c m t a b e) .copy names org dense
  ∧ copies (.bcopyr c m rop t a b e) (.reduce rop) names org dense
  ∧ copies (.xred c m t a) .xred [] (fun _ => []) (fun _ => 0)
  ∧ (s.Ready c [t] [t] false → (∀ q ∈ queues, (s.queueRec q).bound = true ∧ (s.queueRec q).ctx = s.cur.ctx) →
      (queues = [] → s.Yields (.qfence c ch t base mask) c t (fun _ => 0) .zero)
      ∧ (queues ≠ [] → s.Completes (.qfence c ch t base mask) fun u => s.Offered u c t []
          ∧ u = { s with cur := u.cur, copy := { s.copy with entries := u.copy.entries, joins := u.copy.joins }, nextId := u.nextId }
          ∧ (∃ x, u.copy.joins = s.copy.joins ++ [x] ∧ x.id = s.nextId ∧ x.uid = s.cur.uid ∧ x.tok = t ∧ x.act = s.act c ∧ x.queues = queues)
          ∧ ∃ news, u.copy.entries = s.copy.entries ++ news ∧ news.map (·.q) = queues ∧ ∀ x ∈ news, x.kind = .marker s.nextId ∧ x.ins = s.nextId ∧ x.acc ≠ 0))
  ∧ (s.Ready c [t, a, a + 1] [t] false →
      (∀ l ∈ lanes, (s.rdPair a l).toNat % 64 = 0 ∧ (lost l = true ∨ ∃ p, s.blockLane l (s.rdPair a l) 64 = .ok p)) →
      s.Completes (.bjob c t a) fun u => s.Offered { u with cur := { u.cur with stampMax := s.cur.stampMax } } c t [⟨s.split, .jobs s.nextId⟩]
        ∧ u.cur.stampMax = read.2.cur.stampMax
        ∧ u = { s with cur := u.cur, mem := read.2.mem, cards := u.cards, nextId := u.nextId } ∧ u.mem.spad = s.mem.spad
        ∧ ((∀ z ∈ s.mem.l2, z.dirty = 0) → ∀ z, readByte u.mem.home z = readByte s.mem.home z)
        ∧ (s.mem.l1 = [] → s.mem.l2 = [] → ∀ l p, lanes = [l] → s.blockLane l (s.rdPair a l) 64 = .ok p → p.1 % 64 = 0 →
            card l = readBytes s.mem.home p.1 64)
        ∧ ∃ news, u.cards = s.cards ++ news ∧ news.length = lanes.length
          ∧ ∀ k < lanes.length, ∀ x, news[k]? = some x → x.ins = s.nextId ∧ x.id = s.nextId + 1 + k ∧ x.uid = s.cur.uid ∧ x.lane = lanes.getD k 0
              ∧ x.time = s.tideOf (s.cur.core / 24) + 8 ∧ x.card = card x.lane ∧ x.pch = 64 * (wbase x.lane / 256 % 8) + wbase x.lane / 2048 % 64 ∧ x.die = x.pch / 128 ∧ x.tok = t
              ∧ (lost x.lane = false → x.acc = 0 ∧ x.phase = .queued) ∧ (lost x.lane = true → x.acc ≠ 0 ∧ x.phase = .done ∧ x.status = 6))

/-- R192, R193, R349: `QINIT` makes a ring with both counters zero. `QPUSH` and `QPOP` give one entry to each active lane in ascending order while there is room
or an entry, and the counter moves by their number. Where no array is in a mode that keeps them waiting and nothing is held before them, pushed words stand in
their entries at once and popped words are on their way to the registers; the predicate, pending until the unit's answer returns, says which lanes had one.
The model's choices in it: notes/assumptions/18.md and 51.md. -/
def Obligations.LaneQueueResults : Prop := ∀ (s : State) (c : Ctl) (q : BitVec 3) (a b d : Reg) (log2n : BitVec 4) (d8 : Bool) (p : PReg) (x : LaneQueue)
    (g : Workgroup),
  let lanes : List Nat := (List.range 128).filter (s.active c)
  let esz : Nat := if d8 then 8 else 4
  let base := (s.rd a 0).toNat
  let size := 2 ^ x.log2n
  let held := (x.tail - x.head).toNat
  let slot (i : Nat) : Nat := x.base + esz * (i % size)
  let cell (i : Nat) : Nat := spadCell g.core (g.arrays.getD (slot i / 12288) 0) (slot i % 12288)
  let queueIs (t : State) (y : LaneQueue) : Prop :=
    t.wgs = updWhere (fun h => h.key == s.cur.wg) (fun h => { h with queues := h.queues.set q.toNat y }) s.wgs
  let inside : Prop := x.base + esz * size ≤ 12288 * g.arrays.length
  let dests : List Reg := if d8 then [d, d + 1] else [d]
  let taken (n : Nat) : List Nat := lanes.take n
  let answer (m : MemReq) (n : Nat) : Prop := ∃ k, m.pred = some (p, k) ∧ ∀ l < 128, k.getLsbD l = (taken n).contains l
  let modes (t : State) : Prop := t.arrays.map (fun y => { y with queue := [] }) = s.arrays.map fun y => { y with queue := [] }
  s.wgOf s.cur.wg = some g → s.act c ≠ 0 →
    (s.cur.nameable a = true → (s.reg a).isU = true → g.queues[q.toNat]? = some x → base % esz = 0 → base + esz * 2 ^ log2n.toNat ≤ 12288 * g.arrays.length →
      s.Completes (.qinit c q a log2n d8) fun t => s.Advanced t c ∧ s.WarpFrame { t with wgs := s.wgs } [] Lane.noPc
        ∧ queueIs t ⟨true, base, log2n.toNat, d8, 0, 0⟩)
    ∧ (g.queues[q.toNat]? = some x → x.init = true → x.esz8 = d8 → x.base % esz = 0 → inside →
      let n := min lanes.length (size - held)
      let m := min lanes.length held
      let last := if n = 0 then s.nextId else s.nextId + 1
      ((∀ r ∈ (if d8 then [b, b + 1] else [b]), s.cur.nameable r = true) →
        (∀ k < n, s.modeAt (cell (x.tail.toNat + k)) = 0 ∧ s.behind s.nextId false (cell (x.tail.toNat + k)) esz = false) →
        s.Completes (.qpush c d8 p q b) fun t => s.Advanced t c ∧ queueIs t { x with tail := x.tail + BitVec.ofNat 32 n }
          ∧ t = { s with cur := t.cur, others := t.others, wgs := t.wgs, arrays := t.arrays, reqs := t.reqs, conds := t.conds, nextId := last + 1
                         mem := { s.mem with spad := t.mem.spad, spadPoison := t.mem.spadPoison } }
          ∧ modes t ∧ (∀ r, t.reg r = s.reg r) ∧ (∀ o, t.cur.pred o = s.cur.pred o)
          ∧ t.cur = { s.cur with arch := t.cur.arch, snaps := t.cur.snaps, ctime := t.cur.ctime, ymNew := t.cur.ymNew
                                 pends := s.cur.pends ++ [⟨last, [], [p], false, none, false, s.cur.inHandler⟩] }
          ∧ (∃ r ∈ t.reqs, r.id = last ∧ r.served = true ∧ r.act = s.act c ∧ ∃ y, r.kind = .mem y ∧ y.isLoad = true ∧ y.dests = [] ∧ answer y n)
          ∧ (∀ k < n, (∀ j < n, cell (x.tail.toNat + j) = cell (x.tail.toNat + k) → j = k) → readNum t.mem.spad (cell (x.tail.toNat + k)) esz = (if d8 then (s.rdPair b (lanes.getD k 0)).toNat else (s.rd b (lanes.getD k 0)).toNat))
          ∧ ∀ z, (∀ k < n, z < cell (x.tail.toNat + k) ∨ cell (x.tail.toNat + k) + esz ≤ z) → readByte t.mem.spad z = readByte s.mem.spad z)
      ∧ (s.Ready c dests dests false → (∀ k < m, s.behind s.nextId true (cell (x.head.toNat + k)) esz = false) →
        (∀ k < m, cell (x.head.toNat + k) / 8 ∉ s.mem.spadPoison) →
        s.Completes (.qpop c d8 p q d) fun t => s.Advanced t c ∧ queueIs t { x with head := x.head + BitVec.ofNat 32 m }
          ∧ t = { s with cur := t.cur, wgs := t.wgs, arrays := t.arrays, reqs := t.reqs, nextId := s.nextId + 1 } ∧ modes t
          ∧ (∀ r, ∀ l < 128, t.rd r l = s.rd r l) ∧ (∀ r, r ∉ dests → t.reg r = s.reg r) ∧ (∀ o, t.cur.pred o = s.cur.pred o)
          ∧ t.cur = { s.cur with arch := t.cur.arch, ymNew := t.cur.ymNew
                                 pends := s.cur.pends ++ [⟨s.nextId, dests, [p], false, none, false, s.cur.inHandler⟩] }
          ∧ ∃ r ∈ t.reqs, r.id = s.nextId ∧ r.served = true ∧ r.checked = true ∧ r.act = s.act c ∧ ∃ y, r.kind = .mem y ∧ y.isLoad = true ∧ y.sz = esz
              ∧ y.dests = dests ∧ answer y m ∧ y.lanes.length = m
              ∧ ∀ k < m, ∀ z, y.lanes[k]? = some z → z.lane = lanes.getD k 0 ∧ z.res = readNum s.mem.spad (cell (x.head.toNat + k)) esz))

/-! ## Tasks -/

/-- R169, R170, R171, R177, R178, R179, R184, R330: with slots free, `INVOKE` and `CHAIN` give each active lane the handle of a FREE slot, which holds the lane's
record. The records are read as loads of the warp read them, or, when the instruction has waited for slots, are those it read before. With a valid record the slot
is PENDING and the task is placed by its address, on the named core or on its way to its counter, and a `CHAIN` entry's message sets out for its upstream; with
an invalid one the handle breaks at once with cause 6. The stamps of the records count for a later `FENCE` as those of a load do (R139).
The model's choices in it: notes/assumptions/33.md, 36.md and 55.md. -/
def Obligations.InvokeAndChainResults : Prop := ∀ (s : State) (c : Ctl) (d a b e : Reg) (at' : Nat → Nat × BitVec 2),
  let lanes : List Nat := (List.range 128).filter (s.active c)
  let before := s.cur.reads.find? fun k => k.pc == s.ipc && k.act == s.act c
  let read := s.blockReads (s.act c) a 64
  let record (l : Nat) : List DWord := match before with
    | some k => ((k.recs.find? fun x => x.1 == l).map (·.2)).getD []
    | none => (List.range 8).map fun i => BitVec.ofNat 64 (numLE (((((read.1.find? fun x => x.1 == l).map (·.2)).getD []).drop (8 * i)).take 8))
  let may : Prop := match before with
    | some k => k.recs.map (·.1) = lanes
    | none => ∀ l ∈ lanes, (s.rdPair a l).toNat % 64 = 0 ∧ ∃ p, s.blockLane l (s.rdPair a l) 64 = .ok p
  let does (i : Instr) (names : List Reg) (chained : Bool) (placed : State → (Nat → DWord) → Nat → Prop) : Prop :=
    s.Ready c ([d, d + 1, a, a + 1] ++ names) [d, d + 1] false → lanes.length ≤ s.freeSlots s.cur.core s.cur.ctx → s.cur.core < 192 → may →
    (∀ l ∈ lanes, recInvalid (record l) = true → ((record l).getD 7 0).getLsbD 2 = false) →
      s.Completes i fun t => ∃ h : Nat → DWord,
        s.WrotePair t c d h ∧ s.Advanced t c ∧ t = { s with cur := t.cur, mem := t.mem, tasks := t.tasks, conds := t.conds, reqs := t.reqs, nextId := t.nextId }
        ∧ (chained = false → t.reqs = s.reqs)
        ∧ t.mem = (if before.isSome then s.mem else read.2.mem) ∧ t.mem.spad = s.mem.spad
        ∧ ((∀ z ∈ s.mem.l2, z.dirty = 0) → ∀ z, readByte t.mem.home z = readByte s.mem.home z)
        ∧ t.cur = { s.cur with
            arch := t.cur.arch, stampMax := if before.isSome then s.cur.stampMax else read.2.cur.stampMax, snaps := t.cur.snaps, ymNew := t.cur.ymNew
            reads := s.cur.reads.filter fun k => !(k.pc == s.ipc && k.act &&& s.act c != 0) }
        ∧ (∀ r, r ≠ d → r ≠ d + 1 → t.reg r = s.reg r)
        ∧ (∀ l ∈ lanes, ∀ k ∈ lanes, h l = h k → l = k)
        ∧ (∀ l ∈ lanes, (∃ n < 4096, s.slotFree s.cur.core s.cur.ctx n = true ∧ h l = mkHandle s.cur.core n s.cur.ctx (s.slotGen s.cur.core s.cur.ctx n))
            ∧ ∃ x, t.slotOf (h l) = some x ∧ x.home = true ∧ x.isChain = chained ∧ x.value = none ∧ x.words = (record l).set 6 (h l)
                ∧ (recInvalid (record l) = false → x.state = .pending ∧ x.brk = none ∧ placed t h l)
                ∧ (recInvalid (record l) = true → x.state = .broken ∧ x.brk = some (BitVec.ofNat 64 (6 * 2 ^ 56 + (h l).toNat / 65536))))
  let queued (l : Nat) (g : DWord) (core : Nat) : ReadyTask :=
    ⟨core, s.cur.ctx, ((record l).getD 7 0).toNat % 4, g, 0, 0, 0, decide (s.cur.core / 24 = core / 24), false, s.dueFrom (s.cur.core / 24)⟩
  let counter (l : Nat) : Nat := match before with
    | some k => ((k.ctrs.find? fun x => x.1 == l).map (·.2)).getD 0
    | none => (at' l).1
  does (.invoke c d a) [] false (fun t h l => queued l (h l) (s.placeCore s.cur.core s.cur.ctx ((record l).getD 5 0)) ∈ t.tasks.ready)
  ∧ ((∀ l ∈ lanes, s.coreEnabled (s.rd e l).toNat = true) →
      does (.invokeCore c d a e) [e] false (fun t h l => queued l (h l) (s.rd e l).toNat ∈ t.tasks.ready))
  ∧ ((before = none → ∀ l ∈ lanes, (s.rdPair e l).toNat % 4 = 0 ∧ s.counterLane l (s.rdPair e l) = .ok (at' l)) →
      does (.invokePark c d a e) [e, e + 1] false (fun t h l => ⟨counter l, h l, false, s.dueFrom (s.cur.core / 24)⟩ ∈ t.tasks.parked))
  ∧ ((∀ l ∈ lanes, s.handleOk s.cur.ctx (s.rdPair b l) = true) →
      does (.chain c d a b) [b, b + 1] true (fun t h _ => ∃ r, t.reqs = s.reqs ++ [r] ∧ r.uid = s.cur.uid ∧ r.core = s.cur.core ∧ r.checked = false
        ∧ r.kind = .chain (lanes.map fun l => (l, s.rdPair b l, h l))))

/-- R172, R182, R183, R186, R187, R188, R189, R324, R325, R326: the other task instructions. `AWAIT`, `HPOLL` and `HDROP` send the handles of their active lanes;
after `AWAIT` those lanes, or the handler split, wait for the answer. `HSET` records its value once; `HBREAK` exits the warp and breaks its task's handle; both
are illegal in a kernel warp. A stale handle of a `CHAIN` takes cause 11.
The model's choices in it: notes/assumptions/36.md. -/
def Obligations.HandleInstructionResults : Prop := ∀ (s : State) (c : Ctl) (d a b : Reg) (p : PReg) (code : BitVec 8) (h : DWord) (x : Slot) (l0 : Nat),
  let lanes : List Nat := (List.range 128).filter (s.active c)
  let pairs : List (Nat × DWord) := lanes.map fun l => (l, s.rdPair b l)
  let dropped := pairs.filter fun y => y.2 != 0
  let named (rs : List Reg) : Prop := ∀ r ∈ rs, s.cur.nameable r = true
  let await (i : Instr) (trapping : Bool) : Prop := s.Ready c [d, d + 1, b, b + 1] [d, d + 1] false → s.Completes i fun t =>
    s.Advanced t c ∧ s.Requested t c (.await pairs d p trapping) [d, d + 1] [p] true false
    ∧ (∀ l < 128, ((t.cur.lane l).st, (t.cur.lane l).wait) =
        if s.cur.inHandler = false ∧ s.active c l = true then (.awaiting s.nextId, 0) else ((s.cur.lane l).st, (s.cur.lane l).wait))
    ∧ ∀ y, t.cur.arch.handler = some y → y.blk = some (.await s.nextId)
  let illegal (i : Instr) : Prop := s.TakesTraps → s.cur.task = none → s.Completes i fun t =>
    s.EnteredHandler t (s.split &&& s.cur.live) s.ipc (recordOf 1 0 0 none s.ipc s.ipc 0 4 (s.act c) s.myTide)
  s.act c ≠ 0 →
    await (.await c p d b) false ∧ (s.cur.inHandler = false → await (.awaitT c p d b) true)
    ∧ (named [b, b + 1] → s.Completes (.hpoll c p b) fun t => s.Advanced t c ∧ s.Requested t c (.hpoll pairs p) [] [p] false false)
    ∧ (named [b, b + 1] → s.Completes (.hdrop c b) fun t => s.Advanced t c
        ∧ (dropped = [] → s.WarpFrame t [] Lane.noPc) ∧ (dropped ≠ [] → s.Requested t c (.hdrop dropped) [] [] false false))
    ∧ (named [a, a + 1] →
        illegal (.hset c a)
        ∧ (s.cur.task = some h → s.cur.hset ≠ none → s.Completes (.hset c a) fun t => s.Advanced t c ∧ s.WarpFrame t [] Lane.noPc)
        ∧ (s.cur.task = some h → s.cur.hset = none → s.liveSlot h = some x → x.state ≠ .broken → s.Completes (.hset c a) fun t =>
            s.Advanced t c ∧ t.cur.hset = some (s.rdPair a (lowestLane (s.act c)))
            ∧ s.WarpFrame { s with cur := { t.cur with hset := none } } [] Lane.noPc
            ∧ t = { s with cur := t.cur, tasks := t.tasks, conds := t.conds, nextId := t.nextId }
            ∧ (recHasSucc x.words = true → t.tasks = s.tasks)
            ∧ (recHasSucc x.words = false → (t.slotOf h).map (·.value) = some (some (s.rdPair a (lowestLane (s.act c)))))))
    ∧ illegal (.hbreak c code)
    ∧ (s.cur.task = some h → s.liveSlot h = some x → x.state ≠ .broken → s.Completes (.hbreak c code) fun t =>
        t.cur.hasExited = true ∧ t.cur.inHandler = false
        ∧ t = { s with cur := t.cur, tasks := t.tasks, conds := t.conds, wgs := t.wgs, nextId := t.nextId }
        ∧ (x.state = .resolved ∨ (s.cur.hset ≠ none ∧ recHasSucc x.words = false) → t.tasks = s.tasks)
        ∧ (¬(x.state = .resolved ∨ (s.cur.hset ≠ none ∧ recHasSucc x.words = false)) → (t.slotOf h).map (·.brk) = some (some (x.brk.getD
            (BitVec.ofNat 64 (2 * 2 ^ 56 + code.toNat * 2 ^ 48 + h.toNat / 65536))))))
    ∧ (s.TakesTraps → s.Ready c [d, d + 1, a, a + 1, b, b + 1] [d, d + 1] false → l0 < 128 → s.active c l0 = true →
        s.handleOk s.cur.ctx (s.rdPair b l0) = false → (∀ l < l0, s.active c l = true → s.handleOk s.cur.ctx (s.rdPair b l) = true) →
        s.Completes (.chain c d a b) fun t =>
          s.EnteredHandler t (s.split &&& s.cur.live) s.ipc (recordOf 11 0 0 (some l0) s.ipc s.ipc 0 4 (s.act c) s.myTide))

/-! ## Events of memory and arrays -/

/-- R118, R119, R123, R133, R135, R138, R141, R142, R227, R236, R285: the events that carry out a memory access. The parts of a load that nothing older stands before
are served, at the home where it bypasses the caches, and a load whose lowest lane to fail meets an uncorrectable error fails there; its data reaches its
registers; a store is accepted by the caches and its notice sent, the notice reaches the home, where its bytes stand or its L2 owns them, and a store that does
not stay in the caches writes the home itself, host memory by CXL.cache; an atomic answers the old value and leaves the new one, at the home or, once its
notice has reached it, in the L2 of its die; a target's acceptance checks an access and its refusal fails it with detail 4 and a log record.
The model's choices in it: notes/assumptions/1.md, 15.md, 16.md, 18.md, 45.md (an atomic that meets an error found late goes on, and its register fails when it
is read) and 46.md. -/
def Obligations.MemoryAccessEvents : Prop := ∀ (s : State) (id : Nat) (r : Req) (m : MemReq) (leaseL2 leaseL1 : Nat) (d : Reg) (x : LaneAcc) (op : BitVec 3)
    (ret host : Bool) (mask : Mask) (halves : BitVec 2) (e : NearStore) (y : L2Sector) (u : LaneAcc) (xs : List LaneAcc),
  let sent (q : Req) : Req := { q with due := (0, 0) }
  let kept (t : State) : Prop := (t.reqs.filter fun q => q.id != id).map sent = (s.reqs.filter fun q => q.id != id).map sent
  let gone (t : State) : Prop := kept t ∧ t.reqOf id = none
  let clean : Prop := ∀ z ∈ s.mem.l2, z.dirty = 0
  let size : Prop := m.sz ∈ [1, 2, 4, 8, 16]
  let die := r.core / 24
  let moved (t : State) : Prop := t = { s with cur := t.cur, others := t.others, reqs := t.reqs, mem := t.mem, conds := t.conds } ∧ t.mem.spad = s.mem.spad
  let sameHome (t : State) : Prop := ∀ z, readByte t.mem.home z = readByte s.mem.home z
  let failed (t : State) (cause detail : Nat) : Prop := t = { s with reqs := t.reqs } ∧ kept t
    ∧ t.reqOf id = some { r with fault := some ⟨cause, detail, 0, some x.lane, BitVec.ofNat 64 x.va, m.op.acc, r.act, r.split, r.pc, r.pc⟩ }
  let inL2 (t : State) (v : Nat) : Prop := ∃ z ∈ t.mem.l2, z.die = die ∧ z.sec = x.pa / 64 ∧ (∀ i < m.sz, z.dirty.getLsbD (x.pa % 64 + i) = true)
    ∧ numLE ((List.range m.sz).map fun i => (z.data.getD (x.pa % 64 + i) ⟨0, none⟩).b) = v % 2 ^ (8 * m.sz)
  let full : Prop := ∀ z ∈ s.mem.l2, z.data.length = 64
  let old := readNum s.mem.home x.pa m.sz
  let own := numLE ((List.range m.sz).map fun i => (y.data.getD (x.pa % 64 + i) ⟨0, none⟩).b)
  s.reqOf id = some r → r.kind = .mem m → r.fault = none →
    (m.space = .global → m.isLoad = true → r.served = false → s.refusedLanes r m = [] →
      (s.loadFailing r m = none → s.Completes (.loadServed ⟨id, mask, halves⟩ leaseL2 leaseL1) fun t => moved t ∧ kept t ∧ (clean → sameHome t)
        ∧ ∃ ls due, t.reqOf id = some { r with kind := .mem { m with lanes := ls }, due := due, served := ls.all fun z => z.left == 0 && z.far == 0 }
          ∧ ls.length = m.lanes.length ∧ ∀ (k : Nat) (u z : LaneAcc), m.lanes[k]? = some u → ls[k]? = some z →
            z = { u with res := z.res, left := z.left } ∧ (mask.getLsbD u.lane = false ∨ (∀ h ∈ partsOf m.sz, s.mayServeWhole r m u h = false) → z = u)
            ∧ (size → u.left = allParts m.sz → mask.getLsbD u.lane = true → halves = 3 → (∀ h ∈ partsOf m.sz, s.mayServeWhole r m u h = true) → z.left = 0
              ∧ (clean → u.res = 0 → u.pa % m.sz = 0 → bypasses u.cp u.pa = true → z.res = readNum s.mem.home u.pa m.sz)))
      ∧ (s.loadFailing r m = some x → s.Completes (.loadServed ⟨id, mask, halves⟩ leaseL2 leaseL1) fun t => failed t 17 1))
    ∧ (s.returned r = true → m.owes = true → s.cur.uid = r.uid → r.hdl = false → m.dests = [d] → m.uni = false → 0 < m.sz →
      s.Completes (.registerWriteReturn id) fun t => t = { s with cur := t.cur, others := t.others, reqs := t.reqs, tasks := t.tasks }
        ∧ (s.cur.hasExited = false → t.tasks = s.tasks)
        ∧ ((∀ z ∈ m.lanes, z.far = 0) → gone t)
        ∧ ((∃ z ∈ m.lanes, z.far ≠ 0) → kept t ∧ (t.reqOf id).map sent = some (sent { r with checked := true, kind := .mem { m with dests := [], pred := none } }))
        ∧ (r.struck = true → t.cur.arch.bad.getLsbD d.toNat = true)
        ∧ (∀ e < 64, e ≠ d.toNat → t.cur.arch.vregs.getD e (.u 0) = s.cur.arch.vregs.getD e (.u 0))
        ∧ (∀ l < 128, let v (w : Warp) : Word := (w.arch.vregs.getD d.toNat (.u 0)).lane l
          ((r.writeMask m).getLsbD l = true → ∀ u, m.lanes.find? (fun u => u.lane == l) = some u →
            v t.cur = if m.op = .load true then (BitVec.ofNat (8 * m.sz) u.res).signExtend 32 else BitVec.ofNat 32 u.res)
          ∧ ((r.writeMask m).getLsbD l = false → r.live.getLsbD l = true → v t.cur = v s.cur))
        ∧ (m.pred = none → t.cur.arch.preds = s.cur.arch.preds)
        ∧ ∀ p v, m.pred = some (p, v) → p ≠ 7 → ∀ l < 128,
            (t.cur.pred p).getLsbD l = if r.act.getLsbD l then v.getLsbD l else (s.cur.pred p).getLsbD l)
    ∧ (s.mayPerform r m = true → m.isStore = true →
      (m.lanes = [x] → m.sz ∈ [1, 2, 4, 8] → mask.getLsbD x.lane = true → halves.getLsbD 0 = true →
        (x.left = 1 → m.direct x = false → s.blocked r m false x 0 = false → x.far = 1 → s.Completes (.storeNoticeArrive ⟨⟨id, mask, halves⟩, false⟩) fun t =>
          moved t ∧ kept t ∧ t.mem.home = s.mem.home ∧ t.mem.l2 = s.mem.l2 ∧ t.reqOf id = some { r with kind := .mem { m with lanes := [{ x with left := 0 }] } }
          ∧ ∃ bs, t.mem.near = s.mem.near ++ [⟨id, x.lane, 0, die, x.pa, bs, s.tideOf die + 8⟩] ∧ bs.length = m.sz
            ∧ numLE (bs.map CByte.b) = x.data % 2 ^ (8 * m.sz))
        ∧ (x.left = 0 → x.far = 1 → m.direct x = false → s.mayLand r m false x 0 = true → s.nearOf r x 0 = some e → clean → full → e.pa = x.pa →
          e.bytes.length = m.sz → x.pa % m.sz = 0 → s.Completes (.storeNoticeArrive ⟨⟨id, mask, halves⟩, true⟩) fun t => moved t ∧ gone t ∧ sameHome t
            ∧ t.mem.near = s.mem.near.filter (fun z => z != e) ∧ inL2 t (numLE (e.bytes.map CByte.b))))
      ∧ (size → clean → halves = 3 → (∀ u ∈ m.lanes, u.left = allParts m.sz ∧ u.far = allParts m.sz ∧ mask.getLsbD u.lane = true ∧ u.pa % m.sz = 0
          ∧ (m.scope = 5 ∨ bypasses u.cp u.pa = true) ∧ ∀ h ∈ partsOf m.sz, s.mayLand r m host u h = true ∧ s.nearOf r u h = none) →
        s.Completes (if host then .cxlCacheAcknowledgement ⟨id, mask, halves⟩ else .storeNoticeArrive ⟨⟨id, mask, halves⟩, true⟩) fun t => moved t ∧ gone t
          ∧ ((∀ (i j : Nat) (u z : LaneAcc), i ≠ j → m.lanes[i]? = some u → m.lanes[j]? = some z → u.pa + m.sz ≤ z.pa ∨ z.pa + m.sz ≤ u.pa) →
            ∀ u ∈ m.lanes, readNum t.mem.home u.pa m.sz = u.data % 2 ^ (8 * m.sz))
          ∧ ∀ z, (∀ u ∈ m.lanes, z < u.pa ∨ u.pa + m.sz ≤ z) → readByte t.mem.home z = readByte s.mem.home z))
    ∧ (s.mayPerform r m = true → m.op = .atom op ret → m.lanes = [x] → x.left = 1 → x.far = 0 → mask.getLsbD x.lane = true → s.mayAtomic r m false x 0 = true →
      let done (t : State) : Prop := kept t ∧ t.mem.spad = s.mem.spad
        ∧ t = { s with cur := t.cur, others := t.others, reqs := t.reqs, mem := t.mem, conds := t.conds, tasks := t.tasks, wgs := t.wgs }
      let after (v : Nat) (far : BitVec 2) (bad : Bool) (due : Nat × Nat) : Req := { r with
        kind := .mem { m with lanes := [{ x with res := v, left := 0, far := far }] }, served := ret, struck := r.struck || bad, due := due }
      (atomicInL2 x.cp m.scope x.pa = false → clean → s.Completes (.atomicPerform ⟨id, mask⟩ leaseL2) fun t =>
        done t ∧ t.reqOf id = (if ret then some (after old 0 (s.mem.poisoned x.pa m.sz) (s.dueFrom (homeDie x.pa))) else none)
        ∧ readNum t.mem.home x.pa m.sz = (atomNew op m.sz old x.data x.cmp).1 % 2 ^ (8 * m.sz)
        ∧ ∀ z, (z < x.pa ∨ x.pa + m.sz ≤ z) → readByte t.mem.home z = readByte s.mem.home z)
      ∧ (atomicInL2 x.cp m.scope x.pa = true → (∀ z ∈ s.mem.l2, z.die ≠ die → z.dirty = 0) → full → s.mem.near = [] → 0 < m.sz → x.pa % 64 + m.sz ≤ 64 →
        s.mem.l2At die (x.pa / 64) = some y → s.mem.l2Serves die (x.pa / 64) (s.tideOf die) (x.pa % 64) m.sz = true →
        s.Completes (.atomicPerform ⟨id, mask⟩ leaseL2) fun t => done t ∧ sameHome t ∧ t.tasks = s.tasks
          ∧ t.reqOf id = some (after own 1 (badWords y.bad (x.pa % 64) m.sz) r.due) ∧ (m.ch.getLsbD 1 = false → t.mem.l2 = s.mem.l2)
          ∧ ∃ bs, t.mem.near = [⟨id, x.lane, 0, die, x.pa, bs, s.tideOf die + 8⟩] ∧ bs.length = m.sz
            ∧ numLE (bs.map CByte.b) = (atomNew op m.sz own x.data x.cmp).1 % 2 ^ (8 * m.sz)))
    ∧ (m.op = .atom op ret → m.space = .global → m.lanes = [x] → x.left = 0 → x.far = 1 → mask.getLsbD x.lane = true → halves.getLsbD 0 = true →
      m.direct x = false → s.mayLand r m false x 0 = true → s.nearOf r x 0 = some e → clean → full → e.pa = x.pa → e.bytes.length = m.sz → x.pa % m.sz = 0 →
      m.sz ∈ [1, 2, 4, 8] → s.Completes (.storeNoticeArrive ⟨⟨id, mask, halves⟩, true⟩) fun t => moved t ∧ kept t ∧ sameHome t
        ∧ t.mem.near = s.mem.near.filter (fun z => z != e) ∧ inL2 t (numLE (e.bytes.map CByte.b))
        ∧ t.reqOf id = (if m.owes then some { r with kind := .mem { m with lanes := [{ x with far := 0 }] } } else none))
    ∧ (m.space = .global → m.isLoad = false → r.checked = false → s.came r = true → s.refusedLanes r m = [] →
      (m.isStore = true ∨ s.failingLanes r.core m = [] → s.Completes (.accessChecked id) fun t =>
        t = { s with cur := t.cur, others := t.others, reqs := t.reqs } ∧ kept t ∧ t.reqOf id = some { r with checked := true, due := (die, s.tideOf die + 8) })
      ∧ (m.isStore = false → s.failingLanes r.core m = x :: xs → s.Completes (.accessChecked id) fun t => failed t 17 1))
    ∧ (m.space = .global → r.served = false → r.checked = false → s.came r = true → (s.refusedLanes r m).head? = some u →
      let bad : List LaneAcc := if m.isStore then [] else s.failingLanes r.core m
      let logged (t : State) (w : LaneAcc) (cause detail : Nat) : Prop := kept t ∧ t = { s with reqs := t.reqs, mem := t.mem, notices := t.notices }
        ∧ t.reqOf id = some { r with fault := some ⟨cause, detail, 0, some w.lane, BitVec.ofNat 64 w.va, m.op.acc, r.act, r.split, r.pc, r.pc⟩ }
        ∧ t.mem = (s.logRecord ⟨s.tideOf (homeDie u.pa), 3, 3, 4, 0, r.core, r.pos, u.lane, r.pc, BitVec.ofNat 64 u.pa,
            match s.warpOf r.uid with | some w => w.task.getD 0 | none => 0, r.ctx.toNat, 0, targetOf u.pa⟩).mem
      ((∀ z ∈ bad, u.lane ≤ z.lane) → s.Completes (.accessRefused id) fun t => logged t u 3 4)
      ∧ (bad.find? (fun z => decide (z.lane < u.lane)) = some x → s.Completes (.accessRefused id) fun t => logged t x 17 1))

/-- R91, R118, R119, R121, R126, R127, R137, R138, R139, R229: the other events of the memory path. The additions of a `STAT` reach their words, a release is sent once
what came before it has performed, an acquire and the fences end once their conditions hold, a release or fence
at `.sys` writes what its L2 has dirty to the homes and takes their times into the completion times, a fault rolls the warp back to the checkpoint and takes its trap,
leases expire, lines are recalled or evicted with their dirty bytes written to the home, walks fill the TLBs, and an invalidation that Estuary may start empties
them of its range.
The model's choices in it: notes/assumptions/1.md, 14.md, 17.md, 47.md, 59.md and 60.md. -/
def Obligations.MemoryPathEvents : Prop := ∀ (s : State) (id core pos line die unit sec : Nat) (r : Req) (m : MemReq) (w : Warp)
    (tr : TrapInfo) (saved : Arch) (pa n : Nat) (e : DWord) (va : DWord) (ctx : BitVec 3) (words : List (Nat × Nat)) (statp : Nat) (x : L1Sector) (y : L2Sector)
    (word : Word) (ps : Parts) (home : Bool),
  let now := s.tideOf (core / 24)
  let pushed (ts : List Nat) (at' : Nat) : List Nat := (List.range 5).map fun i => max (ts.getD i 0) (if i = 4 then max at' (ts.getD 3 0) else 0)
  let written (hit : L2Sector → Prop) (t : State) : Prop := ∀ y ∈ s.mem.l2, hit y → ∀ i < 64, y.dirty.getLsbD i = true →
    (∀ z ∈ s.mem.l2, z.sec = y.sec → z.dirty.getLsbD i = true → z.data.getD i ⟨0, none⟩ = y.data.getD i ⟨0, none⟩) →
      readByte t.mem.home (64 * y.sec + i) = (y.data.getD i ⟨0, none⟩).b
  let untouched (hit : L2Sector → Prop) (t : State) : Prop := ∀ z, (∀ y ∈ s.mem.l2, hit y → z / 64 = y.sec → y.dirty.getLsbD (z % 64) = false) →
    readByte t.mem.home z = readByte s.mem.home z
  let onlyCaches (t : State) : Prop :=
    t = { s with mem := { s.mem with l2 := t.mem.l2, home := t.mem.home, stamps := t.mem.stamps, poison := t.mem.poison } }
  (s.reqOf id = some r → r.kind = .stat words statp → s.came r = true → ps.id = id → s.Completes (.storeNoticeArrive ⟨ps, home⟩) fun t =>
      t.reqs = s.reqs.filter (fun q => q.id != id)
      ∧ (words = [(va.toNat, n)] → s.xlate r.core r.ctx va.toNat = .ok pa e → leafRead e = true → leafWrite e = true → s.grantedAll r.ctx.toNat 0 pa 4 false = true →
        s.grantedAll r.ctx.toNat 0 pa 4 true = true → s.mem.poisoned pa 4 = false → (∀ z ∈ s.mem.l2, z.dirty = 0) →
          readNum t.mem.home pa 4 = min (2 ^ 32 - 1) (readNum s.mem.home pa 4 + n)))
  ∧ (s.reqOf id = some r → r.kind = .mem m → s.warpOf r.uid = some w → m.ord.getLsbD 1 = true → r.sent = false →
      (∀ q ∈ s.reqs, q.uid = r.uid → q.id < r.id → q.checked = true ∧ q.openAt m.scope = false) →
      (∀ i < m.scope, w.ctime.getD i 0 ≤ s.tideOf (w.core / 24)) → s.Completes (.releaseSend id) fun t =>
        (∀ q, q.id ≠ id → (q ∈ t.reqs ↔ q ∈ s.reqs))
        ∧ (m.scope ≠ 5 → t = { s with reqs := t.reqs } ∧ t.reqOf id = some { r with sent := true, due := (r.core / 24, s.tideOf (r.core / 24) + 8) })
        ∧ (m.scope = 5 → t = { s with reqs := t.reqs, mem := t.mem, cur := t.cur, others := t.others } ∧ written (fun z => z.die = r.core / 24) t
          ∧ t.warpOf r.uid = some { w with ctime := pushed w.ctime (s.pushTime (r.core / 24)) }
          ∧ t.reqOf id = some { r with sent := true
                                       due := (r.core / 24, max ((pushed w.ctime (s.pushTime (r.core / 24))).getD 4 0) (s.tideOf (r.core / 24)) + 8) }))
  ∧ (s.warpAt core pos = some s.cur → s.cur.acqUntil ≤ now → s.Completes (.acquireComplete core pos) fun t => t.cur = { s.cur with acqUntil := 0 }
      ∧ t = { s with cur := t.cur, others := t.others })
  ∧ (s.warpAt core pos = some s.cur → s.Completes (.fenceComplete core pos) fun t =>
      t.cur = { s.cur with fences := t.cur.fences, ctime := t.cur.ctime, fetched := t.cur.fetched } ∧ t = { s with cur := t.cur, others := t.others, mem := t.mem }
      ∧ (∀ g, g ∈ t.cur.fences ↔ ∃ f ∈ s.cur.fences, g = { f with pushed := f.pushed || s.mayPush s.cur f } ∧ t.fenceMet t.cur g = false)
      ∧ ((∀ f ∈ s.cur.fences, s.mayPush s.cur f = false) → t.mem = s.mem ∧ t.cur.ctime = s.cur.ctime)
      ∧ ((∃ f ∈ s.cur.fences, s.mayPush s.cur f = true) → written (fun z => z.die = core / 24) t
        ∧ t.cur.ctime = pushed s.cur.ctime (s.pushTime (core / 24))))
  ∧ (s.warpAt core pos = some s.cur → (s.reqs.find? fun q => q.uid == s.cur.uid && q.fault.isSome) = some r → r.fault = some tr → saved.handler = none →
      (s.cur.snaps.find? fun p => p.1 == r.id) = some (r.id, saved) → (∀ q ∈ s.reqs, q.uid = r.uid → q.id < r.id → q.checked = true) → s.cur.hdr.traph ≠ 0 →
      s.Completes (.faultRollback core pos) fun t =>
        (∀ q, q ∈ t.reqs ↔ q ∈ s.reqs ∧ ¬(q.uid = s.cur.uid ∧ r.id ≤ q.id)) ∧ t = { s with cur := t.cur, reqs := t.reqs, arrays := t.arrays }
        ∧ (∀ a ∈ t.arrays, ∀ q ∈ s.reqs, q.uid = s.cur.uid → r.id ≤ q.id → .access q.id ∉ a.queue)
        ∧ t.arrays.map (fun a => { a with queue := [] }) = s.arrays.map (fun a => { a with queue := [] })
        ∧ t.cur.arch = { saved with handler := some ⟨tr.hmask &&& saved.live, s.cur.hdr.traph, tr.rpc, { tr with hmask := tr.hmask }.record s.myTide, none⟩ }
        ∧ (∀ h, h ∈ t.cur.holds ↔ h ∈ s.cur.holds ∧ (∀ k, h.kind = .queue k ∨ h.kind = .jobs k → k < r.id)) ∧ t.cur.stalled = false)
  ∧ (s.mem.l1At unit sec = some x → x.expiry < s.tideOf (unit / 24) → s.Completes (.leaseExpire false unit sec) fun t => t.mem.l1At unit sec = none
      ∧ t = { s with mem := { s.mem with l1 := t.mem.l1 } } ∧ ∀ z, ¬(z.core = unit ∧ z.sec = sec) → (z ∈ t.mem.l1 ↔ z ∈ s.mem.l1))
  ∧ (s.mem.l2At unit sec = some y → y.expiry.any (fun k => decide (k < s.tideOf unit)) = true → s.Completes (.leaseExpire true unit sec) fun t =>
      t.mem.l2At unit sec = (if y.dirty = 0 then none else some { y with expiry := none }) ∧ t = { s with mem := { s.mem with l2 := t.mem.l2 } })
  ∧ (s.Completes (.recall line) fun t => onlyCaches t ∧ (∀ z ∈ t.mem.l2, z.sec / 4 = line → z.dirty = 0)
      ∧ written (fun z => z.sec / 4 = line) t ∧ untouched (fun z => z.sec / 4 = line) t)
  ∧ ((∀ z ∈ s.mem.l2, z.die = die → z.ef = false) ∨ (∃ z ∈ s.mem.l2, z.die = die ∧ z.ef = true ∧ z.sec / 4 = line) →
      s.Completes (.l2Eviction die line) fun t => onlyCaches t ∧ (∀ z, z ∈ t.mem.l2 ↔ z ∈ s.mem.l2 ∧ ¬(z.die = die ∧ z.sec / 4 = line))
        ∧ written (fun z => z.die = die ∧ z.sec / 4 = line) t ∧ untouched (fun z => z.die = die ∧ z.sec / 4 = line) t)
  ∧ ((∃ z ∈ s.mem.l2, z.die = die ∧ z.ef = true) → (∀ z ∈ s.mem.l2, z.die = die → z.ef = true → z.sec / 4 ≠ line) →
      s.Completes (.l2Eviction die line) fun t => t = s)
  ∧ (s.runs ctx = true → s.tlbHit (192 + core / 24) ctx va.toNat = none → (∃ z ∈ s.cur :: s.others, z.uid ≠ 0 ∧ z.core = core ∧ z.ctx = ctx) →
      s.Completes (.pageWalkComplete core ctx.toNat va) fun t => t = { s with mem := { s.mem with tlb := t.mem.tlb } }
        ∧ (core < 192 → s.walkVa ctx va.toNat = .ok pa e → s.tlbHit core ctx va.toNat = none → ∀ u ∈ [core, 192 + core / 24],
            ∃ z ∈ t.mem.tlb, z.unit = u ∧ z.ctx = ctx ∧ z.entry = e ∧ z.va ≤ va.toNat ∧ va.toNat < z.va + z.size)
        ∧ (∀ d l, s.walkVa ctx va.toNat = .bad d l → t = s))
  ∧ (s.mgmtGranted 3 0x10008 4 true = true → word.getLsbD 31 = true → s.mem.tlbic.getLsbD 30 = false → word.getLsbD 26 = true →
      s.Completes (.tlbicGo word) fun t => t.mem.tlbic.getLsbD 30 = true ∧ (∀ z, z ∈ t.mem.tlb ↔ z ∈ s.mem.tlb ∧ z.ctx ≠ (word >>> 27).setWidth 3)
        ∧ t = { s with conds := t.conds, nextId := t.nextId, mem := { s.mem with
            tlb := t.mem.tlb, tlbic := t.mem.tlbic, tlbKey := t.mem.tlbKey, tlbWait := t.mem.tlbWait, tlbRange := t.mem.tlbRange } })
  ∧ (s.mem.tlbic.getLsbD 30 = true → s.condMet s.mem.tlbKey = true → s.tlbQuiet = true → s.Completes .tlbInvalidationDone fun t =>
      t.mem.tlbic.getLsbD 30 = false ∧ (∀ z, z ∈ t.mem.tlb ↔ z ∈ s.mem.tlb ∧ z.inRange s.mem.tlbRange = false)
      ∧ t = { s with conds := t.conds, mem := { s.mem with tlb := t.mem.tlb, tlbic := t.mem.tlbic, tlbWait := [] } })

/-- R96, R97, R98, R99, R100, R103, R111, R123, R133, R141, R276, R289: the events of an array. An array accepts a mode change, in the warp's order, as the table of R100 says;
the transitions end once the accesses before them have been made or the `AXM`s have written, a parity failure poisoning the array, and what waited then takes
effect; a configuration changes in MODE 00 and faults otherwise; an `AXM` waits in MODE 10, is accepted in MODE 01, runs, and its result is written whole; a
scratchpad load reads and a store writes in MODE 00, a store faults in MODE 10 and 01, is held in MODE 11 and made when MODE 00 comes, and a load of an
uncorrectable word faults. The bytes a copy writes stand in an array's order too, and are made, in any mix, outside MODE 11.
The model's choices in it: notes/assumptions/1.md, 18.md, 45.md and 71.md. -/
def Obligations.ArrayEventResults : Prop := ∀ (s : State) (id phys k : Nat) (r q : Req) (a : ArrayRec) (compute parity a6 : Bool) (arr sg n : Nat) (j : AxmJob)
    (ts : List Nat) (rest : List AxmJob) (rows : List (List Word)) (m : MemReq) (x : LaneAcc) (xs : List LaneAcc) (mask : Mask) (halves : BitVec 2) (cs : List Host.Cell) (due : Nat),
  let sent (q : Req) : Req := { q with due := (0, 0) }
  let gone (t : State) : Prop := t.reqs.map sent = (s.reqs.filter fun q => q.id != id).map sent
  let alone (t : State) : Prop := ∀ y, ¬(y.core = a.core ∧ y.phys = a.phys) → (y ∈ t.arrays ↔ y ∈ s.arrays)
  let marks (y : ArrayRec) (c : Bool) : Bool := y.queue.any fun q => match q with | .mode k _ => k == c | _ => false
  let quiet : Prop := ∀ q ∈ a.queue, ∃ c u, q = .mode c u
  let failed (t : State) (cause detail : Nat) (lane : Option Nat) (addr : DWord) (acc : Nat) : Prop :=
    t = { s with reqs := t.reqs } ∧ (∀ y, y.id ≠ id → (y ∈ t.reqs ↔ y ∈ s.reqs))
      ∧ t.reqOf id = some { r with fault := some ⟨cause, detail, 0, lane, addr, acc, r.act, r.split, r.pc, r.pc⟩ }
  let kept (t : State) : Prop := t = { s with cur := t.cur, others := t.others, reqs := t.reqs, arrays := t.arrays } ∧ gone t
    ∧ t.cur = { s.cur with snaps := t.cur.snaps }
  let bytes (t : State) : Prop := t = { s with
      cur := t.cur, others := t.others, reqs := t.reqs, arrays := t.arrays, conds := t.conds, mem := { s.mem with spad := t.mem.spad, spadPoison := t.mem.spadPoison } }
  let stored (t : State) : Prop := readNum t.mem.spad x.pa m.sz = x.data % 2 ^ (8 * m.sz)
    ∧ ∀ z, (z < x.pa ∨ x.pa + m.sz ≤ z) → readByte t.mem.spad z = readByte s.mem.spad z
  let size : Prop := m.sz ∈ [1, 2, 4, 8, 16]
  let arrives : Prop := m.space = .spad ∧ r.served = false ∧ r.held = false ∧ r.fault = none ∧ (∀ p ∈ m.arrays, s.olderAt r p.1 p.2 = false)
    ∧ (m.ord.getLsbD 1 = true → s.released r m = true)
  let whole : Prop := ∀ y ∈ m.lanes, y.left = allParts m.sz ∧ y.far = 0 ∧ mask.getLsbD y.lane = true
  let free : Prop := ∀ y ∈ m.lanes, ∀ b, s.arrayOf (cellArray y.pa).1 (cellArray y.pa).2 = some b → b.queue = []
  (s.reqOf id = some r →
    (r.kind = .amode ts compute →
      ((∀ p ∈ ts, s.olderAt r r.core p = false) → s.Completes (.amodeAccept id) fun t =>
        t = { s with arrays := t.arrays, reqs := s.reqs.filter fun q => q.id != id }
        ∧ (ts.Nodup → t.arrays = s.arrays.map fun y => if y.core = r.core ∧ y.phys ∈ ts then { y with
            mode := if y.mode = 0 ∧ compute = true then 2 else if y.mode = 1 ∧ compute = false then 3 else y.mode
            queue := if (y.mode = 3 ∧ compute = true) ∨ (y.mode = 2 ∧ compute = false) then y.queue ++ [.mode compute r.uid] else y.queue } else y))
      ∧ ((∃ p ∈ ts, s.olderAt r r.core p = true) → s.Completes (.amodeAccept id) fun t => t = s))
    ∧ (s.arrayOf r.core phys = some a → r.fault = none →
      (r.kind = .acfg phys arr a6 sg →
        (s.olderAt r r.core phys = true → s.Completes (.acfgAccept id) fun t => t = s)
        ∧ (s.olderAt r r.core phys = false → a.mode = 0 → s.Completes (.acfgAccept id) fun t => kept t
          ∧ t.arrays = s.arrays.map fun y => if y.core = r.core ∧ y.phys = phys then { y with wfmt6 := a6, sg := sg } else y)
        ∧ (s.olderAt r r.core phys = false → a.mode ≠ 0 → s.Completes (.acfgAccept id) fun t => failed t 6 arr none 0 4))
      ∧ (r.kind = .axm phys arr j →
        (s.olderAt r r.core phys = true ∨ a.mode = 2 → s.Completes (.axmAccept id) fun t => t = s)
        ∧ (s.olderAt r r.core phys = false → a.mode = 1 → a.poisoned = false → s.Completes (.axmAccept id) fun t => kept t
          ∧ t.arrays = s.arrays.map fun y => if y.core = r.core ∧ y.phys = phys then { y with axms := y.axms ++ [j] } else y)
        ∧ (s.olderAt r r.core phys = false → a.mode = 1 → a.poisoned = true → s.Completes (.axmAccept id) fun t => failed t 17 5 none 0 4)
        ∧ (s.olderAt r r.core phys = false → a.mode = 0 ∨ a.mode = 3 → s.Completes (.axmAccept id) fun t => failed t 6 arr none 0 4))))
  ∧ (s.arrayOf a.core a.phys = some a →
    (a.mode = 2 → quiet → s.Completes (.arrayEnterCompute a.core a.phys parity) fun t => alone t ∧ t = { s with arrays := t.arrays }
      ∧ t.arrayOf a.core a.phys = some { a with mode := if marks a false then 3 else 1, poisoned := parity || s.tileFails a, queue := [] })
    ∧ (a.mode ≠ 2 ∨ ¬quiet → s.Completes (.arrayEnterCompute a.core a.phys parity) fun t => alone t ∧ t = { s with arrays := t.arrays }
      ∧ t.arrayOf a.core a.phys = some a)
    ∧ (a.mode ≠ 3 ∨ a.axms ≠ [] → s.Completes (.arrayEnterStorage a.core a.phys) fun t => t = s)
    ∧ (a.mode = 3 → a.axms = [] → quiet → s.Completes (.arrayEnterStorage a.core a.phys) fun t => alone t ∧ t = { s with arrays := t.arrays }
      ∧ t.arrayOf a.core a.phys = some { a with mode := if marks a true then 2 else 0, poisoned := false, flips := [], queue := [] })
    ∧ (a.mode = 3 → a.axms = [] → a.queue = [.access k] → s.reqOf k = some q → q.kind = .mem m → m.isStore = true → m.lanes = [x] → x.left = 1 → x.far = 0 →
      m.sz ∈ [1, 2, 4, 8] → x.lane < 128 → cellArray x.pa = (a.core, a.phys) → s.Completes (.arrayEnterStorage a.core a.phys) fun t => bytes t
        ∧ t.cur = s.cur ∧ t.others = s.others ∧ t.conds = s.conds ∧ t.reqs = s.reqs.filter (fun q => q.id != k) ∧ stored t
        ∧ t.arrayOf a.core a.phys = some { a with mode := 0, poisoned := false, flips := [], queue := [] })
    ∧ (a.axms = j :: rest → j.result = none → s.Completes (.axmStart a.core a.phys n) fun t => alone t ∧ t = { s with arrays := t.arrays, wgs := t.wgs }
      ∧ ∃ rows, t.arrayOf a.core a.phys = some { a with axms := { j with result := some rows } :: rest }
        ∧ rows = (List.range j.m).map (fun i => (s.axmRow a j i).1) ∧ ∀ row ∈ rows, row.length = if a.wfmt6 then 64 else 48)
    ∧ (a.axms = j :: rest → j.result = some rows → j.uid = s.cur.uid → s.Completes (.axmResultWrite a.core a.phys) fun t => alone t
        ∧ t = { s with cur := t.cur, others := t.others, arrays := t.arrays } ∧ t.arrayOf a.core a.phys = some { a with axms := rest }
        ∧ (∀ p, p ∈ t.cur.pends ↔ p ∈ s.cur.pends ∧ p.id ≠ j.id) ∧ (s.cur.hasExited = true → t.cur.arch = s.cur.arch)
        ∧ (s.cur.hasExited = false → j.hdl = false → j.m ≤ 8 →
          (∀ i < j.m, ∀ k < 64, ∀ v, (rows[i]?).bind (fun row => row[k]?) = some v →
            (t.cur.arch.vregs.getD (j.d + BitVec.ofNat 6 (i / 2)).toNat (.u 0)).lane (64 * (i % 2) + k) = v)
          ∧ ∀ q < 64, (∀ i < (j.m + 1) / 2, q ≠ (j.d + BitVec.ofNat 6 i).toNat) → t.cur.arch.vregs.getD q (.u 0) = s.cur.arch.vregs.getD q (.u 0))))
  ∧ (s.reqOf id = some r → r.kind = .mem m →
    (arrives → m.isLoad = true → s.failingLanes r.core m = [] → size → whole → halves = 3 → free → s.Completes (.arrayAccessAccept ⟨id, mask, halves⟩) fun t =>
      t = { s with reqs := t.reqs, arrays := t.arrays } ∧ (∀ y, y.id ≠ id → (y ∈ t.reqs ↔ y ∈ s.reqs))
      ∧ ∃ ls, t.reqOf id = some { r with served := true, held := true, kind := .mem { m with lanes := ls } }
        ∧ ls = m.lanes.map fun y => { y with res := y.res + readNum s.mem.spad y.pa m.sz, left := 0 })
    ∧ (arrives → m.isLoad = true → s.failingLanes r.core m = x :: xs → s.Completes (.arrayAccessAccept ⟨id, mask, halves⟩) fun t =>
        failed t 17 2 (some x.lane) (BitVec.ofNat 64 x.va) 0)
    ∧ (arrives → m.isStore = true → (∀ y ∈ m.lanes, s.modeAt y.pa = 0) → size → whole → halves = 3 → free →
      s.Completes (.arrayAccessAccept ⟨id, mask, halves⟩) fun t => bytes t ∧ gone t
        ∧ ((∀ (i j : Nat) (y z : LaneAcc), i ≠ j → m.lanes[i]? = some y → m.lanes[j]? = some z → y.pa + m.sz ≤ z.pa ∨ z.pa + m.sz ≤ y.pa) →
          ∀ y ∈ m.lanes, readNum t.mem.spad y.pa m.sz = y.data % 2 ^ (8 * m.sz))
        ∧ ∀ z, (∀ y ∈ m.lanes, z < y.pa ∨ y.pa + m.sz ≤ z) → readByte t.mem.spad z = readByte s.mem.spad z)
    ∧ (arrives → m.isStore = true → (m.lanes.find? fun y => s.modeAt y.pa == 1 || s.modeAt y.pa == 2) = some x →
      s.Completes (.arrayAccessAccept ⟨id, mask, halves⟩) fun t =>
        failed t 5 (s.arrayNumber r.wg (cellArray x.pa).1 (cellArray x.pa).2) (some x.lane) (BitVec.ofNat 64 x.va) 1)
    ∧ (arrives → m.isStore = true → m.lanes = [x] → x.left = allParts m.sz → size → s.modeAt x.pa = 3 → s.arrayOf (cellArray x.pa).1 (cellArray x.pa).2 = some a →
      s.Completes (.arrayAccessAccept ⟨id, mask, halves⟩) fun t => bytes t ∧ t.mem = s.mem
        ∧ t.reqOf id = some { r with checked := true, held := true, due := (r.core / 24, s.tideOf (r.core / 24) + 8) }
        ∧ t.arrayOf (cellArray x.pa).1 (cellArray x.pa).2 = some { a with queue := a.queue ++ [.access id] })
    ∧ (m.space = .spad → r.served = false → r.fault = none → r.held = true → r.checked = true → m.isStore = true → m.lanes = [x] → x.left = 1 → x.far = 0 →
      m.sz ∈ [1, 2, 4, 8] → mask.getLsbD x.lane = true → halves.getLsbD 0 = true → s.mayMake r m x 0 = true →
        s.Completes (.arrayAccessAccept ⟨id, mask, halves⟩) fun t => bytes t ∧ t.cur = s.cur ∧ t.others = s.others ∧ t.conds = s.conds
          ∧ t.reqs = s.reqs.filter (fun q => q.id != id) ∧ stored t)
    ∧ (m.space = .spad → r.held = false → (∃ p ∈ m.arrays, s.olderAt r p.1 p.2 = true) → s.Completes (.arrayAccessAccept ⟨id, mask, halves⟩) fun t => t = s))
  ∧ (s.reqOf id = none → a ∈ s.arrays → (∀ y ∈ s.arrays, y = a ∨ y.queue = []) → a.queue = [.write id cs due] → due ≤ s.tideOf (a.core / 24) →
    (a.mode ≠ 3 → (cs.map (·.1)).Nodup → s.Completes (.arrayAccessAccept ⟨id, mask, halves⟩) fun t =>
      t = { s with arrays := t.arrays, mem := { s.mem with spad := t.mem.spad, spadPoison := t.mem.spadPoison } }
      ∧ (∀ i < cs.length, mask.getLsbD i = true → readByte t.mem.spad (cs.getD i (0, 0)).1 = (cs.getD i (0, 0)).2)
      ∧ (∀ z, (∀ i < cs.length, mask.getLsbD i = true → (cs.getD i (0, 0)).1 ≠ z) → readByte t.mem.spad z = readByte s.mem.spad z)
      ∧ let left := ((List.range cs.length).filter fun i => !mask.getLsbD i).map fun i => cs.getD i (0, 0)
        t.arrays = s.arrays.map fun y => if y = a then { a with queue := if left = [] then [] else [.write id left due] } else y)
    ∧ (a.mode = 3 → cs ≠ [] → s.Completes (.arrayAccessAccept ⟨id, mask, halves⟩) fun t => t = s))

/-- R106, R107: with a scale group of 64 rows the converter loses nothing, so the group product is the exact sum of products of the signed mantissas, for every
repeat factor. -/
def Obligations.ArrayProductIsExactAtScaleGroup64 : Prop := ∀ (pa pw rep : Nat) (ma mw : List Nat), 0 < pa → 0 < pw → 0 < rep → ma.length = mw.length →
  (∀ x ∈ ma, x < 2 ^ pa) → (∀ x ∈ mw, x < 2 ^ pw) →
    groupProduct pa pw 64 rep ma mw = ((ma.zip mw).map fun x => (BitVec.ofNat pa x.1).toInt * (BitVec.ofNat pw x.2).toInt).sum

/-! ## Events of tasks and copies -/

/-- R146, R147, R170, R172, R174, R175, R179 to R181, R183 to R189: the events of tasks. A task parks unless its counter is zero, when every task parked there is placed in
park order; the head of a ready queue starts with the registers of R181, or breaks on a bad header; a recorded value or break settles its slot, which is
released once it is dropped; a decrement takes one from its counter or breaks on zero, cores ascending within a cc at a home slice; a chain joins its
upstream, and starts or breaks with it; the answers of handles reach the lanes that asked, and a broken `AWAIT.T` traps. What goes
from one die to another arrives 8 tk later or more (R135), and a task whose release another die must hear of waits for the word of it. Stated of the warp in focus where an
answer goes to a warp.
The model's choices in it: notes/assumptions/1.md, 33.md, 36.md and 71.md. -/
def Obligations.TaskEventResults : Prop := ∀ (s : State) (handle up : DWord) (x y : Slot) (p : ParkedTask) (core n pa id l pos : Nat) (rt : ReadyTask) (second : Bool) (e : DWord)
    (r : Req) (hs : List (Nat × DWord)) (pr : PReg) (d : Reg) (v : DWord) (broken trapping : Bool) (pre post : List Req) (ld : LateDec),
  let clean : Prop := ∀ y ∈ s.mem.l2, y.dirty = 0
  let counter := readNum s.mem.home p.pa 4
  let src := x.exec.getD x.core
  let va := x.words.getD (if second then 4 else 3) 0
  let final : Prop := x.time + (if src / 24 = x.core / 24 then 0 else 8) ≤ s.tideOf (src / 24)
  let old := readNum s.mem.home pa 4
  let head := headerOf (readBytes s.mem.home pa 128)
  let sent (q : Req) : Req := { q with due := (0, 0) }
  let gone (t : State) : Prop := t.reqs.map sent = (s.reqs.filter fun q => q.id != id).map sent
  let stale (t : State) : Prop := t.reqOf id = some { r with fault := some ⟨11, 0, 0, some l, 0, 4, r.act, r.split, r.pc, r.pc⟩ }
  let word (cause detail : Nat) (h : DWord) : DWord := BitVec.ofNat 64 (cause * 2 ^ 56 + detail * 2 ^ 48 + h.toNat / 65536)
  let reaches (core : Nat) (va : DWord) : Prop := s.xlate core (handleCtx handle) va.toNat = .ok pa e ∧ leafRead e = true ∧ leafWrite e = true
    ∧ s.grantedAll (handleCtx handle).toNat 0 pa 4 false = true ∧ s.grantedAll (handleCtx handle).toNat 0 pa 4 true = true ∧ s.pchBusy pa = false ∧ s.mem.poisoned pa 4 = false ∧ clean
  let inTurn (core : Nat) : Prop := ∀ q ∈ s.tasks.decSeen, q.1 = sliceOf pa → q.2 ≤ core
  let took (t : State) : Prop := readNum t.mem.home pa 4 = old - 1 ∧ t = { s with mem := t.mem, tasks := t.tasks }
    ∧ ∀ z, (z < pa ∨ pa + 4 ≤ z) → readByte t.mem.home z = readByte s.mem.home z
  let u (w : Warp) (k : Nat) (z : DWord) : Prop := w.arch.vregs.getD k (.u 0) = .u (loWord z) ∧ w.arch.vregs.getD (k + 1) (.u 0) = .u (hiWord z)
  let answered (t : State) : Prop := (t.cur.lane l).st = .runnable ∧ (t.cur.lane l).wait = 0
    ∧ (t.cur.arch.vregs.getD d.toNat (.u 0)).lane l = loWord v ∧ (t.cur.arch.vregs.getD (d + 1).toNat (.u 0)).lane l = hiWord v
    ∧ (t.cur.arch.preds.getD pr.toNat 0).getLsbD l = !broken ∧ (∀ k < 128, k ≠ l → t.cur.lane k = s.cur.lane k)
    ∧ t.cur.acqUntil = max s.cur.acqUntil (s.answerTime [handle])
  let waits : Prop := l < 128 ∧ pr ≠ 7 ∧ s.cur.uid = r.uid ∧ r.uid ≠ 0 ∧ r.hdl = false ∧ s.cur.arch.handler = none
    ∧ (s.cur.lane l).st = .awaiting r.id ∧ r.kind = .await [(l, handle)] d pr trapping ∧ s.answer (r.core / 24) handle = some (v, broken)
    ∧ s.frozen r.uid = false
  (s.tasks.parked.find? (fun q => q.handle == handle && !q.arrived) = some p → clean → s.pchBusy p.pa = false → p.due.2 ≤ s.tideOf p.due.1 → s.Completes (.parkArrive handle) fun t =>
      t = { s with mem := t.mem, tasks := t.tasks } ∧ t.mem.home = s.mem.home ∧ t.tasks.slots = s.tasks.slots
      ∧ (counter ≠ 0 → t.tasks.parked = s.tasks.parked.filter (fun q => q.handle != handle) ++ [{ p with arrived := true }] ∧ t.tasks.ready = s.tasks.ready)
      ∧ (counter = 0 → t.tasks.parked = s.tasks.parked.filter (fun q => q.handle != handle && !(q.arrived && q.pa == p.pa))
          ∧ t.tasks.ready = s.tasks.ready ++ (s.tasks.parked.filter (fun q => q.handle != handle && (q.arrived && q.pa == p.pa)) ++ [p]).filterMap fun q =>
              (s.slotOf q.handle).map fun z =>
                ⟨s.placeCore z.core z.ctx (z.words.getD 5 0), z.ctx, recPrio z.words, q.handle, 0, 0, max (s.mem.stampAt p.pa 4) (timeFor p.pa s.tasks.decTimes),
                  decide (homeDie p.pa = s.placeCore z.core z.ctx (z.words.getD 5 0) / 24), false, s.dueFrom (homeDie p.pa)⟩))
  ∧ (((List.range 8).find? fun k => s.runsOn (core / 24) (BitVec.ofNat 3 k)) = some n → s.ctl.down.contains (core / 24) = false →
      s.readyHead core (BitVec.ofNat 3 n) = some rt → s.slotOf rt.handle = some x → x.state = .pending → x.gen = handleGen rt.handle → s.condMet x.cond = true →
      (x.core = core ∨ (s.lowestSlot core (BitVec.ofNat 3 n)).isSome = true) →
      (x.core / 24 ≠ core / 24 → rt.told = false → s.Completes (.taskDispatch core) fun t => t = { s with tasks := { s.tasks with
          ready := s.tasks.ready.map fun q => if q.handle = rt.handle then { q with told := true, due := s.dueFrom (x.core / 24) } else q } })
      ∧ ((x.core / 24 = core / 24 ∨ rt.told = true) → (rt.told = true → rt.due.2 ≤ s.tideOf rt.due.1) →
      (clean → s.headerPlace core (BitVec.ofNat 3 n) (s.descOf n 1 + 128 * recLhidx x.words) = .ok pa → head.validTask n = true → s.fits core head 1 = some [pos] →
        s.Completes (.taskDispatch core) fun t =>
          t = { s with cur := t.cur, others := t.others, wgs := t.wgs, arrays := t.arrays, mem := t.mem, tasks := t.tasks, conds := t.conds, nextId := t.nextId }
          ∧ t.mem.home = s.mem.home ∧ (∀ q ∈ t.tasks.ready, q.handle ≠ rt.handle)
          ∧ t.slotOf rt.handle = some { x with
              state := .running, exec := some core, forward := if x.core = core then none else some ((s.lowestSlot core (BitVec.ofNat 3 n)).getD 0) }
          ∧ ∃ w ∈ t.warps, w.core = core ∧ w.pos = pos ∧ w.task = some rt.handle ∧ w.hdr = head ∧ w.ctx = BitVec.ofNat 3 n ∧ w.argp = x.words.getD 1 0
            ∧ w.succs = [x.words.getD 3 0, x.words.getD 4 0] ∧ w.acqUntil = max rt.acqTime (s.condTime x.cond)
            ∧ (∀ k < 128, (w.lane k).st = .runnable ∧ (w.lane k).pc = x.words.getD 0 0)
            ∧ u w 0 rt.upValue ∧ u w 2 rt.handle ∧ u w 4 (x.words.getD 1 0) ∧ u w 6 (x.words.getD 2 0) ∧ u w 8 rt.upHandle)
      ∧ (x.home = true → x.dropped = false → x.brk = none →
        (s.headerPlace core (BitVec.ofNat 3 n) (s.descOf n 1 + 128 * recLhidx x.words) = .error none → s.Completes (.taskDispatch core) fun t =>
          t = { s with tasks := t.tasks }
            ∧ t.slotOf rt.handle = some { x with state := .broken, brk := some (word 6 2 rt.handle), time := s.tideOf (x.core / 24) })
        ∧ (clean → s.headerPlace core (BitVec.ofNat 3 n) (s.descOf n 1 + 128 * recLhidx x.words) = .ok pa → head.validTask n = false →
          s.Completes (.taskDispatch core) fun t => t = { s with tasks := t.tasks, mem := t.mem }
            ∧ t.slotOf rt.handle = some { x with state := .broken, brk := some (word 6 1 rt.handle), time := s.tideOf (x.core / 24) }))))
  ∧ (s.slotOf handle = some x → x.gen = handleGen handle →
      (x.state = .running → x.value.isSome = true ∨ x.brk.isSome = true → s.condMet x.cond = true →
          (∀ w ∈ s.warps, w.task = some handle → w.hasExited = true → w.owesValue = false) →
        (x.dropped = false → s.Completes (.handleResolve handle) fun t => t = { s with tasks := t.tasks, conds := t.conds }
          ∧ t.slotOf handle = some (if recDecs x.words = [] then
                { x with state := if x.brk.isSome then .broken else .resolved, decs := [], time := s.tideOf (src / 24) }
              else { x with state := .settling, decs := recDecs x.words, time := s.tideOf (src / 24) }))
        ∧ (x.dropped = true → recDecs x.words = [] → x.chain = [] → s.awaited handle = false → x.forward = none →
            s.Completes (.handleResolve handle) fun t => (t.slotOf handle).map (fun z => (z.state, z.gen)) = some (.free, x.gen + 1)))
      ∧ (x.home = true → x.state = .settling → x.decs.contains (second, false) = true → (second = true → x.decs.contains (false, false) = false) →
          x.time + 8 ≤ s.tideOf (src / 24) → reaches src va →
        (inTurn src → s.Completes (.successorDecrement handle second) fun t => (sliceOf pa, src) ∈ t.tasks.decSeen
          ∧ (old ≠ 0 → took t ∧ t.slotOf handle = some { x with
            decs := x.decs.map (fun k => if k.1 == second then (k.1, true) else k), due := s.dueFrom (homeDie pa) })
          ∧ (old = 0 → (t.slotOf handle).map (fun z => (z.brk, z.decs)) = some (some (x.brk.getD (word 5 (if second then 1 else 0) handle)),
              x.decs.map fun k => if k.1 == second then (k.1, true) else k)))
        ∧ (¬inTurn src → s.Completes (.successorDecrement handle second) fun t => t = s))
      ∧ (x.state = .settling → (∀ k ∈ x.decs, k.2 = true) → x.due.2 ≤ s.tideOf x.due.1 → x.dropped = false → s.Completes (.decrementAcknowledge handle) fun t =>
        t.slotOf handle = some { x with state := if x.brk.isSome then .broken else .resolved, decs := [], time := s.tideOf (src / 24) } ∧ t = { s with tasks := t.tasks })
      ∧ (x.dropped = false → x.state = .resolved → final → s.Completes (.chainListRun handle) fun t => t.slotOf handle = some { x with chain := [] }
        ∧ t = { s with tasks := t.tasks } ∧ ∀ h ∈ x.chain, ∀ z, s.slotOf h = some z →
            ⟨src, z.ctx, recPrio z.words, h, x.value.getD 0, handle, x.time, decide (x.core / 24 = src / 24), false, s.dueFrom (x.core / 24)⟩ ∈ t.tasks.ready)
      ∧ (x.dropped = false → x.state = .broken → final → x.brk = some v → ∀ h, x.chain = [h] → s.slotOf h = some y → y.state = .pending → y.dropped = false →
        y.home = true → y.gen = handleGen h → y.brk = none → s.Completes (.chainListRun handle) fun t =>
          t.slotOf h = some { y with state := .broken, brk := some (upstreamWord v), time := s.tideOf (y.core / 24) } ∧ t.tasks.ready = s.tasks.ready
          ∧ t.tasks.late = s.tasks.late ++ (recDecs y.words).map fun k => ⟨h, y.core, y.words.getD (if k.1 then 4 else 3) 0, k.1, 0, none⟩))
  ∧ ((s.liveSlot handle).filter (fun x => x.state == .settling) = none → s.tasks.late.find? (fun q => q.handle == handle && q.second == second) = some ld →
      (ld.due = none → s.condMet ld.cond = true → s.Completes (.successorDecrement handle second) fun t => t = { s with tasks := { s.tasks with
          late := s.tasks.late.map fun q => if q.handle = handle ∧ q.second = second then { q with due := some (s.dueFrom (ld.core / 24)) } else q } })
      ∧ (∀ came, ld.due = some came → came.2 ≤ s.tideOf came.1 → (second = true → ∀ q ∈ s.tasks.late, q.handle = handle → q.second = true) →
        reaches ld.core ld.va → inTurn ld.core → old ≠ 0 → s.Completes (.successorDecrement handle second) fun t =>
          took t ∧ t.tasks.late = s.tasks.late.filter fun q => !(q.handle == handle && q.second == second)))
  ∧ (s.reqOf id = some r → r.checked = false → r.fault = none → (s.came r = true ∨ ∀ h ∈ r.handles, handleCore h / 24 = r.core / 24) →
      (r.kind = .hpoll hs pr → pr ≠ 7 → r.uid = s.cur.uid → (∀ z ∈ hs, s.handleOk r.ctx z.2 = true) → s.Completes (.handleMessageArrive id) fun t => gone t
        ∧ t = { s with cur := t.cur, others := t.others, reqs := t.reqs } ∧ (∀ k < 128, (t.cur.arch.preds.getD pr.toNat 0).getLsbD k =
            if r.act.getLsbD k then hs.any fun z => z.1 == k && (s.answer (r.core / 24) z.2).isSome else (s.cur.arch.preds.getD pr.toNat 0).getLsbD k)
        ∧ t.cur.acqUntil = max s.cur.acqUntil (s.answerTime (hs.map (·.2))))
      ∧ (r.kind = .hpoll hs pr → hs.find? (fun z => !s.handleOk r.ctx z.2) = some (l, v) → s.Completes (.handleMessageArrive id) fun t =>
        stale t ∧ t = { s with reqs := t.reqs })
      ∧ (r.kind = .hdrop [(l, handle)] → s.handleOk r.ctx handle = true → s.slotOf handle = some x →
        (x.state.final = false → s.Completes (.handleMessageArrive id) fun t => gone t ∧ t.slotOf handle = some { x with dropped := true }
          ∧ t = { s with cur := t.cur, others := t.others, reqs := t.reqs, tasks := t.tasks })
        ∧ (x.state.final = true → x.chain = [] → s.awaited handle = false → x.forward = none → s.Completes (.handleMessageArrive id) fun t => gone t
          ∧ (t.slotOf handle).map (fun z => (z.state, z.gen, z.dropped)) = some (.free, x.gen + 1, false)))
      ∧ (r.kind = .hdrop [(l, handle)] → s.handleOk r.ctx handle = false → s.Completes (.handleMessageArrive id) fun t => stale t ∧ t = { s with reqs := t.reqs })
      ∧ (r.kind = .chain [(l, up, handle)] → s.slotOf handle = some y →
        (s.handleOk r.ctx up = true → s.slotOf up = some x → y.home = true → y.gen = handleGen handle →
          (y.state = .pending → s.Completes (.handleMessageArrive id) fun t => gone t
            ∧ t.slotOf up = some { x with chain := x.chain ++ [handle] } ∧ t = { s with cur := t.cur, others := t.others, reqs := t.reqs, tasks := t.tasks })
          ∧ (y.state = .broken → y.dropped = false → s.Completes (.handleMessageArrive id) fun t => gone t
            ∧ t = { s with cur := t.cur, others := t.others, reqs := t.reqs }))
        ∧ (s.handleOk r.ctx up = false → s.Completes (.handleMessageArrive id) fun t => stale t ∧ (t.slotOf handle).map (·.state) = some .free))
      ∧ (waits → s.handleOk r.ctx handle = true →
        ((trapping && broken) = false → s.Completes (.handleMessageArrive id) fun t => gone t ∧ answered t)
        ∧ (trapping = true → broken = true → s.cur.hdr.traph ≠ 0 → (∀ q ∈ s.reqs, q.uid = r.uid → q.id ≠ id → q.checked = true) →
          s.Completes (.handleMessageArrive id) fun t => gone t ∧ (t.cur.lane l).st = .runnable
            ∧ t.cur.arch.handler.map (fun h => (h.mask, h.pc, h.epc, h.words)) = some (BitVec.twoPow 128 l, s.cur.hdr.traph, r.next,
                recordOf 15 255 0 (some l) r.pc r.next v 4 r.act s.myTide))))
  ∧ (s.reqs = pre ++ r :: post → r.checked = true → s.frozen r.uid = false → waits → (trapping && broken) = false →
      (∀ q ∈ pre ++ post, q.id ≠ r.id ∧ ∀ hs d p t, q.kind = .await hs d p t → ∀ z ∈ hs, z.2 ≠ handle) →
      s.Completes (.awaitWake handle) fun t => answered t ∧ t.reqs = pre ++ post)

/-- R127, R145, R150, R151, R158 to R164, R166 to R168, R269, R271: the events of the copy engines. A queue accepts an entry, begins it with its record read and moves it by
as many units as it is given, ends it with a status in its token and its arrival at the barrier; a fault holds the queue until Estuary resumes or aborts it, under its
access table; a reducing message is applied once for its stamp; an `XRED` rank takes the result and writes it; a peer's write reaches the home, and its
answer ends an entry at the first element sent that failed, or is kept while a fault holds it; a rank on a peer part that disagrees ends the ranks here with
XMATCH, and none stands for a rank here that has not delivered.
The model's choices in it: notes/assumptions/1.md, 5.md and 44.md (QCTL written by Estuary, with the record of a refusal), 22.md, 23.md, 24.md, 25.md, 26.md, 62.md and 66.md. -/
def Obligations.CopyEngineEvents : Prop := ∀ (s : State) (id q n pa units : Nat) (e : CopyEntry) (rec128 : List Byte) (s1 : State) (off : Nat) (va : DWord) (code : Nat)
    (j : JoinRec) (bound : Bool) (ctx : BitVec 3) (m : RedMsg) (x : RedElem) (w : RedWindow) (f : RedFloor) (k : XredRank) (xs : List Nat) (port : Nat)
    (data : List Byte) (en : DWord) (b : BitVec 5) (ps : List PeerRank) (r0 : XredRank),
  let clean : Prop := ∀ y ∈ s.mem.l2, y.dirty = 0
  let same (t : State) : Prop := ∀ z, z.id ≠ id → (z ∈ t.copy.entries ↔ z ∈ s.copy.entries)
  let counted (t : State) (h : Barrier → Barrier) : Prop :=
    t.wgs = updWhere (fun g => g.key == e.wg) (fun g => { g with bars := updAt h b.toNat g.bars }) s.wgs
  let ready : Prop := (s.queueRec e.q).flt = false ∧ (s.queueRec e.q).paused = false ∧ s.ctl.down.contains (e.q / 64) = false ∧ s.leavingQueue e.q = false
  let due : Prop := e.acc ≠ 0 ∧ e.phase = .waiting ∧ s.headOf e = true ∧ e.cond = none ∧ ready
  let alone : Prop := (∀ z ∈ s.copy.msgs, z.id ≠ id) ∧ (∀ z ∈ s.copy.peers, z.id ≠ id)
  let mine (y : RedMsg) : Prop := y.q = m.q ∧ y.seq = m.seq ∧ y.chunk = m.chunk
  let focused (uid : Nat) (hdl : Bool) : Prop := uid = s.cur.uid ∧ s.frozen uid = false ∧ s.cur.hasExited = false ∧ hdl = false
  let token (t : State) (tok : Reg) (l : Nat) : Word := (t.cur.arch.vregs.getD tok.toNat (.u 0)).lane l
  let qctl (ok : Bool) : Prop := q < 512 ∧ s.mgmtGranted 3 (0x20000 + 16 * q) 4 true = ok
  let writes (t : Nat) : Prop := s.engWrite e ((k.dst.toNat + formatBytes k.dfmt * e.next) % 2 ^ 64) (bytesLE (formatBytes k.dfmt) (xs.getD e.next 0)) = .ok (s1, t)
  let use : List XredRank := s.waitingRanks.filter fun r => r.group == n && r.epoch == q
  let given (i : Nat) : List Nat := ((use.find? fun r => r.rank == i).map (·.xs)).getD []
  (s.entryOf id = some e →
    (e.acc = 0 → (∃ y, s.warpOf e.uid = some y ∧ y.hasExited = false) →
      (s.ctl.down.contains (e.q / 64) = false → (s.queueRec e.q).paused = false → s.depth e.q < 64 → e.time ≤ s.tideOf (e.core / 24) →
        (∀ z ∈ s.copy.entries, z.ins = e.ins → z.id < id → z.acc ≠ 0) → s.Completes (.copyEntryAccept id) fun t =>
          t.entryOf id = some { e with acc := s.nextId, time := s.tideOf (e.q / 64) + 8 } ∧ same t ∧ (e.bar = none → t.wgs = s.wgs)
          ∧ (e.bar = some b → counted t fun z => { z with ncopy := z.ncopy + 1 })
          ∧ t = { s with nextId := s.nextId + 1, copy := t.copy, wgs := t.wgs })
      ∧ ((s.queueRec e.q).paused = true ∨ 64 ≤ s.depth e.q → s.Completes (.copyEntryAccept id) fun t => t = s))
    ∧ (e.acc = 0 → (∃ y, s.warpOf e.uid = some y ∧ y.hasExited = true) → s.Completes (.copyEntryAccept id) fun t =>
        t.entryOf id = none ∧ same t ∧ t.wgs = s.wgs ∧ t.mem = s.mem)
    ∧ (due → e.kind = .copy → e.rec' = [] → e.time ≤ s.tideOf (e.q / 64) → alone → s.engRead e e.addr.toNat 128 = .ok (rec128, s1) → e.status = 0 →
      let L := layoutOf rec128
      let e2 := { e with rec' := rec128, seq := (s.queueRec e.q).seq }
      let moved := Mover.run ⟨s1.mapEntry id fun _ => e2, .zero, e.time, [], [], e.cols⟩ e2 L (fun _ => false) (min units L.count) e.next
      let after := { e2 with cnt := e2.cnt.add moved.1.1.cnt, time := moved.1.1.time, cols := moved.1.1.cols }
      (L.offence rec128 (s.copyOperands e) = some off → s.Completes (.copyEntryBegin ⟨id, units⟩) fun t => same t
          ∧ t.entryOf id = some { e with status := 1, detail := off, phase := .moved })
      ∧ (L.offence rec128 (s.copyOperands e) = none → L.dir ≠ 4 → moved.1.2 = none → s.Completes (.copyEntryBegin ⟨id, units⟩) fun t =>
          t.mem = moved.1.1.s.mem ∧ t.arrays = moved.1.1.s.arrays ∧ t.cur = s.cur ∧ same t
          ∧ t.entryOf id = some { after with
              next := moved.2, detail := if L.count ≤ moved.2 then 0 else e.detail, phase := if L.count ≤ moved.2 then .moved else .waiting })
      ∧ (L.offence rec128 (s.copyOperands e) = none → L.dir ≠ 4 → moved.1.2 = some (n, .held) → s.Completes (.copyEntryBegin ⟨id, units⟩) fun t =>
          t.mem = moved.1.1.s.mem ∧ t.arrays = moved.1.1.s.arrays ∧ t.cur = s.cur ∧ same t ∧ t.entryOf id = some { after with next := n })
      ∧ (L.offence rec128 (s.copyOperands e) = none → L.dir = 4 → s.boot.portsUp = true → s.portGranted e.ctx.toNat L.port = true → moved.1.2 = none →
        s.Completes (.copyEntryBegin ⟨id, units⟩) fun t => t.mem = moved.1.1.s.mem ∧ t.cur = s.cur ∧ same t
          ∧ t.copy.peers = s.copy.peers ++ (if moved.1.1.out = [] then [] else [⟨id, L.port, L.part, L.pctx, moved.1.1.out⟩])
          ∧ t.entryOf id = some { after with
              next := moved.2, detail := if L.count ≤ moved.2 then 0 else e.detail
              phase := if moved.2 < L.count then .waiting else if moved.1.1.out = [] then .moved else .sending })
      ∧ (L.offence rec128 (s.copyOperands e) = none → L.dir ≠ 4 → moved.1.2 = some (n, .fault va.toNat code) → s.Completes (.copyEntryBegin ⟨id, units⟩) fun t =>
          t.mem = moved.1.1.s.mem ∧ same t ∧ (t.entryOf id).map (·.phase) = some (.faulted n va code))
      ∧ (L.offence rec128 (s.copyOperands e) = none → L.dir = 4 → s.boot.portsUp = false → s.Completes (.copyEntryBegin ⟨id, units⟩) fun t => same t
          ∧ t.entryOf id = some { e2 with status := 7, detail := 0, phase := .moved }))
    ∧ ((s.queueRec e.q).flt = true ∨ (s.queueRec e.q).paused = true → s.Completes (.copyEntryBegin ⟨id, units⟩) fun t => t = s)
    ∧ (e.phase = .moved → s.headOf e = true → s.entryPerformed e = true → e.statp = 0 → e.cond = none → focused e.uid e.hdl → e.lane < 128 → alone →
      s.Completes (.copyEntryComplete id) fun t => t.entryOf id = none ∧ same t
        ∧ token t e.tok e.lane = BitVec.ofNat 32 (e.status * 2 ^ 28 + e.detail % 2 ^ 24)
        ∧ (∀ l < 128, l ≠ e.lane → s.cur.live.getLsbD l = true → token t e.tok l = token s e.tok l)
        ∧ ((∀ z ∈ s.copy.entries, z.id ≠ id → z.ins ≠ e.ins) → ∀ z ∈ t.cur.pends, z.id ≠ e.ins)
        ∧ t.mem = s.mem ∧ (e.bar = none → t.wgs = s.wgs) ∧ (e.bar = some b → counted t fun z => { z with carr := z.carr + 1 }))
    ∧ (e.phase = .moved → s.entryPerformed e = false → s.Completes (.copyEntryComplete id) fun t => t = s)
    ∧ (e.phase = .faulted n va code → (s.queueRec e.q).flt = false → s.Completes (.copyTranslationFault id) fun t =>
        let log := s.logRecord ⟨s.tideOf (e.q / 64), 5, 2, code, 0, 65535, e.q / 4, 0, 0, va, s.taskOf e.uid, e.ctx.toNat, 1, 0⟩
        t.queueRec e.q = { s.queueRec e.q with q := e.q, flt := true, qflt := va } ∧ t.notices = log.notices ∧ t.mem = log.mem
        ∧ t.copy.entries = s.copy.entries)
    ∧ (s.copy.ranks.find? (fun r => r.id == id) = some k → k.result = some xs → e.phase = .sending → e.status = 0 → ready → alone →
      (e.next = k.count → s.Completes (.xredEntryComplete ⟨id, units⟩) fun t =>
        t.entryOf id = some { e with detail := 0, phase := .moved } ∧ same t ∧ t.mem = s.mem)
      ∧ (e.next < k.count → units = 1 → writes off → s.Completes (.xredEntryComplete ⟨id, units⟩) fun t => t.mem = s1.mem ∧ t.cur = s.cur ∧ same t
        ∧ t.entryOf id = some { e with
            next := e.next + 1, time := max e.time off, detail := if e.next + 1 = k.count then 0 else e.detail
            phase := if e.next + 1 = k.count then .moved else .sending }))
    ∧ ((∀ z ∈ s.copy.msgs, z.id ≠ id) → e.status = 0 →
      let sent : List Nat := (s.copy.peers.filter fun z => z.id == id).flatMap fun z => z.writes.map (·.1)
      let at' : Nat := (sent.find? fun i => decide (n ≤ i)).getD (sent.getLast?.getD 0)
      let becomes (i : Instr) (y : CopyEntry) : Prop := s.Completes i fun t => t.entryOf id = some y ∧ same t ∧ t.mem = s.mem
        ∧ ∀ z, z ∈ t.copy.peers ↔ z ∈ s.copy.peers ∧ z.id ≠ id
      ((∃ z ∈ s.copy.peers, z.id = id) → (∀ z ∈ s.copy.ranks, z.id ≠ id) →
        (e.phase = .sending → becomes (.peerAcknowledge id n false) { e with phase := .moved })
        ∧ (e.phase = .waiting ∨ (∃ i a d, e.phase = .faulted i a d) → becomes (.peerAcknowledge id n false) e)
        ∧ (e.phase = .sending ∨ e.phase = .waiting → becomes (.peerAcknowledge id n true) { e with status := 3, detail := at', phase := .moved }
            ∧ becomes (.linkRetryExhausted id n) { e with status := 7, detail := at', phase := .moved })
        ∧ ((∃ i a d, e.phase = .faulted i a d) → becomes (.peerAcknowledge id n true) { e with status := 3, detail := at' }
            ∧ becomes (.linkRetryExhausted id n) { e with status := 7, detail := at' }))
      ∧ (s.copy.ranks.find? (fun r => r.id == id && !r.away.isEmpty) = some k → (∀ z ∈ s.copy.peers, z.id ≠ id) → e.phase = .sending →
        becomes (.peerAcknowledge id n true) { e with status := 3, detail := min n (k.count - 1), phase := .moved }
        ∧ becomes (.linkRetryExhausted id n) { e with status := 7, detail := min n (k.count - 1), phase := .moved })))
  ∧ (qctl true →
    ((s.copy.entries.map (·.id)).Nodup → (∀ z ∈ s.copy.entries, z.q = q → z.acc ≠ 0 → ∀ i, z.kind ≠ .marker i) → s.Completes (.qctlAbort q) fun t =>
      t.copy.entries = s.copy.entries.map (fun z => if z.q = q ∧ z.acc ≠ 0 then
        { z with phase := .moved, status := (s.abortStatus z false).1, detail := (s.abortStatus z false).2 } else z)
      ∧ (t.queueRec q).flt = false ∧ (t.queueRec q).qflt = 0 ∧ t.mem = s.mem ∧ t.cur = s.cur)
    ∧ (s.queued q = [e] → e.kind = .marker n → s.copy.joins.find? (fun y => y.id == n) = some j → focused j.uid j.hdl → s.Completes (.qctlAbort q) fun t =>
      (∀ z ∈ t.copy.joins, z.id ≠ n) ∧ (∀ z, z ∈ t.copy.entries ↔ z ∈ s.copy.entries ∧ z.kind ≠ .marker n)
      ∧ ∀ l < 128, j.act.getLsbD l = true → token t j.tok l = BitVec.ofNat 32 (8 * 2 ^ 28))
    ∧ ((s.queueRec q).flt = true → s.Completes (.qctlResume q) fun t => (t.queueRec q).flt = false ∧ (t.queueRec q).qflt = 0
      ∧ (∀ z ∈ t.copy.entries, z.q = q → ∀ i a c, z.phase ≠ .faulted i a c) ∧ (∀ z, z.q ≠ q → (z ∈ t.copy.entries ↔ z ∈ s.copy.entries))
      ∧ t.mem = s.mem ∧ t.cur = s.cur)
    ∧ ((s.queueRec q).flt = false → s.Completes (.qctlResume q) fun t => t = s)
    ∧ (s.depth q = 0 → s.Completes (.qctlBind q bound ctx) fun t => (t.queueRec q).bound = bound ∧ (t.queueRec q).ctx = ctx
      ∧ (t.queueRec q).paused = (if (s.queueRec q).bound = bound ∧ (s.queueRec q).ctx = ctx then (s.queueRec q).paused else bound && s.queuesPaused ctx)
      ∧ (∀ i, i ≠ q → t.queueRec i = s.queueRec i) ∧ t = { s with copy := { s.copy with queues := t.copy.queues } })
    ∧ (s.depth q ≠ 0 → s.Completes (.qctlBind q bound ctx) fun t => t = s))
  ∧ (qctl false → ∀ i ∈ [Instr.qctlAbort q, .qctlResume q, .qctlBind q bound ctx], s.Completes i fun t => t.copy = s.copy ∧ t.cur = s.cur
      ∧ t.mem = (s.logRecord ⟨s.tideOf 12, 3, 3, 4, 0, 0xFFFF, 0, 0, 0, BitVec.ofNat 64 (0x20000 + 16 * q), 0, 0, 3, 64⟩).mem)
  ∧ (s.copy.joins.find? (fun y => y.id == id) = some j →
      ((∀ z ∈ s.copy.entries, z.q ∈ j.queues → z.acc ≠ 0 → j.upto ≤ z.acc) → focused j.uid j.hdl → s.Completes (.qfenceMarkersLeave id) fun t =>
        (∀ z ∈ t.copy.joins, z.id ≠ id) ∧ (∀ z, z ∈ t.copy.entries ↔ z ∈ s.copy.entries ∧ z.kind ≠ .marker id)
        ∧ ∀ l < 128, j.act.getLsbD l = true → token t j.tok l = 0)
      ∧ ((∃ z ∈ s.copy.entries, z.q ∈ j.queues ∧ z.acc ≠ 0 ∧ z.acc < j.upto) → s.Completes (.qfenceMarkersLeave id) fun t => t = s))
  ∧ (s.msgOf m.q m.seq m.chunk = some m → m.flying = true → m.due.2 ≤ s.tideOf m.due.1 → (∀ y ∈ m.elems, ∀ p ∈ y.pas, s.pchBusy p = false) →
      s.windowOf m.slice m.q = w → w.slice = m.slice → w.q = m.q →
      ((m.seq, m.chunk) ∈ w.stamps ∨ stampLt (m.seq, m.chunk) (w.fseq, w.fchunk) = true → s.Completes (.reductionMessageArrive m.q m.seq m.chunk) fun t =>
        t.mem = s.mem ∧ t.msgOf m.q m.seq m.chunk = some { m with flying := false, ack := true, due := s.dueFrom (if m.slice = 4 then 12 else 8 + m.slice) })
      ∧ ((m.seq, m.chunk) ∉ w.stamps → stampLt (m.seq, m.chunk) (w.fseq, w.fchunk) = false →
        (1024 ≤ w.stamps.length → s.Completes (.reductionMessageArrive m.q m.seq m.chunk) fun t => t = s)
        ∧ (w.stamps.length < 1024 → m.elems = [x] → x.pas = [pa, pa + 1, pa + 2, pa + 3] → (∀ i < 4, s.mem.poisoned (pa + i) 1 = false) → clean →
          s.Completes (.reductionMessageArrive m.q m.seq m.chunk) fun t =>
            readNum t.mem.home pa 4 = (reduceOp m.rop x.fmt m.rnd m.sat m.fzi m.fzo (readNum s.mem.home pa 4) x.x).1 % 2 ^ 32
            ∧ (∀ z, (z < pa ∨ pa + 4 ≤ z) → readByte t.mem.home z = readByte s.mem.home z)
            ∧ t.windowOf m.slice m.q = { w with stamps := w.stamps ++ [(m.seq, m.chunk)] }
            ∧ t.msgOf m.q m.seq m.chunk = some { m with flying := false, ack := true, due := s.dueFrom (if m.slice = 4 then 12 else 8 + m.slice) })))
  ∧ (f ∈ s.copy.floors → f.flying = true → s.Completes (.floorNoticeArrive f.slice f.q f.seq f.chunk) fun t =>
      let w := t.windowOf f.slice f.q
      stampLt (w.fseq, w.fchunk) (f.seq, f.chunk) = false ∧ (∀ y ∈ w.stamps, stampLt y (w.fseq, w.fchunk) = false) ∧ t.mem = s.mem)
  ∧ (s.msgOf m.q m.seq m.chunk = some m → m.ack = true → m.acked = false → m.due.2 ≤ s.tideOf m.due.1 → s.Completes (.reductionAckArrive m.q m.seq m.chunk) fun t =>
      (∀ y ∈ t.copy.msgs, mine y → y.acked = true) ∧ t.mem = s.mem ∧ t.cur = s.cur)
  ∧ ((s.queueRec m.q).paused = false → s.Completes (.reductionResend m.q m.seq m.chunk) fun t =>
      (∀ y ∈ t.copy.msgs, mine y → y.sent = true → y.acked = false → y.flying = true)
      ∧ t = { s with copy := { s.copy with msgs := t.copy.msgs, floors := t.copy.floors } })
  ∧ (use ≠ [] → (s.copy.ranks.map (·.id)).Nodup → (∀ y ∈ use, y.ranks = units ∧ ∀ z, s.entryOf y.id = some z → (s.queueRec z.q).paused = false) →
      (∀ y ∈ use, y.due.2 ≤ s.tideOf y.due.1) → (∀ i < units, ∃ y ∈ use, y.rank = i) → s.Completes (.xredPhase1Complete n q []) fun t => t.mem = s.mem ∧ ∀ y ∈ use, ∀ z ∈ t.copy.ranks, z.id = y.id →
        z = { y with result := some (xredResult y.ranks y.count y.dfmt y.fzo ((List.range units).map fun i => (given i).map fp32.decode) (y.xs.map fp32.decode)).1 })
  ∧ (use.head? = some r0 → (∀ y ∈ use, ∀ z, s.entryOf y.id = some z → (s.queueRec z.q).paused = false) →
      (r0.away ≠ [] → (∃ p ∈ ps, p.ranks ≠ r0.ranks ∨ p.xs.length ≠ r0.count) → s.Completes (.xredPhase1Complete n q ps) fun t => t.mem = s.mem ∧ ∀ y ∈ use,
        (∀ z ∈ s.copy.msgs, z.id ≠ y.id) → (∀ z ∈ s.copy.peers, z.id ≠ y.id) →
          t.entryOf y.id = (s.entryOf y.id).map fun z => { z with status := 9, detail := 0, phase := .moved })
      ∧ ((∀ p ∈ ps, p.ranks = r0.ranks ∧ p.xs.length = r0.count) → (∃ i < r0.ranks, i ∉ r0.away ∧ ∀ y ∈ use, y.rank ≠ i) →
        s.Completes (.xredPhase1Complete n q ps) fun t => t = s))
  ∧ (s.boot.portsUp = true → port < 8 → (∀ i < data.length, s.walkVa ctx (va.toNat + i) = .ok (pa + i) en ∧ s.granted ctx.toNat 1 (pa + i) true = true ∧ s.pchBusy (pa + i) = false) →
      leafWrite en = true → clean → s.Completes (.peerWriteReceive port ctx.toNat va data) fun t =>
        readBytes t.mem.home pa data.length = data ∧ t.mem.spad = s.mem.spad
        ∧ ∀ z, (z < pa ∨ pa + data.length ≤ z) → readByte t.mem.home z = readByte s.mem.home z)
  ∧ (s.boot.portsUp = false → s.Completes (.peerWriteReceive port ctx.toNat va data) fun t => t = s)

/-! ## Events of workgroups, banks, time, contexts and the part -/

/-- R24, R25, R29, R31, R37, R42, R43, R44, R177, R198, R201, R203, R206, R207, R208, R233, R242, R253, R357: the events of warps, workgroups and bank units.
The model's choices in it: notes/assumptions/1.md, 10.md (ACTM is 0 in the record of a fetch that traps), 19.md, 37.md, 49.md, 57.md, 61.md, 64.md and 65.md. -/
def Obligations.WorkgroupAndBankEvents : Prop := ∀ (s : State) (core pos pa id key c : Nat) (w : Warp) (pc e : DWord) (n first count : Nat) (l : Launch)
    (ps : List Nat) (g : Workgroup) (k : BankCard) (off : Nat) (cs vs ds : List Nat) (er : BankError),
  let now := s.tideOf (core / 24)
  let fetched : ILine := ⟨core, w.ctx, pa, readBytes s.mem.home pa 4, false⟩
  let s0 : State := { s with ipc := pc, mem := { s.mem with icache := s.mem.icache.filter fun x => !(x.core == core && x.ctx == w.ctx && x.pa == pa) } }
  let kept (t : State) : Prop := s.mem.icache.length < 16384 → ∀ x, x ∈ t.mem.icache ↔ x = fetched ∨ (x ∈ s.mem.icache ∧ ¬(x.core = core ∧ x.ctx = w.ctx ∧ x.pa = pa))
  let clean : Prop := ∀ y ∈ s.mem.l2, y.dirty = 0
  let j := jobOf k.card
  let nb := j.banks.length
  let vec := k.vec.map fun p => decodeAt s.mem.home j.vfmt p (formatBytes j.vfmt)
  let others (t : State) : Prop := ∀ x, x.id ≠ k.id → (x ∈ t.cards ↔ x ∈ s.cards)
  let free := s.freeSlots s.cur.core s.cur.ctx
  let released : Prop := s.wgOf key = some g ∧ (s.wgs.filter fun x => x.key == key) = [g] ∧ s.wgExited g = true ∧ s.wgBusy g = false ∧ g.hdr.statp = 0
  let runs : Prop := k.phase = .clean ∧ s.runsOn (8 + k.die) k.ctx = true ∧ (∀ x ∈ s.cards, x.acc ≠ 0 → x.acc < k.acc → x.pch = k.pch → x.phase = .done) ∧ clean
    ∧ (∀ p ∈ k.cols, s.mem.poisoned p 32 = false) ∧ ∀ p ∈ k.vec, s.mem.poisoned p (formatBytes j.vfmt) = false
  (s.warpAt core pos = some w → w.splitAt pc ≠ 0 → w.inHandler = false → w.aged (w.splitAt pc) = true → s.Completes (.splitAged core pos pc) fun t =>
      t = { s with turns := .issue core pos pc :: s.turns })
  ∧ (s.warpAt core pos = some w → w.splitAt pc = 0 ∨ w.aged (w.splitAt pc) = false → s.Completes (.splitAged core pos pc) fun t => t = s)
  ∧ (s.warpAt core pos = some s.cur → s.frozen s.cur.uid = false → s.Completes (.sleepWake core pos) fun t => t = { s with cur := t.cur, others := t.others }
      ∧ t.cur.arch.vregs = s.cur.arch.vregs ∧ t.cur.arch.preds = s.cur.arch.preds ∧ t.cur.arch.sets = s.cur.arch.sets
      ∧ (∀ i < 128, t.cur.lane i = match (s.cur.lane i).st with
          | .sleeping u => if u ≤ now then { s.cur.lane i with st := .runnable, wait := 0 } else s.cur.lane i
          | _ => s.cur.lane i)
      ∧ ∀ h, s.cur.arch.handler = some h → t.cur.arch.handler = some (match h.blk with
          | some (.sleep u) => if u ≤ now then { h with blk := none } else h
          | _ => h))
  ∧ (s.warpOf id = some s.cur → (∀ h ∈ s.cur.holds, ∀ n, h.kind = .slots n → s.exhausted h.mask = false) → s.Completes (.slotsFreedInvokeResume id) fun t =>
      t = { s with cur := { s.cur with holds := s.cur.holds.filter fun h => match h.kind with | .slots n => decide (free < n) | _ => true } })
  ∧ (s.warpAt core pos = some w → s.mayIssue w = true →
      (s.xlate core w.ctx pc.toNat = .ok pa e → leafExec e = true → s.grantedAll w.ctx.toNat 0 pa 4 false = true → s.mem.homePoisoned pa 4 = false →
        (w.fetchesAt pc = false → s.Completes (.instructionFetch core pos pc) fun t => t = { s with mem := { s.mem with icache := t.mem.icache, tlb := t.mem.tlb } } ∧ kept t)
        ∧ (w.fetchesAt pc = true → lenOfBytes fetched.bytes = 4 → s.Completes (.instructionFetch core pos pc) fun t =>
          t = { s with cur := t.cur, others := t.others, mem := { s.mem with icache := t.mem.icache, tlb := t.mem.tlb } } ∧ kept t
          ∧ t.warps = s.warps.map fun x => if x.uid = w.uid then { x with fetched := ⟨pc, x.splitAt pc, fetched.bytes⟩ :: x.fetched.filter fun f => f.pc != pc } else x))
      ∧ (s.xlate core w.ctx pc.toNat = .ok pa e → leafExec e = false → w = s.cur → w.fetchesAt pc = true → s.TakesTraps →
        s.Completes (.instructionFetch core pos pc) fun t => s0.EnteredHandler t (s0.split &&& s.cur.live) pc (recordOf 3 1 0 none pc pc pc 3 0 s.myTide))
      ∧ (s.xlate core w.ctx pc.toNat = .ok pa e → leafExec e = true → s.grantedAll w.ctx.toNat 0 pa 4 false = true → s.mem.homePoisoned pa 4 = true → w = s.cur →
        w.fetchesAt pc = true → s.TakesTraps → s.Completes (.instructionFetch core pos pc) fun t =>
          s0.EnteredHandler t (s0.split &&& s.cur.live) pc (recordOf 17 4 0 none pc pc pc 3 0 s.myTide))
      ∧ (s.xlate core w.ctx pc.toNat = .bad n off → n < 256 → off < 256 → w = s.cur → w.fetchesAt pc = true → s.TakesTraps →
        s.Completes (.instructionFetch core pos pc) fun t =>
          State.EnteredHandler { s with ipc := pc } t (s.cur.splitAt pc &&& s.cur.live) pc (recordOf 2 n off none pc pc pc 3 0 s.myTide)))
  ∧ (s.launches.find? (fun x => x.key == key) = some l → l.hdr.clusterSize = 1 → l.ended = false → l.next < l.total → s.runsOn (c / 24) l.ctx = true →
      s.coreEnabled c = true → s.ctl.down.contains (c / 24) = false → l.start ≤ s.tideOf (c / 24) → s.fits c l.hdr l.hdr.warps = some ps →
      s.Completes (.clusterPlace key [c]) fun t =>
        (t.launches.find? fun x => x.key == key) = some { l with next := l.next + 1, left := l.left + 1 }
        ∧ ∃ g, t.wgs = s.wgs ++ [g] ∧ g.core = c ∧ g.launch = some key ∧ g.cluster = l.next ∧ g.hdr = l.hdr ∧ g.arrays = (s.freeArrays c).take l.hdr.arrayCount
          ∧ ∀ i < ps.length, ∃ w ∈ t.warps, w.core = c ∧ w.pos = ps.getD i 0 ∧ w.index = i ∧ w.wg = g.key ∧ w.hdr = l.hdr ∧ w.ctx = l.ctx ∧ w.task = none
            ∧ w.acqUntil = l.acqTime ∧ ∀ x < 128, (w.lane x).pc = l.hdr.entry
              ∧ ((w.lane x).st = .runnable ↔ 128 * i + x < 2 ^ l.hdr.sumWidth 0 l.hdr.wgcut) ∧ ((w.lane x).st ≠ .runnable → (w.lane x).st = .exited))
  ∧ (released → g.members = [key] → s.Completes (.workgroupRelease key) fun t => (∀ x, x ∈ t.wgs ↔ x ∈ s.wgs ∧ x.key ≠ key)
        ∧ (∀ x, x ∈ t.arrays ↔ x ∈ s.arrays ∧ ¬(x.core = g.core ∧ x.phys ∈ g.arrays)) ∧ t.mem = s.mem ∧ t.cur = s.cur
        ∧ ∀ y, g.launch = some y → s.launches.find? (fun x => x.key == y) = some l → (t.launches.find? fun x => x.key == y).map (·.left) = some (l.left - 1))
  ∧ (released → g.left = false → (∃ x ∈ s.wgs, x.key ∈ g.members ∧ x.key ≠ key ∧ x.left = false) → s.Completes (.workgroupRelease key) fun t =>
      t.wgs = s.wgs.map (fun x => if x.key = key then { x with left := true, stats := [] } else x)
      ∧ t.arrays = s.arrays.map (fun x => if x.core = g.core ∧ x.phys ∈ g.arrays then { x with mode := 0, poisoned := false } else x)
      ∧ t.mem = s.mem ∧ t.cur = s.cur)
  ∧ (s.wgOf key = some g → s.wgExited g = false → s.Completes (.workgroupRelease key) fun t => t = s)
  ∧ (s.launches.find? (fun x => x.key == key) = some l →
      (l.total ≤ l.next → l.left = 0 → l.statTime ≤ s.tideOf 12 → s.Completes (.launchComplete key) fun t =>
        (∀ x, x ∈ t.launches ↔ x ∈ s.launches ∧ x.key ≠ key) ∧ t.ctl.tt = s.ctl.tt.map fun y => if y.launch = some key then
          { y with launch := none, last := if l.ended = false ∧ (y.last = 1 ∨ y.last = 6) then 2 else y.last } else y)
      ∧ (l.next < l.total ∨ l.left ≠ 0 ∨ s.tideOf 12 < l.statTime → s.Completes (.launchComplete key) fun t => t = s))
  ∧ (s.cardOf k.id = some k →
      (k.acc = 0 → k.time ≤ s.tideOf (k.core / 24) → (∃ y, s.warpOf k.uid = some y ∧ y.hasExited = false) →
        ((s.cards.filter fun x => x.acc != 0 && x.die == k.die).length < 256 →
          (∀ x ∈ s.cards, x.acc = 0 → x.id < k.id → x.ins ≠ k.ins ∧ ¬(x.uid = k.uid ∧ x.pch = k.pch)) → s.Completes (.bankCardAccept k.id) fun t =>
            t.cardOf k.id = some { k with acc := s.nextId } ∧ others t ∧ t = { s with cards := t.cards, nextId := s.nextId + 1 })
        ∧ (256 ≤ (s.cards.filter fun x => x.acc != 0 && x.die == k.die).length → s.Completes (.bankCardAccept k.id) fun t => t = s))
      ∧ (k.acc = 0 → (∃ y, s.warpOf k.uid = some y ∧ y.hasExited = true) → s.Completes (.bankCardAccept k.id) fun t =>
          t = { s with cards := s.cards.filter fun x => x.id != k.id })
      ∧ (k.acc ≠ 0 → k.phase = .queued → s.runsOn (8 + k.die) k.ctx = true → (∀ x ∈ s.cards, x.acc ≠ 0 → x.acc < k.acc → x.pch = k.pch → x.phase ≠ .queued) →
        (jobOffence k.card = some off → s.Completes (.bankCardClean k.id) fun t => t.cardOf k.id = some { k with phase := .done, status := 1, detail := off }
            ∧ others t ∧ t.mem = s.mem)
        ∧ (jobOffence k.card = none → s.cleanPlaces k.ctx j = .error (c, n, none) → s.Completes (.bankCardClean k.id) fun t =>
            t.cardOf k.id = some { k with phase := .done, status := n, detail := c * 2 ^ 12 + c } ∧ others t ∧ t.mem = s.mem)
        ∧ (jobOffence k.card = none → s.cleanPlaces k.ctx j = .ok (cs, vs, ds) → s.Completes (.bankCardClean k.id) fun t =>
            t.cardOf k.id = some { k with phase := .clean, cols := cs, vec := vs, dst := ds } ∧ others t ∧ (clean → t.mem.home = s.mem.home)
            ∧ ∀ p ∈ cs, ∀ y ∈ t.mem.l2, y.sec / 4 = lineOf p → y.dirty = 0))
      ∧ (runs → nb * j.groups ≤ count → s.Completes (.bankCardRun k.id ⟨[], 0, count⟩) fun t =>
          (t.cardOf k.id).map (fun x => (x.phase, x.status, x.detail, x.out)) = some (.done, k.status, k.detail, []) ∧ others t
          ∧ ∀ i < nb, ∀ r < j.groups, (∀ i' < nb, ∀ r' < j.groups, (i, r) ≠ (i', r') →
              k.dst.getD (i' * j.groups + r') 0 + 4 ≤ k.dst.getD (i * j.groups + r) 0 ∨ k.dst.getD (i * j.groups + r) 0 + 4 ≤ k.dst.getD (i' * j.groups + r') 0) →
              readNum t.mem.home (k.dst.getD (i * j.groups + r) 0) 4 = s.partial' k j vec i r % 2 ^ 32)
      ∧ (runs → er.command = 4094 → er.rank < nb → s.Completes (.bankCardRun k.id ⟨[er], first, count⟩) fun t =>
          (t.cardOf k.id).map (fun x => (x.status, x.detail)) = some (6, 4094 * 2 ^ 12 + 4094) ∧ others t)
      ∧ (k.phase = .run → k.out = [(n, pa, off)] → first ≤ n → n < first + count → clean → s.Completes (.bankCardRun k.id ⟨[], first, count⟩) fun t =>
          (t.cardOf k.id).map (fun x => (x.phase, x.status, x.detail, x.out)) = some (.done, k.status, k.detail, []) ∧ others t
          ∧ readNum t.mem.home pa 4 = off % 2 ^ 32 ∧ ∀ z, (z < pa ∨ pa + 4 ≤ z) → readByte t.mem.home z = readByte s.mem.home z)
      ∧ (k.phase = .done → k.time ≤ s.tideOf (8 + k.die) → k.time + 8 ≤ s.tideOf (k.core / 24) → k.uid = s.cur.uid → s.frozen k.uid = false → s.cur.hasExited = false →
        k.hdl = false → k.lane < 128 → s.Completes (.bankCardDone k.id) fun t => t.cardOf k.id = none ∧ others t ∧ t.mem = s.mem
          ∧ (t.cur.arch.vregs.getD k.tok.toNat (.u 0)).lane k.lane = BitVec.ofNat 32 (k.status * 2 ^ 28 + k.detail % 2 ^ 24)
          ∧ ∀ l < 128, l ≠ k.lane → s.cur.live.getLsbD l = true →
              (t.cur.arch.vregs.getD k.tok.toNat (.u 0)).lane l = (s.cur.arch.vregs.getD k.tok.toNat (.u 0)).lane l)
      ∧ (k.acc = 0 → s.tideOf (k.core / 24) < k.time → (∃ y, s.warpOf k.uid = some y ∧ y.hasExited = false) → s.Completes (.bankCardAccept k.id) fun t => t = s)
      ∧ (k.phase ≠ .done ∨ s.tideOf (8 + k.die) < k.time ∨ s.tideOf (k.core / 24) < k.time + 8 → s.Completes (.bankCardDone k.id) fun t => t = s))

/-- R24, R210 to R212, R215 to R218, R223: Tidemark discipline and the timetable. While EN is 1, a sync exchange at the port, in the domain and by the mechanism TMCTL
names gives an offset: it sets OFFS and LOCK and, once after reset, steps every copy forward, with the armed entries it passes firing once. A write disables an entry; TTCTL
arms it. An entry fires when it is due and none is due before it: a launch firing opens its slot and its launch is submitted or refused, held, skipped, or takes the place of
the one that runs, whose warps go on each die as it reaches the action's time; a gang switch or a stop begins, waits for a switch in progress, or is judged by OVR while the running context's slot has not ended. A write that the
access table refuses Estuary is logged.
The model's choices in it: notes/assumptions/1.md, 5.md and 44.md (the writes of these registers are Estuary's, of class 3 in context 0, and so is the record of a refusal),
38.md, 39.md, 40.md, 67.md and 68.md. -/
def Obligations.TimeAndTimetableEvents : Prop := ∀ (s : State) (v : Word) (link : PtpLink) (ns n w c r T : Nat) (ws : List Nat) (s1 : State) (pa : Nat) (en : DWord)
    (rest : List (Nat × Nat)),
  let tm := s.ctl.tm
  let e := s.ttOf n
  let now := s.tideOf 12
  let only (t : State) : Prop := t = { s with ctl := { s.ctl with tm := t.ctl.tm } }
  let others (t : State) : Prop := ∀ i, i ≠ n → t.ttOf i = s.ttOf i
  let entry (t : State) : Prop := others t ∧ t = { s with ctl := { s.ctl with tt := t.ctl.tt } }
  let estuary (off : Nat) : Prop := s.mgmtGranted 3 off 4 true = true
  let refused (off : Nat) (i : Instr) : Prop := s.mgmtGranted 3 off 4 true = false → s.Completes i fun t =>
    t = s.logRecord ⟨now, 3, 3, 4, 0, 0xFFFF, 0, 0, 0, BitVec.ofNat 64 off, 0, 0, 3, 64⟩
  let off (x : TtEntry) : TtEntry := { x with ctl := x.ctl &&& 0x7FFFFFFF, staged := false }
  let due : Prop := s.ttDue n = true
  let known : Prop := e.known + 1600 ≤ e.nextT
  let fired : TtEntry := { e with
    nfire := (e.nfire + 1) % 2 ^ 16, known := e.nextT, staged := false
    ctl := if e.period = 0 then e.ctl &&& 0x7FFFFFFF else e.ctl
    nextT := if e.period = 0 then e.nextT else e.start.toNat + e.period.toNat * ((e.nextT - e.start.toNat) / e.period.toNat + 1) }
  let state (i : Nat) : CtxState := (s.ctxOf i).state
  let slot := if state e.cx = .running then max s.ctl.slotEnd (e.nextT + e.slot.toNat) else s.ctl.slotEnd
  let slotted (t : State) : Prop := others t ∧ t = { s with ctl := { s.ctl with tt := t.ctl.tt, slotEnd := slot } }
  let s0 : State := ({ s with ctl := { s.ctl with slotEnd := slot } } : State).putTt fired
  let bytes := ws.flatMap (bytesLE 8)
  let h := headerOf bytes
  let accepts : Prop := (state e.cx = .ready ∨ state e.cx = .running) ∧ e.lh.toNat % 128 = 0
  let reads (b : State) : Prop := b.walkVa (BitVec.ofNat 3 e.cx) e.lh.toNat = .ok pa en ∧ b.partWords (BitVec.ofNat 3 e.cx) e.lh.toNat 16 = (some ws, s1)
  let valid : Prop := reservedZero bytes = true ∧ h.valid e.cx = true
  let launched (b t : State) (x : TtEntry) (start : Nat → Prop) : Prop := others t ∧ t.ttOf n = { x with launch := some s.nextId }
    ∧ ∃ l, t.launches = b.launches ++ [l] ∧ l.key = s.nextId ∧ l.hdr = h ∧ l.ctx = BitVec.ofNat 3 e.cx ∧ l.next = 0 ∧ l.total = h.clusters ∧ l.left = 0
      ∧ l.entry = some n ∧ start l.start ∧ l.acqTime = max now (b.headerStamp pa) ∧ l.ended = false
  let actsAt := if known then max e.nextT now else now
  let begins := if known then e.nextT else min now (e.nextT + 800)
  let idle (at' : Nat) : Prop := s.ctl.switch = none ∧ (s.running = none ∨ s.ctl.slotEnd ≤ at')
  let busy (at' : Nat) : Prop := s.ctl.switch = none ∧ s.running ≠ none ∧ at' < s.ctl.slotEnd
  let acts (at' : Nat) : Prop := idle at' ∨ (s.ctl.switch = none ∧ e.ovr = 2)
  let switching (t : State) (lv ent : Option Nat) : Prop :=
    ∃ x, t.ctl.switch = some x ∧ x.leaving = lv ∧ x.entering = ent ∧ x.entry = some n ∧ x.teardown = false ∧ x.stopped = []
      ∧ x.phase = (if lv.isSome then .stopping else .restoring)
      ∧ (∀ y ∈ t.ctl.ctxs, (lv = some y.n ∨ ent = some y.n) → y.state = .switching)
  (refused 0x41000 (.tmctlWrite v)) ∧ (n < 128 → refused (0x40000 + 32 * n + 24) (.ttctlArm n v))
  ∧ (n < 128 → w < 8 → refused (0x40000 + 32 * n + 4 * w) (.timetableEntryWrite n w v))
  ∧ (estuary 0x41000 → s.Completes (.tmctlWrite v) fun t => only t ∧ t.ctl.tm = (if v.getLsbD 31 then { tm with tmctl := v &&& 0xFFF80000 }
      else { tm with tmctl := v &&& 0xFFF80000, lock := false, hold := false, good := 0 }))
  ∧ (let listens := tm.tmctl.getLsbD 31 = true ∧ s.boot.portsUp = true ∧ link.port = tm.tmctl.toNat / 2 ^ 28 % 8 ∧ link.domain = tm.tmctl.toNat / 2 ^ 20 % 256
        ∧ link.pdly = tm.tmctl.getLsbD 19
      let steps := tm.seen = false ∧ now < ns * 4 / 5
      let fifth : Int := 5 * (now : Int) - 4 * (ns : Int)
      (listens → s.Completes (.ptpMessageReceive link ns) fun t =>
        (¬steps → only t) ∧ (steps → t.tide = s.tide.map (max (ns * 4 / 5)) ∧ t = { s with tide := t.tide, ctl := { s.ctl with tm := t.ctl.tm, tt := t.ctl.tt } }
          ∧ t.ctl.tt.length = s.ctl.tt.length ∧ ∀ (i : Nat) (x : TtEntry), s.ctl.tt[i]? = some x → ∃ y, t.ctl.tt[i]? = some y ∧
            (x.ctl.getLsbD 31 = false ∨ ns * 4 / 5 < x.nextT → y = x)
            ∧ (x.ctl.getLsbD 31 = true → x.nextT ≤ ns * 4 / 5 → y = { x with nextT := ns * 4 / 5, nskip := y.nskip }
              ∧ y.nskip = min 255 (x.nskip + (x.before (ns * 4 / 5 + 1) - x.before x.nextT - 1))))
        ∧ (∀ i < 13, s.tideOf i ≤ t.tideOf i ∨ s.tide.length ≤ i)
        ∧ t.ctl.tm.seen = true ∧ t.ctl.tm.hold = false ∧ t.ctl.tm.tmctl = tm.tmctl ∧ t.ctl.tm.offs = max (-(2 ^ 23)) (min (2 ^ 23 - 1) (fifth / 4))
        ∧ (t.ctl.tm.lock = true ↔ -160 ≤ fifth ∧ fifth ≤ 160 ∧ (tm.lock = true ∨ 16 ≤ tm.good + 1)))
      ∧ (¬listens → s.Completes (.ptpMessageReceive link ns) fun t => t = s))
  ∧ (tm.tmctl.getLsbD 31 = true → tm.seen = true → tm.lastSync + 1600000000 ≤ now → s.Completes .hold fun t => only t ∧ t.ctl.tm = { tm with hold := true })
  ∧ (n < 128 →
      (w < 8 → w ≠ 6 → estuary (0x40000 + 32 * n + 4 * w) → s.Completes (.timetableEntryWrite n w v) fun t => entry t ∧ t.ttOf n = (match w with
        | 0 => { off e with start := pairOf v (hiWord e.start) }
        | 1 => { off e with start := pairOf (loWord e.start) v }
        | 2 => { off e with period := v }
        | 3 => { off e with slot := v }
        | 4 => { off e with lh := pairOf v (hiWord e.lh) }
        | 5 => { off e with lh := pairOf (loWord e.lh) v }
        | _ => off e))
      ∧ (estuary (0x40000 + 32 * n + 24) → ∀ i ∈ [Instr.ttctlArm n v, .timetableEntryWrite n 6 v], s.Completes i fun t => entry t
        ∧ (v.getLsbD 31 = false → t.ttOf n = { off e with ctl := v &&& 0xFF000000 })
        ∧ (v.getLsbD 31 = true → (v >>> 29).setWidth 2 = (3 : BitVec 2) ∨ (v >>> 27).setWidth 2 = (3 : BitVec 2) →
            (t.ttOf n).last = 3 ∧ (t.ttOf n).ctl.getLsbD 31 = false)
        ∧ (v.getLsbD 31 = true → (v >>> 29).setWidth 2 ≠ (3 : BitVec 2) → (v >>> 27).setWidth 2 ≠ (3 : BitVec 2) →
            t.ttOf n = { off e with ctl := v &&& 0xFF000000, nskip := 0, nfire := 0, nextT := max now e.start.toNat, known := now })))
  ∧ (¬due → ∀ i ∈ [Instr.timetableLaunchFiring n, .timetableGangSwitchFiring n, .timetableStopFiring n], s.Completes i fun t => t = s)
  ∧ (due → e.act = 0 → (e.launch = none ∧ e.held = none) ∨ (e.launch = some r ∧ e.ovr = 2) →
      let b := if e.launch = none then s0 else s0.endLaunch r begins
      (e.launch = some r → (∀ x ∈ b.launches, x.key = r → x.ended = true ∧ x.next = x.total ∧ x.stop = begins)
        ∧ (∀ x ∈ s.launches, x.key = r → ∀ g ∈ s.wgs, g.launch = some r → begins ≤ s.tideOf (g.core / 24) → ∀ y ∈ b.warps, y.uid ≠ 0 → y.wg = g.key → y.hasExited = true)
        ∧ ((∀ x ∈ s.launches, x.ended = false) → s.ctl.saved = [] → (∀ g ∈ s.wgs, g.launch = some r → s.tideOf (g.core / 24) < begins) → b.warps = s.warps))
      ∧ (accepts → reads b → valid → s.Completes (.timetableLaunchFiring n) fun t =>
        launched b t { fired with last := if e.launch = none then 1 else 6 } (fun x => x = begins))
      ∧ (¬accepts ∨ (reads b ∧ ¬valid) → s.Completes (.timetableLaunchFiring n) fun t =>
        others t ∧ t.ttOf n = { fired with last := 3, launch := none } ∧ t.launches = b.launches))
  ∧ (due → e.act = 0 → e.launch = some r → e.ovr = 0 → e.held = none → s.Completes (.timetableLaunchFiring n) fun t =>
      slotted t ∧ t.ttOf n = { fired with held := some e.nextT, last := 5 })
  ∧ (due → e.act = 0 → e.launch = some r → e.ovr = 1 ∨ (e.ovr = 0 ∧ e.held ≠ none) → s.Completes (.timetableLaunchFiring n) fun t =>
      slotted t ∧ t.ttOf n = { fired with nskip := min 255 (e.nskip + 1), last := 4 })
  ∧ (due → e.act = 1 → e.cx = c → s.running ≠ some c → state c = .ready → acts actsAt → s.Completes (.timetableGangSwitchFiring n) fun t =>
      switching t s.running (some c) ∧ (t.ctl.switch.any fun x => x.start == begins) = true
      ∧ t.ctl.slotEnd = e.nextT + e.slot.toNat ∧ t.ttOf n = { fired with last := 1 })
  ∧ (due → e.act = 1 → e.cx = c → s.running = some c → acts actsAt → s.Completes (.timetableGangSwitchFiring n) fun t =>
      others t ∧ t.ttOf n = { fired with last := 2 } ∧ t = { s with ctl := { s.ctl with tt := t.ctl.tt, slotEnd := e.nextT + e.slot.toNat } })
  ∧ (due → e.act = 1 → s.running ≠ some e.cx → state e.cx ≠ .ready → acts actsAt → s.Completes (.timetableGangSwitchFiring n) fun t =>
      entry t ∧ t.ttOf n = { fired with last := 3 })
  ∧ (due → e.act = 2 → e.cx = c → s.running = some c → acts actsAt → s.Completes (.timetableStopFiring n) fun t =>
      switching t (some c) none ∧ t.ctl.slotEnd = s.ctl.slotEnd ∧ t.ttOf n = { fired with last := 1 })
  ∧ (due → e.act = 2 → s.running ≠ some e.cx → acts actsAt → s.Completes (.timetableStopFiring n) fun t =>
      entry t ∧ t.ttOf n = { fired with last := if state e.cx = .ready then 2 else 3 })
  ∧ (due → ∀ i ∈ [(1, Instr.timetableGangSwitchFiring n), (2, .timetableStopFiring n)], e.act = i.1 →
      (busy actsAt → e.ovr = 0 → e.held = none → s.Completes i.2 fun t => entry t ∧ t.ttOf n = { fired with held := some e.nextT, last := 5 })
      ∧ (busy actsAt → e.ovr = 1 ∨ (e.ovr = 0 ∧ e.held ≠ none) → s.Completes i.2 fun t => entry t ∧ t.ttOf n = { fired with nskip := min 255 (e.nskip + 1), last := 4 })
      ∧ (s.ctl.switch ≠ none → s.Completes i.2 fun t => others t ∧ t.ttOf n = fired
          ∧ t = { s with ctl := { s.ctl with tt := t.ctl.tt, waiting := s.ctl.waiting ++ [(n, e.nextT)] } }))
  ∧ (s.ctl.waiting = (n, T) :: rest → acts now → s.running ≠ some e.cx →
      (e.act = 1 → state e.cx = .ready → s.Completes (.deferredFiringAct n) fun t =>
        switching t s.running (some e.cx) ∧ t.ctl.slotEnd = T + e.slot.toNat ∧ t.ttOf n = { e with last := 1 } ∧ t.ctl.waiting = rest)
      ∧ (e.act = 2 → s.Completes (.deferredFiringAct n) fun t =>
        others t ∧ t.ttOf n = { e with last := if state e.cx = .ready then 2 else 3 } ∧ t = { s with ctl := { s.ctl with tt := t.ctl.tt, waiting := rest } }))
  ∧ ((∀ z ∈ s.ctl.waiting.head?, z.1 ≠ n) → e.held = some T → e.last ≠ 4 →
      (e.act = 2 → s.running ≠ some e.cx → idle now → s.Completes (.deferredFiringAct n) fun t =>
        entry t ∧ t.ttOf n = { e with held := none, last := if state e.cx = .ready then 2 else 3 })
      ∧ (e.act = 0 → e.launch = none → accepts → reads (s.putTt { e with held := none }) → valid → s.Completes (.deferredFiringAct n) fun t =>
        launched s t { e with held := none, last := 1 } (fun x => x = now)))
  ∧ (e.ctl.getLsbD 31 = true → e.act = 1 → e.known + 40000 ≤ e.nextT → e.nextT ≤ now + 40000 → s.boot.gsw >>> 16 ≠ 0 →
      s.Completes (.stagingStart n) fun t => entry t ∧ t.ttOf n = { e with staged := true })

/-- R164, R213, R214, R219 to R222, R240, R253: contexts and gang switching. A warp stops once its die has begun the switch and no unheld lane is Runnable, all stop at the
deadline, a queue pauses at a message boundary, and a drained context is saved, leaves the cores and is READY. The incoming one comes back to its cores and positions and is
RUNNING, or is FAILED when its descriptor is bad or an area is rejected; both wait until every die has begun the switch. An activation reads the descriptor and pauses the context's queues; a teardown leaves the context EMPTY with nothing of it, a
RUNNING one first being stopped; and a CTXD write that the access table refuses Estuary is logged.
The model's choices in it: notes/assumptions/1.md, 5.md and 44.md (the CTXD writes are Estuary's, of class 3 in context 0, and so is the record of a refusal), 27.md, 41.md
and 42.md. -/
def Obligations.ContextEvents : Prop := ∀ (s : State) (core pos c q n : Nat) (w : Warp) (x : Switch) (v : DWord) (d : List DWord) (k : Context) (z : SavedCtx),
  let leaves : Prop := s.ctl.switch = some x ∧ x.phase = .stopping ∧ x.leaving = some c
  let stoppingFrom : Prop := leaves ∧ x.teardown = false
  let onlySwitch (t : State) : Prop := t = { s with ctl := { s.ctl with switch := t.ctl.switch } }
  let clean : Prop := ∀ y ∈ s.mem.l2, y.dirty = 0
  let at' (a : DWord) : Nat := (a >>> 7).toNat % 2 ^ 45 * 128
  let last (t : State) (n : Nat) (old new : Nat) : Prop := (s.ttOf n).last = old → (t.ttOf n).last = new
  let refused (off bytes : Nat) (i : Instr) : Prop := s.mgmtGranted 3 off bytes true = false → s.Completes i fun t =>
    t = s.logRecord ⟨s.tideOf 12, 3, 3, 4, 0, 0xFFFF, 0, 0, 0, BitVec.ofNat 64 off, 0, 0, 3, 64⟩
  let cleared (t : State) : Prop := (∀ y ∈ t.ctl.ctxs, y.n = c → y.state = .empty ∧ y.ctxd.getLsbD 63 = false)
    ∧ (∀ y ∈ t.warps, y.uid ≠ 0 → y.ctx.toNat ≠ c) ∧ (∀ y ∈ t.wgs, y.ctx.toNat ≠ c) ∧ (∀ y ∈ t.reqs, y.ctx ≠ BitVec.ofNat 3 c) ∧ (∀ y ∈ t.cards, y.ctx ≠ BitVec.ofNat 3 c)
    ∧ (∀ y ∈ t.tasks.slots, y.ctx = BitVec.ofNat 3 c → y.state = .free) ∧ (∀ y ∈ t.tasks.ready, y.ctx ≠ BitVec.ofNat 3 c)
    ∧ (∀ y ∈ t.launches, y.ctx ≠ BitVec.ofNat 3 c)
    ∧ (∀ l ∈ s.launches, l.ctx = BitVec.ofNat 3 c → (s.ttOf n).launch = some l.key → (t.ttOf n).last = 6 ∧ (t.ttOf n).launch = none)
    ∧ (∀ y ∈ t.mem.tlb, y.ctx ≠ BitVec.ofNat 3 c) ∧ ∀ y ∈ t.ctl.saved, y.ctx ≠ c
  let drains : Prop := (∀ r ∈ s.reqs, r.ctx.toNat = c → r.survives = true → r.open = false)
    ∧ (∀ a ∈ s.ctxArrays c, a.axms = []) ∧ (∀ k ∈ s.cards, k.ctx.toNat = c → k.phase ≠ .run ∧ k.phase ≠ .done) ∧ ∀ q ∈ s.ctxQueues c, (s.queueRec q).paused = true
  let rejected (base : Nat) (w : Warp) : Prop := (w.hasExited = false ∨ w.inHandler = true)
    ∧ areaRejected (fun off n => readNum s.mem.home (base + 0x400000 * w.core + 0x80000 + 0x9000 * w.pos + off) n) w.hdr.gmax = true
  (stoppingFrom → s.warpAt core pos = some w → w.ctx.toNat = c → s.frozen w.uid = false → w.hasExited = false ∨ w.inHandler = true →
      (x.start ≤ s.tideOf (core / 24) → s.stops w = true → s.Completes (.warpStop core pos) fun t =>
        onlySwitch t ∧ t.ctl.switch = some { x with stopped := x.stopped ++ [w.uid] } ∧ t.frozen w.uid = true)
      ∧ (s.tideOf (core / 24) < x.start ∨ s.stops w = false → s.Completes (.warpStop core pos) fun t => t = s))
  ∧ (stoppingFrom → s.Completes .switchStopDeadline fun t => onlySwitch t ∧ t.ctl.switch = some { x with
      stopped := x.stopped ++ (((s.ctxWarps c).filter fun y => decide (x.start + 16000 ≤ s.tideOf (y.core / 24)) && !s.frozen y.uid).map (·.uid)) })
  ∧ (leaves → x.teardown = true ∨ x.start ≤ s.tideOf (q / 64) → (s.queueRec q).bound = true → (s.queueRec q).ctx.toNat = c → (s.queueRec q).paused = false →
      ((∀ e ∈ s.queued q, s.atBoundary e = true) → s.Completes (.queuePause q) fun t =>
        t.queueRec q = { s.queueRec q with paused := true }
        ∧ t.copy.msgs = s.copy.msgs.map (fun m => if m.q = q ∧ m.acked = false then { m with sent := false, flying := false, ack := false } else m)
        ∧ t = { s with copy := { s.copy with queues := t.copy.queues, msgs := t.copy.msgs } })
      ∧ ((∃ e ∈ s.queued q, s.atBoundary e = false) → s.Completes (.queuePause q) fun t => t = s))
  ∧ (stoppingFrom → s.drained c = true → s.allBegun = true → s.Completes .switchSaveComplete fun t =>
      t.cards = s.cards.map (fun k => if k.ctx.toNat = c ∧ k.phase = .clean then { k with phase := .queued } else k) ∧
      (∀ y ∈ t.ctl.ctxs, y.n = c → y.state = .ready) ∧ (∀ y ∈ t.warps, y.uid ≠ 0 → y.ctx.toNat ≠ c) ∧ (∀ g ∈ t.wgs, g.ctx.toNat ≠ c)
      ∧ (∃ z ∈ t.ctl.saved, z.ctx = c ∧ (∀ y ∈ s.warps, y.uid ≠ 0 → y.ctx.toNat = c → ∃ y' ∈ z.warps, y'.uid = y.uid ∧ y'.arch = y.arch)
        ∧ ∀ y ∈ s.copy.windows, y.q ∈ s.ctxQueues c → y ∈ z.windows ∧ y ∉ t.copy.windows)
      ∧ (x.entering = none → t.ctl.switch = none ∧ (x.entry = some n → last t n 1 2))
      ∧ (x.entering ≠ none → t.ctl.switch = some { x with phase := .restoring, leaving := none, stopped := [], tables := [] }))
  ∧ (stoppingFrom → s.drained c = false ∨ (∃ i < s.tide.length, s.tideOf i < x.start) → s.Completes .switchSaveComplete fun t => t = s)
  ∧ (s.ctl.switch = some x → x.phase = .restoring → (∃ i < s.tide.length, s.tideOf i < x.start) → s.Completes .switchIn fun t => t = s)
  ∧ (s.ctl.switch = some x → x.phase = .restoring → x.entering = some c → s.allBegun = true → clean → getKey Context.n c s.ctl.ctxs = some k →
      (descriptorOf (readBytes s.mem.home (at' k.ctxd) 128) = none → s.Completes .switchIn fun t =>
        (getKey Context.n c t.ctl.ctxs).map (fun y => (y.state, y.err)) = some (.failed, 1) ∧ t.ctl.switch = none ∧ t.notices = s.notices + 1
        ∧ (x.entry = some n → last t n 1 7))
      ∧ (descriptorOf (readBytes s.mem.home (at' k.ctxd) 128) = some d →
        ((s.ctl.saved.find? fun y => y.ctx == c) = some z → (∃ y ∈ z.warps, rejected (d.getD 5 0).toNat y) → s.Completes .switchIn fun t =>
          (getKey Context.n c t.ctl.ctxs).map (fun y => (y.state, y.err)) = some (.failed, 2) ∧ t.ctl.switch = none ∧ t.notices = s.notices + 1
          ∧ t.warps = s.warps ∧ t.wgs = s.wgs ∧ t.arrays = s.arrays ∧ (x.entry = some n → last t n 1 7))
        ∧ (((∀ y ∈ s.ctl.saved, y.ctx ≠ c) ∧ z = ⟨c, [], [], [], [], []⟩) ∨ (s.ctl.saved.find? fun y => y.ctx == c) = some z →
          (∀ y ∈ z.warps, ¬rejected (d.getD 5 0).toNat y) → s.Completes .switchIn fun t =>
          (getKey Context.n c t.ctl.ctxs).map (fun y => (y.state, y.desc)) = some (.running, d) ∧ t.ctl.switch = none
          ∧ (∀ y ∈ t.mem.icache, y.ctx.toNat ≠ c) ∧ (∀ q ∈ s.ctxQueues c, (t.queueRec q).paused = false) ∧ (x.entry = some n → last t n 1 2)
          ∧ (s.reqs = [] → s.ctl.heldWrites = [] → t.wgs = s.wgs ++ z.wgs ∧ t.copy.windows = s.copy.windows ++ z.windows
            ∧ (∀ y ∈ z.warps, y.uid ≠ 0 → ∃ y' ∈ t.warps, y'.uid = y.uid ∧ y'.core = y.core ∧ y'.pos = y.pos ∧ y'.wg = y.wg)
            ∧ ∀ a ∈ z.arrays, ∃ a' ∈ t.arrays, a'.core = a.core ∧ a'.phys = a.phys ∧ a'.mode = (if a.mode = 1 then 2 else a.mode) ∧ a'.flips = []))))
  ∧ (c < 8 → refused (0x41100 + 8 * c) 8 (.ctxdActivate c v) ∧ refused (0x41104 + 8 * c) 4 (.ctxdTeardown c))
  ∧ (c < 8 → s.mgmtGranted 3 (0x41100 + 8 * c) 8 true = true → getKey Context.n c s.ctl.ctxs = some k →
      (k.state = .empty → v.getLsbD 63 = true → clean → s.Completes (.ctxdActivate c v) fun t =>
        t.ctl.switch = s.ctl.switch ∧ t.cur = s.cur
        ∧ (descriptorOf (readBytes s.mem.home (at' v) 128) = some d → getKey Context.n c t.ctl.ctxs =
            some { k with ctxd := v &&& 0x800FFFFFFFFFFF80, state := .ready, err := 0, desc := d } ∧ ∀ q ∈ s.ctxQueues c, (t.queueRec q).paused = true)
        ∧ (descriptorOf (readBytes s.mem.home (at' v) 128) = none → getKey Context.n c t.ctl.ctxs = some { k with ctxd := v &&& 0x000FFFFFFFFFFF80, err := 1 }))
      ∧ (k.state ≠ .empty ∨ v.getLsbD 63 = false → s.Completes (.ctxdActivate c v) fun t => t = s))
  ∧ (c < 8 → s.mgmtGranted 3 (0x41104 + 8 * c) 4 true = true → getKey Context.n c s.ctl.ctxs = some k →
      (k.state = .ready ∨ k.state = .failed → s.Completes (.ctxdTeardown c) cleared)
      ∧ (k.state = .running → s.Completes (.ctxdTeardown c) fun t => (∀ y ∈ t.ctl.ctxs, y.n = c → y.state = .switching)
        ∧ (t.ctl.switch.map fun y => (y.teardown, y.leaving)) = some (true, some c) ∧ t.mem = s.mem ∧ ∀ y ∈ s.warps, y.uid ≠ 0 → y.ctx.toNat = c → t.frozen y.uid = true)
      ∧ (k.state = .empty ∨ k.state = .switching → s.Completes (.ctxdTeardown c) fun t => t = s))
  ∧ (c < 8 → s.ctl.switch = some x → x.teardown = true → x.leaving = some c →
      (drains → s.Completes (.contextStopDone c) cleared) ∧ (¬drains → s.Completes (.contextStopDone c) fun t => t = s))

/-- R17, R97, R127, R148, R178, R190, R212, R238, R266, R268, R271 to R274: resets, power, start-up, attestation, the host, registers and soft errors. A write that its
access table refuses is logged in the log of context 0; a host write completes once its `.dev` time has passed; host accesses wait while their pseudo-channel is in the RUN of an all-bank card; a single bit struck in an array
in compute mode changes what its `AXM`s read, and no other read; a die reset that finds a gang switch in progress waits for it.
The model's choices in it: notes/assumptions/1.md, 5.md, 6.md, 12.md, 43.md, 44.md, 45.md and 46.md. -/
def Obligations.PartAndHostEvents : Prop := ∀ (s : State) (u : StartUp) (d off n pa : Nat) (v : Word) (data : List Byte) (wide write host : Bool) (x : DWord)
    (core phys bit reg pos : Nat) (y : L1Sector) (z : L2Sector) (ar : ArrayRec),
  let now := s.tideOf 12
  let estuary (off : Nat) : Prop := s.mgmtGranted 3 off 4 true = true
  let refusal (cls die addr target : Nat) : State := s.logRecord ⟨s.tideOf die, 3, 3, 4, 0, 0xFFFF, 0, 0, 0, BitVec.ofNat 64 addr, 0, 0, cls, target⟩
  let refused (off : Nat) (i : Instr) : Prop := s.mgmtGranted 3 off 4 true = false → s.Completes i fun t => t = refusal 3 12 off 64
  let afterReset (t : State) : Prop := t.mem.home = s.mem.home ∧ t.mem.poison = s.mem.poison ∧ t.mem.l1 = [] ∧ t.mem.l2 = [] ∧ t.mem.spad = []
    ∧ t.wgs = [] ∧ t.reqs = [] ∧ t.others = [] ∧ t.cur.hasExited = true ∧ t.TideOk ∧ (∀ i < 13, t.tideOf i = 0)
    ∧ (∀ i < 8, (getKey Context.n i t.ctl.ctxs).map (·.state) = some .empty)
    ∧ (u.headlandOk = true → u.slot0Ok = true → u.memFail = 0 → u.coreDieFail = 0 → u.portsOk = true → u.cxlOk = true → u.estuaryOk = true →
        (∀ i < 7, s.boot.record.getD i .notRun ≠ .fail) → s.boot.memFail = 0 → s.boot.dieFail = 0 →
        t.boot.phase = 2 ∧ t.boot.cden = 255 ∧ t.boot.memen = 15 ∧ t.boot.stken = 255 ∧ t.boot.portsUp = true ∧ t.boot.slot = false
          ∧ t.boot.record = List.replicate 7 .pass)
    ∧ (u.headlandOk = false → t.boot.phase = 15)
  let gang : Prop := ∃ w, s.ctl.switch = some w ∧ w.teardown = false
  let lost (t : State) : Prop := d ∈ t.ctl.down ∧ (∀ w ∈ t.warps, w.uid ≠ 0 → w.core / 24 ≠ d) ∧ (∀ g ∈ t.wgs, g.core / 24 ≠ d) ∧ (∀ c ∈ t.mem.l2, c.die ≠ d)
    ∧ (∀ c ∈ t.mem.l1, c.core / 24 ≠ d) ∧ (∀ a ∈ t.arrays, a.core / 24 ≠ d) ∧ t.mem.home = s.mem.home
    ∧ (∀ h ∈ t.tasks.slots, h.core < 192 → h.idx < 4096 → h.home = true → h.onDie d = true → h.state ≠ .free → h.state.final = true)
  let inside : Prop := off + n ≤ s.stacks.length * (htop / 8) ∧ 0 < n
  let pas := (List.range n).map fun i => s.hostPa (off + i)
  let done := pas.foldl (fun t p => max t (s.devTime p + 8)) 0
  let open' : Prop := ∀ p ∈ pas, s.pchBusy p = false
  let answers (t : State) (r : HostReply) : Prop := t.hostOut = s.hostOut ++ (if host then [r] else [])
  let cls := if host then 4 else 3
  let mgmt (bytes : Nat) : Prop := s.mgmtGranted cls off bytes true = true
  let clean : Prop := ∀ c ∈ s.mem.l2, c.dirty = 0
  let go : Prop := s.boot.atctl.getLsbD 31 = true
  let range : List Nat := (List.range 4947).map fun i => s.boot.ataddr.toNat + i
  let here (p : Nat) : Prop := isHostPa p = true ∨ (p < htop ∧ s.boot.stken.getLsbD (stackOf p) = true)
  let atctl (c : Word) (t : State) : Prop := t = { s with boot := { s.boot with atctl := c } }
  (s.boot.phase = 0 ∨ estuary 0x50000 → s.Completes (.partReset u) afterReset) ∧ (s.Completes (.overlimitReset u) afterReset)
  ∧ (s.boot.phase ≠ 0 → refused 0x50000 (.partReset u))
  ∧ (d ∈ s.ctl.dieResets ∨ (estuary 0x50000 ∧ d < 8 ∧ s.boot.cden.getLsbD d = true) →
      (¬gang → s.Completes (.dieReset d) lost)
      ∧ (gang → s.Completes (.dieReset d) fun t => t = { s with ctl := { s.ctl with dieResets := t.ctl.dieResets } } ∧ d ∈ t.ctl.dieResets))
  ∧ (d ∉ s.ctl.dieResets → refused 0x50000 (.dieReset d))
  ∧ (d ∉ s.ctl.dieResets → estuary 0x50000 → 8 ≤ d ∨ s.boot.cden.getLsbD d = false → s.Completes (.dieReset d) fun t => t = s)
  ∧ (d ∈ s.ctl.down → d < s.tide.length → s.Completes (.dieResetReturn d) fun t => d ∉ t.ctl.down ∧ t.tideOf d = max (s.tideOf d) now
      ∧ (∀ i, i ≠ d → t.tideOf i = s.tideOf i) ∧ t.mem = s.mem ∧ t.warps = s.warps)
  ∧ (estuary 0x50004 → s.Completes .bootclr fun t => t = { s with boot := { s.boot with bootclr := true } }) ∧ refused 0x50004 .bootclr
  ∧ (s.Completes .powerLimitExceeded fun t => t = { s with throttled := true })
  ∧ (s.Completes .powerWithinLimits fun t => t = { s with throttled := false })
  ∧ refused 0x50140 (.atctlGo v) ∧ refused 0x50140 (.atctlClear v) ∧ refused off (.attestInputWrite off v)
  ∧ (estuary 0x50140 → v.getLsbD 31 = true → ¬go →
      (s.boot.ataddr.toNat % 64 = 0 → (∀ p ∈ range, here p) →
        ((∀ p ∈ range, s.granted 0 3 p true = true) → s.Completes (.atctlGo v) (atctl 0x80000000))
        ∧ (range.find? (fun p => !s.granted 0 3 p true) = some pa → s.Completes (.atctlGo v) fun t =>
          t.boot = { s.boot with atctl := 0x20000003 } ∧ t.mem = (refusal 3 (homeDie pa) pa (targetOf pa)).mem))
      ∧ (s.boot.ataddr.toNat % 64 ≠ 0 → s.Completes (.atctlGo v) (atctl 0x20000001))
      ∧ (s.boot.ataddr.toNat % 64 = 0 → (∃ p ∈ range, ¬here p) → s.Completes (.atctlGo v) (atctl 0x20000002)))
  ∧ (estuary 0x50140 → v.getLsbD 31 = false ∨ go → s.Completes (.atctlGo v) fun t => t = s)
  ∧ (estuary 0x50140 → v.getLsbD 31 = false → s.Completes (.atctlClear v) (atctl (s.boot.atctl &&& ~~~ (v &&& 0x60000000))))
  ∧ (go → s.boot.atDue = none → clean → s.boot.nonce.length = 64 → s.boot.ataddr.toNat % 64 = 0 → s.Completes .attestationReportDone fun t => ∃ T,
      t.boot = { s.boot with atDue := some T } ∧ (∀ i < 4947, s.devTime (s.boot.ataddr.toNat + i) + 8 ≤ T)
      ∧ readBytes t.mem.home s.boot.ataddr.toNat 4947 = s.report ∧ t.cur = s.cur)
  ∧ (go → s.boot.atDue = some n → (n ≤ now → s.Completes .attestationReportDone fun t => t = { s with boot := { s.boot with atctl := 0x40000000, atDue := none } })
      ∧ (now < n → s.Completes .attestationReportDone fun t => t = s))
  ∧ (¬go → off < 16 → estuary (0x50100 + 4 * off) → s.boot.nonce.length = 64 → s.Completes (.attestInputWrite (0x50100 + 4 * off) v) fun t =>
      t = { s with boot := { s.boot with nonce := t.boot.nonce } } ∧ t.boot.nonce.length = 64
      ∧ ∀ i < 64, t.boot.nonce.getD i 0 = if i / 4 = off then (v >>> (8 * (i % 4))).setWidth 8 else s.boot.nonce.getD i 0)
  ∧ (¬go → (estuary 0x50148 → s.Completes (.attestInputWrite 0x50148 v) fun t => t = { s with boot := { s.boot with ataddr := pairOf v (hiWord s.boot.ataddr) } })
      ∧ (estuary 0x5014C → s.Completes (.attestInputWrite 0x5014C v) fun t => t = { s with boot := { s.boot with ataddr := pairOf (loWord s.boot.ataddr) v } }))
  ∧ (go → estuary off → s.Completes (.attestInputWrite off v) fun t => t = s)
  ∧ (inside → (∀ p ∈ pas, s.granted 0 4 p false = true) → open' → s.Completes (.hostMemRead off n) fun t =>
      t = { s with hostOut := s.hostOut ++ [.data (pas.map (readByte s.mem.home)) (pas.any fun p => s.mem.homePoisoned p 1)] })
  ∧ (inside → pas.find? (fun p => !s.granted 0 4 p false) = some pa → s.Completes (.hostMemRead off n) fun t =>
      t.hostOut = s.hostOut ++ [.data (List.replicate n 0xFF) true] ∧ t.mem = (refusal 4 (homeDie pa) pa (targetOf pa)).mem)
  ∧ (¬inside ∨ ((∀ p ∈ pas, s.granted 0 4 p false = true) ∧ ¬open') → s.Completes (.hostMemRead off n) fun t => t = s)
  ∧ (data.length = n →
      (inside → (∀ p ∈ pas, s.granted 0 4 p true = true) → open' → pas.Nodup → clean → s.Completes (.hostMemWrite off data) fun t =>
        (∀ i < n, readByte t.mem.home (s.hostPa (off + i)) = data.getD i 0) ∧ (∀ a, a ∉ pas → readByte t.mem.home a = readByte s.mem.home a)
        ∧ (∀ sec, sec ∈ t.mem.poison ↔ sec ∈ s.mem.poison ∧ ∃ i < 64, 64 * sec + i ∉ pas)
        ∧ t.hostDue = (s.hostDue ++ [done]).filter (fun a => decide (now < a))
        ∧ t.hostOut = s.hostOut ++ ((s.hostDue ++ [done]).filter fun a => decide (a ≤ now)).map .written ∧ t.mem.spad = s.mem.spad)
      ∧ (inside → pas.find? (fun p => !s.granted 0 4 p true) = some pa → s.Completes (.hostMemWrite off data) fun t =>
        t.mem = (refusal 4 (homeDie pa) pa (targetOf pa)).mem)
      ∧ (¬inside ∨ ((∀ p ∈ pas, s.granted 0 4 p true = true) ∧ ¬open') → s.Completes (.hostMemWrite off data) fun t => t = s))
  ∧ (s.Completes (.hostRegisterBadWidth write) fun t => t = { s with hostOut := s.hostOut ++ [.unsupported (!write)] })
  ∧ (mgmt 8 → off = 0x10000 → s.Completes (.registerWrite ⟨host, off⟩ true x) fun t => t.mem = { s.mem with tlbia := x &&& 0x00FFFFFFFFFF0000 }
      ∧ answers t (.written now) ∧ t.cur = s.cur)
  ∧ (mgmt 4 → off = 0x30000 + 4 * n → n < 512 → s.Completes (.registerWrite ⟨host, off⟩ false x) fun t => t.chaff n = x.toNat % 256
      ∧ (∀ i, i ≠ n → t.chaff i = s.chaff i) ∧ answers t (.written now) ∧ t.mem = s.mem)
  ∧ (mgmt 4 → off = 0x40 → s.Completes (.registerWrite ⟨host, off⟩ false x) fun t => answers t (.written now) ∧ t = { s with hostOut := t.hostOut })
  ∧ (mgmt 4 → off = 0x50000 →
      (x.getLsbD 31 = true → s.Completes (.registerWrite ⟨host, off⟩ false x) fun t => t.boot.phase = 0 ∧ t.mem.home = s.mem.home ∧ t.mem.l2 = [] ∧ t.wgs = []
        ∧ (∀ i < 13, t.tideOf i = 0))
      ∧ (x.getLsbD 31 = false → d < 8 → x.getLsbD d = true → s.boot.cden.getLsbD d = true → s.Completes (.registerWrite ⟨host, off⟩ false x) fun t =>
        (¬gang → d ∈ t.ctl.down) ∧ (gang → d ∈ t.ctl.dieResets)))
  ∧ (mgmt 4 → off = 0x50004 → s.Completes (.registerWrite ⟨host, off⟩ false x) fun t => answers t (.written now)
      ∧ t = { s with hostOut := t.hostOut, boot := { s.boot with bootclr := s.boot.bootclr || (!host && x.getLsbD 0) } })
  ∧ (off % 4 ≠ 0 ∨ (wide = true ∧ is64 off = false) → s.Completes (.registerWrite ⟨host, off⟩ wide x) fun t => answers t (.unsupported false)
      ∧ t = { s with hostOut := t.hostOut })
  ∧ (off % 4 = 0 → (wide = true → is64 off = true) → ¬mgmt (if wide then 8 else 4) → s.Completes (.registerWrite ⟨host, off⟩ wide x) fun t =>
      answers t (.unsupported false) ∧ t.boot = s.boot ∧ t.ctl = s.ctl ∧ t.mem = (refusal cls 12 off 64).mem)
  ∧ (s.Completes (.softError .corrected) fun t => t = s)
  ∧ (s.Completes (.softError (.homeByte pa bit)) fun t => (∀ a, a ≠ pa → readByte t.mem.home a = readByte s.mem.home a)
      ∧ readByte t.mem.home pa = readByte s.mem.home pa ^^^ (1 <<< (bit % 8)) ∧ t.mem.homePoisoned pa 1 = true ∧ t.cur = s.cur)
  ∧ (s.Completes (.softError (.homeSector n)) fun t => t = { s with mem := { s.mem with poison := t.mem.poison } } ∧ ∀ i, i ∈ t.mem.poison ↔ i = n ∨ i ∈ s.mem.poison)
  ∧ (let cell := spadCell (core % 192) (phys % 32) (off % 0x3800)
      let struck : Nat × Nat := (off % 0x3800, bit % 8)
      (s.Completes (.softError (.tileWord core phys off)) fun t => t = { s with mem := { s.mem with spadPoison := t.mem.spadPoison } } ∧ cell / 8 ∈ t.mem.spadPoison)
      ∧ (s.Completes (.softError (.tile core phys off bit)) fun t => t.mem.home = s.mem.home ∧ cell / 8 ∈ t.mem.spadPoison
        ∧ (∀ a, a ≠ cell → readByte t.mem.spad a = readByte s.mem.spad a) ∧ readByte t.mem.spad cell = readByte s.mem.spad cell ^^^ (1 <<< (bit % 8)))
      ∧ (s.arrayOf (core % 192) (phys % 32) = some ar → ar.mode = 1 ∨ ar.mode = 3 → s.Completes (.softError (.tileBit core phys off bit)) fun t =>
        t = { s with arrays := t.arrays, mem := { s.mem with spadPoison := t.mem.spadPoison } }
        ∧ t.arrayOf (core % 192) (phys % 32) = some { ar with flips := if struck ∈ ar.flips then ar.flips.erase struck else struck :: ar.flips }
        ∧ ∀ x, x ∈ t.mem.spadPoison ↔ x ∈ s.mem.spadPoison ∨ (x = cell / 8 ∧ struck ∉ ar.flips ∧ ∃ f ∈ ar.flips, f.1 / 8 = struck.1 / 8))
      ∧ (s.arrayOf (core % 192) (phys % 32) = none ∨ (s.arrayOf (core % 192) (phys % 32) = some ar ∧ ar.mode ≠ 1 ∧ ar.mode ≠ 3) →
        s.Completes (.softError (.tileBit core phys off bit)) fun t => t = s))
  ∧ (s.mem.l1At core (pa / 64) = some y → s.Completes (.softError (.l1Word core pa bit)) fun t => t = { s with mem := { s.mem with l1 := t.mem.l1 } }
      ∧ ∃ y', t.mem.l1At core (pa / 64) = some y' ∧ y' = { y with data := y'.data, bad := y.bad ||| (1 <<< (pa % 64 / 8)) }
        ∧ ∀ i, i ≠ pa % 64 → y'.data[i]? = y.data[i]?)
  ∧ (s.mem.l2At d (pa / 64) = some z → s.Completes (.softError (.l2Word d pa bit)) fun t => t = { s with mem := { s.mem with l2 := t.mem.l2 } }
      ∧ ∃ z', t.mem.l2At d (pa / 64) = some z' ∧ z' = { z with data := z'.data, bad := z.bad ||| (1 <<< (pa % 64 / 8)) }
        ∧ ∀ i, i ≠ pa % 64 → z'.data[i]? = z.data[i]?)
  ∧ (s.Completes (.softError (.icacheWord core pa)) fun t => t = { s with mem := { s.mem with
      icache := s.mem.icache.map fun i => if i.core = core ∧ i.pa = pa then { i with bad := true } else i } })
  ∧ (s.warpAt core pos = some s.cur → s.Completes (.softError (.register core pos reg)) fun t => t.cur.arch.bad.getLsbD (reg % 64) = true ∧ t.mem = s.mem
      ∧ ∀ r < 64, r ≠ reg % 64 → t.cur.arch.vregs.getD r (.u 0) = s.cur.arch.vregs.getD r (.u 0) ∧ t.cur.arch.bad.getLsbD r = s.cur.arch.bad.getLsbD r)
end

