-- ==== Sys2Proof/Laws/Lists.lean ====
section
/-! SUPPORT. The list, lane and mask helpers of the machine, read entry by entry. -/

namespace Sys2Proof.Machine

/-- An entry of a list with one entry replaced. -/
@[simp] theorem getElem?_putAt {α : Type} (n : Nat) (d : α) (i : Nat) (v : α) (xs : List α) (k : Nat) :
    (putAt n d i v xs)[k]? = if k < n then some (if k = i then v else xs.getD k d) else none := by
  simp only [putAt, List.getElem?_map]
  by_cases h : k < n <;> simp [h]

/-- The value of lane `l` in a list of lane values. -/
@[simp] theorem getElem?_lanesOf {α : Type} (f : Nat → α) (l : Nat) : (lanesOf f)[l]? = if l < 128 then some (f l) else none := by
  simp only [lanesOf, laneCount, List.getElem?_map]
  by_cases h : l < 128 <;> simp [h]

/-- The sum that `maskOf` takes stays below `2 ^ n`, and its bits are the values of `f`. -/
theorem maskSum_testBit (f : Nat → Bool) (n : Nat) :
    (List.range n).foldl (fun acc l => if f l then acc + 2 ^ l else acc) 0 < 2 ^ n ∧
    ∀ k, ((List.range n).foldl (fun acc l => if f l then acc + 2 ^ l else acc) 0).testBit k = (decide (k < n) && f k) := by
  induction n with
  | zero => simp
  | succ n ih =>
    obtain ⟨hlt, hb⟩ := ih
    simp only [List.range_succ, List.foldl_append, List.foldl_cons, List.foldl_nil]
    generalize (List.range n).foldl (fun acc l => if f l then acc + 2 ^ l else acc) 0 = x at hlt hb
    have h2 : 2 ^ (n + 1) = 2 ^ n + 2 ^ n := by rw [Nat.pow_succ]; omega
    by_cases hf : f n = true
    · simp only [hf, if_true]
      refine ⟨by omega, fun k => ?_⟩
      rw [Nat.add_comm x]
      rcases Nat.lt_trichotomy k n with h | h | h
      · rw [Nat.testBit_two_pow_add_gt h, hb]; simp [h, Nat.lt_succ_of_lt h]
      · subst h; rw [Nat.testBit_two_pow_add_eq, hb]; simp [hf]
      · rw [Nat.testBit_lt_two_pow (lt_of_lt_of_le (show 2 ^ n + x < 2 ^ (n + 1) by omega) (Nat.pow_le_pow_right (by omega) h))]
        simp; omega
    · simp only [hf, if_false, Bool.false_eq_true]
      refine ⟨by omega, fun k => ?_⟩
      rw [hb]
      by_cases h : k = n
      · subst h; simp [hf]
      · simp [show k < n + 1 ↔ k < n by omega]

/-- The lanes of a mask are those at which `f` holds. -/
@[simp] theorem getLsbD_maskOf (f : Nat → Bool) (l : Nat) : (maskOf f).getLsbD l = (decide (l < 128) && f l) := by
  simp only [maskOf, laneCount, BitVec.getLsbD_ofNat, (maskSum_testBit f 128).2]
  by_cases h : l < 128 <;> simp [h]

/-- A lane is in the list of a mask's lanes. -/
@[simp] theorem mem_maskLanes (m : Mask) (l : Nat) : l ∈ maskLanes m ↔ m.getLsbD l = true := by
  simp only [maskLanes, laneCount, List.mem_filter, List.mem_range]
  refine ⟨fun h => h.2, fun h => ⟨?_, h⟩⟩
  by_contra hl
  rw [BitVec.getLsbD_of_ge m l (by omega)] at h
  exact absurd h (by simp)

/-! ## Byte lists -/

/-- A byte that is written is read back. -/
@[simp] theorem readByte_writeByte_self (a : Nat) (b : Byte) (m : List Host.Cell) : readByte (writeByte a b m) a = b := by
  have h1 : ∀ m : List Host.Cell, (m.filter fun c => decide (c.1 < a)).find? (fun c => c.1 == a) = none := by
    intro m; rw [List.find?_eq_none]; intro x hx
    have := (List.mem_filter.1 hx).2
    simp at this ⊢; omega
  have h2 : ∀ m : List Host.Cell, (m.filter fun c => decide (a < c.1)).find? (fun c => c.1 == a) = none := by
    intro m; rw [List.find?_eq_none]; intro x hx
    have := (List.mem_filter.1 hx).2
    simp at this ⊢; omega
  by_cases hb : b = 0#8
  · simp [readByte, writeByte, List.find?_append, h1, h2, hb]
  · simp [readByte, writeByte, List.find?_append, h1, hb]

/-- A write leaves every other byte alone. -/
theorem readByte_writeByte_ne (a a' : Nat) (b : Byte) (m : List Host.Cell) (h : a' ≠ a) : readByte (writeByte a b m) a' = readByte m a' := by
  have key : ((writeByte a b m).find? fun c => c.1 == a') = m.find? fun c => c.1 == a' := by
    rcases Nat.lt_or_gt_of_ne h with hl | hl
    · have : ((m.filter fun c => decide (a < c.1)).find? fun c => c.1 == a') = none := by
        rw [List.find?_eq_none]; intro x hx
        have := (List.mem_filter.1 hx).2
        simp at this ⊢; omega
      have e : ((if b = 0 then [] else [(a, b)] : List Host.Cell).find? fun c => c.1 == a') = none := by
        split <;> simp; omega
      simp only [writeByte, List.find?_append, this, e, Option.or_none, List.find?_filter]
      congr 1; funext c
      by_cases hc : c.1 = a' <;> simp [hc, hl]
    · have : ((m.filter fun c => decide (c.1 < a)).find? fun c => c.1 == a') = none := by
        rw [List.find?_eq_none]; intro x hx
        have := (List.mem_filter.1 hx).2
        simp at this ⊢; omega
      have e : ((if b = 0 then [] else [(a, b)] : List Host.Cell).find? fun c => c.1 == a') = none := by
        split <;> simp; omega
      simp only [writeByte, List.find?_append, this, e, Option.none_or, List.find?_filter]
      congr 1; funext c
      by_cases hc : c.1 = a' <;> simp [hc, hl]
  simp [readByte, key]

/-- A byte after a write: the byte written, or what stood there. -/
theorem readByte_writeByte (a a' : Nat) (b : Byte) (m : List Host.Cell) :
    readByte (writeByte a b m) a' = if a' = a then b else readByte m a' := by
  split
  · next h => subst h; simp
  · next h => exact readByte_writeByte_ne a a' b m h

/-- The canonical form, as an order on addresses and a condition on bytes. -/
theorem wf_iff (m : List Host.Cell) : Memory.wf m = true ↔ m.Pairwise (fun x y => x.1 < y.1) ∧ ∀ c ∈ m, c.2 ≠ 0 := by
  induction m with
  | nil => simp [Memory.wf]
  | cons c m ih =>
    obtain ⟨a, b⟩ := c
    cases m with
    | nil => simp [Memory.wf]
    | cons c' m =>
      obtain ⟨a', b'⟩ := c'
      simp only [Memory.wf, Bool.and_eq_true, decide_eq_true_eq, bne_iff_ne, ih, List.pairwise_cons, List.mem_cons,
        forall_eq_or_imp]
      constructor
      · rintro ⟨⟨h1, h2⟩, ⟨h3, h4⟩, h5, h6⟩
        exact ⟨⟨⟨h1, fun x hx => lt_trans h1 (h3 x hx)⟩, h3, h4⟩, h2, h5, h6⟩
      · rintro ⟨⟨⟨h1, _⟩, h3, h4⟩, h2, h5, h6⟩
        exact ⟨⟨h1, h2⟩, ⟨h3, h4⟩, h5, h6⟩

/-- Writing a byte keeps the canonical form. -/
theorem wf_writeByte (a : Nat) (b : Byte) (m : List Host.Cell) (h : Memory.wf m = true) : Memory.wf (writeByte a b m) = true := by
  rw [wf_iff] at h ⊢
  obtain ⟨hp, hz⟩ := h
  constructor
  · simp only [writeByte, List.pairwise_append, List.append_assoc]
    refine ⟨hp.filter _, ⟨by split <;> simp, hp.filter _, ?_⟩, ?_⟩
    · intro x hx y hy
      have := (List.mem_filter.1 hy).2
      split at hx <;> simp_all
    · intro x hx y hy
      have h1 := (List.mem_filter.1 hx).2
      rcases List.mem_append.1 hy with hy | hy
      · split at hy <;> simp_all
      · have h2 := (List.mem_filter.1 hy).2
        simp at h1 h2; omega
  · intro c hc
    simp only [writeByte, List.mem_append, List.mem_filter] at hc
    rcases hc with (hc | hc) | hc
    · exact hz c hc.1
    · split at hc <;> simp_all
    · exact hz c hc.1

/-- Writing bytes keeps the canonical form. -/
theorem wf_writeBytes (bs : List Byte) : ∀ (m : List Host.Cell) (a : Nat), Memory.wf m = true → Memory.wf (writeBytes m a bs) = true := by
  induction bs with
  | nil => intro m a h; exact h
  | cons b bs ih => intro m a h; exact ih _ _ (wf_writeByte a b m h)

/-- A byte after writing bytes from `a` up. -/
theorem readByte_writeBytes (bs : List Byte) : ∀ (m : List Host.Cell) (a a' : Nat),
    readByte (writeBytes m a bs) a' = if a ≤ a' ∧ a' < a + bs.length then bs.getD (a' - a) 0 else readByte m a' := by
  induction bs with
  | nil => intro m a a'; simp [writeBytes]
  | cons b bs ih =>
    intro m a a'
    rw [writeBytes, ih, readByte_writeByte]
    by_cases h : a' = a
    · subst h; simp
    · by_cases h2 : a + 1 ≤ a' ∧ a' < a + 1 + bs.length
      · rw [if_pos h2, if_pos ⟨by omega, by simp; omega⟩]
        have : a' - a = (a' - (a + 1)) + 1 := by omega
        simp [this]
      · rw [if_neg h2, if_neg h, if_neg]
        simp; omega

end Sys2Proof.Machine
end

