-- ==== Sys2Proof/Laws/Registers.lean ====
section
/-! SUPPORT. Lanes, registers and predicates read after they are written; what advancing and committing an instruction do. -/

namespace Sys2Proof.Machine

/-! ## Lanes -/

/-- A lane after some lanes are mapped. -/
@[simp] theorem Arch.lane_mapLanes (a : Arch) (m : Mask) (f : Nat → Lane → Lane) (l : Nat) (h : l < 128) :
    (a.mapLanes m f).lane l = if m.getLsbD l then f l (a.lane l) else a.lane l := by
  simp [Arch.mapLanes, Arch.lane, h]

/-- A lane of a warp after some lanes are mapped. -/
@[simp] theorem Warp.lane_mapLanes (w : Warp) (m : Mask) (f : Nat → Lane → Lane) (l : Nat) (h : l < 128) :
    (w.mapLanes m f).lane l = if m.getLsbD l then f l (w.lane l) else w.lane l := Arch.lane_mapLanes w.arch m f l h

/-- The lanes that are not Exited. -/
theorem Arch.getLsbD_live (a : Arch) (l : Nat) : a.live.getLsbD l = (decide (l < 128) && !(a.lane l).exited) := by
  simp [Arch.live]

/-! ## Values -/

/-- A lane-wise built register. -/
@[simp] theorem VReg.lane_lanesOf (f : Nat → Word) (l : Nat) (h : l < 128) : (VReg.g (lanesOf f)).lane l = f l := by simp [VReg.lane, h]

/-- A merged register in an active lane (R58). -/
theorem mergeWrite_act (live act : Mask) (old new : VReg) (l : Nat) (h : l < 128) (ha : act.getLsbD l = true) :
    (mergeWrite live act old new).lane l = new.lane l := by
  unfold mergeWrite
  by_cases hw : wholeWrite live act = true
  · by_cases hg : new.isG = true
    · simp only [hw, hg, if_true, VReg.lane_lanesOf _ l h, ha]
    · simp only [hw, hg, if_true, if_false, Bool.false_eq_true]
  · simp only [hw, if_false, Bool.false_eq_true, VReg.lane_lanesOf _ l h, ha, if_true]

/-- A merged register in a lane that is not active and not Exited (R58). -/
theorem mergeWrite_idle (live act : Mask) (old new : VReg) (l : Nat) (h : l < 128) (ha : act.getLsbD l = false)
    (hl : live.getLsbD l = true) : (mergeWrite live act old new).lane l = old.lane l := by
  have hw : wholeWrite live act = false := by
    by_contra hw
    have hw : wholeWrite live act = true := by simpa using hw
    simp only [wholeWrite, beq_iff_eq] at hw
    have := congrArg (fun m : Mask => m.getLsbD l) hw
    rw [BitVec.getLsbD_and, BitVec.getLsbD_not, hl, ha, decide_eq_true h] at this
    exact absurd (this.trans BitVec.getLsbD_zero) (by decide)
  simp only [mergeWrite, hw, if_false, Bool.false_eq_true, VReg.lane_lanesOf _ l h, ha]

/-- A merged register is G exactly when the write is partial or its value is G. -/
theorem mergeWrite_isG (live act : Mask) (old new : VReg) : (mergeWrite live act old new).isG = (!wholeWrite live act || new.isG) := by
  unfold mergeWrite
  by_cases hw : wholeWrite live act = true <;> by_cases hn : new.isG = true <;> simp only [hw, hn, if_true, if_false, Bool.false_eq_true] <;> simp_all [VReg.isG]

/-! ## The register file -/

/-- The register file after a write that is not one of the record register. -/
theorem Arch.put_vregs (live act : Mask) (a : Arch) (w : RegWrite) (r : Reg) :
    (a.put live act w).vregs.getD r.toNat (.u 0) =
      if r = w.reg then mergeWrite live act (a.vregs.getD r.toNat (.u 0)) w.val else a.vregs.getD r.toNat (.u 0) := by
  by_cases h : r = w.reg
  · subst h; simp [Arch.put, w.reg.isLt]
  · have hr : r.toNat ≠ w.reg.toNat := fun e => h (BitVec.eq_of_toNat_eq e)
    simp [Arch.put, hr, r.isLt, h]

/-- A write of the record register changes only record words 3 and 4 (R232). -/
def Handler.write (act : Mask) (h : Handler) (v : VReg) : Handler :=
  let put (ws : List Word) (l : Nat) : List Word := if act.getLsbD l then putAt 16 0 l (recordPart l (v.lane l)) ws else ws
  { h with words := put (put h.words 3) 4 }

/-- A write of the record register, in handler mode. -/
theorem Arch.write_record (live act : Mask) (a : Arch) (v : VReg) (h : Handler) (hh : a.handler = some h) :
    a.write live act ⟨60, v⟩ = { a with handler := some (h.write act v) } := by
  simp [Arch.write, Arch.writeAs, hh, Handler.write]

/-- Any other write. -/
theorem Arch.write_plain (live act : Mask) (a : Arch) (w : RegWrite) (hh : a.handler = none ∨ w.reg ≠ 60) :
    a.write live act w = a.put live act w := by
  unfold Arch.write Arch.writeAs
  rcases hh with h | h
  · simp [h]
  · have : (w.reg == 60) = false := by simpa using h
    simp only [this, Bool.and_false, if_false, Bool.false_eq_true]

/-- A record word after a write of the record register. -/
theorem Handler.write_words (act : Mask) (h : Handler) (v : VReg) (l : Nat) (hl : l < 16) :
    (h.write act v).words.getD l 0 = if (l = 3 ∨ l = 4) ∧ act.getLsbD l = true then recordPart l (v.lane l) else h.words.getD l 0 := by
  have step : ∀ (ws : List Word) (k : Nat), k < 16 →
      (if act.getLsbD k then putAt 16 0 k (recordPart k (v.lane k)) ws else ws).getD l 0
        = if l = k ∧ act.getLsbD k = true then recordPart k (v.lane k) else ws.getD l 0 := by
    intro ws k hk
    by_cases ha : act.getLsbD k = true
    · simp only [ha, if_true, and_true, List.getD_eq_getElem?_getD, getElem?_putAt, hl]
      by_cases e : l = k <;> simp [e]
    · simp only [ha, if_false, and_false, Bool.false_eq_true]
  simp only [Handler.write]
  rw [step _ 4 (by omega), step _ 3 (by omega)]
  by_cases h3 : l = 3
  · subst h3; simp
  · by_cases h4 : l = 4
    · subst h4; simp
    · simp [h3, h4]

/-- A register other than the one written. -/
theorem Arch.vreg_write_ne (live act : Mask) (a : Arch) (w : RegWrite) (r : Reg) (h : r ≠ w.reg) : (a.write live act w).vreg r = a.vreg r := by
  obtain ⟨d, v⟩ := w
  have hp : ∀ hh, (a.handler = none ∨ d ≠ 60) → (hh = a.handler) → (a.put live act ⟨d, v⟩).vreg r = a.vreg r := by
    intro hh _ _
    have e := Arch.put_vregs live act a ⟨d, v⟩ r
    rw [if_neg h] at e
    unfold Arch.vreg
    rw [e]; rfl
  cases hh : a.handler with
  | none => rw [Arch.write_plain _ _ _ _ (.inl hh)]; exact hp _ (.inl hh) rfl
  | some hd =>
    by_cases h6 : d = 60
    · subst h6
      rw [Arch.write_record live act a v hd hh]
      have hr : r ≠ 60 := h
      simp only [Arch.vreg, hh, hr, if_false]
    · rw [Arch.write_plain _ _ _ _ (.inr h6)]; exact hp _ (.inr h6) rfl

/-- A register written at issue that is not the record register holds the merged value. -/
theorem Arch.vreg_write_self (live act : Mask) (a : Arch) (w : RegWrite) (hh : a.handler = none ∨ w.reg ≠ 60) :
    (a.write live act w).vreg w.reg = mergeWrite live act (a.vreg w.reg) w.val := by
  rw [Arch.write_plain _ _ _ _ hh]
  have e := Arch.put_vregs live act a w w.reg
  rw [if_pos rfl] at e
  have e2 : ∀ b : Arch, b.handler = a.handler → b.vreg w.reg = b.vregs.getD w.reg.toNat (.u 0) := by
    intro b hb
    unfold Arch.vreg
    rw [hb]
    rcases hh with h | h
    · rw [h]
    · cases a.handler <;> simp only [h, if_false]
  rw [e2 (a.put live act w) rfl, e, e2 a rfl]

/-- The lanes of a register written at issue: an active lane takes the value; of the record register only lanes 3 and 4 do (R58, R232). -/
theorem Arch.vreg_write_lane (live act : Mask) (a : Arch) (w : RegWrite) (l : Nat) (h : l < 128) :
    (act.getLsbD l = true ∧ ((a.handler.isSome && w.reg == 60) = true → l = 3 ∨ l = 4) →
      ((a.write live act w).vreg w.reg).lane l = if (a.handler.isSome && w.reg == 60) = true then recordPart l (w.val.lane l) else w.val.lane l)
    ∧ (act.getLsbD l = false ∧ live.getLsbD l = true → ((a.write live act w).vreg w.reg).lane l = (a.vreg w.reg).lane l)
    ∧ ((a.handler.isSome && w.reg == 60) = true ∧ l ≠ 3 ∧ l ≠ 4 → ((a.write live act w).vreg w.reg).lane l = (a.vreg w.reg).lane l) := by
  by_cases hp : a.handler = none ∨ w.reg ≠ 60
  · rw [Arch.vreg_write_self _ _ _ _ hp]
    have e0 : (a.handler.isSome && w.reg == 60) = false := by
      rcases hp with hn | hn
      · simp [hn]
      · simpa using fun _ => hn
    refine ⟨fun x => by rw [e0, if_neg (by decide)]; exact mergeWrite_act _ _ _ _ l h x.1, fun x => mergeWrite_idle _ _ _ _ l h x.1 x.2, fun x => ?_⟩
    rcases hp with hn | hn
    · simp [hn] at x
    · simp only [Bool.and_eq_true, beq_iff_eq] at x; exact absurd x.1.2 hn
  · obtain ⟨d, v⟩ := w
    have h6 : d = 60 := by by_contra hx; exact hp (.inr hx)
    subst h6
    obtain ⟨hd, hh⟩ : ∃ hd, a.handler = some hd := by
      cases hh : a.handler with
      | none => exact absurd (.inl hh) hp
      | some hd => exact ⟨hd, rfl⟩
    rw [Arch.write_record live act a v hd hh]
    have e1 : (Arch.vreg { a with handler := some (hd.write act v) } 60).lane l = if l < 16 then (hd.write act v).words.getD l 0 else 0 := by
      simp only [Arch.vreg, if_true, VReg.lane_lanesOf _ l h]
    have e2 : (a.vreg 60).lane l = if l < 16 then hd.words.getD l 0 else 0 := by
      simp only [Arch.vreg, hh, if_true, VReg.lane_lanesOf _ l h]
    simp only [e1, e2, hh, Option.isSome_some, Bool.true_and, beq_self_eq_true, true_and, forall_const]
    refine ⟨?_, ?_, ?_⟩
    · rintro ⟨ha, hl⟩
      rw [if_pos (by omega), Handler.write_words _ _ _ _ (by omega), if_pos ⟨hl, ha⟩, if_pos trivial]
    · rintro ⟨ha, -⟩
      split
      · next h16 => rw [Handler.write_words _ _ _ _ h16, if_neg (by simp [ha])]
      · rfl
    · rintro ⟨h3, h4⟩
      split
      · next h16 => rw [Handler.write_words _ _ _ _ h16, if_neg (by simp [h3, h4])]
      · rfl

/-- A write at issue leaves every other part of the warp's state alone, but for the record words (R232). -/
theorem Arch.write_rest (live act : Mask) (a : Arch) (w : RegWrite) :
    (a.write live act w).lanes = a.lanes ∧ (a.write live act w).preds = a.preds ∧ (a.write live act w).sets = a.sets
      ∧ (a.write live act w).handler.map (fun h => (h.mask, h.pc, h.epc, h.blk)) = a.handler.map fun h => (h.mask, h.pc, h.epc, h.blk) := by
  by_cases hp : a.handler = none ∨ w.reg ≠ 60
  · rw [Arch.write_plain _ _ _ _ hp]; exact ⟨rfl, rfl, rfl, rfl⟩
  · obtain ⟨d, v⟩ := w
    have h6 : d = 60 := by by_contra hx; exact hp (.inr hx)
    subst h6
    cases hh : a.handler with
    | none => exact absurd (.inl hh) hp
    | some hd => rw [Arch.write_record live act a v hd hh]; exact ⟨rfl, rfl, rfl, rfl⟩

/-- A write leaves the failing marks of the other registers alone (R238). -/
theorem Arch.write_bad (live act : Mask) (a : Arch) (w : RegWrite) (r : Reg) (h : r ≠ w.reg) :
    (a.write live act w).bad.getLsbD r.toNat = a.bad.getLsbD r.toNat := by
  by_cases hp : a.handler = none ∨ w.reg ≠ 60
  · rw [Arch.write_plain _ _ _ _ hp]
    have hr : r.toNat ≠ w.reg.toNat := fun e => h (BitVec.eq_of_toNat_eq e)
    have hr64 := r.isLt
    simp only [Arch.put]
    split
    · rw [BitVec.getLsbD_and, BitVec.getLsbD_not, BitVec.getLsbD_shiftLeft]
      by_cases hl : r.toNat < w.reg.toNat
      · simp [hl]; omega
      · have : BitVec.getLsbD (1 : BitVec 64) (r.toNat - w.reg.toNat) = false := by
          rw [show (1 : BitVec 64) = BitVec.ofNat 64 1 from rfl, BitVec.getLsbD_ofNat]
          rw [Nat.testBit_lt_two_pow (Nat.one_lt_two_pow (by omega)), Bool.and_false]
        rw [this]; simp [hr64]
    · rfl
  · obtain ⟨d, v⟩ := w
    have h6 : d = 60 := by by_contra hx; exact hp (.inr hx)
    subst h6
    cases hh : a.handler with
    | none => exact absurd (.inl hh) hp
    | some hd => rw [Arch.write_record live act a v hd hh]

/-! ## Predicates -/

/-- A predicate as the program reads it. -/
def Arch.pred (a : Arch) (p : PReg) : Mask := if p = 7 then BitVec.allOnes 128 else a.preds.getD p.toNat 0

/-- A predicate bit after a write of predicate `q` (R61). -/
theorem Arch.pred_writePred (act : Mask) (a : Arch) (q p : PReg) (v : Mask) (l : Nat) (h : l < 128) :
    ((a.writePred act q v).pred p).getLsbD l =
      if p = 7 then true else if p = q ∧ act.getLsbD l = true then v.getLsbD l else (a.pred p).getLsbD l := by
  by_cases hp : p = 7
  · subst hp; simp only [Arch.pred, if_true]; rw [BitVec.getLsbD_allOnes]; simp [h]
  · simp only [Arch.pred, hp, if_false]
    by_cases hq : q = 7
    · subst hq; simp only [Arch.writePred, if_true, hp, false_and, if_false]
    · have hlt : p.toNat < 7 := by
        have := p.isLt
        have : p.toNat ≠ 7 := fun e => hp (BitVec.eq_of_toNat_eq e)
        omega
      simp only [Arch.writePred, hq, if_false, List.getD_eq_getElem?_getD, getElem?_putAt, hlt, if_true, Option.getD_some]
      by_cases e : p = q
      · subst e
        simp only [if_true, true_and]
        rw [BitVec.getLsbD_or, BitVec.getLsbD_and, BitVec.getLsbD_and, BitVec.getLsbD_not]
        cases ha : act.getLsbD l <;> simp [h]
      · have : p.toNat ≠ q.toNat := fun e' => e (BitVec.eq_of_toNat_eq e')
        simp only [this, e, if_false, false_and]

/-- A predicate write leaves everything else of the warp's state alone. -/
theorem Arch.writePred_rest (act : Mask) (a : Arch) (q : PReg) (v : Mask) :
    a.writePred act q v = { a with preds := (a.writePred act q v).preds } := by
  unfold Arch.writePred; split <;> rfl

end Sys2Proof.Machine
end

