-- ==== Sys2Proof/Laws/Commit.lean ====
section
/-! SUPPORT. What advancing an instruction and committing its results do: the one lemma each statement of a result cites. -/

namespace Sys2Proof.Machine

/-! ## Advancing -/

/-- Moving the lanes changes only the warp in focus. -/
theorem State.moveLanes_state (s : State) (c : Ctl) (f : Nat → DWord) : s.moveLanes c f = { s with cur := (s.moveLanes c f).cur } := by
  cases hh : s.cur.arch.handler <;> simp only [State.moveLanes, hh]

/-- Moving the lanes changes only the lanes, the handler PC and the marks of YH. -/
theorem State.moveLanes_cur (s : State) (c : Ctl) (f : Nat → DWord) :
    (s.moveLanes c f).cur = { s.cur with
      arch := { s.cur.arch with lanes := (s.moveLanes c f).cur.arch.lanes, handler := (s.moveLanes c f).cur.arch.handler }
      ymNew := (s.moveLanes c f).cur.ymNew } := by
  unfold State.moveLanes; cases hh : s.cur.arch.handler <;> cases c.yh <;> simp [Warp.mapLanes, Arch.mapLanes, hh]

/-- In handler mode the handler PC takes that of the lowest lane that is not Exited (R233). -/
theorem State.moveLanes_handler (s : State) (c : Ctl) (f : Nat → DWord) :
    (s.moveLanes c f).cur.arch.handler = s.cur.arch.handler.map fun h => { h with pc := f (lowestLane (h.mask &&& s.cur.live)) } := by
  unfold State.moveLanes; cases hh : s.cur.arch.handler <;> cases c.yh <;> simp [Warp.mapLanes, Arch.mapLanes, hh]

/-- Outside handler mode the lanes of the split take the PCs `f` gives (R33); YH marks them (R39). -/
theorem State.moveLanes_lane (s : State) (c : Ctl) (f : Nat → DWord) (l : Nat) (h : l < 128) :
    (s.moveLanes c f).cur.lane l = { s.cur.lane l with
      pc := if s.cur.inHandler = false ∧ s.split.getLsbD l = true then f l else (s.cur.lane l).pc
      ym := (c.yh && s.split.getLsbD l) || (s.cur.lane l).ym } := by
  have hm := fun (w : Warp) (m : Mask) (g : Nat → Lane → Lane) => Warp.lane_mapLanes w m g l h
  cases hh : s.cur.arch.handler with
  | none =>
    have hi : s.cur.inHandler = false := by simp [Warp.inHandler, hh]
    simp only [hi, true_and]
    cases hy : c.yh with
    | false =>
      simp only [State.moveLanes, hh, hy, Bool.false_eq_true, if_false, hm, Bool.false_and, Bool.false_or]
      by_cases hs : s.split.getLsbD l = true <;> simp only [hs, if_true, if_false, Bool.false_eq_true]
    | true =>
      have e : ∀ (w : Warp) (y : Mask), Warp.lane { w with ymNew := y } l = w.lane l := fun _ _ => rfl
      simp only [State.moveLanes, hh, hy, if_true, e, hm, Bool.true_and]
      by_cases hs : s.split.getLsbD l = true <;> simp only [hs, if_true, if_false, Bool.false_eq_true, Bool.true_or, Bool.false_or]
  | some hd =>
    have hi : s.cur.inHandler = true := by simp [Warp.inHandler, hh]
    simp only [hi, Bool.true_eq_false, false_and, if_false]
    have e0 : ∀ o, Warp.lane { s.cur with arch := { s.cur.arch with handler := o } } l = s.cur.lane l := fun _ => rfl
    cases hy : c.yh with
    | false => simp only [State.moveLanes, hh, hy, Bool.false_eq_true, if_false, Bool.false_and, Bool.false_or, e0]
    | true =>
      simp only [State.moveLanes, hh, hy, if_true, Bool.true_and]
      change (Warp.mapLanes _ _ _).lane l = _
      rw [hm, e0]
      by_cases hs : s.split.getLsbD l = true <;> simp only [hs, if_true, if_false, Bool.false_eq_true, Bool.true_or, Bool.false_or]

/-! ## Register writes in order -/

/-- A list of writes of distinct registers: each is written as if alone, and the rest stands. -/
theorem Arch.writes_spec (live act : Mask) (ws : List RegWrite) : ∀ (a : Arch), (ws.map (·.reg)).Nodup →
    (∀ w ∈ ws, ∀ l < 128,
      (act.getLsbD l = true ∧ ((a.handler.isSome && w.reg == 60) = true → l = 3 ∨ l = 4) →
        ((ws.foldl (fun a x => a.write live act x) a).vreg w.reg).lane l = if (a.handler.isSome && w.reg == 60) = true then recordPart l (w.val.lane l) else w.val.lane l)
      ∧ (act.getLsbD l = false ∧ live.getLsbD l = true →
        ((ws.foldl (fun a x => a.write live act x) a).vreg w.reg).lane l = (a.vreg w.reg).lane l)
      ∧ ((a.handler.isSome && w.reg == 60) = true ∧ l ≠ 3 ∧ l ≠ 4 →
        ((ws.foldl (fun a x => a.write live act x) a).vreg w.reg).lane l = (a.vreg w.reg).lane l))
    ∧ (∀ r, r ∉ ws.map (·.reg) → (ws.foldl (fun a x => a.write live act x) a).vreg r = a.vreg r
        ∧ (ws.foldl (fun a x => a.write live act x) a).bad.getLsbD r.toNat = a.bad.getLsbD r.toNat)
    ∧ (ws.foldl (fun a x => a.write live act x) a).lanes = a.lanes ∧ (ws.foldl (fun a x => a.write live act x) a).preds = a.preds
    ∧ (ws.foldl (fun a x => a.write live act x) a).sets = a.sets
    ∧ (ws.foldl (fun a x => a.write live act x) a).handler.map (fun h => (h.mask, h.pc, h.epc, h.blk))
        = a.handler.map fun h => (h.mask, h.pc, h.epc, h.blk) := by
  induction ws with
  | nil => intro a _; simp
  | cons w ws ih =>
    intro a hn
    simp only [List.map_cons, List.nodup_cons] at hn
    obtain ⟨hw, hn⟩ := hn
    obtain ⟨i1, i2, i3, i4, i5, i6⟩ := ih (a.write live act w) hn
    obtain ⟨r1, r2, r3, r4⟩ := Arch.write_rest live act a w
    have hs : (a.write live act w).handler.isSome = a.handler.isSome := by
      have := congrArg Option.isSome r4
      simpa using this
    simp only [List.foldl_cons]
    refine ⟨?_, ?_, i3.trans r1, i4.trans r2, i5.trans r3, i6.trans r4⟩
    · intro w' hw' l hl
      rcases List.mem_cons.1 hw' with e | hm
      · subst e
        rw [(i2 w'.reg hw).1]
        exact Arch.vreg_write_lane live act a w' l hl
      · have hne : w'.reg ≠ w.reg := fun e => hw (e ▸ List.mem_map_of_mem hm)
        have := i1 w' hm l hl
        rw [hs, Arch.vreg_write_ne live act a w w'.reg hne] at this
        exact this
    · intro r hr
      simp only [List.map_cons, List.mem_cons, not_or] at hr
      exact ⟨((i2 r hr.2).1).trans (Arch.vreg_write_ne live act a w r hr.1), ((i2 r hr.2).2).trans (Arch.write_bad live act a w r hr.1)⟩

/-- A list of writes of distinct predicates: each is written as if alone, and the rest stands. -/
theorem Arch.writePreds_spec (act : Mask) (ps : List (PReg × Mask)) : ∀ (a : Arch), (ps.map (·.1)).Nodup →
    (∀ q ∈ ps, ∀ l < 128, ((ps.foldl (fun a p => a.writePred act p.1 p.2) a).pred q.1).getLsbD l =
      if q.1 = 7 then true else if act.getLsbD l = true then q.2.getLsbD l else (a.pred q.1).getLsbD l)
    ∧ (∀ p, p ∉ ps.map (·.1) → (ps.foldl (fun a p => a.writePred act p.1 p.2) a).pred p = a.pred p)
    ∧ ps.foldl (fun a p => a.writePred act p.1 p.2) a = { a with preds := (ps.foldl (fun a p => a.writePred act p.1 p.2) a).preds } := by
  induction ps with
  | nil => intro a _; simp
  | cons q ps ih =>
    intro a hn
    simp only [List.map_cons, List.nodup_cons] at hn
    obtain ⟨hq, hn⟩ := hn
    obtain ⟨i1, i2, i3⟩ := ih (a.writePred act q.1 q.2) hn
    simp only [List.foldl_cons]
    have hother : ∀ p, p ≠ q.1 → (a.writePred act q.1 q.2).pred p = a.pred p := by
      intro p hp
      apply BitVec.eq_of_getLsbD_eq
      intro l hl
      rw [Arch.pred_writePred _ _ _ _ _ _ hl]
      by_cases h7 : p = 7
      · subst h7; simp only [if_true, Arch.pred]; rw [BitVec.getLsbD_allOnes]; simp [hl]
      · simp only [h7, hp, false_and, if_false]
    refine ⟨?_, ?_, ?_⟩
    · intro p hp l hl
      rcases List.mem_cons.1 hp with e | hm
      · subst e
        rw [i2 p.1 hq, Arch.pred_writePred _ _ _ _ _ _ hl]
        simp only [true_and]
      · have hne : p.1 ≠ q.1 := fun e => hq (e ▸ List.mem_map_of_mem hm)
        rw [i1 p hm l hl, hother p.1 hne]
    · intro p hp
      simp only [List.map_cons, List.mem_cons, not_or] at hp
      rw [i2 p hp.2, hother p hp.1]
    · generalize ps.foldl (fun a p => a.writePred act p.1 p.2) (a.writePred act q.1 q.2) = b at i3 ⊢
      rw [Arch.writePred_rest act a q.1 q.2] at i3
      exact i3

/-! ## Room -/

/-- The bindings of a ready instruction fit (R60). -/
theorem State.Ready.fits {s : State} {c : Ctl} {names ds : List Reg} {flat : Bool} (h : s.Ready c names ds flat) (ws : List RegWrite)
    (hds : ws.map (·.reg) = ds) (hf : flat = true → ∀ w ∈ ws, w.val.isG = false) : s.cur.overflow (s.act c) ws = none := by
  rcases h.room with ⟨hflat, hw⟩ | hroom
  · have key : ∀ xs : List RegWrite, (∀ x ∈ xs, x ∈ ws) →
        (xs.filter fun x => (mergeWrite s.cur.live (s.act c) (s.cur.arch.vregs.getD x.reg.toNat (.u 0)) x.val).isG
          && !(s.cur.arch.vregs.getD x.reg.toNat (.u 0)).isG) = [] := by
      intro xs hx
      rw [List.filter_eq_nil_iff]
      intro x hm
      rw [mergeWrite_isG, hw, hf hflat x (hx x hm)]; simp
    simp only [Warp.overflow]
    rw [key]
    · simp
    · intro x hx; split at hx
      · exact (List.mem_filter.1 hx).1
      · exact hx
  · have key : ∀ (P : RegWrite → Bool) (Q : Reg → Bool) (xs : List RegWrite), (∀ x, P x = true → Q x.reg = true) →
        (xs.filter P).length ≤ ((xs.map (·.reg)).filter Q).length := by
      intro P Q xs hx
      induction xs with
      | nil => simp
      | cons x xs ih =>
        simp only [List.filter_cons, List.map_cons]
        by_cases hp : P x = true
        · simp only [hp, hx x hp, if_true, List.length_cons]; omega
        · simp only [hp, if_false, Bool.false_eq_true]; split <;> (try simp only [List.length_cons]) <;> omega
    have hlen : (((if s.cur.inHandler = true then ws.filter (fun x => x.reg != 60) else ws)).filter fun x =>
        (mergeWrite s.cur.live (s.act c) (s.cur.arch.vregs.getD x.reg.toNat (.u 0)) x.val).isG
          && !(s.cur.arch.vregs.getD x.reg.toNat (.u 0)).isG).length
        ≤ (ds.filter fun d => !(s.cur.arch.vregs.getD d.toNat (.u 0)).isG && !s.isRecord d).length := by
      rw [← hds]
      by_cases hi : s.cur.inHandler = true
      · simp only [hi, if_true, List.filter_filter]
        apply key
        intro x hx
        simp only [Bool.and_eq_true, Bool.not_eq_true'] at hx
        obtain ⟨⟨h1, h2⟩, h3⟩ := hx
        have h3 : (x.reg == 60) = false := by simpa using h3
        simp only [State.isRecord, h2, h3, Bool.and_false, Bool.not_false, Bool.and_self]
      · have hi' : s.cur.inHandler = false := by simpa using hi
        simp only [hi', if_false, Bool.false_eq_true]
        apply key
        intro x hx
        simp only [Bool.and_eq_true] at hx
        simp only [State.isRecord, hi', Bool.false_and, hx.2, Bool.not_false, Bool.and_self]
    unfold State.HasRoom at hroom
    simp only [Warp.overflow]
    rw [if_neg]
    omega

/-! ## Statistics -/

/-- Counting changes only the counters of the workgroup (R88, R89). -/
theorem State.countFor_spec (s : State) (wg tid : Nat) (n : Counts) :
    s.countFor wg tid n = { s with wgs := (s.countFor wg tid n).wgs }
    ∧ (s.countFor wg tid n).wgs.map Workgroup.noStats = s.wgs.map Workgroup.noStats := by
  unfold State.countFor
  split
  · exact ⟨rfl, rfl⟩
  · refine ⟨rfl, ?_⟩
    simp only [State.mapWg, updWhere, List.map_map]
    apply List.map_congr_left
    intro g _
    simp only [Function.comp]
    split <;> [split; skip] <;> rfl

/-! ## Committing -/

/-- What a commit of a ready instruction does (R5, R31, R33, R58, R60, R61, R88): every result is written, the split advances and nothing else changes. -/
theorem State.commit_spec {s : State} {c : Ctl} {names : List Reg} {flat : Bool} (ws : List RegWrite) (ps : List (PReg × Mask)) (n : Counts)
    (hr : s.Ready c names (ws.map (·.reg)) flat) (hf : flat = true → ∀ w ∈ ws, w.val.isG = false) (hd : (ws.map (·.reg)).Nodup)
    (hp : (ps.map (·.1)).Nodup) :
    (∀ w ∈ ws, s.Wrote (s.commit c names ws ps n) c w.reg w.val.lane)
    ∧ (∀ q ∈ ps, s.WrotePred (s.commit c names ws ps n) c q.1 q.2.getLsbD)
    ∧ s.Advanced (s.commit c names ws ps n) c ∧ s.RegFrame (s.commit c names ws ps n) (ws.map (·.reg)) (ps.map (·.1))
    ∧ (s.commit c names ws ps n).wgs = (s.count c n).wgs := by
  have hnm : names.all s.cur.nameable = true := List.all_eq_true.2 hr.named
  have hfit := hr.fits ws rfl hf
  obtain ⟨w1, w2, w3, w4, w5, w6⟩ := Arch.writes_spec s.cur.live (s.act c) ws s.cur.arch hd
  obtain ⟨p1, p2, p3⟩ := Arch.writePreds_spec (s.act c) ps (ws.foldl (fun a x => a.write s.cur.live (s.act c) x) s.cur.arch) hp
  have hcom : s.commit c names ws ps n = (State.count { s with cur := { s.cur with arch := (ps.foldl (fun a p => a.writePred (s.act c) p.1 p.2)
        (ws.foldl (fun a x => a.write s.cur.live (s.act c) x) s.cur.arch)) } } c n).advance c := by
    simp only [State.commit, hnm, Bool.not_true, Bool.false_eq_true, if_false, hr.some, hfit]
  generalize ps.foldl (fun a p => a.writePred (s.act c) p.1 p.2) (ws.foldl (fun a x => a.write s.cur.live (s.act c) x) s.cur.arch) = a2
    at p1 p2 p3 hcom
  generalize ws.foldl (fun a x => a.write s.cur.live (s.act c) x) s.cur.arch = a1 at w1 w2 w3 w4 w5 w6 p1 p2 p3
  rw [hcom]
  clear hcom
  -- the state before advancing
  have k0 : (State.countFor { s with cur := { s.cur with arch := a2 } } s.cur.wg (tidOf c) n).wgs = (s.count c n).wgs := by
    unfold State.count State.countFor; split <;> rfl
  obtain ⟨k1, k2⟩ := State.countFor_spec { s with cur := { s.cur with arch := a2 } } s.cur.wg (tidOf c) n
  have hcnt : State.count { s with cur := { s.cur with arch := a2 } } c n
      = State.countFor { s with cur := { s.cur with arch := a2 } } s.cur.wg (tidOf c) n := rfl
  rw [hcnt]
  generalize State.countFor { s with cur := { s.cur with arch := a2 } } s.cur.wg (tidOf c) n = u at k0 k1 k2
  have ucur : u.cur = { s.cur with arch := a2 } := by rw [k1]
  have uipc : u.ipc = s.ipc := by rw [k1]
  have a2l : a2.lanes = s.cur.arch.lanes := by rw [p3]; exact w3
  have a2h : a2.handler = a1.handler := by rw [p3]
  have a2hs : a2.handler.isSome = s.cur.arch.handler.isSome := by rw [a2h]; simpa using congrArg Option.isSome w6
  have hin : u.cur.inHandler = s.cur.inHandler := by rw [ucur]; exact a2hs
  have hlane : ∀ l, u.cur.lane l = s.cur.lane l := by intro l; rw [ucur]; simp only [Warp.lane, Arch.lane, a2l]
  have hlive : u.cur.live = s.cur.live := by
    rw [ucur]; simp only [Warp.live, Arch.live, Arch.lane, a2l]
  have hsplit : u.split = s.split := by
    have e : ∀ pc, u.cur.splitAt pc = s.cur.splitAt pc := by
      intro pc
      have hk : u.cur.arch.handler.map (fun h => (h.mask, h.pc)) = s.cur.arch.handler.map fun h => (h.mask, h.pc) := by
        rw [ucur]; simp only [a2h]
        have := congrArg (Option.map fun x : Mask × DWord × DWord × Option HandlerBlock => (x.1, x.2.1)) w6
        simpa [Option.map_map, Function.comp_def] using this
      have hac : u.cur.acted = s.cur.acted := by rw [ucur]
      unfold Warp.splitAt
      cases h1 : u.cur.arch.handler with
      | none =>
        rw [h1] at hk
        cases h2 : s.cur.arch.handler with
        | none => simp only [hlane, hac]
        | some y => rw [h2] at hk; simp at hk
      | some x =>
        rw [h1] at hk
        cases h2 : s.cur.arch.handler with
        | none => rw [h2] at hk; simp at hk
        | some y =>
          rw [h2] at hk
          simp only [Option.map_some, Option.some.injEq, Prod.mk.injEq] at hk
          simp only [hk.1, hk.2]
    unfold State.split; rw [uipc, e]
  have hnext : u.next c = s.next c := by simp only [State.next, uipc]
  have tst := State.moveLanes_state u c (fun _ => u.next c)
  have tcur := State.moveLanes_cur u c (fun _ => u.next c)
  have tlane := State.moveLanes_lane u c (fun _ => u.next c)
  have thd := State.moveLanes_handler u c (fun _ => u.next c)
  have ht : u.advance c = u.moveLanes c fun _ => u.next c := rfl
  rw [ht]
  generalize u.moveLanes c (fun _ => u.next c) = t at tst tcur tlane thd
  -- registers and predicates of the result
  have tv : ∀ r, t.reg r = a1.vreg r := by
    intro r
    have e1 : t.cur.arch.vregs = a1.vregs := by rw [tcur, ucur, p3]
    have e2 : t.cur.arch.handler.map (·.words) = a1.handler.map (·.words) := by
      rw [thd, ucur, Option.map_map]; simp only [a2h]; rfl
    unfold State.reg Arch.vreg
    rw [e1]
    cases h1 : t.cur.arch.handler with
    | none =>
      rw [h1] at e2
      cases h2 : a1.handler with
      | none => rfl
      | some y => rw [h2] at e2; simp at e2
    | some x =>
      rw [h1] at e2
      cases h2 : a1.handler with
      | none => rw [h2] at e2; simp at e2
      | some y =>
        rw [h2] at e2
        simp only [Option.map_some, Option.some.injEq] at e2
        simp only [e2]
  have tp : ∀ p, t.cur.pred p = a2.pred p := by
    intro p
    have e1 : t.cur.arch.preds = a2.preds := by rw [tcur, ucur]
    simp only [Warp.pred, Arch.pred, e1]
  have a1p : ∀ p, a1.pred p = s.cur.pred p := by intro p; simp only [Warp.pred, Arch.pred, w4]
  refine ⟨?_, ?_, ⟨?_, ?_⟩, ?_, by rw [tst]; exact k0⟩
  · intro w hw l hl
    have := w1 w hw l hl
    simp only [State.rd, tv]
    exact this
  · intro q hq l hl
    rw [tp, p1 q hq l hl, a1p]
    rfl
  · intro l hl
    rw [tlane l hl, hlane, hin, hsplit, hnext]
  · rw [thd, Option.map_map]
    have : u.cur.arch.handler.isSome = s.cur.arch.handler.isSome := by rw [ucur]; exact a2hs
    rw [hnext]
    cases h1 : u.cur.arch.handler <;> cases h2 : s.cur.arch.handler
    · rfl
    · rw [h1, h2] at this; exact Bool.noConfusion this
    · rw [h1, h2] at this; exact Bool.noConfusion this
    · rfl
  · constructor
    · rw [tst, k1]
    · intro a; rw [tst, k1]; exact ⟨rfl, rfl⟩
    · rw [tst]; exact k2
    · rw [tcur, ucur]
    · intro r hr; rw [tv, (w2 r hr).1]; rfl
    · intro p hp; rw [tp, p2 p hp, a1p]
    · rw [tcur, ucur, p3]; exact w5
    · intro r hr
      have e : t.cur.arch.bad = a1.bad := by rw [tcur, ucur, p3]
      rw [e]; exact (w2 r hr).2
    · intro l hl
      rw [tlane l hl, hlane]
    · rw [thd, Option.map_map, ucur]
      have := congrArg (Option.map fun x : Mask × DWord × DWord × Option HandlerBlock => (x.1, x.2.2.1, x.2.2.2)) w6
      simp only [Option.map_map, Function.comp_def] at this ⊢
      rw [a2h]; exact this

/-- A meaning that commits one register yields it. -/
theorem State.yields_of_commit {s : State} {i : Instr} {c : Ctl} {names : List Reg} {d : Reg} {flat : Bool} {f : Nat → Word} {n : Counts} (v : VReg)
    (he : exec i s = .next (s.commit c names [⟨d, v⟩] [] n)) (hr : s.Ready c names [d] flat) (hf : flat = true → v.isG = false)
    (hv : ∀ l < 128, v.lane l = f l) : s.Yields i c d f n := by
  obtain ⟨h1, -, h3, h4, h5⟩ := State.commit_spec (flat := flat) [⟨d, v⟩] [] n hr (by simpa using hf) (by simp) (by simp)
  refine ⟨_, he, ?_, h3, h4, h5⟩
  intro l hl
  rw [← hv l hl]
  exact h1 ⟨d, v⟩ (by simp) l hl

/-- A pair's two registers differ. -/
theorem reg_succ_ne (d : Reg) : d ≠ d + 1 := by
  intro h
  have := congrArg BitVec.toNat h
  rw [BitVec.toNat_add] at this
  have := d.isLt
  simp at *

/-- A meaning that commits a pair yields it. -/
theorem State.yieldsPair_of_commit {s : State} {i : Instr} {c : Ctl} {names : List Reg} {d : Reg} {flat : Bool} {f : Nat → DWord} {n : Counts}
    (u v : VReg) (he : exec i s = .next (s.commit c names [⟨d, u⟩, ⟨d + 1, v⟩] [] n)) (hr : s.Ready c names [d, d + 1] flat)
    (hf : flat = true → u.isG = false ∧ v.isG = false) (hv : ∀ l < 128, u.lane l = loWord (f l) ∧ v.lane l = hiWord (f l)) :
    s.YieldsPair i c d f n := by
  obtain ⟨h1, -, h3, h4, h5⟩ := State.commit_spec (flat := flat) [⟨d, u⟩, ⟨d + 1, v⟩] [] n hr (by simpa using hf)
    (by simp) (by simp)
  refine ⟨_, he, ⟨?_, ?_⟩, h3, h4, h5⟩
  · intro l hl
    have := h1 ⟨d, u⟩ (by simp) l hl
    simp only [(hv l hl).1] at this; exact this
  · intro l hl
    have := h1 ⟨d + 1, v⟩ (by simp) l hl
    simp only [(hv l hl).2] at this; exact this

/-- A meaning that commits one predicate yields it. -/
theorem State.yieldsPred_of_commit {s : State} {i : Instr} {c : Ctl} {names : List Reg} {p : PReg} {f : Nat → Bool} {n : Counts} (v : Mask)
    (he : exec i s = .next (s.commit c names [] [(p, v)] n)) (hr : s.Ready c names [] true) (hv : ∀ l < 128, s.active c l = true → v.getLsbD l = f l) :
    s.YieldsPred i c p f n := by
  obtain ⟨-, h2, h3, h4, h5⟩ := State.commit_spec (flat := true) [] [(p, v)] n hr (by simp) (by simp) (by simp)
  refine ⟨_, he, ?_, h3, h4, h5⟩
  intro l hl
  rw [h2 (p, v) (by simp) l hl]
  split
  · rfl
  · split
    · next ha => exact hv l hl ha
    · rfl

/-! ## Values by shape (R59) -/

/-- The lanes of a result of one source. -/
theorem shape1_lane (f : Word → Word) (a : VReg) (l : Nat) (h : l < 128) : (shape1 f a).lane l = f (a.lane l) := by
  cases a <;> simp [shape1, VReg.lane, h]

/-- The lanes of a result of two sources. -/
theorem shape2_lane (f : Word → Word → Word) (a b : VReg) (l : Nat) (h : l < 128) : (shape2 f a b).lane l = f (a.lane l) (b.lane l) := by
  cases a <;> cases b <;> simp [shape2, VReg.lane, h]

/-- The lanes of a result of three sources. -/
theorem shape3_lane (f : Word → Word → Word → Word) (a b c : VReg) (l : Nat) (h : l < 128) :
    (shape3 f a b c).lane l = f (a.lane l) (b.lane l) (c.lane l) := by
  cases a <;> cases b <;> cases c <;> simp [shape3, VReg.lane, h]

/-- A result of U sources is not G. -/
theorem shape1_flat (f : Word → Word) (a : VReg) (h : a.isU = true) : (shape1 f a).isG = false := by cases a <;> simp_all [shape1, VReg.isG, VReg.isU]
/-- A result of U sources is not G. -/
theorem shape2_flat (f : Word → Word → Word) (a b : VReg) (ha : a.isU = true) (hb : b.isU = true) : (shape2 f a b).isG = false := by
  cases a <;> cases b <;> simp_all [shape2, VReg.isG, VReg.isU]
/-- A result of U sources is not G. -/
theorem shape3_flat (f : Word → Word → Word → Word) (a b c : VReg) (ha : a.isU = true) (hb : b.isU = true) (hc : c.isU = true) :
    (shape3 f a b c).isG = false := by
  cases a <;> cases b <;> cases c <;> simp_all [shape3, VReg.isG, VReg.isU]

/-- The lanes of a pair result: U in both halves when the value does not depend on the lane. -/
theorem pairResult_eq (d : Reg) (allU : Bool) (f : Nat → DWord) : pairResult d allU f =
    [⟨d, if allU then .u (loWord (f 0)) else .g (lanesOf fun l => loWord (f l))⟩,
      ⟨d + 1, if allU then .u (hiWord (f 0)) else .g (lanesOf fun l => hiWord (f l))⟩] := by
  cases allU <;> rfl

/-- A meaning that commits a pair result yields it. -/
theorem State.yieldsPair_of_pairResult {s : State} {i : Instr} {c : Ctl} {names : List Reg} {d : Reg} {flat : Bool} {f g : Nat → DWord} {n : Counts}
    (he : exec i s = .next (s.commit c names (pairResult d flat g) [] n)) (hr : s.Ready c names [d, d + 1] flat)
    (hu : flat = true → ∀ l, g l = g 0) (hv : ∀ l < 128, g l = f l) : s.YieldsPair i c d f n := by
  rw [pairResult_eq] at he
  refine State.yieldsPair_of_commit _ _ he hr (by intro h; subst h; exact ⟨rfl, rfl⟩) ?_
  intro l hl
  rw [← hv l hl]
  cases flat with
  | false => exact ⟨by simp [VReg.lane, hl], by simp [VReg.lane, hl]⟩
  | true => rw [hu rfl l]; exact ⟨rfl, rfl⟩

/-- A U register holds one value. -/
theorem VReg.isU_lane (a : VReg) (h : a.isU = true) (l k : Nat) : a.lane l = a.lane k := by cases a <;> simp_all [VReg.isU, VReg.lane]
/-- A U pair holds one value. -/
theorem State.pairU_eq (s : State) (a : Reg) (h : s.pairU a = true) (l k : Nat) : s.rdPair a l = s.rdPair a k := by
  simp only [State.pairU, Bool.and_eq_true] at h
  simp only [State.rdPair, State.rd, VReg.isU_lane _ h.1 l k, VReg.isU_lane _ h.2 l k]
/-- A U second source holds one value. -/
theorem Src.pairU_eq (b : Src) (s : State) (h : b.pairU s = true) (l k : Nat) : b.pair s l = b.pair s k := by
  cases b with
  | reg r => exact State.pairU_eq s r h l k
  | imm x => rfl

end Sys2Proof.Machine
end

