-- ==== Sys2Proof/Laws/Control.lean ====
section
/-! SUPPORT. What moving, parking, releasing and trapping lanes does. -/

namespace Sys2Proof.Machine

/-- Two warps with the same registers and record words read the same registers. -/
theorem Arch.vreg_congr (a b : Arch) (hv : a.vregs = b.vregs) (hw : a.handler.map (·.words) = b.handler.map (·.words)) (r : Reg) :
    a.vreg r = b.vreg r := by
  unfold Arch.vreg
  rw [hv]
  cases h1 : a.handler <;> cases h2 : b.handler <;> simp_all

/-- Moving the lanes moves them and changes nothing else. -/
theorem State.moveLanes_spec (s : State) (c : Ctl) (f : Nat → DWord) :
    s.Moved (s.moveLanes c f) f ∧ s.WarpFrame (s.moveLanes c f) [] Lane.noPc ∧ (s.moveLanes c f).cur.arch.sets = s.cur.arch.sets
      ∧ (s.moveLanes c f).cur.acted = s.cur.acted := by
  have h1 := State.moveLanes_state s c f
  have h2 := State.moveLanes_cur s c f
  have h3 := State.moveLanes_handler s c f
  have h4 := State.moveLanes_lane s c f
  refine ⟨⟨fun l hl => ?_, ?_⟩, ⟨h1, ?_, ?_, ?_, ?_, ?_, ?_⟩, ?_, ?_⟩
  · rw [h4 l hl]
  · rw [h3, Option.map_map]; rfl
  · rw [h2]
  · intro r _
    refine Arch.vreg_congr _ _ (by rw [h2]) ?_ r
    rw [h3, Option.map_map]; rfl
  · intro p; simp only [Warp.pred]; rw [h2]
  · intro r _; rw [h2]
  · intro l hl; rw [h4 l hl]; rfl
  · rw [h3, Option.map_map]; rfl
  · rw [h2]
  · rw [h2]

/-- The sets and the lanes after the release rule (R50). -/
theorem Warp.releaseSets_spec (w : Warp) (f : Nat → RejoinSet) (hlen : w.arch.sets.length = 16) (hf : ∀ k < 16, w.arch.sets.getD k .empty = f k) :
    (∀ k < 16, w.releaseSets.arch.sets.getD k .empty = if (f k).full then { f k with w := 0 } else f k)
    ∧ (∀ l < 128, w.releaseSets.lane l = if freed f l = true ∧ (w.lane l).st = .parked then { w.lane l with st := .runnable, wait := 0 } else w.lane l)
    ∧ w.releaseSets = { w with arch := { w.arch with lanes := w.releaseSets.arch.lanes, sets := w.releaseSets.arch.sets }, acted := w.releaseSets.acted } := by
  have hs : ∀ k < 16, w.arch.sets[k]? = some (f k) := by
    intro k hk
    have := hf k hk
    rw [List.getD_eq_getElem?_getD, List.getElem?_eq_getElem (by omega)] at this
    rw [List.getElem?_eq_getElem (by omega)]; simpa using this
  refine ⟨?_, ?_, rfl⟩
  · intro k hk
    simp only [Warp.releaseSets, List.getD_eq_getElem?_getD, List.getElem?_map, hs k hk, Option.map_some, Option.getD_some, RejoinSet.full]
    rfl
  · intro l hl
    have key : ∀ (xs : List RejoinSet) (m : Mask),
        (xs.foldl (fun m j => if j.m != 0 && j.m == j.w then m ||| j.w else m) m).getLsbD l
          = (m.getLsbD l || xs.any fun j => j.full && j.w.getLsbD l) := by
      intro xs
      induction xs with
      | nil => intro m; simp
      | cons x xs ih =>
        intro m
        simp only [List.foldl_cons, ih, List.any_cons]
        by_cases hx : (x.m != 0 && x.m == x.w) = true
        · have hx' : x.full = true := hx
          rw [if_pos hx, BitVec.getLsbD_or, hx', Bool.true_and, Bool.or_assoc]
        · have hx' : x.full = false := by simpa [RejoinSet.full] using hx
          rw [if_neg hx, hx', Bool.false_and, Bool.false_or]
    have hany : (w.arch.sets.any fun j => j.full && j.w.getLsbD l) = freed f l := by
      unfold freed
      rw [Bool.eq_iff_iff, List.any_eq_true, List.any_eq_true]
      constructor
      · rintro ⟨x, hx, h⟩
        obtain ⟨k, hk, rfl⟩ := List.getElem_of_mem hx
        have hk16 : k < 16 := hlen ▸ hk
        have e := hs k hk16
        rw [List.getElem?_eq_getElem hk, Option.some.injEq] at e
        exact ⟨k, List.mem_range.2 hk16, e ▸ h⟩
      · rintro ⟨k, hk, h⟩
        rw [List.mem_range] at hk
        exact ⟨f k, List.mem_of_getElem? (hs k hk), h⟩
    have e : w.releaseSets.lane l = (w.mapLanes (w.arch.sets.foldl (fun m j => if j.m != 0 && j.m == j.w then m ||| j.w else m) 0)
        fun _ x => if x.st = .parked then { x with st := .runnable, wait := 0 } else x).lane l := rfl
    rw [e, Warp.lane_mapLanes _ _ _ l hl, key, hany, show BitVec.getLsbD (0 : Mask) l = false from BitVec.getLsbD_zero, Bool.false_or]
    by_cases h1 : freed f l = true <;> by_cases h2 : (w.lane l).st = .parked <;> simp [h1, h2]

/-- Replacing a set and releasing (R49, R50). -/
theorem State.putSet_spec (s : State) (j : SetNo) (x : RejoinSet) :
    (s.putSet j x).SetsAre (fun k => if k = j.toNat then x else s.setNo k)
    ∧ (∀ l < 128, (s.putSet j x).cur.lane l =
        if freed (fun k => if k = j.toNat then x else s.setNo k) l = true ∧ (s.cur.lane l).st = .parked
        then { s.cur.lane l with st := .runnable, wait := 0 } else s.cur.lane l)
    ∧ s.putSet j x = { s with cur := { s.cur with
        arch := { s.cur.arch with lanes := (s.putSet j x).cur.arch.lanes, sets := (s.putSet j x).cur.arch.sets }
        acted := (s.putSet j x).cur.acted } } := by
  obtain ⟨h1, h2, h3⟩ := Warp.releaseSets_spec { s.cur with arch := { s.cur.arch with sets := putAt 16 .empty j.toNat x s.cur.arch.sets } }
    (fun k => if k = j.toNat then x else s.setNo k) (by simp [putAt]) (by
      intro k hk
      simp only [List.getD_eq_getElem?_getD, getElem?_putAt, hk, if_true, Option.getD_some, State.setNo])
  exact ⟨h1, h2, rfl⟩

/-- Lanes that exit (R41, R49, R50). -/
theorem Warp.exitLanes_spec (w : Warp) (m : Mask) (f : Nat → RejoinSet)
    (hf : ∀ k, f k = RejoinSet.norm { w.arch.sets.getD k .empty with m := (w.arch.sets.getD k .empty).m &&& ~~~ m, w := (w.arch.sets.getD k .empty).w &&& ~~~ m }) :
    (∀ k < 16, (w.exitLanes m).arch.sets.getD k .empty = if (f k).full then { f k with w := 0 } else f k)
    ∧ (∀ l < 128, (w.exitLanes m).lane l =
        if m.getLsbD l = true then { w.lane l with st := .exited }
        else if freed f l = true ∧ (w.lane l).st = .parked then { w.lane l with st := .runnable, wait := 0 } else w.lane l)
    ∧ w.exitLanes m = { w with
        arch := { w.arch with lanes := (w.exitLanes m).arch.lanes, sets := (w.exitLanes m).arch.sets }
        acted := (w.exitLanes m).acted } := by
  let w1 := w.mapLanes m fun _ x => { x with st := .exited }
  let w2 : Warp := { w1 with arch := { w1.arch with
    sets := (List.range 16).map fun k =>
      let j := w1.arch.sets.getD k .empty
      RejoinSet.norm { j with m := j.m &&& ~~~ m, w := j.w &&& ~~~ m } } }
  obtain ⟨h1, h2, -⟩ := Warp.releaseSets_spec w2 f (by simp [w2]) (by
    intro k hk
    simp only [w2, List.getD_eq_getElem?_getD, List.getElem?_map, List.getElem?_range hk, Option.map_some, Option.getD_some]
    rw [hf]; rfl)
  have hl : ∀ l < 128, w2.lane l = if m.getLsbD l then { w.lane l with st := .exited } else w.lane l := by
    intro l hl
    exact Warp.lane_mapLanes w m (fun _ x => { x with st := .exited }) l hl
  refine ⟨h1, ?_, rfl⟩
  intro l hl'
  rw [show (w.exitLanes m).lane l = w2.releaseSets.lane l from rfl, h2 l hl', hl l hl']
  by_cases hm : m.getLsbD l = true
  · simp [hm]
  · simp only [hm, if_false, Bool.false_eq_true]

/-! ## Lanes and masks -/

/-- A lane of a mask is below 128. -/
theorem lane_lt {m : Mask} {l : Nat} (h : m.getLsbD l = true) : l < 128 := by
  by_contra hx
  rw [BitVec.getLsbD_of_ge _ _ (by omega)] at h
  simp at h

/-- An active lane is one of the split. -/
theorem State.split_of_active {s : State} {c : Ctl} {l : Nat} (h : s.active c l = true) : s.split.getLsbD l = true := by
  simp only [State.active, State.act] at h
  rw [BitVec.getLsbD_and] at h
  exact (Bool.and_eq_true_iff.1 h).1

/-- A mask that is not empty has a lane. -/
theorem State.exists_active {s : State} {c : Ctl} (h : s.act c ≠ 0) : ∃ l < 128, s.active c l = true := by
  by_contra hx
  apply h
  apply BitVec.eq_of_getLsbD_eq
  intro l hl
  rw [show BitVec.getLsbD (0 : Mask) l = false from BitVec.getLsbD_zero]
  by_contra hn
  exact hx ⟨l, hl, by simpa [State.active] using hn⟩

/-- Outside the handler a lane of the split is Runnable (R33). -/
theorem State.split_runnable {s : State} (hi : s.cur.inHandler = false) {l : Nat} (h : s.split.getLsbD l = true) :
    (s.cur.lane l).st = .runnable := by
  have hh : s.cur.arch.handler = none := by simpa [Warp.inHandler] using hi
  unfold State.split Warp.splitAt at h
  simp only [hh, getLsbD_maskOf] at h
  simp only [Lane.runnable, Bool.and_eq_true, beq_iff_eq, decide_eq_true_eq] at h
  exact h.2.1.1

/-- Lanes equal but for the PC and the mark are equal but for more. -/
theorem noDepth_of_noPc {x y : Lane} (h : Lane.noPc x = Lane.noPc y) : Lane.noDepth x = Lane.noDepth y := by
  have : ∀ z : Lane, Lane.noDepth z = { Lane.noPc z with depth := 0 } := fun _ => rfl
  rw [this, this, h]
/-- Lanes equal but for the PC and the mark have one depth. -/
theorem depth_of_noPc {x y : Lane} (h : Lane.noPc x = Lane.noPc y) : x.depth = y.depth := by
  simpa [Lane.noPc] using congrArg Lane.depth h
/-- Lanes equal but for the PC and the mark have one state. -/
theorem state_of_noPc {x y : Lane} (h : Lane.noPc x = Lane.noPc y) : x.st = y.st ∧ x.wait = y.wait :=
  ⟨by simpa [Lane.noPc] using congrArg Lane.st h, by simpa [Lane.noPc] using congrArg Lane.wait h⟩
/-- Lanes equal but for the PC and the mark are equal but for more. -/
theorem noState_of_noPc {x y : Lane} (h : Lane.noPc x = Lane.noPc y) : Lane.noState x = Lane.noState y := by
  have : ∀ z : Lane, Lane.noState z = { Lane.noPc z with st := .runnable, wait := 0, bpc := 0 } := fun _ => rfl
  rw [this, this, h]

end Sys2Proof.Machine
end

