-- ==== Sys2Proof/Laws/Integer.lean ====
section
/-! SUPPORT. The exact integer results and the affine shapes in the terms of Safety. -/

namespace Sys2Proof.Machine

/-- The signed value of a bit vector. -/
theorem signedVal_toInt {n : Nat} (hn : 0 < n) (x : BitVec n) : signedVal n x.toNat = x.toInt := by
  unfold signedVal BitVec.toInt
  have h := x.isLt
  rw [Nat.mod_eq_of_lt h]
  have e : 2 ^ n = 2 * 2 ^ (n - 1) := by rw [← Nat.pow_succ']; congr 1; omega
  by_cases hx : x.toNat < 2 ^ (n - 1)
  · rw [if_pos hx, if_pos (by omega)]
  · rw [if_neg hx, if_neg (by omega)]; norm_cast

/-- An operand read by UN (R327). -/
theorem readInt_intOf {n : Nat} (hn : 0 < n) (un : Bool) (x : BitVec n) : readInt un n x.toNat = intOf un x := by
  unfold readInt intOf
  split
  · rw [Nat.mod_eq_of_lt x.isLt]
  · exact signedVal_toInt hn x

/-- Wrapping an integer to n bits. -/
theorem wrapInt_ofInt (n : Nat) (t : Int) : BitVec.ofNat n (wrapInt n t) = BitVec.ofInt n t := by
  apply BitVec.eq_of_toNat_eq
  rw [BitVec.toNat_ofNat, BitVec.toNat_ofInt, wrapInt]
  have : (0:Int) < 2 ^ n := by positivity
  have h1 := Int.emod_nonneg t (ne_of_gt this)
  have h2 := Int.emod_lt_of_pos t this
  norm_cast at *
  rw [Nat.mod_eq_of_lt (by omega)]

/-- An exact result brought to n bits, and its count (R71, R78, R327). -/
theorem narrow_eq (un sat : Bool) (n : Nat) (t : Int) :
    BitVec.ofNat n (narrow un sat n t).1 = fitInt un sat n t ∧ (narrow un sat n t).2 = fitCount un sat n t := by
  unfold narrow fitInt fitCount clampInt
  cases sat
  · simp [wrapInt_ofInt]
  · cases un <;> simp only [if_true, wrapInt_ofInt, Bool.false_eq_true, if_false, true_and]
    · split <;> simp_all
    · split <;> simp_all

/-- An operand read as an integer and written back. -/
theorem ofInt_intOf {n : Nat} (un : Bool) (x : BitVec n) : BitVec.ofInt n (intOf un x) = x := by
  unfold intOf; split
  · simp
  · simp

/-- The lanes of a U or A register (R57). -/
theorem affine_lane {v : VReg} {b : Word × Word} (h : v.affine = some b) (l : Nat) : v.lane l = b.1 + b.2 * BitVec.ofNat 32 l := by
  cases v <;> simp [VReg.affine] at h <;> subst h <;> simp [VReg.lane]

/-- The lanes of an affine result. -/
theorem mkAffine_lane (u : Bool) (b st : Word) (hu : u = true → st = 0) (l : Nat) : (mkAffine u b st).lane l = b + st * BitVec.ofNat 32 l := by
  cases u <;> simp [mkAffine, VReg.lane]
  rw [hu rfl]; simp

/-- An affine result is not G. -/
theorem mkAffine_isG (u : Bool) (b st : Word) : (mkAffine u b st).isG = false := by cases u <;> rfl

/-- A U register has stride 0. -/
theorem affine_isU {v : VReg} {b : Word × Word} (h : v.affine = some b) (hu : v.isU = true) : b.2 = 0 := by
  cases v <;> simp [VReg.affine, VReg.isU] at *; subst h; rfl

/-- A register that is not G has a base and a stride. -/
theorem affine_of_flat {v : VReg} (h : v.isG = false) : ∃ b, v.affine = some b := by cases v <;> simp_all [VReg.affine, VReg.isG]

end Sys2Proof.Machine
end

