-- ==== Sys2Proof/Laws/State.lean ====
section
/-! SUPPORT. What each update of State leaves alone: one lemma per update and field, true by definition, so that no proof unfolds a record update. -/

namespace Sys2Proof.Machine

/-! ## mapWarp -/

@[simp] theorem State.mapWarp_cur (s : State) (uid : Nat) (f : Warp → Warp) : (s.mapWarp uid f).cur = if s.cur.uid = uid then f s.cur else s.cur := rfl
@[simp] theorem State.mapWarp_others (s : State) (uid : Nat) (f : Warp → Warp) : (s.mapWarp uid f).others = updWhere (fun w => w.uid == uid) f s.others := rfl
@[simp] theorem State.mapWarp_ipc (s : State) (uid : Nat) (f : Warp → Warp) : (s.mapWarp uid f).ipc = s.ipc := rfl
@[simp] theorem State.mapWarp_parts (s : State) (uid : Nat) (f : Warp → Warp) : (s.mapWarp uid f).parts = s.parts := rfl
@[simp] theorem State.mapWarp_wgs (s : State) (uid : Nat) (f : Warp → Warp) : (s.mapWarp uid f).wgs = s.wgs := rfl
@[simp] theorem State.mapWarp_launches (s : State) (uid : Nat) (f : Warp → Warp) : (s.mapWarp uid f).launches = s.launches := rfl
@[simp] theorem State.mapWarp_arrays (s : State) (uid : Nat) (f : Warp → Warp) : (s.mapWarp uid f).arrays = s.arrays := rfl
@[simp] theorem State.mapWarp_mem (s : State) (uid : Nat) (f : Warp → Warp) : (s.mapWarp uid f).mem = s.mem := rfl
@[simp] theorem State.mapWarp_reqs (s : State) (uid : Nat) (f : Warp → Warp) : (s.mapWarp uid f).reqs = s.reqs := rfl
@[simp] theorem State.mapWarp_conds (s : State) (uid : Nat) (f : Warp → Warp) : (s.mapWarp uid f).conds = s.conds := rfl
@[simp] theorem State.mapWarp_tasks (s : State) (uid : Nat) (f : Warp → Warp) : (s.mapWarp uid f).tasks = s.tasks := rfl
@[simp] theorem State.mapWarp_copy (s : State) (uid : Nat) (f : Warp → Warp) : (s.mapWarp uid f).copy = s.copy := rfl
@[simp] theorem State.mapWarp_cards (s : State) (uid : Nat) (f : Warp → Warp) : (s.mapWarp uid f).cards = s.cards := rfl
@[simp] theorem State.mapWarp_tide (s : State) (uid : Nat) (f : Warp → Warp) : (s.mapWarp uid f).tide = s.tide := rfl
@[simp] theorem State.mapWarp_cc (s : State) (uid : Nat) (f : Warp → Warp) : (s.mapWarp uid f).cc = s.cc := rfl
@[simp] theorem State.mapWarp_ctl (s : State) (uid : Nat) (f : Warp → Warp) : (s.mapWarp uid f).ctl = s.ctl := rfl
@[simp] theorem State.mapWarp_grants (s : State) (uid : Nat) (f : Warp → Warp) : (s.mapWarp uid f).grants = s.grants := rfl
@[simp] theorem State.mapWarp_boot (s : State) (uid : Nat) (f : Warp → Warp) : (s.mapWarp uid f).boot = s.boot := rfl
@[simp] theorem State.mapWarp_throttled (s : State) (uid : Nat) (f : Warp → Warp) : (s.mapWarp uid f).throttled = s.throttled := rfl
@[simp] theorem State.mapWarp_hostOut (s : State) (uid : Nat) (f : Warp → Warp) : (s.mapWarp uid f).hostOut = s.hostOut := rfl
@[simp] theorem State.mapWarp_hostDue (s : State) (uid : Nat) (f : Warp → Warp) : (s.mapWarp uid f).hostDue = s.hostDue := rfl
@[simp] theorem State.mapWarp_notices (s : State) (uid : Nat) (f : Warp → Warp) : (s.mapWarp uid f).notices = s.notices := rfl
@[simp] theorem State.mapWarp_turns (s : State) (uid : Nat) (f : Warp → Warp) : (s.mapWarp uid f).turns = s.turns := rfl
@[simp] theorem State.mapWarp_fresh (s : State) (uid : Nat) (f : Warp → Warp) : (s.mapWarp uid f).fresh = s.fresh := rfl
@[simp] theorem State.mapWarp_nextId (s : State) (uid : Nat) (f : Warp → Warp) : (s.mapWarp uid f).nextId = s.nextId := rfl

/-! ## mapWarps -/

@[simp] theorem State.mapWarps_cur (s : State) (f : Warp → Warp) : (s.mapWarps f).cur = f s.cur := rfl
@[simp] theorem State.mapWarps_others (s : State) (f : Warp → Warp) : (s.mapWarps f).others = s.others.map f := rfl
@[simp] theorem State.mapWarps_ipc (s : State) (f : Warp → Warp) : (s.mapWarps f).ipc = s.ipc := rfl
@[simp] theorem State.mapWarps_parts (s : State) (f : Warp → Warp) : (s.mapWarps f).parts = s.parts := rfl
@[simp] theorem State.mapWarps_wgs (s : State) (f : Warp → Warp) : (s.mapWarps f).wgs = s.wgs := rfl
@[simp] theorem State.mapWarps_launches (s : State) (f : Warp → Warp) : (s.mapWarps f).launches = s.launches := rfl
@[simp] theorem State.mapWarps_arrays (s : State) (f : Warp → Warp) : (s.mapWarps f).arrays = s.arrays := rfl
@[simp] theorem State.mapWarps_mem (s : State) (f : Warp → Warp) : (s.mapWarps f).mem = s.mem := rfl
@[simp] theorem State.mapWarps_reqs (s : State) (f : Warp → Warp) : (s.mapWarps f).reqs = s.reqs := rfl
@[simp] theorem State.mapWarps_conds (s : State) (f : Warp → Warp) : (s.mapWarps f).conds = s.conds := rfl
@[simp] theorem State.mapWarps_tasks (s : State) (f : Warp → Warp) : (s.mapWarps f).tasks = s.tasks := rfl
@[simp] theorem State.mapWarps_copy (s : State) (f : Warp → Warp) : (s.mapWarps f).copy = s.copy := rfl
@[simp] theorem State.mapWarps_cards (s : State) (f : Warp → Warp) : (s.mapWarps f).cards = s.cards := rfl
@[simp] theorem State.mapWarps_tide (s : State) (f : Warp → Warp) : (s.mapWarps f).tide = s.tide := rfl
@[simp] theorem State.mapWarps_cc (s : State) (f : Warp → Warp) : (s.mapWarps f).cc = s.cc := rfl
@[simp] theorem State.mapWarps_ctl (s : State) (f : Warp → Warp) : (s.mapWarps f).ctl = s.ctl := rfl
@[simp] theorem State.mapWarps_grants (s : State) (f : Warp → Warp) : (s.mapWarps f).grants = s.grants := rfl
@[simp] theorem State.mapWarps_boot (s : State) (f : Warp → Warp) : (s.mapWarps f).boot = s.boot := rfl
@[simp] theorem State.mapWarps_throttled (s : State) (f : Warp → Warp) : (s.mapWarps f).throttled = s.throttled := rfl
@[simp] theorem State.mapWarps_hostOut (s : State) (f : Warp → Warp) : (s.mapWarps f).hostOut = s.hostOut := rfl
@[simp] theorem State.mapWarps_hostDue (s : State) (f : Warp → Warp) : (s.mapWarps f).hostDue = s.hostDue := rfl
@[simp] theorem State.mapWarps_notices (s : State) (f : Warp → Warp) : (s.mapWarps f).notices = s.notices := rfl
@[simp] theorem State.mapWarps_turns (s : State) (f : Warp → Warp) : (s.mapWarps f).turns = s.turns := rfl
@[simp] theorem State.mapWarps_fresh (s : State) (f : Warp → Warp) : (s.mapWarps f).fresh = s.fresh := rfl
@[simp] theorem State.mapWarps_nextId (s : State) (f : Warp → Warp) : (s.mapWarps f).nextId = s.nextId := rfl

/-! ## mapWg -/

@[simp] theorem State.mapWg_cur (s : State) (k : Nat) (f : Workgroup → Workgroup) : (s.mapWg k f).cur = s.cur := rfl
@[simp] theorem State.mapWg_others (s : State) (k : Nat) (f : Workgroup → Workgroup) : (s.mapWg k f).others = s.others := rfl
@[simp] theorem State.mapWg_ipc (s : State) (k : Nat) (f : Workgroup → Workgroup) : (s.mapWg k f).ipc = s.ipc := rfl
@[simp] theorem State.mapWg_parts (s : State) (k : Nat) (f : Workgroup → Workgroup) : (s.mapWg k f).parts = s.parts := rfl
@[simp] theorem State.mapWg_wgs (s : State) (k : Nat) (f : Workgroup → Workgroup) : (s.mapWg k f).wgs = updWhere (fun g => g.key == k) f s.wgs := rfl
@[simp] theorem State.mapWg_launches (s : State) (k : Nat) (f : Workgroup → Workgroup) : (s.mapWg k f).launches = s.launches := rfl
@[simp] theorem State.mapWg_arrays (s : State) (k : Nat) (f : Workgroup → Workgroup) : (s.mapWg k f).arrays = s.arrays := rfl
@[simp] theorem State.mapWg_mem (s : State) (k : Nat) (f : Workgroup → Workgroup) : (s.mapWg k f).mem = s.mem := rfl
@[simp] theorem State.mapWg_reqs (s : State) (k : Nat) (f : Workgroup → Workgroup) : (s.mapWg k f).reqs = s.reqs := rfl
@[simp] theorem State.mapWg_conds (s : State) (k : Nat) (f : Workgroup → Workgroup) : (s.mapWg k f).conds = s.conds := rfl
@[simp] theorem State.mapWg_tasks (s : State) (k : Nat) (f : Workgroup → Workgroup) : (s.mapWg k f).tasks = s.tasks := rfl
@[simp] theorem State.mapWg_copy (s : State) (k : Nat) (f : Workgroup → Workgroup) : (s.mapWg k f).copy = s.copy := rfl
@[simp] theorem State.mapWg_cards (s : State) (k : Nat) (f : Workgroup → Workgroup) : (s.mapWg k f).cards = s.cards := rfl
@[simp] theorem State.mapWg_tide (s : State) (k : Nat) (f : Workgroup → Workgroup) : (s.mapWg k f).tide = s.tide := rfl
@[simp] theorem State.mapWg_cc (s : State) (k : Nat) (f : Workgroup → Workgroup) : (s.mapWg k f).cc = s.cc := rfl
@[simp] theorem State.mapWg_ctl (s : State) (k : Nat) (f : Workgroup → Workgroup) : (s.mapWg k f).ctl = s.ctl := rfl
@[simp] theorem State.mapWg_grants (s : State) (k : Nat) (f : Workgroup → Workgroup) : (s.mapWg k f).grants = s.grants := rfl
@[simp] theorem State.mapWg_boot (s : State) (k : Nat) (f : Workgroup → Workgroup) : (s.mapWg k f).boot = s.boot := rfl
@[simp] theorem State.mapWg_throttled (s : State) (k : Nat) (f : Workgroup → Workgroup) : (s.mapWg k f).throttled = s.throttled := rfl
@[simp] theorem State.mapWg_hostOut (s : State) (k : Nat) (f : Workgroup → Workgroup) : (s.mapWg k f).hostOut = s.hostOut := rfl
@[simp] theorem State.mapWg_hostDue (s : State) (k : Nat) (f : Workgroup → Workgroup) : (s.mapWg k f).hostDue = s.hostDue := rfl
@[simp] theorem State.mapWg_notices (s : State) (k : Nat) (f : Workgroup → Workgroup) : (s.mapWg k f).notices = s.notices := rfl
@[simp] theorem State.mapWg_turns (s : State) (k : Nat) (f : Workgroup → Workgroup) : (s.mapWg k f).turns = s.turns := rfl
@[simp] theorem State.mapWg_fresh (s : State) (k : Nat) (f : Workgroup → Workgroup) : (s.mapWg k f).fresh = s.fresh := rfl
@[simp] theorem State.mapWg_nextId (s : State) (k : Nat) (f : Workgroup → Workgroup) : (s.mapWg k f).nextId = s.nextId := rfl

/-! ## mapArray -/

@[simp] theorem State.mapArray_cur (s : State) (k p : Nat) (f : ArrayRec → ArrayRec) : (s.mapArray k p f).cur = s.cur := rfl
@[simp] theorem State.mapArray_others (s : State) (k p : Nat) (f : ArrayRec → ArrayRec) : (s.mapArray k p f).others = s.others := rfl
@[simp] theorem State.mapArray_ipc (s : State) (k p : Nat) (f : ArrayRec → ArrayRec) : (s.mapArray k p f).ipc = s.ipc := rfl
@[simp] theorem State.mapArray_parts (s : State) (k p : Nat) (f : ArrayRec → ArrayRec) : (s.mapArray k p f).parts = s.parts := rfl
@[simp] theorem State.mapArray_wgs (s : State) (k p : Nat) (f : ArrayRec → ArrayRec) : (s.mapArray k p f).wgs = s.wgs := rfl
@[simp] theorem State.mapArray_launches (s : State) (k p : Nat) (f : ArrayRec → ArrayRec) : (s.mapArray k p f).launches = s.launches := rfl
@[simp] theorem State.mapArray_arrays (s : State) (k p : Nat) (f : ArrayRec → ArrayRec) : (s.mapArray k p f).arrays = updWhere (fun a => a.core == k && a.phys == p) f s.arrays := rfl
@[simp] theorem State.mapArray_mem (s : State) (k p : Nat) (f : ArrayRec → ArrayRec) : (s.mapArray k p f).mem = s.mem := rfl
@[simp] theorem State.mapArray_reqs (s : State) (k p : Nat) (f : ArrayRec → ArrayRec) : (s.mapArray k p f).reqs = s.reqs := rfl
@[simp] theorem State.mapArray_conds (s : State) (k p : Nat) (f : ArrayRec → ArrayRec) : (s.mapArray k p f).conds = s.conds := rfl
@[simp] theorem State.mapArray_tasks (s : State) (k p : Nat) (f : ArrayRec → ArrayRec) : (s.mapArray k p f).tasks = s.tasks := rfl
@[simp] theorem State.mapArray_copy (s : State) (k p : Nat) (f : ArrayRec → ArrayRec) : (s.mapArray k p f).copy = s.copy := rfl
@[simp] theorem State.mapArray_cards (s : State) (k p : Nat) (f : ArrayRec → ArrayRec) : (s.mapArray k p f).cards = s.cards := rfl
@[simp] theorem State.mapArray_tide (s : State) (k p : Nat) (f : ArrayRec → ArrayRec) : (s.mapArray k p f).tide = s.tide := rfl
@[simp] theorem State.mapArray_cc (s : State) (k p : Nat) (f : ArrayRec → ArrayRec) : (s.mapArray k p f).cc = s.cc := rfl
@[simp] theorem State.mapArray_ctl (s : State) (k p : Nat) (f : ArrayRec → ArrayRec) : (s.mapArray k p f).ctl = s.ctl := rfl
@[simp] theorem State.mapArray_grants (s : State) (k p : Nat) (f : ArrayRec → ArrayRec) : (s.mapArray k p f).grants = s.grants := rfl
@[simp] theorem State.mapArray_boot (s : State) (k p : Nat) (f : ArrayRec → ArrayRec) : (s.mapArray k p f).boot = s.boot := rfl
@[simp] theorem State.mapArray_throttled (s : State) (k p : Nat) (f : ArrayRec → ArrayRec) : (s.mapArray k p f).throttled = s.throttled := rfl
@[simp] theorem State.mapArray_hostOut (s : State) (k p : Nat) (f : ArrayRec → ArrayRec) : (s.mapArray k p f).hostOut = s.hostOut := rfl
@[simp] theorem State.mapArray_hostDue (s : State) (k p : Nat) (f : ArrayRec → ArrayRec) : (s.mapArray k p f).hostDue = s.hostDue := rfl
@[simp] theorem State.mapArray_notices (s : State) (k p : Nat) (f : ArrayRec → ArrayRec) : (s.mapArray k p f).notices = s.notices := rfl
@[simp] theorem State.mapArray_turns (s : State) (k p : Nat) (f : ArrayRec → ArrayRec) : (s.mapArray k p f).turns = s.turns := rfl
@[simp] theorem State.mapArray_fresh (s : State) (k p : Nat) (f : ArrayRec → ArrayRec) : (s.mapArray k p f).fresh = s.fresh := rfl
@[simp] theorem State.mapArray_nextId (s : State) (k p : Nat) (f : ArrayRec → ArrayRec) : (s.mapArray k p f).nextId = s.nextId := rfl

/-! ## mapReq -/

@[simp] theorem State.mapReq_cur (s : State) (k : Nat) (f : Req → Req) : (s.mapReq k f).cur = s.cur := rfl
@[simp] theorem State.mapReq_others (s : State) (k : Nat) (f : Req → Req) : (s.mapReq k f).others = s.others := rfl
@[simp] theorem State.mapReq_ipc (s : State) (k : Nat) (f : Req → Req) : (s.mapReq k f).ipc = s.ipc := rfl
@[simp] theorem State.mapReq_parts (s : State) (k : Nat) (f : Req → Req) : (s.mapReq k f).parts = s.parts := rfl
@[simp] theorem State.mapReq_wgs (s : State) (k : Nat) (f : Req → Req) : (s.mapReq k f).wgs = s.wgs := rfl
@[simp] theorem State.mapReq_launches (s : State) (k : Nat) (f : Req → Req) : (s.mapReq k f).launches = s.launches := rfl
@[simp] theorem State.mapReq_arrays (s : State) (k : Nat) (f : Req → Req) : (s.mapReq k f).arrays = s.arrays := rfl
@[simp] theorem State.mapReq_mem (s : State) (k : Nat) (f : Req → Req) : (s.mapReq k f).mem = s.mem := rfl
@[simp] theorem State.mapReq_reqs (s : State) (k : Nat) (f : Req → Req) : (s.mapReq k f).reqs = updWhere (fun r => r.id == k) f s.reqs := rfl
@[simp] theorem State.mapReq_conds (s : State) (k : Nat) (f : Req → Req) : (s.mapReq k f).conds = s.conds := rfl
@[simp] theorem State.mapReq_tasks (s : State) (k : Nat) (f : Req → Req) : (s.mapReq k f).tasks = s.tasks := rfl
@[simp] theorem State.mapReq_copy (s : State) (k : Nat) (f : Req → Req) : (s.mapReq k f).copy = s.copy := rfl
@[simp] theorem State.mapReq_cards (s : State) (k : Nat) (f : Req → Req) : (s.mapReq k f).cards = s.cards := rfl
@[simp] theorem State.mapReq_tide (s : State) (k : Nat) (f : Req → Req) : (s.mapReq k f).tide = s.tide := rfl
@[simp] theorem State.mapReq_cc (s : State) (k : Nat) (f : Req → Req) : (s.mapReq k f).cc = s.cc := rfl
@[simp] theorem State.mapReq_ctl (s : State) (k : Nat) (f : Req → Req) : (s.mapReq k f).ctl = s.ctl := rfl
@[simp] theorem State.mapReq_grants (s : State) (k : Nat) (f : Req → Req) : (s.mapReq k f).grants = s.grants := rfl
@[simp] theorem State.mapReq_boot (s : State) (k : Nat) (f : Req → Req) : (s.mapReq k f).boot = s.boot := rfl
@[simp] theorem State.mapReq_throttled (s : State) (k : Nat) (f : Req → Req) : (s.mapReq k f).throttled = s.throttled := rfl
@[simp] theorem State.mapReq_hostOut (s : State) (k : Nat) (f : Req → Req) : (s.mapReq k f).hostOut = s.hostOut := rfl
@[simp] theorem State.mapReq_hostDue (s : State) (k : Nat) (f : Req → Req) : (s.mapReq k f).hostDue = s.hostDue := rfl
@[simp] theorem State.mapReq_notices (s : State) (k : Nat) (f : Req → Req) : (s.mapReq k f).notices = s.notices := rfl
@[simp] theorem State.mapReq_turns (s : State) (k : Nat) (f : Req → Req) : (s.mapReq k f).turns = s.turns := rfl
@[simp] theorem State.mapReq_fresh (s : State) (k : Nat) (f : Req → Req) : (s.mapReq k f).fresh = s.fresh := rfl
@[simp] theorem State.mapReq_nextId (s : State) (k : Nat) (f : Req → Req) : (s.mapReq k f).nextId = s.nextId := rfl

/-! ## dropReq -/

@[simp] theorem State.dropReq_cur (s : State) (k : Nat) : (s.dropReq k).cur = s.cur := rfl
@[simp] theorem State.dropReq_others (s : State) (k : Nat) : (s.dropReq k).others = s.others := rfl
@[simp] theorem State.dropReq_ipc (s : State) (k : Nat) : (s.dropReq k).ipc = s.ipc := rfl
@[simp] theorem State.dropReq_parts (s : State) (k : Nat) : (s.dropReq k).parts = s.parts := rfl
@[simp] theorem State.dropReq_wgs (s : State) (k : Nat) : (s.dropReq k).wgs = s.wgs := rfl
@[simp] theorem State.dropReq_launches (s : State) (k : Nat) : (s.dropReq k).launches = s.launches := rfl
@[simp] theorem State.dropReq_arrays (s : State) (k : Nat) : (s.dropReq k).arrays = s.arrays := rfl
@[simp] theorem State.dropReq_mem (s : State) (k : Nat) : (s.dropReq k).mem = s.mem := rfl
@[simp] theorem State.dropReq_reqs (s : State) (k : Nat) : (s.dropReq k).reqs = s.reqs.filter fun r => r.id != k := rfl
@[simp] theorem State.dropReq_conds (s : State) (k : Nat) : (s.dropReq k).conds = s.conds := rfl
@[simp] theorem State.dropReq_tasks (s : State) (k : Nat) : (s.dropReq k).tasks = s.tasks := rfl
@[simp] theorem State.dropReq_copy (s : State) (k : Nat) : (s.dropReq k).copy = s.copy := rfl
@[simp] theorem State.dropReq_cards (s : State) (k : Nat) : (s.dropReq k).cards = s.cards := rfl
@[simp] theorem State.dropReq_tide (s : State) (k : Nat) : (s.dropReq k).tide = s.tide := rfl
@[simp] theorem State.dropReq_cc (s : State) (k : Nat) : (s.dropReq k).cc = s.cc := rfl
@[simp] theorem State.dropReq_ctl (s : State) (k : Nat) : (s.dropReq k).ctl = s.ctl := rfl
@[simp] theorem State.dropReq_grants (s : State) (k : Nat) : (s.dropReq k).grants = s.grants := rfl
@[simp] theorem State.dropReq_boot (s : State) (k : Nat) : (s.dropReq k).boot = s.boot := rfl
@[simp] theorem State.dropReq_throttled (s : State) (k : Nat) : (s.dropReq k).throttled = s.throttled := rfl
@[simp] theorem State.dropReq_hostOut (s : State) (k : Nat) : (s.dropReq k).hostOut = s.hostOut := rfl
@[simp] theorem State.dropReq_hostDue (s : State) (k : Nat) : (s.dropReq k).hostDue = s.hostDue := rfl
@[simp] theorem State.dropReq_notices (s : State) (k : Nat) : (s.dropReq k).notices = s.notices := rfl
@[simp] theorem State.dropReq_turns (s : State) (k : Nat) : (s.dropReq k).turns = s.turns := rfl
@[simp] theorem State.dropReq_fresh (s : State) (k : Nat) : (s.dropReq k).fresh = s.fresh := rfl
@[simp] theorem State.dropReq_nextId (s : State) (k : Nat) : (s.dropReq k).nextId = s.nextId := rfl

/-! ## dropCond -/

@[simp] theorem State.dropCond_cur (s : State) (k : Nat) : (s.dropCond k).cur = s.cur := rfl
@[simp] theorem State.dropCond_others (s : State) (k : Nat) : (s.dropCond k).others = s.others := rfl
@[simp] theorem State.dropCond_ipc (s : State) (k : Nat) : (s.dropCond k).ipc = s.ipc := rfl
@[simp] theorem State.dropCond_parts (s : State) (k : Nat) : (s.dropCond k).parts = s.parts := rfl
@[simp] theorem State.dropCond_wgs (s : State) (k : Nat) : (s.dropCond k).wgs = s.wgs := rfl
@[simp] theorem State.dropCond_launches (s : State) (k : Nat) : (s.dropCond k).launches = s.launches := rfl
@[simp] theorem State.dropCond_arrays (s : State) (k : Nat) : (s.dropCond k).arrays = s.arrays := rfl
@[simp] theorem State.dropCond_mem (s : State) (k : Nat) : (s.dropCond k).mem = s.mem := rfl
@[simp] theorem State.dropCond_reqs (s : State) (k : Nat) : (s.dropCond k).reqs = s.reqs := rfl
@[simp] theorem State.dropCond_conds (s : State) (k : Nat) : (s.dropCond k).conds = s.conds.filter fun c => c.key != k := rfl
@[simp] theorem State.dropCond_tasks (s : State) (k : Nat) : (s.dropCond k).tasks = s.tasks := rfl
@[simp] theorem State.dropCond_copy (s : State) (k : Nat) : (s.dropCond k).copy = s.copy := rfl
@[simp] theorem State.dropCond_cards (s : State) (k : Nat) : (s.dropCond k).cards = s.cards := rfl
@[simp] theorem State.dropCond_tide (s : State) (k : Nat) : (s.dropCond k).tide = s.tide := rfl
@[simp] theorem State.dropCond_cc (s : State) (k : Nat) : (s.dropCond k).cc = s.cc := rfl
@[simp] theorem State.dropCond_ctl (s : State) (k : Nat) : (s.dropCond k).ctl = s.ctl := rfl
@[simp] theorem State.dropCond_grants (s : State) (k : Nat) : (s.dropCond k).grants = s.grants := rfl
@[simp] theorem State.dropCond_boot (s : State) (k : Nat) : (s.dropCond k).boot = s.boot := rfl
@[simp] theorem State.dropCond_throttled (s : State) (k : Nat) : (s.dropCond k).throttled = s.throttled := rfl
@[simp] theorem State.dropCond_hostOut (s : State) (k : Nat) : (s.dropCond k).hostOut = s.hostOut := rfl
@[simp] theorem State.dropCond_hostDue (s : State) (k : Nat) : (s.dropCond k).hostDue = s.hostDue := rfl
@[simp] theorem State.dropCond_notices (s : State) (k : Nat) : (s.dropCond k).notices = s.notices := rfl
@[simp] theorem State.dropCond_turns (s : State) (k : Nat) : (s.dropCond k).turns = s.turns := rfl
@[simp] theorem State.dropCond_fresh (s : State) (k : Nat) : (s.dropCond k).fresh = s.fresh := rfl
@[simp] theorem State.dropCond_nextId (s : State) (k : Nat) : (s.dropCond k).nextId = s.nextId := rfl

/-! ## mapSlot -/

@[simp] theorem State.mapSlot_cur (s : State) (h : DWord) (f : Slot → Slot) : (s.mapSlot h f).cur = s.cur := rfl
@[simp] theorem State.mapSlot_others (s : State) (h : DWord) (f : Slot → Slot) : (s.mapSlot h f).others = s.others := rfl
@[simp] theorem State.mapSlot_ipc (s : State) (h : DWord) (f : Slot → Slot) : (s.mapSlot h f).ipc = s.ipc := rfl
@[simp] theorem State.mapSlot_parts (s : State) (h : DWord) (f : Slot → Slot) : (s.mapSlot h f).parts = s.parts := rfl
@[simp] theorem State.mapSlot_wgs (s : State) (h : DWord) (f : Slot → Slot) : (s.mapSlot h f).wgs = s.wgs := rfl
@[simp] theorem State.mapSlot_launches (s : State) (h : DWord) (f : Slot → Slot) : (s.mapSlot h f).launches = s.launches := rfl
@[simp] theorem State.mapSlot_arrays (s : State) (h : DWord) (f : Slot → Slot) : (s.mapSlot h f).arrays = s.arrays := rfl
@[simp] theorem State.mapSlot_mem (s : State) (h : DWord) (f : Slot → Slot) : (s.mapSlot h f).mem = s.mem := rfl
@[simp] theorem State.mapSlot_reqs (s : State) (h : DWord) (f : Slot → Slot) : (s.mapSlot h f).reqs = s.reqs := rfl
@[simp] theorem State.mapSlot_conds (s : State) (h : DWord) (f : Slot → Slot) : (s.mapSlot h f).conds = s.conds := rfl
@[simp] theorem State.mapSlot_copy (s : State) (h : DWord) (f : Slot → Slot) : (s.mapSlot h f).copy = s.copy := rfl
@[simp] theorem State.mapSlot_cards (s : State) (h : DWord) (f : Slot → Slot) : (s.mapSlot h f).cards = s.cards := rfl
@[simp] theorem State.mapSlot_tide (s : State) (h : DWord) (f : Slot → Slot) : (s.mapSlot h f).tide = s.tide := rfl
@[simp] theorem State.mapSlot_cc (s : State) (h : DWord) (f : Slot → Slot) : (s.mapSlot h f).cc = s.cc := rfl
@[simp] theorem State.mapSlot_ctl (s : State) (h : DWord) (f : Slot → Slot) : (s.mapSlot h f).ctl = s.ctl := rfl
@[simp] theorem State.mapSlot_grants (s : State) (h : DWord) (f : Slot → Slot) : (s.mapSlot h f).grants = s.grants := rfl
@[simp] theorem State.mapSlot_boot (s : State) (h : DWord) (f : Slot → Slot) : (s.mapSlot h f).boot = s.boot := rfl
@[simp] theorem State.mapSlot_throttled (s : State) (h : DWord) (f : Slot → Slot) : (s.mapSlot h f).throttled = s.throttled := rfl
@[simp] theorem State.mapSlot_hostOut (s : State) (h : DWord) (f : Slot → Slot) : (s.mapSlot h f).hostOut = s.hostOut := rfl
@[simp] theorem State.mapSlot_hostDue (s : State) (h : DWord) (f : Slot → Slot) : (s.mapSlot h f).hostDue = s.hostDue := rfl
@[simp] theorem State.mapSlot_notices (s : State) (h : DWord) (f : Slot → Slot) : (s.mapSlot h f).notices = s.notices := rfl
@[simp] theorem State.mapSlot_turns (s : State) (h : DWord) (f : Slot → Slot) : (s.mapSlot h f).turns = s.turns := rfl
@[simp] theorem State.mapSlot_fresh (s : State) (h : DWord) (f : Slot → Slot) : (s.mapSlot h f).fresh = s.fresh := rfl
@[simp] theorem State.mapSlot_nextId (s : State) (h : DWord) (f : Slot → Slot) : (s.mapSlot h f).nextId = s.nextId := rfl

/-! ## putSlot -/

@[simp] theorem State.putSlot_cur (s : State) (x : Slot) : (s.putSlot x).cur = s.cur := rfl
@[simp] theorem State.putSlot_others (s : State) (x : Slot) : (s.putSlot x).others = s.others := rfl
@[simp] theorem State.putSlot_ipc (s : State) (x : Slot) : (s.putSlot x).ipc = s.ipc := rfl
@[simp] theorem State.putSlot_parts (s : State) (x : Slot) : (s.putSlot x).parts = s.parts := rfl
@[simp] theorem State.putSlot_wgs (s : State) (x : Slot) : (s.putSlot x).wgs = s.wgs := rfl
@[simp] theorem State.putSlot_launches (s : State) (x : Slot) : (s.putSlot x).launches = s.launches := rfl
@[simp] theorem State.putSlot_arrays (s : State) (x : Slot) : (s.putSlot x).arrays = s.arrays := rfl
@[simp] theorem State.putSlot_mem (s : State) (x : Slot) : (s.putSlot x).mem = s.mem := rfl
@[simp] theorem State.putSlot_reqs (s : State) (x : Slot) : (s.putSlot x).reqs = s.reqs := rfl
@[simp] theorem State.putSlot_conds (s : State) (x : Slot) : (s.putSlot x).conds = s.conds := rfl
@[simp] theorem State.putSlot_copy (s : State) (x : Slot) : (s.putSlot x).copy = s.copy := rfl
@[simp] theorem State.putSlot_cards (s : State) (x : Slot) : (s.putSlot x).cards = s.cards := rfl
@[simp] theorem State.putSlot_tide (s : State) (x : Slot) : (s.putSlot x).tide = s.tide := rfl
@[simp] theorem State.putSlot_cc (s : State) (x : Slot) : (s.putSlot x).cc = s.cc := rfl
@[simp] theorem State.putSlot_ctl (s : State) (x : Slot) : (s.putSlot x).ctl = s.ctl := rfl
@[simp] theorem State.putSlot_grants (s : State) (x : Slot) : (s.putSlot x).grants = s.grants := rfl
@[simp] theorem State.putSlot_boot (s : State) (x : Slot) : (s.putSlot x).boot = s.boot := rfl
@[simp] theorem State.putSlot_throttled (s : State) (x : Slot) : (s.putSlot x).throttled = s.throttled := rfl
@[simp] theorem State.putSlot_hostOut (s : State) (x : Slot) : (s.putSlot x).hostOut = s.hostOut := rfl
@[simp] theorem State.putSlot_hostDue (s : State) (x : Slot) : (s.putSlot x).hostDue = s.hostDue := rfl
@[simp] theorem State.putSlot_notices (s : State) (x : Slot) : (s.putSlot x).notices = s.notices := rfl
@[simp] theorem State.putSlot_turns (s : State) (x : Slot) : (s.putSlot x).turns = s.turns := rfl
@[simp] theorem State.putSlot_fresh (s : State) (x : Slot) : (s.putSlot x).fresh = s.fresh := rfl
@[simp] theorem State.putSlot_nextId (s : State) (x : Slot) : (s.putSlot x).nextId = s.nextId := rfl

/-! ## dequeue -/

@[simp] theorem State.dequeue_cur (s : State) (h : DWord) : (s.dequeue h).cur = s.cur := rfl
@[simp] theorem State.dequeue_others (s : State) (h : DWord) : (s.dequeue h).others = s.others := rfl
@[simp] theorem State.dequeue_ipc (s : State) (h : DWord) : (s.dequeue h).ipc = s.ipc := rfl
@[simp] theorem State.dequeue_parts (s : State) (h : DWord) : (s.dequeue h).parts = s.parts := rfl
@[simp] theorem State.dequeue_wgs (s : State) (h : DWord) : (s.dequeue h).wgs = s.wgs := rfl
@[simp] theorem State.dequeue_launches (s : State) (h : DWord) : (s.dequeue h).launches = s.launches := rfl
@[simp] theorem State.dequeue_arrays (s : State) (h : DWord) : (s.dequeue h).arrays = s.arrays := rfl
@[simp] theorem State.dequeue_mem (s : State) (h : DWord) : (s.dequeue h).mem = s.mem := rfl
@[simp] theorem State.dequeue_reqs (s : State) (h : DWord) : (s.dequeue h).reqs = s.reqs := rfl
@[simp] theorem State.dequeue_conds (s : State) (h : DWord) : (s.dequeue h).conds = s.conds := rfl
@[simp] theorem State.dequeue_copy (s : State) (h : DWord) : (s.dequeue h).copy = s.copy := rfl
@[simp] theorem State.dequeue_cards (s : State) (h : DWord) : (s.dequeue h).cards = s.cards := rfl
@[simp] theorem State.dequeue_tide (s : State) (h : DWord) : (s.dequeue h).tide = s.tide := rfl
@[simp] theorem State.dequeue_cc (s : State) (h : DWord) : (s.dequeue h).cc = s.cc := rfl
@[simp] theorem State.dequeue_ctl (s : State) (h : DWord) : (s.dequeue h).ctl = s.ctl := rfl
@[simp] theorem State.dequeue_grants (s : State) (h : DWord) : (s.dequeue h).grants = s.grants := rfl
@[simp] theorem State.dequeue_boot (s : State) (h : DWord) : (s.dequeue h).boot = s.boot := rfl
@[simp] theorem State.dequeue_throttled (s : State) (h : DWord) : (s.dequeue h).throttled = s.throttled := rfl
@[simp] theorem State.dequeue_hostOut (s : State) (h : DWord) : (s.dequeue h).hostOut = s.hostOut := rfl
@[simp] theorem State.dequeue_hostDue (s : State) (h : DWord) : (s.dequeue h).hostDue = s.hostDue := rfl
@[simp] theorem State.dequeue_notices (s : State) (h : DWord) : (s.dequeue h).notices = s.notices := rfl
@[simp] theorem State.dequeue_turns (s : State) (h : DWord) : (s.dequeue h).turns = s.turns := rfl
@[simp] theorem State.dequeue_fresh (s : State) (h : DWord) : (s.dequeue h).fresh = s.fresh := rfl
@[simp] theorem State.dequeue_nextId (s : State) (h : DWord) : (s.dequeue h).nextId = s.nextId := rfl

/-! ## putQueueRec -/

@[simp] theorem State.putQueueRec_cur (s : State) (x : QueueRec) : (s.putQueueRec x).cur = s.cur := rfl
@[simp] theorem State.putQueueRec_others (s : State) (x : QueueRec) : (s.putQueueRec x).others = s.others := rfl
@[simp] theorem State.putQueueRec_ipc (s : State) (x : QueueRec) : (s.putQueueRec x).ipc = s.ipc := rfl
@[simp] theorem State.putQueueRec_parts (s : State) (x : QueueRec) : (s.putQueueRec x).parts = s.parts := rfl
@[simp] theorem State.putQueueRec_wgs (s : State) (x : QueueRec) : (s.putQueueRec x).wgs = s.wgs := rfl
@[simp] theorem State.putQueueRec_launches (s : State) (x : QueueRec) : (s.putQueueRec x).launches = s.launches := rfl
@[simp] theorem State.putQueueRec_arrays (s : State) (x : QueueRec) : (s.putQueueRec x).arrays = s.arrays := rfl
@[simp] theorem State.putQueueRec_mem (s : State) (x : QueueRec) : (s.putQueueRec x).mem = s.mem := rfl
@[simp] theorem State.putQueueRec_reqs (s : State) (x : QueueRec) : (s.putQueueRec x).reqs = s.reqs := rfl
@[simp] theorem State.putQueueRec_conds (s : State) (x : QueueRec) : (s.putQueueRec x).conds = s.conds := rfl
@[simp] theorem State.putQueueRec_tasks (s : State) (x : QueueRec) : (s.putQueueRec x).tasks = s.tasks := rfl
@[simp] theorem State.putQueueRec_cards (s : State) (x : QueueRec) : (s.putQueueRec x).cards = s.cards := rfl
@[simp] theorem State.putQueueRec_tide (s : State) (x : QueueRec) : (s.putQueueRec x).tide = s.tide := rfl
@[simp] theorem State.putQueueRec_cc (s : State) (x : QueueRec) : (s.putQueueRec x).cc = s.cc := rfl
@[simp] theorem State.putQueueRec_ctl (s : State) (x : QueueRec) : (s.putQueueRec x).ctl = s.ctl := rfl
@[simp] theorem State.putQueueRec_grants (s : State) (x : QueueRec) : (s.putQueueRec x).grants = s.grants := rfl
@[simp] theorem State.putQueueRec_boot (s : State) (x : QueueRec) : (s.putQueueRec x).boot = s.boot := rfl
@[simp] theorem State.putQueueRec_throttled (s : State) (x : QueueRec) : (s.putQueueRec x).throttled = s.throttled := rfl
@[simp] theorem State.putQueueRec_hostOut (s : State) (x : QueueRec) : (s.putQueueRec x).hostOut = s.hostOut := rfl
@[simp] theorem State.putQueueRec_hostDue (s : State) (x : QueueRec) : (s.putQueueRec x).hostDue = s.hostDue := rfl
@[simp] theorem State.putQueueRec_notices (s : State) (x : QueueRec) : (s.putQueueRec x).notices = s.notices := rfl
@[simp] theorem State.putQueueRec_turns (s : State) (x : QueueRec) : (s.putQueueRec x).turns = s.turns := rfl
@[simp] theorem State.putQueueRec_fresh (s : State) (x : QueueRec) : (s.putQueueRec x).fresh = s.fresh := rfl
@[simp] theorem State.putQueueRec_nextId (s : State) (x : QueueRec) : (s.putQueueRec x).nextId = s.nextId := rfl

/-! ## mapEntry -/

@[simp] theorem State.mapEntry_cur (s : State) (k : Nat) (f : CopyEntry → CopyEntry) : (s.mapEntry k f).cur = s.cur := rfl
@[simp] theorem State.mapEntry_others (s : State) (k : Nat) (f : CopyEntry → CopyEntry) : (s.mapEntry k f).others = s.others := rfl
@[simp] theorem State.mapEntry_ipc (s : State) (k : Nat) (f : CopyEntry → CopyEntry) : (s.mapEntry k f).ipc = s.ipc := rfl
@[simp] theorem State.mapEntry_parts (s : State) (k : Nat) (f : CopyEntry → CopyEntry) : (s.mapEntry k f).parts = s.parts := rfl
@[simp] theorem State.mapEntry_wgs (s : State) (k : Nat) (f : CopyEntry → CopyEntry) : (s.mapEntry k f).wgs = s.wgs := rfl
@[simp] theorem State.mapEntry_launches (s : State) (k : Nat) (f : CopyEntry → CopyEntry) : (s.mapEntry k f).launches = s.launches := rfl
@[simp] theorem State.mapEntry_arrays (s : State) (k : Nat) (f : CopyEntry → CopyEntry) : (s.mapEntry k f).arrays = s.arrays := rfl
@[simp] theorem State.mapEntry_mem (s : State) (k : Nat) (f : CopyEntry → CopyEntry) : (s.mapEntry k f).mem = s.mem := rfl
@[simp] theorem State.mapEntry_reqs (s : State) (k : Nat) (f : CopyEntry → CopyEntry) : (s.mapEntry k f).reqs = s.reqs := rfl
@[simp] theorem State.mapEntry_conds (s : State) (k : Nat) (f : CopyEntry → CopyEntry) : (s.mapEntry k f).conds = s.conds := rfl
@[simp] theorem State.mapEntry_tasks (s : State) (k : Nat) (f : CopyEntry → CopyEntry) : (s.mapEntry k f).tasks = s.tasks := rfl
@[simp] theorem State.mapEntry_cards (s : State) (k : Nat) (f : CopyEntry → CopyEntry) : (s.mapEntry k f).cards = s.cards := rfl
@[simp] theorem State.mapEntry_tide (s : State) (k : Nat) (f : CopyEntry → CopyEntry) : (s.mapEntry k f).tide = s.tide := rfl
@[simp] theorem State.mapEntry_cc (s : State) (k : Nat) (f : CopyEntry → CopyEntry) : (s.mapEntry k f).cc = s.cc := rfl
@[simp] theorem State.mapEntry_ctl (s : State) (k : Nat) (f : CopyEntry → CopyEntry) : (s.mapEntry k f).ctl = s.ctl := rfl
@[simp] theorem State.mapEntry_grants (s : State) (k : Nat) (f : CopyEntry → CopyEntry) : (s.mapEntry k f).grants = s.grants := rfl
@[simp] theorem State.mapEntry_boot (s : State) (k : Nat) (f : CopyEntry → CopyEntry) : (s.mapEntry k f).boot = s.boot := rfl
@[simp] theorem State.mapEntry_throttled (s : State) (k : Nat) (f : CopyEntry → CopyEntry) : (s.mapEntry k f).throttled = s.throttled := rfl
@[simp] theorem State.mapEntry_hostOut (s : State) (k : Nat) (f : CopyEntry → CopyEntry) : (s.mapEntry k f).hostOut = s.hostOut := rfl
@[simp] theorem State.mapEntry_hostDue (s : State) (k : Nat) (f : CopyEntry → CopyEntry) : (s.mapEntry k f).hostDue = s.hostDue := rfl
@[simp] theorem State.mapEntry_notices (s : State) (k : Nat) (f : CopyEntry → CopyEntry) : (s.mapEntry k f).notices = s.notices := rfl
@[simp] theorem State.mapEntry_turns (s : State) (k : Nat) (f : CopyEntry → CopyEntry) : (s.mapEntry k f).turns = s.turns := rfl
@[simp] theorem State.mapEntry_fresh (s : State) (k : Nat) (f : CopyEntry → CopyEntry) : (s.mapEntry k f).fresh = s.fresh := rfl
@[simp] theorem State.mapEntry_nextId (s : State) (k : Nat) (f : CopyEntry → CopyEntry) : (s.mapEntry k f).nextId = s.nextId := rfl

/-! ## dropEntry -/

@[simp] theorem State.dropEntry_cur (s : State) (k : Nat) : (s.dropEntry k).cur = s.cur := rfl
@[simp] theorem State.dropEntry_others (s : State) (k : Nat) : (s.dropEntry k).others = s.others := rfl
@[simp] theorem State.dropEntry_ipc (s : State) (k : Nat) : (s.dropEntry k).ipc = s.ipc := rfl
@[simp] theorem State.dropEntry_parts (s : State) (k : Nat) : (s.dropEntry k).parts = s.parts := rfl
@[simp] theorem State.dropEntry_wgs (s : State) (k : Nat) : (s.dropEntry k).wgs = s.wgs := rfl
@[simp] theorem State.dropEntry_launches (s : State) (k : Nat) : (s.dropEntry k).launches = s.launches := rfl
@[simp] theorem State.dropEntry_arrays (s : State) (k : Nat) : (s.dropEntry k).arrays = s.arrays := rfl
@[simp] theorem State.dropEntry_mem (s : State) (k : Nat) : (s.dropEntry k).mem = s.mem := rfl
@[simp] theorem State.dropEntry_reqs (s : State) (k : Nat) : (s.dropEntry k).reqs = s.reqs := rfl
@[simp] theorem State.dropEntry_conds (s : State) (k : Nat) : (s.dropEntry k).conds = s.conds := rfl
@[simp] theorem State.dropEntry_tasks (s : State) (k : Nat) : (s.dropEntry k).tasks = s.tasks := rfl
@[simp] theorem State.dropEntry_cards (s : State) (k : Nat) : (s.dropEntry k).cards = s.cards := rfl
@[simp] theorem State.dropEntry_tide (s : State) (k : Nat) : (s.dropEntry k).tide = s.tide := rfl
@[simp] theorem State.dropEntry_cc (s : State) (k : Nat) : (s.dropEntry k).cc = s.cc := rfl
@[simp] theorem State.dropEntry_ctl (s : State) (k : Nat) : (s.dropEntry k).ctl = s.ctl := rfl
@[simp] theorem State.dropEntry_grants (s : State) (k : Nat) : (s.dropEntry k).grants = s.grants := rfl
@[simp] theorem State.dropEntry_boot (s : State) (k : Nat) : (s.dropEntry k).boot = s.boot := rfl
@[simp] theorem State.dropEntry_throttled (s : State) (k : Nat) : (s.dropEntry k).throttled = s.throttled := rfl
@[simp] theorem State.dropEntry_hostOut (s : State) (k : Nat) : (s.dropEntry k).hostOut = s.hostOut := rfl
@[simp] theorem State.dropEntry_hostDue (s : State) (k : Nat) : (s.dropEntry k).hostDue = s.hostDue := rfl
@[simp] theorem State.dropEntry_notices (s : State) (k : Nat) : (s.dropEntry k).notices = s.notices := rfl
@[simp] theorem State.dropEntry_turns (s : State) (k : Nat) : (s.dropEntry k).turns = s.turns := rfl
@[simp] theorem State.dropEntry_fresh (s : State) (k : Nat) : (s.dropEntry k).fresh = s.fresh := rfl
@[simp] theorem State.dropEntry_nextId (s : State) (k : Nat) : (s.dropEntry k).nextId = s.nextId := rfl

/-! ## mapMsg -/

@[simp] theorem State.mapMsg_cur (s : State) (q n c : Nat) (f : RedMsg → RedMsg) : (s.mapMsg q n c f).cur = s.cur := rfl
@[simp] theorem State.mapMsg_others (s : State) (q n c : Nat) (f : RedMsg → RedMsg) : (s.mapMsg q n c f).others = s.others := rfl
@[simp] theorem State.mapMsg_ipc (s : State) (q n c : Nat) (f : RedMsg → RedMsg) : (s.mapMsg q n c f).ipc = s.ipc := rfl
@[simp] theorem State.mapMsg_parts (s : State) (q n c : Nat) (f : RedMsg → RedMsg) : (s.mapMsg q n c f).parts = s.parts := rfl
@[simp] theorem State.mapMsg_wgs (s : State) (q n c : Nat) (f : RedMsg → RedMsg) : (s.mapMsg q n c f).wgs = s.wgs := rfl
@[simp] theorem State.mapMsg_launches (s : State) (q n c : Nat) (f : RedMsg → RedMsg) : (s.mapMsg q n c f).launches = s.launches := rfl
@[simp] theorem State.mapMsg_arrays (s : State) (q n c : Nat) (f : RedMsg → RedMsg) : (s.mapMsg q n c f).arrays = s.arrays := rfl
@[simp] theorem State.mapMsg_mem (s : State) (q n c : Nat) (f : RedMsg → RedMsg) : (s.mapMsg q n c f).mem = s.mem := rfl
@[simp] theorem State.mapMsg_reqs (s : State) (q n c : Nat) (f : RedMsg → RedMsg) : (s.mapMsg q n c f).reqs = s.reqs := rfl
@[simp] theorem State.mapMsg_conds (s : State) (q n c : Nat) (f : RedMsg → RedMsg) : (s.mapMsg q n c f).conds = s.conds := rfl
@[simp] theorem State.mapMsg_tasks (s : State) (q n c : Nat) (f : RedMsg → RedMsg) : (s.mapMsg q n c f).tasks = s.tasks := rfl
@[simp] theorem State.mapMsg_cards (s : State) (q n c : Nat) (f : RedMsg → RedMsg) : (s.mapMsg q n c f).cards = s.cards := rfl
@[simp] theorem State.mapMsg_tide (s : State) (q n c : Nat) (f : RedMsg → RedMsg) : (s.mapMsg q n c f).tide = s.tide := rfl
@[simp] theorem State.mapMsg_cc (s : State) (q n c : Nat) (f : RedMsg → RedMsg) : (s.mapMsg q n c f).cc = s.cc := rfl
@[simp] theorem State.mapMsg_ctl (s : State) (q n c : Nat) (f : RedMsg → RedMsg) : (s.mapMsg q n c f).ctl = s.ctl := rfl
@[simp] theorem State.mapMsg_grants (s : State) (q n c : Nat) (f : RedMsg → RedMsg) : (s.mapMsg q n c f).grants = s.grants := rfl
@[simp] theorem State.mapMsg_boot (s : State) (q n c : Nat) (f : RedMsg → RedMsg) : (s.mapMsg q n c f).boot = s.boot := rfl
@[simp] theorem State.mapMsg_throttled (s : State) (q n c : Nat) (f : RedMsg → RedMsg) : (s.mapMsg q n c f).throttled = s.throttled := rfl
@[simp] theorem State.mapMsg_hostOut (s : State) (q n c : Nat) (f : RedMsg → RedMsg) : (s.mapMsg q n c f).hostOut = s.hostOut := rfl
@[simp] theorem State.mapMsg_hostDue (s : State) (q n c : Nat) (f : RedMsg → RedMsg) : (s.mapMsg q n c f).hostDue = s.hostDue := rfl
@[simp] theorem State.mapMsg_notices (s : State) (q n c : Nat) (f : RedMsg → RedMsg) : (s.mapMsg q n c f).notices = s.notices := rfl
@[simp] theorem State.mapMsg_turns (s : State) (q n c : Nat) (f : RedMsg → RedMsg) : (s.mapMsg q n c f).turns = s.turns := rfl
@[simp] theorem State.mapMsg_fresh (s : State) (q n c : Nat) (f : RedMsg → RedMsg) : (s.mapMsg q n c f).fresh = s.fresh := rfl
@[simp] theorem State.mapMsg_nextId (s : State) (q n c : Nat) (f : RedMsg → RedMsg) : (s.mapMsg q n c f).nextId = s.nextId := rfl

/-! ## putWindow -/

@[simp] theorem State.putWindow_cur (s : State) (w : RedWindow) : (s.putWindow w).cur = s.cur := rfl
@[simp] theorem State.putWindow_others (s : State) (w : RedWindow) : (s.putWindow w).others = s.others := rfl
@[simp] theorem State.putWindow_ipc (s : State) (w : RedWindow) : (s.putWindow w).ipc = s.ipc := rfl
@[simp] theorem State.putWindow_parts (s : State) (w : RedWindow) : (s.putWindow w).parts = s.parts := rfl
@[simp] theorem State.putWindow_wgs (s : State) (w : RedWindow) : (s.putWindow w).wgs = s.wgs := rfl
@[simp] theorem State.putWindow_launches (s : State) (w : RedWindow) : (s.putWindow w).launches = s.launches := rfl
@[simp] theorem State.putWindow_arrays (s : State) (w : RedWindow) : (s.putWindow w).arrays = s.arrays := rfl
@[simp] theorem State.putWindow_mem (s : State) (w : RedWindow) : (s.putWindow w).mem = s.mem := rfl
@[simp] theorem State.putWindow_reqs (s : State) (w : RedWindow) : (s.putWindow w).reqs = s.reqs := rfl
@[simp] theorem State.putWindow_conds (s : State) (w : RedWindow) : (s.putWindow w).conds = s.conds := rfl
@[simp] theorem State.putWindow_tasks (s : State) (w : RedWindow) : (s.putWindow w).tasks = s.tasks := rfl
@[simp] theorem State.putWindow_cards (s : State) (w : RedWindow) : (s.putWindow w).cards = s.cards := rfl
@[simp] theorem State.putWindow_tide (s : State) (w : RedWindow) : (s.putWindow w).tide = s.tide := rfl
@[simp] theorem State.putWindow_cc (s : State) (w : RedWindow) : (s.putWindow w).cc = s.cc := rfl
@[simp] theorem State.putWindow_ctl (s : State) (w : RedWindow) : (s.putWindow w).ctl = s.ctl := rfl
@[simp] theorem State.putWindow_grants (s : State) (w : RedWindow) : (s.putWindow w).grants = s.grants := rfl
@[simp] theorem State.putWindow_boot (s : State) (w : RedWindow) : (s.putWindow w).boot = s.boot := rfl
@[simp] theorem State.putWindow_throttled (s : State) (w : RedWindow) : (s.putWindow w).throttled = s.throttled := rfl
@[simp] theorem State.putWindow_hostOut (s : State) (w : RedWindow) : (s.putWindow w).hostOut = s.hostOut := rfl
@[simp] theorem State.putWindow_hostDue (s : State) (w : RedWindow) : (s.putWindow w).hostDue = s.hostDue := rfl
@[simp] theorem State.putWindow_notices (s : State) (w : RedWindow) : (s.putWindow w).notices = s.notices := rfl
@[simp] theorem State.putWindow_turns (s : State) (w : RedWindow) : (s.putWindow w).turns = s.turns := rfl
@[simp] theorem State.putWindow_fresh (s : State) (w : RedWindow) : (s.putWindow w).fresh = s.fresh := rfl
@[simp] theorem State.putWindow_nextId (s : State) (w : RedWindow) : (s.putWindow w).nextId = s.nextId := rfl

/-! ## mapCard -/

@[simp] theorem State.mapCard_cur (s : State) (k : Nat) (f : BankCard → BankCard) : (s.mapCard k f).cur = s.cur := rfl
@[simp] theorem State.mapCard_others (s : State) (k : Nat) (f : BankCard → BankCard) : (s.mapCard k f).others = s.others := rfl
@[simp] theorem State.mapCard_ipc (s : State) (k : Nat) (f : BankCard → BankCard) : (s.mapCard k f).ipc = s.ipc := rfl
@[simp] theorem State.mapCard_parts (s : State) (k : Nat) (f : BankCard → BankCard) : (s.mapCard k f).parts = s.parts := rfl
@[simp] theorem State.mapCard_wgs (s : State) (k : Nat) (f : BankCard → BankCard) : (s.mapCard k f).wgs = s.wgs := rfl
@[simp] theorem State.mapCard_launches (s : State) (k : Nat) (f : BankCard → BankCard) : (s.mapCard k f).launches = s.launches := rfl
@[simp] theorem State.mapCard_arrays (s : State) (k : Nat) (f : BankCard → BankCard) : (s.mapCard k f).arrays = s.arrays := rfl
@[simp] theorem State.mapCard_mem (s : State) (k : Nat) (f : BankCard → BankCard) : (s.mapCard k f).mem = s.mem := rfl
@[simp] theorem State.mapCard_reqs (s : State) (k : Nat) (f : BankCard → BankCard) : (s.mapCard k f).reqs = s.reqs := rfl
@[simp] theorem State.mapCard_conds (s : State) (k : Nat) (f : BankCard → BankCard) : (s.mapCard k f).conds = s.conds := rfl
@[simp] theorem State.mapCard_tasks (s : State) (k : Nat) (f : BankCard → BankCard) : (s.mapCard k f).tasks = s.tasks := rfl
@[simp] theorem State.mapCard_copy (s : State) (k : Nat) (f : BankCard → BankCard) : (s.mapCard k f).copy = s.copy := rfl
@[simp] theorem State.mapCard_cards (s : State) (k : Nat) (f : BankCard → BankCard) : (s.mapCard k f).cards = updWhere (fun x => x.id == k) f s.cards := rfl
@[simp] theorem State.mapCard_tide (s : State) (k : Nat) (f : BankCard → BankCard) : (s.mapCard k f).tide = s.tide := rfl
@[simp] theorem State.mapCard_cc (s : State) (k : Nat) (f : BankCard → BankCard) : (s.mapCard k f).cc = s.cc := rfl
@[simp] theorem State.mapCard_ctl (s : State) (k : Nat) (f : BankCard → BankCard) : (s.mapCard k f).ctl = s.ctl := rfl
@[simp] theorem State.mapCard_grants (s : State) (k : Nat) (f : BankCard → BankCard) : (s.mapCard k f).grants = s.grants := rfl
@[simp] theorem State.mapCard_boot (s : State) (k : Nat) (f : BankCard → BankCard) : (s.mapCard k f).boot = s.boot := rfl
@[simp] theorem State.mapCard_throttled (s : State) (k : Nat) (f : BankCard → BankCard) : (s.mapCard k f).throttled = s.throttled := rfl
@[simp] theorem State.mapCard_hostOut (s : State) (k : Nat) (f : BankCard → BankCard) : (s.mapCard k f).hostOut = s.hostOut := rfl
@[simp] theorem State.mapCard_hostDue (s : State) (k : Nat) (f : BankCard → BankCard) : (s.mapCard k f).hostDue = s.hostDue := rfl
@[simp] theorem State.mapCard_notices (s : State) (k : Nat) (f : BankCard → BankCard) : (s.mapCard k f).notices = s.notices := rfl
@[simp] theorem State.mapCard_turns (s : State) (k : Nat) (f : BankCard → BankCard) : (s.mapCard k f).turns = s.turns := rfl
@[simp] theorem State.mapCard_fresh (s : State) (k : Nat) (f : BankCard → BankCard) : (s.mapCard k f).fresh = s.fresh := rfl
@[simp] theorem State.mapCard_nextId (s : State) (k : Nat) (f : BankCard → BankCard) : (s.mapCard k f).nextId = s.nextId := rfl

/-! ## mapLaunch -/

@[simp] theorem State.mapLaunch_cur (s : State) (k : Nat) (f : Launch → Launch) : (s.mapLaunch k f).cur = s.cur := rfl
@[simp] theorem State.mapLaunch_others (s : State) (k : Nat) (f : Launch → Launch) : (s.mapLaunch k f).others = s.others := rfl
@[simp] theorem State.mapLaunch_ipc (s : State) (k : Nat) (f : Launch → Launch) : (s.mapLaunch k f).ipc = s.ipc := rfl
@[simp] theorem State.mapLaunch_parts (s : State) (k : Nat) (f : Launch → Launch) : (s.mapLaunch k f).parts = s.parts := rfl
@[simp] theorem State.mapLaunch_wgs (s : State) (k : Nat) (f : Launch → Launch) : (s.mapLaunch k f).wgs = s.wgs := rfl
@[simp] theorem State.mapLaunch_launches (s : State) (k : Nat) (f : Launch → Launch) : (s.mapLaunch k f).launches = updWhere (fun l => l.key == k) f s.launches := rfl
@[simp] theorem State.mapLaunch_arrays (s : State) (k : Nat) (f : Launch → Launch) : (s.mapLaunch k f).arrays = s.arrays := rfl
@[simp] theorem State.mapLaunch_mem (s : State) (k : Nat) (f : Launch → Launch) : (s.mapLaunch k f).mem = s.mem := rfl
@[simp] theorem State.mapLaunch_reqs (s : State) (k : Nat) (f : Launch → Launch) : (s.mapLaunch k f).reqs = s.reqs := rfl
@[simp] theorem State.mapLaunch_conds (s : State) (k : Nat) (f : Launch → Launch) : (s.mapLaunch k f).conds = s.conds := rfl
@[simp] theorem State.mapLaunch_tasks (s : State) (k : Nat) (f : Launch → Launch) : (s.mapLaunch k f).tasks = s.tasks := rfl
@[simp] theorem State.mapLaunch_copy (s : State) (k : Nat) (f : Launch → Launch) : (s.mapLaunch k f).copy = s.copy := rfl
@[simp] theorem State.mapLaunch_cards (s : State) (k : Nat) (f : Launch → Launch) : (s.mapLaunch k f).cards = s.cards := rfl
@[simp] theorem State.mapLaunch_tide (s : State) (k : Nat) (f : Launch → Launch) : (s.mapLaunch k f).tide = s.tide := rfl
@[simp] theorem State.mapLaunch_cc (s : State) (k : Nat) (f : Launch → Launch) : (s.mapLaunch k f).cc = s.cc := rfl
@[simp] theorem State.mapLaunch_ctl (s : State) (k : Nat) (f : Launch → Launch) : (s.mapLaunch k f).ctl = s.ctl := rfl
@[simp] theorem State.mapLaunch_grants (s : State) (k : Nat) (f : Launch → Launch) : (s.mapLaunch k f).grants = s.grants := rfl
@[simp] theorem State.mapLaunch_boot (s : State) (k : Nat) (f : Launch → Launch) : (s.mapLaunch k f).boot = s.boot := rfl
@[simp] theorem State.mapLaunch_throttled (s : State) (k : Nat) (f : Launch → Launch) : (s.mapLaunch k f).throttled = s.throttled := rfl
@[simp] theorem State.mapLaunch_hostOut (s : State) (k : Nat) (f : Launch → Launch) : (s.mapLaunch k f).hostOut = s.hostOut := rfl
@[simp] theorem State.mapLaunch_hostDue (s : State) (k : Nat) (f : Launch → Launch) : (s.mapLaunch k f).hostDue = s.hostDue := rfl
@[simp] theorem State.mapLaunch_notices (s : State) (k : Nat) (f : Launch → Launch) : (s.mapLaunch k f).notices = s.notices := rfl
@[simp] theorem State.mapLaunch_turns (s : State) (k : Nat) (f : Launch → Launch) : (s.mapLaunch k f).turns = s.turns := rfl
@[simp] theorem State.mapLaunch_fresh (s : State) (k : Nat) (f : Launch → Launch) : (s.mapLaunch k f).fresh = s.fresh := rfl
@[simp] theorem State.mapLaunch_nextId (s : State) (k : Nat) (f : Launch → Launch) : (s.mapLaunch k f).nextId = s.nextId := rfl

/-! ## setTm -/

@[simp] theorem State.setTm_cur (s : State) (t : TimeCtl) : (s.setTm t).cur = s.cur := rfl
@[simp] theorem State.setTm_others (s : State) (t : TimeCtl) : (s.setTm t).others = s.others := rfl
@[simp] theorem State.setTm_ipc (s : State) (t : TimeCtl) : (s.setTm t).ipc = s.ipc := rfl
@[simp] theorem State.setTm_parts (s : State) (t : TimeCtl) : (s.setTm t).parts = s.parts := rfl
@[simp] theorem State.setTm_wgs (s : State) (t : TimeCtl) : (s.setTm t).wgs = s.wgs := rfl
@[simp] theorem State.setTm_launches (s : State) (t : TimeCtl) : (s.setTm t).launches = s.launches := rfl
@[simp] theorem State.setTm_arrays (s : State) (t : TimeCtl) : (s.setTm t).arrays = s.arrays := rfl
@[simp] theorem State.setTm_mem (s : State) (t : TimeCtl) : (s.setTm t).mem = s.mem := rfl
@[simp] theorem State.setTm_reqs (s : State) (t : TimeCtl) : (s.setTm t).reqs = s.reqs := rfl
@[simp] theorem State.setTm_conds (s : State) (t : TimeCtl) : (s.setTm t).conds = s.conds := rfl
@[simp] theorem State.setTm_tasks (s : State) (t : TimeCtl) : (s.setTm t).tasks = s.tasks := rfl
@[simp] theorem State.setTm_copy (s : State) (t : TimeCtl) : (s.setTm t).copy = s.copy := rfl
@[simp] theorem State.setTm_cards (s : State) (t : TimeCtl) : (s.setTm t).cards = s.cards := rfl
@[simp] theorem State.setTm_tide (s : State) (t : TimeCtl) : (s.setTm t).tide = s.tide := rfl
@[simp] theorem State.setTm_cc (s : State) (t : TimeCtl) : (s.setTm t).cc = s.cc := rfl
@[simp] theorem State.setTm_grants (s : State) (t : TimeCtl) : (s.setTm t).grants = s.grants := rfl
@[simp] theorem State.setTm_boot (s : State) (t : TimeCtl) : (s.setTm t).boot = s.boot := rfl
@[simp] theorem State.setTm_throttled (s : State) (t : TimeCtl) : (s.setTm t).throttled = s.throttled := rfl
@[simp] theorem State.setTm_hostOut (s : State) (t : TimeCtl) : (s.setTm t).hostOut = s.hostOut := rfl
@[simp] theorem State.setTm_hostDue (s : State) (t : TimeCtl) : (s.setTm t).hostDue = s.hostDue := rfl
@[simp] theorem State.setTm_notices (s : State) (t : TimeCtl) : (s.setTm t).notices = s.notices := rfl
@[simp] theorem State.setTm_turns (s : State) (t : TimeCtl) : (s.setTm t).turns = s.turns := rfl
@[simp] theorem State.setTm_fresh (s : State) (t : TimeCtl) : (s.setTm t).fresh = s.fresh := rfl
@[simp] theorem State.setTm_nextId (s : State) (t : TimeCtl) : (s.setTm t).nextId = s.nextId := rfl

/-! ## putTt -/

@[simp] theorem State.putTt_cur (s : State) (e : TtEntry) : (s.putTt e).cur = s.cur := rfl
@[simp] theorem State.putTt_others (s : State) (e : TtEntry) : (s.putTt e).others = s.others := rfl
@[simp] theorem State.putTt_ipc (s : State) (e : TtEntry) : (s.putTt e).ipc = s.ipc := rfl
@[simp] theorem State.putTt_parts (s : State) (e : TtEntry) : (s.putTt e).parts = s.parts := rfl
@[simp] theorem State.putTt_wgs (s : State) (e : TtEntry) : (s.putTt e).wgs = s.wgs := rfl
@[simp] theorem State.putTt_launches (s : State) (e : TtEntry) : (s.putTt e).launches = s.launches := rfl
@[simp] theorem State.putTt_arrays (s : State) (e : TtEntry) : (s.putTt e).arrays = s.arrays := rfl
@[simp] theorem State.putTt_mem (s : State) (e : TtEntry) : (s.putTt e).mem = s.mem := rfl
@[simp] theorem State.putTt_reqs (s : State) (e : TtEntry) : (s.putTt e).reqs = s.reqs := rfl
@[simp] theorem State.putTt_conds (s : State) (e : TtEntry) : (s.putTt e).conds = s.conds := rfl
@[simp] theorem State.putTt_tasks (s : State) (e : TtEntry) : (s.putTt e).tasks = s.tasks := rfl
@[simp] theorem State.putTt_copy (s : State) (e : TtEntry) : (s.putTt e).copy = s.copy := rfl
@[simp] theorem State.putTt_cards (s : State) (e : TtEntry) : (s.putTt e).cards = s.cards := rfl
@[simp] theorem State.putTt_tide (s : State) (e : TtEntry) : (s.putTt e).tide = s.tide := rfl
@[simp] theorem State.putTt_cc (s : State) (e : TtEntry) : (s.putTt e).cc = s.cc := rfl
@[simp] theorem State.putTt_grants (s : State) (e : TtEntry) : (s.putTt e).grants = s.grants := rfl
@[simp] theorem State.putTt_boot (s : State) (e : TtEntry) : (s.putTt e).boot = s.boot := rfl
@[simp] theorem State.putTt_throttled (s : State) (e : TtEntry) : (s.putTt e).throttled = s.throttled := rfl
@[simp] theorem State.putTt_hostOut (s : State) (e : TtEntry) : (s.putTt e).hostOut = s.hostOut := rfl
@[simp] theorem State.putTt_hostDue (s : State) (e : TtEntry) : (s.putTt e).hostDue = s.hostDue := rfl
@[simp] theorem State.putTt_notices (s : State) (e : TtEntry) : (s.putTt e).notices = s.notices := rfl
@[simp] theorem State.putTt_turns (s : State) (e : TtEntry) : (s.putTt e).turns = s.turns := rfl
@[simp] theorem State.putTt_fresh (s : State) (e : TtEntry) : (s.putTt e).fresh = s.fresh := rfl
@[simp] theorem State.putTt_nextId (s : State) (e : TtEntry) : (s.putTt e).nextId = s.nextId := rfl

/-! ## mapCtx -/

@[simp] theorem State.mapCtx_cur (s : State) (n : Nat) (f : Context → Context) : (s.mapCtx n f).cur = s.cur := rfl
@[simp] theorem State.mapCtx_others (s : State) (n : Nat) (f : Context → Context) : (s.mapCtx n f).others = s.others := rfl
@[simp] theorem State.mapCtx_ipc (s : State) (n : Nat) (f : Context → Context) : (s.mapCtx n f).ipc = s.ipc := rfl
@[simp] theorem State.mapCtx_parts (s : State) (n : Nat) (f : Context → Context) : (s.mapCtx n f).parts = s.parts := rfl
@[simp] theorem State.mapCtx_wgs (s : State) (n : Nat) (f : Context → Context) : (s.mapCtx n f).wgs = s.wgs := rfl
@[simp] theorem State.mapCtx_launches (s : State) (n : Nat) (f : Context → Context) : (s.mapCtx n f).launches = s.launches := rfl
@[simp] theorem State.mapCtx_arrays (s : State) (n : Nat) (f : Context → Context) : (s.mapCtx n f).arrays = s.arrays := rfl
@[simp] theorem State.mapCtx_mem (s : State) (n : Nat) (f : Context → Context) : (s.mapCtx n f).mem = s.mem := rfl
@[simp] theorem State.mapCtx_reqs (s : State) (n : Nat) (f : Context → Context) : (s.mapCtx n f).reqs = s.reqs := rfl
@[simp] theorem State.mapCtx_conds (s : State) (n : Nat) (f : Context → Context) : (s.mapCtx n f).conds = s.conds := rfl
@[simp] theorem State.mapCtx_tasks (s : State) (n : Nat) (f : Context → Context) : (s.mapCtx n f).tasks = s.tasks := rfl
@[simp] theorem State.mapCtx_copy (s : State) (n : Nat) (f : Context → Context) : (s.mapCtx n f).copy = s.copy := rfl
@[simp] theorem State.mapCtx_cards (s : State) (n : Nat) (f : Context → Context) : (s.mapCtx n f).cards = s.cards := rfl
@[simp] theorem State.mapCtx_tide (s : State) (n : Nat) (f : Context → Context) : (s.mapCtx n f).tide = s.tide := rfl
@[simp] theorem State.mapCtx_cc (s : State) (n : Nat) (f : Context → Context) : (s.mapCtx n f).cc = s.cc := rfl
@[simp] theorem State.mapCtx_grants (s : State) (n : Nat) (f : Context → Context) : (s.mapCtx n f).grants = s.grants := rfl
@[simp] theorem State.mapCtx_boot (s : State) (n : Nat) (f : Context → Context) : (s.mapCtx n f).boot = s.boot := rfl
@[simp] theorem State.mapCtx_throttled (s : State) (n : Nat) (f : Context → Context) : (s.mapCtx n f).throttled = s.throttled := rfl
@[simp] theorem State.mapCtx_hostOut (s : State) (n : Nat) (f : Context → Context) : (s.mapCtx n f).hostOut = s.hostOut := rfl
@[simp] theorem State.mapCtx_hostDue (s : State) (n : Nat) (f : Context → Context) : (s.mapCtx n f).hostDue = s.hostDue := rfl
@[simp] theorem State.mapCtx_notices (s : State) (n : Nat) (f : Context → Context) : (s.mapCtx n f).notices = s.notices := rfl
@[simp] theorem State.mapCtx_turns (s : State) (n : Nat) (f : Context → Context) : (s.mapCtx n f).turns = s.turns := rfl
@[simp] theorem State.mapCtx_fresh (s : State) (n : Nat) (f : Context → Context) : (s.mapCtx n f).fresh = s.fresh := rfl
@[simp] theorem State.mapCtx_nextId (s : State) (n : Nat) (f : Context → Context) : (s.mapCtx n f).nextId = s.nextId := rfl

/-! ## mapSwitch -/

@[simp] theorem State.mapSwitch_cur (s : State) (f : Switch → Switch) : (s.mapSwitch f).cur = s.cur := rfl
@[simp] theorem State.mapSwitch_others (s : State) (f : Switch → Switch) : (s.mapSwitch f).others = s.others := rfl
@[simp] theorem State.mapSwitch_ipc (s : State) (f : Switch → Switch) : (s.mapSwitch f).ipc = s.ipc := rfl
@[simp] theorem State.mapSwitch_parts (s : State) (f : Switch → Switch) : (s.mapSwitch f).parts = s.parts := rfl
@[simp] theorem State.mapSwitch_wgs (s : State) (f : Switch → Switch) : (s.mapSwitch f).wgs = s.wgs := rfl
@[simp] theorem State.mapSwitch_launches (s : State) (f : Switch → Switch) : (s.mapSwitch f).launches = s.launches := rfl
@[simp] theorem State.mapSwitch_arrays (s : State) (f : Switch → Switch) : (s.mapSwitch f).arrays = s.arrays := rfl
@[simp] theorem State.mapSwitch_mem (s : State) (f : Switch → Switch) : (s.mapSwitch f).mem = s.mem := rfl
@[simp] theorem State.mapSwitch_reqs (s : State) (f : Switch → Switch) : (s.mapSwitch f).reqs = s.reqs := rfl
@[simp] theorem State.mapSwitch_conds (s : State) (f : Switch → Switch) : (s.mapSwitch f).conds = s.conds := rfl
@[simp] theorem State.mapSwitch_tasks (s : State) (f : Switch → Switch) : (s.mapSwitch f).tasks = s.tasks := rfl
@[simp] theorem State.mapSwitch_copy (s : State) (f : Switch → Switch) : (s.mapSwitch f).copy = s.copy := rfl
@[simp] theorem State.mapSwitch_cards (s : State) (f : Switch → Switch) : (s.mapSwitch f).cards = s.cards := rfl
@[simp] theorem State.mapSwitch_tide (s : State) (f : Switch → Switch) : (s.mapSwitch f).tide = s.tide := rfl
@[simp] theorem State.mapSwitch_cc (s : State) (f : Switch → Switch) : (s.mapSwitch f).cc = s.cc := rfl
@[simp] theorem State.mapSwitch_grants (s : State) (f : Switch → Switch) : (s.mapSwitch f).grants = s.grants := rfl
@[simp] theorem State.mapSwitch_boot (s : State) (f : Switch → Switch) : (s.mapSwitch f).boot = s.boot := rfl
@[simp] theorem State.mapSwitch_throttled (s : State) (f : Switch → Switch) : (s.mapSwitch f).throttled = s.throttled := rfl
@[simp] theorem State.mapSwitch_hostOut (s : State) (f : Switch → Switch) : (s.mapSwitch f).hostOut = s.hostOut := rfl
@[simp] theorem State.mapSwitch_hostDue (s : State) (f : Switch → Switch) : (s.mapSwitch f).hostDue = s.hostDue := rfl
@[simp] theorem State.mapSwitch_notices (s : State) (f : Switch → Switch) : (s.mapSwitch f).notices = s.notices := rfl
@[simp] theorem State.mapSwitch_turns (s : State) (f : Switch → Switch) : (s.mapSwitch f).turns = s.turns := rfl
@[simp] theorem State.mapSwitch_fresh (s : State) (f : Switch → Switch) : (s.mapSwitch f).fresh = s.fresh := rfl
@[simp] theorem State.mapSwitch_nextId (s : State) (f : Switch → Switch) : (s.mapSwitch f).nextId = s.nextId := rfl

/-! ## reply -/

@[simp] theorem State.reply_cur (s : State) (r : HostReply) : (s.reply r).cur = s.cur := rfl
@[simp] theorem State.reply_others (s : State) (r : HostReply) : (s.reply r).others = s.others := rfl
@[simp] theorem State.reply_ipc (s : State) (r : HostReply) : (s.reply r).ipc = s.ipc := rfl
@[simp] theorem State.reply_parts (s : State) (r : HostReply) : (s.reply r).parts = s.parts := rfl
@[simp] theorem State.reply_wgs (s : State) (r : HostReply) : (s.reply r).wgs = s.wgs := rfl
@[simp] theorem State.reply_launches (s : State) (r : HostReply) : (s.reply r).launches = s.launches := rfl
@[simp] theorem State.reply_arrays (s : State) (r : HostReply) : (s.reply r).arrays = s.arrays := rfl
@[simp] theorem State.reply_mem (s : State) (r : HostReply) : (s.reply r).mem = s.mem := rfl
@[simp] theorem State.reply_reqs (s : State) (r : HostReply) : (s.reply r).reqs = s.reqs := rfl
@[simp] theorem State.reply_conds (s : State) (r : HostReply) : (s.reply r).conds = s.conds := rfl
@[simp] theorem State.reply_tasks (s : State) (r : HostReply) : (s.reply r).tasks = s.tasks := rfl
@[simp] theorem State.reply_copy (s : State) (r : HostReply) : (s.reply r).copy = s.copy := rfl
@[simp] theorem State.reply_cards (s : State) (r : HostReply) : (s.reply r).cards = s.cards := rfl
@[simp] theorem State.reply_tide (s : State) (r : HostReply) : (s.reply r).tide = s.tide := rfl
@[simp] theorem State.reply_cc (s : State) (r : HostReply) : (s.reply r).cc = s.cc := rfl
@[simp] theorem State.reply_ctl (s : State) (r : HostReply) : (s.reply r).ctl = s.ctl := rfl
@[simp] theorem State.reply_grants (s : State) (r : HostReply) : (s.reply r).grants = s.grants := rfl
@[simp] theorem State.reply_boot (s : State) (r : HostReply) : (s.reply r).boot = s.boot := rfl
@[simp] theorem State.reply_throttled (s : State) (r : HostReply) : (s.reply r).throttled = s.throttled := rfl
@[simp] theorem State.reply_hostOut (s : State) (r : HostReply) : (s.reply r).hostOut = s.hostOut ++ [r] := rfl
@[simp] theorem State.reply_hostDue (s : State) (r : HostReply) : (s.reply r).hostDue = s.hostDue := rfl
@[simp] theorem State.reply_notices (s : State) (r : HostReply) : (s.reply r).notices = s.notices := rfl
@[simp] theorem State.reply_turns (s : State) (r : HostReply) : (s.reply r).turns = s.turns := rfl
@[simp] theorem State.reply_fresh (s : State) (r : HostReply) : (s.reply r).fresh = s.fresh := rfl
@[simp] theorem State.reply_nextId (s : State) (r : HostReply) : (s.reply r).nextId = s.nextId := rfl

/-! ## putPart -/

@[simp] theorem State.putPart_cur (s : State) (p : Partition) : (s.putPart p).cur = s.cur := rfl
@[simp] theorem State.putPart_others (s : State) (p : Partition) : (s.putPart p).others = s.others := rfl
@[simp] theorem State.putPart_ipc (s : State) (p : Partition) : (s.putPart p).ipc = s.ipc := rfl
@[simp] theorem State.putPart_wgs (s : State) (p : Partition) : (s.putPart p).wgs = s.wgs := rfl
@[simp] theorem State.putPart_launches (s : State) (p : Partition) : (s.putPart p).launches = s.launches := rfl
@[simp] theorem State.putPart_arrays (s : State) (p : Partition) : (s.putPart p).arrays = s.arrays := rfl
@[simp] theorem State.putPart_mem (s : State) (p : Partition) : (s.putPart p).mem = s.mem := rfl
@[simp] theorem State.putPart_reqs (s : State) (p : Partition) : (s.putPart p).reqs = s.reqs := rfl
@[simp] theorem State.putPart_conds (s : State) (p : Partition) : (s.putPart p).conds = s.conds := rfl
@[simp] theorem State.putPart_tasks (s : State) (p : Partition) : (s.putPart p).tasks = s.tasks := rfl
@[simp] theorem State.putPart_copy (s : State) (p : Partition) : (s.putPart p).copy = s.copy := rfl
@[simp] theorem State.putPart_cards (s : State) (p : Partition) : (s.putPart p).cards = s.cards := rfl
@[simp] theorem State.putPart_tide (s : State) (p : Partition) : (s.putPart p).tide = s.tide := rfl
@[simp] theorem State.putPart_cc (s : State) (p : Partition) : (s.putPart p).cc = s.cc := rfl
@[simp] theorem State.putPart_ctl (s : State) (p : Partition) : (s.putPart p).ctl = s.ctl := rfl
@[simp] theorem State.putPart_grants (s : State) (p : Partition) : (s.putPart p).grants = s.grants := rfl
@[simp] theorem State.putPart_boot (s : State) (p : Partition) : (s.putPart p).boot = s.boot := rfl
@[simp] theorem State.putPart_throttled (s : State) (p : Partition) : (s.putPart p).throttled = s.throttled := rfl
@[simp] theorem State.putPart_hostOut (s : State) (p : Partition) : (s.putPart p).hostOut = s.hostOut := rfl
@[simp] theorem State.putPart_hostDue (s : State) (p : Partition) : (s.putPart p).hostDue = s.hostDue := rfl
@[simp] theorem State.putPart_notices (s : State) (p : Partition) : (s.putPart p).notices = s.notices := rfl
@[simp] theorem State.putPart_turns (s : State) (p : Partition) : (s.putPart p).turns = s.turns := rfl
@[simp] theorem State.putPart_fresh (s : State) (p : Partition) : (s.putPart p).fresh = s.fresh := rfl
@[simp] theorem State.putPart_nextId (s : State) (p : Partition) : (s.putPart p).nextId = s.nextId := rfl

end Sys2Proof.Machine
end

