-- ==== Sys2Proof/Laws/Keeps.lean ====
section
/-! SUPPORT. What the shared operations keep: the Tidemark copies, and the canonical form of memory and scratchpad. -/

namespace Sys2Proof.Machine

/-- Home and scratchpad bytes of one memory are in canonical form when those of another are. -/
structure MemSys.Keeps (m n : MemSys) : Prop where
  home : Memory.wf m.home = true → Memory.wf n.home = true
  spad : Memory.wf m.spad = true → Memory.wf n.spad = true

/-- From s to t the Tidemark copies stand and memory stays in canonical form. -/
structure State.Keeps (s t : State) : Prop where
  tide : t.tide = s.tide
  mem : s.mem.Keeps t.mem

theorem MemSys.Keeps.refl (m : MemSys) : m.Keeps m := ⟨id, id⟩
theorem State.Keeps.refl (s : State) : s.Keeps s := ⟨rfl, .refl _⟩
theorem MemSys.Keeps.trans {m n o : MemSys} (h : m.Keeps n) (k : n.Keeps o) : m.Keeps o := ⟨k.home ∘ h.home, k.spad ∘ h.spad⟩
theorem State.Keeps.trans {s t u : State} (h : s.Keeps t) (k : t.Keeps u) : s.Keeps u := ⟨k.tide.trans h.tide, h.mem.trans k.mem⟩

/-- An update of other fields keeps. -/
theorem State.Keeps.same {s t u : State} (h : s.Keeps t) (ht : u.tide = t.tide) (hm : u.mem = t.mem) : s.Keeps u :=
  ⟨ht.trans h.tide, hm ▸ h.mem⟩
/-- An update of caches, TLBs and marks keeps. -/
theorem State.Keeps.caches {s t u : State} (h : s.Keeps t) (ht : u.tide = t.tide) (hh : u.mem.home = t.mem.home) (hs : u.mem.spad = t.mem.spad) : s.Keeps u :=
  ⟨ht.trans h.tide, ⟨fun k => hh ▸ h.mem.home k, fun k => hs ▸ h.mem.spad k⟩⟩
/-- An update of memory that keeps its form keeps. -/
theorem State.Keeps.store {s t u : State} (h : s.Keeps t) (ht : u.tide = t.tide) (hm : t.mem.Keeps u.mem) : s.Keeps u :=
  ⟨ht.trans h.tide, h.mem.trans hm⟩

theorem State.Keeps.withMem {s t : State} {m : MemSys} (h : s.Keeps t) (hm : t.mem.Keeps m) : s.Keeps { t with mem := m } :=
  ⟨h.tide, h.mem.trans hm⟩

/-- A fold keeps what each step keeps. -/
theorem State.Keeps.foldl {α : Type} {s : State} (g : State → α → State) (hg : ∀ t x, s.Keeps t → s.Keeps (g t x)) :
    ∀ (xs : List α) (t : State), s.Keeps t → s.Keeps (xs.foldl g t)
  | [], _, h => h
  | x :: xs, t, h => foldl g hg xs (g t x) (hg t x h)
/-- A fold whose accumulator carries a state keeps what each step keeps. -/
theorem State.Keeps.foldl_on {α β : Type} {s : State} (st : β → State) (g : β → α → β) (hg : ∀ b x, s.Keeps (st b) → s.Keeps (st (g b x))) :
    ∀ (xs : List α) (b : β), s.Keeps (st b) → s.Keeps (st (xs.foldl g b))
  | [], _, h => h
  | x :: xs, b, h => foldl_on st g hg xs (g b x) (hg b x h)
theorem MemSys.Keeps.foldl {α : Type} {m : MemSys} (g : MemSys → α → MemSys) (hg : ∀ n x, m.Keeps n → m.Keeps (g n x)) :
    ∀ (xs : List α) (n : MemSys), m.Keeps n → m.Keeps (xs.foldl g n)
  | [], _, h => h
  | x :: xs, n, h => foldl g hg xs (g n x) (hg n x h)

/-! ## Memory -/

theorem MemSys.Keeps.putHome {m n : MemSys} (h : m.Keeps n) (pa : Nat) (c : CByte) : m.Keeps (n.putHome pa c) :=
  ⟨fun k => wf_writeByte _ _ _ (h.home k), h.spad⟩
/-- Bytes written one after another keep. -/
theorem MemSys.Keeps.putHomes {m n : MemSys} (h : m.Keeps n) (is : List Nat) (f : Nat → Nat) (g : Nat → CByte) :
    m.Keeps (is.foldl (fun n i => n.putHome (f i) (g i)) n) := .foldl _ (fun _ _ h => h.putHome _ _) _ _ h
/-- An update of caches keeps. -/
theorem MemSys.Keeps.caches {m n o : MemSys} (h : m.Keeps n) (hh : o.home = n.home) (hs : o.spad = n.spad) : m.Keeps o :=
  ⟨fun k => hh ▸ h.home k, fun k => hs ▸ h.spad k⟩
theorem MemSys.Keeps.writeBack {m n : MemSys} (h : m.Keeps n) (x : L2Sector) : m.Keeps (n.writeBack x) := by
  have := MemSys.Keeps.foldl (m := m) (fun n i => if x.dirty.getLsbD i then n.putHome (64 * x.sec + i) (x.data.getD i ⟨0, none⟩) else n)
    (fun n i h => by split; exacts [h.putHome _ _, h]) (List.range 64) n h
  unfold MemSys.writeBack
  dsimp only
  split
  · exact this.caches rfl rfl
  · exact this
theorem MemSys.Keeps.writeBacks {m n : MemSys} (h : m.Keeps n) (xs : List L2Sector) : m.Keeps (xs.foldl MemSys.writeBack n) :=
  .foldl _ (fun _ x h => h.writeBack x) _ _ h
theorem MemSys.Keeps.recall {m n : MemSys} (h : m.Keeps n) (line : Nat) (keep : Nat → Bool) : m.Keeps (n.recall line keep) :=
  (h.writeBacks (n.l2.filter fun x => x.sec / 4 == line && x.dirty != 0 && !keep x.die)).caches rfl rfl
theorem MemSys.Keeps.push {m n : MemSys} (h : m.Keeps n) (die : Nat) : m.Keeps (n.push die) := h.writeBacks _
theorem MemSys.Keeps.evict {m n : MemSys} (h : m.Keeps n) (die line : Nat) : m.Keeps (n.evict die line) :=
  (h.writeBacks (n.l2.filter fun x => x.die == die && x.sec / 4 == line)).caches rfl rfl
theorem MemSys.Keeps.roomL2 {m n : MemSys} (h : m.Keeps n) (die line : Nat) : m.Keeps (n.roomL2 die line) := by
  simp only [MemSys.roomL2]
  repeat' split
  all_goals first
    | exact h
    | exact h.evict _ _
theorem MemSys.Keeps.putL2 {m n : MemSys} (h : m.Keeps n) (x : L2Sector) : m.Keeps (n.putL2 x) := ⟨h.home, h.spad⟩
theorem MemSys.Keeps.putL1 {m n : MemSys} (h : m.Keeps n) (x : L1Sector) : m.Keeps (n.putL1 x) := ⟨h.home, h.spad⟩
theorem MemSys.Keeps.dropL1 {m n : MemSys} (h : m.Keeps n) (c k : Nat) : m.Keeps (n.dropL1 c k) := ⟨h.home, h.spad⟩
theorem MemSys.Keeps.dropL2 {m n : MemSys} (h : m.Keeps n) (c k : Nat) : m.Keeps (n.dropL2 c k) := ⟨h.home, h.spad⟩
theorem MemSys.Keeps.mergeL1 {m n : MemSys} (h : m.Keeps n) (core pa : Nat) (bs : List CByte) : m.Keeps (n.mergeL1 core pa bs) := by
  simp only [MemSys.mergeL1]
  split
  · exact h.putL1 _
  · exact h
theorem MemSys.Keeps.mergeL2 {m n : MemSys} (h : m.Keeps n) (die pa : Nat) (bs : List CByte) (d e f : Bool) : m.Keeps (n.mergeL2 die pa bs d e f) := by
  simp only [MemSys.mergeL2]
  repeat' split
  all_goals first
    | exact h
    | exact h.putL2 _
    | exact (h.roomL2 _ _).putL2 _

variable {s t : State}

theorem State.Keeps.fillTlb (h : s.Keeps t) (core : Nat) (ctx : BitVec 3) (va : Nat) : s.Keeps (t.fillTlb core ctx va) := by
  unfold State.fillTlb
  repeat' split
  all_goals first
    | exact h
    | exact State.Keeps.withMem (t := t) h ⟨id, id⟩
theorem State.Keeps.fillL2 (h : s.Keeps t) (die sec lease : Nat) (o e : Bool) : s.Keeps (t.fillL2 die sec lease o e).2 := by
  have room (m : MemSys) (hm : t.mem.Keeps m) : t.mem.Keeps (m.roomL2 die (sec / 4)) := hm.roomL2 _ _
  cases o
  · exact h.withMem ((room t.mem (.refl _)).caches rfl rfl)
  · exact h.withMem ((room _ ((MemSys.Keeps.refl t.mem).recall (sec / 4) (· == die))).caches rfl rfl)
theorem State.Keeps.storeBytes (h : s.Keeps t) (core : Nat) (cp : BitVec 2) (b e f : Bool) (pa : Nat) (bs : List CByte) :
    s.Keeps (t.storeBytes core cp b e f pa bs) := by
  simp only [State.storeBytes]
  split
  · exact h.withMem (.mergeL2 (.putHomes ((MemSys.Keeps.refl _).recall _ _) _ _ _) _ _ _ _ _ _)
  · exact h.withMem (.mergeL2 ((MemSys.Keeps.refl _).recall _ _) _ _ _ _ _ _)
theorem State.Keeps.homeWriteAs (h : s.Keeps t) (st : Option Stamp) (pa : Nat) (bs : List Byte) : s.Keeps (t.homeWriteAs st pa bs) :=
  h.store rfl ((MemSys.Keeps.foldl _ (fun _ _ h => (h.recall _ _).putHome _ _) _ _ (.refl _)).caches rfl rfl)
theorem State.Keeps.homeWrite (h : s.Keeps t) (pa : Nat) (bs : List Byte) : s.Keeps (t.homeWrite pa bs) := h.homeWriteAs none pa bs
theorem State.Keeps.homeRead (h : s.Keeps t) (pa n : Nat) : s.Keeps (t.homeRead pa n).2 :=
  h.store rfl (.foldl _ (fun _ _ h => h.recall _ _) _ _ (.refl _))
theorem State.Keeps.loadBytes (h : s.Keeps t) (core : Nat) (cp ch : BitVec 2) (pa n a b : Nat) : s.Keeps (t.loadBytes core cp ch pa n a b).2 := by
  have drop (u : State) (hu : s.Keeps u) (c k : Nat) : s.Keeps { u with mem := u.mem.dropL1 c k } := hu.withMem ((MemSys.Keeps.refl _).dropL1 _ _)
  simp only [State.loadBytes]
  split
  · exact h.withMem (((MemSys.Keeps.refl _).recall _ _).dropL1 _ _ |>.dropL2 _ _)
  · split
    · exact h
    · generalize hr : (if t.mem.l2Serves (dieOfCore core) (sectorOf pa) (t.tideOf (dieOfCore core)) (pa % 64) n then _ else t.fillL2 _ _ _ _ _ : L2Sector × State) = r
      have hk : s.Keeps r.2 := by
        subst hr
        split
        · exact h.withMem ((MemSys.Keeps.refl _).putL2 _)
        · exact h.fillL2 _ _ _ _ _
      dsimp only
      split
      · split
        · refine hk.withMem ?_
          split <;> exact (MemSys.Keeps.refl r.2.mem).caches rfl rfl
        · exact drop _ hk _ _
      · exact drop _ hk _ _
theorem State.Keeps.atomicCopy (h : s.Keeps t) (die pa sz lease : Nat) (e : Bool) : s.Keeps (t.atomicCopy die pa sz lease e).2 := by
  simp only [State.atomicCopy]
  split
  · exact h.withMem ((MemSys.Keeps.refl _).putL2 _)
  · exact h.fillL2 _ _ _ _ _
theorem State.Keeps.atomicAt (h : s.Keeps t) (core : Nat) (cp : BitVec 2) (sc : Nat) (op : BitVec 3) (sz pa x c l : Nat) (e : Bool)
    (st : List Nat → Option Stamp) : s.Keeps (t.atomicAt core cp sc op sz pa x c l e st).after := by
  simp only [State.atomicAt]
  split
  · exact (h.atomicCopy _ _ _ _ _).withMem ((MemSys.Keeps.refl _).mergeL1 _ _ _)
  · exact h.withMem (.dropL2 (.dropL1 (.putHomes ((MemSys.Keeps.refl _).recall _ _) _ _ _) _ _) _ _)
theorem State.Keeps.noteTimes (h : s.Keeps t) (u i : Nat) (ts : List Nat) : s.Keeps (t.noteTimes u i ts) := h.same rfl rfl
theorem State.Keeps.newCond (h : s.Keeps t) (sc : Nat) : s.Keeps (t.newCond sc).2 := h.same rfl rfl

end Sys2Proof.Machine
end

