-- ==== Sys2Proof/Tests/Slice0.lean ====
section
/-! SUPPORT. Tests of the model: ill-formed terms that WellFormed refuses, words written out from the spec's encodings, results the spec works out, and for each
obligation with hypotheses a state and operands that meet them. -/

namespace Sys2Proof.Tests
open Sys2Proof Sys2Proof.Machine
set_option Elab.async false

/-! ## Small states -/

/-- One warp in context 0, loaded by hand (notes/assumptions/13.md). -/
def base : State := State.reset.loaded []
def setV (s : State) (r : Nat) (v : VReg) : State :=
  { s with cur := { s.cur with arch := { s.cur.arch with vregs := s.cur.arch.vregs.set r v } } }
def setP (s : State) (p : Nat) (m : Mask) : State :=
  { s with cur := { s.cur with arch := { s.cur.arch with preds := s.cur.arch.preds.set p m } } }
def setLanes (s : State) (f : Nat → Lane → Lane) : State :=
  { s with cur := { s.cur with arch := { s.cur.arch with lanes := s.cur.arch.lanes.mapIdx f } } }
def setSets (s : State) (l : List RejoinSet) : State := { s with cur := { s.cur with arch := { s.cur.arch with sets := l } } }
/-- A general register with the given lane values. -/
def gv (f : Nat → Nat) : VReg := .g ((List.range 128).map fun l => BitVec.ofNat 32 (f l))
/-- Base controls: true guard, the length code n. -/
def ct (n : BitVec 2) : Ctl := ⟨false, 7, n, 0, false⟩
/-- No lane is active. -/
def cOff : Ctl := ⟨true, 7, 0, 0, false⟩
/-- Guard p1. -/
def cP : Ctl := ⟨false, 1, 0, 0, false⟩
/-- The state after an instruction or an event, the state itself when it does not complete. -/
def after (s : State) (i : Instr) : State := match exec i s with
  | .next t => t
  | _ => s
/-- What a lane of a register holds after an instruction. -/
def laneAfter (s : State) (i : Instr) (r : Reg) (l : Nat) : Word := (after s i).rd r l
def regAfter (s : State) (i : Instr) (r : Reg) : VReg := (after s i).reg r
def predAfter (s : State) (i : Instr) (p : PReg) : Mask := (after s i).cur.pred p
def nsat (s : State) : Nat := (s.wgs.flatMap (·.stats)).foldl (fun t r => t + r.nsat) 0

/-- A state is ready for an instruction when the three conditions compute to true. -/
theorem ready_of {s : State} {c : Ctl} {names ds : List Reg} {flat : Bool}
    (h : ((names.all s.cur.nameable && s.act c != 0) && ((flat && wholeWrite s.cur.live (s.act c))
      || decide (s.cur.arch.gCount + (ds.filter fun d => !(s.cur.arch.vregs.getD d.toNat (.u 0)).isG && !s.isRecord d).length ≤ s.cur.hdr.gmax))) = true) :
    s.Ready c names ds flat := by
  simp only [Bool.and_eq_true, Bool.or_eq_true, List.all_eq_true, decide_eq_true_eq, bne_iff_ne] at h
  exact ⟨h.1.1, h.1.2, h.2⟩

/-! ## Terms the encoding does not admit -/

def iz : IMod := ⟨false, false, false⟩
def fz : FMod := ⟨0, false, false, false⟩
def mz : MMod := ⟨0, 0, 0, 0, 0⟩
def cz : CMod := ⟨0, 0, 0, false, 0, false, 0, 1⟩
def az : AMod := ⟨false, false, 0, false, false, 0, 0, 0⟩

theorem test_wf_length_codes : Instr.wellFormed (.iadd (ct 2) iz 0 0 0) = false ∧ Instr.wellFormed (.iaddImmediate (ct 1) iz 0 0 0) = false
    ∧ Instr.wellFormed (.imad (ct 0) iz 0 0 0 0) = false ∧ Instr.wellFormed (.qinit (ct 0) 0 0 1 false) = false := by decide
theorem test_wf_extension_fields : Instr.wellFormed (.iadd ⟨false, 7, 0, 1, false⟩ iz 0 0 0) = false ∧ Instr.wellFormed (.nop ⟨false, 7, 0, 0, true⟩) = false
    ∧ Instr.wellFormed (.iadd (ct 0) ⟨false, true, false⟩ 0 0 0) = false ∧ Instr.wellFormed (.fadd (ct 0) ⟨1, false, false, false⟩ 0 0 0) = false
    ∧ Instr.wellFormed (.ld (ct 0) ⟨0, 0, 0, 0, 4⟩ 0 0) = false ∧ Instr.wellFormed (.barSync (ct 0) 1) = false := by decide
theorem test_wf_pairs : Instr.wellFormed (.iadd (ct 1) ⟨true, false, false⟩ 1 0 0) = false ∧ Instr.wellFormed (.and (ct 1) true 0 1 0) = false
    ∧ Instr.wellFormed (.ld (ct 1) mz 0 1) = false ∧ Instr.wellFormed (.brx (ct 0) 1) = false ∧ Instr.wellFormed (.time (ct 0) 1) = false
    ∧ Instr.wellFormed (.sread (ct 1) 1 9) = false := by decide
theorem test_wf_blocks : Instr.wellFormed (.ld (ct 1) ⟨6, 0, 0, 0, 0⟩ 2 0) = false ∧ Instr.wellFormed (.atom (ct 1) ⟨5, 0, 0, 0, 0⟩ 7 0 0 2) = false
    ∧ Instr.wellFormed (.vote (ct 1) 3 2 0) = false ∧ Instr.wellFormed (.axm (ct 1) ⟨false, false, 0, false, false, 0, 7, 0⟩ 61 0) = false
    ∧ Instr.wellFormed (.axm (ct 1) ⟨false, false, 0, false, false, 0, 7, 255⟩ 0 49) = false
    ∧ Instr.wellFormed (.bcopy (ct 1) ⟨0, 0, 0, false, 0, false, 0, 5⟩ 0 0 60 0) = false := by decide
theorem test_wf_immediate_width : Instr.wellFormed (.iaddImmediate (ct 2) iz 0 0 0x100000000) = false
    ∧ Instr.wellFormed (.movi (ct 2) false 0 0x100000000) = false ∧ Instr.wellFormed (.iaddImmediate (ct 3) ⟨true, false, false⟩ 0 0 0x100000000) = true := by decide
theorem test_wf_integer_modifiers : Instr.wellFormed (.imulh (ct 1) ⟨false, false, true⟩ 0 0 0) = false ∧ Instr.wellFormed (.iabs (ct 1) ⟨false, true, false⟩ 0 0) = false
    ∧ Instr.wellFormed (.iminImmediate (ct 3) ⟨false, false, true⟩ 0 0 0) = false := by decide
theorem test_wf_conditions : Instr.wellFormed (.icmp (ct 1) false false 6 0 0 0) = false ∧ Instr.wellFormed (.icmpImmediate (ct 3) false false 7 0 0 0) = false
    ∧ Instr.wellFormed (.icmp (ct 1) false false 5 0 0 0) = true := by decide
theorem test_wf_bit_fields : Instr.wellFormed (.bfe (ct 1) false false 0 0 31 1) = false ∧ Instr.wellFormed (.bfe (ct 1) false false 0 0 31 0) = true
    ∧ Instr.wellFormed (.bfi (ct 1) true 0 0 0 63 1) = false := by decide
theorem test_wf_lea : Instr.wellFormed (.lea (ct 1) false true 0 0 0 2) = false := by decide
theorem test_wf_float_controls : Instr.wellFormed (.fmin (ct 1) ⟨1, false, false, false⟩ 0 0 0) = false ∧ Instr.wellFormed (.hmax2Immediate (ct 3) ⟨0, true, false, false⟩ 0 0 0) = false
    ∧ Instr.wellFormed (.frcp (ct 1) ⟨0, true, false, false⟩ 0 0) = false ∧ Instr.wellFormed (.frnd (ct 1) ⟨0, false, false, true⟩ 0 0) = false := by decide
theorem test_wf_cvt_codes : Instr.wellFormed (.cvt (ct 1) fz 11 0 0 0) = false ∧ Instr.wellFormed (.cvt (ct 1) fz 0 11 0 0) = false
    ∧ Instr.wellFormed (.cvt (ct 1) ⟨1, false, false, false⟩ 0 6 0 0) = false := by decide
theorem test_wf_lane_segments : Instr.wellFormed (.lanex (ct 1) 7 0 0 0 0) = false ∧ Instr.wellFormed (.lanexImmediate (ct 3) 7 0 0 0 0) = false := by decide
theorem test_wf_predicates : Instr.wellFormed (.vote (ct 1) 0 8 0) = false ∧ Instr.wellFormed (.pset (ct 1) 5 0 0 0) = false
    ∧ Instr.wellFormed (.pset (ct 1) 4 0 0 1) = false ∧ Instr.wellFormed (.pset (ct 1) 0 0 8 0) = false := by decide
theorem test_wf_memory_sizes : Instr.wellFormed (.ld (ct 1) ⟨7, 0, 0, 0, 0⟩ 0 0) = false ∧ Instr.wellFormed (.st (ct 1) ⟨2, 0, 0, 0, 0⟩ 0 0) = false
    ∧ Instr.wellFormed (.atom (ct 1) ⟨1, 0, 0, 0, 0⟩ 0 0 0 0) = false ∧ Instr.wellFormed (.atoms (ct 1) ⟨5, 0, 0, 0, 0⟩ 1 0 0 0) = false := by decide
theorem test_wf_memory_orders : Instr.wellFormed (.ld (ct 1) ⟨0, 2, 4, 0, 0⟩ 0 0) = false ∧ Instr.wellFormed (.st (ct 1) ⟨0, 1, 4, 0, 0⟩ 0 0) = false
    ∧ Instr.wellFormed (.ld (ct 1) ⟨0, 1, 0, 0, 0⟩ 0 0) = false ∧ Instr.wellFormed (.ld (ct 1) ⟨0, 1, 6, 0, 0⟩ 0 0) = false
    ∧ Instr.wellFormed (.lds (ct 1) ⟨0, 0, 0, 1, 0⟩ 0 0) = false ∧ Instr.wellFormed (.red (ct 1) ⟨0, 1, 4, 0, 0⟩ 0 0 0) = false := by decide
theorem test_wf_atomics : Instr.wellFormed (.atomsCluster (ct 1) mz 0 0 0 0 0) = false ∧ Instr.wellFormed (.red (ct 1) mz 6 0 0) = false := by decide
theorem test_wf_fence : Instr.wellFormed (.fence (ct 1) 0 1) = false ∧ Instr.wellFormed (.fence (ct 1) 3 0) = false ∧ Instr.wellFormed (.fence (ct 1) 3 6) = false := by decide
theorem test_wf_control : Instr.wellFormed (.bra (ct 1) 2) = false ∧ Instr.wellFormed (.call (ct 1) 1) = false ∧ Instr.wellFormed (.trap (ct 1) 255) = false
    ∧ Instr.wellFormed (.jenterF (ct 0) 0) = false ∧ Instr.wellFormed (.barArrive (ct 0) 0) = false := by decide
theorem test_wf_copies : Instr.wellFormed (.bcopy (ct 1) { cz with nc := 0 } 0 0 0 0) = false ∧ Instr.wellFormed (.bcopy (ct 1) { cz with nc := 6 } 0 0 0 0) = false
    ∧ Instr.wellFormed (.bcopy (ct 1) { cz with ord := 1, scope := 4 } 0 0 0 0) = false ∧ Instr.wellFormed (.bcopy (ct 1) { cz with wide := true } 0 0 0 1) = false
    ∧ Instr.wellFormed (.bcopyr (ct 1) cz 5 0 0 0 0) = false ∧ Instr.wellFormed (.xred (ct 1) cz 0 0) = false
    ∧ Instr.wellFormed (.xred (ct 1) { cz with nc := 0, wide := true } 0 0) = false := by decide
theorem test_wf_queues : Instr.wellFormed (.qinit (ct 2) 0 0 0 false) = false ∧ Instr.wellFormed (.qinit (ct 2) 0 0 13 false) = false
    ∧ Instr.wellFormed (.qpush (ct 3) true 0 0 1) = false ∧ Instr.wellFormed (.qpop (ct 2) false 1 0 0) = false := by decide
theorem test_wf_arrays : Instr.wellFormed (.amode (ct 1) true true 0 1) = false ∧ Instr.wellFormed (.amode (ct 1) false true 1 0) = false
    ∧ Instr.wellFormed (.axm (ct 1) { az with rep := 3 } 0 0) = false ∧ Instr.wellFormed (.acfg (ct 0) false 0 0) = false := by decide
theorem test_wf_special_registers : Instr.wellFormed (.sread (ct 1) 0 10) = false ∧ Instr.wellFormed (.sread (ct 1) 0 0x16) = false
    ∧ Instr.wellFormed (.sread (ct 1) 0 0x40) = false ∧ Instr.wellFormed (.sread (ct 1) 0 0x3F) = true ∧ Instr.wellFormed (.swrite (ct 0) 0) = false := by decide
theorem test_wf_tasks : Instr.wellFormed (.invoke (ct 0) 1 0) = false ∧ Instr.wellFormed (.invokeCore (ct 0) 0 0 0) = false
    ∧ Instr.wellFormed (.await (ct 0) 0 0 0) = false ∧ Instr.wellFormed (.hbreak (ct 0) 1) = false ∧ Instr.wellFormed (.hdrop (ct 0) 1) = false := by decide
theorem test_wf_events : Instr.wellFormed .hold = false ∧ Instr.wellFormed (.recall 0) = false := by decide

/-! ## Words written out from the spec's encodings -/

/-- A word of LEN 01, 10 or 11 with what follows the base word. -/
def ext (w e : Nat) : Nat := e * 2 ^ 32 + w
def ext2 (w e l : Nat) : Nat := l * 2 ^ 96 + e * 2 ^ 32 + w

theorem test_decode_integer :
    decodeTableWord 96 (ext 0x70041002 1) = some (.iaddImmediate (ct 2) iz 4 4 1)
    ∧ decodeTableWord 96 (ext 0x70811001 0x10000) = some (.iadd (ct 1) ⟨false, false, true⟩ 4 1 2)
    ∧ decodeTableWord 96 (ext 0x70811411 3) = some (.imad (ct 1) iz 5 1 2 3)
    ∧ decodeTableWord 96 (ext 0x70C20455 0x500) = some (.icmp (ct 1) false true 2 1 2 3) := by decide +kernel
theorem test_decode_logic :
    decodeTableWord 96 (ext 0x70010C26 0xFF) = some (.andImmediate (ct 2) false 3 1 0xFF)
    ∧ decodeTableWord 96 (ext 0x70010C2A 0xFF) = some (.orImmediate (ct 2) false 3 1 0xFF)
    ∧ decodeTableWord 32 0x70810C2C = some (.xor (ct 0) false 3 1 2) ∧ decodeTableWord 32 0x70010830 = some (.not (ct 0) false 2 1) := by decide +kernel
theorem test_decode_shifts_and_bits :
    decodeTableWord 96 (ext 0x70000436 2) = some (.shlImmediate (ct 2) false 1 0 2)
    ∧ decodeTableWord 96 (ext 0x7001083A 4) = some (.shrImmediate (ct 2) false 2 1 4) ∧ decodeTableWord 96 (ext 0x7001083E 4) = some (.sarImmediate (ct 2) false 2 1 4)
    ∧ decodeTableWord 32 0x70010840 = some (.popc (ct 0) false 2 1) ∧ decodeTableWord 32 0x70010844 = some (.clz (ct 0) false 2 1)
    ∧ decodeTableWord 32 0x70010848 = some (.brev (ct 0) false 2 1)
    ∧ decodeTableWord 96 (ext 0x7001084D 0x1C400000000) = some (.bfe (ct 1) false false 2 1 4 7)
    ∧ decodeTableWord 96 (ext 0x70811059 3) = some (.sel (ct 1) 4 1 2 3)
    ∧ decodeTableWord 96 (ext 0x7084185D 0x200000800) = some (.lea (ct 1) true false 6 4 2 2) := by decide +kernel
theorem test_decode_float :
    decodeTableWord 96 (ext 0x70811081 0x3000) = some (.fadd (ct 1) ⟨3, false, false, false⟩ 4 1 2)
    ∧ decodeTableWord 96 (ext 0x70C20499 0x100) = some (.fcmp (ct 1) false 2 1 2 3)
    ∧ decodeTableWord 32 0x70810CC0 = some (.hadd2 (ct 0) fz 3 1 2)
    ∧ decodeTableWord 96 (ext 0x70010CD5 0x8000001000) = some (.cvt (ct 1) ⟨1, false, false, false⟩ 0 8 3 1) := by decide +kernel
theorem test_decode_moves :
    decodeTableWord 32 0x70010D00 = some (.mov (ct 0) false 3 1) ∧ decodeTableWord 96 (ext 0x70000906 0xFFFFFFFF) = some (.movi (ct 2) false 2 0xFFFFFFFF)
    ∧ decodeTableWord 160 (ext2 0x70010D0B 0x40 1) = some (.lanexImmediate (ct 3) 0 1 3 1 1)
    ∧ decodeTableWord 32 0x7002050C = some (.vote (ct 0) 0 1 2) ∧ decodeTableWord 96 (ext 0x7002050D 0x40) = some (.vote (ct 1) 1 1 2)
    ∧ decodeTableWord 96 (ext 0x70810D11 0x40) = some (.pset (ct 1) 1 3 1 2)
    ∧ decodeTableWord 32 0x70021514 = some (.pcnt (ct 0) false 5 2) ∧ decodeTableWord 96 (ext 0x70021515 0x40) = some (.pcnt (ct 1) true 5 2)
    ∧ decodeTableWord 32 0x70020918 = some (.unif (ct 0) 2 2) ∧ decodeTableWord 32 0x7002151C = some (.shape (ct 0) 5 2) := by decide +kernel
theorem test_decode_memory :
    decodeTableWord 96 (ext 0x70062141 0x1000180000) = some (.ld (ct 1) ⟨0, 1, 4, 0, 16⟩ 8 6)
    ∧ decodeTableWord 32 0x70420160 = some (.red (ct 0) mz 0 2 1) ∧ decodeTableWord 96 (ext 0x70420161 0x280000) = some (.red (ct 1) ⟨0, 2, 4, 0, 0⟩ 0 2 1)
    ∧ decodeTableWord 96 (ext 0x70000165 0x380000) = some (.fence (ct 1) 3 4)
    ∧ decodeTableWord 96 (ext 0x70060169 0x200) = some (.cctlWb (ct 1) 6 0) ∧ decodeTableWord 96 (ext 0x70000169 0x400) = some (.cctlIcore (ct 1))
    ∧ decodeTableWord 32 0x7006016C = some (.pref (ct 0) false 6 0) := by decide +kernel
theorem test_decode_control :
    decodeTableWord 32 0x700801C4 = some (.brx (ct 0) 8) ∧ decodeTableWord 32 0x700801CC = some (.callx (ct 0) 8) ∧ decodeTableWord 32 0x700001D0 = some (.ret (ct 0))
    ∧ decodeTableWord 32 0x700001D4 = some (.exit (ct 0)) ∧ decodeTableWord 32 0x700001D8 = some (.yield (ct 0)) ∧ decodeTableWord 32 0x700001DC = some (.nop (ct 0))
    ∧ decodeTableWord 32 0x700001F4 = some (.barSync (ct 0) 0) ∧ decodeTableWord 96 (ext 0x700001F9 0x500000000) = some (.trap (ct 1) 5)
    ∧ decodeTableWord 32 0x700001FC = some (.brk (ct 0)) ∧ decodeTableWord 32 0x70000314 = some (.trapret (ct 0)) := by decide +kernel
theorem test_decode_rejoin :
    decodeTableWord 32 0x700001E0 = some (.jenter (ct 0) 0) ∧ decodeTableWord 96 (ext 0x700021E1 0x40) = some (.jenterF (ct 1) 8)
    ∧ decodeTableWord 32 0x700001E4 = some (.jquit (ct 0) 0) ∧ decodeTableWord 32 0x700001E8 = some (.jwait (ct 0) 0)
    ∧ decodeTableWord 32 0x7008A1EC = some (.jget (ct 0) 40 8) ∧ decodeTableWord 32 0x702821F0 = some (.jput (ct 0) 8 40) := by decide +kernel
theorem test_decode_copies_and_queues :
    decodeTableWord 96 (ext 0x70047A09 0x1280000000280000) = some (.xred (ct 1) ⟨2, 4, 0, false, 37, false, 0, 0⟩ 30 4)
    ∧ decodeTableWord 96 (ext 0x70020212 0x18) = some (.qinit (ct 2) 0 2 3 false) ∧ decodeTableWord 96 (ext 0x71400216 0) = some (.qpush (ct 2) false 0 0 5)
    ∧ decodeTableWord 32 0x10042AC0 = some (.bjob ⟨false, 1, 0, 0, false⟩ 10 4) := by decide +kernel
theorem test_decode_arrays :
    decodeTableWord 96 (ext 0x70000241 0x100000040) = some (.amode (ct 1) false true 0 1)
    ∧ decodeTableWord 96 (ext 0x70000245 0x200000C00) = some (.acfg (ct 1) true 2 2)
    ∧ decodeTableWord 96 (ext 0x7000164D 0x300000040) = some (.aqryImmediate (ct 1) 5 3) := by decide +kernel
theorem test_decode_tasks :
    decodeTableWord 32 0x70042A80 = some (.invoke (ct 0) 10 4) ∧ decodeTableWord 96 (ext 0x70042A81 0x46) = some (.invokeCore (ct 1) 10 4 6)
    ∧ decodeTableWord 96 (ext 0x70042A81 0x86) = some (.invokePark (ct 1) 10 4 6) ∧ decodeTableWord 32 0x73042A84 = some (.chain (ct 0) 10 4 12)
    ∧ decodeTableWord 96 (ext 0x73002A89 0x300) = some (.await (ct 1) 3 10 12) ∧ decodeTableWord 96 (ext 0x7300028D 0x200) = some (.hpoll (ct 1) 2 12)
    ∧ decodeTableWord 32 0x70000290 = some (.hset (ct 0) 0) ∧ decodeTableWord 96 (ext 0x70000295 0x700000000) = some (.hbreak (ct 1) 7)
    ∧ decodeTableWord 32 0x73000298 = some (.hdrop (ct 0) 12) := by decide +kernel
theorem test_decode_special :
    decodeTableWord 32 0x70000B00 = some (.sread (ct 0) 2 0) ∧ decodeTableWord 96 (ext 0x70001B01 0x900000000) = some (.sread (ct 1) 6 9)
    ∧ decodeTableWord 96 (ext 0x70040305 0x700000000) = some (.swrite (ct 1) 4) ∧ decodeTableWord 32 0x70001B08 = some (.time (ct 0) 6)
    ∧ decodeTableWord 96 (ext 0x7000030D 0x32000000000) = some (.sleep (ct 1) 800) ∧ decodeTableWord 32 0x70000310 = some (.stat (ct 0))
    ∧ decodeTableWord 96 (ext 0x70000311 0x500000040) = some (.statOne (ct 1) 5) := by decide +kernel
theorem test_decode_refuses : decodeTableWord 32 0x700003FC = none ∧ decodeTableWord 96 (ext 0x70C20455 0x700) = none ∧ decodeTableWord 32 0x78010848 = none := by decide +kernel

/-! ## Results the spec works out -/

def sat1 : IMod := ⟨false, false, true⟩
/-- v1 and v2 uniform, v0 the lane number. -/
def counting : State := { base with wgs := base.wgs.map fun g => { g with hdr := { g.hdr with statp := 0x5000 } } }
def two (x y : Word) : State := setV (setV (setV counting 0 (.a 0 1)) 1 (.u x)) 2 (.u y)
/-- Controls with tensor identifier 5, whose counts are kept. -/
def cs (n : BitVec 2) : Ctl := ⟨false, 7, n, 5, false⟩
/-- The value in lane 0 and the saturations counted, one for each of the 128 active lanes. -/
def res (s : State) (i : Instr) (r : Reg) : Word × Nat := (laneAfter s i r 0, nsat (after s i))

/-- R328, the table of worked results. -/
theorem test_iadd_saturates : res (two 0x7FFFFFFF 0) (.iaddImmediate (cs 3) sat1 2 1 1) 2 = (0x7FFFFFFF, 128)
    ∧ res (two 0x7FFFFFFF 0) (.iaddImmediate (cs 3) ⟨false, true, true⟩ 2 1 1) 2 = (0x80000000, 0)
    ∧ res (two 0 3) (.isubImmediate (cs 3) ⟨false, true, true⟩ 2 2 5) 2 = (0, 128) := by decide +kernel
theorem test_imulh_keeps_the_high_half : res (two 0x80000000 0) (.imulhImmediate (cs 3) iz 2 1 2) 2 = (0xFFFFFFFF, 0)
    ∧ res (two 0x80000000 0) (.imulhImmediate (cs 3) ⟨false, true, false⟩ 2 1 2) 2 = (1, 0) := by decide +kernel
theorem test_iabs_of_the_most_negative : res (two 0x80000000 0) (.iabs (cs 1) iz 2 1) 2 = (0x80000000, 0)
    ∧ res (two 0x80000000 0) (.iabs (cs 1) sat1 2 1) 2 = (0x7FFFFFFF, 128) := by decide +kernel
theorem test_imad_affine : regAfter (setV (two 0 4) 6 (.u 100)) (.imad (ct 1) iz 5 0 2 6) 5 = .a 100 4
    ∧ regAfter (setV (two 0 4) 6 (.u 100)) (.imad (ct 1) sat1 5 0 2 6) 5 = gv fun l => 100 + 4 * l := by decide +kernel
/-- R329. -/
theorem test_icmp_signed_and_unsigned : predAfter (two 0 0xFFFFFFFF) (.icmpImmediate (ct 3) false false 2 1 2 1) 1 = BitVec.allOnes 128
    ∧ predAfter (two 0 0xFFFFFFFF) (.icmpImmediate (ct 3) false true 2 1 2 1) 1 = 0 := by decide +kernel
/-- R354. -/
theorem test_shifts : laneAfter (two 0x800000F0 0) (.shlImmediate (ct 2) false 2 1 4) 2 0 = 0x00000F00
    ∧ laneAfter (two 0x800000F0 0) (.shrImmediate (ct 2) false 2 1 4) 2 0 = 0x0800000F
    ∧ laneAfter (two 0x800000F0 0) (.sarImmediate (ct 2) false 2 1 4) 2 0 = 0xF800000F
    ∧ laneAfter (two 0x800000F0 0) (.sarImmediate (ct 2) false 2 1 40) 2 0 = 0xFFFFFFFF := by decide +kernel
/-- R300, R303, R312, R344. -/
theorem test_bit_fields : laneAfter (two 0xA5C 0) (.bfe (ct 1) false false 2 1 4 7) 2 0 = 0xFFFFFFA5 ∧ laneAfter (two 0xA5C 0) (.bfe (ct 1) false true 2 1 4 7) 2 0 = 0xA5
    ∧ laneAfter (setV (two 0xA5 0) 3 (.u 0x12345678)) (.bfi (ct 1) false 4 1 3 8 7) 4 0 = 0x1234A578 := by decide +kernel
theorem test_bit_counts : laneAfter (two 0x8000 0) (.clz (ct 0) false 2 1) 2 0 = 16 ∧ laneAfter (two 0 0) (.clz (ct 0) false 2 1) 2 0 = 32
    ∧ laneAfter (two 0xF0F00001 0) (.popc (ct 0) false 2 1) 2 0 = 9 ∧ laneAfter (two 1 0) (.brev (ct 0) false 2 1) 2 0 = 0x80000000 := by decide +kernel
/-- R339. -/
theorem test_lea : laneAfter (setV (two 0 0) 4 (.u 0x200000)) (.lea (ct 1) true false 6 4 0 2) 6 3 = 0x20000C
    ∧ regAfter (setV (two 0 0xFFFFFFFF) 4 (.u 0x200000)) (.lea (ct 1) true false 6 4 2 2) 6 = .u 0x1FFFFC
    ∧ regAfter (setV (two 0 0xFFFFFFFF) 4 (.u 0x200000)) (.lea (ct 1) true true 6 4 2 2) 7 = .u 4 := by decide +kernel
/-- R320 and its table. -/
theorem test_fadd_rounds : res (two 0x3F800000 0x33800000) (.fadd (cs 1) fz 4 1 2) 4 = (0x3F800000, 0)
    ∧ res (two 0x3F800000 0x33800000) (.fadd (cs 1) ⟨3, false, false, false⟩ 4 1 2) 4 = (0x3F800001, 0)
    ∧ res (two 0x3F800000 0) (.fadd (cs 1) ⟨0, true, false, false⟩ 4 1 1) 4 = (0x3F800000, 128) := by decide +kernel
theorem test_fmin_orders_zeros : laneAfter (two 0x80000000 0) (.fmin (ct 1) fz 4 1 2) 4 0 = 0x80000000 := by decide +kernel
theorem test_fclass : predAfter (two 0xFF800000 0) (.fclass (ct 1) 2 1 0x101) 2 = BitVec.allOnes 128 ∧ predAfter (two 0x7F800000 0) (.fclass (ct 1) 2 1 0x101) 2 = 0 := by decide +kernel
theorem test_hadd2_rounds_each_half : laneAfter (two 0x40003F80 0x3F803B80) (.hadd2 (ct 0) fz 3 1 2) 3 0 = 0x40403F80
    ∧ laneAfter (two 0x40003F80 0x3F803B80) (.hadd2 (ct 1) ⟨3, false, false, false⟩ 3 1 2) 3 0 = 0x40403F81 := by decide +kernel
/-- The conversions of R314. -/
theorem test_cvt_to_integers : res (two 0xC0200000 0) (.cvt (cs 1) fz 0 8 3 1) 3 = (0xFFFFFFFE, 0) ∧ res (two 0xC0200000 0) (.cvt (cs 1) ⟨2, false, false, false⟩ 0 8 3 1) 3 = (0xFFFFFFFD, 0)
    ∧ res (two 0xC0E00000 0) (.cvt (cs 1) fz 0 9 3 1) 3 = (0, 128) ∧ res (two 0x7FC00000 0) (.cvt (cs 1) fz 0 8 3 1) 3 = (0, 128) := by decide +kernel
theorem test_cvt_to_small_formats : cvtBits 0 3 0 false false false 0x43960000 = (0x79, .zero) ∧ cvtBits 0 3 0 false false false 0x43FA0000 = (0x7F, .oneSat)
    ∧ cvtBits 0 3 0 true false false 0x43FA0000 = (0x7E, .oneSat) := by decide +kernel
/-- R335. -/
theorem test_lanex : laneAfter (two 0 0) (.lanexImmediate (ct 3) 0 1 3 0 1) 3 6 = 7 ∧ laneAfter (two 0 0) (.lanexImmediate (ct 3) 2 2 3 0 1) 3 33 = 32
    ∧ laneAfter (two 0 0) (.lanexImmediate (ct 3) 2 2 3 0 1) 3 32 = 32 := by decide +kernel
/-- R356 and the worked shapes of R63. -/
def halves : State := setP (two 0 3) 1 (BitVec.ofNat 128 (2 ^ 64 - 1))
theorem test_unif_finds_the_stride : regAfter (setV (two 0 0) 2 (gv fun l => 5 + 3 * l)) (.unif (ct 0) 2 2) 2 = .a 5 3
    ∧ regAfter (setV (two 0 0) 2 (gv fun l => l * l)) (.unif (ct 0) 2 2) 2 = gv fun l => l * l := by decide +kernel
theorem test_partial_write_is_general : regAfter (setV halves 3 (.u 7)) (.iaddImmediate ⟨false, 1, 2, 0, false⟩ iz 3 3 1) 3 = (gv fun l => if l < 64 then 8 else 7)
    ∧ regAfter halves (.shlImmediate (ct 2) false 1 0 2) 1 = .a 0 4 ∧ regAfter halves (.imul (ct 0) iz 2 0 0) 2 = gv fun l => l * l := by decide +kernel
/-- R334: JGET of a frame-bound set of lanes 0 to 3 at depth 1, and JPUT by lanes 0 to 7. -/
def jset : State := setP (setSets base ((List.replicate 16 RejoinSet.empty).set 8 ⟨15, 0, true, 1⟩)) 1 255
theorem test_jget_word : laneAfter jset (.jget (ct 0) 40 8) 40 3 = 0xA0000001 ∧ laneAfter jset (.jget (ct 0) 40 8) 40 4 = 0x20000001 := by decide +kernel
theorem test_jput_rebuilds : (after { setSets (after jset (.jget (ct 0) 40 8)) (List.replicate 16 .empty) with ipc := 0x1004 } (.jput cP 8 40)).setNo 8 = ⟨15, 0, true, 1⟩ := by decide +kernel
/-- R352: lanes 0 and 1 return to 0x1004 at depth 0, lanes 2 and 3 to 0x2204 at depth 1. -/
def retState : State := setLanes (setV base 62 (gv fun l => if l < 2 then 0x1004 else 0x2204)) fun l x =>
  if l < 2 then { x with depth := 1 } else if l < 4 then { x with depth := 2 } else { x with st := .exited }
theorem test_ret : ((List.range 4).map fun l => let x := (after retState (.ret (ct 0))).cur.lane l; (x.pc, x.depth))
    = [(0x1004, 0), (0x1004, 0), (0x2204, 1), (0x2204, 1)] := by decide +kernel
/-- R357: a sleep of 800 issued at 5,002 wakes at 5,802. -/
theorem test_sleep : ((after { base with tide := List.replicate 13 5002 } (.sleep (ct 1) 800)).cur.lane 9).st = .sleeping 5802 := by decide +kernel
/-- R343, R346, R367. -/
theorem test_pcnt_prefix : laneAfter halves (.pcnt (ct 1) true 5 1) 5 3 = 3 ∧ laneAfter halves (.pcnt (ct 1) true 5 1) 5 100 = 64 ∧ laneAfter halves (.pcnt (ct 0) false 5 1) 5 100 = 64 := by
  decide +kernel
theorem test_pset_negates_with_p7 : predAfter halves (.pset (ct 1) 2 2 1 7) 2 = ~~~(BitVec.ofNat 128 (2 ^ 64 - 1)) := by decide +kernel
theorem test_vote_words : laneAfter halves (.vote (ct 1) 3 4 1) 5 0 = 0xFFFFFFFF ∧ laneAfter halves (.vote (ct 1) 3 4 1) 6 0 = 0 := by decide +kernel
/-- The check of "123456789" (R172). -/
theorem test_crc : crc16 [0x31, 0x32, 0x33, 0x34, 0x35, 0x36, 0x37, 0x38, 0x39] = 0x29B1 := by decide +kernel
/-- A trap enters the handler at TRAPH with the record of R232. -/
theorem test_brk_record : ((after base (.brk (ct 0))).cur.arch.handler.map fun h => (h.pc, h.mask, h.words.getD 0 0, h.words.getD 1 0, h.words.getD 7 0))
    = some (0x2000, BitVec.allOnes 128, 0x10000000, 0x1000, 0x40000000) := by decide +kernel
/-! ## Witnesses: states and operands that meet the hypotheses of the obligations

Each theorem is named after its obligation. Where an obligation has clauses with hypotheses of their own, the theorem has a part for each. -/

def isNext : Host.Outcome State Fault Refusal → Bool
  | .next _ => true
  | _ => false
/-- The state after a step, the state itself when there is none. -/
def stepped (s : State) : State := match step s with
  | .next t => t
  | _ => s

theorem witness_DecodeEncodeRoundTrip : Instr.wellFormed (.bfe (ct 1) false false 2 1 31 0) = true
    ∧ encode (.bfe (ct 1) false false 2 1 31 0) = some [0x4D, 0x08, 0x01, 0x70, 0, 0, 0, 0, 0x1F, 0, 0, 0] := by decide +kernel
theorem witness_DecodedBytesAreTheEncoding : decode [0x48, 0x08, 0x01, 0x70, 0xAB] = some (.brev (ct 0) false 2 1, [0xAB]) := by decide +kernel
theorem witness_DecodedLength :
    (decode [0x48, 0x08, 0x01, 0x70] = some (.brev (ct 0) false 2 1, []) ∧ instrCtl (.brev (ct 0) false 2 1) = some (ct 0))
    ∧ (decode (leBytes 12 (ext 0x70811411 3)) = some (.imad (ct 1) iz 5 1 2 3, []) ∧ instrCtl (.imad (ct 1) iz 5 1 2 3) = some (ct 1))
    ∧ (decode (leBytes 12 (ext 0x70041002 1)) = some (.iaddImmediate (ct 2) iz 4 4 1, []) ∧ instrCtl (.iaddImmediate (ct 2) iz 4 4 1) = some (ct 2))
    ∧ (decode (leBytes 20 (ext2 0x70010D0B 0x40 1)) = some (.lanexImmediate (ct 3) 0 1 3 1 1, []) ∧ instrCtl (.lanexImmediate (ct 3) 0 1 3 1 1) = some (ct 3)) := by
  decide +kernel

/-! A load of bytes whose first issue is the next turn: the state once its partition's list is formed, the next start, and the state that fetches. -/
def listed (s : State) : State := State.formList { s with turns := [] } 0 0
def startOf (s : State) : Cand × List Cand := ((listed s).starts 0 0).getD (⟨0, 0⟩, [])
def fetching (s : State) : State := ((listed s).at' (startOf s).1).putPart { (listed s).partOf 0 0 with cands := some (startOf s).2 }
def fetchOf (s : State) : List Byte × State := match (fetching s).fetch (fetching s).cur.core (fetching s).cur.ctx (fetching s).ipc with
  | .ok x => x
  | .error _ => ([], s)
def fetches (s : State) : Bool := match (fetching s).fetch (fetching s).cur.core (fetching s).cur.ctx (fetching s).ipc with
  | .ok _ => true
  | .error _ => false
def startsHere (s : State) : Prop := s.boot.phase ≠ 15 ∧ s.turns = [.issue 0 0 0x1000] ∧ (listed s).starts 0 0 = some (startOf s)
  ∧ (fetching s).cur.core = 0 ∧ (fetching s).cur.pos = 0 ∧ (startOf s).1.pc = 0x1000
def brevBytes : List Byte := [0x48, 0x08, 0x01, 0x70]
def runs1 : State := State.reset.loaded brevBytes
def fails1 : State := { runs1 with cur := { runs1.cur with arch := { runs1.cur.arch with bad := 2 } } }
def noInstr : State := State.reset.loaded [0xFC, 0x03, 0x00, 0x70]
/-- The three clauses: an instruction, one whose source fails, and words that are none. -/
theorem witness_StepRunsDecodedInstruction_1 : startsHere runs1 ∧ fetches runs1 = true ∧ decode (fetchOf runs1).1 = some (.brev (ct 0) false 2 1, [])
    ∧ isNext (exec (.brev (ct 0) false 2 1) (fetchOf runs1).2) = true ∧ (fetchOf runs1).2.failsRead (.brev (ct 0) false 2 1) = false := by
  unfold startsHere; decide +kernel
theorem witness_StepRunsDecodedInstruction_2 : startsHere fails1 ∧ fetches fails1 = true ∧ decode (fetchOf fails1).1 = some (.brev (ct 0) false 2 1, [])
    ∧ isNext (exec (.brev (ct 0) false 2 1) (fetchOf fails1).2) = true ∧ instrCtl (.brev (ct 0) false 2 1) = some (ct 0)
    ∧ (fetchOf fails1).2.failsRead (.brev (ct 0) false 2 1) = true ∧ (fetchOf fails1).2.trapped (after (fetchOf fails1).2 (.brev (ct 0) false 2 1)) = false := by
  unfold startsHere; decide +kernel
theorem witness_StepRunsDecodedInstruction_3 : startsHere noInstr ∧ fetches noInstr = true ∧ decode (fetchOf noInstr).1 = none := by
  unfold startsHere; decide +kernel

theorem witness_StepRunsEvents : base.boot.phase ≠ 15 ∧ { base with turns := [.event .bootclr] }.turns = [.event .bootclr] ∧ Instr.toRaw .bootclr = none
    ∧ isNext (exec .bootclr { base with turns := [] }) = true ∧ { base with turns := [.event (.nop (ct 0))] }.turns = [.event (.nop (ct 0))]
    ∧ Instr.toRaw (.nop (ct 0)) ≠ none := by decide +kernel
def haltedPart : State := { State.reset with boot := { State.reset.boot with phase := 15 } }
theorem witness_HaltedPartStops : haltedPart.boot.phase = 15 ∧ haltedPart.turn.1.resets = false := by decide +kernel
theorem witness_IssueLeavesTheWarp : base.unissued (after base (.nop (ct 0))) = false ∧ base.cur.inHandler = false ∧ (after base (.nop (ct 0))).cur.inHandler = false := by
  decide +kernel
theorem witness_TidemarkCopiesStayWithinEpsilon :
    State.TideOk { base with tide := [0, 4, 0, 4, 0, 4, 0, 4, 0, 4, 0, 4, 0], turns := [.event .bootclr] }
    ∧ isNext (step { base with tide := [0, 4, 0, 4, 0, 4, 0, 4, 0, 4, 0, 4, 0], turns := [.event .bootclr] }) = true := by unfold State.TideOk; decide +kernel
/-- A warp stalled behind an unchecked access, with lanes held for a queue, a bank dispatcher and slots; the step keeps them all. -/
def stallReq : Req := ⟨3, 1, 0, 0, 0, 2, 0, 0x1000, 0x1004, 1, 1, 1, .mem ⟨.global, false, .load false, 4, 0, 0, 0, [⟨0, 0x3000, 0x3000, 0, 0, 0, 0, 1, 0⟩], [4], false, none⟩,
  false, false, false, false, none, false, (0, 0), false⟩
def entry0 : CopyEntry := ⟨10, 9, 0, 0, .copy, 1, 0, 2, 0, 0, 0, 0x4000, [0, 0, 0, 0, 0], 0x3000, false, 0, 30, 0, none, none, .waiting, 0, 0, 0, 0, 0, false, [], .zero, [], 0⟩
def card0 : BankCard := ⟨12, 11, 0, 1, 0, 0, 0, 0, List.replicate 64 0, [], [], [], 31, 0, .queued, 0, 0, 0, false, []⟩
def stalledState : State := { base with
  cur := { base.cur with stalled := true, holds := [⟨1, .queue 9⟩, ⟨2, .jobs 11⟩, ⟨4, .slots 4097⟩] }
  reqs := [stallReq]
  copy := { base.copy with entries := [entry0] }
  cards := [card0]
  turns := [.event .bootclr] }
theorem witness_EveryStepSettles : isNext (step stalledState) = true ∧ (stepped stalledState).cur ∈ (stepped stalledState).warps ∧ (stepped stalledState).cur.stalled = true
    ∧ (stepped stalledState).cur.holds = [⟨1, .queue 9⟩, ⟨2, .jobs 11⟩, ⟨4, .slots 4097⟩] := by decide +kernel

/-! Instructions that compute: named registers, an active lane and room for the results. -/
/-- v0 to v10 of every shape and p1 set in some lanes. -/
def regs : State := setP (setV (setV (setV (setV (setV (setV base 0 (.a 0 1)) 1 (gv fun l => 0x7FFFFFC0 + l)) 2 (.u 33)) 3 (.a 7 5)) 8 (gv fun l => l * 77777777)) 9
  (gv fun l => l * 3)) 1 (BitVec.ofNat 128 0x123456789ABCDEF0FEDCBA9876543210)
/-- As many G registers as the launch allows. -/
def packed : State := { regs with cur := { regs.cur with hdr := { regs.cur.hdr with resw := BitVec.ofNat 64 (64 + 3 * 2 ^ 7 + 12 * 2 ^ 14 + 2 ^ 23 + 32 * 2 ^ 29 + 8 * 2 ^ 35) } } }
theorem witness_IntegerTwoSourceResults : regs.Ready cP [4, 8, 9] [4] false ∧ regs.Ready (ct 1) [4, 5, 8, 9, 2, 3] [4, 5] false ∧ packed.Ready (ct 0) [4, 2, 2] [4] true
    ∧ regs.Ready (ct 2) [63, 8] [63] false := ⟨ready_of (by decide +kernel), ready_of (by decide +kernel), ready_of (by decide +kernel), ready_of (by decide +kernel)⟩
theorem witness_IntegerMadAbsNegResults : regs.Ready cP [4, 8, 2, 9] [4] false ∧ regs.Ready (ct 1) (pairRegs 4 ++ pairRegs 8 ++ pairRegs 2 ++ pairRegs 0) [4, 5] false
    ∧ regs.Ready cP [4, 8] [4] false ∧ regs.Ready (ct 1) (pairRegs 4 ++ pairRegs 8) [4, 5] false :=
  ⟨ready_of (by decide +kernel), ready_of (by decide +kernel), ready_of (by decide +kernel), ready_of (by decide +kernel)⟩
theorem witness_LogicResults : regs.Ready cP [4, 8, 9] [4] false ∧ regs.Ready (ct 1) (pairRegs 4 ++ pairRegs 8 ++ pairRegs 2) [4, 5] false ∧ regs.Ready cP [4, 8] [4] false :=
  ⟨ready_of (by decide +kernel), ready_of (by decide +kernel), ready_of (by decide +kernel)⟩
theorem witness_ShiftAndLeaResults : regs.Ready cP [4, 8, 9] [4] false ∧ regs.Ready (ct 1) (pairRegs 4 ++ pairRegs 8 ++ [9]) [4, 5] false :=
  ⟨ready_of (by decide +kernel), ready_of (by decide +kernel)⟩
theorem witness_BitFieldResults : regs.Ready cP [4, 8] [4] false ∧ regs.Ready (ct 1) (pairRegs 4 ++ pairRegs 8) [4, 5] false
    ∧ regs.Ready (ct 1) (pairRegs 4 ++ pairRegs 8 ++ pairRegs 2) [4, 5] false := ⟨ready_of (by decide +kernel), ready_of (by decide +kernel), ready_of (by decide +kernel)⟩
theorem witness_BitReversal : regs.Ready (ct 0) [4, 8] [4] false ∧ regs.Ready (ct 1) (pairRegs 4 ++ pairRegs 8) [4, 5] false
    ∧ wholeWrite regs.cur.live (regs.act (ct 0)) = true ∧ wholeWrite regs.cur.live (regs.act (ct 1)) = true ∧ regs.isRecord 4 = false ∧ regs.isRecord 5 = false :=
  ⟨ready_of (by decide +kernel), ready_of (by decide +kernel), by decide +kernel⟩
theorem witness_CompareResults : regs.Ready cP [8, 9] [] true ∧ regs.Ready (ct 1) (pairRegs 8 ++ pairRegs 2) [] true ∧ regs.Ready (ct 1) [8] [] true :=
  ⟨ready_of (by decide +kernel), ready_of (by decide +kernel), ready_of (by decide +kernel)⟩
theorem witness_AffineShapes : (regs.reg 3).affine = some (7, 5) ∧ (regs.reg 0).affine = some (0, 1) ∧ regs.reg 2 = .u 33 ∧ regs.Ready (ct 0) [4, 3, 2] [4] true
    ∧ regs.Ready (ct 1) [4, 3, 0, 2] [4] true ∧ regs.Ready (ct 0) [4, 3] [4] true ∧ regs.Ready (ct 0) [4, 3, 0] [4] true
    ∧ wholeWrite regs.cur.live (regs.act (ct 0)) = true ∧ wholeWrite regs.cur.live (regs.act (ct 1)) = true ∧ regs.isRecord 4 = false :=
  ⟨by decide +kernel, by decide +kernel, by decide +kernel, ready_of (by decide +kernel), ready_of (by decide +kernel), ready_of (by decide +kernel), ready_of (by decide +kernel),
    by decide +kernel⟩
theorem witness_FloatArithmeticResults : regs.Ready cP [4, 8, 9] [4] false ∧ regs.Ready (ct 1) [4, 8, 0, 9] [4] false ∧ regs.Ready (ct 2) [4, 8] [4] false
    ∧ regs.Ready (ct 3) [4, 8, 0] [4] false := ⟨ready_of (by decide +kernel), ready_of (by decide +kernel), ready_of (by decide +kernel), ready_of (by decide +kernel)⟩
theorem witness_FloatUnaryResults : regs.Ready cP [4, 8] [4] false := ready_of (by decide +kernel)
theorem witness_MoveAndSelectResults : regs.Ready cP ([4, 8] ++ [9]) [4] false ∧ regs.Ready (ct 0) [4, 2] [4] (regs.flat 2)
    ∧ regs.Ready (ct 1) (pairRegs 4 ++ pairRegs 8) [4, 5] (regs.pairU 8)
    ∧ regs.Ready (ct 2) [4] [4] true ∧ regs.Ready (ct 3) (pairRegs 4) [4, 5] true :=
  ⟨ready_of (by decide +kernel), ready_of (by decide +kernel), ready_of (by decide +kernel), ready_of (by decide +kernel), ready_of (by decide +kernel)⟩
theorem witness_LaneExchangeResults : regs.Ready cP [4, 8, 9] [4] false ∧ regs.Ready (ct 2) [4, 8] [4] false := ⟨ready_of (by decide +kernel), ready_of (by decide +kernel)⟩
theorem witness_VoteAndPredicateResults : regs.Ready cP [] [] true ∧ regs.Ready (ct 1) [4, 4 + 1, 4 + 2, 4 + 3] [4, 4 + 1, 4 + 2, 4 + 3] true ∧ regs.Ready cP [8] [] true
    ∧ regs.Ready (ct 1) [4] [4] false := ⟨ready_of (by decide +kernel), ready_of (by decide +kernel), ready_of (by decide +kernel), ready_of (by decide +kernel)⟩
/-- The last part: a general register whose lanes hold one value, for which UNIF gives U. -/
theorem witness_ShapeAndUnifResults : (∀ r ∈ ([4, 8] : List Reg), regs.cur.nameable r = true) ∧ regs.act cP ≠ 0 ∧ regs.HasRoom [4] ∧ regs.isRecord 4 = false ∧ regs.cur.live ≠ 0
    ∧ (∃ x, ∀ l < 128, regs.cur.live.getLsbD l = true → regs.rd 2 l = x) := by
  refine ⟨by decide +kernel, by decide +kernel, by unfold State.HasRoom; decide +kernel, by decide +kernel, by decide +kernel, 33, by decide +kernel⟩

/-! Control flow. -/
/-- Instruction addresses in v12:v13, return addresses in v62, depth 1. -/
def flow : State := setLanes (setV (setV regs 12 (gv fun l => 0x1000 + 4 * l)) 62 (gv fun l => 0x1010 + 8 * l)) fun _ x => { x with depth := 1 }
/-- The same in a handler whose mask is lanes 3 to 5. -/
def handler0 : Handler := ⟨56, 0x1000, 0x1000, recordOf 4 0 0 (some 3) 0x1000 0x1008 0x3001 1 56 99, none⟩
def inHdl : State := { flow with cur := { flow.cur with arch := { flow.cur.arch with handler := some handler0 } } }
theorem witness_BranchResults : flow.cur.nameable 12 = true ∧ flow.cur.nameable (12 + 1) = true
    ∧ (∀ l < 128, flow.active cP l = true → (flow.cur.inHandler = true → l = lowestLane (flow.split &&& flow.cur.live)) → goodTarget (flow.rdPair 12 l))
    ∧ inHdl.cur.nameable 12 = true ∧ inHdl.cur.nameable (12 + 1) = true
    ∧ (∀ l < 128, inHdl.active (ct 0) l = true → (inHdl.cur.inHandler = true → l = lowestLane (inHdl.split &&& inHdl.cur.live)) → goodTarget (inHdl.rdPair 12 l)) := by
  unfold goodTarget; decide +kernel
theorem witness_CallResults : 63 ≤ flow.cur.hdr.regs ∧ flow.act cP ≠ 0 ∧ flow.cur.inHandler = false ∧ flow.HasRoom [62]
    ∧ (∀ l < 128, flow.active cP l = true → (flow.cur.lane l).depth ≠ 65535) ∧ flow.cur.nameable 12 = true ∧ flow.cur.nameable (12 + 1) = true
    ∧ (∀ l < 128, flow.active cP l = true → goodTarget (flow.rdPair 12 l)) := by unfold goodTarget State.HasRoom; decide +kernel
/-- Set 3 is frame-bound at depth 0, below the lanes' depth 1. -/
def framed : State := setSets flow ((List.replicate 16 RejoinSet.empty).set 3 ⟨255, 0, true, 0⟩)
theorem witness_ReturnResult : 64 ≤ framed.cur.hdr.regs ∧ framed.act cP ≠ 0 ∧ framed.cur.inHandler = false
    ∧ (∀ l < 128, framed.active cP l = true → (framed.cur.lane l).depth ≠ 0 ∧ ((framed.ipc &&& 0x00FFFFFF00000000) + (framed.rd 62 l).setWidth 64).toNat % 4 = 0)
    ∧ (∀ k < 16, ∀ l < 128, framed.active cP l = true → (framed.setNo k).fb = true → (framed.setNo k).m.getLsbD l = true →
        (framed.setNo k).d.toNat < (framed.cur.lane l).depth.toNat) := by decide +kernel
/-- Some lanes stay, or all the rest have exited. -/
theorem witness_ExitResult : flow.act cP ≠ 0 ∧ flow.cur.inHandler = false ∧ (flow.active cP 0 = false ∧ (flow.cur.lane 0).st ≠ .exited ∧ (flow.cur.lane 0).st ≠ .parked)
    ∧ flow.act (ct 0) ≠ 0 ∧ (∀ l < 128, flow.active (ct 0) l = false → (flow.cur.lane l).st = .exited) := by decide +kernel

/-! Rejoin sets. -/
/-- Set 3 holds lanes 0 to 7 frame-bound at depth 1; set 4 lanes 8 to 15 with 12 to 15 waiting. -/
def sets34 : State := setLanes (setSets flow ((List.replicate 16 RejoinSet.empty).set 3 ⟨255, 0, true, 1⟩ |>.set 4 ⟨0xFF00, 0xF000, false, 0⟩)) fun l x =>
  if 12 ≤ l && l < 16 then { x with st := .parked, pc := 0x1020 } else x
/-- Joining an empty set frame-bound, and a set that is frame-bound at the lanes' depth. -/
theorem witness_RejoinEnterResults : sets34.act cP ≠ 0 ∧ ((sets34.setNo 15).m = 0 ∧ ∀ l < 128, sets34.active cP l = true → (sets34.cur.lane l).depth = 1)
    ∧ ((sets34.setNo 3).m ≠ 0 ∧ (sets34.setNo 3).fb = true ∧ (sets34.setNo 3).d = 1)
    ∧ (sets34.cur.lane (lowestLane (sets34.act cP))).depth = 1 := by decide +kernel
theorem witness_RejoinLeaveResults : sets34.act cP ≠ 0 ∧ sets34.act (ct 0) ≠ 0 ∧ sets34.cur.inHandler = false ∧ (sets34.cur.lane 0).st ≠ .exited ∧ (sets34.cur.lane 0).st ≠ .parked
    ∧ (sets34.active (ct 0) 0 && (sets34.setNo 4).m.getLsbD 0) = false := by decide +kernel
theorem witness_RejoinImageResults : sets34.Ready cP [40] [40] false ∧ sets34.cur.nameable 40 = true ∧ sets34.act cP ≠ 0 ∧ (sets34.setNo 3).m ≠ 0
    ∧ ((sets34.setNo 5).restore (sets34.act cP) (sets34.rd 40)).isSome = true ∧ (sets34.setNo 3).restore 255 (fun _ => 0xA0000001) = some ⟨255, 0, true, 1⟩ :=
  ⟨ready_of (by decide +kernel), by decide +kernel⟩

/-! Barriers, special registers, sleep. -/
/-- The warp has arrived at barrier 31 in its phase 7. -/
def arrived : State := { regs with wgs := regs.wgs.map fun g => { g with bars := g.bars.set 31 ⟨7, 1, 0, 0, 0⟩ } }
theorem witness_BarrierResults : (31#5).toNat < arrived.cur.hdr.bars ∧ arrived.act cP ≠ 0 ∧ arrived.cur.inHandler = false
    ∧ (arrived.barAt 31).arrived.getLsbD arrived.cur.index = true ∧ (0#5).toNat < arrived.cur.hdr.bars ∧ (arrived.barAt 0).arrived.getLsbD arrived.cur.index = false := by
  decide +kernel
/-- Fields of 7, 3 and 2 bits, the workgroup cut after the first and the cluster cut after the second. -/
def cut : State := { regs with cur := { regs.cur with hdr := { regs.cur.hdr with idw := BitVec.ofNat 64 (7 + 3 * 2 ^ 6 + 2 * 2 ^ 12 + 2 ^ 36 + 2 * 2 ^ 39) } } }
theorem witness_SpecialRegisterResults : cut.Ready cP [4] [4] false ∧ cut.Ready (ct 1) [4, 5] [4, 5] true ∧ cut.cur.hdr.wgcut ≤ cut.cur.hdr.clcut ∧ packed.Ready (ct 1) [4] [4] true :=
  ⟨ready_of (by decide +kernel), ready_of (by decide +kernel), by decide +kernel, ready_of (by decide +kernel)⟩
theorem witness_DepthWriteResult : framed.cur.nameable 9 = true ∧ framed.act cP ≠ 0 ∧ (∀ l < 128, framed.active cP l = true → (framed.rd 9 l).toNat ≤ 65535)
    ∧ (∀ k < 16, ∀ l < 128, framed.active cP l = true → (framed.setNo k).fb = true → (framed.setNo k).m.getLsbD l = true → (framed.setNo k).d.toNat ≤ (framed.rd 9 l).toNat) := by
  decide +kernel
/-- Lane 0 asks for no sleep and lane 1 for three ticks; in the handler as well. -/
theorem witness_SleepResults : (∀ r ∈ ([9] : List Reg), regs.cur.nameable r = true) ∧ ¬(regs.myTide < regs.myTide + (regs.rd 9 0).toNat) ∧ regs.active (ct 1) 1 = true
    ∧ regs.myTide < regs.myTide + (regs.rd 9 1).toNat ∧ inHdl.cur.inHandler = true ∧ inHdl.active (ct 1) 3 = true
    ∧ (∀ r ∈ ([12, 13] : List Reg), inHdl.cur.nameable r = true) ∧ inHdl.myTide < (inHdl.rdPair 12 3).toNat := by decide +kernel

/-! Traps. -/
/-- A launch with four registers. -/
def small : State := { regs with cur := { regs.cur with hdr := { regs.cur.hdr with resw := BitVec.ofNat 64 (4 + 4 * 2 ^ 7 + 2 ^ 29) } } }
theorem takes_of {s : State} (h1 : s.cur.arch.handler = none) (h2 : s.cur.hdr.traph ≠ 0) (h3 : s.unchecked s.cur.uid = []) : s.TakesTraps := ⟨h1, h2, h3⟩
theorem witness_TrapEntry : small.TakesTraps ∧ small.act cP ≠ 0 ∧ small.cur.nameable 4 = false :=
  ⟨takes_of (by decide +kernel) (by decide +kernel) (by decide +kernel), by decide +kernel⟩
theorem witness_ShapeOverflowTrap : packed.TakesTraps ∧ packed.act cP ≠ 0 ∧ packed.cur.nameable 4 = true ∧ packed.cur.nameable 8 = true ∧ packed.cur.nameable 9 = true
    ∧ (packed.reg 8).isG = true ∧ (packed.cur.arch.vregs.getD 4 (.u 0)).isG = false ∧ packed.cur.arch.gCount = packed.cur.hdr.gmax :=
  ⟨takes_of (by decide +kernel) (by decide +kernel) (by decide +kernel), by decide +kernel⟩
theorem witness_TrapReturn : inHdl.act (ct 0) ≠ 0 ∧ inHdl.cur.arch.handler = some handler0 ∧ inHdl.act cOff = 0 ∧ flow.act (ct 0) ≠ 0 ∧ flow.TakesTraps :=
  ⟨by decide +kernel, by decide +kernel, by decide +kernel, by decide +kernel, takes_of (by decide +kernel) (by decide +kernel) (by decide +kernel)⟩
def noHandler : State := { regs with cur := { regs.cur with hdr := { regs.cur.hdr with traph := 0 } } }
theorem witness_UnhandledTraps : noHandler.act cP ≠ 0 ∧ noHandler.mayTrap ∧ noHandler.cur.arch.handler = none ∧ noHandler.cur.hdr.traph = 0
    ∧ inHdl.act (ct 0) ≠ 0 ∧ inHdl.mayTrap ∧ inHdl.cur.arch.handler = some handler0 := by unfold State.mayTrap; decide +kernel

/-! Memory instructions. -/
def okAt (p : LanePlace) (x : Nat × BitVec 2) : Bool := match p with
  | .ok y => y == x
  | .error _ => false
def errAt (p : LanePlace) (e : LaneFault) : Bool := match p with
  | .ok _ => false
  | .error y => y == e
theorem okAt_of {p : LanePlace} {x : Nat × BitVec 2} (h : okAt p x = true) : p = .ok x := by
  cases p <;> simp_all [okAt]
theorem errAt_of {p : LanePlace} {e : LaneFault} (h : errAt p e = true) : p = .error e := by
  cases p <;> simp_all [errAt]
/-- Global addresses 0x3000 + 16 l in v12:v13, the uniform 0x3000 in v14:v15, rank 0 in v16, scratchpad addresses 16 l in v17 and the uniform 64 in v18. -/
def mem1 : State := setV (setV (setV (setV (setV regs 12 (.a 0x3000 16)) 14 (.u 0x3000)) 16 (gv fun _ => 0)) 17 (.a 0 16)) 18 (.u 64)
/-- Register r with another value in lane l. -/
def setX (s : State) (l r : Nat) (x : Word) : State := setV s r (.g ((List.range 128).map fun k => if k = l then x else (s.cur.arch.vregs.getD r (.u 0)).lane k))
/-- Places that fail in lane 5: an address that no table maps, a scratchpad address beyond the array, and a rank that is not there. -/
def bad13 : State := setX mem1 5 13 0x900000
def bad17 : State := setX mem1 5 17 0x70000
def bad16 : State := setX mem1 5 16 1
/-- Address registers misaligned in lane 4. -/
def odd12 : State := setX (setX mem1 4 12 0x3001) 4 17 17
def mz0 : MMod := ⟨0, 0, 0, 0, 0⟩
theorem mem1_takes : mem1.TakesTraps ∧ bad13.TakesTraps ∧ bad16.TakesTraps ∧ bad17.TakesTraps ∧ odd12.TakesTraps :=
  ⟨takes_of (by decide +kernel) (by decide +kernel) (by decide +kernel), takes_of (by decide +kernel) (by decide +kernel) (by decide +kernel),
    takes_of (by decide +kernel) (by decide +kernel) (by decide +kernel), takes_of (by decide +kernel) (by decide +kernel) (by decide +kernel),
    takes_of (by decide +kernel) (by decide +kernel) (by decide +kernel)⟩
theorem places1 : (∀ l < 128, okAt (mem1.globalLane 0 0 ⟨true, true⟩ l (mem1.rdPair 12 l)) (0x3000 + 16 * l, 0) = true
      ∧ okAt (mem1.globalLane 0 0 ⟨true, false⟩ l (mem1.rdPair 12 l)) (0x3000 + 16 * l, 0) = true
      ∧ okAt (mem1.globalLane 0 0 ⟨false, true⟩ l (mem1.rdPair 12 l)) (0x3000 + 16 * l, 0) = true
      ∧ okAt (mem1.globalLane 0 0 ⟨true, false⟩ l (mem1.rdPair 14 l)) (0x3000, 0) = true)
    ∧ ∀ l < 128, okAt (mem1.spadTarget none l (mem1.rd 17 l)) (16 * l, 0) = true ∧ okAt (mem1.spadTarget (some 16) l (mem1.rd 17 l)) (16 * l, 0) = true := by decide +kernel
/-- Loads, stores and atomics of each space with every lane's place found; a uniform load; and each kind of place that fails, in lane 5. -/
theorem witness_MemoryAccessesIssue_1 : mem1.Ready cP ([4] ++ [12, 13] ++ []) [4] false ∧ mem1.Ready (ct 0) ([4] ++ [14, 15] ++ []) [4] true
    ∧ mem1.Ready cP ([4] ++ [17, 16] ++ []) [4] false ∧ mem1.Ready cP ([] ++ [12, 13] ++ [8]) [] false ∧ mem1.Ready cP ([4] ++ [12, 13] ++ [8, 9]) [4] false
    ∧ (∀ l < 128, mem1.active cP l = true → (mem1.rdPair 12 l + (0 : Word).signExtend 64).toNat % 4 = 0
        ∧ mem1.globalLane mem1.cur.core mem1.cur.ctx ⟨true, true⟩ l (mem1.rdPair 12 l) = .ok (0x3000 + 16 * l, 0)
        ∧ mem1.spadTarget (some 16) l (mem1.rd 17 l) = .ok (16 * l, 0)) :=
  ⟨ready_of (by decide +kernel), ready_of (by decide +kernel), ready_of (by decide +kernel), ready_of (by decide +kernel), ready_of (by decide +kernel), fun l h _ =>
    ⟨(by decide +kernel : ∀ l < 128, (mem1.rdPair 12 l + (0 : Word).signExtend 64).toNat % 4 = 0) l h, okAt_of (places1.1 l h).1, okAt_of (places1.2 l h).2⟩⟩
theorem witness_MemoryAccessesIssue_2 : bad13.TakesTraps ∧ bad13.Ready (ct 0) ([4] ++ [12, 13] ++ []) [4] false ∧ bad17.Ready (ct 0) ([4] ++ [17] ++ []) [4] false
    ∧ bad16.Ready (ct 0) ([4] ++ [17, 16] ++ []) [4] false
    ∧ (∀ l < 128, (bad13.accessEa mz0 false 12 l).toNat % 4 = 0 ∧ (bad17.accessEa mz0 true 17 l).toNat % 4 = 0 ∧ (bad16.accessEa mz0 true 17 l).toNat % 4 = 0)
    ∧ bad13.active (ct 0) 5 = true
    ∧ bad13.globalLane 0 0 ⟨true, false⟩ 5 (bad13.rdPair 12 5) = .error ⟨5, 2, 1, 3, 0x90000000003050⟩ ∧ bad17.spadTarget none 5 (bad17.rd 17 5) = .error ⟨5, 3, 2, 0, 0x70000⟩
    ∧ bad16.spadTarget (some 16) 5 (bad16.rd 17 5) = .error ⟨5, 3, 3, 0, 80⟩
    ∧ (∀ l < 5, okAt (bad13.globalLane 0 0 ⟨true, false⟩ l (bad13.rdPair 12 l)) (0x3000 + 16 * l, 0) = true ∧ okAt (bad17.spadTarget none l (bad17.rd 17 l)) (16 * l, 0) = true
        ∧ okAt (bad16.spadTarget (some 16) l (bad16.rd 17 l)) (16 * l, 0) = true) :=
  ⟨mem1_takes.2.1, ready_of (by decide +kernel), ready_of (by decide +kernel), ready_of (by decide +kernel), by decide +kernel, by decide +kernel, errAt_of (by decide +kernel),
    errAt_of (by decide +kernel), errAt_of (by decide +kernel), by decide +kernel⟩
theorem witness_MisalignedAccessTraps : odd12.TakesTraps ∧ odd12.active cP 4 = true ∧ odd12.AccessReady cP (.load false) [4] false 12 none []
    ∧ odd12.AccessReady cP .store [] true 17 (some 16) [8] ∧ (odd12.accessEa mz0 false 12 4).toNat % 4 ≠ 0 ∧ (odd12.accessEa mz0 true 17 4).toNat % 4 ≠ 0
    ∧ (∀ l < 4, (odd12.accessEa mz0 false 12 l).toNat % 4 = 0 ∧ (odd12.accessEa mz0 true 17 l).toNat % 4 = 0) :=
  ⟨mem1_takes.2.2.2.2, by decide +kernel, ready_of (by decide +kernel), ready_of (by decide +kernel), by decide +kernel⟩
theorem witness_FenceAndCacheControlResults : mem1.act cP ≠ 0 ∧ mem1.cur.nameable 12 = true ∧ mem1.cur.nameable (12 + 1) = true
    ∧ (∀ l < 128, mem1.active cP l = true → mem1.globalLane mem1.cur.core mem1.cur.ctx ⟨true, false⟩ l (mem1.rdPair 12 l) = .ok (0x3000 + 16 * l, 0)) :=
  ⟨by decide +kernel, by decide +kernel, by decide +kernel, fun l h _ => okAt_of (places1.1 l h).2.1⟩
/-- Counters raised under identifiers 5 and 6, with a statistics area. -/
def counted : State := { regs with
  cur := { regs.cur with hdr := { regs.cur.hdr with statp := 0x5000 } }
  wgs := regs.wgs.map fun g => { g with hdr := { g.hdr with statp := 0x5000 }, stats := [⟨5, 1, 2, 3, 4⟩, ⟨6, 0, 7, 0, 0⟩] } }
theorem witness_StatisticsResults : counted.act cP ≠ 0 ∧ (counted.wgOf counted.cur.wg).isSome = true ∧ counted.cur.hdr.statp ≠ 0
    ∧ ((counted.wgOf counted.cur.wg).map fun g => g.stats.filter fun r => r.tid == 5) = some [⟨5, 1, 2, 3, 4⟩]
    ∧ regs.act cP ≠ 0 ∧ (regs.wgOf regs.cur.wg).isSome = true ∧ regs.cur.hdr.statp = 0 := by decide +kernel

/-- Premises in a form that computes. -/
theorem takes_iff {s : State} : s.TakesTraps ↔ (s.cur.arch.handler = none ∧ s.cur.hdr.traph ≠ 0 ∧ s.unchecked s.cur.uid = []) :=
  ⟨fun h => ⟨h.1, h.2, h.3⟩, fun h => takes_of h.1 h.2.1 h.2.2⟩
def slotsOf : HoldKind → Option Nat
  | .slots n => some n
  | _ => none
theorem all_slots {k : HoldKind} {p : Prop} : (∀ n, k = .slots n → p) ↔ (slotsOf k ≠ none → p) := by
  cases k <;> simp [slotsOf]
def markerOf : CopyKind → Option Nat
  | .marker i => some i
  | _ => none
theorem all_markers {k : CopyKind} : (∀ i, k ≠ .marker i) ↔ markerOf k = none := by
  cases k <;> simp [markerOf]
def okOf {ε α : Type} : Except ε α → Option α
  | .ok x => some x
  | .error _ => none
theorem ok_iff {ε α : Type} {x : Except ε α} {y : α} : x = .ok y ↔ okOf x = some y := by
  cases x <;> simp [okOf]
def isMode : ArrayItem → Bool
  | .mode _ _ => true
  | _ => false
theorem some_mode {q : ArrayItem} : (∃ c u, q = .mode c u) ↔ isMode q = true := by
  cases q <;> simp [isMode]
theorem all_opt {α : Type} {o : Option α} {P : α → Prop} : (∀ x, o = some x → P x) ↔ ∀ x ∈ o, P x := Iff.rfl
theorem some_ok {ε α : Type} {x : Except ε α} : (∃ p, x = .ok p) ↔ (okOf x).isSome = true := by
  cases x <;> simp [okOf]
theorem ready_iff {s : State} {c : Ctl} {names ds : List Reg} {flat : Bool} : s.Ready c names ds flat ↔ ((∀ r ∈ names, s.cur.nameable r = true) ∧ s.act c ≠ 0
    ∧ ((flat = true ∧ wholeWrite s.cur.live (s.act c) = true)
      ∨ s.cur.arch.gCount + (ds.filter fun d => !(s.cur.arch.vregs.getD d.toNat (.u 0)).isG && !s.isRecord d).length ≤ s.cur.hdr.gmax)) :=
  ⟨fun h => ⟨h.1, h.2, h.3⟩, fun h => ⟨h.1, h.2.1, h.2.2⟩⟩
theorem exists_opt {α : Type} {o : Option α} {P : α → Prop} : (∃ x, o = some x ∧ P x) ↔ ∃ x ∈ o, P x := Iff.rfl
/-! Compute arrays, lane queues, copies and bank jobs. -/
/-- Array 0 of the warp in a mode. -/
def inMode (k : BitVec 2) : State := { regs with arrays := [⟨0, 0, 4, k, false, 64, false, [], [], []⟩] }
def am0 : AMod := ⟨false, false, 0, false, false, 0, 0, 255⟩
/-- Queue 0 of core 0 is bound to context 0; the records are read at 0x4000 in every lane. -/
def bound0 : State := setV { regs with copy := { regs.copy with queues := [⟨0, false, 0, false, true, 0, 0⟩, ⟨1, false, 0, false, true, 0, 0⟩] } } 12 (.u 0x4000)
/-- Lane queue 0 holds 3 entries of a ring of 8 four-byte entries at address 64; queue 1 the same of eight bytes. -/
def ring (d8 : Bool) : LaneQueue := ⟨true, 64, 3, d8, 0xFFFFFFFE, 1⟩
def queued : State := { inMode 0 with wgs := (inMode 0).wgs.map fun g => { g with queues := (g.queues.set 0 (ring false)).set 1 (ring true) } }
def queuedWg : Workgroup := (queued.wgOf 2).getD (loadGroup 2)
/-! Tasks and handles. -/
def hOf (i : Nat) : DWord := mkHandle 0 i 0 0
def slot (i : Nat) (st : SlotState) : Slot := ⟨0, 0, i, true, st, 0, false, none, none, [0x1000, 0x77, 0x88, 0, 0, 0, hOf i, 0], [], false, some 0, none, 0, [], 0, (0, 0)⟩
def loadHeaderBytes : List Byte := [loadHeader.entry, loadHeader.argp, loadHeader.statp, loadHeader.safep, loadHeader.traph, loadHeader.idw, loadHeader.glim, loadHeader.resw,
  loadHeader.schw].flatMap fun x => bytesLE 8 x.toNat
def awaitReq (id : Nat) (l i : Nat) (checked : Bool) : Req := ⟨id, 1, 0, 0, 0, 2, 0, 0x1000, 0x1004, BitVec.twoPow 128 l, BitVec.twoPow 128 l, BitVec.allOnes 128,
  .await [(l, hOf i)] 4 1 false, checked, false, false, false, none, false, (0, 0), false⟩
def msgReq (id : Nat) (k : ReqKind) : Req := ⟨id, 1, 0, 0, 0, 2, 0, 0x1000, 0x1004, 15, 15, BitVec.allOnes 128, k, false, false, false, false, none, false, (0, 0), false⟩
/-- Slots in each state, two parked tasks, a ready one, and requests about them; a header stands at LHTAB and counters at 0x3000 and 0x3040. -/
def tasks1 : State := setLanes { setV (setV (setV (setV regs 12 (.a 0x4000 64)) 14 (.u 0x3000)) 20 (.u (loWord (hOf 8)))) 21 (.u (hiWord (hOf 8))) with
  mem := { regs.mem with home := writeBytes (writeBytes regs.mem.home 0x3000 [5, 0, 0, 0]) 0x30000 loadHeaderBytes }
  tasks := ⟨[slot 1 .pending, slot 2 .pending, slot 3 .pending, { slot 4 .running with value := some 9 }, { slot 5 .running with brk := some 7, dropped := true },
      { slot 6 .settling with words := [0x1000, 0, 0, 0x3000, 0x3040, 0, hOf 6, 0], decs := [(false, false), (true, false)] }, { slot 7 .settling with decs := [(false, true)] },
      { slot 8 .resolved with value := some 0x1234, chain := [hOf 9, hOf 10] }, { slot 9 .pending with isChain := true }, { slot 10 .pending with isChain := true },
      { slot 11 .broken with brk := some 0x0200000000000000, chain := [hOf 12] }, { slot 12 .pending with isChain := true }, { slot 13 .resolved with value := some 0xABC },
      { slot 14 .settling with words := [0x1000, 0, 0, 0, 0x3000, 0, hOf 14, 0], decs := [(true, false)] }, { slot 15 .settling with words := [0x1000, 0, 0, 0x3040, 0, 0, hOf 15, 0], decs := [(false, false)] }],
    [⟨0, 0, 0, hOf 3, 0x55, 0x66, 9, true, true, (0, 0)⟩], [⟨0x3000, hOf 1, false, (0, 0)⟩, ⟨0x3040, hOf 2, false, (0, 0)⟩], [], [], [], []⟩
  reqs := [msgReq 20 (.hpoll [(0, hOf 13), (1, hOf 4)] 1), msgReq 21 (.hpoll [(2, 0)] 1), msgReq 22 (.hdrop [(0, hOf 4)]), awaitReq 23 1 8 false, awaitReq 24 3 13 true] }
  fun l x => if l == 1 then { x with st := .awaiting 23 } else if l == 3 then { x with st := .awaiting 24 } else x
/-- Lanes 0 and 2 issue; with core 191 in v22. -/
def tasks2 : State := setP tasks1 1 5
def tasks3 : State := setV tasks2 22 (.u 191)
/-- A task warp of slot 6, which names successors, or of slot 4, which does not; with and without a recorded value. -/
def taskWarp (i : Nat) (v : Option DWord) : State := { tasks1 with cur := { tasks1.cur with task := some (hOf i), hset := v } }
def awaitsOf : ReqKind → List (Nat × DWord)
  | .await hs _ _ _ => hs
  | _ => []
theorem all_awaits {k : ReqKind} {h : DWord} : (∀ hs d p t, k = .await hs d p t → ∀ z ∈ hs, z.2 ≠ h) ↔ ∀ z ∈ awaitsOf k, z.2 ≠ h := by
  exact ⟨fun e => by cases k <;> first | exact e _ _ _ _ rfl | simp [awaitsOf], by rintro e hs d p t rfl; exact e⟩
/-! Events of memory. -/
def acc (l pa : Nat) (cp : BitVec 2) (data res : Nat) : LaneAcc := ⟨l, pa, pa, cp, data, 1, res, 1, 1⟩
def gReq (op : MemOp) (sz : Nat) (ord : BitVec 2) (scope : Nat) (lanes : List LaneAcc) (dests : List Reg) : MemReq := ⟨.global, false, op, sz, ord, scope, 0, lanes, dests, false, none⟩
/-- A request of the warp by lanes 0 and 1. -/
def rq (id : Nat) (checked served : Bool) (k : ReqKind) : Req := ⟨id, 1, 0, 0, 0, 2, 0, 0x1000, 0x1004, 3, 3, BitVec.allOnes 128, k, checked, false, false, served, none, false, (0, 0), false⟩
/-- One request, and bytes at 0x3000 and 0x3010. -/
def mem2 (r : Req) : State := { mem1 with mem := { mem1.mem with home := writeBytes (writeBytes mem1.mem.home 0x3000 [1, 2, 3, 4]) 0x3010 [5, 6, 7, 0x80] }, reqs := [r] }
/-- No target grants anything. -/
def noGrant (s : State) : State := { s with grants := [] }
/-- Die 0 holds sector 0x80 (0x2000 to 0x203F) with byte 4 dirty; core 0 and die 0 hold leased copies; the tide is 10. -/
def sector (b : Nat) : List CByte := (List.range 64).map fun i => ⟨BitVec.ofNat 8 (b + i), none⟩
def cached (s : State) : State := { s with tide := List.replicate 13 10, mem := { s.mem with
  l1 := [⟨0, 0x80, 5, sector 1, 0⟩, ⟨0, 0x81, 50, sector 1, 0⟩], l2 := [⟨0, 0x80, some 5, sector 2, 16, false, 0⟩, ⟨0, 0x90, some 6, sector 3, 0, false, 0⟩] } }
def twoLanes (cp : BitVec 2) : List LaneAcc := [acc 0 0x3000 cp 0x11223344 0, acc 1 0x3010 2 0x55667788 0]
def ldReq : MemReq := gReq (.load true) 4 0 0 (twoLanes 0) [4]
def ldDone : MemReq := gReq (.load true) 1 0 0 ([acc 0 0x3000 0 0 0x80, acc 1 0x3010 0 0 5].map fun x => { x with left := 0, far := 0 }) [4]
def stReq (scope : Nat) (lanes : List LaneAcc) : MemReq := gReq .store 4 0 scope lanes []
/-- What holds of every two accesses of a list by their places holds by their indices. -/
theorem apart_of {l : List LaneAcc} {P : LaneAcc → LaneAcc → Prop} (h : ∀ i < l.length, ∀ j < l.length, i ≠ j → P (l.getD i (acc 0 0 0 0 0)) (l.getD j (acc 0 0 0 0 0))) :
    ∀ (i j : Nat) (y z : LaneAcc), i ≠ j → l[i]? = some y → l[j]? = some z → P y z := by
  intro i j y z hne hi hj
  have a := (List.getElem?_eq_some_iff.mp hi).1
  have b := (List.getElem?_eq_some_iff.mp hj).1
  have := h i a j b hne
  simpa only [List.getD_eq_getElem?_getD, hi, hj, Option.getD_some] using this
/-- A release at .sys behind a load that is served; a fence of the warp; an access that failed in lane 1, with its checkpoint. -/
def relReq : MemReq := gReq .store 4 2 5 [acc 0 0x3000 0 9 0] []
def relState : State := cached { mem2 (rq 40 true false (.mem relReq)) with reqs := [rq 31 true true (.mem ldDone), rq 40 true false (.mem relReq)] }
def fenced : State := { relState with reqs := [rq 31 true true (.mem ldDone)], cur := { relState.cur with fences := [⟨true, true, 5, 40, false⟩], acqUntil := 7 } }
def failTrap : TrapInfo := ⟨2, 1, 3, some 1, 0x900000, 0, 3, 3, 0x1000, 0x1000⟩
def failReq : Req := { rq 41 false false (.mem ldReq) with fault := some failTrap }
def rolled : State := { mem1 with reqs := [rq 31 true true (.mem ldDone), failReq, rq 42 false false (.mem (stReq 1 (twoLanes 0)))], cur := { mem1.cur with snaps := [(41, flow.cur.arch)], stalled := true } }
def walked : State := { mem1 with mem := { mem1.mem with tlb := [⟨3, 0, 0, 2 ^ 30, 0x3B⟩, ⟨3, 1, 0, 2 ^ 30, 0x3B⟩] } }
def invalidating : State := { mem1 with mem := { mem1.mem with tlbic := 0x44000000, tlbKey := 99 } }
/-! Events of arrays. -/
def job1 : AxmJob := ⟨50, 1, 0, 4, 3, 8, false, 1, false, false, List.replicate 3 (List.replicate 8 0x3F800000), List.replicate 3 (List.replicate 64 0), none, false⟩
def doneRows : List (List Word) := List.replicate 3 (List.replicate 48 7)
def arr (k : BitVec 2) (p : Bool) (js : List AxmJob) (q : List ArrayItem) : ArrayRec := ⟨0, 0, 4, k, false, 64, p, q, js, []⟩
/-- Array 0 in a state, with a request. -/
def arrState (a : ArrayRec) (rs : List Req) : State := { regs with arrays := [a, ⟨0, 1, 4, 0, false, 64, false, [], [], []⟩], reqs := rs, cur := { regs.cur with pends := [⟨50, [4, 5], [], false, none, false, false⟩] } }
def spReq (op : MemOp) : MemReq := ⟨.spad, false, op, 4, 0, 0, 0, [⟨0, 64, spadCell 0 0 64, 0, 0x12345678, 0, 0, 1, 0⟩], [], false, none⟩
/-! Events of the copy engines. -/
/-- A layout record: a tensor of 4 FP32 elements at 0x3000, a box of 4, DIR 0, with a rank. -/
def recOf (rank dir : Nat) : List Byte := bytesLE 8 0x3000 ++ bytesLE 4 4 ++ List.replicate 16 0 ++ bytesLE 4 (rank * 2 ^ 21 + dir * 2 ^ 18) ++ List.replicate 32 0
  ++ bytesLE 2 4 ++ (bytesLE 2 1 ++ bytesLE 2 1 ++ bytesLE 2 1 ++ bytesLE 2 1) ++ List.replicate 14 0 ++ bytesLE 4 16 ++ List.replicate 36 0
/-- An entry of queue 0 that writes scratchpad from 64, its record at 0x4000. -/
def entry1 : CopyEntry := { entry0 with dense := 64 }
/-- The same with a place in the order of acceptance. -/
def taken (ph : CopyPhase) (r : List Byte) : CopyEntry := { entry1 with acc := 5, phase := ph, rec' := r }
def copies (es : List CopyEntry) (r : List Byte) : State := { bound0 with
  mem := { bound0.mem with home := writeBytes (writeBytes bound0.mem.home 0x3000 [1, 2, 3, 4, 5, 6, 7, 8, 9]) 0x4000 r, tlb := [⟨192, 0, 0, 2 ^ 30, 0x3B⟩] }
  copy := { bound0.copy with entries := es } }
def readOf (s : State) (e : CopyEntry) : List Byte × State := match s.engRead e e.addr.toNat 128 with
  | .ok x => x
  | .error _ => ([], s)
/-- A valid record, one with RANK 0, and one of DIR 3 whose fault stops it. -/
def good : State := copies [taken .waiting []] (recOf 1 0)
def bad : State := copies [taken .waiting []] (recOf 0 0)
/-- Moved entries with and without a barrier, faulted, of a rank with its result, and sent to a peer. -/
def moved1 (b : Option (BitVec 5)) : CopyEntry := { taken .moved (recOf 1 0) with status := 6, detail := 2, bar := b }
def faulted1 : CopyEntry := taken (.faulted 2 0x900000 1) (recOf 1 0)
def rank1 (res : Option (List Nat)) (mine id : Nat) : XredRank := ⟨id, 7, 1, 2, 2, mine, 0x3000, 0, false, [], [0x3F800000, 0x40000000], (0, 0), res⟩
def sending (n : Nat) : CopyEntry := { taken .sending (recOf 1 4) with kind := .xred, next := n }
def ranked (n : Nat) (rs : List XredRank) : State := { copies [sending n] [] with copy := { (copies [sending n] []).copy with ranks := rs } }
def toPeer : State := { copies [taken .sending (recOf 1 4)] [] with copy := { (copies [taken .sending (recOf 1 4)] []).copy with peers := [⟨10, 0, 3, 0, [(0, 0x3000, [1])]⟩] } }
def wroteOf (s : State) (e : CopyEntry) (k : XredRank) (xs : List Nat) : State × Nat :=
  match s.engWrite e ((k.dst.toNat + formatBytes k.dfmt * e.next) % 2 ^ 64) (bytesLE (formatBytes k.dfmt) (xs.getD e.next 0)) with
  | .ok x => x
  | .error _ => (s, 0)
/-- Queue 0 held by a fault, a join of queues 0 and 1, messages in flight and acknowledged, a floor, and two ranks without a result. -/
def heldQueue : State := { copies [faulted1] [] with copy := { (copies [faulted1] []).copy with queues := [⟨0, true, 0x900000, false, true, 0, 0⟩] } }
def join1 : JoinRec := ⟨60, 1, 30, 3, 0, [0, 1], 5, false⟩
def elem1 : RedElem := ⟨0, [0x3000, 0x3001, 0x3002, 0x3003], 8, 5⟩
def msg1 (flying ack : Bool) : RedMsg := ⟨10, 0, 3, 1, 0, 0, 0, false, false, false, [elem1], true, flying, ack, false, (0, 0)⟩
def window1 (ss : List (Nat × Nat)) : RedWindow := ⟨0, 0, 3, 0, ss⟩
def floor1 : RedFloor := ⟨0, 0, 3, 1, true⟩
def messages (m : RedMsg) (ss : List (Nat × Nat)) : State := { copies [{ taken .sending (recOf 1 1) with kind := .reduce 0, seq := 3 }] [] with
  copy := { (copies [{ taken .sending (recOf 1 1) with kind := .reduce 0, seq := 3 }] []).copy with msgs := [m], windows := [window1 ss], floors := [floor1] } }
def ranks2 : State := { copies [sending 0, { sending 0 with id := 11 }] [] with copy := { (copies [sending 0, { sending 0 with id := 11 }] []).copy with
  ranks := [rank1 none 0 10, rank1 none 1 11] } }
/-! Events of warps, workgroups and bank units. -/
/-- PROG and F = 16: lanes 0 to 3 have waited 20 cycles. -/
def aged1 : State := setLanes { regs with cur := { regs.cur with hdr := { regs.cur.hdr with schw := BitVec.ofNat 64 (8 + 16 * 16) } } } fun l x => if l < 4 then { x with wait := 20 } else x
/-- The page of the code without X, or with the PC of no split. -/
def noExec : State := { regs with mem := { regs.mem with home := writeBytes regs.mem.home 0x20000 (bytesLE 8 0x1B) } }
/-- A launch of two workgroups of 2 warps: fields of 8 bits and 1, the workgroup cut after the first. -/
def launchHdr : Header := ⟨0x1000, 0, 0, 0, 0x2000, BitVec.ofNat 64 (8 + 1 * 2 ^ 6 + 2 ^ 36 + 2 ^ 39), BitVec.ofNat 64 (255 + 256), BitVec.ofNat 64 (16 + 8 * 2 ^ 7 + 12 * 2 ^ 14 + 2 ^ 29), 0⟩
def launch1 : Launch := ⟨70, 0, launchHdr, 0, 2, 0, some 3, 0, 7, 0, false, 0⟩
def launching : State := { regs with launches := [launch1] }
/-- The workgroup of the warp has exited; its launch has placed all; a timetable entry names it. -/
def exited1 : State := setLanes { regs with launches := [{ launch1 with next := 2, left := 1 }], wgs := regs.wgs.map fun g => { g with launch := some 70 } } fun _ x => { x with st := .exited }
def ended1 : State := { exited1 with launches := [{ launch1 with next := 2, left := 0 }], ctl := { exited1.ctl with tt := [⟨3, 0, 0, 0, 0, 0, 1, 0, 1, 0, none, some 70, 0, false⟩] } }
/-- A card of one bank, one command, BF16 weights at 0x200000, FP32 elements at 0x3000, the partial at 0x5000; and one of COUNT 0. -/
def cardBytes (count : Nat) : List Byte := bytesLE 8 0x200000 ++ bytesLE 8 0x3000 ++ bytesLE 8 0x5000 ++ bytesLE 4 (2 ^ 28 + count) ++ bytesLE 2 1 ++ bytesLE 2 0 ++ bytesLE 4 1 ++ List.replicate 28 0
def card1 (ph : CardPhase) (count : Nat) : BankCard := { card0 with
  acc := 8, phase := ph, card := cardBytes count, pch := (jobOf (cardBytes count)).pch, die := 0
  cols := if ph == .clean then [0x200000] else [], vec := if ph == .clean then (List.range 16).map fun i => 0x3000 + 4 * i else [], dst := if ph == .clean then [0x5000] else [] }
def cards1 (k : BankCard) : State := { regs with
  mem := { regs.mem with home := writeBytes (writeBytes regs.mem.home 0x3000 [0, 0, 0x80, 0x3F, 0, 0, 0, 0x40]) 0x200000 [0x80, 0x3F, 0x40, 0x40] }, cards := [k] }
/-! Time and the timetable. -/
def headerBytes (h : Header) : List Byte := ([h.entry, h.argp, h.statp, h.safep, h.traph, h.idw, h.glim, h.resw, h.schw].flatMap fun x => bytesLE 8 x.toNat) ++ List.replicate 56 0
/-- Entry 3 of the timetable at Tidemark 2000, context 0 Running with a slot that has ended, or not, and context 1 Ready; a valid header stands at 0x6000 and one with a
reserved byte at 0x6080. -/
def timed (e : TtEntry) (slotEnd : Nat) : State := { regs with
  tide := List.replicate 13 2000
  mem := { regs.mem with home := writeBytes (writeBytes regs.mem.home 0x6000 (headerBytes launchHdr)) 0x6080 ((headerBytes launchHdr).dropLast ++ [1]) }
  ctl := { regs.ctl with tt := [e], slotEnd := slotEnd, ctxs := regs.ctl.ctxs.map fun c => if c.n = 1 then { c with state := .ready, desc := [0x10000, 0x30000, 0x20000000, 0x10000000, 0x40000, 0x800000] } else c } }
/-- Entry 3: enabled with an ACT, OVR and context, due at 1900 in periods of 500. -/
def entry3 (act ovr cx : Nat) (lh : DWord) (l h : Option Nat) : TtEntry := ⟨3, 900, 500, 300, lh, BitVec.ofNat 32 (2 ^ 31 + act * 2 ^ 29 + ovr * 2 ^ 27 + cx * 2 ^ 24), 0, 0, 7, 1900, h, l, 100, false⟩
def firedEntry (e : TtEntry) : TtEntry := { e with nfire := (e.nfire + 1) % 2 ^ 16, known := e.nextT, staged := false, nextT := e.start.toNat + e.period.toNat * ((e.nextT - e.start.toNat) / e.period.toNat + 1) }
/-- The sixteen words of the two headers. -/
def wordsAt (reserved : Nat) : List Nat := [0x1000, 0, 0, 0, 0x2000, 618475290696, 511, 537068560, 0, 0, 0, 0, 0, 0, 0, reserved * 2 ^ 56]
def launchAt (lh : DWord) : TtEntry := entry3 0 0 0 lh none none
def disciplined (t : TimeCtl) : State := { regs with tide := List.replicate 13 2000000000, ctl := { regs.ctl with tm := t } }
/-! Contexts and gang switching. -/
/-- Context 0 leaves and context 1, if any, enters; the tide is 20000. -/
def switch1 (ph : SwitchPhase) (lv ent : Option Nat) (td : Bool) (st : List Nat) : Switch := ⟨ph, lv, ent, some 3, 4000, 0, td, st, []⟩
def descBytes (ok : Bool) : List Byte := ([(0x10000 : DWord), 0x30000, 0x8000000, 0x10000000, 0x40000, 0x800000].flatMap fun x => bytesLE 8 x.toNat) ++ List.replicate 79 0 ++ [if ok then 0 else 1]
/-- A switch in progress; descriptors stand at 0x7000 and, invalid, at 0x7080, for contexts 1 and 2. -/
def switching (s : State) (x : Option Switch) (st0 : CtxState) : State := { s with
  tide := List.replicate 13 20000
  mem := { s.mem with home := writeBytes (writeBytes s.mem.home 0x7000 (descBytes true)) 0x7080 (descBytes false) }
  copy := { s.copy with queues := [⟨0, false, 0, false, true, 0, 0⟩, ⟨1, false, 0, true, true, 1, 0⟩] }
  ctl := { s.ctl with switch := x, ctxs := s.ctl.ctxs.map fun c => if c.n = 0 then { c with state := st0 } else if c.n = 1 then { c with state := .switching, ctxd := 0x8000000000007000 }
    else if c.n = 2 then { c with state := .switching, ctxd := 0x8000000000007080 } else if c.n = 3 then { c with state := .ready } else c } }
def stopping1 (st : List Nat) (ent : Option Nat) : State := switching inHdl (some (switch1 .stopping (some 0) ent false st)) .switching
def drained1 (ent : Option Nat) : State := { stopping1 [1] ent with copy := { (stopping1 [1] ent).copy with queues := [⟨0, false, 0, true, true, 0, 0⟩] } }
def entering1 (c : Nat) : State := switching inHdl (some (switch1 .restoring none (some c) false [])) .ready
def tearing : State := switching inHdl (some (switch1 .stopping (some 0) none true [])) .switching
/-! The part and the host. -/
def noGrants : State := { regs with grants := [] }
def attesting (go : Bool) : State := { regs with boot := { regs.boot with atctl := if go then 0x80000000 else 0, ataddr := 0x40000, nonce := List.replicate 64 9 } }
def switchingDown : State := { regs with ctl := { regs.ctl with switch := some (switch1 .stopping (some 0) none false []), down := [3] } }
def allGood : StartUp := ⟨true, true, true, 0, 0, true, true, true, [], []⟩
theorem stack_enabled (p : Nat) : (attesting false).boot.stken.getLsbD (stackOf p) = true := by
  have h : stackOf p < 8 := Nat.mod_lt _ (by decide)
  have e : ∀ k < 8, (attesting false).boot.stken.getLsbD k = true := by decide +kernel
  exact e _ h
theorem fw_granted {p : Nat} (h : p < htop) : (attesting false).granted 0 3 p true = true := by
  have g : (attesting false).grants = [Grant.all] := rfl
  have h' : p < 2 ^ 52 := Nat.lt_trans h (by decide)
  have h2 : decide (p < 2 ^ 52) = true := decide_eq_true h'
  unfold State.granted
  rw [g]
  simp only [stack_enabled, h, Grant.all, decide_true, Bool.and_true, Bool.or_true, List.any_cons, List.any_nil, Bool.or_false, Nat.zero_le, h2, if_true]
  rfl
theorem in_range {p : Nat} (hp : p ∈ (List.range 4947).map fun i => (attesting false).boot.ataddr.toNat + i) : p < htop := by
  obtain ⟨i, hi, rfl⟩ := List.mem_map.mp hp
  have hi := List.mem_range.mp hi
  have a : (attesting false).boot.ataddr.toNat = 0x40000 := by decide +kernel
  rw [a]; unfold htop; omega

/-! Witnesses of the statements about arrays and accesses as a whole. -/

theorem witness_ArrayInstructionResults : (inMode 1).act cP ≠ 0 ∧ (inMode 1).myArray (0#5).toNat = some ⟨0, 0, 4, 1, false, 64, false, [], [], []⟩
    ∧ ((∀ j ∈ (List.range 32).filter (fun j => (1#32).getLsbD j), j < (inMode 1).arrayTotal ∧ ((inMode 1).myArray j).map (·.usable) = some 4))
    ∧ (inMode 1).cur.nameable 2 = true ∧ ((inMode 1).reg 2).isU = true
    ∧ (inMode 1).TakesTraps ∧ (31 ∈ (List.range 32).filter (fun j => (0x80000000#32).getLsbD j) ∧ (inMode 1).arrayTotal ≤ 31) ∧ (inMode 1).arrayTotal ≤ (1#5).toNat
    ∧ (inMode 1).Ready cP ([4] ++ [8, 9]) [4] false ∧ am0.k1.toNat + 1 ≤ 64 * 4 ∧ (inMode 1).Ready cP [4, 8] [4] false ∧ (inMode 1).Ready cP [4] [4] false :=
  ⟨by decide +kernel, by decide +kernel, by decide +kernel, by decide +kernel, by decide +kernel, takes_of (by decide +kernel) (by decide +kernel) (by decide +kernel),
    by decide +kernel, by decide +kernel, ready_of (by decide +kernel), by decide +kernel, ready_of (by decide +kernel), ready_of (by decide +kernel)⟩
theorem witness_ArrayProductIsExactAtScaleGroup64 : [3, 4, 7].length = [1, 2, 3].length ∧ (∀ x ∈ [3, 4, 7], x < 2 ^ 3) ∧ ∀ x ∈ [1, 2, 3], x < 2 ^ 2 := by decide
theorem witness_MemoryAccessEvents_apart : ∀ (i j : Nat) (y z : LaneAcc), i ≠ j → (twoLanes 0)[i]? = some y → (twoLanes 0)[j]? = some z → y.pa + 4 ≤ z.pa ∨ z.pa + 4 ≤ y.pa :=
  apart_of (P := fun y z => y.pa + 4 ≤ z.pa ∨ z.pa + 4 ≤ y.pa) (by decide)

end Sys2Proof.Tests

/-! ## Witnesses: control flow, rejoin images, traps. -/

namespace Sys2Proof.Tests.Flow
open Sys2Proof Sys2Proof.Machine
set_option Elab.async false

/-- A target that is no instruction address in lanes 4 and 6; one beyond the address space in lanes 5 and 7. -/
def oddTarget : State := setX (setX flow 4 12 0x1002) 6 12 0x1001
def farTarget : State := setX (setV (setX flow 5 13 0x01000000) 14 (.u 0)) 7 13 0x02000000
theorem witness_BranchResults_traps : oddTarget.TakesTraps ∧ oddTarget.cur.nameable 12 = true ∧ oddTarget.cur.nameable (12 + 1) = true ∧ oddTarget.active (ct 0) 4 = true
    ∧ (oddTarget.rdPair 12 4).toNat % 4 ≠ 0 ∧ (∀ l < 4, oddTarget.active (ct 0) l = true → (oddTarget.rdPair 12 l).toNat % 4 = 0)
    ∧ farTarget.TakesTraps ∧ farTarget.cur.nameable 12 = true ∧ farTarget.cur.nameable (12 + 1) = true ∧ farTarget.active (ct 0) 5 = true ∧ 2 ^ 56 ≤ (farTarget.rdPair 12 5).toNat
    ∧ (∀ l < 128, farTarget.active (ct 0) l = true → (farTarget.rdPair 12 l).toNat % 4 = 0)
    ∧ (∀ l < 5, farTarget.active (ct 0) l = true → (farTarget.rdPair 12 l).toNat < 2 ^ 56) := by simp only [takes_iff]; decide +kernel
/-- Lane 9 at the greatest depth; REGS of 62, which leaves no v62; v62 without a slot. -/
def deepest : State := setLanes flow fun l x => if l == 9 then { x with depth := 65535 } else x
def setResw (s : State) (regs gmax : Nat) : State := { s with cur := { s.cur with hdr := { s.cur.hdr with
  resw := BitVec.ofNat 64 (regs + gmax * 2 ^ 7 + 12 * 2 ^ 14 + 2 ^ 23 + 32 * 2 ^ 29 + 8 * 2 ^ 35) } } }
def noLink : State := setResw flow 62 30
def fullLink : State := setResw (setV flow 62 (.u 0x1010)) 64 4
theorem witness_CallResults_stops : (noLink.TakesTraps ∧ noLink.cur.hdr.regs < 63)
    ∧ (deepest.TakesTraps ∧ 63 ≤ deepest.cur.hdr.regs ∧ ∃ l < 128, deepest.active (ct 0) l = true ∧ (deepest.cur.lane l).depth = 65535)
    ∧ (fullLink.TakesTraps ∧ 63 ≤ fullLink.cur.hdr.regs ∧ (¬∃ l < 128, fullLink.active (ct 0) l = true ∧ (fullLink.cur.lane l).depth = 65535) ∧ fullLink.act (ct 0) ≠ 0
      ∧ (fullLink.cur.arch.vregs.getD 62 (.u 0)).isG = false ∧ fullLink.cur.arch.gCount = fullLink.cur.hdr.gmax) := by simp only [takes_iff]; decide +kernel
theorem witness_CallResults_targets : (oddTarget.TakesTraps ∧ 63 ≤ oddTarget.cur.hdr.regs ∧ (¬∃ l < 128, oddTarget.active (ct 0) l = true ∧ (oddTarget.cur.lane l).depth = 65535)
      ∧ oddTarget.HasRoom [62] ∧ oddTarget.active (ct 0) 4 = true ∧ (oddTarget.rdPair 12 4).toNat % 4 ≠ 0
      ∧ ∀ l < 4, oddTarget.active (ct 0) l = true → (oddTarget.rdPair 12 l).toNat % 4 = 0)
    ∧ (farTarget.TakesTraps ∧ 63 ≤ farTarget.cur.hdr.regs ∧ (¬∃ l < 128, farTarget.active (ct 0) l = true ∧ (farTarget.cur.lane l).depth = 65535)
      ∧ farTarget.HasRoom [62] ∧ farTarget.active (ct 0) 5 = true ∧ 2 ^ 56 ≤ (farTarget.rdPair 12 5).toNat
      ∧ (∀ l < 128, farTarget.active (ct 0) l = true → (farTarget.rdPair 12 l).toNat % 4 = 0)
      ∧ ∀ l < 5, farTarget.active (ct 0) l = true → (farTarget.rdPair 12 l).toNat < 2 ^ 56) := by simp only [takes_iff, State.HasRoom]; decide +kernel
/-- Sets 3 and 5 are frame-bound at depth 1, which a lane at depth 1 leaves; an odd return address in lanes 4 and 6; depth 0 in lane 9; REGS of 63. -/
def leaving : State := setSets flow ((List.replicate 16 RejoinSet.empty).set 3 ⟨255, 0, true, 1⟩ |>.set 5 ⟨0xF00, 0, true, 1⟩)
def oddReturn : State := setX (setX framed 4 62 0x1012) 6 62 0x1011
def shallow9 : State := setLanes framed fun l x => if l == 9 then { x with depth := 0 } else x
def noLeaf : State := setResw framed 63 30
theorem witness_ReturnResult_stops :
    let shallow (s : State) : Prop := ∃ l < 128, s.active (ct 0) l = true ∧ (s.cur.lane l).depth = 0
    let leaves (s : State) (k : Nat) : Prop := ∃ l < 128, s.active (ct 0) l = true ∧ (s.setNo k).fb = true ∧ (s.setNo k).m.getLsbD l = true
      ∧ (s.cur.lane l).depth.toNat - 1 < (s.setNo k).d.toNat
    let target (s : State) (l : Nat) : DWord := (s.ipc &&& 0x00FFFFFF00000000) + (s.rd 62 l).setWidth 64
    (noLeaf.TakesTraps ∧ noLeaf.cur.hdr.regs < 64) ∧ (shallow9.TakesTraps ∧ 64 ≤ shallow9.cur.hdr.regs ∧ shallow shallow9)
    ∧ (leaving.TakesTraps ∧ 64 ≤ leaving.cur.hdr.regs ∧ ¬shallow leaving ∧ leaves leaving 3 ∧ ∀ j < 3, ¬leaves leaving j)
    ∧ (oddReturn.TakesTraps ∧ 64 ≤ oddReturn.cur.hdr.regs ∧ ¬shallow oddReturn ∧ (∀ j < 16, ¬leaves oddReturn j) ∧ oddReturn.active (ct 0) 4 = true
      ∧ (target oddReturn 4).toNat % 4 ≠ 0 ∧ ∀ l < 4, oddReturn.active (ct 0) l = true → (target oddReturn l).toNat % 4 = 0) := by
  dsimp only; simp only [takes_iff]; decide +kernel
/-- Images in v40: those of lanes 0 to 7 at depth 1, frame-bound; a word of lane 5 that differs; and the image of set 4, in which lane 9 is a member and lane 8 is not,
put by lanes 0 to 9 while others stay. -/
def img : State := setP (setV sets34 40 (gv fun l => if l < 8 then 0xA0000001 else 0x20000001)) 1 0xF
def img2 : State := setX img 5 40 0xA0000002
def img4 : State := setP (setV sets34 40 (gv fun l => if l == 8 then 0 else 0x80000000)) 1 0x3FF
def joins (s : State) (c : Ctl) (l : Nat) : Bool := s.active c l && (s.rd 40 l).getLsbD 31
def tells (s : State) (l : Nat) : Bool × BitVec 16 := ((s.rd 40 l).getLsbD 29, (s.rd 40 l).extractLsb' 0 16)
def staysIn (s : State) (c : Ctl) (k : Nat) : Prop := ∃ l < 128, s.active c l = false ∧ (s.setNo k).m.getLsbD l = true
/-- A set of which members stay, one whose members are all active, and an empty one. -/
theorem witness_RejoinImageResults_puts : img4.cur.nameable 40 = true ∧ img.cur.nameable 40 = true ∧ img.act (ct 0) ≠ 0 ∧ img4.act cP ≠ 0
    ∧ (staysIn img4 cP 4 ∧ ∀ l < 128, joins img4 cP l = true → tells img4 l = (false, 0) ∧ tells img4 l = ((img4.setNo 4).fb, (img4.setNo 4).d))
    ∧ (¬staysIn img (ct 0) 3 ∧ (img.setNo 3).m ≠ 0 ∧ ∀ l < 128, joins img (ct 0) l = true → tells img l = (true, 1))
    ∧ (¬staysIn img (ct 0) 9 ∧ (img.setNo 9).m = 0) := by unfold staysIn; decide +kernel
/-- Words that disagree among themselves, and words that disagree with a member that stays. -/
theorem witness_RejoinImageResults_inconsistent : img2.TakesTraps ∧ img2.cur.nameable 40 = true
    ∧ (∃ k < 128, ∃ l < 128, joins img2 (ct 0) k = true ∧ joins img2 (ct 0) l = true ∧ tells img2 k ≠ tells img2 l)
    ∧ img4.TakesTraps ∧ staysIn img4 cP 4 ∧ (∃ l < 128, joins img4 cP l = true ∧ tells img4 l ≠ ((img4.setNo 3).fb, (img4.setNo 3).d)) ∧ sets34.Ready cP [40] [40] false := by
  unfold staysIn; simp only [takes_iff, ready_iff]; decide +kernel

/-! Shape overflows: GMAX as many as there are G registers, or one more; v12 and v14 hold uniform addresses, v20 and v22 general ones, v24 a uniform rank. -/
def tight (n : Nat) : State := let s := setV (setV (setV (setV (setV mem1 20 (gv fun l => 0x3000 + 4 * l)) 22 (gv fun l => l)) 13 (.u 0)) 12 (.u 0x4000)) 24 (.u 0)
  setResw s 64 (s.cur.arch.gCount + n)
def binding (s : State) (ds : List Reg) : List Nat := (List.range 64).filter fun r => (ds.any fun y => y.toNat == r) && !(s.cur.arch.vregs.getD r (.u 0)).isG
theorem witness_ShapeOverflowTrap :
    let parts (s : State) (c : Ctl) : Prop := ∃ l < 128, s.cur.live.getLsbD l = true ∧ s.active c l = false
    ((tight 0).TakesTraps ∧ (tight 0).act cP ≠ 0 ∧ parts (tight 0) cP ∧ (binding (tight 0) [4])[(tight 0).cur.hdr.gmax - (tight 0).cur.arch.gCount]? = some 4)
    ∧ ((tight 1).TakesTraps ∧ (tight 1).act cP ≠ 0 ∧ parts (tight 1) cP ∧ (tight 1).pairU 20 = false
      ∧ (binding (tight 1) [40, 41])[(tight 1).cur.hdr.gmax - (tight 1).cur.arch.gCount]? = some 41
      ∧ (binding (tight 1) (regBlock 40 (blockRegs (szBytes 5))))[(tight 1).cur.hdr.gmax - (tight 1).cur.arch.gCount]? = some 41)
    ∧ ((∀ r ∈ ([4, 8, 9] : List Reg), (tight 0).cur.nameable r = true) ∧ (tight 0).flat 8 = false ∧ ((tight 0).reg 8).isU = false)
    ∧ (∀ r ∈ (regBlock 40 (blockRegs (szBytes 5)) ++ (20 :: 24 :: regBlock 22 (blockRegs (szBytes 5) * 2))), (tight 1).cur.nameable r = true)
    ∧ (∀ r ∈ ([40] ++ (pairRegs 20 ++ regBlock 22 cz.nc.toNat ++ [24])), (tight 0).cur.nameable r = true) ∧ cz.bar.toNat < (tight 0).cur.hdr.bars
    ∧ (∀ r ∈ (pairRegs 40 ++ (pairRegs 20 ++ pairRegs 22)), (tight 1).cur.nameable r = true) ∧ ∀ k ∈ (tight 1).cur.reads, k.pc ≠ (tight 1).ipc := by
  dsimp only; simp only [takes_iff]; decide +kernel

/-! What an issue leaves: a multiplication of pairs, whose result is due later, an array query, no active lane, and a trap. -/
def slow : Instr := .imul (ct 1) ⟨true, false, false⟩ 4 8 2
def query : Instr := .aqryImmediate cP 4 0
theorem witness_IssueLeavesTheWarp_pends : (regs.unissued (after regs slow) = false ∧ regs.cur.inHandler = false ∧ (after regs slow).cur.inHandler = false
      ∧ (resourceOf regs slow (regs.actOf slow)).2.2.isSome = true ∧ regs.actOf slow ≠ 0 ∧ regs.trapped (after regs slow) = false)
    ∧ ((inMode 1).unissued (after (inMode 1) query) = false ∧ (resourceOf (inMode 1) query ((inMode 1).actOf query)).2.2.isSome = true ∧ (inMode 1).actOf query ≠ 0
      ∧ (inMode 1).trapped (after (inMode 1) query) = false ∧ (after (inMode 1) query).cur.inHandler = false)
    ∧ (regs.unissued (after regs (.nop cOff)) = false ∧ regs.actOf (.nop cOff) = 0) := by decide +kernel

/-- Lanes that have fetched their instruction ahead, other bytes than memory holds. -/
def ahead1 : State := { runs1 with cur := { runs1.cur with fetched := [⟨0x1000, BitVec.allOnes 128, [0x00, 0x00, 0x00, 0x70]⟩] } }
theorem witness_StepRunsDecodedInstruction_ahead : startsHere ahead1
    ∧ ((fetching ahead1).cur.fetched.find? fun k => k.pc == (fetching ahead1).ipc && (fetching ahead1).split &&& ~~~ k.lanes == 0)
      = some ⟨0x1000, BitVec.allOnes 128, [0x00, 0x00, 0x00, 0x70]⟩ := by unfold startsHere; decide +kernel

end Sys2Proof.Tests.Flow

/-! ## Witnesses: Events of the compute arrays. -/

namespace Sys2Proof.Tests.Arrays
open Sys2Proof Sys2Proof.Machine
set_option Elab.async false

def asks (kd : ReqKind) : Req := rq 44 false false kd
def amC : Req := asks (.amode [0] true)
def amS : Req := asks (.amode [0] false)
def acf : Req := asks (.acfg 0 3 true 128)
def axmR : Req := asks (.axm 0 3 job1)
/-- An older configuration stands before the request. -/
def before (k : BitVec 2) (r : Req) : State := arrState (arr k false [] []) [rq 40 false false (.acfg 0 3 true 128), r]
def inState (k : BitVec 2) (p : Bool) (r : Req) : State := arrState (arr k p [] []) [r]
def queuedS : ArrayRec := arr 2 false [] [.mode false 1]
def queuedC : ArrayRec := arr 3 false [] [.mode true 1]
def sp1 (op : MemOp) : MemReq := { spReq op with lanes := (spReq op).lanes.map fun x => { x with far := 0 } }
/-- A store of lane 0 that the array holds. -/
def heldReq : Req := { rq 45 true false (.mem (sp1 .store)) with held := true }
def heldArr : ArrayRec := arr 3 false [] [.access 45]
def ready0 : ArrayRec := arr 0 false [] []
def done1 : AxmJob := { job1 with result := some doneRows }
def spAsk (op : MemOp) : Req := rq 45 false false (.mem (sp1 op))
def spState (k : BitVec 2) (op : MemOp) : State := arrState (arr k false [] []) [spAsk op]
def spBad : State := { spState 0 (.load false) with mem := { (spState 0 (.load false)).mem with spadPoison := [spadCell 0 0 64 / 8] } }
def spOld : State := arrState (arr 0 false [] []) [rq 40 false false (.acfg 0 3 true 128), spAsk .store]
def xs1 : LaneAcc := { (⟨0, 64, spadCell 0 0 64, 0, 0x12345678, 0, 0, 1, 0⟩ : LaneAcc) with far := 0 }
def no0 : List Nat := []
def noA : List AxmJob := []
def noL : List LaneAcc := []
def noRows : List (List Word) := []
def no2 : List Host.Cell := []
/-- Two bytes that copy entry 10 writes to array 0. -/
def two2 : List Host.Cell := [(spadCell 0 0 64, 5), (spadCell 0 0 65, 6)]
def copied (k : BitVec 2) : ArrayRec := arr k false [] [.write 10 two2 0]

theorem witness_ArrayEventResults_1 :
    let s : State := (inState 0 false amC); let id : Nat := 44; let r : Req := amC; let q : Req := amC; let a : ArrayRec := ready0; let compute : Bool := true; let ts : List Nat := [0];
    let quiet : Prop := ∀ q ∈ a.queue, ∃ c u, q = .mode c u
    (s.reqOf id = some r ∧ r.kind = .amode ts compute ∧ (∀ p ∈ ts, s.olderAt r r.core p = false))
    ∧ (s.arrayOf a.core a.phys = some a ∧ (a.mode ≠ 2 ∨ ¬quiet))
    ∧ (s.arrayOf a.core a.phys = some a ∧ (a.mode ≠ 3 ∨ a.axms ≠ [])) := by
  dsimp only; simp only [some_mode]; decide +kernel
theorem witness_ArrayEventResults_2 :
    let s : State := (before 0 amS); let id : Nat := 44; let r : Req := amS; let compute : Bool := false; let ts : List Nat := [0];
    (s.reqOf id = some r ∧ r.kind = .amode ts compute ∧ (∃ p ∈ ts, s.olderAt r r.core p = true)) := by
  dsimp only; decide +kernel
theorem witness_ArrayEventResults_3 :
    let s : State := (before 0 acf); let id : Nat := 44; let phys : Nat := 0; let r : Req := acf; let a : ArrayRec := ready0; let a6 : Bool := true; let arr : Nat := 3; let sg : Nat := 128;
    (s.reqOf id = some r ∧ s.arrayOf r.core phys = some a ∧ r.fault = none ∧ r.kind = .acfg phys arr a6 sg ∧ s.olderAt r r.core phys = true) := by
  dsimp only; decide +kernel
theorem witness_ArrayEventResults_4 :
    let s : State := (inState 0 false acf); let id : Nat := 44; let phys : Nat := 0; let r : Req := acf; let a : ArrayRec := ready0; let a6 : Bool := true; let arr : Nat := 3; let sg : Nat := 128;
    (s.reqOf id = some r ∧ s.arrayOf r.core phys = some a ∧ r.fault = none ∧ r.kind = .acfg phys arr a6 sg ∧ s.olderAt r r.core phys = false ∧ a.mode = 0) := by
  dsimp only; decide +kernel
theorem witness_ArrayEventResults_5 :
    let s : State := (inState 3 false acf); let id : Nat := 44; let phys : Nat := 0; let r : Req := acf; let q : Req := amC; let a : ArrayRec := (arr 3 false [] []); let a6 : Bool := true; let arr : Nat := 3; let sg : Nat := 128;
    let quiet : Prop := ∀ q ∈ a.queue, ∃ c u, q = .mode c u
    (s.reqOf id = some r ∧ s.arrayOf r.core phys = some a ∧ r.fault = none ∧ r.kind = .acfg phys arr a6 sg ∧ s.olderAt r r.core phys = false ∧ a.mode ≠ 0)
    ∧ (s.arrayOf a.core a.phys = some a ∧ a.mode = 3 ∧ a.axms = [] ∧ quiet) := by
  dsimp only; simp only [some_mode]; decide +kernel
theorem witness_ArrayEventResults_6 :
    let s : State := (inState 2 false axmR); let id : Nat := 44; let phys : Nat := 0; let r : Req := axmR; let q : Req := amC; let a : ArrayRec := (arr 2 false [] []); let arr : Nat := 3; let j : AxmJob := job1;
    let quiet : Prop := ∀ q ∈ a.queue, ∃ c u, q = .mode c u
    (s.reqOf id = some r ∧ s.arrayOf r.core phys = some a ∧ r.fault = none ∧ r.kind = .axm phys arr j ∧ (s.olderAt r r.core phys = true ∨ a.mode = 2))
    ∧ (s.arrayOf a.core a.phys = some a ∧ a.mode = 2 ∧ quiet) := by
  dsimp only; simp only [some_mode]; decide +kernel
theorem witness_ArrayEventResults_7 :
    let s : State := (inState 1 false axmR); let id : Nat := 44; let phys : Nat := 0; let r : Req := axmR; let a : ArrayRec := (arr 1 false [] []); let arr : Nat := 3; let j : AxmJob := job1;
    (s.reqOf id = some r ∧ s.arrayOf r.core phys = some a ∧ r.fault = none ∧ r.kind = .axm phys arr j ∧ s.olderAt r r.core phys = false ∧ a.mode = 1 ∧ a.poisoned = false) := by
  dsimp only; decide +kernel
theorem witness_ArrayEventResults_8 :
    let s : State := (inState 1 true axmR); let id : Nat := 44; let phys : Nat := 0; let r : Req := axmR; let a : ArrayRec := (arr 1 true [] []); let arr : Nat := 3; let j : AxmJob := job1;
    (s.reqOf id = some r ∧ s.arrayOf r.core phys = some a ∧ r.fault = none ∧ r.kind = .axm phys arr j ∧ s.olderAt r r.core phys = false ∧ a.mode = 1 ∧ a.poisoned = true) := by
  dsimp only; decide +kernel
theorem witness_ArrayEventResults_9 :
    let s : State := (inState 0 true axmR); let id : Nat := 44; let phys : Nat := 0; let r : Req := axmR; let a : ArrayRec := (arr 0 true [] []); let arr : Nat := 3; let j : AxmJob := job1;
    (s.reqOf id = some r ∧ s.arrayOf r.core phys = some a ∧ r.fault = none ∧ r.kind = .axm phys arr j ∧ s.olderAt r r.core phys = false ∧ (a.mode = 0 ∨ a.mode = 3)) := by
  dsimp only; decide +kernel
theorem witness_ArrayEventResults_10 :
    let s : State := (arrState heldArr [heldReq]); let k : Nat := 45; let q : Req := heldReq; let a : ArrayRec := heldArr; let m : MemReq := (sp1 .store); let x : LaneAcc := xs1;
    (s.arrayOf a.core a.phys = some a ∧ a.mode = 3 ∧ a.axms = [] ∧ a.queue = [.access k] ∧ s.reqOf k = some q ∧ q.kind = .mem m ∧ m.isStore = true ∧ m.lanes = [x] ∧ x.left = 1 ∧ x.far = 0 ∧ m.sz ∈ [1, 2, 4, 8] ∧ x.lane < 128 ∧ cellArray x.pa = (a.core, a.phys)) := by
  dsimp only; decide +kernel
theorem witness_ArrayEventResults_11 :
    let s : State := (arrState { ready0 with queue := [.access 45] } [heldReq]); let id : Nat := 45; let r : Req := heldReq; let m : MemReq := (sp1 .store); let x : LaneAcc := xs1; let mask : Mask := 1; let halves : BitVec 2 := 3;
    (s.reqOf id = some r ∧ r.kind = .mem m ∧ m.space = .spad ∧ r.served = false ∧ r.fault = none ∧ r.held = true ∧ r.checked = true ∧ m.isStore = true ∧ m.lanes = [x] ∧ x.left = 1 ∧ x.far = 0 ∧ m.sz ∈ [1, 2, 4, 8] ∧ mask.getLsbD x.lane = true ∧ halves.getLsbD 0 = true ∧ s.mayMake r m x 0 = true) := by
  dsimp only; decide +kernel
theorem witness_ArrayEventResults_12 :
    let s : State := (arrState (arr 1 false [job1] []) []); let a : ArrayRec := (arr 1 false [job1] []); let j : AxmJob := job1; let rest : List AxmJob := noA;
    (s.arrayOf a.core a.phys = some a ∧ a.axms = j :: rest ∧ j.result = none) := by
  dsimp only; decide +kernel
theorem witness_ArrayEventResults_13 :
    let s : State := (arrState (arr 3 false [done1] []) []); let a : ArrayRec := (arr 3 false [done1] []); let j : AxmJob := done1; let rest : List AxmJob := noA; let rows : List (List Word) := doneRows;
    (s.arrayOf a.core a.phys = some a ∧ a.axms = j :: rest ∧ j.result = some rows ∧ j.uid = s.cur.uid) := by
  dsimp only; decide +kernel
theorem witness_ArrayEventResults_14 :
    let s : State := (spState 0 (.load false)); let id : Nat := 45; let r : Req := (spAsk (.load false)); let m : MemReq := (sp1 (.load false)); let mask : Mask := 1; let halves : BitVec 2 := 3;
    let size : Prop := m.sz ∈ [1, 2, 4, 8, 16]
    let arrives : Prop := m.space = .spad ∧ r.served = false ∧ r.held = false ∧ r.fault = none ∧ (∀ p ∈ m.arrays, s.olderAt r p.1 p.2 = false)
      ∧ (m.ord.getLsbD 1 = true → s.released r m = true)
    let whole : Prop := ∀ y ∈ m.lanes, y.left = allParts m.sz ∧ y.far = 0 ∧ mask.getLsbD y.lane = true
    let free : Prop := ∀ y ∈ m.lanes, ∀ b, s.arrayOf (cellArray y.pa).1 (cellArray y.pa).2 = some b → b.queue = []
    (s.reqOf id = some r ∧ r.kind = .mem m ∧ arrives ∧ m.isLoad = true ∧ s.failingLanes r.core m = [] ∧ size ∧ whole ∧ halves = 3 ∧ free) := by
  dsimp only; simp only [all_opt]; decide +kernel
theorem witness_ArrayEventResults_15 :
    let s : State := spBad; let id : Nat := 45; let r : Req := (spAsk (.load false)); let m : MemReq := (sp1 (.load false)); let x : LaneAcc := xs1; let xs : List LaneAcc := noL;
    let arrives : Prop := m.space = .spad ∧ r.served = false ∧ r.held = false ∧ r.fault = none ∧ (∀ p ∈ m.arrays, s.olderAt r p.1 p.2 = false)
      ∧ (m.ord.getLsbD 1 = true → s.released r m = true)
    (s.reqOf id = some r ∧ r.kind = .mem m ∧ arrives ∧ m.isLoad = true ∧ s.failingLanes r.core m = x :: xs) := by
  dsimp only; decide +kernel
theorem witness_ArrayEventResults_16 :
    let s : State := (spState 0 .store); let id : Nat := 45; let r : Req := (spAsk .store); let m : MemReq := (sp1 .store); let mask : Mask := 1; let halves : BitVec 2 := 3;
    let size : Prop := m.sz ∈ [1, 2, 4, 8, 16]
    let arrives : Prop := m.space = .spad ∧ r.served = false ∧ r.held = false ∧ r.fault = none ∧ (∀ p ∈ m.arrays, s.olderAt r p.1 p.2 = false)
      ∧ (m.ord.getLsbD 1 = true → s.released r m = true)
    let whole : Prop := ∀ y ∈ m.lanes, y.left = allParts m.sz ∧ y.far = 0 ∧ mask.getLsbD y.lane = true
    let free : Prop := ∀ y ∈ m.lanes, ∀ b, s.arrayOf (cellArray y.pa).1 (cellArray y.pa).2 = some b → b.queue = []
    (s.reqOf id = some r ∧ r.kind = .mem m ∧ arrives ∧ m.isStore = true ∧ (∀ y ∈ m.lanes, s.modeAt y.pa = 0) ∧ size ∧ whole ∧ halves = 3 ∧ free) := by
  dsimp only; simp only [all_opt]; decide +kernel
theorem witness_ArrayEventResults_17 :
    let s : State := (spState 1 .store); let id : Nat := 45; let r : Req := (spAsk .store); let m : MemReq := (sp1 .store); let x : LaneAcc := xs1;
    let arrives : Prop := m.space = .spad ∧ r.served = false ∧ r.held = false ∧ r.fault = none ∧ (∀ p ∈ m.arrays, s.olderAt r p.1 p.2 = false)
      ∧ (m.ord.getLsbD 1 = true → s.released r m = true)
    (s.reqOf id = some r ∧ r.kind = .mem m ∧ arrives ∧ m.isStore = true ∧ (m.lanes.find? fun y => s.modeAt y.pa == 1 || s.modeAt y.pa == 2) = some x) := by
  dsimp only; decide +kernel
theorem witness_ArrayEventResults_18 :
    let s : State := (spState 3 .store); let id : Nat := 45; let r : Req := (spAsk .store); let a : ArrayRec := (arr 3 false [] []); let m : MemReq := (sp1 .store); let x : LaneAcc := xs1;
    let size : Prop := m.sz ∈ [1, 2, 4, 8, 16]
    let arrives : Prop := m.space = .spad ∧ r.served = false ∧ r.held = false ∧ r.fault = none ∧ (∀ p ∈ m.arrays, s.olderAt r p.1 p.2 = false)
      ∧ (m.ord.getLsbD 1 = true → s.released r m = true)
    (s.reqOf id = some r ∧ r.kind = .mem m ∧ arrives ∧ m.isStore = true ∧ m.lanes = [x] ∧ x.left = allParts m.sz ∧ size ∧ s.modeAt x.pa = 3 ∧ s.arrayOf (cellArray x.pa).1 (cellArray x.pa).2 = some a) := by
  dsimp only; decide +kernel
theorem witness_ArrayEventResults_19 :
    let s : State := spOld; let id : Nat := 45; let r : Req := (spAsk .store); let m : MemReq := (sp1 .store);
    (s.reqOf id = some r ∧ r.kind = .mem m ∧ m.space = .spad ∧ r.held = false ∧ (∃ p ∈ m.arrays, s.olderAt r p.1 p.2 = true)) := by
  dsimp only; decide +kernel
theorem witness_ArrayEventResults_20 :
    let s : State := (arrState (copied 0) []); let id : Nat := 10; let a : ArrayRec := (copied 0); let cs : List Host.Cell := two2; let due : Nat := 0;
    (s.reqOf id = none ∧ a ∈ s.arrays ∧ (∀ y ∈ s.arrays, y = a ∨ y.queue = []) ∧ a.queue = [.write id cs due] ∧ due ≤ s.tideOf (a.core / 24) ∧ a.mode ≠ 3 ∧ (cs.map (·.1)).Nodup) := by
  dsimp only; decide +kernel
theorem witness_ArrayEventResults_21 :
    let s : State := (arrState (copied 3) []); let id : Nat := 10; let a : ArrayRec := (copied 3); let cs : List Host.Cell := two2; let due : Nat := 0;
    (s.reqOf id = none ∧ a ∈ s.arrays ∧ (∀ y ∈ s.arrays, y = a ∨ y.queue = []) ∧ a.queue = [.write id cs due] ∧ due ≤ s.tideOf (a.core / 24) ∧ a.mode = 3 ∧ cs ≠ []) := by
  dsimp only; decide +kernel

end Sys2Proof.Tests.Arrays

/-! ## Witnesses: Lane queues. -/

namespace Sys2Proof.Tests.LaneQueues
open Sys2Proof Sys2Proof.Machine
set_option Elab.async false


theorem witness_LaneQueueResults_1 :
    let s : State := queued; let c : Ctl := cP; let q : BitVec 3 := 0; let a : Reg := 18; let b : Reg := 8; let d : Reg := 4; let log2n : BitVec 4 := 11; let d8 : Bool := false; let x : LaneQueue := (ring false); let g : Workgroup := queuedWg;
    let lanes : List Nat := (List.range 128).filter (s.active c)
    let esz : Nat := if d8 then 8 else 4
    let base := (s.rd a 0).toNat
    let size := 2 ^ x.log2n
    let held := (x.tail - x.head).toNat
    let slot (i : Nat) : Nat := x.base + esz * (i % size)
    let cell (i : Nat) : Nat := spadCell g.core (g.arrays.getD (slot i / 12288) 0) (slot i % 12288)
    let inside : Prop := x.base + esz * size ≤ 12288 * g.arrays.length
    let dests : List Reg := if d8 then [d, d + 1] else [d]
    let n := min lanes.length (size - held)
    let m := min lanes.length held
    (s.wgOf s.cur.wg = some g ∧ s.act c ≠ 0 ∧ s.cur.nameable a = true ∧ (s.reg a).isU = true ∧ g.queues[q.toNat]? = some x ∧ base % esz = 0 ∧ base + esz * 2 ^ log2n.toNat ≤ 12288 * g.arrays.length)
    ∧ (s.wgOf s.cur.wg = some g ∧ s.act c ≠ 0 ∧ g.queues[q.toNat]? = some x ∧ x.init = true ∧ x.esz8 = d8 ∧ x.base % esz = 0 ∧ inside ∧ (∀ r ∈ (if d8 then [b, b + 1] else [b]), s.cur.nameable r = true) ∧ (∀ k < n, s.modeAt (cell (x.tail.toNat + k)) = 0 ∧ s.behind s.nextId false (cell (x.tail.toNat + k)) esz = false))
    ∧ (s.wgOf s.cur.wg = some g ∧ s.act c ≠ 0 ∧ g.queues[q.toNat]? = some x ∧ x.init = true ∧ x.esz8 = d8 ∧ x.base % esz = 0 ∧ inside ∧ s.Ready c dests dests false ∧ (∀ k < m, s.behind s.nextId true (cell (x.head.toNat + k)) esz = false) ∧ (∀ k < m, cell (x.head.toNat + k) / 8 ∉ s.mem.spadPoison)) := by
  dsimp only; simp only [ready_iff]; decide +kernel

end Sys2Proof.Tests.LaneQueues

/-! ## Witnesses: Copies and bank jobs at issue. -/

namespace Sys2Proof.Tests.Offers
open Sys2Proof Sys2Proof.Machine
set_option Elab.async false


theorem witness_CopyAndBankJobsAreOffered_1 :
    let s : State := bound0; let c : Ctl := cP; let m : CMod := cz; let t : Reg := 30; let a : Reg := 12; let b : Reg := 9; let e : Reg := 2; let base : BitVec 9 := 0; let mask : BitVec 8 := 0;
    let lanes : List Nat := (List.range 128).filter (s.active c)
    let queues : List Nat := ((List.range 8).filter fun i => mask.getLsbD i).map fun i => (base.toNat + i) % 512
    let names : List Reg := regBlock b m.nc.toNat ++ (if m.wide then [e, e + 1] else [e])
    let lost (l : Nat) : Bool := faultsWith 17 (s.blockLane l (s.rdPair a l) 64)
    (s.Ready c [t] [t] false ∧ (∀ q ∈ queues, (s.queueRec q).bound = true ∧ (s.queueRec q).ctx = s.cur.ctx) ∧ queues = [])
    ∧ (s.Ready c [t, a, a + 1] [t] false ∧ (∀ l ∈ lanes, (s.rdPair a l).toNat % 64 = 0 ∧ (lost l = true ∨ ∃ p, s.blockLane l (s.rdPair a l) 64 = .ok p)))
    ∧ ((s.Ready c (t :: names ++ [a, a + 1]) [t] false ∧ m.bar.toNat < s.cur.hdr.bars ∧ (∀ l ∈ lanes, (s.rdPair a l).toNat % 128 = 0) ∧ (s.queueRec m.queue.toNat).bound = true ∧ (s.queueRec m.queue.toNat).ctx = s.cur.ctx))
    ∧ ((s.Ready c (t :: [] ++ [a, a + 1]) [t] false ∧ m.bar.toNat < s.cur.hdr.bars ∧ (∀ l ∈ lanes, (s.rdPair a l).toNat % 128 = 0) ∧ (s.queueRec m.queue.toNat).bound = true ∧ (s.queueRec m.queue.toNat).ctx = s.cur.ctx)) := by
  dsimp only; simp only [ready_iff, some_ok]; decide +kernel
theorem witness_CopyAndBankJobsAreOffered_2 :
    let s : State := bound0; let c : Ctl := cP; let t : Reg := 30; let base : BitVec 9 := 0; let mask : BitVec 8 := 1;
    let queues : List Nat := ((List.range 8).filter fun i => mask.getLsbD i).map fun i => (base.toNat + i) % 512
    (s.Ready c [t] [t] false ∧ (∀ q ∈ queues, (s.queueRec q).bound = true ∧ (s.queueRec q).ctx = s.cur.ctx) ∧ queues ≠ []) := by
  dsimp only; simp only [ready_iff]; decide +kernel

end Sys2Proof.Tests.Offers

/-! ## Witnesses: Handle instructions. -/

namespace Sys2Proof.Tests.Handles
open Sys2Proof Sys2Proof.Machine
set_option Elab.async false

def clear1 : State := { tasks1 with reqs := [] }
def slotOf' (s : State) (i : Nat) : Slot := (s.slotOf (hOf i)).getD (slot 0 .free)

theorem witness_HandleInstructionResults_1 :
    let s : State := clear1; let c : Ctl := (ct 0); let d : Reg := 4; let a : Reg := 20; let b : Reg := 8; let l0 : Nat := 0;
    let named (rs : List Reg) : Prop := ∀ r ∈ rs, s.cur.nameable r = true
    (s.act c ≠ 0 ∧ s.cur.inHandler = false)
    ∧ (s.act c ≠ 0 ∧ named [b, b + 1])
    ∧ (s.act c ≠ 0 ∧ s.TakesTraps ∧ s.Ready c [d, d + 1, a, a + 1, b, b + 1] [d, d + 1] false ∧ l0 < 128 ∧ s.active c l0 = true ∧ s.handleOk s.cur.ctx (s.rdPair b l0) = false ∧ (∀ l < l0, s.active c l = true → s.handleOk s.cur.ctx (s.rdPair b l) = true))
    ∧ (s.act c ≠ 0 ∧ s.Ready c [d, d + 1, b, b + 1] [d, d + 1] false ∧ s.cur.inHandler = false)
    ∧ (s.act c ≠ 0 ∧ s.TakesTraps ∧ s.cur.task = none) := by
  dsimp only; simp only [takes_iff, ready_iff]; decide +kernel
theorem witness_HandleInstructionResults_2 :
    let s : State := (taskWarp 4 none); let c : Ctl := (ct 0); let a : Reg := 20; let h : DWord := (hOf 4); let x : Slot := (slotOf' tasks1 4);
    let named (rs : List Reg) : Prop := ∀ r ∈ rs, s.cur.nameable r = true
    (s.act c ≠ 0 ∧ named [a, a + 1] ∧ s.cur.task = some h ∧ s.cur.hset = none ∧ s.liveSlot h = some x ∧ x.state ≠ .broken)
    ∧ (s.act c ≠ 0 ∧ s.cur.task = some h ∧ s.liveSlot h = some x ∧ x.state ≠ .broken) := by
  dsimp only; decide +kernel
theorem witness_HandleInstructionResults_3 :
    let s : State := (taskWarp 4 (some 1)); let c : Ctl := (ct 0); let a : Reg := 20; let h : DWord := (hOf 4);
    let named (rs : List Reg) : Prop := ∀ r ∈ rs, s.cur.nameable r = true
    (s.act c ≠ 0 ∧ named [a, a + 1] ∧ s.cur.task = some h ∧ s.cur.hset ≠ none) := by
  dsimp only; decide +kernel

end Sys2Proof.Tests.Handles

/-! ## Witnesses: INVOKE and CHAIN. -/

namespace Sys2Proof.Tests.Invokes
open Sys2Proof Sys2Proof.Machine
set_option Elab.async false

def places (_ : Nat) : Nat × BitVec 2 := (0x3000, 0)
/-- What lanes 0 and 2 had read before they waited for slots: an invalid record and a valid one, and the places of their counters. -/
def waited1 : State := { tasks3 with cur := { tasks3.cur with reads := [⟨0x1000, tasks3.act cP, [(0, [2, 0, 0, 0, 0, 0, 0, 0]), (2, [0x1000, 7, 8, 0, 0, 0, 0, 0])], [(0, 0x3000), (2, 0x3040)]⟩] } }

theorem witness_InvokeAndChainResults_1 :
    let s : State := tasks2; let c : Ctl := cP; let d : Reg := 4; let a : Reg := 12; let e : Reg := 14; let at' : Nat → Nat × BitVec 2 := places;
    let lanes : List Nat := (List.range 128).filter (s.active c)
    let before := s.cur.reads.find? fun k => k.pc == s.ipc && k.act == s.act c
    let read := s.blockReads (s.act c) a 64
    let record (l : Nat) : List DWord := match before with
      | some k => ((k.recs.find? fun x => x.1 == l).map (·.2)).getD []
      | none => (List.range 8).map fun i => BitVec.ofNat 64 (numLE (((((read.1.find? fun x => x.1 == l).map (·.2)).getD []).drop (8 * i)).take 8))
    ((s.Ready c ([d, d + 1, a, a + 1] ++ []) [d, d + 1] false ∧ lanes.length ≤ s.freeSlots s.cur.core s.cur.ctx ∧ s.cur.core < 192 ∧ (∀ l ∈ lanes, (s.rdPair a l).toNat % 64 = 0 ∧ (∃ p, s.blockLane l (s.rdPair a l) 64 = .ok p) ∧ recInvalid (record l) = false) ∧ before = none))
    ∧ (((∀ l ∈ lanes, (s.rdPair e l).toNat % 4 = 0 ∧ s.counterLane l (s.rdPair e l) = .ok (at' l)) ∧ s.Ready c ([d, d + 1, a, a + 1] ++ [e, e + 1]) [d, d + 1] false)) := by
  dsimp only; simp only [ready_iff, some_ok]; decide +kernel
theorem witness_InvokeAndChainResults_2 :
    let s : State := waited1; let c : Ctl := cP; let d : Reg := 4; let a : Reg := 12; let b : Reg := 20; let e : Reg := 22; let at' : Nat → Nat × BitVec 2 := places;
    let lanes : List Nat := (List.range 128).filter (s.active c)
    let before := s.cur.reads.find? fun k => k.pc == s.ipc && k.act == s.act c
    let read := s.blockReads (s.act c) a 64
    let record (l : Nat) : List DWord := match before with
      | some k => ((k.recs.find? fun x => x.1 == l).map (·.2)).getD []
      | none => (List.range 8).map fun i => BitVec.ofNat 64 (numLE (((((read.1.find? fun x => x.1 == l).map (·.2)).getD []).drop (8 * i)).take 8))
    ((∀ l ∈ lanes, s.coreEnabled (s.rd e l).toNat = true))
    ∧ ((before = none → ∀ l ∈ lanes, (s.rdPair e l).toNat % 4 = 0 ∧ s.counterLane l (s.rdPair e l) = .ok (at' l)))
    ∧ ((∀ l ∈ lanes, s.handleOk s.cur.ctx (s.rdPair b l) = true))
    ∧ (((∀ l ∈ lanes, s.coreEnabled (s.rd e l).toNat = true) ∧ s.Ready c ([d, d + 1, a, a + 1] ++ [e]) [d, d + 1] false))
    ∧ (((∀ l ∈ lanes, s.handleOk s.cur.ctx (s.rdPair b l) = true) ∧ s.Ready c ([d, d + 1, a, a + 1] ++ [b, b + 1]) [d, d + 1] false))
    ∧ ((before.isSome = true ∧ s.Ready c ([d, d + 1, a, a + 1] ++ []) [d, d + 1] false ∧ lanes.length ≤ s.freeSlots s.cur.core s.cur.ctx ∧ (∀ k ∈ before, k.recs.map (·.1) = lanes) ∧ (∀ l ∈ lanes, recInvalid (record l) = true → ((record l).getD 7 0).getLsbD 2 = false))) := by
  dsimp only; simp only [ready_iff]; decide +kernel

end Sys2Proof.Tests.Invokes

/-! ## Witnesses: Events of memory accesses. -/

namespace Sys2Proof.Tests.Accesses
open Sys2Proof Sys2Proof.Machine
set_option Elab.async false

/-- An access of one part that has gone nowhere: of a load or an atomic, whose reply is no store. -/
def reads (l pa : Nat) (cp : BitVec 2) (res : Nat) : LaneAcc := { acc l pa cp 5 res with far := 0 }
def ld0 : MemReq := gReq (.load true) 4 0 0 [reads 0 0x3000 0 0, reads 1 0x3010 2 0] [4]
def served1 : MemReq := { ldDone with lanes := ldDone.lanes.map fun x => { x with left := 0, far := 0 } }
def polled : MemReq := { served1 with op := .atom 1 true, pred := some (2, 3) }
/-- The same with sector 0xC0 at the home poisoned, or without grants. -/
def struck (s : State) : State := { s with mem := { s.mem with poison := [0xC0] } }
/-- A store of lane 0 before its caches accept it, and one that its L2 is to take. -/
def st1 : MemReq := stReq 1 [acc 0 0x3000 0 9 0]
def st2 : MemReq := stReq 1 [{ acc 0 0x3000 0 9 0 with left := 0 }]
def near1 : NearStore := ⟨32, 0, 0, 0, 0x3000, [⟨9, none⟩, ⟨0, none⟩, ⟨0, none⟩, ⟨0, none⟩], 8⟩
def landing : State := { cached (mem2 (rq 32 true false (.mem st2))) with mem := { (mem2 (rq 32 true false (.mem st2))).mem with near := [near1], l2 := [⟨0, 0xC0, some 50, sector 7, 0, false, 0⟩] } }
def at0 (ret : Bool) (scope : Nat) : MemReq := { gReq (.atom 1 ret) 4 0 scope [reads 0 0x3000 0 0] (if ret then [4] else []) with lanes := [reads 0 0x3000 0 0] }
def inL2 (ret : Bool) : State := { cached (mem2 (rq 32 true false (.mem (at0 ret 2)))) with mem := { (mem2 (rq 32 true false (.mem (at0 ret 2)))).mem with l2 := [⟨0, 0xC0, some 50, sector 7, 0, false, 4⟩] } }
def sec7 : L2Sector := ⟨0, 0xC0, some 50, sector 7, 0, false, 4⟩
def q0 (k : MemReq) : Req := rq 30 false false (.mem k)
def qc (k : MemReq) : Req := rq 32 true false (.mem k)
def noL : List LaneAcc := []
def u0 : LaneAcc := reads 0 0x3000 0 0
/-- Lane 1 is refused, lane 0 meets an error. -/
def part1 : MemReq := gReq (.atom 1 true) 4 0 0 [reads 0 0x3000 0 0, reads 1 0x4000 0 0] [4]
def half (s : State) : State := { struck s with grants := [⟨none, none, none, 0, 0x4000, true, true⟩] }
/-- An atomic whose result the L2 is to take, one whose result has come back with its notice on its way, and one that met a late error. -/
def atSent (ret : Bool) : MemReq := { at0 ret 2 with lanes := [{ reads 0 0x3000 0 0 with left := 0, far := 1, res := 6 }] }
def noticed (ret : Bool) : State := { landing with reqs := [{ rq 32 true ret (.mem (atSent ret)) with served := ret }] }
def struck1 : Req := { rq 31 true true (.mem served1) with struck := true }

theorem witness_MemoryAccessEvents_1 :
    let s : State := (mem2 (q0 ld0)); let id : Nat := 30; let r : Req := (q0 ld0); let m : MemReq := ld0;
    (s.reqOf id = some r ∧ r.kind = .mem m ∧ r.fault = none ∧ m.space = .global ∧ m.isLoad = true ∧ r.served = false ∧ s.refusedLanes r m = [] ∧ s.loadFailing r m = none) := by
  dsimp only; decide +kernel
theorem witness_MemoryAccessEvents_2 :
    let s : State := (struck (mem2 (q0 ld0))); let id : Nat := 30; let r : Req := (q0 ld0); let m : MemReq := ld0; let x : LaneAcc := u0;
    (s.reqOf id = some r ∧ r.kind = .mem m ∧ r.fault = none ∧ m.space = .global ∧ m.isLoad = true ∧ r.served = false ∧ s.refusedLanes r m = [] ∧ s.loadFailing r m = some x) := by
  dsimp only; decide +kernel
theorem witness_MemoryAccessEvents_3 :
    let s : State := (mem2 (qc st1)); let id : Nat := 32; let r : Req := (qc st1); let m : MemReq := st1; let x : LaneAcc := (acc 0 0x3000 0 9 0); let mask : Mask := 1; let halves : BitVec 2 := 1;
    (s.reqOf id = some r ∧ r.kind = .mem m ∧ r.fault = none ∧ s.mayPerform r m = true ∧ m.isStore = true ∧ m.lanes = [x] ∧ m.sz ∈ [1, 2, 4, 8] ∧ mask.getLsbD x.lane = true ∧ halves.getLsbD 0 = true ∧ x.left = 1 ∧ m.direct x = false ∧ s.blocked r m false x 0 = false ∧ x.far = 1) := by
  dsimp only; decide +kernel
theorem witness_MemoryAccessEvents_4 :
    let s : State := landing; let id : Nat := 32; let r : Req := (qc st2); let m : MemReq := st2; let x : LaneAcc := { acc 0 0x3000 0 9 0 with left := 0 }; let mask : Mask := 1; let halves : BitVec 2 := 1; let e : NearStore := near1;
    let clean : Prop := ∀ z ∈ s.mem.l2, z.dirty = 0
    let full : Prop := ∀ z ∈ s.mem.l2, z.data.length = 64
    (s.reqOf id = some r ∧ r.kind = .mem m ∧ r.fault = none ∧ s.mayPerform r m = true ∧ m.isStore = true ∧ m.lanes = [x] ∧ m.sz ∈ [1, 2, 4, 8] ∧ mask.getLsbD x.lane = true ∧ halves.getLsbD 0 = true ∧ x.left = 0 ∧ x.far = 1 ∧ m.direct x = false ∧ s.mayLand r m false x 0 = true ∧ s.nearOf r x 0 = some e ∧ clean ∧ full ∧ e.pa = x.pa ∧ e.bytes.length = m.sz ∧ x.pa % m.sz = 0) := by
  dsimp only; decide +kernel
theorem witness_MemoryAccessEvents_5 :
    let s : State := (mem2 (qc (stReq 5 (twoLanes 0)))); let id : Nat := 32; let r : Req := (qc (stReq 5 (twoLanes 0))); let m : MemReq := (stReq 5 (twoLanes 0)); let host : Bool := false; let mask : Mask := 3; let halves : BitVec 2 := 3; let u : LaneAcc := u0;
    let clean : Prop := ∀ z ∈ s.mem.l2, z.dirty = 0
    let size : Prop := m.sz ∈ [1, 2, 4, 8, 16]
    (s.reqOf id = some r ∧ r.kind = .mem m ∧ r.fault = none ∧ s.mayPerform r m = true ∧ m.isStore = true ∧ size ∧ clean ∧ halves = 3 ∧ (∀ u ∈ m.lanes, u.left = allParts m.sz ∧ u.far = allParts m.sz ∧ mask.getLsbD u.lane = true ∧ u.pa % m.sz = 0 ∧ (m.scope = 5 ∨ bypasses u.cp u.pa = true) ∧ ∀ h ∈ partsOf m.sz, s.mayLand r m host u h = true ∧ s.nearOf r u h = none)) := by
  dsimp only; decide +kernel
theorem witness_MemoryAccessEvents_6 :
    let s : State := (mem2 (qc (at0 true 0))); let id : Nat := 32; let r : Req := (qc (at0 true 0)); let m : MemReq := (at0 true 0); let x : LaneAcc := u0; let op : BitVec 3 := 1; let ret : Bool := true; let mask : Mask := 1;
    let clean : Prop := ∀ z ∈ s.mem.l2, z.dirty = 0
    (s.reqOf id = some r ∧ r.kind = .mem m ∧ r.fault = none ∧ s.mayPerform r m = true ∧ m.op = .atom op ret ∧ m.lanes = [x] ∧ x.left = 1 ∧ x.far = 0 ∧ mask.getLsbD x.lane = true ∧ s.mayAtomic r m false x 0 = true ∧ atomicInL2 x.cp m.scope x.pa = false ∧ clean) := by
  dsimp only; decide +kernel
theorem witness_MemoryAccessEvents_7 :
    let s : State := (inL2 true); let id : Nat := 32; let r : Req := (qc (at0 true 2)); let m : MemReq := (at0 true 2); let x : LaneAcc := u0; let op : BitVec 3 := 1; let ret : Bool := true; let mask : Mask := 1; let y : L2Sector := sec7;
    let die := r.core / 24
    let full : Prop := ∀ z ∈ s.mem.l2, z.data.length = 64
    (s.reqOf id = some r ∧ r.kind = .mem m ∧ r.fault = none ∧ s.mayPerform r m = true ∧ m.op = .atom op ret ∧ m.lanes = [x] ∧ x.left = 1 ∧ x.far = 0 ∧ mask.getLsbD x.lane = true ∧ s.mayAtomic r m false x 0 = true ∧ atomicInL2 x.cp m.scope x.pa = true ∧ (∀ z ∈ s.mem.l2, z.die ≠ die → z.dirty = 0) ∧ full ∧ s.mem.near = [] ∧ 0 < m.sz ∧ x.pa % 64 + m.sz ≤ 64 ∧ s.mem.l2At die (x.pa / 64) = some y ∧ s.mem.l2Serves die (x.pa / 64) (s.tideOf die) (x.pa % 64) m.sz = true) := by
  dsimp only; decide +kernel
theorem witness_MemoryAccessEvents_8 :
    let s : State := (mem2 (q0 (stReq 1 (twoLanes 0)))); let id : Nat := 30; let r : Req := (q0 (stReq 1 (twoLanes 0))); let m : MemReq := (stReq 1 (twoLanes 0));
    (s.reqOf id = some r ∧ r.kind = .mem m ∧ r.fault = none ∧ m.space = .global ∧ m.isLoad = false ∧ r.checked = false ∧ s.came r = true ∧ s.refusedLanes r m = [] ∧ (m.isStore = true ∨ s.failingLanes r.core m = [])) := by
  dsimp only; decide +kernel
theorem witness_MemoryAccessEvents_9 :
    let s : State := (struck (mem2 (q0 (at0 true 0)))); let id : Nat := 30; let r : Req := (q0 (at0 true 0)); let m : MemReq := (at0 true 0); let x : LaneAcc := u0; let xs : List LaneAcc := noL;
    (s.reqOf id = some r ∧ r.kind = .mem m ∧ r.fault = none ∧ m.space = .global ∧ m.isLoad = false ∧ r.checked = false ∧ s.came r = true ∧ s.refusedLanes r m = [] ∧ m.isStore = false ∧ s.failingLanes r.core m = x :: xs) := by
  dsimp only; decide +kernel
theorem witness_MemoryAccessEvents_10 :
    let s : State := (noGrant (mem2 (q0 (stReq 1 (twoLanes 0))))); let id : Nat := 30; let r : Req := (q0 (stReq 1 (twoLanes 0))); let m : MemReq := (stReq 1 (twoLanes 0)); let u : LaneAcc := (acc 0 0x3000 0 0x11223344 0);
    let bad : List LaneAcc := if m.isStore then [] else s.failingLanes r.core m
    (s.reqOf id = some r ∧ r.kind = .mem m ∧ r.fault = none ∧ m.space = .global ∧ r.served = false ∧ r.checked = false ∧ s.came r = true ∧ (s.refusedLanes r m).head? = some u ∧ (∀ z ∈ bad, u.lane ≤ z.lane)) := by
  dsimp only; decide +kernel
theorem witness_MemoryAccessEvents_11 :
    let s : State := (half (mem2 (q0 part1))); let id : Nat := 30; let r : Req := (q0 part1); let m : MemReq := part1; let x : LaneAcc := u0; let u : LaneAcc := (reads 1 0x4000 0 0);
    let bad : List LaneAcc := if m.isStore then [] else s.failingLanes r.core m
    (s.reqOf id = some r ∧ r.kind = .mem m ∧ r.fault = none ∧ m.space = .global ∧ r.served = false ∧ r.checked = false ∧ s.came r = true ∧ (s.refusedLanes r m).head? = some u ∧ bad.find? (fun z => decide (z.lane < u.lane)) = some x) := by
  dsimp only; decide +kernel
theorem witness_MemoryAccessEvents_12 :
    let s : State := (noticed true); let id : Nat := 32; let r : Req := { rq 32 true true (.mem (atSent true)) with served := true }; let m : MemReq := (atSent true); let d : Reg := 4; let x : LaneAcc := { reads 0 0x3000 0 0 with left := 0, far := 1, res := 6 }; let op : BitVec 3 := 1; let ret : Bool := true; let mask : Mask := 1; let halves : BitVec 2 := 3; let e : NearStore := near1;
    let clean : Prop := ∀ z ∈ s.mem.l2, z.dirty = 0
    let full : Prop := ∀ z ∈ s.mem.l2, z.data.length = 64
    (s.reqOf id = some r ∧ r.kind = .mem m ∧ r.fault = none ∧ s.returned r = true ∧ m.owes = true ∧ s.cur.uid = r.uid ∧ r.hdl = false ∧ m.dests = [d] ∧ m.uni = false ∧ 0 < m.sz)
    ∧ (s.reqOf id = some r ∧ r.kind = .mem m ∧ r.fault = none ∧ m.op = .atom op ret ∧ m.space = .global ∧ m.lanes = [x] ∧ x.left = 0 ∧ x.far = 1 ∧ mask.getLsbD x.lane = true ∧ halves.getLsbD 0 = true ∧ m.direct x = false ∧ s.mayLand r m false x 0 = true ∧ s.nearOf r x 0 = some e ∧ clean ∧ full ∧ e.pa = x.pa ∧ e.bytes.length = m.sz ∧ x.pa % m.sz = 0 ∧ m.sz ∈ [1, 2, 4, 8]) := by
  dsimp only; decide +kernel

end Sys2Proof.Tests.Accesses

/-! ## Witnesses: Events on the memory path. -/

namespace Sys2Proof.Tests.Paths
open Sys2Proof Sys2Proof.Machine
set_option Elab.async false

def statReq : Req := rq 43 true false (.stat [(0x5000, 3)] 0x5000)
def dev1 : MemReq := { relReq with scope := 3 }
/-- The release alone, and at the die behind a store that the caches have accepted. -/
def sysState : State := { relState with reqs := [rq 40 true false (.mem relReq)] }
def devState : State := { relState with reqs := [rq 31 true false (.mem (stReq 1 [{ acc 0 0x3010 0 9 0 with left := 0 }])), rq 40 true false (.mem dev1)] }
/-- Die 0 holds the only sector marked evict-first, in line 0x24. -/
def first : State := { cached mem1 with mem := { (cached mem1).mem with l2 := (cached mem1).mem.l2.map fun z => { z with ef := z.sec == 0x90 } } }
def sec80 : L2Sector := ⟨0, 0x80, some 5, sector 2, 16, false, 0⟩
def sec90 : L2Sector := ⟨0, 0x90, some 6, sector 3, 0, false, 0⟩
def s80 : L1Sector := ⟨0, 0x80, 5, sector 1, 0⟩
def held2 : State := { rolled with cur := { rolled.cur with holds := [⟨3, .queue 30⟩, ⟨4, .jobs 50⟩, ⟨8, .slots 1⟩] } }
def fencedHere : State := { fenced with cur := { fenced.cur with fences := [⟨true, false, 1, 40, false⟩], acqUntil := 7 } }
def p0 : Parts := ⟨43, 0, 0⟩
def noW : List (Nat × Nat) := []

theorem witness_MemoryPathEvents_1 :
    let s : State := (mem2 statReq); let id : Nat := 43; let r : Req := statReq; let words : List (Nat × Nat) := [(0x5000, 3)]; let statp : Nat := 0x5000; let ps : Parts := p0;
    (s.reqOf id = some r ∧ r.kind = .stat words statp ∧ s.came r = true ∧ ps.id = id) := by
  dsimp only; decide +kernel
theorem witness_MemoryPathEvents_2 :
    let s : State := sysState; let id : Nat := 40; let r : Req := (rq 40 true false (.mem relReq)); let m : MemReq := relReq; let w : Warp := relState.cur;
    (s.reqOf id = some r ∧ r.kind = .mem m ∧ s.warpOf r.uid = some w ∧ m.ord.getLsbD 1 = true ∧ r.sent = false ∧ (∀ q ∈ s.reqs, q.uid = r.uid → q.id < r.id → q.checked = true ∧ q.openAt m.scope = false) ∧ (∀ i < m.scope, w.ctime.getD i 0 ≤ s.tideOf (w.core / 24))) := by
  dsimp only; decide +kernel
theorem witness_MemoryPathEvents_3 :
    let s : State := fenced; let core : Nat := 0; let pos : Nat := 0; let line : Nat := 0x20; let die : Nat := 0; let unit : Nat := 0; let sec : Nat := 0x80; let va : DWord := 0x5000; let ctx : BitVec 3 := 0; let x : L1Sector := s80; let y : L2Sector := sec80;
    let now := s.tideOf (core / 24)
    (s.warpAt core pos = some s.cur ∧ s.cur.acqUntil ≤ now)
    ∧ (s.mem.l1At unit sec = some x ∧ x.expiry < s.tideOf (unit / 24))
    ∧ (s.mem.l2At unit sec = some y ∧ y.expiry.any (fun k => decide (k < s.tideOf unit)) = true)
    ∧ (((∀ z ∈ s.mem.l2, z.die = die → z.ef = false) ∨ (∃ z ∈ s.mem.l2, z.die = die ∧ z.ef = true ∧ z.sec / 4 = line)))
    ∧ (s.runs ctx = true ∧ s.tlbHit (192 + core / 24) ctx va.toNat = none ∧ (∃ z ∈ s.cur :: s.others, z.uid ≠ 0 ∧ z.core = core ∧ z.ctx = ctx)) := by
  dsimp only; decide +kernel
theorem witness_MemoryPathEvents_4 :
    let s : State := rolled; let core : Nat := 0; let pos : Nat := 0; let r : Req := failReq; let tr : TrapInfo := failTrap; let saved : Arch := flow.cur.arch;
    (s.warpAt core pos = some s.cur ∧ (s.reqs.find? fun q => q.uid == s.cur.uid && q.fault.isSome) = some r ∧ r.fault = some tr ∧ saved.handler = none ∧ (s.cur.snaps.find? fun p => p.1 == r.id) = some (r.id, saved) ∧ (∀ q ∈ s.reqs, q.uid = r.uid → q.id < r.id → q.checked = true) ∧ s.cur.hdr.traph ≠ 0) := by
  dsimp only; decide +kernel
theorem witness_MemoryPathEvents_5 :
    let s : State := first; let line : Nat := 0x20; let die : Nat := 0;
    ((∃ z ∈ s.mem.l2, z.die = die ∧ z.ef = true) ∧ (∀ z ∈ s.mem.l2, z.die = die → z.ef = true → z.sec / 4 ≠ line)) := by
  dsimp only; decide +kernel
theorem witness_MemoryPathEvents_6 :
    let s : State := walked; let word : Word := 0x84000000;
    (s.mgmtGranted 3 0x10008 4 true = true ∧ word.getLsbD 31 = true ∧ s.mem.tlbic.getLsbD 30 = false ∧ word.getLsbD 26 = true) := by
  dsimp only; decide +kernel
theorem witness_MemoryPathEvents_7 :
    let s : State := invalidating;
    (s.mem.tlbic.getLsbD 30 = true ∧ s.condMet s.mem.tlbKey = true ∧ s.tlbQuiet = true) := by
  dsimp only; decide +kernel

end Sys2Proof.Tests.Paths

/-! ## Witnesses: Events of tasks and handles. -/

namespace Sys2Proof.Tests.Tasks
open Sys2Proof Sys2Proof.Machine
set_option Elab.async false

def slotAt (s : State) (i : Nat) : Slot := (s.slotOf (hOf i)).getD (slot 0 .free)
def park1 : ParkedTask := ⟨0x3000, hOf 1, false, (0, 0)⟩
def park2 : ParkedTask := ⟨0x3040, hOf 2, false, (0, 0)⟩
/-- Another task is parked on the counter that is zero. -/
def parkedToo : State := { tasks1 with tasks := { tasks1.tasks with parked := ⟨0x3040, hOf 1, true, (0, 0)⟩ :: tasks1.tasks.parked } }
def ready3 : ReadyTask := ⟨0, 0, 0, hOf 3, 0x55, 0x66, 9, true, true, (0, 0)⟩
/-- The task of slot 3 waits on core 191 of another die, its release heard of there or not. -/
def ready191 (told : Bool) : ReadyTask := ⟨191, 0, 0, hOf 3, 0x55, 0x66, 9, true, told, (0, 0)⟩
def farTask (told : Bool) : State := { tasks1 with tasks := { tasks1.tasks with ready := [ready191 told] } }
/-- The Tidemarks of all dies stand at 9. -/
def at9 (s : State) : State := { s with tide := List.replicate 13 9 }
/-- Its header is reserved, or fails to be read. -/
def badHeader : State := { tasks1 with mem := { tasks1.mem with home := writeBytes tasks1.mem.home 0x30000 (List.replicate 64 0xFF) } }
def noHeader : State := { tasks1 with mem := { tasks1.mem with poison := [0x30000 / 64] } }
/-- A decrement of core 5 has been made at the slice in this cycle; a decrement of a broken task is still to be made. -/
def laterCore : State := { tasks1 with tasks := { tasks1.tasks with decSeen := [(sliceOf 0x3000, 5)] } }
def late1 (due : Option (Nat × Nat)) : LateDec := ⟨hOf 20, 0, 0x3000, false, 0, due⟩
def lateDec (due : Option (Nat × Nat)) : State := { tasks1 with tasks := { tasks1.tasks with late := [late1 due] } }
def withReq (r : Req) : State := { tasks1 with reqs := [r] }
def pollOk : Req := msgReq 20 (.hpoll [(0, hOf 13), (1, hOf 4)] 1)
def pollBad : Req := msgReq 21 (.hpoll [(2, 0)] 1)
def drop4 : Req := msgReq 22 (.hdrop [(0, hOf 4)])
def drop13 : Req := msgReq 22 (.hdrop [(0, hOf 13)])
def dropBad : Req := msgReq 22 (.hdrop [(0, 0)])
def chain9 : Req := msgReq 25 (.chain [(0, hOf 4, hOf 9)])
def chainBad : Req := msgReq 25 (.chain [(0, 0, hOf 9)])
def wait8 : Req := awaitReq 23 1 8 false
def wait13 : Req := awaitReq 24 3 13 true
/-- The chained task broke at its issue. -/
def badRec (r : Req) : State := { withReq r with tasks := { tasks1.tasks with slots := tasks1.tasks.slots.map fun x => if x.idx = 9 then { x with state := .broken, brk := some 7 } else x } }
def trap11 : Req := { awaitReq 23 1 11 false with kind := .await [(1, hOf 11)] 4 1 true }
def noR : List Req := []
def noH : List (Nat × DWord) := []
def r0 : Req := wait8
/-- A request whose lanes have their answers, or part of them, stands between others. -/
def asked (r : Req) : Req := { r with checked := true }
def heldAsk : State := { tasks1 with reqs := [msgReq 20 (.hpoll [(0, hOf 13), (1, hOf 4)] 1), asked wait8] }

theorem witness_TaskEventResults_1 :
    let s : State := tasks1; let handle : DWord := (hOf 1); let y : Slot := (slotAt tasks1 1); let p : ParkedTask := park1;
    let clean : Prop := ∀ y ∈ s.mem.l2, y.dirty = 0
    (s.tasks.parked.find? (fun q => q.handle == handle && !q.arrived) = some p ∧ clean ∧ s.pchBusy p.pa = false ∧ p.due.2 ≤ s.tideOf p.due.1) := by
  dsimp only; decide +kernel
theorem witness_TaskEventResults_2 :
    let s : State := tasks1; let x : Slot := (slotAt tasks1 3); let y : Slot := (slotAt tasks1 1); let core : Nat := 0; let n : Nat := 0; let pa : Nat := 0x30000; let pos : Nat := 8; let rt : ReadyTask := ready3;
    let clean : Prop := ∀ y ∈ s.mem.l2, y.dirty = 0
    let head := headerOf (readBytes s.mem.home pa 128)
    (((List.range 8).find? fun k => s.runsOn (core / 24) (BitVec.ofNat 3 k)) = some n ∧ s.ctl.down.contains (core / 24) = false ∧ s.readyHead core (BitVec.ofNat 3 n) = some rt ∧ s.slotOf rt.handle = some x ∧ x.state = .pending ∧ x.gen = handleGen rt.handle ∧ s.condMet x.cond = true ∧ (x.core = core ∨ (s.lowestSlot core (BitVec.ofNat 3 n)).isSome = true) ∧ (x.core / 24 = core / 24 ∨ rt.told = true) ∧ (rt.told = true → rt.due.2 ≤ s.tideOf rt.due.1) ∧ clean ∧ s.headerPlace core (BitVec.ofNat 3 n) (s.descOf n 1 + 128 * recLhidx x.words) = .ok pa ∧ head.validTask n = true ∧ s.fits core head 1 = some [pos]) := by
  dsimp only; decide +kernel
theorem witness_TaskEventResults_3 :
    let s : State := (farTask false); let x : Slot := (slotAt tasks1 3); let core : Nat := 191; let n : Nat := 0; let rt : ReadyTask := (ready191 false);
    (((List.range 8).find? fun k => s.runsOn (core / 24) (BitVec.ofNat 3 k)) = some n ∧ s.ctl.down.contains (core / 24) = false ∧ s.readyHead core (BitVec.ofNat 3 n) = some rt ∧ s.slotOf rt.handle = some x ∧ x.state = .pending ∧ x.gen = handleGen rt.handle ∧ s.condMet x.cond = true ∧ (x.core = core ∨ (s.lowestSlot core (BitVec.ofNat 3 n)).isSome = true) ∧ x.core / 24 ≠ core / 24 ∧ rt.told = false) := by
  dsimp only; decide +kernel
theorem witness_TaskEventResults_4 :
    let s : State := badHeader; let x : Slot := (slotAt tasks1 3); let y : Slot := (slotAt tasks1 1); let core : Nat := 0; let n : Nat := 0; let pa : Nat := 0x30000; let rt : ReadyTask := ready3;
    let clean : Prop := ∀ y ∈ s.mem.l2, y.dirty = 0
    let head := headerOf (readBytes s.mem.home pa 128)
    (((List.range 8).find? fun k => s.runsOn (core / 24) (BitVec.ofNat 3 k)) = some n ∧ s.ctl.down.contains (core / 24) = false ∧ s.readyHead core (BitVec.ofNat 3 n) = some rt ∧ s.slotOf rt.handle = some x ∧ x.state = .pending ∧ x.gen = handleGen rt.handle ∧ s.condMet x.cond = true ∧ (x.core = core ∨ (s.lowestSlot core (BitVec.ofNat 3 n)).isSome = true) ∧ (x.core / 24 = core / 24 ∨ rt.told = true) ∧ (rt.told = true → rt.due.2 ≤ s.tideOf rt.due.1) ∧ x.home = true ∧ x.dropped = false ∧ x.brk = none ∧ clean ∧ s.headerPlace core (BitVec.ofNat 3 n) (s.descOf n 1 + 128 * recLhidx x.words) = .ok pa ∧ head.validTask n = false) := by
  dsimp only; decide +kernel
theorem witness_TaskEventResults_5 :
    let s : State := noHeader; let x : Slot := (slotAt tasks1 3); let core : Nat := 0; let n : Nat := 0; let rt : ReadyTask := ready3;
    (((List.range 8).find? fun k => s.runsOn (core / 24) (BitVec.ofNat 3 k)) = some n ∧ s.ctl.down.contains (core / 24) = false ∧ s.readyHead core (BitVec.ofNat 3 n) = some rt ∧ s.slotOf rt.handle = some x ∧ x.state = .pending ∧ x.gen = handleGen rt.handle ∧ s.condMet x.cond = true ∧ (x.core = core ∨ (s.lowestSlot core (BitVec.ofNat 3 n)).isSome = true) ∧ (x.core / 24 = core / 24 ∨ rt.told = true) ∧ (rt.told = true → rt.due.2 ≤ s.tideOf rt.due.1) ∧ x.home = true ∧ x.dropped = false ∧ x.brk = none ∧ s.headerPlace core (BitVec.ofNat 3 n) (s.descOf n 1 + 128 * recLhidx x.words) = .error none) := by
  dsimp only; decide +kernel
theorem witness_TaskEventResults_6 :
    let s : State := tasks1; let handle : DWord := (hOf 5); let x : Slot := (slotAt tasks1 5);
    (s.slotOf handle = some x ∧ x.gen = handleGen handle ∧ x.state = .running ∧ (x.value.isSome = true ∨ x.brk.isSome = true) ∧ s.condMet x.cond = true ∧ (∀ w ∈ s.warps, w.task = some handle → w.hasExited = true → w.owesValue = false) ∧ x.dropped = true ∧ recDecs x.words = [] ∧ x.chain = [] ∧ s.awaited handle = false ∧ x.forward = none) := by
  dsimp only; decide +kernel
theorem witness_TaskEventResults_7 :
    let s : State := (at9 tasks1); let handle : DWord := (hOf 6); let x : Slot := (slotAt tasks1 6); let y : Slot := (slotAt tasks1 1); let pa : Nat := 0x3000; let second : Bool := false; let e : DWord := 0x3B;
    let clean : Prop := ∀ y ∈ s.mem.l2, y.dirty = 0
    let src := x.exec.getD x.core
    let va := x.words.getD (if second then 4 else 3) 0
    let reaches (core : Nat) (va : DWord) : Prop := s.xlate core (handleCtx handle) va.toNat = .ok pa e ∧ leafRead e = true ∧ leafWrite e = true
      ∧ s.grantedAll (handleCtx handle).toNat 0 pa 4 false = true ∧ s.grantedAll (handleCtx handle).toNat 0 pa 4 true = true ∧ s.pchBusy pa = false ∧ s.mem.poisoned pa 4 = false ∧ clean
    let inTurn (core : Nat) : Prop := ∀ q ∈ s.tasks.decSeen, q.1 = sliceOf pa → q.2 ≤ core
    (s.slotOf handle = some x ∧ x.gen = handleGen handle ∧ x.home = true ∧ x.state = .settling ∧ x.decs.contains (second, false) = true ∧ (second = true → x.decs.contains (false, false) = false) ∧ x.time + 8 ≤ s.tideOf (src / 24) ∧ reaches src va ∧ inTurn src) := by
  dsimp only; decide +kernel
theorem witness_TaskEventResults_8 :
    let s : State := (at9 laterCore); let handle : DWord := (hOf 6); let x : Slot := (slotAt tasks1 6); let y : Slot := (slotAt tasks1 1); let pa : Nat := 0x3000; let second : Bool := false; let e : DWord := 0x3B;
    let clean : Prop := ∀ y ∈ s.mem.l2, y.dirty = 0
    let src := x.exec.getD x.core
    let va := x.words.getD (if second then 4 else 3) 0
    let reaches (core : Nat) (va : DWord) : Prop := s.xlate core (handleCtx handle) va.toNat = .ok pa e ∧ leafRead e = true ∧ leafWrite e = true
      ∧ s.grantedAll (handleCtx handle).toNat 0 pa 4 false = true ∧ s.grantedAll (handleCtx handle).toNat 0 pa 4 true = true ∧ s.pchBusy pa = false ∧ s.mem.poisoned pa 4 = false ∧ clean
    let inTurn (core : Nat) : Prop := ∀ q ∈ s.tasks.decSeen, q.1 = sliceOf pa → q.2 ≤ core
    (s.slotOf handle = some x ∧ x.gen = handleGen handle ∧ x.home = true ∧ x.state = .settling ∧ x.decs.contains (second, false) = true ∧ (second = true → x.decs.contains (false, false) = false) ∧ x.time + 8 ≤ s.tideOf (src / 24) ∧ reaches src va ∧ ¬inTurn src) := by
  dsimp only; decide +kernel
theorem witness_TaskEventResults_9 :
    let s : State := tasks1; let handle : DWord := (hOf 7); let x : Slot := (slotAt tasks1 7);
    (s.slotOf handle = some x ∧ x.gen = handleGen handle ∧ x.state = .settling ∧ (∀ k ∈ x.decs, k.2 = true) ∧ x.due.2 ≤ s.tideOf x.due.1 ∧ x.dropped = false) := by
  dsimp only; decide +kernel
theorem witness_TaskEventResults_10 :
    let s : State := tasks1; let handle : DWord := (hOf 11); let x : Slot := (slotAt tasks1 11); let y : Slot := (slotAt tasks1 12); let v : DWord := 0x0200000000000000; let broken : Bool := false;
    let src := x.exec.getD x.core
    let final : Prop := x.time + (if src / 24 = x.core / 24 then 0 else 8) ≤ s.tideOf (src / 24)
    (s.slotOf handle = some x ∧ x.gen = handleGen handle ∧ x.dropped = false ∧ x.state = .broken ∧ final ∧ x.brk = some v)
    ∧ ((let h := x.chain.headD 0; s.slotOf handle = some x ∧ x.dropped = false ∧ x.state = .broken ∧ x.brk = some v ∧ x.chain = [h] ∧ s.slotOf h = some y ∧ y.state = .pending ∧ y.dropped = false ∧ y.home = true ∧ y.gen = handleGen h ∧ y.brk = none)) := by
  dsimp only; decide +kernel
theorem witness_TaskEventResults_11 :
    let s : State := (lateDec none); let handle : DWord := (hOf 20); let x : Slot := (slotAt tasks1 11); let second : Bool := false; let ld : LateDec := (late1 none);
    ((s.liveSlot handle).filter (fun x => x.state == .settling) = none ∧ s.tasks.late.find? (fun q => q.handle == handle && q.second == second) = some ld ∧ ld.due = none ∧ s.condMet ld.cond = true) := by
  dsimp only; decide +kernel
theorem witness_TaskEventResults_12 :
    let s : State := (withReq pollOk); let id : Nat := 20; let r : Req := pollOk; let hs : List (Nat × DWord) := [(0, hOf 13), (1, hOf 4)]; let pr : PReg := 1;
    (s.reqOf id = some r ∧ r.checked = false ∧ r.fault = none ∧ (s.came r = true ∨ ∀ h ∈ r.handles, handleCore h / 24 = r.core / 24) ∧ r.kind = .hpoll hs pr ∧ pr ≠ 7 ∧ r.uid = s.cur.uid ∧ (∀ z ∈ hs, s.handleOk r.ctx z.2 = true)) := by
  dsimp only; decide +kernel
theorem witness_TaskEventResults_13 :
    let s : State := (withReq pollBad); let id : Nat := 21; let l : Nat := 2; let r : Req := pollBad; let hs : List (Nat × DWord) := [(2, 0)]; let pr : PReg := 1; let v : DWord := 0;
    (s.reqOf id = some r ∧ r.checked = false ∧ r.fault = none ∧ (s.came r = true ∨ ∀ h ∈ r.handles, handleCore h / 24 = r.core / 24) ∧ r.kind = .hpoll hs pr ∧ hs.find? (fun z => !s.handleOk r.ctx z.2) = some (l, v)) := by
  dsimp only; decide +kernel
theorem witness_TaskEventResults_14 :
    let s : State := (withReq drop4); let handle : DWord := (hOf 4); let x : Slot := (slotAt tasks1 4); let id : Nat := 22; let l : Nat := 0; let r : Req := drop4;
    (s.slotOf handle = some x ∧ x.gen = handleGen handle ∧ x.state = .running ∧ (x.value.isSome = true ∨ x.brk.isSome = true) ∧ s.condMet x.cond = true ∧ (∀ w ∈ s.warps, w.task = some handle → w.hasExited = true → w.owesValue = false) ∧ x.dropped = false)
    ∧ (s.reqOf id = some r ∧ r.checked = false ∧ r.fault = none ∧ (s.came r = true ∨ ∀ h ∈ r.handles, handleCore h / 24 = r.core / 24) ∧ r.kind = .hdrop [(l, handle)] ∧ s.handleOk r.ctx handle = true ∧ s.slotOf handle = some x ∧ x.state.final = false) := by
  dsimp only; decide +kernel
theorem witness_TaskEventResults_15 :
    let s : State := (withReq drop13); let handle : DWord := (hOf 13); let x : Slot := (slotAt tasks1 13); let id : Nat := 22; let l : Nat := 0; let r : Req := drop13;
    let src := x.exec.getD x.core
    let final : Prop := x.time + (if src / 24 = x.core / 24 then 0 else 8) ≤ s.tideOf (src / 24)
    (s.slotOf handle = some x ∧ x.gen = handleGen handle ∧ x.dropped = false ∧ x.state = .resolved ∧ final)
    ∧ (s.reqOf id = some r ∧ r.checked = false ∧ r.fault = none ∧ (s.came r = true ∨ ∀ h ∈ r.handles, handleCore h / 24 = r.core / 24) ∧ r.kind = .hdrop [(l, handle)] ∧ s.handleOk r.ctx handle = true ∧ s.slotOf handle = some x ∧ x.state.final = true ∧ x.chain = [] ∧ s.awaited handle = false ∧ x.forward = none) := by
  dsimp only; decide +kernel
theorem witness_TaskEventResults_16 :
    let s : State := (withReq dropBad); let handle : DWord := 0; let id : Nat := 22; let l : Nat := 0; let r : Req := dropBad;
    (s.reqOf id = some r ∧ r.checked = false ∧ r.fault = none ∧ (s.came r = true ∨ ∀ h ∈ r.handles, handleCore h / 24 = r.core / 24) ∧ r.kind = .hdrop [(l, handle)] ∧ s.handleOk r.ctx handle = false) := by
  dsimp only; decide +kernel
theorem witness_TaskEventResults_17 :
    let s : State := (withReq chain9); let handle : DWord := (hOf 9); let up : DWord := (hOf 4); let x : Slot := (slotAt tasks1 4); let y : Slot := (slotAt tasks1 9); let id : Nat := 25; let l : Nat := 0; let r : Req := chain9;
    (s.reqOf id = some r ∧ r.checked = false ∧ r.fault = none ∧ (s.came r = true ∨ ∀ h ∈ r.handles, handleCore h / 24 = r.core / 24) ∧ r.kind = .chain [(l, up, handle)] ∧ s.slotOf handle = some y ∧ s.handleOk r.ctx up = true ∧ s.slotOf up = some x ∧ y.home = true ∧ y.gen = handleGen handle ∧ y.state = .pending) := by
  dsimp only; decide +kernel
theorem witness_TaskEventResults_18 :
    let s : State := (badRec chain9); let handle : DWord := (hOf 9); let up : DWord := (hOf 4); let x : Slot := (slotAt tasks1 4); let y : Slot := (slotAt (badRec chain9) 9); let id : Nat := 25; let l : Nat := 0; let r : Req := chain9; let broken : Bool := false;
    (s.reqOf id = some r ∧ r.checked = false ∧ r.fault = none ∧ (s.came r = true ∨ ∀ h ∈ r.handles, handleCore h / 24 = r.core / 24) ∧ r.kind = .chain [(l, up, handle)] ∧ s.slotOf handle = some y ∧ s.handleOk r.ctx up = true ∧ s.slotOf up = some x ∧ y.home = true ∧ y.gen = handleGen handle ∧ y.state = .broken ∧ y.dropped = false) := by
  dsimp only; decide +kernel
theorem witness_TaskEventResults_19 :
    let s : State := (withReq chainBad); let handle : DWord := (hOf 9); let up : DWord := 0; let y : Slot := (slotAt tasks1 9); let id : Nat := 25; let l : Nat := 0; let r : Req := chainBad;
    (s.reqOf id = some r ∧ r.checked = false ∧ r.fault = none ∧ (s.came r = true ∨ ∀ h ∈ r.handles, handleCore h / 24 = r.core / 24) ∧ r.kind = .chain [(l, up, handle)] ∧ s.slotOf handle = some y ∧ s.handleOk r.ctx up = false) := by
  dsimp only; decide +kernel
theorem witness_TaskEventResults_20 :
    let s : State := (withReq wait8); let handle : DWord := (hOf 8); let id : Nat := 23; let l : Nat := 1; let r : Req := wait8; let pr : PReg := 1; let d : Reg := 4; let v : DWord := 0x1234; let broken : Bool := false; let trapping : Bool := false;
    let waits : Prop := l < 128 ∧ pr ≠ 7 ∧ s.cur.uid = r.uid ∧ r.uid ≠ 0 ∧ r.hdl = false ∧ s.cur.arch.handler = none
      ∧ (s.cur.lane l).st = .awaiting r.id ∧ r.kind = .await [(l, handle)] d pr trapping ∧ s.answer (r.core / 24) handle = some (v, broken)
      ∧ s.frozen r.uid = false
    (s.reqOf id = some r ∧ r.checked = false ∧ r.fault = none ∧ (s.came r = true ∨ ∀ h ∈ r.handles, handleCore h / 24 = r.core / 24) ∧ waits ∧ s.handleOk r.ctx handle = true ∧ (trapping && broken) = false) := by
  dsimp only; decide +kernel
theorem witness_TaskEventResults_21 :
    let s : State := (withReq trap11); let handle : DWord := (hOf 11); let id : Nat := 23; let l : Nat := 1; let r : Req := trap11; let pr : PReg := 1; let d : Reg := 4; let v : DWord := 0x0200000000000000; let broken : Bool := true; let trapping : Bool := true;
    let waits : Prop := l < 128 ∧ pr ≠ 7 ∧ s.cur.uid = r.uid ∧ r.uid ≠ 0 ∧ r.hdl = false ∧ s.cur.arch.handler = none
      ∧ (s.cur.lane l).st = .awaiting r.id ∧ r.kind = .await [(l, handle)] d pr trapping ∧ s.answer (r.core / 24) handle = some (v, broken)
      ∧ s.frozen r.uid = false
    (s.reqOf id = some r ∧ r.checked = false ∧ r.fault = none ∧ (s.came r = true ∨ ∀ h ∈ r.handles, handleCore h / 24 = r.core / 24) ∧ waits ∧ s.handleOk r.ctx handle = true ∧ trapping = true ∧ broken = true ∧ s.cur.hdr.traph ≠ 0 ∧ (∀ q ∈ s.reqs, q.uid = r.uid → q.id ≠ id → q.checked = true)) := by
  dsimp only; decide +kernel
theorem witness_TaskEventResults_22 :
    let s : State := (withReq wait13); let handle : DWord := (hOf 13); let p : ParkedTask := park1; let l : Nat := 3; let r : Req := wait13; let hs : List (Nat × DWord) := noH; let pr : PReg := 1; let d : Reg := 4; let v : DWord := 0xABC; let broken : Bool := false; let trapping : Bool := false; let pre : List Req := noR; let post : List Req := noR;
    let waits : Prop := l < 128 ∧ pr ≠ 7 ∧ s.cur.uid = r.uid ∧ r.uid ≠ 0 ∧ r.hdl = false ∧ s.cur.arch.handler = none
      ∧ (s.cur.lane l).st = .awaiting r.id ∧ r.kind = .await [(l, handle)] d pr trapping ∧ s.answer (r.core / 24) handle = some (v, broken)
      ∧ s.frozen r.uid = false
    (s.reqs = pre ++ r :: post ∧ r.checked = true ∧ s.frozen r.uid = false ∧ waits ∧ (trapping && broken) = false ∧ (∀ q ∈ pre ++ post, q.id ≠ r.id ∧ ∀ hs d p t, q.kind = .await hs d p t → ∀ z ∈ hs, z.2 ≠ handle)) := by
  dsimp only; simp only [all_awaits]; decide +kernel

end Sys2Proof.Tests.Tasks

/-! ## Witnesses: Events of the copy engines. -/

namespace Sys2Proof.Tests.Copies
open Sys2Proof Sys2Proof.Machine
set_option Elab.async false

/-- The warp has exited, or the queue is paused. -/
def exitedWith (e : CopyEntry) : State := setLanes (copies [e] []) fun _ x => { x with st := .exited }
def paused1 (e : CopyEntry) : State := { copies [e] (recOf 1 0) with copy := { (copies [e] []).copy with queues := [⟨0, false, 0, true, true, 0, 0⟩] } }
/-- An entry that waits to begin; its record names a place that no page holds, or a peer part while the ports are down. -/
def wait1 : CopyEntry := taken .waiting []
def farRec : List Byte := bytesLE 8 0x90000000000000 ++ (recOf 1 0).drop 8
def far1 : State := copies [wait1] farRec
def wide1 : CopyEntry := { wait1 with wide := true }
def down1 : State := { copies [wide1] (recOf 1 4) with boot := { bound0.boot with portsUp := false } }
def faultPhase : CopyPhase → Bool
  | .faulted _ _ _ => true
  | _ => false
theorem some_fault {p : CopyPhase} : (∃ i a d, p = .faulted i a d) ↔ faultPhase p = true := by
  cases p <;> simp [faultPhase]
/-- The Tidemarks of all dies stand at 20. -/
def at20 (s : State) : State := { s with tide := List.replicate 13 20 }
/-- Two queues, an entry that has moved and one whose writes are still to perform. -/
def late1 : CopyEntry := { moved1 none with time := 90 }
def rankP : XredRank := { rank1 (some [1, 2]) 0 10 with away := [1] }
/-- A join of queue 0 alone. -/
def join0 : JoinRec := { join1 with queues := [0] }
def marker0 : CopyEntry := { entry0 with id := 61, q := 0, acc := 5, kind := .marker 60 }
def markers0 : State := { copies [marker0] [] with copy := { (copies [marker0] []).copy with joins := [join0] } }
def joinEarly : State := { copies [{ moved1 none with acc := 3, id := 63 }] [] with copy := { (copies [{ moved1 none with acc := 3, id := 63 }] []).copy with joins := [join1] } }
def fullWindow : State := messages (msg1 true false) ((List.range 1024).map fun i => (9, i))
def peerDown : State := { bound0 with boot := { bound0.boot with portsUp := false } }
def noEst : State := { regs with grants := [] }
def w0 : RedWindow := window1 []
def m0 : RedMsg := msg1 true false
def mA : RedMsg := msg1 false true
def r10 : XredRank := rank1 (some [1, 2]) 0 10
def noB : List Byte := []
def noX : List Nat := []
def noP : List PeerRank := []
def rA : XredRank := rank1 none 0 10
/-- A valid record of DIR 4, and an entry whose column the bank unit holds. -/
def away4 : State := copies [wide1] (recOf 1 4)
def ranBank (s : State) : State := { s with cards := [{ card0 with acc := 8, phase := .run, card := List.replicate 26 0 ++ [0x80] ++ List.replicate 37 0, pch := pchOf 0x3000 }] }
/-- The peer's answer to elements 0 and 2 is awaited, in each phase of the entry. -/
def sentIn (ph : CopyPhase) : State := { copies [taken ph (recOf 1 4)] [] with copy := { (copies [taken ph (recOf 1 4)] []).copy with
  peers := [⟨10, 0, 3, 0, [(0, 0x3000, [1]), (2, 0x3008, [1])]⟩] } }
def rankAway : XredRank := { rank1 none 0 10 with away := [1] }
def awayRanks (x : XredRank) : State := { copies [sending 0] [] with copy := { (copies [sending 0] []).copy with ranks := [x] } }
def ps3 : List PeerRank := [⟨1, 3, [1, 2]⟩]

theorem witness_CopyEngineEvents_1 :
    let s : State := (copies [entry1] (recOf 1 0)); let id : Nat := 10; let e : CopyEntry := entry1;
    (s.entryOf id = some e ∧ e.acc = 0 ∧ (∃ y, s.warpOf e.uid = some y ∧ y.hasExited = false) ∧ s.ctl.down.contains (e.q / 64) = false ∧ (s.queueRec e.q).paused = false ∧ s.depth e.q < 64 ∧ e.time ≤ s.tideOf (e.core / 24) ∧ (∀ z ∈ s.copy.entries, z.ins = e.ins → z.id < id → z.acc ≠ 0)) := by
  dsimp only; simp only [exists_opt]; decide +kernel
theorem witness_CopyEngineEvents_2 :
    let s : State := (paused1 entry1); let id : Nat := 10; let q : Nat := 0; let e : CopyEntry := entry1;
    let qctl (ok : Bool) : Prop := q < 512 ∧ s.mgmtGranted 3 (0x20000 + 16 * q) 4 true = ok
    (s.entryOf id = some e ∧ e.acc = 0 ∧ (∃ y, s.warpOf e.uid = some y ∧ y.hasExited = false) ∧ ((s.queueRec e.q).paused = true ∨ 64 ≤ s.depth e.q))
    ∧ (s.entryOf id = some e ∧ ((s.queueRec e.q).flt = true ∨ (s.queueRec e.q).paused = true))
    ∧ (qctl true ∧ s.depth q = 0) := by
  dsimp only; simp only [exists_opt]; decide +kernel
theorem witness_CopyEngineEvents_3 :
    let s : State := (exitedWith entry1); let id : Nat := 10; let e : CopyEntry := entry1;
    (s.entryOf id = some e ∧ e.acc = 0 ∧ (∃ y, s.warpOf e.uid = some y ∧ y.hasExited = true)) := by
  dsimp only; simp only [exists_opt]; decide +kernel
theorem witness_CopyEngineEvents_4 :
    let s : State := good; let id : Nat := 10; let units : Nat := 4; let e : CopyEntry := wait1; let rec128 : List Byte := (readOf good wait1).1; let s1 : State := (readOf good wait1).2;
    let ready : Prop := (s.queueRec e.q).flt = false ∧ (s.queueRec e.q).paused = false ∧ s.ctl.down.contains (e.q / 64) = false ∧ s.leavingQueue e.q = false
    let due : Prop := e.acc ≠ 0 ∧ e.phase = .waiting ∧ s.headOf e = true ∧ e.cond = none ∧ ready
    let alone : Prop := (∀ z ∈ s.copy.msgs, z.id ≠ id) ∧ (∀ z ∈ s.copy.peers, z.id ≠ id)
    let L := layoutOf rec128
    let e2 := { e with rec' := rec128, seq := (s.queueRec e.q).seq }
    let moved := Mover.run ⟨s1.mapEntry id fun _ => e2, .zero, e.time, [], [], e.cols⟩ e2 L (fun _ => false) (min units L.count) e.next
    (s.entryOf id = some e ∧ due ∧ e.kind = .copy ∧ e.rec' = [] ∧ e.time ≤ s.tideOf (e.q / 64) ∧ alone ∧ s.engRead e e.addr.toNat 128 = .ok (rec128, s1) ∧ e.status = 0 ∧ L.offence rec128 (s.copyOperands e) = none ∧ L.dir ≠ 4 ∧ moved.1.2 = none) := by
  dsimp only; simp only [ok_iff]; decide +kernel
theorem witness_CopyEngineEvents_5 :
    let s : State := bad; let id : Nat := 10; let e : CopyEntry := wait1; let rec128 : List Byte := (readOf bad wait1).1; let s1 : State := (readOf bad wait1).2; let off : Nat := 0x1C;
    let ready : Prop := (s.queueRec e.q).flt = false ∧ (s.queueRec e.q).paused = false ∧ s.ctl.down.contains (e.q / 64) = false ∧ s.leavingQueue e.q = false
    let due : Prop := e.acc ≠ 0 ∧ e.phase = .waiting ∧ s.headOf e = true ∧ e.cond = none ∧ ready
    let alone : Prop := (∀ z ∈ s.copy.msgs, z.id ≠ id) ∧ (∀ z ∈ s.copy.peers, z.id ≠ id)
    let L := layoutOf rec128
    (s.entryOf id = some e ∧ due ∧ e.kind = .copy ∧ e.rec' = [] ∧ e.time ≤ s.tideOf (e.q / 64) ∧ alone ∧ s.engRead e e.addr.toNat 128 = .ok (rec128, s1) ∧ e.status = 0 ∧ L.offence rec128 (s.copyOperands e) = some off) := by
  dsimp only; simp only [ok_iff]; decide +kernel
theorem witness_CopyEngineEvents_6 :
    let s : State := far1; let id : Nat := 10; let n : Nat := 0; let units : Nat := 4; let e : CopyEntry := wait1; let rec128 : List Byte := (readOf far1 wait1).1; let s1 : State := (readOf far1 wait1).2; let va : DWord := 0x90000000000000; let code : Nat := 1;
    let ready : Prop := (s.queueRec e.q).flt = false ∧ (s.queueRec e.q).paused = false ∧ s.ctl.down.contains (e.q / 64) = false ∧ s.leavingQueue e.q = false
    let due : Prop := e.acc ≠ 0 ∧ e.phase = .waiting ∧ s.headOf e = true ∧ e.cond = none ∧ ready
    let alone : Prop := (∀ z ∈ s.copy.msgs, z.id ≠ id) ∧ (∀ z ∈ s.copy.peers, z.id ≠ id)
    let L := layoutOf rec128
    let e2 := { e with rec' := rec128, seq := (s.queueRec e.q).seq }
    let moved := Mover.run ⟨s1.mapEntry id fun _ => e2, .zero, e.time, [], [], e.cols⟩ e2 L (fun _ => false) (min units L.count) e.next
    (s.entryOf id = some e ∧ due ∧ e.kind = .copy ∧ e.rec' = [] ∧ e.time ≤ s.tideOf (e.q / 64) ∧ alone ∧ s.engRead e e.addr.toNat 128 = .ok (rec128, s1) ∧ e.status = 0 ∧ L.offence rec128 (s.copyOperands e) = none ∧ L.dir ≠ 4 ∧ moved.1.2 = some (n, .fault va.toNat code)) := by
  dsimp only; simp only [ok_iff]; decide +kernel
theorem witness_CopyEngineEvents_7 :
    let s : State := down1; let id : Nat := 10; let e : CopyEntry := wide1; let rec128 : List Byte := (readOf down1 wide1).1; let s1 : State := (readOf down1 wide1).2;
    let ready : Prop := (s.queueRec e.q).flt = false ∧ (s.queueRec e.q).paused = false ∧ s.ctl.down.contains (e.q / 64) = false ∧ s.leavingQueue e.q = false
    let due : Prop := e.acc ≠ 0 ∧ e.phase = .waiting ∧ s.headOf e = true ∧ e.cond = none ∧ ready
    let alone : Prop := (∀ z ∈ s.copy.msgs, z.id ≠ id) ∧ (∀ z ∈ s.copy.peers, z.id ≠ id)
    let L := layoutOf rec128
    (s.entryOf id = some e ∧ due ∧ e.kind = .copy ∧ e.rec' = [] ∧ e.time ≤ s.tideOf (e.q / 64) ∧ alone ∧ s.engRead e e.addr.toNat 128 = .ok (rec128, s1) ∧ e.status = 0 ∧ L.offence rec128 (s.copyOperands e) = none ∧ L.dir = 4 ∧ s.boot.portsUp = false)
    ∧ (s.boot.portsUp = false) := by
  dsimp only; simp only [ok_iff]; decide +kernel
theorem witness_CopyEngineEvents_8 :
    let s : State := (at20 (copies [moved1 none] [])); let id : Nat := 10; let e : CopyEntry := (moved1 none);
    let alone : Prop := (∀ z ∈ s.copy.msgs, z.id ≠ id) ∧ (∀ z ∈ s.copy.peers, z.id ≠ id)
    let focused (uid : Nat) (hdl : Bool) : Prop := uid = s.cur.uid ∧ s.frozen uid = false ∧ s.cur.hasExited = false ∧ hdl = false
    (s.entryOf id = some e ∧ e.phase = .moved ∧ s.headOf e = true ∧ s.entryPerformed e = true ∧ e.statp = 0 ∧ e.cond = none ∧ focused e.uid e.hdl ∧ e.lane < 128 ∧ alone) := by
  dsimp only; decide +kernel
theorem witness_CopyEngineEvents_9 :
    let s : State := (copies [late1] []); let id : Nat := 10; let e : CopyEntry := late1;
    (s.entryOf id = some e ∧ e.phase = .moved ∧ s.entryPerformed e = false) := by
  dsimp only; decide +kernel
theorem witness_CopyEngineEvents_10 :
    let s : State := (ranked 2 [r10]); let id : Nat := 10; let e : CopyEntry := (sending 2); let k : XredRank := r10; let xs : List Nat := [1, 2];
    let ready : Prop := (s.queueRec e.q).flt = false ∧ (s.queueRec e.q).paused = false ∧ s.ctl.down.contains (e.q / 64) = false ∧ s.leavingQueue e.q = false
    let alone : Prop := (∀ z ∈ s.copy.msgs, z.id ≠ id) ∧ (∀ z ∈ s.copy.peers, z.id ≠ id)
    (s.entryOf id = some e ∧ s.copy.ranks.find? (fun r => r.id == id) = some k ∧ k.result = some xs ∧ e.phase = .sending ∧ e.status = 0 ∧ ready ∧ alone ∧ e.next = k.count) := by
  dsimp only; decide +kernel
theorem witness_CopyEngineEvents_11 :
    let s : State := (ranked 1 [r10]); let id : Nat := 10; let units : Nat := 1; let e : CopyEntry := (sending 1); let s1 : State := (wroteOf (ranked 1 [r10]) (sending 1) r10 [1, 2]).1; let off : Nat := (wroteOf (ranked 1 [r10]) (sending 1) r10 [1, 2]).2; let k : XredRank := r10; let xs : List Nat := [1, 2];
    let ready : Prop := (s.queueRec e.q).flt = false ∧ (s.queueRec e.q).paused = false ∧ s.ctl.down.contains (e.q / 64) = false ∧ s.leavingQueue e.q = false
    let alone : Prop := (∀ z ∈ s.copy.msgs, z.id ≠ id) ∧ (∀ z ∈ s.copy.peers, z.id ≠ id)
    let writes (t : Nat) : Prop := s.engWrite e ((k.dst.toNat + formatBytes k.dfmt * e.next) % 2 ^ 64) (bytesLE (formatBytes k.dfmt) (xs.getD e.next 0)) = .ok (s1, t)
    (s.entryOf id = some e ∧ s.copy.ranks.find? (fun r => r.id == id) = some k ∧ k.result = some xs ∧ e.phase = .sending ∧ e.status = 0 ∧ ready ∧ alone ∧ e.next < k.count ∧ units = 1 ∧ writes off) := by
  dsimp only; simp only [ok_iff]; decide +kernel
theorem witness_CopyEngineEvents_12 :
    let s : State := toPeer; let id : Nat := 10; let e : CopyEntry := (taken .sending (recOf 1 4));
    (s.entryOf id = some e ∧ (∀ z ∈ s.copy.msgs, z.id ≠ id) ∧ e.status = 0 ∧ (∃ z ∈ s.copy.peers, z.id = id) ∧ (∀ z ∈ s.copy.ranks, z.id ≠ id) ∧ e.phase = .sending)
    ∧ (s.entryOf id = some e ∧ (∀ z ∈ s.copy.msgs, z.id ≠ id) ∧ e.status = 0 ∧ (∃ z ∈ s.copy.peers, z.id = id) ∧ (∀ z ∈ s.copy.ranks, z.id ≠ id) ∧ (e.phase = .sending ∨ e.phase = .waiting)) := by
  dsimp only; decide +kernel
theorem witness_CopyEngineEvents_13 :
    let s : State := heldQueue; let q : Nat := 0;
    let qctl (ok : Bool) : Prop := q < 512 ∧ s.mgmtGranted 3 (0x20000 + 16 * q) 4 true = ok
    (qctl true ∧ (s.queueRec q).flt = true) := by
  dsimp only; decide +kernel
theorem witness_CopyEngineEvents_14 :
    let s : State := markers0; let id : Nat := 60; let q : Nat := 0; let n : Nat := 60; let e : CopyEntry := marker0; let j : JoinRec := join0;
    let focused (uid : Nat) (hdl : Bool) : Prop := uid = s.cur.uid ∧ s.frozen uid = false ∧ s.cur.hasExited = false ∧ hdl = false
    let qctl (ok : Bool) : Prop := q < 512 ∧ s.mgmtGranted 3 (0x20000 + 16 * q) 4 true = ok
    (qctl true ∧ s.queued q = [e] ∧ e.kind = .marker n ∧ s.copy.joins.find? (fun y => y.id == n) = some j ∧ focused j.uid j.hdl)
    ∧ (s.copy.joins.find? (fun y => y.id == id) = some j ∧ (∀ z ∈ s.copy.entries, z.q ∈ j.queues → z.acc ≠ 0 → j.upto ≤ z.acc) ∧ focused j.uid j.hdl) := by
  dsimp only; decide +kernel
theorem witness_CopyEngineEvents_15 :
    let s : State := joinEarly; let id : Nat := 60; let j : JoinRec := join1;
    (s.copy.joins.find? (fun y => y.id == id) = some j ∧ (∃ z ∈ s.copy.entries, z.q ∈ j.queues ∧ z.acc ≠ 0 ∧ z.acc < j.upto)) := by
  dsimp only; decide +kernel
theorem witness_CopyEngineEvents_16 :
    let s : State := (messages m0 [(3, 1)]); let m : RedMsg := m0; let w : RedWindow := (window1 [(3, 1)]); let f : RedFloor := floor1;
    (s.msgOf m.q m.seq m.chunk = some m ∧ m.flying = true ∧ m.due.2 ≤ s.tideOf m.due.1 ∧ (∀ y ∈ m.elems, ∀ p ∈ y.pas, s.pchBusy p = false) ∧ s.windowOf m.slice m.q = w ∧ w.slice = m.slice ∧ w.q = m.q ∧ ((m.seq, m.chunk) ∈ w.stamps ∨ stampLt (m.seq, m.chunk) (w.fseq, w.fchunk) = true))
    ∧ (f ∈ s.copy.floors ∧ f.flying = true) := by
  dsimp only; decide +kernel
theorem witness_CopyEngineEvents_17 :
    let s : State := (messages m0 []); let pa : Nat := 0x3000; let m : RedMsg := m0; let x : RedElem := elem1; let w : RedWindow := w0;
    let clean : Prop := ∀ y ∈ s.mem.l2, y.dirty = 0
    (s.msgOf m.q m.seq m.chunk = some m ∧ m.flying = true ∧ m.due.2 ≤ s.tideOf m.due.1 ∧ (∀ y ∈ m.elems, ∀ p ∈ y.pas, s.pchBusy p = false) ∧ s.windowOf m.slice m.q = w ∧ w.slice = m.slice ∧ w.q = m.q ∧ (m.seq, m.chunk) ∉ w.stamps ∧ stampLt (m.seq, m.chunk) (w.fseq, w.fchunk) = false ∧ w.stamps.length < 1024 ∧ m.elems = [x] ∧ x.pas = [pa, pa + 1, pa + 2, pa + 3] ∧ (∀ i < 4, s.mem.poisoned (pa + i) 1 = false) ∧ clean) := by
  dsimp only; decide +kernel
theorem witness_CopyEngineEvents_18 :
    let s : State := fullWindow; let m : RedMsg := m0; let w : RedWindow := (window1 ((List.range 1024).map fun i => (9, i)));
    (s.msgOf m.q m.seq m.chunk = some m ∧ m.flying = true ∧ m.due.2 ≤ s.tideOf m.due.1 ∧ (∀ y ∈ m.elems, ∀ p ∈ y.pas, s.pchBusy p = false) ∧ s.windowOf m.slice m.q = w ∧ w.slice = m.slice ∧ w.q = m.q ∧ (m.seq, m.chunk) ∉ w.stamps ∧ stampLt (m.seq, m.chunk) (w.fseq, w.fchunk) = false ∧ 1024 ≤ w.stamps.length) := by
  dsimp only; decide +kernel
theorem witness_CopyEngineEvents_19 :
    let s : State := (messages mA []); let m : RedMsg := mA;
    (s.msgOf m.q m.seq m.chunk = some m ∧ m.ack = true ∧ m.acked = false ∧ m.due.2 ≤ s.tideOf m.due.1) := by
  dsimp only; decide +kernel
theorem witness_CopyEngineEvents_20 :
    let s : State := ranks2; let id : Nat := 60; let q : Nat := 1; let n : Nat := 7; let units : Nat := 2;
    let use : List XredRank := s.waitingRanks.filter fun r => r.group == n && r.epoch == q
    (use ≠ [] ∧ (s.copy.ranks.map (·.id)).Nodup ∧ (∀ y ∈ use, y.ranks = units ∧ ∀ z, s.entryOf y.id = some z → (s.queueRec z.q).paused = false) ∧ (∀ y ∈ use, y.due.2 ≤ s.tideOf y.due.1) ∧ (∀ i < units, ∃ y ∈ use, y.rank = i)) := by
  dsimp only; simp only [all_opt]; decide +kernel
theorem witness_CopyEngineEvents_21 :
    let s : State := bound0; let pa : Nat := 0x3000; let va : DWord := 0x3000; let ctx : BitVec 3 := 0; let port : Nat := 3; let data : List Byte := [7, 8, 9]; let en : DWord := 0x3B;
    let clean : Prop := ∀ y ∈ s.mem.l2, y.dirty = 0
    (s.boot.portsUp = true ∧ port < 8 ∧ (∀ i < data.length, s.walkVa ctx (va.toNat + i) = .ok (pa + i) en ∧ s.granted ctx.toNat 1 (pa + i) true = true ∧ s.pchBusy (pa + i) = false) ∧ leafWrite en = true ∧ clean) := by
  dsimp only; decide +kernel
theorem witness_CopyEngineEvents_22 :
    let s : State := noEst; let q : Nat := 0; let bound : Bool := true; let ctx : BitVec 3 := 0;
    let qctl (ok : Bool) : Prop := q < 512 ∧ s.mgmtGranted 3 (0x20000 + 16 * q) 4 true = ok
    (qctl false ∧ ∃ i ∈ [Instr.qctlAbort q, .qctlResume q, .qctlBind q bound ctx], (True)) := by
  dsimp only; decide +kernel
theorem witness_CopyEngineEvents_23 :
    let s : State := away4; let id : Nat := 10; let units : Nat := 4; let e : CopyEntry := wide1; let rec128 : List Byte := (readOf away4 wide1).1; let s1 : State := (readOf away4 wide1).2;
    let ready : Prop := (s.queueRec e.q).flt = false ∧ (s.queueRec e.q).paused = false ∧ s.ctl.down.contains (e.q / 64) = false ∧ s.leavingQueue e.q = false
    let due : Prop := e.acc ≠ 0 ∧ e.phase = .waiting ∧ s.headOf e = true ∧ e.cond = none ∧ ready
    let alone : Prop := (∀ z ∈ s.copy.msgs, z.id ≠ id) ∧ (∀ z ∈ s.copy.peers, z.id ≠ id)
    let L := layoutOf rec128
    let e2 := { e with rec' := rec128, seq := (s.queueRec e.q).seq }
    let moved := Mover.run ⟨s1.mapEntry id fun _ => e2, .zero, e.time, [], [], e.cols⟩ e2 L (fun _ => false) (min units L.count) e.next
    (s.entryOf id = some e ∧ due ∧ e.kind = .copy ∧ e.rec' = [] ∧ e.time ≤ s.tideOf (e.q / 64) ∧ alone ∧ s.engRead e e.addr.toNat 128 = .ok (rec128, s1) ∧ e.status = 0 ∧ L.offence rec128 (s.copyOperands e) = none ∧ L.dir = 4 ∧ s.boot.portsUp = true ∧ s.portGranted e.ctx.toNat L.port = true ∧ moved.1.2 = none) := by
  dsimp only; simp only [ok_iff]; decide +kernel
theorem witness_CopyEngineEvents_24 :
    let s : State := (ranBank good); let id : Nat := 10; let n : Nat := 0; let units : Nat := 4; let e : CopyEntry := wait1; let rec128 : List Byte := (readOf (ranBank good) wait1).1; let s1 : State := (readOf (ranBank good) wait1).2;
    let ready : Prop := (s.queueRec e.q).flt = false ∧ (s.queueRec e.q).paused = false ∧ s.ctl.down.contains (e.q / 64) = false ∧ s.leavingQueue e.q = false
    let due : Prop := e.acc ≠ 0 ∧ e.phase = .waiting ∧ s.headOf e = true ∧ e.cond = none ∧ ready
    let alone : Prop := (∀ z ∈ s.copy.msgs, z.id ≠ id) ∧ (∀ z ∈ s.copy.peers, z.id ≠ id)
    let L := layoutOf rec128
    let e2 := { e with rec' := rec128, seq := (s.queueRec e.q).seq }
    let moved := Mover.run ⟨s1.mapEntry id fun _ => e2, .zero, e.time, [], [], e.cols⟩ e2 L (fun _ => false) (min units L.count) e.next
    (s.entryOf id = some e ∧ due ∧ e.kind = .copy ∧ e.rec' = [] ∧ e.time ≤ s.tideOf (e.q / 64) ∧ alone ∧ s.engRead e e.addr.toNat 128 = .ok (rec128, s1) ∧ e.status = 0 ∧ L.offence rec128 (s.copyOperands e) = none ∧ L.dir ≠ 4 ∧ moved.1.2 = some (n, .held)) := by
  dsimp only; simp only [ok_iff]; decide +kernel
theorem witness_CopyEngineEvents_25 :
    let s : State := (sentIn (.faulted 1 0x900000 1)); let id : Nat := 10; let q : Nat := 0; let n : Nat := 1; let e : CopyEntry := (taken (.faulted 1 0x900000 1) (recOf 1 4)); let va : DWord := 0x900000; let code : Nat := 1; let m : RedMsg := m0;
    let qctl (ok : Bool) : Prop := q < 512 ∧ s.mgmtGranted 3 (0x20000 + 16 * q) 4 true = ok
    (s.entryOf id = some e ∧ e.phase = .faulted n va code ∧ (s.queueRec e.q).flt = false)
    ∧ (s.entryOf id = some e ∧ (∀ z ∈ s.copy.msgs, z.id ≠ id) ∧ e.status = 0 ∧ (∃ z ∈ s.copy.peers, z.id = id) ∧ (∀ z ∈ s.copy.ranks, z.id ≠ id) ∧ (e.phase = .waiting ∨ (∃ i a d, e.phase = .faulted i a d)))
    ∧ (s.entryOf id = some e ∧ (∀ z ∈ s.copy.msgs, z.id ≠ id) ∧ e.status = 0 ∧ (∃ z ∈ s.copy.peers, z.id = id) ∧ (∀ z ∈ s.copy.ranks, z.id ≠ id) ∧ (∃ i a d, e.phase = .faulted i a d))
    ∧ (qctl true ∧ (s.copy.entries.map (·.id)).Nodup ∧ (∀ z ∈ s.copy.entries, z.q = q → z.acc ≠ 0 → ∀ i, z.kind ≠ .marker i))
    ∧ (qctl true ∧ (s.queueRec q).flt = false)
    ∧ (qctl true ∧ s.depth q ≠ 0)
    ∧ ((s.queueRec m.q).paused = false) := by
  dsimp only; simp only [all_markers, some_fault]; decide +kernel
theorem witness_CopyEngineEvents_26 :
    let s : State := (awayRanks rankAway); let id : Nat := 10; let q : Nat := 1; let n : Nat := 7; let e : CopyEntry := (sending 0); let k : XredRank := rankAway; let ps : List PeerRank := ps3; let r0 : XredRank := rankAway;
    let use : List XredRank := s.waitingRanks.filter fun r => r.group == n && r.epoch == q
    (s.entryOf id = some e ∧ (∀ z ∈ s.copy.msgs, z.id ≠ id) ∧ e.status = 0 ∧ s.copy.ranks.find? (fun r => r.id == id && !r.away.isEmpty) = some k ∧ (∀ z ∈ s.copy.peers, z.id ≠ id) ∧ e.phase = .sending)
    ∧ (use.head? = some r0 ∧ (∀ y ∈ use, ∀ z, s.entryOf y.id = some z → (s.queueRec z.q).paused = false) ∧ r0.away ≠ [] ∧ (∃ p ∈ ps, p.ranks ≠ r0.ranks ∨ p.xs.length ≠ r0.count)) := by
  dsimp only; simp only [all_opt]; decide +kernel
theorem witness_CopyEngineEvents_27 :
    let s : State := (awayRanks rA); let q : Nat := 1; let n : Nat := 7; let ps : List PeerRank := noP; let r0 : XredRank := rA;
    let use : List XredRank := s.waitingRanks.filter fun r => r.group == n && r.epoch == q
    (use.head? = some r0 ∧ (∀ y ∈ use, ∀ z, s.entryOf y.id = some z → (s.queueRec z.q).paused = false) ∧ (∀ p ∈ ps, p.ranks = r0.ranks ∧ p.xs.length = r0.count) ∧ (∃ i < r0.ranks, i ∉ r0.away ∧ ∀ y ∈ use, y.rank ≠ i)) := by
  dsimp only; simp only [all_opt]; decide +kernel

end Sys2Proof.Tests.Copies

/-! ## Witnesses: Events of workgroups and bank jobs. -/

namespace Sys2Proof.Tests.Groups
open Sys2Proof Sys2Proof.Machine
set_option Elab.async false

def groupOf (s : State) (key : Nat) : Workgroup := (s.wgOf key).getD (loadGroup key)
/-- A page of the code without X; poisoned code; and a PC that no page holds. -/
def badCode : State := { regs with mem := { regs.mem with poison := [0x1000 / 64] } }
def offMap : State := setLanes regs fun _ x => { x with pc := 0x90000000000000 }
/-- A cluster of two workgroups whose first has exited, and whose second has not. -/
def clustered (left2 : Bool) : State := { exited1 with wgs := (exited1.wgs.map fun g => { g with members := [2, 5] }) ++ [{ loadGroup 5 with members := [2, 5], left := left2 }] }
def running3 : State := { ended1 with launches := [{ launch1 with next := 2, left := 1 }] }
def fullQueue : State := { cards1 { card1 .queued 1 with acc := 0 } with cards := ({ card1 .queued 1 with acc := 0 } :: (List.range 256).map fun i => { card1 .queued 1 with id := 100 + i, acc := 200 + i }) }
def gone1 (k : BankCard) : State := setLanes (cards1 k) fun _ x => { x with st := .exited }
/-- A card of 4,095 commands. -/
def cleanLong : BankCard := { card1 .clean 4095 with cols := List.replicate 4095 0x200000 }
/-- A card that has written none of its partials. -/
def writing : BankCard := { card1 .run 1 with out := [(3, 0x5000, 0x40490FDB)] }
/-- The card with its vector out of reach. -/
def badVec : BankCard := { card1 .queued 1 with card := bytesLE 8 0x200000 ++ bytesLE 8 0x90000000000000 ++ bytesLE 8 0x5000 ++ bytesLE 4 (2 ^ 28 + 1) ++ bytesLE 2 1 ++ bytesLE 2 0 ++ bytesLE 4 1 ++ List.replicate 28 0 }
def lateCard : BankCard := { card1 .done 1 with time := 50 }
def er1 : BankError := ⟨0, 4094, 0, 0⟩
def z0 : List Nat := []
/-- Lane 1 sleeps until now and lane 2 until later; a lane waits for five slots. -/
def asleep : State := setLanes regs fun l x => if l == 1 then { x with st := .sleeping 0 } else if l == 2 then { x with st := .sleeping 50 } else x
def held1 : State := { regs with cur := { regs.cur with holds := [⟨2, .slots 5⟩] } }
/-- The Tidemarks of all dies stand at 8; an offer on its way. -/
def at8 (s : State) : State := { s with tide := List.replicate 13 8 }
def onWay : BankCard := { card1 .queued 1 with acc := 0, time := 50 }

theorem witness_WorkgroupAndBankEvents_1 :
    let s : State := aged1; let core : Nat := 0; let pos : Nat := 0; let w : Warp := aged1.cur; let pc : DWord := 0x1000;
    (s.warpAt core pos = some w ∧ w.splitAt pc ≠ 0 ∧ w.inHandler = false ∧ w.aged (w.splitAt pc) = true) := by
  dsimp only; decide +kernel
theorem witness_WorkgroupAndBankEvents_2 :
    let s : State := regs; let core : Nat := 0; let pos : Nat := 0; let pa : Nat := 0x2000; let w : Warp := regs.cur; let pc : DWord := 0x2000; let e : DWord := 0x3B;
    (s.warpAt core pos = some w ∧ s.mayIssue w = true ∧ s.xlate core w.ctx pc.toNat = .ok pa e ∧ leafExec e = true ∧ s.grantedAll w.ctx.toNat 0 pa 4 false = true ∧ s.mem.homePoisoned pa 4 = false ∧ w.fetchesAt pc = false) := by
  dsimp only; decide +kernel
theorem witness_WorkgroupAndBankEvents_3 :
    let s : State := noExec; let core : Nat := 0; let pos : Nat := 0; let pa : Nat := 0x1000; let w : Warp := noExec.cur; let pc : DWord := 0x1000; let e : DWord := 0x1B;
    (s.warpAt core pos = some w ∧ s.mayIssue w = true ∧ s.xlate core w.ctx pc.toNat = .ok pa e ∧ leafExec e = false ∧ w = s.cur ∧ w.fetchesAt pc = true ∧ s.TakesTraps) := by
  dsimp only; simp only [takes_iff]; decide +kernel
theorem witness_WorkgroupAndBankEvents_4 :
    let s : State := badCode; let core : Nat := 0; let pos : Nat := 0; let pa : Nat := 0x1000; let w : Warp := badCode.cur; let pc : DWord := 0x1000; let e : DWord := 0x3B;
    (s.warpAt core pos = some w ∧ s.mayIssue w = true ∧ s.xlate core w.ctx pc.toNat = .ok pa e ∧ leafExec e = true ∧ s.grantedAll w.ctx.toNat 0 pa 4 false = true ∧ s.mem.homePoisoned pa 4 = true ∧ w = s.cur ∧ w.fetchesAt pc = true ∧ s.TakesTraps) := by
  dsimp only; simp only [takes_iff]; decide +kernel
theorem witness_WorkgroupAndBankEvents_5 :
    let s : State := offMap; let core : Nat := 0; let pos : Nat := 0; let w : Warp := offMap.cur; let pc : DWord := 0x90000000000000; let n : Nat := 1; let off : Nat := 3;
    (s.warpAt core pos = some w ∧ s.mayIssue w = true ∧ s.xlate core w.ctx pc.toNat = .bad n off ∧ n < 256 ∧ off < 256 ∧ w = s.cur ∧ w.fetchesAt pc = true ∧ s.TakesTraps) := by
  dsimp only; simp only [takes_iff]; decide +kernel
theorem witness_WorkgroupAndBankEvents_6 :
    let s : State := launching; let core : Nat := 0; let pos : Nat := 0; let id : Nat := 1; let key : Nat := 70; let c : Nat := 3; let w : Warp := launching.cur; let pc : DWord := 0x900000; let n : Nat := 1; let l : Launch := launch1; let ps : List Nat := [0, 1];
    (s.warpAt core pos = some w ∧ (w.splitAt pc = 0 ∨ w.aged (w.splitAt pc) = false))
    ∧ (s.warpAt core pos = some s.cur ∧ s.frozen s.cur.uid = false)
    ∧ (s.warpOf id = some s.cur ∧ (∀ h ∈ s.cur.holds, ∀ n, h.kind = .slots n → s.exhausted h.mask = false))
    ∧ (s.launches.find? (fun x => x.key == key) = some l ∧ l.hdr.clusterSize = 1 ∧ l.ended = false ∧ l.next < l.total ∧ s.runsOn (c / 24) l.ctx = true ∧ s.coreEnabled c = true ∧ s.ctl.down.contains (c / 24) = false ∧ l.start ≤ s.tideOf (c / 24) ∧ s.fits c l.hdr l.hdr.warps = some ps)
    ∧ (s.launches.find? (fun x => x.key == key) = some l ∧ (l.next < l.total ∨ l.left ≠ 0 ∨ s.tideOf 12 < l.statTime)) := by
  dsimp only; simp only [all_slots]; decide +kernel
theorem witness_WorkgroupAndBankEvents_7 :
    let s : State := exited1; let key : Nat := 2; let g : Workgroup := (groupOf exited1 2);
    let released : Prop := s.wgOf key = some g ∧ (s.wgs.filter fun x => x.key == key) = [g] ∧ s.wgExited g = true ∧ s.wgBusy g = false ∧ g.hdr.statp = 0
    (released ∧ g.members = [key]) := by
  dsimp only; decide +kernel
theorem witness_WorkgroupAndBankEvents_8 :
    let s : State := (clustered false); let key : Nat := 2; let g : Workgroup := (groupOf (clustered false) 2);
    let released : Prop := s.wgOf key = some g ∧ (s.wgs.filter fun x => x.key == key) = [g] ∧ s.wgExited g = true ∧ s.wgBusy g = false ∧ g.hdr.statp = 0
    (released ∧ g.left = false ∧ (∃ x ∈ s.wgs, x.key ∈ g.members ∧ x.key ≠ key ∧ x.left = false)) := by
  dsimp only; decide +kernel
theorem witness_WorkgroupAndBankEvents_9 :
    let s : State := regs; let key : Nat := 2; let g : Workgroup := (groupOf regs 2);
    (s.wgOf key = some g ∧ s.wgExited g = false) := by
  dsimp only; decide +kernel
theorem witness_WorkgroupAndBankEvents_10 :
    let s : State := ended1; let key : Nat := 70; let l : Launch := { launch1 with next := 2, left := 0 };
    (s.launches.find? (fun x => x.key == key) = some l ∧ l.total ≤ l.next ∧ l.left = 0 ∧ l.statTime ≤ s.tideOf 12) := by
  dsimp only; decide +kernel
theorem witness_WorkgroupAndBankEvents_11 :
    let s : State := (cards1 { card1 .queued 1 with acc := 0 }); let k : BankCard := { card1 .queued 1 with acc := 0 };
    (s.cardOf k.id = some k ∧ k.acc = 0 ∧ k.time ≤ s.tideOf (k.core / 24) ∧ (∃ y, s.warpOf k.uid = some y ∧ y.hasExited = false) ∧ (s.cards.filter fun x => x.acc != 0 && x.die == k.die).length < 256 ∧ (∀ x ∈ s.cards, x.acc = 0 → x.id < k.id → x.ins ≠ k.ins ∧ ¬(x.uid = k.uid ∧ x.pch = k.pch))) := by
  dsimp only; simp only [exists_opt]; decide +kernel
theorem witness_WorkgroupAndBankEvents_12 :
    let s : State := fullQueue; let k : BankCard := { card1 .queued 1 with acc := 0 };
    (s.cardOf k.id = some k ∧ k.acc = 0 ∧ k.time ≤ s.tideOf (k.core / 24) ∧ (∃ y, s.warpOf k.uid = some y ∧ y.hasExited = false) ∧ 256 ≤ (s.cards.filter fun x => x.acc != 0 && x.die == k.die).length) := by
  dsimp only; simp only [exists_opt]; decide +kernel
theorem witness_WorkgroupAndBankEvents_13 :
    let s : State := (gone1 { card1 .queued 1 with acc := 0 }); let k : BankCard := { card1 .queued 1 with acc := 0 };
    (s.cardOf k.id = some k ∧ k.acc = 0 ∧ (∃ y, s.warpOf k.uid = some y ∧ y.hasExited = true)) := by
  dsimp only; simp only [exists_opt]; decide +kernel
theorem witness_WorkgroupAndBankEvents_14 :
    let s : State := (cards1 (card1 .queued 0)); let k : BankCard := (card1 .queued 0); let off : Nat := 0x18;
    (s.cardOf k.id = some k ∧ k.acc ≠ 0 ∧ k.phase = .queued ∧ s.runsOn (8 + k.die) k.ctx = true ∧ (∀ x ∈ s.cards, x.acc ≠ 0 → x.acc < k.acc → x.pch = k.pch → x.phase ≠ .queued) ∧ jobOffence k.card = some off) := by
  dsimp only; decide +kernel
theorem witness_WorkgroupAndBankEvents_15 :
    let s : State := (cards1 badVec); let c : Nat := 4094; let n : Nat := 2; let k : BankCard := badVec;
    let j := jobOf k.card
    (s.cardOf k.id = some k ∧ k.acc ≠ 0 ∧ k.phase = .queued ∧ s.runsOn (8 + k.die) k.ctx = true ∧ (∀ x ∈ s.cards, x.acc ≠ 0 → x.acc < k.acc → x.pch = k.pch → x.phase ≠ .queued) ∧ jobOffence k.card = none ∧ s.cleanPlaces k.ctx j = .error (c, n, none)) := by
  dsimp only; decide +kernel
theorem witness_WorkgroupAndBankEvents_16 :
    let s : State := (cards1 (card1 .queued 1)); let k : BankCard := (card1 .queued 1); let cs : List Nat := (card1 .clean 1).cols; let vs : List Nat := (card1 .clean 1).vec; let ds : List Nat := (card1 .clean 1).dst;
    let j := jobOf k.card
    (s.cardOf k.id = some k ∧ k.acc ≠ 0 ∧ k.phase = .queued ∧ s.runsOn (8 + k.die) k.ctx = true ∧ (∀ x ∈ s.cards, x.acc ≠ 0 → x.acc < k.acc → x.pch = k.pch → x.phase ≠ .queued) ∧ jobOffence k.card = none ∧ s.cleanPlaces k.ctx j = .ok (cs, vs, ds)) := by
  dsimp only; decide +kernel
theorem witness_WorkgroupAndBankEvents_17 :
    let s : State := (cards1 (card1 .clean 1)); let count : Nat := 5; let k : BankCard := (card1 .clean 1); let er : BankError := er1;
    let clean : Prop := ∀ y ∈ s.mem.l2, y.dirty = 0
    let j := jobOf k.card
    let nb := j.banks.length
    let runs : Prop := k.phase = .clean ∧ s.runsOn (8 + k.die) k.ctx = true ∧ (∀ x ∈ s.cards, x.acc ≠ 0 → x.acc < k.acc → x.pch = k.pch → x.phase = .done) ∧ clean
      ∧ (∀ p ∈ k.cols, s.mem.poisoned p 32 = false) ∧ ∀ p ∈ k.vec, s.mem.poisoned p (formatBytes j.vfmt) = false
    (s.cardOf k.id = some k ∧ runs ∧ nb * j.groups ≤ count)
    ∧ (s.cardOf k.id = some k ∧ runs ∧ er.command = 4094 ∧ er.rank < nb)
    ∧ (s.cardOf k.id = some k ∧ (k.phase ≠ .done ∨ s.tideOf (8 + k.die) < k.time ∨ s.tideOf (k.core / 24) < k.time + 8)) := by
  dsimp only; decide +kernel
theorem witness_WorkgroupAndBankEvents_18 :
    let s : State := (cards1 writing); let pa : Nat := 0x5000; let n : Nat := 3; let first : Nat := 2; let count : Nat := 5; let k : BankCard := writing; let off : Nat := 0x40490FDB;
    let clean : Prop := ∀ y ∈ s.mem.l2, y.dirty = 0
    (s.cardOf k.id = some k ∧ k.phase = .run ∧ k.out = [(n, pa, off)] ∧ first ≤ n ∧ n < first + count ∧ clean) := by
  dsimp only; decide +kernel
theorem witness_WorkgroupAndBankEvents_19 :
    let s : State := (at8 (cards1 (card1 .done 1))); let k : BankCard := (card1 .done 1);
    (s.cardOf k.id = some k ∧ k.phase = .done ∧ k.time ≤ s.tideOf (8 + k.die) ∧ k.time + 8 ≤ s.tideOf (k.core / 24) ∧ k.uid = s.cur.uid ∧ s.frozen k.uid = false ∧ s.cur.hasExited = false ∧ k.hdl = false ∧ k.lane < 128) := by
  dsimp only; decide +kernel
theorem witness_WorkgroupAndBankEvents_20 :
    let s : State := (cards1 onWay); let k : BankCard := onWay;
    (s.cardOf k.id = some k ∧ k.acc = 0 ∧ s.tideOf (k.core / 24) < k.time ∧ (∃ y, s.warpOf k.uid = some y ∧ y.hasExited = false)) := by
  dsimp only; simp only [exists_opt]; decide +kernel
theorem witness_WorkgroupAndBankEvents_21 :
    let s : State := regs; let core : Nat := 0; let pos : Nat := 0; let pa : Nat := 0x1000; let w : Warp := regs.cur; let pc : DWord := 0x1000; let e : DWord := 0x3B;
    let fetched : ILine := ⟨core, w.ctx, pa, readBytes s.mem.home pa 4, false⟩
    (s.warpAt core pos = some w ∧ s.mayIssue w = true ∧ s.xlate core w.ctx pc.toNat = .ok pa e ∧ leafExec e = true ∧ s.grantedAll w.ctx.toNat 0 pa 4 false = true ∧ s.mem.homePoisoned pa 4 = false ∧ w.fetchesAt pc = true ∧ lenOfBytes fetched.bytes = 4) := by
  dsimp only; decide +kernel

end Sys2Proof.Tests.Groups

/-! ## Witnesses: Time and the timetable. -/

namespace Sys2Proof.Tests.Timetable
open Sys2Proof Sys2Proof.Machine
set_option Elab.async false

/-- The timetable with the entry, a launch of key 70 running, and the slot ending at a time. -/
def tt (e : TtEntry) (slotEnd : Nat) : State := { timed e slotEnd with launches := [launch1] }
/-- The same entry armed at 1000, so that its firing is not known in advance. -/
def late (e : TtEntry) : TtEntry := { e with known := 1000 }
/-- The state in which the header of a launch is read. -/
def readsAt (e : TtEntry) (slotEnd : Nat) : State := 
  let b : State := ({ tt e slotEnd with ctl := { (tt e slotEnd).ctl with slotEnd := if e.cx = 0 then max slotEnd (e.nextT + e.slot.toNat) else slotEnd } } : State).putTt (firedEntry e)
  if e.launch = none then b else b.endLaunch 70 (if e.known + 1600 ≤ e.nextT then e.nextT else min 2000 (e.nextT + 800))
def wordsFrom (b : State) (e : TtEntry) : State := (b.partWords (BitVec.ofNat 3 e.cx) e.lh.toNat 16).2
/-- A switch in progress, a firing that waits, and one that is held. -/
def during (e : TtEntry) : State := { tt e 0 with ctl := { (tt e 0).ctl with switch := some (switch1 .stopping (some 0) (some 1) false []) } }
def waiting (e : TtEntry) : State := { tt e 0 with ctl := { (tt e 0).ctl with waiting := [(3, 1900), (4, 1950)] } }
def idleCtx (e : TtEntry) (st : CtxState) : State := { tt e 0 with ctl := { (tt e 0).ctl with ctxs := (tt e 0).ctl.ctxs.map fun c => if c.n = 0 then { c with state := .ready } else if c.n = 1 then { c with state := st } else c } }
def unlocked : TimeCtl := ⟨0x80000000, false, false, 0, false, 15, 0⟩
def locked : TimeCtl := ⟨0x80000000, true, false, 0, true, 15, 0⟩
def stepping : State := { disciplined unlocked with ctl := { (disciplined unlocked).ctl with tt := [{ entry3 0 0 0 0 none none with nextT := 2000000100 }, { entry3 0 0 0 0 none none with n := 4, ctl := 0 }] } }
def noEst : State := { regs with grants := [] }
def lk : PtpLink := ⟨0, 0, false⟩
/-- The warp of the launch, on a die that is behind the action. -/
def behind (e : TtEntry) : State := { tt e 0 with tide := List.replicate 12 1000 ++ [2000], wgs := (tt e 0).wgs.map fun g => { g with launch := some 70 } }
def onTime (e : TtEntry) : State := { behind e with tide := List.replicate 13 2000 }
def readsAt' (s : State) (e : TtEntry) : State :=
  let b : State := ({ s with ctl := { s.ctl with slotEnd := e.nextT + e.slot.toNat } } : State).putTt (firedEntry e)
  b.endLaunch 70 e.nextT

theorem witness_TimeAndTimetableEvents_1 :
    let s : State := noEst; let n : Nat := 3; let w : Nat := 0;
    let due : Prop := s.ttDue n = true
    (¬due ∧ ∃ i ∈ [Instr.timetableLaunchFiring n, .timetableGangSwitchFiring n, .timetableStopFiring n], (True))
    ∧ (s.mgmtGranted 3 0x41000 4 true = false ∧ n < 128 ∧ s.mgmtGranted 3 (0x40000 + 32 * n + 24) 4 true = false ∧ w < 8 ∧ s.mgmtGranted 3 (0x40000 + 32 * n + 4 * w) 4 true = false) := by
  dsimp only; decide +kernel
theorem witness_TimeAndTimetableEvents_2 :
    let s : State := (tt (launchAt 0x6080) 0); let n : Nat := 3; let r : Nat := 0; let ws : List Nat := (wordsAt 1); let s1 : State := (wordsFrom (readsAt (launchAt 0x6080) 0) (launchAt 0x6080)); let pa : Nat := 0x6080; let en : DWord := 0x3B;
    let e := s.ttOf n
    let now := s.tideOf 12
    let due : Prop := s.ttDue n = true
    let known : Prop := e.known + 1600 ≤ e.nextT
    let fired : TtEntry := { e with
      nfire := (e.nfire + 1) % 2 ^ 16, known := e.nextT, staged := false
      ctl := if e.period = 0 then e.ctl &&& 0x7FFFFFFF else e.ctl
      nextT := if e.period = 0 then e.nextT else e.start.toNat + e.period.toNat * ((e.nextT - e.start.toNat) / e.period.toNat + 1) }
    let state (i : Nat) : CtxState := (s.ctxOf i).state
    let slot := if state e.cx = .running then max s.ctl.slotEnd (e.nextT + e.slot.toNat) else s.ctl.slotEnd
    let s0 : State := ({ s with ctl := { s.ctl with slotEnd := slot } } : State).putTt fired
    let bytes := ws.flatMap (bytesLE 8)
    let h := headerOf bytes
    let accepts : Prop := (state e.cx = .ready ∨ state e.cx = .running) ∧ e.lh.toNat % 128 = 0
    let reads (b : State) : Prop := b.walkVa (BitVec.ofNat 3 e.cx) e.lh.toNat = .ok pa en ∧ b.partWords (BitVec.ofNat 3 e.cx) e.lh.toNat 16 = (some ws, s1)
    let valid : Prop := reservedZero bytes = true ∧ h.valid e.cx = true
    let begins := if known then e.nextT else min now (e.nextT + 800)
    let b := if e.launch = none then s0 else s0.endLaunch r begins
    (due ∧ e.act = 0 ∧ ((e.launch = none ∧ e.held = none) ∨ (e.launch = some r ∧ e.ovr = 2)) ∧ (¬accepts ∨ (reads b ∧ ¬valid))) := by
  dsimp only; decide +kernel
theorem witness_TimeAndTimetableEvents_3 :
    let s : State := (tt (entry3 0 2 0 0x6000 (some 70) none) 0); let v : Word := 0x38000000; let n : Nat := 3; let w : Nat := 4; let r : Nat := 70; let ws : List Nat := (wordsAt 0); let s1 : State := (wordsFrom (readsAt (entry3 0 2 0 0x6000 (some 70) none) 0) (launchAt 0x6000)); let pa : Nat := 0x6000; let en : DWord := 0x3B;
    let e := s.ttOf n
    let now := s.tideOf 12
    let estuary (off : Nat) : Prop := s.mgmtGranted 3 off 4 true = true
    let due : Prop := s.ttDue n = true
    let known : Prop := e.known + 1600 ≤ e.nextT
    let fired : TtEntry := { e with
      nfire := (e.nfire + 1) % 2 ^ 16, known := e.nextT, staged := false
      ctl := if e.period = 0 then e.ctl &&& 0x7FFFFFFF else e.ctl
      nextT := if e.period = 0 then e.nextT else e.start.toNat + e.period.toNat * ((e.nextT - e.start.toNat) / e.period.toNat + 1) }
    let state (i : Nat) : CtxState := (s.ctxOf i).state
    let slot := if state e.cx = .running then max s.ctl.slotEnd (e.nextT + e.slot.toNat) else s.ctl.slotEnd
    let s0 : State := ({ s with ctl := { s.ctl with slotEnd := slot } } : State).putTt fired
    let bytes := ws.flatMap (bytesLE 8)
    let h := headerOf bytes
    let accepts : Prop := (state e.cx = .ready ∨ state e.cx = .running) ∧ e.lh.toNat % 128 = 0
    let reads (b : State) : Prop := b.walkVa (BitVec.ofNat 3 e.cx) e.lh.toNat = .ok pa en ∧ b.partWords (BitVec.ofNat 3 e.cx) e.lh.toNat 16 = (some ws, s1)
    let valid : Prop := reservedZero bytes = true ∧ h.valid e.cx = true
    let begins := if known then e.nextT else min now (e.nextT + 800)
    let b := if e.launch = none then s0 else s0.endLaunch r begins
    (estuary 0x41000)
    ∧ (n < 128 ∧ w < 8 ∧ w ≠ 6 ∧ estuary (0x40000 + 32 * n + 4 * w))
    ∧ (n < 128 ∧ estuary (0x40000 + 32 * n + 24) ∧ ∃ i ∈ [Instr.ttctlArm n v, .timetableEntryWrite n 6 v], (True))
    ∧ (due ∧ e.act = 0 ∧ ((e.launch = none ∧ e.held = none) ∨ (e.launch = some r ∧ e.ovr = 2)) ∧ e.launch = some r ∧ (∀ x ∈ s.launches, x.ended = false) ∧ s.ctl.saved = [] ∧ (∀ g ∈ s.wgs, g.launch = some r → s.tideOf (g.core / 24) < begins))
    ∧ (due ∧ e.act = 0 ∧ ((e.launch = none ∧ e.held = none) ∨ (e.launch = some r ∧ e.ovr = 2)) ∧ accepts ∧ reads b ∧ valid) := by
  dsimp only; decide +kernel
theorem witness_TimeAndTimetableEvents_4 :
    let s : State := (tt (entry3 0 0 0 0x6000 (some 70) none) 0); let n : Nat := 3; let r : Nat := 70;
    let e := s.ttOf n
    let due : Prop := s.ttDue n = true
    (due ∧ e.act = 0 ∧ e.launch = some r ∧ e.ovr = 0 ∧ e.held = none) := by
  dsimp only; decide +kernel
theorem witness_TimeAndTimetableEvents_5 :
    let s : State := (tt (entry3 0 0 0 0x6000 (some 70) (some 1000)) 0); let n : Nat := 3; let r : Nat := 70;
    let e := s.ttOf n
    let due : Prop := s.ttDue n = true
    (due ∧ e.act = 0 ∧ e.launch = some r ∧ (e.ovr = 1 ∨ (e.ovr = 0 ∧ e.held ≠ none))) := by
  dsimp only; decide +kernel
theorem witness_TimeAndTimetableEvents_6 :
    let s : State := (tt (entry3 1 0 0 0 none none) 0); let n : Nat := 3; let c : Nat := 0;
    let e := s.ttOf n
    let now := s.tideOf 12
    let due : Prop := s.ttDue n = true
    let known : Prop := e.known + 1600 ≤ e.nextT
    let actsAt := if known then max e.nextT now else now
    let idle (at' : Nat) : Prop := s.ctl.switch = none ∧ (s.running = none ∨ s.ctl.slotEnd ≤ at')
    let acts (at' : Nat) : Prop := idle at' ∨ (s.ctl.switch = none ∧ e.ovr = 2)
    (due ∧ e.act = 1 ∧ e.cx = c ∧ s.running = some c ∧ acts actsAt) := by
  dsimp only; decide +kernel
theorem witness_TimeAndTimetableEvents_7 :
    let s : State := (tt (entry3 1 0 2 0 none none) 0); let n : Nat := 3;
    let e := s.ttOf n
    let now := s.tideOf 12
    let due : Prop := s.ttDue n = true
    let known : Prop := e.known + 1600 ≤ e.nextT
    let state (i : Nat) : CtxState := (s.ctxOf i).state
    let actsAt := if known then max e.nextT now else now
    let idle (at' : Nat) : Prop := s.ctl.switch = none ∧ (s.running = none ∨ s.ctl.slotEnd ≤ at')
    let acts (at' : Nat) : Prop := idle at' ∨ (s.ctl.switch = none ∧ e.ovr = 2)
    (due ∧ e.act = 1 ∧ s.running ≠ some e.cx ∧ state e.cx ≠ .ready ∧ acts actsAt) := by
  dsimp only; decide +kernel
theorem witness_TimeAndTimetableEvents_8 :
    let s : State := (tt (entry3 2 0 0 0 none none) 0); let n : Nat := 3; let c : Nat := 0;
    let e := s.ttOf n
    let now := s.tideOf 12
    let due : Prop := s.ttDue n = true
    let known : Prop := e.known + 1600 ≤ e.nextT
    let actsAt := if known then max e.nextT now else now
    let idle (at' : Nat) : Prop := s.ctl.switch = none ∧ (s.running = none ∨ s.ctl.slotEnd ≤ at')
    let acts (at' : Nat) : Prop := idle at' ∨ (s.ctl.switch = none ∧ e.ovr = 2)
    (due ∧ e.act = 2 ∧ e.cx = c ∧ s.running = some c ∧ acts actsAt) := by
  dsimp only; decide +kernel
theorem witness_TimeAndTimetableEvents_9 :
    let s : State := (tt (entry3 1 0 1 0 none none) 3000); let n : Nat := 3;
    let e := s.ttOf n
    let now := s.tideOf 12
    let due : Prop := s.ttDue n = true
    let known : Prop := e.known + 1600 ≤ e.nextT
    let actsAt := if known then max e.nextT now else now
    let busy (at' : Nat) : Prop := s.ctl.switch = none ∧ s.running ≠ none ∧ at' < s.ctl.slotEnd
    (due ∧ ∃ i ∈ [(1, Instr.timetableGangSwitchFiring n), (2, .timetableStopFiring n)], (e.act = i.1 ∧ busy actsAt ∧ e.ovr = 0 ∧ e.held = none)) := by
  dsimp only; decide +kernel
theorem witness_TimeAndTimetableEvents_10 :
    let s : State := (tt (entry3 1 1 1 0 none none) 3000); let n : Nat := 3;
    let e := s.ttOf n
    let now := s.tideOf 12
    let due : Prop := s.ttDue n = true
    let known : Prop := e.known + 1600 ≤ e.nextT
    let actsAt := if known then max e.nextT now else now
    let busy (at' : Nat) : Prop := s.ctl.switch = none ∧ s.running ≠ none ∧ at' < s.ctl.slotEnd
    (due ∧ ∃ i ∈ [(1, Instr.timetableGangSwitchFiring n), (2, .timetableStopFiring n)], (e.act = i.1 ∧ busy actsAt ∧ (e.ovr = 1 ∨ (e.ovr = 0 ∧ e.held ≠ none)))) := by
  dsimp only; decide +kernel
theorem witness_TimeAndTimetableEvents_11 :
    let s : State := (during (entry3 1 0 1 0 none none)); let n : Nat := 3;
    let e := s.ttOf n
    let due : Prop := s.ttDue n = true
    (due ∧ ∃ i ∈ [(1, Instr.timetableGangSwitchFiring n), (2, .timetableStopFiring n)], (e.act = i.1 ∧ s.ctl.switch ≠ none)) := by
  dsimp only; decide +kernel
theorem witness_TimeAndTimetableEvents_12 :
    let s : State := (waiting (entry3 1 0 1 0 none none)); let n : Nat := 3; let c : Nat := 1; let T : Nat := 1900; let rest : List (Nat × Nat) := [(4, 1950)];
    let e := s.ttOf n
    let now := s.tideOf 12
    let due : Prop := s.ttDue n = true
    let known : Prop := e.known + 1600 ≤ e.nextT
    let state (i : Nat) : CtxState := (s.ctxOf i).state
    let actsAt := if known then max e.nextT now else now
    let idle (at' : Nat) : Prop := s.ctl.switch = none ∧ (s.running = none ∨ s.ctl.slotEnd ≤ at')
    let acts (at' : Nat) : Prop := idle at' ∨ (s.ctl.switch = none ∧ e.ovr = 2)
    (due ∧ e.act = 1 ∧ e.cx = c ∧ s.running ≠ some c ∧ state c = .ready ∧ acts actsAt)
    ∧ (s.ctl.waiting = (n, T) :: rest ∧ acts now ∧ s.running ≠ some e.cx ∧ e.act = 1 ∧ state e.cx = .ready) := by
  dsimp only; decide +kernel
theorem witness_TimeAndTimetableEvents_13 :
    let s : State := (waiting (entry3 2 0 1 0 none none)); let n : Nat := 3; let T : Nat := 1900; let rest : List (Nat × Nat) := [(4, 1950)];
    let e := s.ttOf n
    let now := s.tideOf 12
    let due : Prop := s.ttDue n = true
    let known : Prop := e.known + 1600 ≤ e.nextT
    let actsAt := if known then max e.nextT now else now
    let idle (at' : Nat) : Prop := s.ctl.switch = none ∧ (s.running = none ∨ s.ctl.slotEnd ≤ at')
    let acts (at' : Nat) : Prop := idle at' ∨ (s.ctl.switch = none ∧ e.ovr = 2)
    (due ∧ e.act = 2 ∧ s.running ≠ some e.cx ∧ acts actsAt)
    ∧ (s.ctl.waiting = (n, T) :: rest ∧ acts now ∧ s.running ≠ some e.cx ∧ e.act = 2) := by
  dsimp only; decide +kernel
theorem witness_TimeAndTimetableEvents_14 :
    let s : State := (tt (entry3 2 0 1 0 none (some 1900)) 0); let n : Nat := 3; let T : Nat := 1900;
    let e := s.ttOf n
    let now := s.tideOf 12
    let idle (at' : Nat) : Prop := s.ctl.switch = none ∧ (s.running = none ∨ s.ctl.slotEnd ≤ at')
    ((∀ z ∈ s.ctl.waiting.head?, z.1 ≠ n) ∧ e.held = some T ∧ e.last ≠ 4 ∧ e.act = 2 ∧ s.running ≠ some e.cx ∧ idle now) := by
  dsimp only; decide +kernel
theorem witness_TimeAndTimetableEvents_15 :
    let s : State := (tt (entry3 0 0 0 0x6000 none (some 1900)) 0); let n : Nat := 3; let T : Nat := 1900; let ws : List Nat := (wordsAt 0); let s1 : State := (wordsFrom ((tt (entry3 0 0 0 0x6000 none (some 1900)) 0).putTt (launchAt 0x6000)) (launchAt 0x6000)); let pa : Nat := 0x6000; let en : DWord := 0x3B;
    let e := s.ttOf n
    let state (i : Nat) : CtxState := (s.ctxOf i).state
    let bytes := ws.flatMap (bytesLE 8)
    let h := headerOf bytes
    let accepts : Prop := (state e.cx = .ready ∨ state e.cx = .running) ∧ e.lh.toNat % 128 = 0
    let reads (b : State) : Prop := b.walkVa (BitVec.ofNat 3 e.cx) e.lh.toNat = .ok pa en ∧ b.partWords (BitVec.ofNat 3 e.cx) e.lh.toNat 16 = (some ws, s1)
    let valid : Prop := reservedZero bytes = true ∧ h.valid e.cx = true
    ((∀ z ∈ s.ctl.waiting.head?, z.1 ≠ n) ∧ e.held = some T ∧ e.last ≠ 4 ∧ e.act = 0 ∧ e.launch = none ∧ accepts ∧ reads (s.putTt { e with held := none }) ∧ valid) := by
  dsimp only; decide +kernel
theorem witness_TimeAndTimetableEvents_16 :
    let s : State := (tt { entry3 1 0 1 0 none none with nextT := 42000 } 0); let n : Nat := 3;
    let e := s.ttOf n
    let now := s.tideOf 12
    (e.ctl.getLsbD 31 = true ∧ e.act = 1 ∧ e.known + 40000 ≤ e.nextT ∧ e.nextT ≤ now + 40000 ∧ s.boot.gsw >>> 16 ≠ 0) := by
  dsimp only; decide +kernel
theorem witness_TimeAndTimetableEvents_17 :
    let s : State := (disciplined locked);
    let tm := s.ctl.tm
    let now := s.tideOf 12
    (tm.tmctl.getLsbD 31 = true ∧ tm.seen = true ∧ tm.lastSync + 1600000000 ≤ now) := by
  dsimp only; decide +kernel

end Sys2Proof.Tests.Timetable

/-! ## Witnesses: Contexts and switches. -/

namespace Sys2Proof.Tests.Contexts
open Sys2Proof Sys2Proof.Machine
set_option Elab.async false

def asleep : State := setLanes regs fun l x => if l == 1 then { x with st := .sleeping 0 } else if l == 2 then { x with st := .sleeping 50 } else x
/-- The context of a number. -/
def kOf (s : State) (c : Nat) : Context := (getKey Context.n c s.ctl.ctxs).getD ⟨c, 0, .empty, 0, []⟩
/-- The words of the descriptor at 0x7000. -/
def descWords : List DWord := [0x10000, 0x30000, 0x8000000, 0x10000000, 0x40000, 0x800000]
/-- The warp has not exited and not stopped; the switch starts at 4000, or has not started. -/
def stopWait : State := { stopping1 [] (some 1) with ctl := { (stopping1 [] (some 1)).ctl with switch := some { switch1 .stopping (some 0) (some 1) false [] with start := 30000 } } }
/-- All of its lanes wait. -/
def stopReady : State := { asleep with
  tide := (stopping1 [] none).tide, ctl := (stopping1 [] none).ctl, cur := { asleep.cur with arch := { asleep.cur.arch with lanes := asleep.cur.arch.lanes.map fun x => { x with st := .sleeping 90000 }, handler := none } } }
/-- An entry of queue 0 part of the way through a row, and one at its beginning. -/
def midRow (n : Nat) : State := { stopping1 [] none with copy := { (stopping1 [] none).copy with
  entries := [{ taken .waiting (recOf 1 0) with next := n }], queues := [⟨0, false, 0, false, true, 0, 0⟩], msgs := [msg1 true false] } }
/-- A drained context with a window of its queue. -/
def drainedW (ent : Option Nat) : State := { drained1 ent with copy := { (drained1 ent).copy with windows := [window1 [(3, 0)]] } }
/-- Context 1 was saved with its warp, whose area is good, or has an unknown tag. -/
def saved1 : SavedCtx := ⟨1, [{ regs.cur with uid := 80, ctx := 1, pos := 3, wg := 81 }], [{ loadGroup 81 with ctx := 1 }], [⟨2, 3, 81, 1, false, 64, false, [], [], []⟩], [], [window1 [(3, 0)]]⟩
def reentering (bad : Bool) : State := { entering1 1 with
  mem := { (entering1 1).mem with home := if bad then writeBytes (entering1 1).mem.home (0x800000 + 0x80000 + 0x9000 * 3 + 8) [3] else (entering1 1).mem.home }
  ctl := { (entering1 1).ctl with saved := [saved1] } }
def activating (ctxOk : Bool) : State := { entering1 1 with ctl := { (entering1 1).ctl with ctxs := (entering1 1).ctl.ctxs.map fun k => { k with state := if ctxOk then .empty else .ready, ctxd := 0 } } }
def readied : State := { entering1 1 with ctl := { (entering1 1).ctl with ctxs := (entering1 1).ctl.ctxs.map fun k => { k with state := .ready } } }
def runningOn : State := { switching inHdl none .running with tide := List.replicate 13 20000 }
def noEst : State := { regs with grants := [] }
/-- One die is behind the time at which the switch begins. -/
def lagging (s : State) : State := { s with tide := s.tide.set 5 3000 }

def tornDrained : State := { tearing with copy := { tearing.copy with queues := [⟨0, false, 0, true, true, 0, 0⟩] } }

theorem witness_ContextEvents_1 :
    let s : State := (stopping1 [] (some 1)); let core : Nat := 0; let pos : Nat := 0; let c : Nat := 0; let w : Warp := (stopping1 [] (some 1)).cur; let x : Switch := (switch1 .stopping (some 0) (some 1) false []);
    let leaves : Prop := s.ctl.switch = some x ∧ x.phase = .stopping ∧ x.leaving = some c
    let stoppingFrom : Prop := leaves ∧ x.teardown = false
    (stoppingFrom ∧ s.warpAt core pos = some w ∧ w.ctx.toNat = c ∧ s.frozen w.uid = false ∧ (w.hasExited = false ∨ w.inHandler = true) ∧ x.start ≤ s.tideOf (core / 24) ∧ s.stops w = true)
    ∧ (stoppingFrom ∧ (s.drained c = false ∨ (∃ i < s.tide.length, s.tideOf i < x.start))) := by
  dsimp only; decide +kernel
theorem witness_ContextEvents_2 :
    let s : State := stopWait; let core : Nat := 0; let pos : Nat := 0; let c : Nat := 0; let w : Warp := stopWait.cur; let x : Switch := ({ switch1 .stopping (some 0) (some 1) false [] with start := 30000 });
    let leaves : Prop := s.ctl.switch = some x ∧ x.phase = .stopping ∧ x.leaving = some c
    let stoppingFrom : Prop := leaves ∧ x.teardown = false
    (stoppingFrom ∧ s.warpAt core pos = some w ∧ w.ctx.toNat = c ∧ s.frozen w.uid = false ∧ (w.hasExited = false ∨ w.inHandler = true) ∧ (s.tideOf (core / 24) < x.start ∨ s.stops w = false)) := by
  dsimp only; decide +kernel
theorem witness_ContextEvents_3 :
    let s : State := (midRow 1); let c : Nat := 0; let q : Nat := 0; let x : Switch := (switch1 .stopping (some 0) none false []);
    let leaves : Prop := s.ctl.switch = some x ∧ x.phase = .stopping ∧ x.leaving = some c
    (leaves ∧ (x.teardown = true ∨ x.start ≤ s.tideOf (q / 64)) ∧ (s.queueRec q).bound = true ∧ (s.queueRec q).ctx.toNat = c ∧ (s.queueRec q).paused = false ∧ (∃ e ∈ s.queued q, s.atBoundary e = false)) := by
  dsimp only; decide +kernel
theorem witness_ContextEvents_4 :
    let s : State := (drainedW none); let c : Nat := 0; let x : Switch := (switch1 .stopping (some 0) none false [1]);
    let leaves : Prop := s.ctl.switch = some x ∧ x.phase = .stopping ∧ x.leaving = some c
    let stoppingFrom : Prop := leaves ∧ x.teardown = false
    (stoppingFrom ∧ s.drained c = true ∧ s.allBegun = true) := by
  dsimp only; decide +kernel
theorem witness_ContextEvents_5 :
    let s : State := (entering1 1); let c : Nat := 1; let n : Nat := 3; let w : Warp := regs.cur; let x : Switch := (switch1 .restoring none (some 1) false []); let d : List DWord := descWords; let k : Context := (kOf (entering1 1) 1); let z : SavedCtx := ⟨1, [], [], [], [], []⟩;
    let clean : Prop := ∀ y ∈ s.mem.l2, y.dirty = 0
    let at' (a : DWord) : Nat := (a >>> 7).toNat % 2 ^ 45 * 128
    let rejected (base : Nat) (w : Warp) : Prop := (w.hasExited = false ∨ w.inHandler = true)
      ∧ areaRejected (fun off n => readNum s.mem.home (base + 0x400000 * w.core + 0x80000 + 0x9000 * w.pos + off) n) w.hdr.gmax = true
    (s.ctl.switch = some x ∧ x.phase = .restoring ∧ x.entering = some c ∧ s.allBegun = true ∧ clean ∧ getKey Context.n c s.ctl.ctxs = some k ∧ descriptorOf (readBytes s.mem.home (at' k.ctxd) 128) = some d ∧ (((∀ y ∈ s.ctl.saved, y.ctx ≠ c) ∧ z = ⟨c, [], [], [], [], []⟩) ∨ (s.ctl.saved.find? fun y => y.ctx == c) = some z) ∧ (∀ y ∈ z.warps, ¬rejected (d.getD 5 0).toNat y)) := by
  dsimp only; decide +kernel
theorem witness_ContextEvents_6 :
    let s : State := (entering1 2); let c : Nat := 2; let x : Switch := (switch1 .restoring none (some 2) false []); let k : Context := (kOf (entering1 2) 2);
    let clean : Prop := ∀ y ∈ s.mem.l2, y.dirty = 0
    let at' (a : DWord) : Nat := (a >>> 7).toNat % 2 ^ 45 * 128
    (s.ctl.switch = some x ∧ x.phase = .restoring ∧ x.entering = some c ∧ s.allBegun = true ∧ clean ∧ getKey Context.n c s.ctl.ctxs = some k ∧ descriptorOf (readBytes s.mem.home (at' k.ctxd) 128) = none) := by
  dsimp only; decide +kernel
theorem witness_ContextEvents_7 :
    let s : State := (reentering true); let c : Nat := 1; let n : Nat := 3; let w : Warp := regs.cur; let x : Switch := (switch1 .restoring none (some 1) false []); let d : List DWord := descWords; let k : Context := (kOf (entering1 1) 1); let z : SavedCtx := saved1;
    let clean : Prop := ∀ y ∈ s.mem.l2, y.dirty = 0
    let at' (a : DWord) : Nat := (a >>> 7).toNat % 2 ^ 45 * 128
    let rejected (base : Nat) (w : Warp) : Prop := (w.hasExited = false ∨ w.inHandler = true)
      ∧ areaRejected (fun off n => readNum s.mem.home (base + 0x400000 * w.core + 0x80000 + 0x9000 * w.pos + off) n) w.hdr.gmax = true
    (s.ctl.switch = some x ∧ x.phase = .restoring ∧ x.entering = some c ∧ s.allBegun = true ∧ clean ∧ getKey Context.n c s.ctl.ctxs = some k ∧ descriptorOf (readBytes s.mem.home (at' k.ctxd) 128) = some d ∧ (s.ctl.saved.find? fun y => y.ctx == c) = some z ∧ (∃ y ∈ z.warps, rejected (d.getD 5 0).toNat y)) := by
  dsimp only; decide +kernel
theorem witness_ContextEvents_8 :
    let s : State := (activating true); let c : Nat := 1; let v : DWord := 0x8000000000007000; let k : Context := (kOf (activating true) 1);
    let clean : Prop := ∀ y ∈ s.mem.l2, y.dirty = 0
    (c < 8 ∧ s.mgmtGranted 3 (0x41100 + 8 * c) 8 true = true ∧ getKey Context.n c s.ctl.ctxs = some k ∧ k.state = .empty ∧ v.getLsbD 63 = true ∧ clean) := by
  dsimp only; decide +kernel
theorem witness_ContextEvents_9 :
    let s : State := (activating false); let c : Nat := 1; let k : Context := (kOf (activating false) 1);
    (c < 8 ∧ s.mgmtGranted 3 (0x41104 + 8 * c) 4 true = true ∧ getKey Context.n c s.ctl.ctxs = some k ∧ (k.state = .ready ∨ k.state = .failed)) := by
  dsimp only; decide +kernel
theorem witness_ContextEvents_10 :
    let s : State := runningOn; let c : Nat := 0; let k : Context := (kOf runningOn 0);
    (c < 8 ∧ s.mgmtGranted 3 (0x41104 + 8 * c) 4 true = true ∧ getKey Context.n c s.ctl.ctxs = some k ∧ k.state = .running) := by
  dsimp only; decide +kernel
theorem witness_ContextEvents_11 :
    let s : State := tearing; let c : Nat := 0; let q : Nat := 0; let x : Switch := (switch1 .stopping (some 0) none true []); let v : DWord := 0x8000000000007000; let k : Context := (kOf tearing 0);
    let leaves : Prop := s.ctl.switch = some x ∧ x.phase = .stopping ∧ x.leaving = some c
    let drains : Prop := (∀ r ∈ s.reqs, r.ctx.toNat = c → r.survives = true → r.open = false)
      ∧ (∀ a ∈ s.ctxArrays c, a.axms = []) ∧ (∀ k ∈ s.cards, k.ctx.toNat = c → k.phase ≠ .run ∧ k.phase ≠ .done) ∧ ∀ q ∈ s.ctxQueues c, (s.queueRec q).paused = true
    (leaves ∧ (x.teardown = true ∨ x.start ≤ s.tideOf (q / 64)) ∧ (s.queueRec q).bound = true ∧ (s.queueRec q).ctx.toNat = c ∧ (s.queueRec q).paused = false ∧ (∀ e ∈ s.queued q, s.atBoundary e = true))
    ∧ (c < 8 ∧ s.mgmtGranted 3 (0x41100 + 8 * c) 8 true = true ∧ getKey Context.n c s.ctl.ctxs = some k ∧ (k.state ≠ .empty ∨ v.getLsbD 63 = false))
    ∧ (c < 8 ∧ s.mgmtGranted 3 (0x41104 + 8 * c) 4 true = true ∧ getKey Context.n c s.ctl.ctxs = some k ∧ (k.state = .empty ∨ k.state = .switching))
    ∧ (c < 8 ∧ s.ctl.switch = some x ∧ x.teardown = true ∧ x.leaving = some c ∧ ¬drains) := by
  dsimp only; decide +kernel
theorem witness_ContextEvents_12 :
    let s : State := tornDrained; let c : Nat := 0; let q : Nat := 0; let x : Switch := (switch1 .stopping (some 0) none true []); let k : Context := (kOf tornDrained 0);
    let drains : Prop := (∀ r ∈ s.reqs, r.ctx.toNat = c → r.survives = true → r.open = false)
      ∧ (∀ a ∈ s.ctxArrays c, a.axms = []) ∧ (∀ k ∈ s.cards, k.ctx.toNat = c → k.phase ≠ .run ∧ k.phase ≠ .done) ∧ ∀ q ∈ s.ctxQueues c, (s.queueRec q).paused = true
    (c < 8 ∧ s.ctl.switch = some x ∧ x.teardown = true ∧ x.leaving = some c ∧ drains) := by
  dsimp only; decide +kernel
theorem witness_ContextEvents_13 :
    let s : State := noEst; let c : Nat := 0;
    (c < 8 ∧ s.mgmtGranted 3 (0x41100 + 8 * c) 8 true = false ∧ s.mgmtGranted 3 (0x41104 + 8 * c) 4 true = false) := by
  dsimp only; decide +kernel
theorem witness_ContextEvents_14 :
    let s : State := (lagging (entering1 1)); let x : Switch := (switch1 .restoring none (some 1) false []);
    (s.ctl.switch = some x ∧ x.phase = .restoring ∧ (∃ i < s.tide.length, s.tideOf i < x.start)) := by
  dsimp only; decide +kernel

end Sys2Proof.Tests.Contexts

/-! ## Witnesses: The part and its host. -/

namespace Sys2Proof.Tests.Parts
open Sys2Proof Sys2Proof.Machine
set_option Elab.async false

def dirtyNo : L2Sector := ⟨0,0,none,[],0,false,0⟩
def l1z : L1Sector := ⟨0,0,0,[],0⟩
def cch : State := cached regs
def noEst : State := { regs with grants := [] }
def dieRes : State := { switchingDown with ctl := { switchingDown.ctl with dieResets := [2] } }
def badBoot : State := { attesting false with boot := { (attesting false).boot with ataddr := 0x40001 } }
def offHtop : State := { attesting false with boot := { (attesting false).boot with ataddr := BitVec.ofNat 64 (htop - 64) } }
def pa0 : Nat := regs.hostPa 0x1000
def pa00 : Nat := 0x40000
def noAtt : State := { attesting false with grants := [] }
def downDie : State := { regs with ctl := { regs.ctl with down := [3] } }
def badStart : StartUp := { allGood with headlandOk := false }
def attOnly : State := { attesting false with grants := [⟨none, none, some 64, 0, 2 ^ 52, true, true⟩] }
/-- The report is written and DONE waits for a time; the bank unit holds the pseudo-channel of the host's first byte. -/
def reported (due : Nat) : State := { attesting true with boot := { (attesting true).boot with atDue := some due } }
def ranHost : State := { regs with cards := [{ card0 with acc := 8, phase := .run, card := List.replicate 26 0 ++ [0x80] ++ List.replicate 37 0, pch := pchOf (regs.hostPa 0x1000) }] }
/-- Array 0 in a mode, with the bits struck so far. -/
def struckArr (k : BitVec 2) (fs : List (Nat × Nat)) : ArrayRec := { arr k false [] [] with flips := fs }
def arrZ : ArrayRec := struckArr 0 []

theorem witness_PartAndHostEvents_1 :
    let s : State := (attesting false); let v : Word := 0x80000000;
    let estuary (off : Nat) : Prop := s.mgmtGranted 3 off 4 true = true
    let go : Prop := s.boot.atctl.getLsbD 31 = true
    let range : List Nat := (List.range 4947).map fun i => s.boot.ataddr.toNat + i
    let here (p : Nat) : Prop := isHostPa p = true ∨ (p < htop ∧ s.boot.stken.getLsbD (stackOf p) = true)
    (estuary 0x50140 ∧ v.getLsbD 31 = true ∧ ¬go ∧ s.boot.ataddr.toNat % 64 = 0 ∧ (∀ p ∈ range, here p) ∧ (∀ p ∈ range, s.granted 0 3 p true = true)) := by
  exact ⟨by decide +kernel, by decide +kernel, by decide +kernel, by decide +kernel, fun _ hp => .inr ⟨in_range hp, stack_enabled _⟩, fun _ hp => fw_granted (in_range hp)⟩
theorem witness_PartAndHostEvents_2 :
    let s : State := noGrants; let d : Nat := 2; let off : Nat := 0x1000; let n : Nat := 4; let pa : Nat := pa0; let data : List Byte := [1,2,3,4]; let wide : Bool := false; let host : Bool := false;
    let inside : Prop := off + n ≤ s.stacks.length * (htop / 8) ∧ 0 < n
    let pas := (List.range n).map fun i => s.hostPa (off + i)
    let cls := if host then 4 else 3
    let mgmt (bytes : Nat) : Prop := s.mgmtGranted cls off bytes true = true
    (inside ∧ pas.find? (fun p => !s.granted 0 4 p false) = some pa)
    ∧ (data.length = n ∧ inside ∧ pas.find? (fun p => !s.granted 0 4 p true) = some pa)
    ∧ (off % 4 = 0 ∧ (wide = true → is64 off = true) ∧ ¬mgmt (if wide then 8 else 4))
    ∧ (s.boot.phase ≠ 0 ∧ s.mgmtGranted 3 0x50000 4 true = false ∧ d ∉ s.ctl.dieResets ∧ s.mgmtGranted 3 0x50004 4 true = false ∧ s.mgmtGranted 3 0x50140 4 true = false ∧ s.mgmtGranted 3 off 4 true = false) := by
  dsimp only; decide +kernel
theorem witness_PartAndHostEvents_3 :
    let s : State := switchingDown; let d : Nat := 3; let off : Nat := 0x10000; let host : Bool := true;
    let estuary (off : Nat) : Prop := s.mgmtGranted 3 off 4 true = true
    let gang : Prop := ∃ w, s.ctl.switch = some w ∧ w.teardown = false
    let cls := if host then 4 else 3
    let mgmt (bytes : Nat) : Prop := s.mgmtGranted cls off bytes true = true
    ((d ∈ s.ctl.dieResets ∨ (estuary 0x50000 ∧ d < 8 ∧ s.boot.cden.getLsbD d = true)) ∧ gang)
    ∧ (mgmt 8 ∧ off = 0x10000) := by
  dsimp only; simp only [exists_opt]; decide +kernel
theorem witness_PartAndHostEvents_4 :
    let s : State := switchingDown; let d : Nat := 2; let off : Nat := 0x50000; let host : Bool := true; let x : DWord := 0x4;
    let cls := if host then 4 else 3
    let mgmt (bytes : Nat) : Prop := s.mgmtGranted cls off bytes true = true
    (mgmt 4 ∧ off = 0x50000 ∧ x.getLsbD 31 = false ∧ d < 8 ∧ x.getLsbD d = true ∧ s.boot.cden.getLsbD d = true) := by
  dsimp only; decide +kernel
theorem witness_PartAndHostEvents_5 :
    let s : State := regs; let off : Nat := 0x50000; let host : Bool := true; let x : DWord := 0x80000000;
    let cls := if host then 4 else 3
    let mgmt (bytes : Nat) : Prop := s.mgmtGranted cls off bytes true = true
    (mgmt 4 ∧ off = 0x50000 ∧ x.getLsbD 31 = true) := by
  dsimp only; decide +kernel
theorem witness_PartAndHostEvents_6 :
    let s : State := badBoot; let v : Word := 0x80000000;
    let estuary (off : Nat) : Prop := s.mgmtGranted 3 off 4 true = true
    let go : Prop := s.boot.atctl.getLsbD 31 = true
    (estuary 0x50140 ∧ v.getLsbD 31 = true ∧ ¬go ∧ s.boot.ataddr.toNat % 64 ≠ 0) := by
  dsimp only; decide +kernel
theorem witness_PartAndHostEvents_7 :
    let s : State := offHtop; let v : Word := 0x80000000;
    let estuary (off : Nat) : Prop := s.mgmtGranted 3 off 4 true = true
    let go : Prop := s.boot.atctl.getLsbD 31 = true
    let range : List Nat := (List.range 4947).map fun i => s.boot.ataddr.toNat + i
    let here (p : Nat) : Prop := isHostPa p = true ∨ (p < htop ∧ s.boot.stken.getLsbD (stackOf p) = true)
    (estuary 0x50140 ∧ v.getLsbD 31 = true ∧ ¬go ∧ s.boot.ataddr.toNat % 64 = 0 ∧ (∃ p ∈ range, ¬here p)) := by
  dsimp only; decide +kernel
theorem witness_PartAndHostEvents_8 :
    let s : State := (attesting true);
    let clean : Prop := ∀ c ∈ s.mem.l2, c.dirty = 0
    let go : Prop := s.boot.atctl.getLsbD 31 = true
    (go ∧ s.boot.atDue = none ∧ clean ∧ s.boot.nonce.length = 64 ∧ s.boot.ataddr.toNat % 64 = 0) := by
  dsimp only; decide +kernel
theorem witness_PartAndHostEvents_9 :
    let s : State := regs; let off : Nat := 0x30014; let n : Nat := 5; let host : Bool := true;
    let cls := if host then 4 else 3
    let mgmt (bytes : Nat) : Prop := s.mgmtGranted cls off bytes true = true
    (mgmt 4 ∧ off = 0x30000 + 4 * n ∧ n < 512) := by
  dsimp only; decide +kernel
theorem witness_PartAndHostEvents_10 :
    let s : State := regs; let off : Nat := 0x40; let host : Bool := true;
    let cls := if host then 4 else 3
    let mgmt (bytes : Nat) : Prop := s.mgmtGranted cls off bytes true = true
    (mgmt 4 ∧ off = 0x40) := by
  dsimp only; decide +kernel
theorem witness_PartAndHostEvents_11 :
    let s : State := regs; let off : Nat := 0xFFFFFFFFFFFFF; let n : Nat := 4; let data : List Byte := [1,2,3,4];
    let inside : Prop := off + n ≤ s.stacks.length * (htop / 8) ∧ 0 < n
    let pas := (List.range n).map fun i => s.hostPa (off + i)
    let open' : Prop := ∀ p ∈ pas, s.pchBusy p = false
    (data.length = n ∧ (¬inside ∨ ((∀ p ∈ pas, s.granted 0 4 p true = true) ∧ ¬open'))) := by
  dsimp only; decide +kernel
theorem witness_PartAndHostEvents_12 :
    let s : State := cch; let d : Nat := 0; let off : Nat := 0x50004; let pa : Nat := 0x2004; let host : Bool := false; let core : Nat := 0; let y : L1Sector := ((cch.mem.l1At 0 0x80).getD l1z); let z : L2Sector := ((cch.mem.l2At 0 0x80).getD dirtyNo);
    let cls := if host then 4 else 3
    let mgmt (bytes : Nat) : Prop := s.mgmtGranted cls off bytes true = true
    (mgmt 4 ∧ off = 0x50004)
    ∧ (s.mem.l1At core (pa / 64) = some y)
    ∧ (s.mem.l2At d (pa / 64) = some z) := by
  dsimp only; decide +kernel
theorem witness_PartAndHostEvents_13 :
    let s : State := downDie; let u : StartUp := allGood; let d : Nat := 3; let off : Nat := 5; let n : Nat := 4; let v : Word := 0; let data : List Byte := [1,2,3,4]; let wide : Bool := false; let core : Nat := 0; let pos : Nat := 0;
    let estuary (off : Nat) : Prop := s.mgmtGranted 3 off 4 true = true
    let gang : Prop := ∃ w, s.ctl.switch = some w ∧ w.teardown = false
    let inside : Prop := off + n ≤ s.stacks.length * (htop / 8) ∧ 0 < n
    let pas := (List.range n).map fun i => s.hostPa (off + i)
    let open' : Prop := ∀ p ∈ pas, s.pchBusy p = false
    let clean : Prop := ∀ c ∈ s.mem.l2, c.dirty = 0
    let go : Prop := s.boot.atctl.getLsbD 31 = true
    ((s.boot.phase = 0 ∨ estuary 0x50000))
    ∧ (s.boot.phase ≠ 0)
    ∧ ((d ∈ s.ctl.dieResets ∨ (estuary 0x50000 ∧ d < 8 ∧ s.boot.cden.getLsbD d = true)) ∧ ¬gang)
    ∧ (d ∈ s.ctl.down ∧ d < s.tide.length)
    ∧ (estuary 0x50004)
    ∧ (estuary 0x50140 ∧ (v.getLsbD 31 = false ∨ go))
    ∧ (estuary 0x50140 ∧ v.getLsbD 31 = false)
    ∧ (¬go ∧ off < 16 ∧ estuary (0x50100 + 4 * off) ∧ s.boot.nonce.length = 64)
    ∧ (¬go ∧ estuary 0x50148)
    ∧ (¬go ∧ estuary 0x5014C)
    ∧ (inside ∧ (∀ p ∈ pas, s.granted 0 4 p false = true) ∧ open')
    ∧ (data.length = n ∧ inside ∧ (∀ p ∈ pas, s.granted 0 4 p true = true) ∧ open' ∧ pas.Nodup ∧ clean)
    ∧ ((off % 4 ≠ 0 ∨ (wide = true ∧ is64 off = false)))
    ∧ (s.warpAt core pos = some s.cur)
    ∧ ((u.headlandOk = true ∧ u.slot0Ok = true ∧ u.memFail = 0 ∧ u.coreDieFail = 0 ∧ u.portsOk = true ∧ u.cxlOk = true ∧ u.estuaryOk = true ∧ (∀ i < 7, s.boot.record.getD i .notRun ≠ .fail) ∧ s.boot.memFail = 0 ∧ s.boot.dieFail = 0)) := by
  dsimp only; simp only [exists_opt]; decide +kernel
theorem witness_PartAndHostEvents_14 :
    let s : State := regs; let u : StartUp := badStart; let d : Nat := 8;
    let estuary (off : Nat) : Prop := s.mgmtGranted 3 off 4 true = true
    (d ∉ s.ctl.dieResets ∧ estuary 0x50000 ∧ (8 ≤ d ∨ s.boot.cden.getLsbD d = false))
    ∧ (u.headlandOk = false) := by
  dsimp only; decide +kernel
theorem witness_PartAndHostEvents_15 :
    let s : State := attOnly; let pa : Nat := 0x40000; let v : Word := 0x80000000;
    let estuary (off : Nat) : Prop := s.mgmtGranted 3 off 4 true = true
    let go : Prop := s.boot.atctl.getLsbD 31 = true
    let range : List Nat := (List.range 4947).map fun i => s.boot.ataddr.toNat + i
    let here (p : Nat) : Prop := isHostPa p = true ∨ (p < htop ∧ s.boot.stken.getLsbD (stackOf p) = true)
    (estuary 0x50140 ∧ v.getLsbD 31 = true ∧ ¬go ∧ s.boot.ataddr.toNat % 64 = 0 ∧ (∀ p ∈ range, here p) ∧ range.find? (fun p => !s.granted 0 3 p true) = some pa) := by
  exact ⟨by decide +kernel, by decide +kernel, by decide +kernel, by decide +kernel, fun _ hp => .inr ⟨in_range hp, stack_enabled _⟩, by decide +kernel⟩
theorem witness_PartAndHostEvents_16 :
    let s : State := (reported 0); let off : Nat := 0x1000; let n : Nat := 0;
    let now := s.tideOf 12
    let estuary (off : Nat) : Prop := s.mgmtGranted 3 off 4 true = true
    let inside : Prop := off + n ≤ s.stacks.length * (htop / 8) ∧ 0 < n
    let pas := (List.range n).map fun i => s.hostPa (off + i)
    let open' : Prop := ∀ p ∈ pas, s.pchBusy p = false
    let go : Prop := s.boot.atctl.getLsbD 31 = true
    (go ∧ s.boot.atDue = some n ∧ n ≤ now)
    ∧ (go ∧ estuary off)
    ∧ ((¬inside ∨ ((∀ p ∈ pas, s.granted 0 4 p false = true) ∧ ¬open'))) := by
  dsimp only; decide +kernel
theorem witness_PartAndHostEvents_17 :
    let s : State := (reported 90); let n : Nat := 90;
    let now := s.tideOf 12
    let go : Prop := s.boot.atctl.getLsbD 31 = true
    (go ∧ s.boot.atDue = some n ∧ now < n) := by
  dsimp only; decide +kernel

end Sys2Proof.Tests.Parts
end

section
/-! PROOFS. A step takes the next turn of its schedule, and what an issue leaves in its warp (O6, O8). -/

namespace Sys2Proof.Machine

/-! ## A step takes the next turn of the schedule -/

/-- A part that has not halted takes its next listed turn and settles. -/
theorem step_of_turns {s : State} {t : Turn} {ts : List Turn} (hp : s.boot.phase ≠ 15) (ht : s.turns = t :: ts) :
    step s = (State.take { s with turns := ts } t).map State.settle := by
  have hturn : s.turn = (t, { s with turns := ts }) := by simp only [State.turn, ht]
  simp only [step, hp, decide_false, Bool.false_and, Bool.false_eq_true, if_false, hturn]

/-- Settles O6: an event turn is `exec` of the event, and an instruction form passes the turn. -/
theorem stepRunsEvents : Obligations.StepRunsEvents := by
  intro s t i ts hp ht
  rw [step_of_turns hp ht]
  refine ⟨fun hn he => ?_, fun hn => ?_⟩
  · simp only [State.take, hn, Option.isSome_none, Bool.false_eq_true, if_false, he, Out.map]
  · simp only [State.take, Option.isSome_iff_ne_none.2 hn, if_true, Out.map]

/-! ## What an issue leaves in its warp -/

/-- An `AQRY`, whose result is marked as a query (R41). -/
def isQuery : Instr → Bool
  | .aqry .. | .aqryImmediate .. => true
  | _ => false

/-- The scoreboard entry of a result that comes a fixed time after its issue (R34); none when no lane is active or the split trapped. -/
def State.issuePend (s t : State) (i : Instr) : List Pend :=
  match (resourceOf s i (s.actOf i)).2.2 with
  | some d =>
    if s.actOf i = 0 || s.trapped t then []
    else [⟨0, (operandUse i).writes, (operandUse i).pwrites, false, some (s.ccOf (dieOfCore t.cur.core) + d),
      isQuery i, s.cur.inHandler⟩]
  | none => []

/-- Outside the handler an issue resets the wait counts of its split, marks it as issued and adds its scoreboard entry. -/
theorem State.afterIssue_eq {s t : State} (i : Instr) (hs : s.cur.inHandler = false) (ht : t.cur.inHandler = false) :
    s.afterIssue t i = { t.cur.mapLanes s.split (fun _ x => { x with wait := 0 }) with
      acted := t.cur.acted ||| s.split, pends := t.cur.pends ++ s.issuePend t i } := by
  have hh : t.cur.arch.handler = none := by simpa [Warp.inHandler] using ht
  have hw : (if s.cur.inHandler || (match t.cur.arch.handler with | some h => h.epc == s.ipc && !s.cur.inHandler | none => false) then t.cur
      else t.cur.mapLanes s.split fun _ x => { x with wait := 0 }) = t.cur.mapLanes s.split fun _ x => { x with wait := 0 } := by
    simp only [hs, hh, Bool.or_self, Bool.false_eq_true, if_false]
  generalize hW : (t.cur.mapLanes s.split fun _ x => { x with wait := 0 }) = W at hw
  have e : s.afterIssue t i = match (resourceOf s i (s.actOf i)).2.2 with
      | some d =>
        if s.actOf i = 0 || s.trapped t then { W with acted := W.acted ||| s.split }
        else { W with
          acted := W.acted ||| s.split
          pends := W.pends ++ [⟨0, (operandUse i).writes, (operandUse i).pwrites, false, some (s.ccOf (dieOfCore t.cur.core) + d), isQuery i,
            s.cur.inHandler⟩] }
      | none => { W with acted := W.acted ||| s.split } := by
    rw [← hw]; subst hW; rfl
  have hp : W.pends = t.cur.pends := by rw [← hW]; rfl
  have ha : W.acted = t.cur.acted := by rw [← hW]; rfl
  rw [e, hp, ha]
  unfold State.issuePend
  cases (resourceOf s i (s.actOf i)).2.2 with
  | none => simp only [List.append_nil, ← hp]
  | some d =>
    cases (decide (s.actOf i = 0) || s.trapped t)
    · simp only [Bool.false_eq_true, if_false]
    · simp only [if_true, List.append_nil, ← hp]

/-- Settles O8: an issue that takes place leaves `afterIssue` in the warp, and nothing of memory or of the Tidemark copies changes. -/
theorem issueLeavesTheWarp : Obligations.IssueLeavesTheWarp := by
  intro s t i hu hs ht
  have hfin : s.finishIssue t i = State.putPart { t with cur := { s.afterIssue t i with fetched := t.cur.fetched.filter fun f => f.pc != s.ipc } }
      ((t.partOf s.cur.core (s.cur.pos % 8)).start s.cur.uid (s.ccOf (dieOfCore s.cur.core)) (instrUse i) (resourceOf s i (s.actOf i))) := by
    simp only [State.finishIssue, hu, Bool.false_eq_true, if_false]
  rw [hfin, State.afterIssue_eq i hs ht]
  refine ⟨rfl, fun d hd ha htr => ?_, fun h => ?_, fun l hl => ?_, rfl, rfl, rfl, rfl, rfl⟩
  · have hp : s.issuePend t i = [⟨0, (operandUse i).writes, (operandUse i).pwrites, false, some (s.ccOf (dieOfCore t.cur.core) + d),
        isQuery i, false⟩] := by
      simp only [State.issuePend, hd, ha, htr, hs, decide_false, Bool.or_self, Bool.false_eq_true, if_false]
    exact congrArg (t.cur.pends ++ ·) hp
  · have hp : s.issuePend t i = [] := by
      unfold State.issuePend
      rcases h with h | h | h
      · rw [h]
      · split <;> simp only [h, decide_true, Bool.true_or, if_true]
      · split <;> simp only [h, Bool.or_true, if_true]
    exact (congrArg (t.cur.pends ++ ·) hp).trans (List.append_nil _)
  · exact Warp.lane_mapLanes t.cur s.split (fun _ x => { x with wait := 0 }) l hl

end Sys2Proof.Machine
end

section
/-! PROOFS. A split that issues runs the words it stands at (O5). -/

namespace Sys2Proof.Machine

/-! ## A split that issues runs its words -/

/-- The split in focus issues the words it has fetched ahead, or else those fetched now (R309). -/
theorem State.fetchSplit_of_words {s f : State} {bs : List Byte}
    (h : match s.cur.fetched.find? fun k => k.pc == s.ipc && s.split &&& ~~~ k.lanes == 0 with
      | some k => bs = k.bytes ∧ f = s
      | none => s.fetch s.cur.core s.cur.ctx s.ipc = .ok (bs, f)) : s.fetchSplit = .ok (bs, f) := by
  unfold State.fetchSplit State.ahead
  cases hk : s.cur.fetched.find? fun k => k.pc == s.ipc && s.split &&& ~~~ k.lanes == 0 with
  | some k =>
    simp only [hk] at h ⊢
    obtain ⟨rfl, rfl⟩ := h
    rfl
  | none =>
    simp only [hk] at h ⊢
    exact h

/-- Words that are no instruction take the illegal instruction trap (R252). -/
theorem State.issueSplit_illegal {s f : State} {bs : List Byte} (hf : s.fetchSplit = .ok (bs, f)) (hd : decode bs = none) :
    s.issueSplit = .next (f.illegal (f.act (rawOfBytes bs).ctl)) := by
  simp only [State.issueSplit, hf, hd]

/-- An instruction whose sources read, or that traps by itself, has its meaning. -/
theorem State.issueSplit_runs {s f t : State} {bs tail : List Byte} {i : Instr} (hf : s.fetchSplit = .ok (bs, f)) (hd : decode bs = some (i, tail))
    (he : exec i f = .next t) (hr : f.failsRead i = true → f.trapped t = true) : s.issueSplit = .next (f.finishIssue t i) := by
  have hb : (f.failsRead i && !f.trapped t) = false := by
    cases hfr : f.failsRead i with
    | false => rfl
    | true => rw [hr hfr]; rfl
  simp only [State.issueSplit, hf, hd, he, hb, Bool.false_eq_true, if_false]

/-- A source register that fails when it is read traps (R238). -/
theorem State.issueSplit_failsRead {s f t : State} {bs tail : List Byte} {i : Instr} {c : Ctl} (hf : s.fetchSplit = .ok (bs, f))
    (hd : decode bs = some (i, tail)) (he : exec i f = .next t) (hc : instrCtl i = some c) (hr : f.failsRead i = true) (ht : f.trapped t = false) :
    s.issueSplit = .next (f.finishIssue (f.trapP (f.act c) 17 3 0 none 0 4) i) := by
  simp only [State.issueSplit, hf, hd, he, hc, hr, ht, Bool.not_false, Bool.and_self, if_true]

/-- The next start of a partition issues when its turn comes (R38). -/
theorem State.issueTurnOf_start {s s2 : State} {core pos : Nat} {cd : Cand} {rest : List Cand}
    (hst : (s.formList core (pos % 8)).starts core (pos % 8) = some (cd, rest))
    (h2 : s2 = ((s.formList core (pos % 8)).at' cd).putPart { (s.formList core (pos % 8)).partOf core (pos % 8) with cands := some rest })
    (hc : s2.cur.core = core) (hp : s2.cur.pos = pos) : s.issueTurnOf core pos cd.pc = s2.issueSplit := by
  subst h2
  unfold State.issueTurnOf
  simp only [hst, hc, hp, beq_self_eq_true, Bool.and_self, if_true]

/-- Settles O5: the turn issues the start's split, whose words `issueSplit` runs. -/
theorem stepRunsDecodedInstruction : Obligations.StepRunsDecodedInstruction := by
  intro s s2 f core pos pc ts cd rest bs s1 hp ht hst h2 hc hpos hpc hw
  subst hpc
  have hf : s2.fetchSplit = .ok (bs, f) := State.fetchSplit_of_words hw
  have hstep : ∀ {t : State}, s2.issueSplit = .next t → step s = .next t.settle := by
    intro t hi
    rw [step_of_turns hp ht, State.take, State.issueTurnOf_start hst h2 hc hpos, hi]
    rfl
  exact ⟨fun i tail t hd he hr => hstep (State.issueSplit_runs hf hd he hr),
    fun i tail t c hd he hi hr htr => hstep (State.issueSplit_failsRead hf hd he hi hr htr), fun hd => hstep (State.issueSplit_illegal hf hd)⟩

end Sys2Proof.Machine
end

section
/-! PROOFS. Precise traps, and branches with their targets (O26). -/

namespace Sys2Proof.Machine

/-! ## Traps -/

/-- The record words of a trap are those of `recordOf`, when its detail and AUX are bytes (R232). -/
theorem TrapInfo.record_eq (cause detail aux : Nat) (lane : Option Nat) (addr : DWord) (acc : Nat) (actm hm : Mask) (tpc rpc : DWord) (time : Nat)
    (hd : detail < 256) (ha : aux < 256) :
    (TrapInfo.mk cause detail aux lane addr acc actm hm tpc rpc).record time = recordOf cause detail aux lane tpc rpc addr acc actm time := by
  have hbits : ∀ k, BitVec.ofNat 32 (bitsAt actm.toNat k 32) = (actm >>> k).setWidth 32 := by
    intro k
    apply BitVec.eq_of_toNat_eq
    simp [bitsAt, BitVec.toNat_setWidth, BitVec.toNat_ushiftRight]
  have h0 : actm >>> 0 = actm := BitVec.ushiftRight_zero actm
  cases lane <;> simp only [TrapInfo.record, recordOf, hbits, h0, Nat.mod_eq_of_lt hd, Nat.mod_eq_of_lt ha, loWord, hiWord, Nat.add_assoc] <;> rfl

/-- A warp that takes traps enters its handler for a precise trap (R231, R232). -/
theorem State.TakesTraps.trapP_enters {s : State} (h : s.TakesTraps) (act : Mask) (cause : Nat) {detail aux : Nat} (lane : Option Nat) (addr : DWord)
    (acc : Nat) (hd : detail < 256) (ha : aux < 256) :
    s.EnteredHandler (s.trapP act cause detail aux lane addr acc) (s.split &&& s.cur.live) s.ipc
      (recordOf cause detail aux lane s.ipc s.ipc addr acc act s.myTide) := by
  have hu : (s.unchecked s.cur.uid).isEmpty = true := by rw [List.isEmpty_iff]; exact h.checked
  unfold State.trapP State.takeTrap
  simp only [hu, if_true, h.outside, h.handler, if_false]
  unfold State.EnteredHandler State.enterHandler
  rw [TrapInfo.record_eq _ _ _ _ _ _ _ _ _ _ _ hd ha]

/-! ## Branches (R302, R305) -/

/-- The first lane of a mask with a property is the lowest such lane. -/
theorem maskLanes_find?_eq_some {m : Mask} {p : Nat → Bool} {l0 : Nat} (hm : m.getLsbD l0 = true) (hp : p l0 = true)
    (hlow : ∀ l < l0, m.getLsbD l = true → p l = false) : (maskLanes m).find? p = some l0 := by
  unfold maskLanes
  rw [List.find?_filter, List.find?_range_eq_some]
  refine ⟨by simp only [hm, hp, and_self, decide_true], List.mem_range.2 (lane_lt hm), fun j hj => ?_⟩
  cases hmj : m.getLsbD j with
  | false => simp
  | true => simp [hlow j hj hmj]

/-- An address with one of its bits [63:56] set lies beyond the address space. -/
theorem high8_eq (x : DWord) : high8 x = decide (2 ^ 56 ≤ x.toNat) := by
  rw [Bool.eq_iff_iff, decide_eq_true_iff]
  simp only [high8, bne_iff_ne, ne_eq, Nat.div_eq_zero_iff_lt (Nat.two_pow_pos 56), Nat.not_lt]

/-- No target of the lanes whose target is checked is at fault. -/
theorem State.targetTrap_eq_none {s : State} {c : Ctl} {f : Nat → DWord}
    (h : ∀ l < 128, s.active c l = true → (s.cur.inHandler = true → l = lowestLane (s.split &&& s.cur.live)) → goodTarget (f l)) :
    s.targetTrap (s.act c) f = none := by
  have hgood : ∀ l ∈ s.targetLanes (s.act c), goodTarget (f l) := by
    intro l hl
    unfold State.targetLanes at hl
    cases hi : s.cur.inHandler with
    | false =>
      rw [hi, if_neg (by decide), mem_maskLanes] at hl
      exact h l (lane_lt hl) hl (by simp [hi])
    | true =>
      rw [hi, if_pos rfl, List.mem_filter, mem_maskLanes, beq_iff_eq] at hl
      exact h l (lane_lt hl.1) hl.1 fun _ => hl.2
  have h1 : (s.targetLanes (s.act c)).find? (fun l => (f l).toNat % 4 != 0) = none := by
    rw [List.find?_eq_none]
    intro l hl
    simp [(hgood l hl).1]
  have h2 : (s.targetLanes (s.act c)).find? (fun l => high8 (f l)) = none := by
    rw [List.find?_eq_none]
    intro l hl
    simpa [high8_eq] using (hgood l hl).2
  simp only [State.targetTrap, h1, h2]

/-- Outside the handler the lowest lane with a misaligned target traps with cause 4 (R305). -/
theorem State.targetTrap_misaligned {s : State} {c : Ctl} {f : Nat → DWord} {l0 : Nat} (hi : s.cur.inHandler = false) (ha : s.active c l0 = true)
    (hbad : (f l0).toNat % 4 ≠ 0) (hlow : ∀ l < l0, s.active c l = true → (f l).toNat % 4 = 0) :
    s.targetTrap (s.act c) f = some (s.trapP (s.act c) 4 0 0 (some l0) (f l0) 3) := by
  have h1 : (maskLanes (s.act c)).find? (fun l => (f l).toNat % 4 != 0) = some l0 :=
    maskLanes_find?_eq_some ha (by simpa using hbad) fun l hl hm => by simp [hlow l hl hm]
  simp only [State.targetTrap, State.targetLanes, hi, Bool.false_eq_true, if_false, h1]

/-- Outside the handler, with every target aligned, the lowest lane with one beyond the address space traps with cause 2 (R305). -/
theorem State.targetTrap_beyond {s : State} {c : Ctl} {f : Nat → DWord} {l0 : Nat} (hi : s.cur.inHandler = false) (ha : s.active c l0 = true)
    (hbad : 2 ^ 56 ≤ (f l0).toNat) (halign : ∀ l < 128, s.active c l = true → (f l).toNat % 4 = 0)
    (hlow : ∀ l < l0, s.active c l = true → (f l).toNat < 2 ^ 56) :
    s.targetTrap (s.act c) f = some (s.trapP (s.act c) 2 3 255 (some l0) (f l0) 3) := by
  have h1 : (maskLanes (s.act c)).find? (fun l => (f l).toNat % 4 != 0) = none := by
    rw [List.find?_eq_none]
    intro l hl
    rw [mem_maskLanes] at hl
    simp [halign l (lane_lt hl) hl]
  have h2 : (maskLanes (s.act c)).find? (fun l => high8 (f l)) = some l0 :=
    maskLanes_find?_eq_some ha (by simpa [high8_eq] using hbad) fun l hl hm => by simpa [high8_eq] using hlow l hl hm
  simp only [State.targetTrap, State.targetLanes, hi, Bool.false_eq_true, if_false, h1, h2]

/-- Settles O26: BRA and BRX move the lanes of the split, and BRX first checks its targets. -/
theorem branchResults : Obligations.BranchResults := by
  intro s c off a l0 goes
  refine ⟨⟨_, rfl, State.moveLanes_spec s c _⟩, fun hn hn1 => ?_⟩
  have hnames : (pairRegs a).all s.cur.nameable = true := by
    simp only [pairRegs, List.all_cons, List.all_nil, hn, hn1, Bool.and_self]
  have hbrx : ∀ {o : Option State}, s.targetTrap (s.act c) (s.rdPair a) = o →
      exec (.brx c a) s = .next (match o with | some t => t | none => s.branch c (s.rdPair a)) := by
    rintro o rfl
    change execBrx c a s = _
    simp only [execBrx, hnames, Bool.not_true, Bool.false_eq_true, if_false] <;> rfl
  refine ⟨fun hgood => ⟨_, hbrx (State.targetTrap_eq_none hgood), State.moveLanes_spec s c _⟩, fun ht _ ha => ⟨fun hbad hlow => ?_, fun hbad hal hlow => ?_⟩⟩
  · have hi : s.cur.inHandler = false := by simp [Warp.inHandler, ht.outside]
    exact ⟨_, hbrx (State.targetTrap_misaligned hi ha hbad hlow), ht.trapP_enters _ _ _ _ _ (by omega) (by omega)⟩
  · have hi : s.cur.inHandler = false := by simp [Warp.inHandler, ht.outside]
    exact ⟨_, hbrx (State.targetTrap_beyond hi ha hbad hal hlow), ht.trapP_enters _ _ _ _ _ (by omega) (by omega)⟩

end Sys2Proof.Machine
end

section
/-! PROOFS. NOP, YIELD and EXIT (O29, O30). -/

namespace Sys2Proof.Machine

/-! ## NOP and YIELD (R39, R341) -/

/-- Moving every lane of the split to the next instruction advances it. -/
theorem State.Moved.advanced {s t : State} {c : Ctl} (h : s.Moved t fun _ => s.next c) : s.Advanced t c := ⟨h.lanes, h.handler⟩

/-- Advancing without YH marks no lane. -/
theorem State.advance_quiet_ym (s : State) (c : Ctl) {l : Nat} (hl : l < 128) :
    ((s.advance { c with yh := false }).cur.lane l).ym = (s.cur.lane l).ym := by
  unfold State.advance
  rw [State.moveLanes_lane _ _ _ l hl]
  simp only [Bool.false_and, Bool.false_or]

/-- A yield mark is all that marking changes of a lane. -/
theorem State.markYield_lane (s : State) (m : Mask) {l : Nat} (hl : l < 128) :
    (s.markYield m).cur.lane l = { s.cur.lane l with ym := m.getLsbD l || (s.cur.lane l).ym } := by
  have h := Warp.lane_mapLanes s.cur m (fun _ x => { x with ym := true }) l hl
  refine Eq.trans (show (s.markYield m).cur.lane l = (s.cur.mapLanes m fun _ x => { x with ym := true }).lane l from rfl) (h.trans ?_)
  cases m.getLsbD l <;> simp

/-- Marking lanes keeps where an advance left them. -/
theorem State.Advanced.markYield {s t : State} {c : Ctl} (h : s.Advanced t c) (m : Mask) : s.Advanced (t.markYield m) c :=
  ⟨fun l hl => by rw [State.markYield_lane t m hl]; exact h.lanes l hl, h.handler⟩

/-- Marking lanes changes nothing that a frame without PC and mark holds. -/
theorem State.WarpFrame.markYield {s t : State} {ds : List Reg} (h : s.WarpFrame t ds Lane.noPc) (m : Mask) :
    s.WarpFrame (t.markYield m) ds Lane.noPc where
  rest := congrArg (fun u : State => { u with cur := (t.markYield m).cur }) h.rest
  warp := congrArg (fun w : Warp => { w with arch := (t.markYield m).cur.arch, ymNew := (t.markYield m).cur.ymNew }) h.warp
  regs := h.regs
  preds := h.preds
  failing := h.failing
  lanes l hl := by rw [State.markYield_lane t m hl]; exact h.lanes l hl
  handler := h.handler

/-- Settles O29: both only advance, and `markYield` adds the mark. -/
theorem nopAndYieldResults : Obligations.NopAndYieldResults := by
  intro s c does
  obtain ⟨hm, hf, hs, -⟩ := State.moveLanes_spec s { c with yh := false } fun _ => s.next c
  have hadv : s.Advanced (s.advance { c with yh := false }) c := State.Moved.advanced hm
  have hmark : ∀ i, exec i s = .next ((s.advance { c with yh := false }).markYield (s.act c)) → does i true := fun i hi =>
    ⟨_, hi, hadv.markYield _, State.WarpFrame.markYield hf _, hs, fun l hl => by
      rw [State.markYield_lane _ _ hl, State.advance_quiet_ym s c hl]; rfl⟩
  refine ⟨?_, hmark _ rfl⟩
  cases hy : c.yh with
  | true =>
    refine hmark _ ?_
    change execNop c s = _
    simp only [execNop, hy, if_true]
  | false =>
    refine ⟨_, ?_, hadv, hf, hs, fun l hl => ?_⟩
    · change execNop c s = _
      simp only [execNop, hy, Bool.false_eq_true, if_false]
    · rw [State.advance_quiet_ym s c hl, Bool.false_and, Bool.false_or]

/-! ## EXIT (R41, R49, R50, R315) -/

/-- A warp that completes its task stays as it is. -/
theorem State.completeTask_cur (s : State) (brk : Option (Nat × Nat)) : (s.completeTask brk).cur = s.cur := by
  unfold State.completeTask
  split
  · rfl
  · dsimp only
    split
    · rfl
    · split <;> [rfl; split <;> rfl]

/-- A warp whose lanes are all Exited has exited (R41). -/
theorem Warp.hasExited_iff (w : Warp) : w.hasExited = true ↔ ∀ l < 128, (w.lane l).st = .exited := by
  have hb : ∀ l, w.live.getLsbD l = (decide (l < 128) && !(w.lane l).exited) := fun l => Arch.getLsbD_live w.arch l
  unfold Warp.hasExited
  rw [beq_iff_eq]
  constructor
  · intro h l hl
    have := hb l
    rw [h, show BitVec.getLsbD (0 : Mask) l = false from BitVec.getLsbD_zero] at this
    simpa [hl, Lane.exited] using this
  · intro h
    apply BitVec.eq_of_getLsbD_eq
    intro l hl
    rw [hb, show BitVec.getLsbD (0 : Mask) l = false from BitVec.getLsbD_zero]
    simp [Lane.exited, h l hl]

/-- A warp in rejoin deadlock holds no lane that is neither Exited nor Parked (R55). -/
theorem Warp.not_deadlocked {w : Warp} {l : Nat} (hl : l < 128) (he : (w.lane l).st ≠ .exited) (hp : (w.lane l).st ≠ .parked) :
    w.deadlocked = false := by
  unfold Warp.deadlocked
  have : ((maskOf fun l => (w.lane l).st == .parked) == w.live) = false := by
    rw [beq_eq_false_iff_ne]
    intro h
    have := congrArg (fun m : Mask => m.getLsbD l) h
    rw [getLsbD_maskOf, show w.live.getLsbD l = _ from Arch.getLsbD_live w.arch l] at this
    change _ = (decide (l < 128) && !(w.lane l).exited) at this
    simp only [Lane.exited, beq_eq_false_iff_ne.2 he, beq_eq_false_iff_ne.2 hp, hl, decide_true, Bool.true_and] at this
    exact absurd this (by decide)
  simp only [this, Bool.and_false]

/-- The state in which the split has advanced and the active lanes have left the warp (R41, R315). -/
def State.lanesExited (s : State) (c : Ctl) : State := { s.advance c with cur := (s.advance c).cur.exitLanes (s.act c) }

/-- Outside the handler EXIT advances the split and its active lanes leave the warp (R315). -/
theorem exec_exit {s : State} {c : Ctl} (ha : s.act c ≠ 0) (hi : s.cur.inHandler = false) :
    exec (.exit c) s = .next (if (s.lanesExited c).cur.hasExited then (s.lanesExited c).noteExit none else s.deadlockTest (s.lanesExited c) c) := by
  have hh : (s.advance c).cur.arch.handler = none := by
    have : s.cur.arch.handler = none := by simpa [Warp.inHandler] using hi
    unfold State.advance
    rw [State.moveLanes_handler, this]; rfl
  have hh' : ((s.advance c).cur.exitLanes (s.act c)).arch.handler = none := hh
  change execExit c s = _
  simp only [execExit, ha, if_false, hh'] <;> rfl

/-- The rejoin sets that the exiting lanes leave behind (R49). -/
def State.setsLeft (s : State) (c : Ctl) (k : Nat) : RejoinSet :=
  RejoinSet.norm { s.setNo k with m := (s.setNo k).m &&& ~~~ s.act c, w := (s.setNo k).w &&& ~~~ s.act c }

/-- The lanes of the warp after the active ones have exited: the release rule frees Parked lanes of the sets left behind (R41, R50). -/
theorem State.exit_lane (s : State) (c : Ctl) {l : Nat} (hl : l < 128) :
    (s.lanesExited c).cur.lane l =
      if s.active c l = true then { (s.advance c).cur.lane l with st := .exited }
      else if freed (s.setsLeft c) l = true ∧ (s.cur.lane l).st = .parked then { (s.advance c).cur.lane l with st := .runnable, wait := 0 }
      else (s.advance c).cur.lane l := by
  obtain ⟨-, hf, hsets, -⟩ := State.moveLanes_spec s c fun _ => s.next c
  have hst := (state_of_noPc (hf.lanes l hl)).1
  have hk : ∀ k, (s.advance c).cur.arch.sets.getD k .empty = s.setNo k := fun k => by rw [State.setNo, ← hsets]; rfl
  obtain ⟨-, hlane, -⟩ := Warp.exitLanes_spec (s.advance c).cur (s.act c) (s.setsLeft c) fun k => by rw [hk]; rfl
  rw [show (s.lanesExited c).cur.lane l = _ from hlane l hl, show ((s.advance c).cur.lane l).st = (s.cur.lane l).st from hst]
  rfl

/-- What EXIT leaves of a warp that goes on: the lanes advance and exit, and the sets they leave release (R49, R50, R315). -/
theorem State.exit_spec (s : State) (c : Ctl) :
    s.Advanced (s.lanesExited c) c ∧ (s.lanesExited c).SetsAre (s.setsLeft c)
      ∧ s.LanesAre (s.lanesExited c) (s.setsLeft c) (fun l => (if s.active c l then .exited else (s.cur.lane l).st, (s.cur.lane l).wait))
      ∧ s.WarpFrame (s.lanesExited c) [] Lane.noState := by
  obtain ⟨hm, hf, hsets, -⟩ := State.moveLanes_spec s c fun _ => s.next c
  have hk : ∀ k, (s.advance c).cur.arch.sets.getD k .empty = s.setNo k := fun k => by rw [State.setNo, ← hsets]; rfl
  obtain ⟨hset, -, hw⟩ := Warp.exitLanes_spec (s.advance c).cur (s.act c) (s.setsLeft c) fun k => by rw [hk]; rfl
  have hlane : ∀ l < 128, (s.lanesExited c).cur.lane l = _ := fun l hl => State.exit_lane s c hl
  refine ⟨⟨fun l hl => ?_, hm.handler⟩, hset, fun l hl => ?_, ?_⟩
  · rw [hlane l hl, ← hm.lanes l hl]
    split <;> [rfl; split <;> rfl]
  · obtain ⟨h1, h2⟩ := state_of_noPc (hf.lanes l hl)
    have h3 := depth_of_noPc (hf.lanes l hl)
    have h1 : ((s.advance c).cur.lane l).st = (s.cur.lane l).st := h1
    have h2 : ((s.advance c).cur.lane l).wait = (s.cur.lane l).wait := h2
    have h3 : ((s.advance c).cur.lane l).depth = (s.cur.lane l).depth := h3
    rw [hlane l hl]
    by_cases ha : s.active c l = true
    · simp [ha, h2, h3]
    · by_cases hp : freed (s.setsLeft c) l = true ∧ (s.cur.lane l).st = .parked
      · simp [ha, hp, h3]
      · simp only [ha, hp, if_false, Bool.false_eq_true, h1, h2, h3, and_self]
  · refine ⟨congrArg (fun u : State => { u with cur := (s.lanesExited c).cur }) hf.rest,
      hw.trans (congrArg (fun w : Warp => { w with arch := (s.lanesExited c).cur.arch, acted := (s.lanesExited c).cur.acted }) hf.warp),
      hf.regs, hf.preds, hf.failing, fun l hl => ?_, hf.handler⟩
    refine Eq.trans ?_ (noState_of_noPc (hf.lanes l hl))
    rw [hlane l hl]
    split <;> [rfl; split <;> rfl]

/-- The state of a lane after EXIT: Exited, freed by the release rule, or what it was. -/
theorem State.exit_lane_st (s : State) (c : Ctl) {l : Nat} (hl : l < 128) :
    ((s.lanesExited c).cur.lane l).st =
      if s.active c l = true then .exited else if freed (s.setsLeft c) l = true ∧ (s.cur.lane l).st = .parked then .runnable else (s.cur.lane l).st := by
  obtain ⟨-, hf, -⟩ := State.moveLanes_spec s c fun _ => s.next c
  have h : ((s.advance c).cur.lane l).st = (s.cur.lane l).st := (state_of_noPc (hf.lanes l hl)).1
  rw [State.exit_lane s c hl]
  split <;> [rfl; split <;> [rfl; exact h]]

/-- A warp that exits holds nothing any more (R41). -/
theorem State.noteExit_cur {s : State} (brk : Option (Nat × Nat)) (h : s.cur.hasExited = true) :
    (s.noteExit brk).cur = { s.cur with pends := s.cur.pends.filter fun p => !p.async, holds := [], fences := [] } := by
  simp only [State.noteExit, h, if_true, State.mapWg_cur, State.completeTask_cur]

/-- Settles O30: a warp with a lane left goes on without deadlock, and one without exits. -/
theorem exitResult : Obligations.ExitResult := by
  intro s c left after ha hi
  have he := exec_exit ha hi
  obtain ⟨hadv, hsets, hlanes, hframe⟩ := State.exit_spec s c
  have hst : ∀ l < 128, ((s.lanesExited c).cur.lane l).st = _ := fun l hl => State.exit_lane_st s c hl
  refine ⟨?_, fun hall => ?_⟩
  · rintro ⟨l, hl, hna, hne, hfree⟩
    have hlive : ((s.lanesExited c).cur.lane l).st ≠ .exited ∧ ((s.lanesExited c).cur.lane l).st ≠ .parked := by
      rw [hst l hl, hna, if_neg (by decide)]
      by_cases hp : (s.cur.lane l).st = .parked
      · have hf : freed (s.setsLeft c) l = true := hfree.resolve_right fun h => h hp
        rw [if_pos ⟨hf, hp⟩]
        exact ⟨by simp, by simp⟩
      · rw [if_neg fun h => hp h.2]
        exact ⟨hne, hp⟩
    have hx : (s.lanesExited c).cur.hasExited = false := by
      rw [Bool.eq_false_iff, Ne, Warp.hasExited_iff]
      exact fun h => hlive.1 (h l hl)
    refine ⟨_, he.trans ?_, hadv, hsets, hlanes, hframe⟩
    simp only [hx, State.deadlockTest, Warp.not_deadlocked hl hlive.1 hlive.2, Bool.false_and, Bool.false_eq_true, if_false]
  · have hx : (s.lanesExited c).cur.hasExited = true := by
      rw [Warp.hasExited_iff]
      intro l hl
      rw [hst l hl]
      by_cases hact : s.active c l = true
      · rw [if_pos hact]
      · rw [if_neg hact, hall l hl (by simpa using hact), if_neg (by simp)]
    have hcur := State.noteExit_cur none hx
    rw [if_pos hx] at he
    refine ⟨_, he, ?_, ?_, ?_⟩ <;> rw [hcur]
    exact hx

end Sys2Proof.Machine
end

section
/-! PROOFS. A cluster member that leaves drops the soft-error marks of its arrays (O57 fails). -/

namespace Sys2Proof.Machine

/-! ## A workgroup that leaves before its cluster drops the soft-error marks of its arrays (R42, R43, R97)

The clause of `Obligations.WorkgroupAndBankEvents` for a cluster member that releases before its mates says that its arrays return to storage mode with
everything but the mode and the poison as it was. `State.leaveWg` also drops the marks of the soft errors that struck them in compute mode. -/

/-- An array in compute mode, of which a soft error has changed a bit since its parity check (R97, R238). -/
def struckArray : ArrayRec := ⟨0, 0, 4, 1, false, 64, false, [], [], [(0, 0)]⟩

/-- A workgroup of a cluster of two, with no statistics, whose warps are gone. -/
def clusterMember (key rank : Nat) (arrays : List Nat) : Workgroup :=
  ⟨key, rank, none, rank, 0, [1, 2], .zero, 0, 1, arrays, [], [], [], 0, false⟩

/-- Workgroup 1 holds the struck array and may leave; its mate, workgroup 2, has not left. -/
def memberLeaves : State :=
  { State.reset with wgs := [clusterMember 1 0 [0], clusterMember 2 1 []], arrays := [struckArray] }

/-- The release of workgroup 1 leaves its array without the mark. -/
theorem exec_memberLeaves {t : State} (h : exec (.workgroupRelease 1) memberLeaves = .next t) : t.arrays.map (·.flips) = [[]] := by
  have key : (match exec (.workgroupRelease 1) memberLeaves with | .next t => t.arrays.map (·.flips) | _ => []) = [[]] := by decide +kernel
  rw [h] at key
  exact key

/-- Refutes O57: the arrays of a workgroup that leaves before its cluster lose their soft-error marks, which the statement says they keep. -/
theorem not_workgroupAndBankEvents : ¬ Obligations.WorkgroupAndBankEvents := by
  intro h
  obtain ⟨-, -, -, -, -, -, -, hleave, -⟩ := h memberLeaves 0 0 0 0 1 0 .vacant 0 0 0 0 0 ⟨0, 0, .zero, 0, 0, 0, none, 0, 0, 0, false, 0⟩ []
    (clusterMember 1 0 [0]) ⟨0, 0, 0, 0, 0, 0, 0, 0, [], [], [], [], 0, 0, .queued, 0, 0, 0, false, []⟩ 0 [] [] [] ⟨0, 0, 0, 0⟩
  obtain ⟨t, he, -, ha, -⟩ := hleave (by decide +kernel) rfl (by decide +kernel)
  have hflips := exec_memberLeaves he
  rw [ha] at hflips
  exact absurd hflips (by decide +kernel)

end Sys2Proof.Machine
end

section
/-! PROOFS. A launch firing finds the stamps that its read of the header recalls (O58 fails). -/

namespace Sys2Proof.Machine

/-! ## The acquire of a launch finds a release that a cache still holds (R119, R138, R217)

The clause of `Obligations.TimeAndTimetableEvents` for a launch firing that is submitted gives the launch the latest stamp of the header bytes at their
home before the firing. The part reads the header at its home, which recalls its lines, and takes the stamps that the recall has brought there. -/

/-- The cells of home memory that hold a page table and a launch header: the table of level 3 at 0x10000 leads to that of level 2 at 0x20000, whose first
entry maps the addresses from 0 on to themselves, for reading; the header at 0 asks for one register and one barrier. -/
def headerHome : List Host.Cell :=
  [(56, 0x01), (59, 0x20), (0x10000, 0x01), (0x10002, 0x02), (0x20000, 0x0B)]

/-- A dirty sector of an L2: a release at `.dev` has stored byte 0 of the header at Tidemark 1,000, with the value that stands at the home. -/
def dirtyHeader : L2Sector := ⟨0, 0, none, [⟨0, some ⟨4, 0, 1000⟩⟩], 1, false, 0⟩

/-- Entry 0 of the timetable: a one-shot launch armed for Tidemark 0, with the header at address 0. -/
def launchEntry : TtEntry := ⟨0, 0, 0, 0, 0, 0x80000000, 0, 0, 0, 0, none, none, 0, false⟩

/-- Context 0 is READY with its page table at 0x10000, and its launch is due while an L2 holds a byte of the header. -/
def launchDue : State :=
  { State.reset with
    mem := { State.reset.mem with home := headerHome, l2 := [dirtyHeader] }
    ctl := { State.reset.ctl with tt := [launchEntry], ctxs := [⟨0, 0, .ready, 0, [0x10000, 0, 0x10000000000, 0, 0, 0]⟩] } }

/-- The words of the header. -/
def headerWords : List Nat := [0, 0, 0, 0, 0, 0, 0, 0x20000001, 0, 0, 0, 0, 0, 0, 0, 0]

/-- The warps of the launch begin with an acquire of the time that the L2 held. -/
theorem exec_launchDue {t : State} (h : exec (.timetableLaunchFiring 0) launchDue = .next t) : t.launches.map (·.acqTime) = [1000] := by
  have key : (match exec (.timetableLaunchFiring 0) launchDue with | .next t => t.launches.map (·.acqTime) | _ => []) = [1000] := by decide +kernel
  rw [h] at key
  exact key

/-- Refutes O58: the firing of `launchDue` submits its launch with the time of the release that the read recalled, not with that of the home copy before. -/
theorem not_timeAndTimetableEvents : ¬ Obligations.TimeAndTimetableEvents := by
  intro h
  have hc := h launchDue 0 ⟨0, 0, false⟩ 0 0 0 0 0 0 headerWords ((launchDue.putTt launchEntry.fired).partWords 0 0 16).2 0 0x0B []
  obtain ⟨-, -, -, -, -, -, -, -, hfire, -⟩ := hc
  obtain ⟨-, hsubmit, -⟩ := hfire (by decide +kernel) (by decide +kernel) (by decide +kernel)
  obtain ⟨t, he, -, -, l, hl, -, -, -, -, -, -, -, -, hacq, -⟩ := hsubmit (by decide +kernel) (by decide +kernel) (by decide +kernel)
  have htimes := exec_launchDue he
  rw [hl, List.map_append, List.map_singleton, hacq] at htimes
  exact absurd htimes (by decide +kernel)

end Sys2Proof.Machine
end

section
/-! PROOFS. Lanes enter a rejoin set, leave it and wait in it, and its image is read and restored (O31, O32, O33). -/

namespace Sys2Proof.Machine

/-! ## The shape of a rejoin instruction (R49, R50)

Each rejoin instruction advances the split, may change the state and the wait count of some lanes, and replaces one set, whose release rule then runs. -/

/-- `u` is `s` with its split advanced: the sets stand, and the lanes are as they were but for the states and wait counts `g` gives. -/
structure State.AdvancedTo (s u : State) (c : Ctl) (g : Nat → LaneState × BitVec 16) : Prop where
  advanced : s.Advanced u c
  sets : u.cur.arch.sets = s.cur.arch.sets
  lanes : ∀ l < 128, ((u.cur.lane l).st, (u.cur.lane l).wait) = g l
  frame : s.WarpFrame u [] Lane.noState

/-- From `s` to `t` the split has advanced, the sets are `f` and the lanes are as `g` says, both after the release rule, and the rest of the warp stands. -/
def State.Rejoins (s t : State) (c : Ctl) (f : Nat → RejoinSet) (g : Nat → LaneState × BitVec 16) : Prop :=
  s.Advanced t c ∧ t.SetsAre f ∧ s.LanesAre t f g ∧ s.WarpFrame t [] Lane.noState

/-- The sets of the warp with set j replaced. -/
def State.setsWith (s : State) (j : SetNo) (y : RejoinSet) (k : Nat) : RejoinSet := if k = j.toNat then y else s.setNo k

/-- Lanes equal but for the PC, the mark and the state have one depth. -/
theorem depth_of_noState {x y : Lane} (h : Lane.noState x = Lane.noState y) : x.depth = y.depth := by
  simpa [Lane.noState] using congrArg Lane.depth h

/-- Advancing changes the state of no lane. -/
theorem State.advance_advancedTo (s : State) (c : Ctl) :
    s.AdvancedTo (s.advance c) c fun l => ((s.cur.lane l).st, (s.cur.lane l).wait) := by
  obtain ⟨hm, hf, hs, -⟩ := State.moveLanes_spec s c fun _ => s.next c
  refine ⟨hm.advanced, hs, fun l hl => ?_, { hf with lanes := fun l hl => noState_of_noPc (hf.lanes l hl) }⟩
  obtain ⟨hst, hwait⟩ := state_of_noPc (hf.lanes l hl)
  exact Prod.ext hst hwait

/-- A set of an advanced warp is that of the warp before. -/
theorem State.AdvancedTo.setNo_eq {s u : State} {c : Ctl} {g : Nat → LaneState × BitVec 16} (h : s.AdvancedTo u c g) (k : Nat) :
    u.setNo k = s.setNo k := by rw [State.setNo, h.sets]; rfl

/-- A frame lets the lanes change in what it does not keep, and the sets and the acted lanes with them. -/
theorem State.WarpFrame.setLanes {s u : State} {ds : List Reg} {keep : Lane → Lane} (h : s.WarpFrame u ds keep) (lanes : List Lane)
    (sets : List RejoinSet) (acted : Mask) (hl : ∀ l < 128, keep (Arch.lane { u.cur.arch with lanes := lanes } l) = keep (u.cur.lane l)) :
    s.WarpFrame { u with cur := { u.cur with arch := { u.cur.arch with lanes := lanes, sets := sets }, acted := acted } } ds keep where
  rest := congrArg (fun v : State => { v with
    cur := { u.cur with arch := { u.cur.arch with lanes := lanes, sets := sets }, acted := acted } }) h.rest
  warp := congrArg (fun w : Warp => { w with arch := { u.cur.arch with lanes := lanes, sets := sets }, acted := acted }) h.warp
  regs := h.regs
  preds := h.preds
  failing := h.failing
  lanes l hlt := (hl l hlt).trans (h.lanes l hlt)
  handler := h.handler

/-- Changing the state and the wait count of lanes of an advanced warp, and the lanes it notes as acted. -/
theorem State.AdvancedTo.mapLanes {s u : State} {c : Ctl} {g g' : Nat → LaneState × BitVec 16} (h : s.AdvancedTo u c g) (m acted : Mask)
    (p : Lane → LaneState × BitVec 16)
    (hg : ∀ l < 128, g' l = if m.getLsbD l then p (u.cur.lane l) else g l) :
    s.AdvancedTo { u with cur := { u.cur.mapLanes m (fun _ x => { x with st := (p x).1, wait := (p x).2 }) with acted := acted } } c g' := by
  let t : State := { u with cur := { u.cur.mapLanes m (fun _ x => { x with st := (p x).1, wait := (p x).2 }) with acted := acted } }
  have hlane : ∀ l < 128, t.cur.lane l =
      if m.getLsbD l then { u.cur.lane l with st := (p (u.cur.lane l)).1, wait := (p (u.cur.lane l)).2 } else u.cur.lane l :=
    fun l hl => Warp.lane_mapLanes u.cur m (fun _ x => { x with st := (p x).1, wait := (p x).2 }) l hl
  refine ⟨⟨fun l hl => ?_, h.advanced.handler⟩, h.sets, fun l hl => ?_, ?_⟩
  · rw [← h.advanced.lanes l hl]
    change (t.cur.lane l).pc = _
    rw [hlane l hl]
    split <;> rfl
  · change ((t.cur.lane l).st, (t.cur.lane l).wait) = _
    rw [hlane l hl, hg l hl, ← h.lanes l hl]
    split <;> rfl
  · refine h.frame.setLanes t.cur.arch.lanes u.cur.arch.sets acted fun l hl => ?_
    change (t.cur.lane l).noState = _
    rw [hlane l hl]
    split <;> rfl

/-- Replacing a set of an advanced warp and releasing (R49, R50). -/
theorem State.AdvancedTo.putSet {s u : State} {c : Ctl} {g : Nat → LaneState × BitVec 16} (h : s.AdvancedTo u c g) (j : SetNo) (y : RejoinSet) :
    s.Rejoins (u.putSet j y) c (s.setsWith j y) g := by
  obtain ⟨hset, hlane, hrest⟩ := State.putSet_spec u j y
  have hsets : (fun k => if k = j.toNat then y else u.setNo k) = s.setsWith j y := by
    funext k; rw [h.setNo_eq]; rfl
  rw [hsets] at hset hlane
  refine ⟨⟨fun l hl => ?_, h.advanced.handler⟩, hset, fun l hl => ?_, ?_⟩
  · rw [← h.advanced.lanes l hl, hlane l hl]
    split <;> rfl
  · rw [← depth_of_noState (h.frame.lanes l hl), ← h.lanes l hl, hlane l hl]
    split <;> exact ⟨rfl, rfl⟩
  · refine h.frame.setLanes (u.putSet j y).cur.arch.lanes (u.putSet j y).cur.arch.sets (u.putSet j y).cur.acted fun l hl => ?_
    change ((u.putSet j y).cur.lane l).noState = _
    rw [hlane l hl]
    split <;> rfl

/-! ## JENTER and JENTER.F (R49, R54) -/

/-- The set after the active lanes have entered it: the first entry fixes whether it is frame-bound, and its depth. -/
def State.entered (s : State) (c : Ctl) (j : SetNo) (fb : Bool) : RejoinSet :=
  if (s.setNo j.toNat).m = 0 then ⟨s.act c, 0, fb, if fb then (s.cur.lane (lowestLane (s.act c))).depth else 0⟩
  else { s.setNo j.toNat with m := (s.setNo j.toNat).m ||| s.act c }

/-- No lane of a mask fails a test that its lanes pass. -/
theorem maskLanes_any_eq_false {m : Mask} {p : Nat → Bool} (h : ∀ l, m.getLsbD l = true → p l = false) : (maskLanes m).any p = false := by
  rw [List.any_eq_false]
  intro l hl
  rw [h l ((mem_maskLanes m l).1 hl)]
  decide

/-- An entry that orphans no lane advances the split and puts the active lanes into the set. -/
theorem enterOp_eq {s : State} {c : Ctl} {j : SetNo} {fb : Bool} (ha : s.act c ≠ 0) (hfb : (s.setNo j.toNat).m ≠ 0 → (s.setNo j.toNat).fb = fb)
    (hdepth : fb = true → ∀ l < 128, s.active c l = true → (s.setNo j.toNat).m.getLsbD l = false → (s.cur.lane l).depth =
      if (s.setNo j.toNat).m = 0 then (s.cur.lane (lowestLane (s.act c))).depth else (s.setNo j.toNat).d) :
    enterOp s c j fb = (s.advance c).putSet j (s.entered c j fb) := by
  have hx : s.setAt j = s.setNo j.toNat := rfl
  unfold enterOp State.entered
  simp only [ha, if_false, hx]
  by_cases hm : (s.setNo j.toNat).m = 0
  · have hsame : (fb && (maskLanes (s.act c)).any fun l => (s.cur.lane l).depth != (s.cur.lane (lowestLane (s.act c))).depth) = false := by
      cases fb with
      | false => rfl
      | true =>
        refine maskLanes_any_eq_false fun l hl => ?_
        rw [hdepth rfl l (lane_lt hl) hl (by rw [hm]; exact BitVec.getLsbD_zero), if_pos hm, bne_self_eq_false]
    simp only [hm, if_true, hsame, Bool.false_eq_true, if_false]
  · have hsame : (fb && (maskLanes (s.act c &&& ~~~ (s.setNo j.toNat).m)).any fun l => (s.cur.lane l).depth != (s.setNo j.toNat).d) = false := by
      cases fb with
      | false => rfl
      | true =>
        refine maskLanes_any_eq_false fun l hl => ?_
        have hlt := lane_lt hl
        rw [BitVec.getLsbD_and, BitVec.getLsbD_not, Bool.and_eq_true] at hl
        rw [hdepth rfl l hlt hl.1 (by simpa [hlt] using hl.2), if_neg hm, bne_self_eq_false]
    simp only [hm, if_false, hfb hm, bne_self_eq_false, Bool.false_eq_true, hsame]

/-- Settles O31: without an orphan, entering is an advance and one set replaced. -/
theorem rejoinEnterResults : Obligations.RejoinEnterResults := by
  intro s c j fb x dep d0 y sets ha hfb hdepth
  have he : exec (if fb then .jenterF c j else .jenter c j) s = .next (enterOp s c j fb) := by cases fb <;> rfl
  exact ⟨_, he.trans (congrArg Host.Outcome.next (enterOp_eq ha hfb hdepth)), (s.advance_advancedTo c).putSet j _⟩

/-! ## Rejoin deadlock (R55) -/

/-- A warp without deadlock passes the test. -/
theorem State.deadlockTest_eq {t : State} (s : State) (c : Ctl) (h : t.cur.deadlocked = false) : s.deadlockTest t c = t := by
  simp only [State.deadlockTest, h, Bool.false_and, Bool.false_eq_true, if_false]

/-- A warp in its handler is in no deadlock. -/
theorem Warp.not_deadlocked_of_inHandler {w : Warp} (h : w.inHandler = true) : w.deadlocked = false := by
  simp only [Warp.deadlocked, h, Bool.not_true, Bool.false_and]

/-- Handler mode stands over what keeps the frame. -/
theorem State.WarpFrame.inHandler_eq {s t : State} {ds : List Reg} {keep : Lane → Lane} (h : s.WarpFrame t ds keep) :
    t.cur.inHandler = s.cur.inHandler := by
  simpa [Warp.inHandler] using congrArg Option.isSome h.handler

/-- An instruction with an active lane that stops no Runnable lane leaves no deadlock. -/
theorem State.Rejoins.not_deadlocked {s t : State} {c : Ctl} {f : Nat → RejoinSet} {g : Nat → LaneState × BitVec 16} (h : s.Rejoins t c f g)
    (ha : s.act c ≠ 0) (hg : ∀ l, (s.cur.lane l).st = .runnable → (g l).1 = .runnable) : t.cur.deadlocked = false := by
  obtain ⟨-, -, hlanes, hframe⟩ := h
  cases hi : s.cur.inHandler with
  | true => exact Warp.not_deadlocked_of_inHandler (hframe.inHandler_eq.trans hi)
  | false =>
    obtain ⟨l, hl, hact⟩ := State.exists_active ha
    have hrun : (t.cur.lane l).st = .runnable := by
      have hst := congrArg Prod.fst (hlanes l hl).1
      have hgl := hg l (State.split_runnable hi (State.split_of_active hact))
      rw [if_neg (by simp [hgl])] at hst
      exact hst.trans hgl
    exact Warp.not_deadlocked hl (by simp [hrun]) (by simp [hrun])

/-! ## A set that loses members (R46, R49) -/

/-- A lane that was Parked in set x and is no member in `m` is Runnable with wait count 0; the others keep their state. -/
def State.leavesPark (s : State) (x : RejoinSet) (m : Mask) (l : Nat) : LaneState × BitVec 16 :=
  if x.w.getLsbD l && !m.getLsbD l && (s.cur.lane l).st == .parked then (.runnable, 0) else ((s.cur.lane l).st, (s.cur.lane l).wait)

/-- Advancing and shrinking set j: the lanes that leave it leave Parked, and the release rule runs. -/
theorem State.shrinkSet_rejoins (s : State) (c : Ctl) (j : SetNo) (y : RejoinSet) :
    s.Rejoins ((s.advance c).shrinkSet j y) c (s.setsWith j (RejoinSet.norm { y with w := y.w &&& y.m })) (s.leavesPark (s.setNo j.toNat) y.m) := by
  have hadv := s.advance_advancedTo c
  have hset : (s.advance c).setAt j = s.setNo j.toNat := hadv.setNo_eq _
  unfold State.shrinkSet
  simp only [hset]
  have hlanes := hadv.mapLanes (g' := s.leavesPark (s.setNo j.toNat) y.m) ((s.setNo j.toNat).w &&& ~~~ y.m)
    ((s.advance c).cur.acted ||| ((s.setNo j.toNat).w &&& ~~~ y.m))
    (fun x => if x.st = .parked then (.runnable, 0) else (x.st, x.wait)) ?_
  · have hfun : (fun (_ : Nat) (z : Lane) => if z.st = .parked then { z with st := .runnable, wait := 0 } else z) =
        fun _ z => { z with st := (if z.st = .parked then (LaneState.runnable, (0 : BitVec 16)) else (z.st, z.wait)).1,
                            wait := (if z.st = .parked then (LaneState.runnable, (0 : BitVec 16)) else (z.st, z.wait)).2 } := by
      funext _ z
      split <;> rfl
    rw [hfun]
    exact hlanes.putSet j _
  · intro l hl
    have hst := hadv.lanes l hl
    rw [Prod.mk.injEq] at hst
    rw [hst.1, hst.2, State.leavesPark, BitVec.getLsbD_and, BitVec.getLsbD_not]
    cases hw : (s.setNo j.toNat).w.getLsbD l <;> cases hm : y.m.getLsbD l <;> by_cases hp : (s.cur.lane l).st = .parked <;> simp [hp, hl]

/-- Leaving a set stops no Runnable lane. -/
theorem State.leavesPark_runnable {s : State} (x : RejoinSet) (m : Mask) (l : Nat) (h : (s.cur.lane l).st = .runnable) :
    (s.leavesPark x m l).1 = .runnable := by
  simp [State.leavesPark, h]

/-- Shrinking a set with an active lane left raises no deadlock. -/
theorem State.deadlockTest_shrinkSet {s : State} {c : Ctl} (ha : s.act c ≠ 0) (j : SetNo) (y : RejoinSet) :
    s.deadlockTest ((s.advance c).shrinkSet j y) c = (s.advance c).shrinkSet j y :=
  State.deadlockTest_eq s c ((s.shrinkSet_rejoins c j y).not_deadlocked ha (State.leavesPark_runnable _ _))

/-! ## JQUIT and JWAIT (R49, R50, R55) -/

/-- The set of which the active lanes wait that are its members. -/
def State.waited (s : State) (c : Ctl) (j : SetNo) : RejoinSet :=
  { s.setNo j.toNat with w := (s.setNo j.toNat).w ||| (s.act c &&& (s.setNo j.toNat).m) }

/-- The states of the lanes once the active members of set j are Parked. -/
def State.parks (s : State) (c : Ctl) (j : SetNo) (l : Nat) : LaneState × BitVec 16 :=
  if s.active c l && (s.setNo j.toNat).m.getLsbD l then (.parked, 0) else ((s.cur.lane l).st, (s.cur.lane l).wait)

/-- The state after JWAIT, before the test for deadlock. -/
def State.waiting (s : State) (c : Ctl) (j : SetNo) : State :=
  State.putSet { s.advance c with cur := (s.advance c).cur.mapLanes (s.act c &&& (s.setNo j.toNat).m) fun _ y => { y with st := .parked, wait := 0 } }
    j (s.waited c j)

/-- Outside the handler JWAIT parks the active members and tests for deadlock. -/
theorem exec_jwait {s : State} {c : Ctl} (j : SetNo) (ha : s.act c ≠ 0) (hi : s.cur.inHandler = false) :
    exec (.jwait c j) s = .next (s.deadlockTest (s.waiting c j) c) := by
  change execJwait c j s = _
  simp only [execJwait, ha, hi, Bool.false_eq_true, if_false] <;> rfl

/-- JWAIT advances the split, parks the active members and releases a set whose members all wait. -/
theorem State.waiting_rejoins (s : State) (c : Ctl) (j : SetNo) : s.Rejoins (s.waiting c j) c (s.setsWith j (s.waited c j)) (s.parks c j) := by
  refine ((s.advance_advancedTo c).mapLanes (s.act c &&& (s.setNo j.toNat).m) (s.advance c).cur.acted (fun _ => (.parked, 0)) ?_).putSet j (s.waited c j)
  intro l _
  rw [BitVec.getLsbD_and]
  rfl

/-- A lane that JWAIT leaves neither Exited nor Parked keeps the warp out of deadlock. -/
theorem State.waiting_not_deadlocked {s : State} {c : Ctl} {j : SetNo} {l : Nat} (hl : l < 128) (he : (s.cur.lane l).st ≠ .exited)
    (hfree : freed (s.setsWith j (s.waited c j)) l = true ∨
      ((s.active c l && (s.setNo j.toNat).m.getLsbD l) = false ∧ (s.cur.lane l).st ≠ .parked)) : (s.waiting c j).cur.deadlocked = false := by
  obtain ⟨-, -, hlanes, -⟩ := s.waiting_rejoins c j
  have hst := congrArg Prod.fst (hlanes l hl).1
  have hne : (s.parks c j l).1 ≠ .exited := by
    unfold State.parks
    split
    · simp
    · exact he
  have hp : (s.parks c j l).1 = .parked → freed (s.setsWith j (s.waited c j)) l = true := by
    intro hp
    refine hfree.resolve_right fun ⟨hna, hnp⟩ => hnp ?_
    rw [← hp, State.parks, hna]; rfl
  by_cases hpark : (s.parks c j l).1 = .parked
  · rw [if_pos ⟨hp hpark, hpark⟩] at hst
    have hst : ((s.waiting c j).cur.lane l).st = .runnable := hst
    exact Warp.not_deadlocked hl (by simp [hst]) (by simp [hst])
  · rw [if_neg fun h => hpark h.2] at hst
    have hst : ((s.waiting c j).cur.lane l).st = (s.parks c j l).1 := hst
    exact Warp.not_deadlocked hl (hst ▸ hne) (hst ▸ hpark)

/-- A set that the active lanes have left is normal: it is empty, or its members that wait stay in it. -/
theorem RejoinSet.norm_quit (x : RejoinSet) (act : Mask) :
    RejoinSet.norm { x with m := x.m &&& ~~~ act, w := x.w &&& (x.m &&& ~~~ act) } =
      if x.m &&& ~~~ act = 0 then .empty else { x with m := x.m &&& ~~~ act, w := x.w &&& x.m &&& ~~~ act } := by
  unfold RejoinSet.norm
  rw [BitVec.and_assoc]

/-- A lane is outside the set that the active lanes have left when it was no member or is active. -/
theorem State.leavesPark_quit (s : State) (c : Ctl) (x : RejoinSet) {l : Nat} (hl : l < 128) :
    s.leavesPark x (x.m &&& ~~~ s.act c) l =
      if x.w.getLsbD l && !(x.m.getLsbD l && !s.active c l) && (s.cur.lane l).st == .parked then (.runnable, 0)
      else ((s.cur.lane l).st, (s.cur.lane l).wait) := by
  rw [State.leavesPark, BitVec.getLsbD_and, BitVec.getLsbD_not, State.active]
  simp only [hl, decide_true, Bool.true_and]

/-- Settles O32: JQUIT shrinks the set by the active lanes, JWAIT parks its active members. -/
theorem rejoinLeaveResults : Obligations.RejoinLeaveResults := by
  intro s c j x quit wait sets unparks parks
  refine ⟨fun ha => ?_, fun ha hi => ?_⟩
  · have hset : s.setsWith j (RejoinSet.norm { x with m := x.m &&& ~~~ s.act c, w := x.w &&& (x.m &&& ~~~ s.act c) }) = sets quit := by
      rw [RejoinSet.norm_quit]; rfl
    obtain ⟨hadv, hsets, hlanes, hframe⟩ := s.shrinkSet_rejoins c j { x with m := x.m &&& ~~~ s.act c }
    rw [hset] at hsets hlanes
    refine ⟨_, congrArg Host.Outcome.next (State.deadlockTest_shrinkSet ha j { x with m := x.m &&& ~~~ s.act c }), hadv, hsets, fun l hl => ?_, hframe⟩
    have hlane := hlanes l hl
    rw [s.leavesPark_quit c x hl] at hlane
    exact hlane
  · rintro ⟨l, hl, he, hfree⟩
    refine ⟨_, (exec_jwait j ha hi).trans (congrArg Host.Outcome.next ?_), s.waiting_rejoins c j⟩
    exact State.deadlockTest_eq s c (State.waiting_not_deadlocked hl he hfree)

/-! ## The image of a set (R52, R334) -/

/-- The word that lane l reads of a set: membership, a zero, FB, thirteen zeros and the depth. -/
def RejoinSet.image (x : RejoinSet) (l : Nat) : Word := BitVec.ofBool (x.m.getLsbD l) ++ 0#1 ++ BitVec.ofBool x.fb ++ 0#13 ++ x.d

/-- JGET gives the image. -/
theorem RejoinSet.word_eq_image (x : RejoinSet) (l : Nat) : x.word l = x.image l := by
  have hd := x.d.isLt
  apply BitVec.eq_of_toNat_eq
  rw [RejoinSet.image, BitVec.toNat_append, ← Nat.shiftLeft_add_eq_or_of_lt hd, RejoinSet.word, BitVec.toNat_ofNat]
  cases x.m.getLsbD l <;> cases x.fb <;> simp <;> omega

/-- What an image says of a set: FB and the depth. -/
def tellsOf (img : Nat → Word) (l : Nat) : Bool × BitVec 16 := ((img l).getLsbD 29, (img l).extractLsb' 0 16)

/-- The active lanes that an image makes members. -/
def joinsOf (act : Mask) (img : Nat → Word) : Mask := act &&& maskOf fun l => (img l).getLsbD 31

/-- A lane joins when it is active and bit 31 of its word is set. -/
theorem getLsbD_joinsOf (act : Mask) (img : Nat → Word) (l : Nat) : (joinsOf act img).getLsbD l = (act.getLsbD l && (img l).getLsbD 31) := by
  rw [joinsOf, BitVec.getLsbD_and, getLsbD_maskOf]
  cases h : act.getLsbD l with
  | false => rfl
  | true => simp [lane_lt h]

/-- The members of a set after an image is put back by the lanes `act`. -/
def RejoinSet.membersPut (x : RejoinSet) (act : Mask) (img : Nat → Word) : Mask := x.m &&& ~~~ act ||| joinsOf act img

/-- The lowest lane of a mask with a lane is in it. -/
theorem getLsbD_lowestLane {m : Mask} {l : Nat} (h : m.getLsbD l = true) : m.getLsbD (lowestLane m) = true := by
  rw [← mem_maskLanes] at h ⊢
  unfold lowestLane
  cases hm : maskLanes m with
  | nil => rw [hm] at h; simp at h
  | cons a as => exact List.mem_cons_self

/-- A mask with a lane is not empty. -/
theorem mask_ne_zero {m : Mask} {l : Nat} (h : m.getLsbD l = true) : m ≠ 0 := by
  rintro rfl
  rw [show BitVec.getLsbD (0 : Mask) l = false from BitVec.getLsbD_zero] at h
  exact absurd h (by decide)

/-- A mask that is not empty has a lane. -/
theorem exists_lane_of_ne_zero {m : Mask} (h : m ≠ 0) : ∃ l, m.getLsbD l = true := by
  by_contra hx
  refine h (BitVec.eq_of_getLsbD_eq fun l _ => ?_)
  rw [show BitVec.getLsbD (0 : Mask) l = false from BitVec.getLsbD_zero, Bool.eq_false_iff]
  exact fun hl => hx ⟨l, hl⟩

/-- An image is consistent when its members tell one FB and one depth, and those of the set when a member outside the active lanes stays (R52). -/
structure RejoinSet.Consistent (x : RejoinSet) (act : Mask) (img : Nat → Word) : Prop where
  same : ∀ k l, (joinsOf act img).getLsbD k = true → (joinsOf act img).getLsbD l = true → tellsOf img k = tellsOf img l
  agrees : x.m &&& ~~~ act ≠ 0 → ∀ l, (joinsOf act img).getLsbD l = true → tellsOf img l = (x.fb, x.d)

/-- The test that `RejoinSet.restore` makes of an image. -/
def RejoinSet.restoreTest (x : RejoinSet) (act : Mask) (img : Nat → Word) : Bool :=
  let mem := joinsOf act img
  ((maskLanes mem).all fun l => (img l).getLsbD 29 == (img (lowestLane mem)).getLsbD 29
      && (img l).setWidth 16 == (img (lowestLane mem)).setWidth 16)
    && (mem == 0 || x.m &&& ~~~ act == 0 || ((img (lowestLane mem)).getLsbD 29 == x.fb && (img (lowestLane mem)).setWidth 16 == x.d))

/-- Two words tell the same when their FB and their low sixteen bits agree. -/
theorem tellsOf_eq_iff (img : Nat → Word) (l : Nat) (b : Bool) (d : BitVec 16) :
    ((img l).getLsbD 29 == b && (img l).setWidth 16 == d) = true ↔ tellsOf img l = (b, d) := by
  rw [tellsOf, Prod.mk.injEq, Bool.and_eq_true, beq_iff_eq, beq_iff_eq, BitVec.setWidth_eq_extractLsb' (by omega)]

/-- The test passes for consistent images alone. -/
theorem RejoinSet.restoreTest_iff (x : RejoinSet) (act : Mask) (img : Nat → Word) : x.restoreTest act img = true ↔ x.Consistent act img := by
  have hlow : tellsOf img (lowestLane (joinsOf act img)) =
      ((img (lowestLane (joinsOf act img))).getLsbD 29, (img (lowestLane (joinsOf act img))).setWidth 16) :=
    (tellsOf_eq_iff img _ _ _).1 (by simp)
  unfold RejoinSet.restoreTest
  simp only [Bool.and_eq_true (List.all _ _), List.all_eq_true, mem_maskLanes, tellsOf_eq_iff, ← hlow, Bool.or_eq_true, beq_iff_eq]
  constructor
  · rintro ⟨hall, hag⟩
    refine ⟨fun k l hk hl => (hall k hk).trans (hall l hl).symm, fun hkeep l hl => (hall l hl).trans ?_⟩
    exact hag.resolve_left fun h => h.elim (mask_ne_zero hl) hkeep
  · rintro ⟨hsame, hag⟩
    refine ⟨fun l hl => hsame l _ hl (getLsbD_lowestLane hl), ?_⟩
    by_cases hmem : joinsOf act img = 0
    · exact .inl (.inl hmem)
    · by_cases hkeep : x.m &&& ~~~ act = 0
      · exact .inl (.inr hkeep)
      · obtain ⟨l, hl⟩ := exists_lane_of_ne_zero hmem
        exact .inr (hag hkeep _ (getLsbD_lowestLane hl))

/-- The set that a consistent image gives: empty without a member, what the image tells when it was empty, else its own FB and depth (R52). -/
def RejoinSet.put (x : RejoinSet) (act : Mask) (img : Nat → Word) (v : Bool × BitVec 16) : RejoinSet :=
  if x.membersPut act img = 0 then .empty
  else if x.m = 0 then ⟨x.membersPut act img, 0, v.1, if v.1 then v.2 else 0⟩
  else { x with m := x.membersPut act img }

/-- An inconsistent image restores nothing. -/
theorem RejoinSet.restore_eq_none {x : RejoinSet} {act : Mask} {img : Nat → Word} (h : ¬ x.Consistent act img) : x.restore act img = none :=
  if_neg fun ht => h ((x.restoreTest_iff act img).1 ht)

/-- A consistent image whose members tell `v` restores the set that takes `v`. -/
theorem RejoinSet.restore_eq_some {x : RejoinSet} {act : Mask} {img : Nat → Word} {v : Bool × BitVec 16} (h : x.Consistent act img)
    (hv : ∀ l, (joinsOf act img).getLsbD l = true → tellsOf img l = v) : x.restore act img = some (x.put act img v) := by
  refine (if_pos ((x.restoreTest_iff act img).2 h)).trans ?_
  change (if x.membersPut act img = 0 then some RejoinSet.empty else if x.m = 0 then some _ else some _) = _
  unfold RejoinSet.put
  by_cases hm : x.membersPut act img = 0
  · rw [if_pos hm, if_pos hm]
  · rw [if_neg hm, if_neg hm]
    by_cases hx : x.m = 0
    · have hmem : joinsOf act img ≠ 0 := by
        intro h0
        exact hm (by rw [RejoinSet.membersPut, hx, h0]; simp)
      obtain ⟨l, hl⟩ := exists_lane_of_ne_zero hmem
      have hlow := hv _ (getLsbD_lowestLane hl)
      rw [if_pos hx, if_pos hx, ← hlow, tellsOf, ← BitVec.setWidth_eq_extractLsb' (by omega)]
      rfl
    · rw [if_neg hx, if_neg hx]; rfl

/-! ## JGET and JPUT (R52, R334) -/

/-- An image tells the set's own FB and depth. -/
theorem RejoinSet.tellsOf_image (x : RejoinSet) (l : Nat) : tellsOf x.image l = (x.fb, x.d) := by
  rw [tellsOf, RejoinSet.image, BitVec.extractLsb'_append_eq_right, Prod.mk.injEq]
  refine ⟨?_, rfl⟩
  simp only [BitVec.getLsbD_append]
  simp

/-- The lanes that join by the image of a set are its active members. -/
theorem RejoinSet.membersPut_image (x : RejoinSet) (act : Mask) : x.membersPut act x.image = x.m := by
  apply BitVec.eq_of_getLsbD_eq
  intro l hl
  have hbit : (x.image l).getLsbD 31 = x.m.getLsbD l := by
    simp only [RejoinSet.image, BitVec.getLsbD_append]
    simp
  rw [RejoinSet.membersPut, BitVec.getLsbD_or, getLsbD_joinsOf, hbit, BitVec.getLsbD_and, BitVec.getLsbD_not]
  cases act.getLsbD l <;> simp [hl]

/-- Putting back what was got restores a set with members (R52). -/
theorem RejoinSet.restore_image {x : RejoinSet} (act : Mask) (h : x.m ≠ 0) : x.restore act x.image = some x := by
  have htells : ∀ l, tellsOf x.image l = (x.fb, x.d) := x.tellsOf_image
  rw [RejoinSet.restore_eq_some ⟨fun k l _ _ => (htells k).trans (htells l).symm, fun _ l _ => htells l⟩ fun l _ => htells l,
    RejoinSet.put, x.membersPut_image, if_neg h, if_neg h]

/-- JPUT with a consistent image shrinks or grows the set to what the image gives. -/
theorem exec_jput {s : State} {c : Ctl} {a : Reg} {j : SetNo} {y : RejoinSet} (hn : s.cur.nameable a = true) (ha : s.act c ≠ 0)
    (h : (s.setNo j.toNat).restore (s.act c) (s.rd a) = some y) : exec (.jput c j a) s = .next ((s.advance c).shrinkSet j y) := by
  have h' : (s.setAt j).restore (s.act c) (s.rd a) = some y := h
  change execJput c j a s = _
  simp only [execJput, hn, ha, h', Bool.not_true, Bool.false_eq_true, if_false, State.deadlockTest_shrinkSet ha]

/-- JPUT with an inconsistent image raises the orphaned-set fault with detail 3. -/
theorem exec_jput_inconsistent {s : State} {c : Ctl} {a : Reg} {j : SetNo} (hn : s.cur.nameable a = true) (ha : s.act c ≠ 0)
    (h : ¬ (s.setNo j.toNat).Consistent (s.act c) (s.rd a)) : exec (.jput c j a) s = .next (s.orphanTrap (s.act c) 3 j) := by
  have h' : (s.setAt j).restore (s.act c) (s.rd a) = none := RejoinSet.restore_eq_none h
  change execJput c j a s = _
  simp only [execJput, hn, ha, h', Bool.not_true, Bool.false_eq_true, if_false]

/-- The members after JPUT: an active lane as bit 31 of its word says, any other as it was. -/
theorem RejoinSet.membersPut_eq_maskOf (x : RejoinSet) (act : Mask) (img : Nat → Word) :
    x.membersPut act img = maskOf fun l => if act.getLsbD l then (img l).getLsbD 31 else x.m.getLsbD l := by
  apply BitVec.eq_of_getLsbD_eq
  intro l hl
  rw [RejoinSet.membersPut, BitVec.getLsbD_or, getLsbD_joinsOf, getLsbD_maskOf, BitVec.getLsbD_and, BitVec.getLsbD_not]
  cases act.getLsbD l <;> simp [hl]

/-- The members of the set that JPUT leaves. -/
theorem RejoinSet.put_m (x : RejoinSet) (act : Mask) (img : Nat → Word) (v : Bool × BitVec 16) : (x.put act img v).m = x.membersPut act img := by
  unfold RejoinSet.put
  split
  · next h => rw [h]; rfl
  · split <;> rfl

/-- The set that JPUT leaves, with the waiting lanes that are still members. -/
theorem RejoinSet.norm_put (x : RejoinSet) (act : Mask) (img : Nat → Word) (v : Bool × BitVec 16) :
    RejoinSet.norm { x.put act img v with w := (x.put act img v).w &&& (x.put act img v).m } =
      if x.membersPut act img = 0 then ⟨0, 0, false, 0⟩
      else if x.m = 0 then ⟨x.membersPut act img, 0, v.1, if v.1 then v.2 else 0⟩
      else ⟨x.membersPut act img, x.w &&& x.membersPut act img, x.fb, x.d⟩ := by
  unfold RejoinSet.put RejoinSet.norm
  by_cases hm : x.membersPut act img = 0
  · simp [hm, RejoinSet.empty]
  · by_cases hx : x.m = 0
    · simp only [hm, hx, if_false, if_true]
      rw [show (0 : Mask) &&& x.membersPut act img = 0 from BitVec.zero_and]
    · simp only [hm, hx, if_false]

/-- A member outside the active lanes stays when the set has a lane that is not active. -/
theorem keeps_ne_zero_iff (s : State) (c : Ctl) (x : RejoinSet) :
    x.m &&& ~~~ s.act c ≠ 0 ↔ ∃ l < 128, s.active c l = false ∧ x.m.getLsbD l = true := by
  have hbit : ∀ l, (x.m &&& ~~~ s.act c).getLsbD l = true ↔ l < 128 ∧ s.active c l = false ∧ x.m.getLsbD l = true := by
    intro l
    rw [BitVec.getLsbD_and, BitVec.getLsbD_not, State.active]
    simp only [Bool.and_eq_true, decide_eq_true_eq, Bool.not_eq_true']
    tauto
  constructor
  · intro h
    obtain ⟨l, hl⟩ := exists_lane_of_ne_zero h
    exact ⟨l, (hbit l).1 hl⟩
  · rintro ⟨l, hl⟩
    exact mask_ne_zero ((hbit l).2 hl)

/-- Settles O33: JGET commits the image, JPUT restores from it, and the image of a set with members is consistent. -/
theorem rejoinImageResults : Obligations.RejoinImageResults := by
  intro s c j d a fb depth x image joins tells stays m y sets unparks
  have hjoin : ∀ l, (joinsOf (s.act c) (s.rd a)).getLsbD l = true ↔ joins l := by
    intro l; rw [getLsbD_joinsOf, Bool.and_eq_true]; rfl
  have hstays : x.m &&& ~~~ s.act c ≠ 0 ↔ stays := keeps_ne_zero_iff s c x
  refine ⟨fun hr => ?_, fun hn ha hsame hkeep => ?_, fun ht hn hbad => ?_, fun act hx => RejoinSet.restore_image act hx⟩
  · refine State.yields_of_commit (.g (lanesOf (s.setAt j).word)) rfl hr (by simp) fun l hl => ?_
    rw [← show (s.setAt j).image l = image l from rfl, ← RejoinSet.word_eq_image]
    simp [VReg.lane, hl]
  · have hv : ∀ l, (joinsOf (s.act c) (s.rd a)).getLsbD l = true → tellsOf (s.rd a) l = (fb, depth) :=
      fun l hl => hsame l (lane_lt hl) ((hjoin l).1 hl)
    have hcons : x.Consistent (s.act c) (s.rd a) :=
      ⟨fun k l hk hl => (hv k hk).trans (hv l hl).symm, fun h l hl => hkeep (hstays.1 h) l (lane_lt hl) ((hjoin l).1 hl)⟩
    have hm : x.membersPut (s.act c) (s.rd a) = m := RejoinSet.membersPut_eq_maskOf _ _ _
    have hspec := s.shrinkSet_rejoins c j (x.put (s.act c) (s.rd a) (fb, depth))
    rw [RejoinSet.norm_put, RejoinSet.put_m, hm] at hspec
    exact ⟨_, exec_jput hn ha (RejoinSet.restore_eq_some hcons hv), hspec⟩
  · have hcons : ¬ x.Consistent (s.act c) (s.rd a) := by
      rintro ⟨hsame, hag⟩
      rcases hbad with ⟨k, -, l, -, hk, hl, hne⟩ | ⟨hst, l, -, hl, hne⟩
      · exact hne (hsame k l ((hjoin k).2 hk) ((hjoin l).2 hl))
      · exact hne (hag (hstays.2 hst) l ((hjoin l).2 hl))
    have ha : s.act c ≠ 0 := by
      rcases hbad with ⟨k, -, -, -, hk, -⟩ | ⟨-, k, -, hk, -⟩ <;> exact mask_ne_zero hk.1
    have hj := j.isLt
    exact ⟨_, exec_jput_inconsistent hn ha hcons, ht.trapP_enters _ _ _ _ _ (by omega) (by omega)⟩

end Sys2Proof.Machine
end

section
/-! PROOFS. What a write leaves in the register file, and the G slots that writes take and give back (R58, R60). -/

namespace Sys2Proof.Machine

/-! ## The register file after a commit -/

/-- Advancing changes no register. -/
@[simp] theorem State.reg_advance (s : State) (c : Ctl) (r : Reg) : (s.advance c).reg r = s.reg r := by
  obtain ⟨-, hframe, -, -⟩ := State.moveLanes_spec s c fun _ => s.next c
  exact hframe.regs r (by simp)

/-- Counting changes nothing of the warp. -/
@[simp] theorem State.cur_count (s : State) (c : Ctl) (n : Counts) : (s.count c n).cur = s.cur := by
  rw [State.count, (State.countFor_spec s s.cur.wg (tidOf c) n).1]

/-- A whole write of a value that is not G leaves that value (R58). -/
theorem mergeWrite_whole {live act : Mask} {v : VReg} (old : VReg) (hw : wholeWrite live act = true) (hv : v.isG = false) :
    mergeWrite live act old v = v := by
  simp only [mergeWrite, hw, hv, if_true, Bool.false_eq_true, if_false]

/-- A write of every lane that is not Exited is whole. -/
theorem wholeWrite_self (live : Mask) : wholeWrite live live = true := by
  rw [wholeWrite, BitVec.and_not_self]
  rfl

/-- A U register is not G. -/
theorem VReg.isG_of_isU {v : VReg} (h : v.isU = true) : v.isG = false := by cases v <;> simp_all [VReg.isU, VReg.isG]

/-- A G register is not U. -/
theorem VReg.isU_of_isG {v : VReg} (h : v.isG = true) : v.isU = false := by
  by_contra hU
  rw [VReg.isG_of_isU (Bool.not_eq_false _ ▸ hU)] at h
  exact absurd h (by decide)

/-- A register that is not the record register holds the merged value after a write at issue. -/
theorem Arch.vreg_write_of_not_record {s : State} {d : Reg} (live act : Mask) (v : VReg) (hd : s.isRecord d = false) :
    (s.cur.arch.write live act ⟨d, v⟩).vreg d = mergeWrite live act (s.reg d) v := by
  refine Arch.vreg_write_self live act s.cur.arch ⟨d, v⟩ ?_
  cases hh : s.cur.arch.handler with
  | none => exact .inl rfl
  | some h => exact .inr (by simpa [State.isRecord, Warp.inHandler, hh] using hd)

/-- A commit whose bindings fit writes its results, raises its counts and advances. -/
theorem State.commit_eq {s : State} {c : Ctl} {names : List Reg} {ws : List RegWrite} (ps : List (PReg × Mask)) (n : Counts)
    (hn : ∀ r ∈ names, s.cur.nameable r = true) (ha : s.act c ≠ 0) (hfit : s.cur.overflow (s.act c) ws = none) :
    s.commit c names ws ps n = (State.count { s with cur := { s.cur with
      arch := (ps.foldl (fun a p => a.writePred (s.act c) p.1 p.2) (ws.foldl (fun a x => a.write s.cur.live (s.act c) x) s.cur.arch)) } } c n).advance c := by
  simp only [State.commit, List.all_eq_true.2 hn, Bool.not_true, Bool.false_eq_true, if_false, ha, hfit]

/-- A whole write of one result that is not G leaves it in its register. -/
theorem State.reg_commit_whole {s : State} {c : Ctl} {names : List Reg} {d : Reg} {v : VReg} (n : Counts) (hr : s.Ready c names [d] true)
    (hw : wholeWrite s.cur.live (s.act c) = true) (hd : s.isRecord d = false) (hv : v.isG = false) :
    (s.commit c names [⟨d, v⟩] [] n).reg d = v := by
  rw [State.commit_eq [] n hr.named hr.some (hr.fits [⟨d, v⟩] rfl (by simpa using hv)), State.reg_advance, State.reg, State.cur_count]
  exact (Arch.vreg_write_of_not_record _ _ v hd).trans (mergeWrite_whole _ hw hv)

/-! ## The slots that a list of writes takes (R60) -/

/-- The register that a write meets in the file. -/
def Warp.filed (w : Warp) (r : Reg) : VReg := w.arch.vregs.getD r.toNat (.u 0)

/-- A write leaves its register G. -/
def Warp.leavesG (w : Warp) (act : Mask) (x : RegWrite) : Bool := (mergeWrite w.live act (w.filed x.reg) x.val).isG

/-- The writes of registers of the file: in handler mode the record register is none (R232). -/
def Warp.fileWrites (w : Warp) (ws : List RegWrite) : List RegWrite := if w.inHandler then ws.filter fun x => x.reg != 60 else ws

/-- The writes that take a slot. -/
def Warp.binds (w : Warp) (act : Mask) (ws : List RegWrite) : List RegWrite :=
  (w.fileWrites ws).filter fun x => w.leavesG act x && !(w.filed x.reg).isG

/-- The writes that give a slot back. -/
def Warp.frees (w : Warp) (act : Mask) (ws : List RegWrite) : List RegWrite :=
  (w.fileWrites ws).filter fun x => !w.leavesG act x && (w.filed x.reg).isG

/-- The overflow of a list of writes, by the slots they take and give back. -/
theorem Warp.overflow_eq (w : Warp) (act : Mask) (ws : List RegWrite) : w.overflow act ws =
    if w.arch.gCount + (w.binds act ws).length - (w.frees act ws).length > w.hdr.gmax then
      (((List.range 64).filter fun r => (w.binds act ws).any fun x => x.reg.toNat == r)[w.hdr.gmax - w.arch.gCount]?).map fun r => BitVec.ofNat 6 r
    else none := rfl

/-- Which writes take a slot. -/
theorem Warp.mem_binds {w : Warp} {act : Mask} {ws : List RegWrite} {x : RegWrite} : x ∈ w.binds act ws ↔
    x ∈ ws ∧ (w.inHandler = true → x.reg ≠ 60) ∧ w.leavesG act x = true ∧ (w.filed x.reg).isG = false := by
  unfold Warp.binds Warp.fileWrites
  cases w.inHandler with
  | false => simp
  | true => simp only [if_true, List.mem_filter, bne_iff_ne, Bool.and_eq_true, Bool.not_eq_true', forall_const, and_assoc]

/-- No more slots are taken than registers written. -/
theorem Warp.length_binds_le (w : Warp) (act : Mask) (ws : List RegWrite) : (w.binds act ws).length ≤ ws.length := by
  refine le_trans (List.length_filter_le _ _) ?_
  unfold Warp.fileWrites
  split
  · exact List.length_filter_le _ _
  · exact le_rfl

/-- Writes that take no slot, or no more than are free, overflow nothing. -/
theorem Warp.overflow_eq_none {w : Warp} {act : Mask} {ws : List RegWrite}
    (h : w.binds act ws = [] ∨ w.arch.gCount + (w.binds act ws).length ≤ w.hdr.gmax) : w.overflow act ws = none := by
  rw [Warp.overflow_eq]
  rcases h with h | h
  · simp [h]
  · rw [if_neg (by omega)]

/-- One result finds room when its write is whole and it is not G, or when the G slots leave room. -/
theorem State.overflow_single_eq_none {s : State} {act : Mask} {d : Reg} {v : VReg}
    (h : (wholeWrite s.cur.live act = true ∧ v.isG = false) ∨ s.HasRoom [d]) : s.cur.overflow act [⟨d, v⟩] = none := by
  apply Warp.overflow_eq_none
  by_cases hb : s.cur.binds act [⟨d, v⟩] = []
  · exact .inl hb
  · right
    obtain ⟨x, hx⟩ := List.exists_mem_of_ne_nil _ hb
    obtain ⟨hmem, h60, hG, hold⟩ := Warp.mem_binds.1 hx
    obtain rfl : x = ⟨d, v⟩ := by simpa using hmem
    rcases h with ⟨hw, hv⟩ | hroom
    · rw [Warp.leavesG, mergeWrite_whole _ hw hv, hv] at hG
      exact absurd hG (by decide)
    · have hrec : s.isRecord d = false := by
        cases hi : s.cur.inHandler with
        | false => simp [State.isRecord, hi]
        | true => simpa [State.isRecord, hi] using h60 hi
      have hone : s.cur.arch.gCount + 1 ≤ s.cur.hdr.gmax := by
        simpa only [State.HasRoom, List.filter_cons, List.filter_nil, show (s.cur.arch.vregs.getD d.toNat (.u 0)).isG = false from hold, hrec,
          Bool.not_false, Bool.and_self, if_true, List.length_cons, List.length_nil] using hroom
      exact le_trans (Nat.add_le_add_left (s.cur.length_binds_le act [⟨d, v⟩]) _) hone

end Sys2Proof.Machine
end

section
/-! PROOFS. The affine rows of R59 (O19). -/

namespace Sys2Proof.Machine

/-! ## The affine rows (R59) -/

/-- The sum or the difference of two U or A registers. -/
theorem affSum_eq {va vb : VReg} {x y : Word × Word} (sub : Bool) (ha : va.affine = some x) (hb : vb.affine = some y) :
    affSum sub va vb = some (mkAffine (va.isU && vb.isU) (if sub then x.1 - y.1 else x.1 + y.1) (if sub then x.2 - y.2 else x.2 + y.2)) := by
  simp only [affSum, ha, hb]

/-- A U or A register scaled by a U register. -/
theorem affScale_eq {va : VReg} {x : Word × Word} (f : Word → Word → Word) (k : Word) (ha : va.affine = some x) :
    affScale f va (.u k) = some (mkAffine va.isU (f x.1 k) (f x.2 k)) := by
  simp only [affScale, ha]

/-- The product of a U or A register with a U register, and a U or A addend. -/
theorem affMad_eq {va vc : VReg} {x z : Word × Word} (k : Word) (ha : va.affine = some x) (hc : vc.affine = some z) :
    affMad va (.u k) vc = some (mkAffine (va.isU && vc.isU) (x.1 * k + z.1) (x.2 * k + z.2)) := by
  simp only [affMad, ha, hc]

/-- The negation of a U or A register. -/
theorem affNeg_eq {va : VReg} {x : Word × Word} (ha : va.affine = some x) : affNeg va = some (mkAffine va.isU (-x.1) (-x.2)) := by
  simp only [affNeg, ha, Option.map_some]

/-- A left shift of a word by a count: 0 from 32 on (R354). -/
theorem ofNat_shlN (x k : Word) : BitVec.ofNat 32 (shlN 32 x.toNat k.toNat) = x <<< k.toNat := by
  apply BitVec.eq_of_toNat_eq
  rw [BitVec.toNat_ofNat, BitVec.toNat_shiftLeft, Nat.shiftLeft_eq, shlN]
  split
  · next h =>
    obtain ⟨m, hm⟩ := Nat.exists_eq_add_of_le h
    rw [hm, Nat.pow_add, Nat.mul_left_comm, Nat.mul_mod_right]
  · rw [Nat.mod_mod]

/-- A U or A register is not G. -/
theorem isG_of_affine {v : VReg} {x : Word × Word} (h : v.affine = some x) : v.isG = false := by
  cases v <;> simp_all [VReg.affine, VReg.isG]

/-- An instruction without SAT that takes an affine row leaves what the row names. -/
theorem State.completes_affine {s : State} {i : Instr} {c : Ctl} {names : List Reg} {d : Reg} {o : Option VReg} {g : VReg} {u : Bool} {b st : Word}
    {n : Counts} (he : exec i s = .next (s.commit c names [⟨d, o.getD g⟩] [] n)) (ho : o = some (mkAffine u b st)) (hr : s.Ready c names [d] true)
    (hw : wholeWrite s.cur.live (s.act c) = true) (hd : s.isRecord d = false) : s.Completes i fun t => t.reg d = mkAffine u b st := by
  subst ho
  exact ⟨_, he, State.reg_commit_whole n hr hw hd (mkAffine_isG u b st)⟩

/-- Settles O19: each row's affine shape is committed, and `MOV` commits its source. -/
theorem affineShapes : Obligations.AffineShapes := by
  intro s c un d a b e x y z k val aff m gives hx
  refine ⟨fun hy => ⟨?_, ?_⟩, ?_, fun hk => ⟨?_, ?_⟩, fun hk hz => ?_, ?_⟩
  · exact State.completes_affine rfl (affSum_eq false hx hy)
  · exact State.completes_affine rfl (affSum_eq true hx hy)
  · exact State.completes_affine rfl (affNeg_eq hx)
  · refine State.completes_affine rfl (?_ : affScale (· * ·) (s.reg a) (s.reg b) = _)
    rw [hk, affScale_eq _ _ hx]
  · refine State.completes_affine rfl (?_ : affScale (fun x y => BitVec.ofNat 32 (shlN 32 x.toNat y.toNat)) (s.reg a) (s.reg b) = _)
    rw [hk, affScale_eq _ _ hx, ofNat_shlN, ofNat_shlN]
  · refine State.completes_affine rfl (?_ : affMad (s.reg a) (s.reg b) (s.reg e) = _)
    rw [hk, affMad_eq _ hx hz]
  · exact fun hr hw hd => ⟨_, rfl, State.reg_commit_whole .zero hr hw hd (isG_of_affine hx)⟩

end Sys2Proof.Machine
end

section
/-! PROOFS. `SHAPE` and `UNIF`, which write a register whole under any guard (O25). -/

namespace Sys2Proof.Machine

/-! ## The value of UNIF (R62) -/

/-- A mask's lanes ascend. -/
theorem maskLanes_pairwise (m : Mask) : (maskLanes m).Pairwise (· < ·) := List.pairwise_lt_range.filter _

/-- The first of a mask's lanes is the lowest. -/
theorem head_le_of_mem_maskLanes {m : Mask} {l0 l : Nat} {rest : List Nat} (h : maskLanes m = l0 :: rest) (hl : m.getLsbD l = true) : l0 ≤ l := by
  have hp := maskLanes_pairwise m
  rw [← mem_maskLanes, h, List.mem_cons] at hl
  rw [h, List.pairwise_cons] at hp
  rcases hl with rfl | hl
  · exact le_rfl
  · exact (hp.1 l hl).le

/-- The A register through `x` in lane l0 with stride st holds `x + st * (l - l0)` in every later lane l. -/
theorem lane_of_stride (x : Word) (st : Nat) {l0 l : Nat} (h : l0 ≤ l) :
    (VReg.a (x - BitVec.ofNat 32 (st * l0)) (BitVec.ofNat 32 st)).lane l = BitVec.ofNat 32 ((x.toNat + st * (l - l0)) % 2 ^ 32) := by
  obtain ⟨k, rfl⟩ := Nat.exists_eq_add_of_le h
  have hk : l0 + k - l0 = k := by omega
  have hmod : BitVec.ofNat 32 ((x.toNat + st * k) % 2 ^ 32) = x + BitVec.ofNat 32 (st * k) := by
    apply BitVec.eq_of_toNat_eq
    simp [BitVec.toNat_add]
  rw [hk, hmod, VReg.lane, BitVec.ofNat_add, BitVec.ofNat_mul, BitVec.ofNat_mul]
  ring

/-- What `UNIF` gives (R62): U when the lanes agree, A with a stride that fits them all, or the values themselves. -/
theorem unifVal_cases {live : Mask} {v : VReg} {l0 : Nat} {rest : List Nat} (h : maskLanes live = l0 :: rest) :
    ((∀ l, live.getLsbD l = true → v.lane l = v.lane l0) ∧ unifVal live v = .u (v.lane l0))
    ∨ ((¬∀ l, live.getLsbD l = true → v.lane l = v.lane l0) ∧
      ((∃ st, (∀ l, live.getLsbD l = true → v.lane l = BitVec.ofNat 32 (((v.lane l0).toNat + st * (l - l0)) % 2 ^ 32))
          ∧ unifVal live v = .a (v.lane l0 - BitVec.ofNat 32 (st * l0)) (BitVec.ofNat 32 st))
        ∨ unifVal live v = .g (lanesOf v.lane))) := by
  have hall : ((l0 :: rest).all fun l => (v.lane l).toNat == (v.lane l0).toNat) = true ↔ ∀ l, live.getLsbD l = true → v.lane l = v.lane l0 := by
    simp only [← h, List.all_eq_true, mem_maskLanes, beq_iff_eq, BitVec.toNat_inj]
  by_cases hu : ∀ l, live.getLsbD l = true → v.lane l = v.lane l0
  · refine .inl ⟨hu, ?_⟩
    simp only [unifVal, h, hall.2 hu, if_true]
  · refine .inr ⟨hu, ?_⟩
    have hne : ((l0 :: rest).all fun l => (v.lane l).toNat == (v.lane l0).toNat) = false := Bool.eq_false_iff.2 fun ht => hu (hall.1 ht)
    cases rest with
    | nil => simp at hne
    | cons l1 rest =>
      simp only [unifVal, h, hne, Bool.false_eq_true, if_false]
      split
      · exact .inr rfl
      · split
        · next hfit =>
          refine .inl ⟨_, fun l hl => BitVec.eq_of_toNat_eq ?_, rfl⟩
          rw [← mem_maskLanes, h] at hl
          rw [beq_iff_eq.1 (List.all_eq_true.1 hfit l hl), BitVec.toNat_ofNat, Nat.mod_mod]
        · exact .inr rfl

/-- `UNIF` keeps the value of every lane that is not Exited (R62). -/
theorem unifVal_lane {live : Mask} (v : VReg) {l : Nat} (hl : live.getLsbD l = true) : (unifVal live v).lane l = v.lane l := by
  cases h : maskLanes live with
  | nil => rw [← mem_maskLanes, h] at hl; simp at hl
  | cons l0 rest =>
    rcases unifVal_cases (v := v) h with ⟨hu, he⟩ | ⟨-, ⟨st, hst, he⟩ | he⟩
    · rw [he, hu l hl]; rfl
    · rw [he, lane_of_stride _ _ (head_le_of_mem_maskLanes h hl), hst l hl]
    · rw [he, VReg.lane_lanesOf _ l (lane_lt hl)]

/-- Lanes that hold one value make the result of `UNIF` U (R62). -/
theorem unifVal_isU {live : Mask} {v : VReg} {x : Word} (hlive : live ≠ 0) (hx : ∀ l, live.getLsbD l = true → v.lane l = x) :
    (unifVal live v).isU = true := by
  cases h : maskLanes live with
  | nil =>
    obtain ⟨l, hl⟩ := exists_lane_of_ne_zero hlive
    rw [← mem_maskLanes, h] at hl
    simp at hl
  | cons l0 rest =>
    have hl0 : live.getLsbD l0 = true := by rw [← mem_maskLanes, h]; exact List.mem_cons_self
    rcases unifVal_cases (v := v) h with ⟨-, he⟩ | ⟨hu, -⟩
    · rw [he]; rfl
    · exact absurd (fun l hl => (hx l hl).trans (hx l0 hl0).symm) hu

/-! ## A write under any guard, and the advance -/

/-- The split of a warp whose lanes and handler mask and PC stand. -/
theorem Warp.splitAt_congr {w : Warp} {a : Arch} (pc : DWord) (hl : a.lanes = w.arch.lanes)
    (hh : a.handler.map (fun h => (h.mask, h.pc)) = w.arch.handler.map fun h => (h.mask, h.pc)) : Warp.splitAt { w with arch := a } pc = w.splitAt pc := by
  have hlane : ∀ l, Warp.lane { w with arch := a } l = w.lane l := fun l => by simp only [Warp.lane, Arch.lane, hl]
  unfold Warp.splitAt
  cases hw : w.arch.handler with
  | none =>
    have ha : a.handler = none := by simpa [hw] using hh
    simp only [ha, hlane]
  | some y =>
    obtain ⟨x, ha, hmask, hpc⟩ : ∃ x, a.handler = some x ∧ x.mask = y.mask ∧ x.pc = y.pc := by simpa [hw] using hh
    simp only [ha, hmask, hpc]

/-- The state whose warp has written one register, whichever lanes the write is of. -/
def State.written (s : State) (act : Mask) (x : RegWrite) : State := { s with cur := { s.cur with arch := s.cur.arch.write s.cur.live act x } }

/-- A write changes no lane. -/
theorem State.lane_written (s : State) (act : Mask) (x : RegWrite) (l : Nat) : (s.written act x).cur.lane l = s.cur.lane l := by
  simp only [State.written, Warp.lane, Arch.lane, (Arch.write_rest s.cur.live act s.cur.arch x).1]

/-- After a write the split advances as it would have. -/
theorem State.advanced_written (s : State) (c : Ctl) (act : Mask) (x : RegWrite) : s.Advanced ((s.written act x).advance c) c := by
  obtain ⟨hlanes, -, -, hhandler⟩ := Arch.write_rest s.cur.live act s.cur.arch x
  have hin : (s.written act x).cur.inHandler = s.cur.inHandler := by simpa [Warp.inHandler, State.written] using congrArg Option.isSome hhandler
  have hsplit : (s.written act x).split = s.split := by
    refine Warp.splitAt_congr s.ipc hlanes ?_
    simpa [Option.map_map, Function.comp_def] using congrArg (Option.map fun y : Mask × DWord × DWord × Option HandlerBlock => (y.1, y.2.1)) hhandler
  obtain ⟨hl, hh⟩ := State.Moved.advanced (State.moveLanes_spec (s.written act x) c fun _ => (s.written act x).next c).1
  rw [hin, hsplit] at hl
  refine ⟨fun l hlt => (hl l hlt).trans (by rw [State.lane_written]; rfl), hh.trans ?_⟩
  change (s.written act x).cur.arch.handler.map (fun _ => s.next c) = _
  simpa [State.written, Option.map_map, Function.comp_def] using congrArg (Option.map fun _ => s.next c) hhandler

/-- A write and the advance change the register, the PCs and the marks of YH, and nothing else. -/
theorem State.regFrame_written (s : State) (c : Ctl) (act : Mask) (x : RegWrite) : s.RegFrame ((s.written act x).advance c) [x.reg] [] := by
  obtain ⟨-, hpreds, hsets, hhandler⟩ := Arch.write_rest s.cur.live act s.cur.arch x
  obtain ⟨-, hf, hfsets, -⟩ := State.moveLanes_spec (s.written act x) c fun _ => (s.written act x).next c
  have hcur := State.moveLanes_cur (s.written act x) c fun _ => (s.written act x).next c
  have hmoved := State.moveLanes_handler (s.written act x) c fun _ => (s.written act x).next c
  change s.RegFrame ((s.written act x).moveLanes c fun _ => (s.written act x).next c) [x.reg] []
  generalize (s.written act x).moveLanes c (fun _ => (s.written act x).next c) = t at hf hfsets hcur hmoved ⊢
  have hmem : t.mem = s.mem := (congrArg State.mem hf.rest :)
  have hwgs : t.wgs = s.wgs := (congrArg State.wgs hf.rest :)
  constructor
  · rw [hwgs]; exact hf.rest
  · intro a; rw [hmem]; exact ⟨rfl, rfl⟩
  · rw [hwgs]
  · rw [hcur]; rfl
  · intro r hr
    exact (hf.regs r (by simp)).trans (Arch.vreg_write_ne _ _ _ _ _ (by simpa using hr))
  · intro p _
    rw [hf.preds p]
    simp only [Warp.pred, State.written, hpreds]
  · exact hfsets.trans hsets
  · intro r hr
    exact (hf.failing r (by simp)).trans (Arch.write_bad _ _ _ _ _ (by simpa using hr))
  · intro l hl
    exact (hf.lanes l hl).trans (by rw [State.lane_written]; rfl)
  · rw [hmoved, Option.map_map]
    simpa [State.written, Option.map_map, Function.comp_def] using
      congrArg (Option.map fun y : Mask × DWord × DWord × Option HandlerBlock => (y.1, y.2.2.1, y.2.2.2)) hhandler

/-! ## SHAPE and UNIF (R62, R356) -/

/-- An instruction that writes a register whole, when its registers may be named and its result has room. -/
theorem commitWhole_eq {s : State} {c : Ctl} {names : List Reg} {d : Reg} {v : VReg} (hn : ∀ r ∈ names, s.cur.nameable r = true) (ha : s.act c ≠ 0)
    (hroom : v.isG = false ∨ s.HasRoom [d]) : commitWhole s c names ⟨d, v⟩ = (s.written s.cur.live ⟨d, v⟩).advance c := by
  have hfit : s.cur.overflow s.cur.live [⟨d, v⟩] = none :=
    State.overflow_single_eq_none (hroom.imp_left fun hv => ⟨wholeWrite_self _, hv⟩)
  simp only [commitWhole, List.all_eq_true.2 hn, Bool.not_true, Bool.false_eq_true, if_false, ha, hfit]
  rfl

/-- The register that such an instruction leaves, when it is not the record register. -/
theorem State.reg_written_whole {s : State} {c : Ctl} {d : Reg} {v : VReg} (hd : s.isRecord d = false) :
    ((s.written s.cur.live ⟨d, v⟩).advance c).reg d = mergeWrite s.cur.live s.cur.live (s.reg d) v := by
  rw [State.reg_advance]
  exact Arch.vreg_write_of_not_record _ _ v hd

/-- Settles O25: both write whole, `SHAPE` the tag code and `UNIF` what `unifVal` makes of the lanes that are not Exited. -/
theorem shapeAndUnifResults : Obligations.ShapeAndUnifResults := by
  intro s c d a does
  have hdoes : ∀ {i : Instr} {v : VReg} {fl : Bool} {P : State → Prop}, exec i s = .next (commitWhole s c [d, a] ⟨d, v⟩) →
      (fl = true → v.isG = false) → P ((s.written s.cur.live ⟨d, v⟩).advance c) → does i fl P := by
    intro i v fl P he hfl hP hn ha hroom
    rw [commitWhole_eq hn ha (hroom.imp_left hfl)] at he
    exact ⟨_, he, hP, State.advanced_written s c _ _, State.regFrame_written s c _ _⟩
  refine ⟨hdoes rfl (fun _ => rfl) fun hd => ?_, hdoes rfl (fun h => by simpa using h) fun hd => ⟨fun l hl hlive => ?_, fun hlive ⟨x, hx⟩ => ?_⟩⟩
  · rw [State.reg_written_whole hd, mergeWrite_whole _ (wholeWrite_self _) rfl]
  · rw [State.rd, State.reg_written_whole hd, mergeWrite_act _ _ _ _ l hl hlive, unifVal_lane _ hlive]
    rfl
  · have hU := unifVal_isU hlive fun l hl => hx l (lane_lt hl) hl
    rw [State.reg_written_whole hd, mergeWrite_whole _ (wholeWrite_self _) (VReg.isG_of_isU hU)]
    exact hU

end Sys2Proof.Machine
end

section
/-! PROOFS. The special registers, with the work identifiers of kernel launches and tasks (O35). -/

namespace Sys2Proof.Machine

/-! ## Work identifiers (R25, R26) -/

/-- The offset of the next field. -/
theorem Header.sumWidth_succ (h : Header) (k : Nat) : h.sumWidth 0 (k + 1) = h.sumWidth 0 k + h.width k := by
  simp [Header.sumWidth, List.range_succ]

/-- Field offsets ascend. -/
theorem Header.sumWidth_mono (h : Header) {i k : Nat} (hik : i ≤ k) : h.sumWidth 0 i ≤ h.sumWidth 0 k := by
  induction hik with
  | refl => exact le_rfl
  | step _ ih => exact ih.trans (by rw [Header.sumWidth_succ]; omega)

/-- S, the summed width of the fields below WGCUT (R25). -/
def Header.groupBits (h : Header) : Nat := h.sumWidth 0 h.wgcut

/-- The digits of a cluster index lie at or above the offset of the lowest of its fields. -/
theorem Header.pow_dvd_clusterBits (h : Header) {S : Nat} (k : Nat) : ∀ i q, S ≤ h.sumWidth 0 i → 2 ^ S ∣ h.clusterBits k i q := by
  induction k with
  | zero => intro i q _; exact dvd_zero _
  | succ k ih =>
    intro i q hS
    exact dvd_add (dvd_mul_of_dvd_right (pow_dvd_pow 2 hS) _) (ih (i + 1) _ (hS.trans (h.sumWidth_mono (by omega))))

/-- What the work identifiers of a warp have in common: the rank and the cluster of its workgroup. -/
def State.widBase (s : State) : Nat :=
  (((s.wgOf s.cur.wg).map (·.rank)).getD 0) * 2 ^ s.cur.hdr.groupBits
    + s.cur.hdr.clusterBits (6 - s.cur.hdr.clcut) s.cur.hdr.clcut (((s.wgOf s.cur.wg).map (·.cluster)).getD 0)

/-- The work identifier of a lane: its place in the workgroup below bit S, and the common part. -/
theorem State.widOf_eq (s : State) (l : Nat) : s.widOf l = (128 * s.cur.index + l) % 2 ^ s.cur.hdr.groupBits + s.widBase := Nat.add_assoc _ _ _

/-- The common part lies at or above bit S when the cluster's fields do. -/
theorem State.pow_dvd_widBase {s : State} (h : s.cur.hdr.wgcut ≤ s.cur.hdr.clcut) : 2 ^ s.cur.hdr.groupBits ∣ s.widBase :=
  dvd_add (dvd_mul_left _ _) (s.cur.hdr.pow_dvd_clusterBits _ _ _ (s.cur.hdr.sumWidth_mono h))

/-- A lane number below 128 is not carried when a number it is added to is a multiple of 128. -/
theorem add_lane_mod {S l : Nat} (i : Nat) (hS : 7 ≤ S) (hl : l < 128) : (128 * i + l) % 2 ^ S = 128 * i % 2 ^ S + l := by
  obtain ⟨k, rfl⟩ := Nat.exists_eq_add_of_le hS
  rw [Nat.pow_add, show 2 ^ 7 = 128 from rfl, Nat.mod_mul, Nat.mul_mod_mul_left, Nat.mul_add_mod, Nat.mod_eq_of_lt hl,
    Nat.mul_add_div (by omega), Nat.div_eq_of_lt hl, Nat.add_zero, Nat.add_comm]

/-- When S is 7 or more the work identifiers of a warp follow one another. -/
theorem State.widOf_add {s : State} {l : Nat} (hS : 7 ≤ s.cur.hdr.groupBits) (hl : l < 128) : s.widOf l = s.widOf 0 + l := by
  rw [State.widOf_eq, State.widOf_eq, add_lane_mod _ hS hl, Nat.add_zero]
  omega

/-- The work identifier of lane 0 is then a multiple of 128. -/
theorem State.dvd_widOf_zero {s : State} (hS : 7 ≤ s.cur.hdr.groupBits) (h : s.cur.hdr.wgcut ≤ s.cur.hdr.clcut) : 128 ∣ s.widOf 0 := by
  have h7 : 128 ∣ 2 ^ s.cur.hdr.groupBits := pow_dvd_pow 2 hS
  rw [State.widOf_eq, Nat.add_zero]
  exact dvd_add ((Nat.dvd_mod_iff h7).2 (dvd_mul_right _ _)) (h7.trans (State.pow_dvd_widBase h))

/-- Numbers that agree above bit k agree above every higher bit. -/
theorem div_pow_congr {x y k o : Nat} (h : x / 2 ^ k = y / 2 ^ k) (hk : k ≤ o) : x / 2 ^ o = y / 2 ^ o := by
  obtain ⟨m, rfl⟩ := Nat.exists_eq_add_of_le hk
  rw [Nat.pow_add, ← Nat.div_div_eq_div_mul, ← Nat.div_div_eq_div_mul, h]

/-- The work identifiers of a warp agree above bit S, and above bit 7 (R63). -/
theorem State.widOf_div {s : State} {l o : Nat} (hcut : s.cur.hdr.wgcut ≤ s.cur.hdr.clcut) (ho : s.cur.hdr.groupBits ≤ o ∨ 7 ≤ o) (hl : l < 128) :
    s.widOf l / 2 ^ o = s.widOf 0 / 2 ^ o := by
  by_cases hS : s.cur.hdr.groupBits ≤ o
  · obtain ⟨X, hX⟩ := State.pow_dvd_widBase hcut
    refine div_pow_congr ?_ hS
    have hdiv : ∀ k, s.widOf k / 2 ^ s.cur.hdr.groupBits = X := fun k => by
      rw [State.widOf_eq, hX, Nat.add_mul_div_left _ _ (Nat.two_pow_pos _), Nat.div_eq_of_lt (Nat.mod_lt _ (Nat.two_pow_pos _)), Nat.zero_add]
    rw [hdiv, hdiv]
  · have h7 : 7 ≤ o := ho.resolve_left hS
    have hS7 : 7 ≤ s.cur.hdr.groupBits := by omega
    obtain ⟨Z, hZ⟩ := State.dvd_widOf_zero hS7 hcut
    refine div_pow_congr ?_ h7
    rw [State.widOf_add hS7 hl, hZ, show 2 ^ 7 = 128 from rfl]
    omega

/-! ## The fields of an identifier (R63) -/

/-- Field i of the work identifier of lane l. -/
def State.fieldOf (s : State) (i l : Nat) : Nat := bitsAt (s.widOf l) (s.cur.hdr.sumWidth 0 i) (s.cur.hdr.width i)

/-- A field is what the identifier holds from its offset on, modulo its width. -/
theorem State.fieldOf_eq (s : State) (i l : Nat) : s.fieldOf i l = s.widOf l / 2 ^ s.cur.hdr.sumWidth 0 i % 2 ^ s.cur.hdr.width i := by
  rw [State.fieldOf, bitsAt, Nat.shiftRight_eq_div_pow]

/-- A field at or above WGCUT, or at bit 7 or higher, is one number in the whole warp. -/
theorem State.fieldOf_uniform {s : State} {i l : Nat} (hcut : s.cur.hdr.wgcut ≤ s.cur.hdr.clcut)
    (h : s.cur.hdr.wgcut ≤ i ∨ 7 ≤ s.cur.hdr.sumWidth 0 i) (hl : l < 128) : s.fieldOf i l = s.fieldOf i 0 := by
  rw [State.fieldOf_eq, State.fieldOf_eq, State.widOf_div hcut (h.imp_left fun hi => s.cur.hdr.sumWidth_mono hi) hl]

/-- A field below WGCUT that starts at bit 0 and is 7 bits wide or more counts the lanes. -/
theorem State.fieldOf_add {s : State} {i l : Nat} (hcut : s.cur.hdr.wgcut ≤ s.cur.hdr.clcut) (hi : i < s.cur.hdr.wgcut)
    (ho : s.cur.hdr.sumWidth 0 i = 0) (hw : 7 ≤ s.cur.hdr.width i) (hl : l < 128) : s.fieldOf i l = s.fieldOf i 0 + l := by
  have hS : 7 ≤ s.cur.hdr.groupBits := by
    have hmono := s.cur.hdr.sumWidth_mono (show i + 1 ≤ s.cur.hdr.wgcut from hi)
    rw [Header.sumWidth_succ] at hmono
    exact hw.trans (by unfold Header.groupBits; omega)
  obtain ⟨Z, hZ⟩ := State.dvd_widOf_zero hS hcut
  rw [State.fieldOf_eq, State.fieldOf_eq, ho, Nat.pow_zero, Nat.div_one, Nat.div_one, State.widOf_add hS hl, hZ, add_lane_mod Z hw hl]

/-- The lanes of an identifier's low word are those of its value, when the value is uniform where the word is U and counts the lanes where it is A. -/
theorem fieldLow_lane {u a : Bool} {f : Nat → Nat} {l : Nat} (hl : l < 128) (hu : u = true → f l = f 0) (ha : u = false → a = true → f l = f 0 + l) :
    (fieldLow u a f).lane l = BitVec.ofNat 32 (f l) := by
  cases u with
  | true => rw [hu rfl]; rfl
  | false =>
    cases a with
    | true =>
      rw [ha rfl rfl, BitVec.ofNat_add]
      exact congrArg (BitVec.ofNat 32 (f 0) + ·) (BitVec.one_mul _)
    | false => exact VReg.lane_lanesOf _ l hl

/-- The low word of an identifier is not G where it is U or A. -/
theorem fieldLow_isG (u a : Bool) (f : Nat → Nat) : (fieldLow u a f).isG = !(u || a) := by cases u <;> cases a <;> rfl

/-! ## SREAD (R358) -/

/-- SREAD commits what the special register gives. -/
theorem exec_sread {s : State} {d : Reg} {n : Nat} {ws : List RegWrite} (c : Ctl) (hn : n < 256) (h : s.special d n = some ws) :
    exec (.sread c d (BitVec.ofNat 8 n)) s = .next (s.commit c (ws.map (·.reg)) ws [] .zero) := by
  change execSread c d (BitVec.ofNat 8 n) s = _
  rw [execSread, BitVec.toNat_ofNat, Nat.mod_eq_of_lt hn, h]

/-- The fields of the work identifier are registers 0x10 to 0x15. -/
theorem State.special_field {s : State} {i : Nat} (d : Reg) (hi : i < 6) : s.special d (16 + i) = some (
    if s.cur.task.isSome then sreadU d 0
    else sreadPair d (fieldLow (decide (s.cur.hdr.wgcut ≤ i) || decide (7 ≤ s.cur.hdr.sumWidth 0 i))
        (s.cur.hdr.sumWidth 0 i == 0 && decide (7 ≤ s.cur.hdr.width i)) (s.fieldOf i))
      (.u (BitVec.ofNat 32 (s.fieldOf i 0 / 2 ^ 32)))) := by
  interval_cases i <;> rfl

/-- The array capability words are registers 0x20 to 0x3F. -/
theorem State.special_acap {s : State} {j : Nat} (d : Reg) (hj : j < 32) : s.special d (32 + j) = some [⟨d, .u (s.acap j)⟩] := by
  unfold State.special
  iterate 10 rw [if_neg (by omega)]
  rw [if_neg (by omega), if_pos (by omega), Nat.add_sub_cancel_left]

/-- A meaning that commits two words takes each into its register. -/
theorem State.completes_of_commit_pair {s : State} {i : Instr} {c : Ctl} {d : Reg} {flat : Bool} {u v : VReg} {f g : Nat → Word} {n : Counts}
    (he : exec i s = .next (s.commit c [d, d + 1] (sreadPair d u v) [] n)) (hr : s.Ready c [d, d + 1] [d, d + 1] flat)
    (hf : flat = true → u.isG = false ∧ v.isG = false) (hu : ∀ l < 128, u.lane l = f l) (hv : ∀ l < 128, v.lane l = g l) :
    s.Completes i fun t => s.Wrote t c d f ∧ s.Wrote t c (d + 1) g ∧ s.Advanced t c ∧ s.RegFrame t [d, d + 1] [] := by
  obtain ⟨hw, -, hadv, hframe, -⟩ := State.commit_spec (flat := flat) (sreadPair d u v) [] n hr (by simpa [sreadPair] using hf)
    (by simp [sreadPair]) (by simp)
  refine ⟨_, he, fun l hl => ?_, fun l hl => ?_, hadv, hframe⟩
  · rw [← hu l hl]
    exact hw ⟨d, u⟩ (by simp [sreadPair]) l hl
  · rw [← hv l hl]
    exact hw ⟨d + 1, v⟩ (by simp [sreadPair]) l hl

/-- A 64-bit register of an identifier: 0 and U in a task (R181), otherwise its low word by `fieldLow` and a U high word. -/
theorem State.completes_identifier {s : State} {c : Ctl} {d : Reg} {n : Nat} {u a : Bool} {f : Nat → Nat} (hn : n < 256)
    (hs : s.special d n = some (if s.cur.task.isSome then sreadU d 0 else sreadPair d (fieldLow u a f) (.u (BitVec.ofNat 32 (f 0 / 2 ^ 32)))))
    (hu : ∀ l < 128, u = true → f l = f 0) (ha : ∀ l < 128, u = false → a = true → f l = f 0 + l)
    (hr : s.Ready c [d, d + 1] [d, d + 1] (u || a || s.cur.task.isSome)) :
    s.Completes (.sread c d (BitVec.ofNat 8 n)) fun t =>
      s.Wrote t c d (fun l => if s.cur.task.isSome then 0 else BitVec.ofNat 32 (f l))
      ∧ s.Wrote t c (d + 1) (fun _ => if s.cur.task.isSome then 0 else BitVec.ofNat 32 (f 0 / 2 ^ 32))
      ∧ s.Advanced t c ∧ s.RegFrame t [d, d + 1] [] := by
  have he := exec_sread c hn hs
  cases htask : s.cur.task.isSome with
  | true =>
    simp only [htask, if_true] at he ⊢
    exact State.completes_of_commit_pair he hr (fun _ => ⟨rfl, rfl⟩) (fun _ _ => rfl) fun _ _ => rfl
  | false =>
    simp only [htask, Bool.false_eq_true, if_false, Bool.or_false] at he hr ⊢
    refine State.completes_of_commit_pair he hr (fun h => ⟨?_, rfl⟩) (fun l hl => fieldLow_lane hl (hu l hl) (ha l hl)) fun _ _ => rfl
    rw [fieldLow_isG, h]
    rfl

/-- Settles O35: each register's value and shape as `State.special` gives them, with the identifiers' shapes from their layout. -/
theorem specialRegisterResults : Obligations.SpecialRegisterResults := by
  intro s c d i j w task one two ident o S
  have hone : ∀ {n : Nat} {fl : Bool} {v : VReg} {f : Nat → Word}, n < 256 → s.special d n = some [⟨d, v⟩] → (fl = true → v.isG = false) →
      (∀ l < 128, v.lane l = f l) → one n fl f := fun hn hs hf hv hr => State.yields_of_commit _ (exec_sread c hn hs) hr hf hv
  have huni : ∀ {n : Nat} {x : Word}, n < 256 → s.special d n = some [⟨d, .u x⟩] → one n true fun _ => x :=
    fun hn hs => hone hn hs (fun _ => rfl) fun _ _ => rfl
  have htwo : ∀ {i : Instr} {x : DWord}, exec i s = .next (s.commit c [d, d + 1] (sreadU d x) [] .zero) → s.Ready c [d, d + 1] [d, d + 1] true →
      s.YieldsPair i c d (fun _ => x) .zero :=
    fun he hr => State.yieldsPair_of_commit _ _ he hr (fun _ => ⟨rfl, rfl⟩) fun _ _ => ⟨rfl, rfl⟩
  refine ⟨?lane, ?warp, ?wid, ?core, ?cluster, ?ctx, ?pcv, ?depth, ?tidemark, ?argp, ?field, ?acap, fun hr => ⟨htwo rfl hr, htwo rfl hr⟩⟩
  case lane => exact hone (by omega) rfl (fun _ => rfl) fun l _ => (BitVec.zero_add _).trans (BitVec.one_mul _)
  case warp | core | cluster | ctx => exact huni (by omega) rfl
  case pcv | tidemark | argp => exact htwo rfl
  case depth => exact hone (by omega) rfl (by simp) fun l hl => VReg.lane_lanesOf _ l hl
  case acap => exact fun hj => huni (by omega) (State.special_acap d hj)
  case wid => exact State.completes_identifier (u := false) (by omega) rfl (by simp) fun l hl _ hS => State.widOf_add (of_decide_eq_true hS) hl
  case field =>
    intro hi hcut
    have hid := State.completes_identifier (c := c) (by omega) (State.special_field d hi)
      (fun l hl hu => State.fieldOf_uniform hcut (by simpa using hu) hl)
      (fun l hl hu ha => by
        simp only [Bool.or_eq_false_iff, Bool.and_eq_true, beq_iff_eq, decide_eq_false_iff_not, decide_eq_true_eq, not_le] at hu ha
        exact State.fieldOf_add hcut hu.1 ha.1 ha.2 hl)
    simp only [State.fieldOf_eq] at hid
    exact hid

end Sys2Proof.Machine
end

section
/-! PROOFS. The shape-overflow trap (O39). -/

namespace Sys2Proof.Machine

/-! ## Writes that overflow (R60) -/

/-- The destinations that are not G yet, in ascending order. -/
def State.binding (s : State) (ds : List Reg) : List Nat :=
  (List.range 64).filter fun r => (ds.any fun y => y.toNat == r) && !(s.cur.arch.vregs.getD r (.u 0)).isG

/-- A lane that is not Exited is not active, so a write is partial (R58). -/
def State.PartialWrite (s : State) (c : Ctl) : Prop := ∃ l < 128, s.cur.live.getLsbD l = true ∧ s.active c l = false

/-- A write leaves its register G: its value is G, or it is partial. -/
def State.GivesG (s : State) (c : Ctl) (v : VReg) : Prop := v.isG = true ∨ s.PartialWrite c

/-- A write with an idle lane is not whole. -/
theorem State.PartialWrite.not_whole {s : State} {c : Ctl} (h : s.PartialWrite c) : wholeWrite s.cur.live (s.act c) = false := by
  obtain ⟨l, hl, hlive, hidle⟩ := h
  rw [wholeWrite, beq_eq_false_iff_ne]
  refine mask_ne_zero (l := l) ?_
  rw [BitVec.getLsbD_and, BitVec.getLsbD_not, hlive, show (s.act c).getLsbD l = false from hidle]
  simp [hl]

/-- A write that gives G leaves its register G. -/
theorem State.GivesG.leavesG {s : State} {c : Ctl} {x : RegWrite} (h : s.GivesG c x.val) : s.cur.leavesG (s.act c) x = true := by
  rw [Warp.leavesG, mergeWrite_isG]
  rcases h with hv | hp
  · rw [hv, Bool.or_true]
  · rw [hp.not_whole]; rfl

/-- Outside the handler writes that give G take a slot for each register that is not G yet, and give none back. -/
theorem Warp.binds_of_leavesG {w : Warp} {act : Mask} {ws : List RegWrite} (hi : w.inHandler = false) (hG : ∀ x ∈ ws, w.leavesG act x = true) :
    w.binds act ws = (ws.filter fun x => !(w.filed x.reg).isG) ∧ w.frees act ws = [] := by
  unfold Warp.binds Warp.frees Warp.fileWrites
  rw [hi, if_neg (by decide)]
  refine ⟨List.filter_congr fun x hx => by rw [hG x hx, Bool.true_and], List.filter_eq_nil_iff.2 fun x hx => ?_⟩
  rw [hG x hx, Bool.not_true, Bool.false_and]
  decide

/-- The registers that take a slot are the destinations not G yet. -/
theorem State.binding_eq (s : State) (ws : List RegWrite) :
    ((List.range 64).filter fun r => (ws.filter fun x => !(s.cur.filed x.reg).isG).any fun x => x.reg.toNat == r) = s.binding (ws.map (·.reg)) := by
  refine List.filter_congr fun r _ => ?_
  rw [Bool.eq_iff_iff]
  simp only [List.any_eq_true, List.mem_filter, Bool.and_eq_true, beq_iff_eq, List.mem_map, Warp.filed]
  constructor
  · rintro ⟨x, ⟨hx, hold⟩, rfl⟩
    exact ⟨⟨x.reg, ⟨x, hx, rfl⟩, rfl⟩, hold⟩
  · rintro ⟨⟨_, ⟨x, hx, rfl⟩, rfl⟩, hold⟩
    exact ⟨x, ⟨hx, hold⟩, rfl⟩

/-- No more registers bind than writes take a slot. -/
theorem State.length_binding_le (s : State) (ws : List RegWrite) :
    (s.binding (ws.map (·.reg))).length ≤ (ws.filter fun x => !(s.cur.filed x.reg).isG).length := by
  rw [← State.binding_eq, ← List.length_map (f := fun x : RegWrite => x.reg.toNat)]
  refine (List.subperm_of_subset (List.nodup_range.filter _) fun r hr => ?_).length_le
  simpa [and_assoc] using (List.mem_filter.1 hr).2

/-- Writes that give G overflow at the first register that finds no free slot (R60). -/
theorem State.overflow_eq_some {s : State} {c : Ctl} {ws : List RegWrite} {n : Nat} (hi : s.cur.inHandler = false)
    (hG : ∀ x ∈ ws, s.GivesG c x.val) (hn : (s.binding (ws.map (·.reg)))[s.cur.hdr.gmax - s.cur.arch.gCount]? = some n) :
    s.cur.overflow (s.act c) ws = some (BitVec.ofNat 6 n) := by
  obtain ⟨hb, hf⟩ := Warp.binds_of_leavesG hi fun x hx => (hG x hx).leavesG
  have hlt := (List.getElem?_eq_some_iff.1 hn).1
  have hle := s.length_binding_le ws
  rw [Warp.overflow_eq, hb, hf, State.binding_eq, hn, if_pos (by rw [List.length_nil]; omega)]
  rfl

/-! ## The trap -/

/-- An instruction that names `ds ++ names` outside the handler, with an active lane, and whose destinations `ds` find no slot for register n. -/
structure State.Overflows (s : State) (c : Ctl) (ds names : List Reg) (n : Nat) : Prop where
  takes : s.TakesTraps
  active : s.act c ≠ 0
  named : ∀ r ∈ ds ++ names, s.cur.nameable r = true
  slot : (s.binding ds)[s.cur.hdr.gmax - s.cur.arch.gCount]? = some n

/-- The register without a slot is one of the file. -/
theorem State.Overflows.lt {s : State} {c : Ctl} {ds names : List Reg} {n : Nat} (h : s.Overflows c ds names n) : n < 64 :=
  List.mem_range.1 (List.mem_filter.1 (List.mem_of_getElem? h.slot)).1

/-- The warp is not in its handler. -/
theorem State.Overflows.outside {s : State} {c : Ctl} {ds names : List Reg} {n : Nat}
    (h : s.Overflows c ds names n) : s.cur.inHandler = false := by simp [Warp.inHandler, h.takes.outside]

/-- Writes of the destinations that give G overflow. -/
theorem State.Overflows.overflow {s : State} {c : Ctl} {ds names : List Reg} {n : Nat}
    (h : s.Overflows c ds names n) {ws : List RegWrite} (hds : ws.map (·.reg) = ds) (hG : ∀ x ∈ ws, s.GivesG c x.val) :
    s.cur.overflow (s.act c) ws = some (BitVec.ofNat 6 n) :=
  State.overflow_eq_some h.outside hG (hds ▸ h.slot)

/-- Registers among those the instruction names pass the check of names (R31). -/
theorem State.Overflows.passes {s : State} {c : Ctl} {ds names : List Reg} {n : Nat}
    (h : s.Overflows c ds names n) {rs : List Reg} (hrs : rs ⊆ ds ++ names) : ¬(!rs.all s.cur.nameable) = true := by
  rw [Bool.not_eq_true', Bool.not_eq_false, List.all_eq_true]
  exact fun r hr => h.named r (hrs hr)

/-- The trap names the register without a slot in AUX (R231). -/
theorem State.Overflows.trapsAt {s : State} {c : Ctl} {ds names : List Reg} {n : Nat} {i : Instr}
    (h : s.Overflows c ds names n) (he : exec i s = .next (s.trapP (s.act c) 8 0 (BitVec.ofNat 6 n).toNat none 0 4)) :
    s.TrapsAt i c 8 0 n none 0 4 := by
  have hlt := h.lt
  rw [BitVec.toNat_ofNat, Nat.mod_eq_of_lt hlt] at he
  exact ⟨_, he, h.takes.trapP_enters _ _ _ _ _ (by omega) (by omega)⟩

/-- An instruction that passes its first check traps when the checks of its lanes and of its bindings come next. -/
theorem State.Overflows.checked {s : State} {c : Ctl} {ds names : List Reg} {n : Nat} {i : Instr}
    (h : s.Overflows c ds names n) {p : Prop} [Decidable p] {ws : List RegWrite} {x y z : State}
    (he : exec i s = .next (if p then x else if s.act c = 0 then y else match s.cur.overflow (s.act c) ws with
      | some r => s.trapP (s.act c) 8 0 r.toNat none 0 4
      | none => z))
    (hp : ¬p) (hds : ws.map (·.reg) = ds) (hG : ∀ x ∈ ws, s.GivesG c x.val) : s.TrapsAt i c 8 0 n none 0 4 := by
  simp only [hp, h.active, h.overflow hds hG, if_false] at he
  exact h.trapsAt he

/-- An instruction that commits results which give G. -/
theorem State.Overflows.commit {s : State} {c : Ctl} {ds names : List Reg} {n : Nat} {i : Instr}
    (h : s.Overflows c ds names n) {ws : List RegWrite} {ps : List (PReg × Mask)} {k : Counts}
    (he : exec i s = .next (s.commit c (ds ++ names) ws ps k)) (hds : ws.map (·.reg) = ds) (hG : ∀ x ∈ ws, s.GivesG c x.val) :
    s.TrapsAt i c 8 0 n none 0 4 :=
  h.checked he (h.passes (List.Subset.refl _)) hds hG

/-! ## Instructions that compute -/

/-- An instruction that commits one result. -/
theorem State.Overflows.one {s : State} {c : Ctl} {d : Reg} {names : List Reg} {n : Nat} {i : Instr}
    (h : s.Overflows c [d] names n) {v : VReg} {k : Counts} (he : exec i s = .next (s.commit c (d :: names) [⟨d, v⟩] [] k))
    (hG : s.GivesG c v) : s.TrapsAt i c 8 0 n none 0 4 :=
  h.commit he rfl (by simpa using hG)

/-- An instruction that commits a pair. -/
theorem State.Overflows.pair {s : State} {c : Ctl} {d : Reg} {names : List Reg} {n : Nat} {i : Instr}
    (h : s.Overflows c (pairRegs d) names n) {allU : Bool} {f : Nat → DWord} {k : Counts}
    (he : exec i s = .next (s.commit c (pairRegs d ++ names) (pairResult d allU f) [] k)) (hG : allU = false ∨ s.PartialWrite c) :
    s.TrapsAt i c 8 0 n none 0 4 := by
  rw [pairResult_eq] at he
  refine h.commit he rfl fun x hx => hG.imp_left fun hu => ?_
  simp only [hu, List.mem_cons, List.not_mem_nil, or_false] at hx
  rcases hx with rfl | rfl <;> rfl

/-- A register that is not flat is G. -/
theorem State.isG_of_flat {s : State} {r : Reg} (h : s.flat r = false) : (s.reg r).isG = true := by simpa [State.flat] using h

/-- A result of two sources, either of which makes it G, or a partial write. -/
theorem State.GivesG.of_sources {s : State} {c : Ctl} {v : VReg} {p q : Prop}
    (h : p ∨ q ∨ s.PartialWrite c) (hv : p ∨ q → v.isG = true) : s.GivesG c v :=
  (or_assoc.2 h).imp_left hv

/-- A pair result of two sources is not U when one of them is not. -/
theorem pair_or_of_sources {u v : Bool} {q : Prop} (h : u = false ∨ v = false ∨ q) : (u && v) = false ∨ q :=
  (or_assoc.2 h).imp_left (Bool.and_eq_false_iff).2

/-- A result of two sources of which one is not U is G (R59). -/
theorem shape2_isG {f : Word → Word → Word} {va vb : VReg} (h : va.isU = false ∨ vb.isU = false) : (shape2 f va vb).isG = true := by
  cases va with
  | u _ =>
    cases vb with
    | u _ => simp [VReg.isU] at h
    | a _ _ => rfl
    | g _ => rfl
  | a _ _ => rfl
  | g _ => rfl

/-- A G register has no base and stride. -/
theorem affine_of_isG {v : VReg} (h : v.isG = true) : v.affine = none := by cases v <;> simp_all [VReg.affine, VReg.isG]

/-- No affine row takes a G source (R59). -/
theorem affSum_of_isG {sub : Bool} {va vb : VReg} (h : va.isG = true ∨ vb.isG = true) : affSum sub va vb = none := by
  unfold affSum
  rcases h with h | h
  · simp only [affine_of_isG h]
  · simp only [affine_of_isG h]
    cases va.affine <;> rfl

/-- A sum with a G source is G. -/
theorem sum_isG {sub : Bool} {f : Word → Word → Word} {va vb : VReg} (h : va.isG = true ∨ vb.isG = true) (sat : Bool) :
    ((if sat then none else affSum sub va vb).getD (shape2 f va vb)).isG = true := by
  rw [affSum_of_isG h, ite_self]
  exact shape2_isG (h.imp VReg.isU_of_isG VReg.isU_of_isG)

/-! ## Instructions whose destinations are bound at issue -/

/-- The address registers of an access. -/
def addrRegsOf (space : Space) (a : Reg) (rank : Option Reg) : List Reg :=
  (match space with | .global => pairRegs a | .spad => [a]) ++ rank.toList

/-- One access serves the warp (R59): a load without a rank, of U addresses. -/
def State.loadsOnce (s : State) (space : Space) (op : MemOp) (a : Reg) (rank : Option Reg) : Bool :=
  (match op with | .load _ => true | _ => false) && rank.isNone && (addrRegsOf space a rank).all fun r => (s.reg r).isU

/-- One global access serves the warp when the address pair is U. -/
theorem State.loadsOnce_global (s : State) (signed : Bool) (a : Reg) : s.loadsOnce .global (.load signed) a none = s.pairU a := by
  simp [State.loadsOnce, addrRegsOf, pairRegs, State.pairU]

/-- One scratchpad access serves the warp when the address is U. -/
theorem State.loadsOnce_spad (s : State) (signed : Bool) (a : Reg) : s.loadsOnce .spad (.load signed) a none = (s.reg a).isU := by
  simp [State.loadsOnce, addrRegsOf]

/-- Destinations that all take one value that gives G. -/
theorem State.GivesG.map {s : State} {c : Ctl} {ds : List Reg} {v : VReg}
    (h : s.GivesG c v) : ∀ x ∈ ds.map fun r => RegWrite.mk r v, s.GivesG c x.val := by
  simpa using fun _ _ => h

/-- A memory access whose results give G: it is no load of U addresses, or its write is partial. -/
theorem State.Overflows.access {s : State} {c : Ctl} {ds names : List Reg} {n : Nat} {i : Instr}
    (h : s.Overflows c ds names n) {m : MMod} {space : Space} {op : MemOp} {a : Reg} {rank : Option Reg} {rs : List Reg}
    {data : Nat → Nat × Nat} (he : exec i s = .next (s.access c m space op ds a rank rs data)) (hnames : names = addrRegsOf space a rank ++ rs)
    (hu : s.loadsOnce space op a rank = false ∨ s.PartialWrite c) : s.TrapsAt i c 8 0 n none 0 4 := by
  refine h.checked (ws := ds.map fun r => ⟨r, if s.loadsOnce space op a rank then .u 0 else .g []⟩) (he.trans rfl) (h.passes fun r hr => ?_)
    (by simp [Function.comp_def]) (State.GivesG.map (hu.imp_left fun hf => by rw [hf]; rfl))
  rw [hnames, ← List.append_assoc]
  exact hr

/-- A box copy or a reduction: its token. -/
theorem State.Overflows.copy {s : State} {c : Ctl} {names : List Reg} {n : Nat} {i : Instr} {t : Reg}
    (h : s.Overflows c [t] names n) {m : CMod} {rs : List Reg} {a : Reg} {f : CopyForm}
    (he : exec i s = .next (copyOp s c m rs t a f)) (hrs : rs ++ pairRegs a ⊆ names) (hbar : m.bar.toNat < s.cur.hdr.bars) :
    s.TrapsAt i c 8 0 n none 0 4 := by
  refine h.checked (he.trans rfl) ?_ rfl (State.GivesG.map (ds := [t]) (.inl rfl))
  rw [Bool.or_eq_true, not_or, decide_eq_true_iff, not_le]
  exact ⟨h.passes (List.cons_subset_cons t hrs), hbar⟩

/-- An instruction at whose address nothing was read before reads its records anew. -/
theorem State.readBefore_eq_none {s : State} (act : Mask) (h : ∀ k ∈ s.cur.reads, k.pc ≠ s.ipc) : s.readBefore act = none := by
  rw [State.readBefore, List.find?_eq_none]
  intro k hk
  simp [h k hk]

/-- An instruction traps when it opens with the checks of its names and its lanes, and of its bindings unless it has read its records before. -/
theorem State.Overflows.checkedAnew {s : State} {c : Ctl} {ds names : List Reg} {n : Nat} {i : Instr}
    (h : s.Overflows c ds names n) {ws : List RegWrite} {x y z : State} {u : SlotRead → State}
    (hread : ∀ k ∈ s.cur.reads, k.pc ≠ s.ipc)
    (he : exec i s = .next (if !(ds ++ names).all s.cur.nameable then x else if s.act c = 0 then y else match s.readBefore (s.act c) with
      | some k => u k
      | none => match s.cur.overflow (s.act c) ws with
        | some r => s.trapP (s.act c) 8 0 r.toNat none 0 4
        | none => z))
    (hds : ws.map (·.reg) = ds) (hG : ∀ x ∈ ws, s.GivesG c x.val) : s.TrapsAt i c 8 0 n none 0 4 := by
  simp only [State.readBefore_eq_none _ hread] at he
  exact h.checked he (h.passes (List.Subset.refl _)) hds hG

/-- Settles O39: every listed instruction checks the bindings of its results before it does anything. -/
theorem shapeOverflowTrap : Obligations.ShapeOverflowTrap := by
  intro s c m f x q op mode3 mode base mask j arr d a b e p imm n binding parts traps block ops ht ha
  have hov : ∀ {ds names : List Reg}, (∀ r ∈ ds ++ names, s.cur.nameable r = true) →
      (binding ds)[s.cur.hdr.gmax - s.cur.arch.gCount]? = some n → s.Overflows c ds names n := fun hn hb => ⟨ht, ha, hn, hb⟩
  refine ⟨?iadd, ?iaddW, ?xor, ?xorW, ?mov, ?movW, ?movi, ?frcp, ?lanex, ?lanexImmediate, ?jget, ?ld, ?lds, ?ldx, ?atom, ?atoms, ?atomsCluster, ?aqry,
    ?aqryImmediate, ?copies, ?qfence, ?bjob, ?tasks, ?await⟩
  case iadd =>
    intro hm hsrc hn hb
    obtain ⟨_, un, sat⟩ := m
    subst hm
    exact (hov hn hb).one rfl (State.GivesG.of_sources hsrc fun hG => sum_isG (hG.imp State.isG_of_flat State.isG_of_flat) sat)
  case iaddW =>
    intro hm hsrc hn hb
    obtain ⟨_, un, sat⟩ := m
    subst hm
    exact (hov hn hb).pair rfl (pair_or_of_sources hsrc)
  case xor =>
    intro hsrc hn hb
    exact (hov hn hb).one rfl (State.GivesG.of_sources hsrc shape2_isG)
  case xorW => exact fun hsrc hn hb => (hov hn hb).pair rfl (pair_or_of_sources hsrc)
  case mov => exact fun hsrc hn hb => (hov hn hb).one rfl (hsrc.imp_left State.isG_of_flat)
  case movW => exact fun hsrc hn hb => (hov hn hb).pair rfl hsrc
  case movi =>
    intro hp
    exact ⟨fun hn hb => (hov hn hb).one rfl (.inr hp), fun hn hb => (hov hn hb).pair (allU := true) (f := fun _ => imm) rfl (.inr hp)⟩
  case frcp | lanex | lanexImmediate | jget | aqry | aqryImmediate => exact fun hn hb => (hov hn hb).one rfl (.inl rfl)
  case ld =>
    intro hsrc hn hb
    exact (hov hn hb).access rfl rfl (hsrc.imp_left fun hU => s.loadsOnce_global _ a ▸ hU)
  case lds =>
    intro hsrc hn hb
    exact (hov hn hb).access rfl rfl (hsrc.imp_left fun hU => s.loadsOnce_spad _ a ▸ hU)
  case ldx | atom | atoms | atomsCluster => exact fun hn hb => (hov hn hb).access rfl rfl (.inl rfl)
  case copies =>
    refine fun hbar => ⟨fun hn hb => (hov hn hb).copy rfl ?_ hbar, fun hn hb => (hov hn hb).copy rfl (List.Subset.refl _) hbar⟩
    intro r hr
    simp only [CMod.names, List.mem_append] at hr ⊢
    tauto
  case qfence =>
    exact fun hn hb => (hov hn hb).checked rfl (by simp [hn d]) rfl (State.GivesG.map (ds := [d]) (.inl rfl))
  case bjob => exact fun hn hb => (hov hn hb).checked rfl ((hov hn hb).passes (List.Subset.refl _)) rfl (State.GivesG.map (ds := [d]) (.inl rfl))
  case tasks =>
    exact fun hread => ⟨fun hn hb => (hov hn hb).checkedAnew hread rfl rfl (State.GivesG.map (.inl rfl)),
      fun hn hb => (hov hn hb).checkedAnew hread rfl rfl (State.GivesG.map (.inl rfl))⟩
  case await => exact fun hn hb => (hov hn hb).checked rfl ((hov hn hb).passes (List.Subset.refl _)) rfl (State.GivesG.map (.inl rfl))

end Sys2Proof.Machine
end

section
/-! PROOFS. The float family: arithmetic, special functions and conversions (O20, O21). -/

namespace Sys2Proof.Machine

/-! ## Results of the float family (R59, R79 to R82) -/

/-- A two-source meaning of the family yields its value and its counts in every active lane. -/
theorem State.floatTwo_of_floatBin {s : State} {i : Instr} {c : Ctl} {d a : Reg} {b : Src} {f : Word → Word → Word × Counts}
    (he : exec i s = .next (floatBin s c d a b f)) : s.FloatTwo i c d a b f := fun hr =>
  State.yields_of_commit _ he hr (fun hU => have ⟨ha, hb⟩ := Bool.and_eq_true_iff.1 hU; shape2_flat _ _ _ ha hb) fun l => shape2_lane _ _ _ l

/-- A three-source meaning of the family yields its value and its counts in every active lane. -/
theorem State.floatThree_of_floatTri {s : State} {i : Instr} {c : Ctl} {d a e : Reg} {b : Src} {f : Word → Word → Word → Word × Counts}
    (he : exec i s = .next (floatTri s c d a b e f)) : s.FloatThree i c d a b e f := fun hr =>
  State.yields_of_commit _ he hr
    (fun hU => have ⟨hab, hc⟩ := Bool.and_eq_true_iff.1 hU; have ⟨ha, hb⟩ := Bool.and_eq_true_iff.1 hab; shape3_flat _ _ _ _ ha hb hc)
    fun l => shape3_lane _ _ _ _ l

/-- A one-source meaning of the family yields its value and its counts in every active lane; one of the special-function pipe gives G. -/
theorem State.floatOne_of_floatUn {s : State} {i : Instr} {c : Ctl} {d a : Reg} {special : Bool} {f : Word → Word × Counts}
    (he : exec i s = .next (floatUn s c special d a f)) : s.FloatOne i c d a special f := by
  intro hr
  refine State.yields_of_commit _ he hr (fun hU => ?_) fun l hl => ?_ <;> cases special
  · exact shape1_flat _ _ hU
  · exact absurd hU (by simp)
  · exact shape1_lane _ _ l hl
  · exact VReg.lane_lanesOf _ l hl

/-- Settles O20: each instruction is `floatBin` or `floatTri` of its operation. -/
theorem floatArithmeticResults : Obligations.FloatArithmeticResults := by
  intro s c m d a b e imm two
  have htwo : ∀ {r i : Instr} {f : Word → Word → Word × Counts}, exec r s = .next (floatBin s c d a (.reg b) f) →
      exec i s = .next (floatBin s c d a (fimm imm) f) → two r i f :=
    fun hr hi => ⟨State.floatTwo_of_floatBin hr, State.floatTwo_of_floatBin hi⟩
  exact ⟨htwo rfl rfl, htwo rfl rfl, htwo rfl rfl, htwo rfl rfl, htwo rfl rfl, htwo rfl rfl, htwo rfl rfl, htwo rfl rfl, htwo rfl rfl,
    State.floatThree_of_floatTri rfl, State.floatThree_of_floatTri rfl, State.floatThree_of_floatTri rfl, State.floatThree_of_floatTri rfl⟩

/-- Settles O21: each instruction is `floatUn` of its operation, on the special-function pipe or not. -/
theorem floatUnaryResults : Obligations.FloatUnaryResults := by
  intro s c m src dst d a special
  have hspecial : ∀ {i : Instr} {n : Nat}, exec i s = .next (floatUn s c true d a (fSpecial n m)) → special i n := State.floatOne_of_floatUn
  exact ⟨hspecial rfl, hspecial rfl, hspecial rfl, hspecial rfl, hspecial rfl, hspecial rfl,
    State.floatOne_of_floatUn rfl, State.floatOne_of_floatUn rfl, State.floatOne_of_floatUn rfl⟩

end Sys2Proof.Machine
end

section
/-! PROOFS. `STAT` takes the counters it names and sends their additions (O45). -/

namespace Sys2Proof.Machine

/-! ## Entries of a list after some are updated -/

/-- An update of the entries with `p` that leaves `q`, which they alone may have, as it was: the first entry with `q` is updated. -/
theorem find?_updWhere {α : Type} {p q : α → Bool} {f : α → α} (hq : ∀ x, q x = true → p x = true) (hf : ∀ x, p x = true → q (f x) = q x) (xs : List α) :
    (updWhere p f xs).find? q = (xs.find? q).map f := by
  have hcomp : (q ∘ fun x => if p x then f x else x) = q := by
    funext x
    by_cases hx : p x = true <;> simp [hx, hf]
  rw [updWhere, List.find?_map, hcomp]
  cases hx : xs.find? q with
  | none => rfl
  | some x => simp [hq x (List.find?_some hx)]

/-- The workgroup with a key after an update that keeps keys. -/
theorem State.wgOf_mapWg {f : Workgroup → Workgroup} (hf : ∀ g, (f g).key = g.key) (s : State) (k : Nat) :
    (s.mapWg k f).wgOf k = (s.wgOf k).map f :=
  find?_updWhere (fun _ h => h) (fun g _ => by rw [hf]) s.wgs

/-! ## STAT (R90, R91, R363) -/

/-- The rows of the counters that `hit` names, as stores of their additions (R90). -/
def State.statStores (s : State) (g : Workgroup) (hit : StatRow → Bool) : List (Nat × Nat) := statWords s.cur.hdr.statp.toNat (g.stats.filter hit)

/-- With STATP zero, or with nothing counted, a `STAT` only advances. -/
theorem State.statOp_of_nothing {s : State} {c : Ctl} {hit : StatRow → Bool} {g : Workgroup} (ha : s.act c ≠ 0) (hg : s.wgOf s.cur.wg = some g)
    (h : s.cur.hdr.statp = 0 ∨ s.statStores g hit = []) : s.statOp c hit = s.advance c := by
  have hb : (decide (s.cur.hdr.statp = 0) || (s.statStores g hit).isEmpty) = true := by simpa using h
  unfold State.statStores at hb
  simp only [State.statOp, ha, if_false, hg, Option.map_some, Option.getD_some, hb, if_true]

/-- Otherwise it takes the counters and sends their additions as a request of the warp. -/
theorem State.statOp_of_counted {s : State} {c : Ctl} {hit : StatRow → Bool} {g : Workgroup} (ha : s.act c ≠ 0) (hg : s.wgOf s.cur.wg = some g)
    (h0 : s.cur.hdr.statp ≠ 0) (hw : s.statStores g hit ≠ []) : ∃ r : Req, r.uid = s.cur.uid ∧ r.checked = true
      ∧ r.kind = .stat (s.statStores g hit) s.cur.hdr.statp.toNat
      ∧ s.statOp c hit = { (s.advance c).mapWg s.cur.wg fun g => { g with stats := g.stats.filter fun r => !hit r } with
          nextId := s.nextId + 1, reqs := (s.advance c).reqs ++ [r] } := by
  have hb : (decide (s.cur.hdr.statp = 0) || (s.statStores g hit).isEmpty) = false := by
    rw [decide_eq_false h0, Bool.false_or, List.isEmpty_eq_false_iff]
    exact hw
  unfold State.statStores at hb
  refine ⟨⟨s.nextId, s.cur.uid, s.cur.core, s.cur.pos, s.cur.ctx, s.cur.wg, tidOf c, s.ipc, s.next c, s.act c, s.split, s.cur.live,
    .stat (s.statStores g hit) s.cur.hdr.statp.toNat, true, false, false, false, none, s.cur.inHandler, s.dueFrom (dieOfCore s.cur.core), false⟩, rfl, rfl, rfl, ?_⟩
  simp only [State.statOp, ha, if_false, hg, Option.map_some, Option.getD_some, hb, Bool.false_eq_true]
  rfl

/-- Settles O45: both forms are `statOp`, which advances and sends the additions of what it takes. -/
theorem statisticsResults : Obligations.StatisticsResults := by
  intro s c n g does ha hg
  obtain ⟨hm, hf, -, -⟩ := State.moveLanes_spec s c fun _ => s.next c
  have hdoes : ∀ i hit, exec i s = .next (s.statOp c hit) → does i hit := by
    intro i hit he
    refine ⟨fun h => ⟨_, he, ?_⟩, fun h0 hw => ⟨_, he, ?_⟩⟩
    · rw [State.statOp_of_nothing ha hg h]
      exact ⟨hm.advanced, hf⟩
    · obtain ⟨r, hu, hc, hk, heq⟩ := State.statOp_of_counted ha hg h0 hw
      have hstate : s.advance c = { s with cur := (s.advance c).cur } := State.moveLanes_state s c _
      have hgroup : (s.advance c).wgOf s.cur.wg = some g := by rw [hstate]; exact hg
      rw [heq]
      refine ⟨⟨hm.lanes, hm.handler⟩, ⟨?_, hf.warp, hf.regs, hf.preds, hf.failing, hf.lanes, hf.handler⟩, ?_, r, ?_, hu, hk, hc⟩
      · rw [hstate]; rfl
      · have := State.wgOf_mapWg (f := fun g => { g with stats := g.stats.filter fun r => !hit r }) (fun _ => rfl) (s.advance c) s.cur.wg
        rw [hgroup] at this
        exact congrArg (Option.map (·.stats)) this
      · rw [hstate]
  exact ⟨hdoes _ _ rfl, hdoes _ _ rfl⟩

end Sys2Proof.Machine
end

section
/-! PROOFS. What write-backs leave at the home, and what the part reads and writes there while no cache holds a dirty byte (for O52). -/

namespace Sys2Proof.Machine

/-! ## Dirty bytes written to the home (R119) -/

/-- A sector holds the byte at an address dirty. -/
def L2Sector.holds (x : L2Sector) (a : Nat) : Bool := a / 64 == x.sec && x.dirty.getLsbD (a % 64)

/-- A byte at the home after a byte is written there. -/
theorem MemSys.readByte_putHome (m : MemSys) (pa : Nat) (c : CByte) (a : Nat) :
    readByte (m.putHome pa c).home a = if a = pa then c.b else readByte m.home a := readByte_writeByte pa a c.b m.home

/-- A byte at the home after the dirty ones among the first bytes of a sector are written. -/
theorem MemSys.readByte_putDirty (x : L2Sector) (m : MemSys) (a : Nat) {n : Nat} (hn : n ≤ 64) :
    readByte ((List.range n).foldl (fun m i => if x.dirty.getLsbD i then m.putHome (64 * x.sec + i) (x.data.getD i ⟨0, none⟩) else m) m).home a
      = if x.holds a = true ∧ a % 64 < n then (x.data.getD (a % 64) ⟨0, none⟩).b else readByte m.home a := by
  induction n with
  | zero => simp
  | succ n ih =>
    rw [List.range_succ, List.foldl_append, List.foldl_cons, List.foldl_nil]
    have ih := ih (by omega)
    by_cases ha : a = 64 * x.sec + n
    · have hmod : a % 64 = n := by omega
      have hdiv : a / 64 = x.sec := by omega
      by_cases hd : x.dirty.getLsbD n = true
      · have hholds : x.holds a = true := by simp only [L2Sector.holds, hdiv, hmod, hd, beq_self_eq_true, Bool.and_self]
        rw [if_pos hd, if_pos ⟨hholds, by omega⟩, MemSys.readByte_putHome, if_pos ha, hmod]
      · rw [if_neg hd, ih]
        simp [L2Sector.holds, hmod, hd]
    · have hne : ¬(x.holds a = true ∧ a % 64 = n) := by
        simp only [L2Sector.holds, Bool.and_eq_true, beq_iff_eq]
        omega
      have hiff : (x.holds a = true ∧ a % 64 < n + 1) ↔ (x.holds a = true ∧ a % 64 < n) := by
        constructor
        · rintro ⟨h, hlt⟩
          exact ⟨h, by have : a % 64 ≠ n := fun e => hne ⟨h, e⟩; omega⟩
        · rintro ⟨h, hlt⟩
          exact ⟨h, by omega⟩
      simp only [hiff]
      split
      · rw [← ih, MemSys.readByte_putHome, if_neg ha]
      · exact ih

/-- A byte at the home after a sector's dirty bytes are written. -/
theorem MemSys.readByte_writeBack (m : MemSys) (x : L2Sector) (a : Nat) :
    readByte (m.writeBack x).home a = if x.holds a = true then (x.data.getD (a % 64) ⟨0, none⟩).b else readByte m.home a := by
  have hhome : (m.writeBack x).home = ((List.range 64).foldl (fun m i =>
      if x.dirty.getLsbD i then m.putHome (64 * x.sec + i) (x.data.getD i ⟨0, none⟩) else m) m).home := by
    unfold MemSys.writeBack
    dsimp only
    split <;> rfl
  rw [hhome, MemSys.readByte_putDirty x m a (Nat.le_refl 64)]
  simp only [Nat.mod_lt a (show 0 < 64 by decide), and_true]

/-- A byte that none of the sectors holds dirty stays. -/
theorem MemSys.readByte_writeBacks_of_clean {a : Nat} (xs : List L2Sector) :
    ∀ m : MemSys, (∀ x ∈ xs, x.holds a = false) → readByte (xs.foldl MemSys.writeBack m).home a = readByte m.home a := by
  induction xs with
  | nil => intro m _; rfl
  | cons x xs ih =>
    intro m h
    rw [List.foldl_cons, ih _ fun y hy => h y (List.mem_cons_of_mem x hy), MemSys.readByte_writeBack, if_neg]
    simp [h x List.mem_cons_self]

/-- A byte on which the sectors that hold it agree takes their value. -/
theorem MemSys.readByte_writeBacks_of_agree {a : Nat} {v : CByte} (xs : List L2Sector) : ∀ m : MemSys,
    (∀ x ∈ xs, x.holds a = true → x.data.getD (a % 64) ⟨0, none⟩ = v) → (∃ x ∈ xs, x.holds a = true) →
      readByte (xs.foldl MemSys.writeBack m).home a = v.b := by
  induction xs with
  | nil => rintro m - ⟨x, hx, -⟩; exact absurd hx List.not_mem_nil
  | cons x xs ih =>
    intro m hv hex
    rw [List.foldl_cons]
    by_cases hlater : ∃ y ∈ xs, y.holds a = true
    · exact ih _ (fun y hy => hv y (List.mem_cons_of_mem x hy)) hlater
    · have hclean : ∀ y ∈ xs, y.holds a = false := fun y hy => Bool.eq_false_iff.2 fun h => hlater ⟨y, hy, h⟩
      have hx : x.holds a = true := by
        obtain ⟨y, hy, h⟩ := hex
        rcases List.mem_cons.1 hy with rfl | hy
        · exact h
        · exact absurd ⟨y, hy, h⟩ hlater
      rw [MemSys.readByte_writeBacks_of_clean xs _ hclean, MemSys.readByte_writeBack, if_pos hx, hv x List.mem_cons_self hx]

/-- The dirty bytes of the sectors `hit` names stand at a home, where those that hold one byte agree on it. -/
def MemSys.Written (m : MemSys) (hit : L2Sector → Prop) (home : List Host.Cell) : Prop := ∀ y ∈ m.l2, hit y → ∀ i < 64, y.dirty.getLsbD i = true →
  (∀ z ∈ m.l2, z.sec = y.sec → z.dirty.getLsbD i = true → z.data.getD i ⟨0, none⟩ = y.data.getD i ⟨0, none⟩) →
    readByte home (64 * y.sec + i) = (y.data.getD i ⟨0, none⟩).b

/-- A home reads as before outside the dirty bytes of the sectors `hit` names. -/
def MemSys.Untouched (m : MemSys) (hit : L2Sector → Prop) (home : List Host.Cell) : Prop :=
  ∀ a, (∀ y ∈ m.l2, hit y → a / 64 = y.sec → y.dirty.getLsbD (a % 64) = false) → readByte home a = readByte m.home a

/-- Writing back at least the dirty sectors among those named writes their bytes. -/
theorem MemSys.written_writeBacks (m : MemSys) {p : L2Sector → Bool} {hit : L2Sector → Prop} (hp : ∀ y, hit y → y.dirty ≠ 0 → p y = true) :
    m.Written hit ((m.l2.filter p).foldl MemSys.writeBack m).home := by
  intro y hy hhit i hi hd hagree
  have hdiv : (64 * y.sec + i) / 64 = y.sec := by omega
  have hmod : (64 * y.sec + i) % 64 = i := by omega
  have hdirty : y.dirty ≠ 0 := by
    intro h0
    rw [h0] at hd
    exact absurd (BitVec.getLsbD_zero.symm.trans hd) (by decide)
  refine MemSys.readByte_writeBacks_of_agree _ m (fun x hx hholds => ?_) ⟨y, List.mem_filter.2 ⟨hy, hp y hhit hdirty⟩, ?_⟩
  · simp only [L2Sector.holds, hdiv, hmod, Bool.and_eq_true, beq_iff_eq] at hholds
    obtain ⟨hsec, hbit⟩ := hholds
    rw [hmod]
    exact hagree x (List.mem_filter.1 hx).1 hsec.symm hbit
  · simp only [L2Sector.holds, hdiv, hmod, hd, beq_self_eq_true, Bool.and_self]

/-- Writing back none but sectors named leaves every other byte. -/
theorem MemSys.untouched_writeBacks (m : MemSys) {p : L2Sector → Bool} {hit : L2Sector → Prop} (hp : ∀ y, p y = true → hit y) :
    m.Untouched hit ((m.l2.filter p).foldl MemSys.writeBack m).home := by
  intro a ha
  refine MemSys.readByte_writeBacks_of_clean _ m fun x hx => ?_
  obtain ⟨hmem, hpx⟩ := List.mem_filter.1 hx
  simp only [L2Sector.holds, Bool.and_eq_false_iff, beq_eq_false_iff_ne, ne_eq]
  by_cases hsec : a / 64 = x.sec
  · exact .inr (ha x hmem (hp x hpx) hsec)
  · exact .inl hsec

/-! ## What a write-back leaves alone -/

/-- Two memories differ in home bytes, stamps and home poison only. -/
def MemSys.OnlyHome (m n : MemSys) : Prop := ∃ home stamps poison, n = { m with home := home, stamps := stamps, poison := poison }

theorem MemSys.OnlyHome.refl (m : MemSys) : m.OnlyHome m := ⟨_, _, _, rfl⟩
theorem MemSys.OnlyHome.trans {m n o : MemSys} (h : m.OnlyHome n) (k : n.OnlyHome o) : m.OnlyHome o := by
  obtain ⟨_, _, _, rfl⟩ := h
  obtain ⟨_, _, _, rfl⟩ := k
  exact ⟨_, _, _, rfl⟩

/-- A fold whose steps change the home only. -/
theorem MemSys.OnlyHome.foldl {α : Type} {g : MemSys → α → MemSys} (hg : ∀ (n : MemSys) x, n.OnlyHome (g n x)) : ∀ (xs : List α) (m : MemSys), m.OnlyHome (xs.foldl g m)
  | [], m => .refl m
  | x :: xs, m => (hg m x).trans (foldl hg xs (g m x))

/-- A write-back changes the home only. -/
theorem MemSys.writeBack_onlyHome (m : MemSys) (x : L2Sector) : m.OnlyHome (m.writeBack x) := by
  have hput : ∀ (n : MemSys) i, n.OnlyHome (if x.dirty.getLsbD i then n.putHome (64 * x.sec + i) (x.data.getD i ⟨0, none⟩) else n) := by
    intro n i
    split
    · exact ⟨_, _, _, rfl⟩
    · exact .refl n
  have hfold := MemSys.OnlyHome.foldl hput (List.range 64) m
  unfold MemSys.writeBack
  dsimp only
  split
  · exact hfold.trans ⟨_, _, _, rfl⟩
  · exact hfold

/-- Write-backs change the home only. -/
theorem MemSys.writeBacks_onlyHome (xs : List L2Sector) (m : MemSys) : m.OnlyHome (xs.foldl MemSys.writeBack m) :=
  .foldl MemSys.writeBack_onlyHome xs m

theorem MemSys.OnlyHome.l2_eq {m n : MemSys} (h : m.OnlyHome n) : n.l2 = m.l2 := by
  obtain ⟨_, _, _, rfl⟩ := h
  rfl

/-- What differs once the sectors of the L2s are replaced as well. -/
theorem MemSys.OnlyHome.withL2 {m n : MemSys} (h : m.OnlyHome n) (l2 : List L2Sector) :
    { n with l2 := l2 } = { m with l2 := l2, home := n.home, stamps := n.stamps, poison := n.poison } := by
  obtain ⟨_, _, _, rfl⟩ := h
  rfl

/-! ## Recall, eviction and push (R119, R121) -/

/-- A recall changes the home and the L2s only. -/
theorem MemSys.recall_rest (m : MemSys) (line : Nat) (keep : Nat → Bool) : m.recall line keep = { m with
    l2 := (m.recall line keep).l2, home := (m.recall line keep).home, stamps := (m.recall line keep).stamps, poison := (m.recall line keep).poison } :=
  (MemSys.writeBacks_onlyHome _ m).withL2 _

/-- What a recall leaves of a line is clean in the L2s it reaches. -/
theorem MemSys.dirty_of_mem_recall {m : MemSys} {line : Nat} {keep : Nat → Bool} {z : L2Sector} (hz : z ∈ (m.recall line keep).l2)
    (hl : z.sec / 4 = line) (hk : keep z.die = false) : z.dirty = 0 := by
  obtain ⟨x, -, rfl⟩ := List.mem_map.1 (List.mem_filter.1 hz).1
  by_cases hx : (x.sec / 4 == line && x.dirty != 0 && !keep x.die) = true
  · rw [if_pos hx]
  · rw [if_neg hx] at hl hk ⊢
    simpa [hl, hk] using hx

/-- A recall by every L2 writes what the line holds dirty. -/
theorem MemSys.written_recall (m : MemSys) (line : Nat) : m.Written (fun z => z.sec / 4 = line) (m.recall line fun _ => false).home :=
  m.written_writeBacks fun y hy hd => by simpa [hy] using hd

/-- It leaves every other byte. -/
theorem MemSys.untouched_recall (m : MemSys) (line : Nat) : m.Untouched (fun z => z.sec / 4 = line) (m.recall line fun _ => false).home :=
  m.untouched_writeBacks fun y hy => by
    rw [Bool.and_eq_true, Bool.and_eq_true, beq_iff_eq] at hy
    exact hy.1.1

/-- An eviction changes the home and the L2s only. -/
theorem MemSys.evict_rest (m : MemSys) (die line : Nat) : m.evict die line = { m with
    l2 := (m.evict die line).l2, home := (m.evict die line).home, stamps := (m.evict die line).stamps, poison := (m.evict die line).poison } :=
  (MemSys.writeBacks_onlyHome _ m).withL2 _

/-- An eviction takes the line from its L2. -/
theorem MemSys.mem_evict {m : MemSys} {die line : Nat} {z : L2Sector} : z ∈ (m.evict die line).l2 ↔ z ∈ m.l2 ∧ ¬(z.die = die ∧ z.sec / 4 = line) := by
  unfold MemSys.evict
  rw [List.mem_filter, (MemSys.writeBacks_onlyHome _ m).l2_eq, Bool.not_eq_true', Bool.and_eq_false_iff, beq_eq_false_iff_ne, beq_eq_false_iff_ne, not_and_or]

/-- It writes what the L2 holds dirty of the line. -/
theorem MemSys.written_evict (m : MemSys) (die line : Nat) : m.Written (fun z => z.die = die ∧ z.sec / 4 = line) (m.evict die line).home :=
  m.written_writeBacks fun y hy _ => by simp [hy.1, hy.2]

/-- It leaves every other byte. -/
theorem MemSys.untouched_evict (m : MemSys) (die line : Nat) : m.Untouched (fun z => z.die = die ∧ z.sec / 4 = line) (m.evict die line).home :=
  m.untouched_writeBacks fun y hy => by rwa [Bool.and_eq_true, beq_iff_eq, beq_iff_eq] at hy

/-- The lines marked for eviction first (R121). -/
theorem MemSys.mem_efLines {m : MemSys} {die line : Nat} : line ∈ m.efLines die ↔ ∃ z ∈ m.l2, z.die = die ∧ z.ef = true ∧ z.sec / 4 = line := by
  simp [MemSys.efLines, linesOf, and_assoc]

/-- A push changes the home only. -/
theorem MemSys.push_onlyHome (m : MemSys) (die : Nat) : m.OnlyHome (m.push die) := MemSys.writeBacks_onlyHome _ m

/-- A push writes what the die holds dirty. -/
theorem MemSys.written_push (m : MemSys) (die : Nat) : m.Written (fun z => z.die = die) (m.push die).home :=
  m.written_writeBacks fun y hy hd => by rw [hy, beq_self_eq_true, Bool.true_and, bne_iff_ne]; exact hd

/-! ## The home while no L2 holds a dirty byte -/

/-- No L2 holds a dirty byte. -/
def MemSys.Clean (m : MemSys) : Prop := ∀ z ∈ m.l2, z.dirty = 0

/-- A recall then writes nothing, and none becomes dirty. -/
theorem MemSys.Clean.recall {m : MemSys} (h : m.Clean) (line : Nat) (keep : Nat → Bool) : (m.recall line keep).home = m.home ∧ (m.recall line keep).Clean := by
  have hnone : (m.l2.filter fun x => x.sec / 4 == line && x.dirty != 0 && !keep x.die) = [] :=
    List.filter_eq_nil_iff.2 fun x hx => by simp [h x hx]
  refine ⟨?_, fun z hz => ?_⟩
  · change (List.foldl MemSys.writeBack m (m.l2.filter fun x => x.sec / 4 == line && x.dirty != 0 && !keep x.die)).home = m.home
    rw [hnone]
    rfl
  · obtain ⟨x, hx, rfl⟩ := List.mem_map.1 (List.mem_filter.1 hz).1
    rw [(MemSys.writeBacks_onlyHome _ m).l2_eq] at hx
    split
    · rfl
    · exact h x hx

/-- Nor do recalls of several lines. -/
theorem MemSys.Clean.recalls {m : MemSys} (h : m.Clean) (f : Nat → Nat) (keep : Nat → Bool) (is : List Nat) :
    (is.foldl (fun m i => m.recall (f i) keep) m).home = m.home ∧ (is.foldl (fun m i => m.recall (f i) keep) m).Clean := by
  induction is generalizing m with
  | nil => exact ⟨rfl, h⟩
  | cons i is ih =>
    obtain ⟨hhome, hclean⟩ := h.recall (f i) keep
    obtain ⟨hh, hc⟩ := ih hclean
    exact ⟨hh.trans hhome, hc⟩

/-- A read at the home gives the bytes that stand there and changes none. -/
theorem State.homeRead_of_clean {s : State} (h : s.mem.Clean) (pa n : Nat) :
    (s.homeRead pa n).1 = readBytes s.mem.home pa n ∧ (s.homeRead pa n).2.mem.home = s.mem.home ∧ (s.homeRead pa n).2.mem.Clean := by
  obtain ⟨hh, hc⟩ := h.recalls (fun i => lineOf (pa + i)) (fun _ => false) (List.range n)
  exact ⟨congrArg (readBytes · pa n) hh, hh, hc⟩

/-- A byte at the home after bytes are written there one after another. -/
theorem MemSys.Clean.readByte_writes {m : MemSys} (h : m.Clean) (stamp : Option Stamp) (pa : Nat) (bs : List Byte) (n : Nat) :
    ((List.range n).foldl (fun m i => (m.recall (lineOf (pa + i)) fun _ => false).putHome (pa + i) ⟨bs.getD i 0, stamp⟩) m).Clean
    ∧ ∀ a, readByte ((List.range n).foldl (fun m i => (m.recall (lineOf (pa + i)) fun _ => false).putHome (pa + i) ⟨bs.getD i 0, stamp⟩) m).home a
        = if pa ≤ a ∧ a < pa + n then bs.getD (a - pa) 0 else readByte m.home a := by
  induction n with
  | zero => exact ⟨h, fun a => (if_neg (by omega)).symm⟩
  | succ n ih =>
    rw [List.range_succ, List.foldl_append, List.foldl_cons, List.foldl_nil]
    obtain ⟨hc, hr⟩ := ih
    obtain ⟨hhome, hclean⟩ := hc.recall (lineOf (pa + n)) fun _ => false
    refine ⟨hclean, fun a => ?_⟩
    rw [MemSys.readByte_putHome, hhome, hr]
    by_cases ha : a = pa + n
    · subst ha
      simp
    · rw [if_neg ha]
      simp only [show a < pa + (n + 1) ↔ a < pa + n by omega]

/-! ## Numbers in little-endian bytes (R2) -/

/-- The number of the bytes of a number. -/
theorem numLE_bytesLE (n : Nat) : ∀ x, numLE (bytesLE n x) = x % 256 ^ n := by
  induction n with
  | zero => intro x; simp [bytesLE, numLE, Nat.mod_one]
  | succ n ih => intro x; rw [bytesLE, numLE, ih, BitVec.toNat_ofNat, show 2 ^ 8 = 256 from rfl, Nat.pow_succ', Nat.mod_mul]

/-- A number has as many bytes as it is written in. -/
theorem length_bytesLE (n : Nat) : ∀ x, (bytesLE n x).length = n := by
  induction n with
  | zero => intro x; rfl
  | succ n ih => intro x; rw [bytesLE, List.length_cons, ih]

/-- A number written at the home is read back there. -/
theorem State.readNum_homeWrite {s : State} (h : s.mem.Clean) (pa n x : Nat) :
    readNum (s.homeWrite pa (bytesLE n x)).mem.home pa n = x % 256 ^ n := by
  have hbytes : readBytes (s.homeWrite pa (bytesLE n x)).mem.home pa n = bytesLE n x := by
    have hr := (h.readByte_writes none pa (bytesLE n x) (bytesLE n x).length).2
    refine List.ext_getElem (by simp [readBytes, length_bytesLE]) fun i hi hi' => ?_
    rw [length_bytesLE] at hi'
    simp only [readBytes, List.getElem_map, List.getElem_range]
    refine (hr (pa + i)).trans ?_
    rw [if_pos (by rw [length_bytesLE]; omega), Nat.add_sub_cancel_left, List.getD_eq_getElem]
  rw [readNum, hbytes, numLE_bytesLE]

end Sys2Proof.Machine
end

section
/-! PROOFS. The events of the memory path (O52). -/

namespace Sys2Proof.Machine

/-! ## The additions of a STAT (R91, R92) -/

@[simp] theorem State.homeWrite_reqs (s : State) (pa : Nat) (bs : List Byte) : (s.homeWrite pa bs).reqs = s.reqs := rfl
@[simp] theorem State.homeRead_reqs (s : State) (pa n : Nat) : (s.homeRead pa n).2.reqs = s.reqs := rfl

/-- A fault-log record drops no request. -/
@[simp] theorem State.logRecord_reqs (s : State) (r : LogRec) : (s.logRecord r).reqs = s.reqs := by
  unfold State.logRecord
  dsimp only
  split
  · rfl
  · split <;> simp only [State.homeWrite_reqs]

/-- Nor does an addition, made or dropped. -/
@[simp] theorem State.statAdd_reqs (s : State) (b : StatBy) (va n : Nat) : (s.statAdd b va n).reqs = s.reqs := by
  unfold State.statAdd
  dsimp only
  split
  · split
    · exact s.logRecord_reqs _
    · rfl
  · repeat' split
    · exact s.logRecord_reqs _
    · exact s.logRecord_reqs _
    · exact s.logRecord_reqs _
    · simp only [State.homeWrite_reqs, State.homeRead_reqs]

/-- A `STAT` that performs is over; every other request stands. -/
theorem State.performStat_reqs (s : State) (r : Req) (words : List (Nat × Nat)) : (s.performStat r words).reqs = s.reqs.filter fun q => q.id != r.id := by
  have hfold : ∀ (b : StatBy) (d : State × Nat → Nat × Nat → Nat) (ps : List (Nat × Nat)) (t : State × Nat), t.1.reqs = s.reqs →
      (ps.foldl (fun t p => (t.1.statAdd b p.1 p.2, d t p)) t).1.reqs = s.reqs := by
    intro b d ps
    induction ps with
    | nil => exact fun t ht => ht
    | cons p ps ih => exact fun t ht => ih _ ((t.1.statAdd_reqs b p.1 p.2).trans ht)
  unfold State.performStat
  dsimp only
  split <;> exact congrArg (List.filter fun q => q.id != r.id) (hfold _ _ words (s, 0) rfl)

/-- A word that may be added to holds the saturating sum (R91). -/
theorem State.readNum_statAdd {s : State} {b : StatBy} {va n pa : Nat} {e : DWord} (hx : s.xlate b.unit b.ctx va = .ok pa e) (hr : leafRead e = true)
    (hw : leafWrite e = true) (hgr : s.grantedAll b.ctx.toNat b.cls pa 4 false = true) (hgw : s.grantedAll b.ctx.toNat b.cls pa 4 true = true)
    (hp : s.mem.poisoned pa 4 = false) (hc : s.mem.Clean) :
    readNum (s.statAdd b va n).mem.home pa 4 = min (2 ^ 32 - 1) (readNum s.mem.home pa 4 + n) := by
  obtain ⟨hread, -, hclean⟩ := State.homeRead_of_clean hc pa 4
  have hhome : (s.statAdd b va n).mem.home
      = ((s.homeRead pa 4).2.homeWrite pa (bytesLE 4 (satAdd 32 (numLE (s.homeRead pa 4).1) n))).mem.home := by
    simp only [State.statAdd, hx, hr, hw, hgr, hgw, hp, Bool.not_true, Bool.or_self, Bool.false_eq_true, if_false]
  rw [hhome, State.readNum_homeWrite hclean, hread, satAdd, readNum]
  omega

/-- The one addition of a `STAT` is all it does to the home. -/
theorem State.performStat_home (s : State) (r : Req) (va n : Nat) : ∃ b : StatBy, b.unit = r.core ∧ b.ctx = r.ctx ∧ b.cls = 0
    ∧ (s.performStat r [(va, n)]).mem.home = (s.statAdd b va n).mem.home := by
  refine ⟨⟨r.ctx, 0, r.core, dieOfCore r.core, r.core, r.pos, s.taskOf r.uid⟩, rfl, rfl, rfl, ?_⟩
  unfold State.performStat
  dsimp only
  split <;> rfl

/-- The message of a `STAT` that has come performs it. -/
theorem exec_storeNoticeArrive_stat {s : State} {id statp : Nat} {r : Req} {words : List (Nat × Nat)} {ps : Parts} (home : Bool) (hr : s.reqOf id = some r)
    (hk : r.kind = .stat words statp) (hc : s.came r = true) (hid : ps.id = id) :
    exec (.storeNoticeArrive ⟨ps, home⟩) s = .next (s.performStat r words) := by
  change execStoreNoticeArrive ⟨ps, home⟩ s = _
  simp only [execStoreNoticeArrive, hid, hr, hk, hc, if_true]

/-! ## Requests and warps after an update -/

/-- The request found under a number has that number. -/
theorem State.id_of_reqOf {s : State} {id : Nat} {r : Req} (h : s.reqOf id = some r) : r.id = id := by simpa using List.find?_some h

/-- The request with a number after an update that keeps numbers. -/
theorem State.reqOf_mapReq {f : Req → Req} (hf : ∀ r, (f r).id = r.id) (s : State) (id : Nat) : (s.mapReq id f).reqOf id = (s.reqOf id).map f :=
  find?_updWhere (fun _ h => h) (fun r _ => by rw [hf]) s.reqs

/-- An update of one request keeps the others. -/
theorem State.mem_mapReq {f : Req → Req} (hf : ∀ r, (f r).id = r.id) {s : State} {id : Nat} {q : Req} (hq : q.id ≠ id) :
    q ∈ (s.mapReq id f).reqs ↔ q ∈ s.reqs := by
  rw [State.mapReq_reqs, updWhere, List.mem_map]
  constructor
  · rintro ⟨x, hx, rfl⟩
    by_cases h : (x.id == id) = true
    · rw [if_pos h, hf] at hq
      exact absurd (beq_iff_eq.1 h) hq
    · rwa [if_neg h]
  · exact fun h => ⟨q, h, by rw [if_neg (by simpa using hq)]⟩

/-- The warps after an update of one. -/
theorem State.warps_mapWarp (s : State) (uid : Nat) (f : Warp → Warp) : (s.mapWarp uid f).warps = updWhere (fun w => w.uid == uid) f s.warps := by
  simp only [State.warps, State.mapWarp_cur, State.mapWarp_others, updWhere, List.map_cons, beq_iff_eq]

/-- The warp of a name after an update that keeps names. -/
theorem State.warpOf_mapWarp {f : Warp → Warp} (hf : ∀ w, (f w).uid = w.uid) (s : State) (uid : Nat) : (s.mapWarp uid f).warpOf uid = (s.warpOf uid).map f := by
  unfold State.warpOf
  rw [State.warps_mapWarp]
  exact find?_updWhere (fun w h => (Bool.and_eq_true_iff.1 h).1) (fun w _ => by rw [hf]) s.warps

/-! ## The push (R119, R123) -/

/-- Completion times with that at `.sys` raised to a time and to that at `.dev`. -/
def pushedTimes (ts : List Nat) (at' : Nat) : List Nat := (List.range 5).map fun i => max (ts.getD i 0) (if i = 4 then max at' (ts.getD 3 0) else 0)

/-- A warp whose stores are at their homes by a push. -/
def Warp.pushedAt (at' : Nat) (w : Warp) : Warp := { w with ctime := pushedTimes w.ctime at' }

theorem Warp.pushedAt_uid (at' : Nat) (w : Warp) : (w.pushedAt at').uid = w.uid := rfl

/-- Raising the completion time at `.sys`. -/
theorem Warp.raiseCtime_sys (w : Warp) (at' : Nat) : w.raiseCtime [0, 0, 0, 0, max at' (w.ctime.getD 3 0)] = w.pushedAt at' := rfl

/-- A push writes the dirty bytes of its die and raises the warp's time at `.sys`. -/
theorem State.pushFor_eq (s : State) (uid die : Nat) :
    s.pushFor uid die = State.mapWarp { s with mem := s.mem.push die } uid (Warp.pushedAt (s.pushTime die)) := by
  simp only [State.pushFor, Warp.raiseCtime_sys]

/-- The warp that pushes. -/
theorem State.warpOf_pushFor (s : State) (uid die : Nat) : (s.pushFor uid die).warpOf uid = (s.warpOf uid).map (Warp.pushedAt (s.pushTime die)) := by
  rw [State.pushFor_eq, State.warpOf_mapWarp (Warp.pushedAt_uid _)]
  rfl

/-! ## RELEASE_SEND (R119, R137) -/

/-- A release of a warp that has not been sent, and before which everything has performed at its scope. -/
structure State.MayRelease (s : State) (id : Nat) (r : Req) (m : MemReq) (w : Warp) : Prop where
  req : s.reqOf id = some r
  kind : r.kind = .mem m
  warp : s.warpOf r.uid = some w
  rel : m.ord.getLsbD 1 = true
  unsent : r.sent = false
  older : ∀ q ∈ s.reqs, q.uid = r.uid → q.id < r.id → q.checked = true ∧ q.openAt m.scope = false
  reached : ∀ i < m.scope, w.ctime.getD i 0 ≤ s.tideOf (w.core / 24)

/-- What RELEASE_SEND tests. -/
theorem State.MayRelease.test {s : State} {id : Nat} {r : Req} {m : MemReq} {w : Warp} (h : s.MayRelease id r m w) :
    (m.rel && !r.sent && !((s.older r).any fun x => !x.checked || x.openAt m.scope) && s.ctimeReached w m.scope) = true := by
  have hrel : m.rel = true := h.rel
  have hold : ((s.older r).any fun x => !x.checked || x.openAt m.scope) = false := by
    rw [List.any_eq_false]
    intro q hq
    obtain ⟨hmem, hwho⟩ := List.mem_filter.1 hq
    obtain ⟨hu, hlt⟩ := Bool.and_eq_true_iff.1 hwho
    obtain ⟨hc, ho⟩ := h.older q hmem (beq_iff_eq.1 hu) (of_decide_eq_true hlt)
    simp [hc, ho]
  have htime : s.ctimeReached w m.scope = true :=
    List.all_eq_true.2 fun i hi => decide_eq_true (h.reached i (List.mem_range.1 hi))
  simp only [hrel, h.unsent, hold, htime, Bool.not_false, Bool.and_self]

/-- A release that leaves a die, to be delivered 8 tk after a time (R135). -/
def Req.send (die time : Nat) (x : Req) : Req := { x with sent := true, due := (die, time + 8) }

theorem Req.send_id (die time : Nat) (x : Req) : (x.send die time).id = x.id := rfl

/-- A release below `.sys` leaves its core. -/
theorem State.MayRelease.exec_near {s : State} {id : Nat} {r : Req} {m : MemReq} {w : Warp} (h : s.MayRelease id r m w) (hs : m.scope ≠ 5) :
    exec (.releaseSend id) s = .next (s.mapReq id (Req.send (r.core / 24) (s.tideOf (r.core / 24)))) := by
  change execReleaseSend id s = _
  have hmem : r.mem? = some m := by rw [Req.mem?, h.kind]
  have hno : (some w).filter (fun _ => m.scope == 5) = none := by simp [hs]
  simp only [execReleaseSend, h.req, hmem, h.warp, h.test, if_true, hs, if_false, hno, Nat.zero_max]
  rfl

/-- One at `.sys` pushes, and leaves once the times of the push are reached. -/
theorem State.MayRelease.exec_sys {s : State} {id : Nat} {r : Req} {m : MemReq} {w : Warp} (h : s.MayRelease id r m w) (hs : m.scope = 5) :
    exec (.releaseSend id) s = .next ((s.pushFor r.uid (r.core / 24)).mapReq id
      (Req.send (r.core / 24) (max ((pushedTimes w.ctime (s.pushTime (r.core / 24))).getD 4 0) (s.tideOf (r.core / 24))))) := by
  change execReleaseSend id s = _
  have hmem : r.mem? = some m := by rw [Req.mem?, h.kind]
  have hw : (s.pushFor r.uid (dieOfCore r.core)).warpOf r.uid = some (w.pushedAt (s.pushTime (dieOfCore r.core))) := by
    rw [State.warpOf_pushFor, h.warp, Option.map_some]
  have ht := h.test
  rw [hs] at ht
  simp only [execReleaseSend, h.req, hmem, h.warp, hs, ht, if_true, hw, beq_self_eq_true, Option.filter_some]
  rfl

/-! ## Acquires and fences (R119, R138, R139) -/

/-- An acquire of the warp in focus ends. -/
theorem exec_acquireComplete {s : State} {core pos : Nat} (hw : s.warpAt core pos = some s.cur) (ht : s.cur.acqUntil ≤ s.tideOf (core / 24)) :
    exec (.acquireComplete core pos) s = .next (s.mapWarp s.cur.uid fun w => { w with acqUntil := 0 }) := by
  change execAcquireComplete core pos s = _
  simp only [execAcquireComplete, hw, dieOfCore, ht, if_true]

/-- A fence once the pushes that may be made are. -/
def State.afterPush (s : State) (f : FenceCond) : FenceCond := { f with pushed := f.pushed || s.mayPush s.cur f }

/-- The state once the fences of the warp in focus that may push have. -/
def State.fencesPushed (s : State) (die : Nat) : State :=
  if s.cur.fences.any (s.mayPush s.cur) then
    (s.pushFor s.cur.uid die).mapWarp s.cur.uid fun w => { w with fences := w.fences.map s.afterPush }
  else s

/-- No fence may push: nothing happens. -/
theorem State.fencesPushed_of_none {s : State} (die : Nat) (h : ∀ f ∈ s.cur.fences, s.mayPush s.cur f = false) : s.fencesPushed die = s := by
  have hany : s.cur.fences.any (s.mayPush s.cur) = false := List.any_eq_false.2 fun f hf => by simp [h f hf]
  rw [State.fencesPushed, hany]
  rfl

/-- Some fence may push: the die's dirty bytes reach the home and the warp's times at `.sys` are known. -/
theorem State.fencesPushed_of_some {s : State} (die : Nat) (h : ∃ f ∈ s.cur.fences, s.mayPush s.cur f = true) :
    (s.fencesPushed die).mem = s.mem.push die
    ∧ (s.fencesPushed die).cur = { s.cur with ctime := pushedTimes s.cur.ctime (s.pushTime die), fences := s.cur.fences.map s.afterPush } := by
  have hany : s.cur.fences.any (s.mayPush s.cur) = true := List.any_eq_true.2 h
  rw [State.fencesPushed, hany, if_pos rfl, State.pushFor_eq]
  refine ⟨rfl, ?_⟩
  simp only [State.mapWarp_cur, Warp.pushedAt_uid, if_true]
  rfl

/-- Only the warps and memory change. -/
theorem State.fencesPushed_rest (s : State) (die : Nat) : ∃ cur others mem, s.fencesPushed die = { s with cur := cur, others := others, mem := mem } := by
  unfold State.fencesPushed
  split
  · rw [State.pushFor_eq]
    exact ⟨_, _, _, rfl⟩
  · exact ⟨_, _, _, rfl⟩

/-- The fences stand as `afterPush` says, and only the completion times change besides. -/
theorem State.fencesPushed_cur (s : State) (die : Nat) :
    ∃ ctime, (s.fencesPushed die).cur = { s.cur with ctime := ctime, fences := s.cur.fences.map s.afterPush } := by
  by_cases h : ∃ f ∈ s.cur.fences, s.mayPush s.cur f = true
  · exact ⟨_, (State.fencesPushed_of_some die h).2⟩
  · have hno : ∀ f ∈ s.cur.fences, s.mayPush s.cur f = false := fun f hf => Bool.eq_false_iff.2 fun e => h ⟨f, hf, e⟩
    have hmap : s.cur.fences.map s.afterPush = s.cur.fences := by
      refine (List.map_congr_left fun f hf => ?_).trans (List.map_id _)
      rw [State.afterPush, hno f hf, Bool.or_false]
      rfl
    rw [State.fencesPushed_of_none die hno, hmap]
    exact ⟨_, rfl⟩

/-- A warp without its fences whose conditions hold. -/
def State.endFences (s : State) (w : Warp) : Warp :=
  if w.fences.any (s.fenceMet w) then { w.refetch with fences := w.fences.filter fun f => !s.fenceMet w f } else w

/-- The fences of the warp in focus that may push do, and those whose conditions then hold end. -/
theorem exec_fenceComplete {s : State} {core pos : Nat} (hw : s.warpAt core pos = some s.cur) :
    exec (.fenceComplete core pos) s = .next ((s.fencesPushed (core / 24)).mapWarp s.cur.uid (s.fencesPushed (core / 24)).endFences) := by
  change execFenceComplete core pos s = _
  simp only [execFenceComplete, hw]
  rfl

/-- The fences that remain are those whose conditions do not hold. -/
theorem State.mem_endFences {s : State} {w : Warp} {g : FenceCond} : g ∈ (s.endFences w).fences ↔ g ∈ w.fences ∧ s.fenceMet w g = false := by
  unfold State.endFences
  split
  · simp
  · next h =>
    rw [Bool.not_eq_true, List.any_eq_false] at h
    exact ⟨fun hg => ⟨hg, by simpa using h g hg⟩, fun hg => hg.1⟩

/-- Nothing but the fences and what it has fetched changes of the warp. -/
theorem State.endFences_rest (s : State) (w : Warp) : ∃ fences fetched, s.endFences w = { w with fences := fences, fetched := fetched } := by
  unfold State.endFences
  split <;> exact ⟨_, _, rfl⟩

/-- The warp that ends fences has its completion times. -/
theorem State.endFences_ctime (s : State) (w : Warp) : (s.endFences w).ctime = w.ctime := by
  obtain ⟨_, _, h⟩ := s.endFences_rest w
  rw [h]

/-- The end of fences changes no fence's conditions. -/
theorem State.fenceMet_endFences (s : State) (uid : Nat) (f : FenceCond) :
    (s.mapWarp uid s.endFences).fenceMet (s.endFences s.cur) f = s.fenceMet s.cur f := by
  obtain ⟨_, _, h⟩ := s.endFences_rest s.cur
  rw [h]
  rfl

/-- The warp in focus after FENCE_COMPLETE. -/
theorem State.cur_fencesEnded (s : State) (die : Nat) : ((s.fencesPushed die).mapWarp s.cur.uid (s.fencesPushed die).endFences).cur
    = (s.fencesPushed die).endFences (s.fencesPushed die).cur := by
  obtain ⟨_, h⟩ := s.fencesPushed_cur die
  rw [State.mapWarp_cur, if_pos (by rw [h])]

/-- The fences that the warp in focus then has: those whose conditions do not hold once they have pushed. -/
theorem State.mem_fencesEnded {s : State} {die : Nat} {g : FenceCond} : g ∈ ((s.fencesPushed die).endFences (s.fencesPushed die).cur).fences ↔
    ∃ f ∈ s.cur.fences, g = s.afterPush f ∧ (s.fencesPushed die).fenceMet (s.fencesPushed die).cur g = false := by
  have hfences : (s.fencesPushed die).cur.fences = s.cur.fences.map s.afterPush := by
    obtain ⟨_, h⟩ := s.fencesPushed_cur die
    rw [h]
  rw [State.mem_endFences, hfences, List.mem_map]
  constructor
  · rintro ⟨⟨f, hf, rfl⟩, hm⟩
    exact ⟨f, hf, rfl, hm⟩
  · rintro ⟨f, hf, rfl, hm⟩
    exact ⟨⟨f, hf, rfl⟩, hm⟩

/-- The warp in focus and the part after FENCE_COMPLETE but for fences, completion times, what the warp has fetched, and memory. -/
theorem State.fencesEnded_rest (s : State) (die : Nat) :
    (∃ fences ctime fetched, (s.fencesPushed die).endFences (s.fencesPushed die).cur = { s.cur with fences := fences, ctime := ctime, fetched := fetched })
    ∧ ∃ cur others mem, (s.fencesPushed die).mapWarp s.cur.uid (s.fencesPushed die).endFences = { s with cur := cur, others := others, mem := mem } := by
  obtain ⟨_, hcur⟩ := s.fencesPushed_cur die
  obtain ⟨_, _, hend⟩ := (s.fencesPushed die).endFences_rest (s.fencesPushed die).cur
  obtain ⟨_, _, _, hstate⟩ := s.fencesPushed_rest die
  refine ⟨⟨_, _, _, hend.trans (by rw [hcur])⟩, ?_⟩
  rw [State.mapWarp, hstate]
  exact ⟨_, _, _, rfl⟩

/-! ## FAULT_ROLLBACK (R229) -/

/-- The warp in focus stands as before request `r` issued, and that request and every later one of the warp is dropped. -/
def State.rolledBack (s : State) (r : Req) (saved : Arch) : State :=
  State.unqueue { s with
    cur := s.cur.rollBack r.id saved
    reqs := s.reqs.filter fun x => !(x.uid == s.cur.uid && decide (r.id ≤ x.id)) }
    ((s.reqs.filter fun x => x.uid == s.cur.uid && decide (r.id ≤ x.id)).map (·.id)).contains

/-- The requests that a rollback keeps. -/
theorem State.mem_rolledBack_reqs {s : State} {r q : Req} {saved : Arch} :
    q ∈ (s.rolledBack r saved).reqs ↔ q ∈ s.reqs ∧ ¬(q.uid = s.cur.uid ∧ r.id ≤ q.id) := by
  refine List.mem_filter.trans (and_congr_right fun _ => ?_)
  rw [Bool.not_eq_true', ← Bool.not_eq_true, Bool.and_eq_true, beq_iff_eq, decide_eq_true_iff]

/-- Accesses that leave the queues of the arrays are in none. -/
theorem State.not_mem_unqueue {s : State} {gone : Nat → Bool} {a : ArrayRec} {k : Nat} (ha : a ∈ (s.unqueue gone).arrays) (hk : gone k = true) :
    .access k ∉ a.queue := by
  obtain ⟨b, -, rfl⟩ := List.mem_map.1 ha
  intro hmem
  have := (List.mem_filter.1 hmem).2
  simp [hk] at this

/-- Nothing of the arrays but their queues changes. -/
theorem State.map_unqueue (s : State) (gone : Nat → Bool) :
    (s.unqueue gone).arrays.map (fun a => { a with queue := [] }) = s.arrays.map fun a => { a with queue := [] } := by
  rw [State.unqueue, List.map_map]
  rfl

/-- The holds that a rollback keeps: all but those of the instructions it drops. -/
theorem Warp.mem_rollBack_holds {w : Warp} {id : Nat} {a : Arch} {h : Hold} :
    h ∈ (w.rollBack id a).holds ↔ h ∈ w.holds ∧ ∀ k, h.kind = .queue k ∨ h.kind = .jobs k → k < id := by
  refine List.mem_filter.trans (and_congr_right fun _ => ?_)
  cases h.kind <;> simp

/-- A trap is taken at once by a warp that may take it. -/
theorem State.takeTrap_enters {s : State} (t : TrapInfo) (hu : s.unchecked s.cur.uid = []) (hh : s.cur.arch.handler = none)
    (ht : s.cur.hdr.traph ≠ 0) : s.takeTrap s t = s.enterHandler t := by
  simp only [State.takeTrap, hu, List.isEmpty_nil, if_true, hh, ht, if_false]

/-- No unchecked access of the warp remains once its older ones are checked. -/
theorem State.rolledBack_unchecked {s : State} {r : Req} (saved : Arch) (hc : ∀ q ∈ s.reqs, q.uid = s.cur.uid → q.id < r.id → q.checked = true) :
    (s.rolledBack r saved).unchecked (s.rolledBack r saved).cur.uid = [] := by
  change List.filter _ (List.filter _ s.reqs) = []
  rw [List.filter_filter, List.filter_eq_nil_iff]
  intro q hq hbad
  simp only [Bool.and_eq_true, Bool.not_eq_true', Bool.and_eq_false_iff, decide_eq_false_iff_not, not_le, beq_iff_eq, beq_eq_false_iff_ne] at hbad
  obtain ⟨⟨hu, hun⟩, hold⟩ := hbad
  have hu : q.uid = s.cur.uid := hu
  rcases hold with hne | hlt
  · exact hne hu
  · rw [hc q hq hu hlt] at hun
    exact absurd hun (by decide)

/-- A rollback restores the checkpoint of the oldest failing access and enters the handler. -/
theorem exec_faultRollback {s : State} {core pos : Nat} {r : Req} {tr : TrapInfo} {saved : Arch} (hw : s.warpAt core pos = some s.cur)
    (hr : (s.reqs.find? fun q => q.uid == s.cur.uid && q.fault.isSome) = some r) (hf : r.fault = some tr) (hh : saved.handler = none)
    (hs : (s.cur.snaps.find? fun p => p.1 == r.id) = some (r.id, saved)) (hc : ∀ q ∈ s.reqs, q.uid = r.uid → q.id < r.id → q.checked = true)
    (ht : s.cur.hdr.traph ≠ 0) :
    exec (.faultRollback core pos) s = .next ((s.rolledBack r saved).enterHandler { tr with hmask := tr.hmask &&& saved.live }) := by
  have huid : r.uid = s.cur.uid := by
    have := List.find?_some hr
    simp only [Bool.and_eq_true, beq_iff_eq] at this
    exact this.1
  have hold : ((s.older r).any fun x => !x.checked) = false := by
    rw [List.any_eq_false]
    intro q hq
    obtain ⟨hmem, hwho⟩ := List.mem_filter.1 hq
    obtain ⟨hu, hlt⟩ := Bool.and_eq_true_iff.1 hwho
    simp [hc q hmem (beq_iff_eq.1 hu) (of_decide_eq_true hlt)]
  have hfocus : s.focus s.cur.uid = s := by rw [State.focus, if_pos rfl]
  have htrap := State.takeTrap_enters (s := s.rolledBack r saved) { tr with hmask := tr.hmask &&& saved.live }
    (State.rolledBack_unchecked saved fun q hq hu => hc q hq (hu.trans huid.symm)) hh ht
  rw [← htrap]
  change execFaultRollback core pos s = _
  simp only [execFaultRollback, hw, hr, hf, hs, hold, Bool.false_eq_true, if_false, hfocus]
  rfl

/-! ## Leases (R118) -/

/-- An L1 copy whose lease has passed is dropped. -/
theorem exec_leaseExpire_l1 {s : State} {unit sec : Nat} {x : L1Sector} (hx : s.mem.l1At unit sec = some x) (he : x.expiry < s.tideOf (unit / 24)) :
    exec (.leaseExpire false unit sec) s = .next { s with mem := s.mem.dropL1 unit sec } := by
  change execLeaseExpire false unit sec s = _
  simp only [execLeaseExpire, Bool.false_eq_true, if_false, hx, dieOfCore, he, if_true]

/-- An L2 copy whose lease has passed loses it. -/
theorem exec_leaseExpire_l2 {s : State} {unit sec : Nat} {y : L2Sector} (hy : s.mem.l2At unit sec = some y)
    (he : y.expiry.any (fun k => decide (k < s.tideOf unit)) = true) :
    exec (.leaseExpire true unit sec) s = .next { s with mem := s.mem.putL2 { y with expiry := none } } := by
  change execLeaseExpire true unit sec s = _
  simp only [execLeaseExpire, if_true, hy, he]

/-- What an L1 holds once a sector is dropped. -/
theorem MemSys.mem_dropL1 {m : MemSys} {core sec : Nat} {z : L1Sector} : z ∈ (m.dropL1 core sec).l1 ↔ z ∈ m.l1 ∧ ¬(z.core = core ∧ z.sec = sec) := by
  simp only [MemSys.dropL1, List.mem_filter, Bool.not_eq_true', ← Bool.not_eq_true, Bool.and_eq_true, beq_iff_eq]

/-- A dropped sector is not there. -/
theorem MemSys.l1At_dropL1 (m : MemSys) (core sec : Nat) : (m.dropL1 core sec).l1At core sec = none := by
  refine List.find?_eq_none.2 fun z hz hhere => ?_
  rw [Bool.and_eq_true, beq_iff_eq, beq_iff_eq] at hhere
  exact (MemSys.mem_dropL1.1 hz).2 hhere

/-- Where a sector found in an L2 stands. -/
theorem MemSys.place_of_l2At {m : MemSys} {die sec : Nat} {x : L2Sector} (h : m.l2At die sec = some x) : x.die = die ∧ x.sec = sec := by
  simpa using List.find?_some h

/-- A sector put in an L2 is there, unless it has neither lease nor dirty byte. -/
theorem MemSys.l2At_putL2 (m : MemSys) (x : L2Sector) :
    (m.putL2 x).l2At x.die x.sec = if x.expiry.isNone && x.dirty == 0 then none else some x := by
  unfold MemSys.putL2 MemSys.l2At
  dsimp only
  split
  · rw [List.find?_eq_none]
    intro z hz
    simpa only [Bool.not_eq_true', Bool.not_eq_true] using (List.mem_filter.1 hz).2
  · rw [List.find?_cons_of_pos (by simp)]

/-! ## Eviction (R121) -/

/-- A line may leave an L2 while no line is marked to leave first, or when it is one of those. -/
theorem exec_l2Eviction {s : State} {die line : Nat}
    (h : (∀ z ∈ s.mem.l2, z.die = die → z.ef = false) ∨ ∃ z ∈ s.mem.l2, z.die = die ∧ z.ef = true ∧ z.sec / 4 = line) :
    exec (.l2Eviction die line) s = .next { s with mem := s.mem.evict die line } := by
  have hmay : ((s.mem.efLines die).isEmpty || (s.mem.efLines die).contains line) = true := by
    rw [Bool.or_eq_true, List.isEmpty_iff, List.contains_iff_mem, MemSys.mem_efLines]
    refine h.imp_left fun hno => List.eq_nil_iff_forall_not_mem.2 fun k hk => ?_
    obtain ⟨z, hz, hd, hef, -⟩ := MemSys.mem_efLines.1 hk
    rw [hno z hz hd] at hef
    exact absurd hef (by decide)
  change execL2Eviction die line s = _
  rw [execL2Eviction, hmay, if_pos rfl]

/-- While others are marked to leave first, no other line leaves. -/
theorem exec_l2Eviction_of_others {s : State} {die line : Nat} (hex : ∃ z ∈ s.mem.l2, z.die = die ∧ z.ef = true)
    (hno : ∀ z ∈ s.mem.l2, z.die = die → z.ef = true → z.sec / 4 ≠ line) : exec (.l2Eviction die line) s = .next s := by
  have hmay : ¬((s.mem.efLines die).isEmpty || (s.mem.efLines die).contains line) = true := by
    rw [Bool.or_eq_true, List.isEmpty_iff, List.contains_iff_mem, MemSys.mem_efLines]
    rintro (hnil | ⟨z, hz, hd, hef, hl⟩)
    · obtain ⟨z, hz, hd, hef⟩ := hex
      have hmem := MemSys.mem_efLines.2 ⟨z, hz, hd, hef, rfl⟩
      rw [hnil] at hmem
      exact absurd hmem List.not_mem_nil
    · exact hno z hz hd hef hl
  change execL2Eviction die line s = _
  rw [execL2Eviction, if_neg hmay]

/-! ## Page walks (R126) -/

/-- A filled entry is in the TLB. -/
theorem mem_addTlb_self (t : TlbEntry) (ts : List TlbEntry) : t ∈ addTlb t ts := List.mem_cons_self

/-- An entry of another unit stays. -/
theorem mem_addTlb_of_mem {t x : TlbEntry} {ts : List TlbEntry} (hx : x ∈ ts) (hu : x.unit ≠ t.unit) : x ∈ addTlb t ts :=
  List.mem_cons_of_mem t (List.mem_append_right _ (List.mem_filter.2 ⟨hx, bne_iff_ne.2 hu⟩))

/-- The entry of a unit's TLB for the leaf that maps an address. -/
def State.tlbLeaf (s : State) (ctx : BitVec 3) (va : Nat) (e : DWord) (unit : Nat) : TlbEntry :=
  let size := leafSize s.mem.home (s.descOf ctx.toNat 0) va
  ⟨unit, ctx, va / size * size, size, e⟩

/-- A leaf has a size. -/
theorem leafSize_pos (home : List Host.Cell) (root va : Nat) : 0 < leafSize home root va := by
  unfold leafSize
  dsimp only
  split
  · decide
  · split <;> decide

/-- The entry maps the address. -/
theorem State.tlbLeaf_maps (s : State) (ctx : BitVec 3) (va : Nat) (e : DWord) (unit : Nat) :
    (s.tlbLeaf ctx va e unit).va ≤ va ∧ va < (s.tlbLeaf ctx va e unit).va + (s.tlbLeaf ctx va e unit).size :=
  ⟨Nat.div_mul_le_self _ _, Nat.lt_div_mul_add (leafSize_pos _ _ _)⟩

/-- A fill changes the TLBs only. -/
theorem State.fillTlb_rest (s : State) (core : Nat) (ctx : BitVec 3) (va : Nat) :
    s.fillTlb core ctx va = { s with mem := { s.mem with tlb := (s.fillTlb core ctx va).mem.tlb } } := by
  unfold State.fillTlb
  split
  · rfl
  · split
    · rfl
    · split <;> rfl

/-- A walk that succeeds where both TLBs have missed fills both. -/
theorem State.fillTlb_of_walk {s : State} {core : Nat} {ctx : BitVec 3} {va pa : Nat} {e : DWord} (h1 : s.tlbHit core ctx va = none)
    (h2 : s.tlbHit (192 + core / 24) ctx va = none) (hw : s.walkVa ctx va = .ok pa e) :
    (s.fillTlb core ctx va).mem.tlb = addTlb (s.tlbLeaf ctx va e (192 + core / 24)) (addTlb (s.tlbLeaf ctx va e core) s.mem.tlb) := by
  simp only [State.fillTlb, h1, dieOfCore, h2, hw]
  rfl

/-- A walk that fails records nothing. -/
theorem State.fillTlb_of_bad {s : State} {core : Nat} {ctx : BitVec 3} {va d l : Nat} (h2 : s.tlbHit (192 + core / 24) ctx va = none)
    (hw : s.walkVa ctx va = .bad d l) : s.fillTlb core ctx va = s := by
  unfold State.fillTlb
  split
  · rfl
  · simp only [dieOfCore, h2, hw]

/-- A walk for a warp of a core, which its die's TLB has missed, fills. -/
theorem exec_pageWalkComplete {s : State} {core : Nat} {ctx : BitVec 3} {va : DWord} (hr : s.runs ctx = true)
    (h2 : s.tlbHit (192 + core / 24) ctx va.toNat = none) (hz : ∃ z ∈ s.cur :: s.others, z.uid ≠ 0 ∧ z.core = core ∧ z.ctx = ctx) :
    exec (.pageWalkComplete core ctx.toNat va) s = .next (s.fillTlb core ctx va.toNat) := by
  have hctx : BitVec.ofNat 3 ctx.toNat = ctx := by rw [BitVec.ofNat_toNat, BitVec.setWidth_eq]
  have hany : (s.warps.any fun w => w.uid != 0 && w.core == core && w.ctx == ctx) = true := by
    obtain ⟨z, hz, hu, hcore, hc⟩ := hz
    refine List.any_eq_true.2 ⟨z, hz, ?_⟩
    simp [hu, hcore, hc]
  change execPageWalkComplete core ctx.toNat va s = _
  simp only [execPageWalkComplete, hctx, ctx.isLt, decide_true, hr, dieOfCore, h2, Option.isNone_none, hany, Bool.and_self, if_true]

/-! ## Invalidation (R127) -/

/-- An entry is in the range of a whole context when it is one of the context. -/
theorem TlbEntry.inRange_all {t : TlbEntry} {r : TlbRange} (hr : r.all = true) : t.inRange r = (t.ctx == r.ctx) := by
  rw [TlbEntry.inRange, hr, Bool.true_or, Bool.and_true]

/-- A write of TLBIC with GO and ALL, while none runs, empties the TLBs of the context and raises BUSY. -/
theorem State.writeTlbic_all {s : State} {v : Word} (hgo : v.getLsbD 31 = true) (hb : s.mem.tlbic.getLsbD 30 = false) (hall : v.getLsbD 26 = true) :
    ∃ (conds : List RelCond) (range : TlbRange) (wait : List Nat), range.all = true ∧ range.ctx = (v >>> 27).setWidth 3
      ∧ s.writeTlbic v = { s with nextId := s.nextId + 1, conds := conds, mem := { s.mem with
          tlb := s.mem.tlb.filter fun t => !t.inRange range, tlbic := (v &&& 0x3C0FFFFF) ||| 0x40000000, tlbKey := s.nextId, tlbWait := wait,
          tlbRange := range } } := by
  refine ⟨(s.writeTlbic v).conds, ⟨(v >>> 27).setWidth 3, true, bitsAt s.mem.tlbia.toNat 16 40 * 65536, bitsAt v.toNat 0 20⟩, (s.writeTlbic v).mem.tlbWait,
    rfl, rfl, ?_⟩
  simp only [State.writeTlbic, hgo, hb, hall, Bool.and_false, Bool.false_eq_true, if_false, Bool.true_or, Bool.and_self, if_true]

/-- Estuary writes TLBIC when its access table grants it. -/
theorem exec_tlbicGo {s : State} {v : Word} (hg : s.mgmtGranted 3 0x10008 4 true = true) : exec (.tlbicGo v) s = .next (s.writeTlbic v) := by
  change execTlbicGo v s = _
  rw [execTlbicGo, State.estuary, hg, if_pos rfl]

/-- An invalidation whose conditions are met ends. -/
theorem exec_tlbInvalidationDone {s : State} (hb : s.mem.tlbic.getLsbD 30 = true) (hc : s.condMet s.mem.tlbKey = true) (hq : s.tlbQuiet = true) :
    exec .tlbInvalidationDone s = .next (State.dropCond { s with mem := { s.mem with
      tlb := s.mem.tlb.filter fun t => !t.inRange s.mem.tlbRange, tlbic := s.mem.tlbic &&& 0xBFFFFFFF, tlbWait := [] } } s.mem.tlbKey) := by
  change execTlbInvalidationDone s = _
  simp only [execTlbInvalidationDone, hb, hc, hq, Bool.and_self, if_true]

/-! ## The events -/

/-- Settles O52: what `exec` gives for each event, read by the lemmas about the operation behind it. -/
theorem memoryPathEvents : Obligations.MemoryPathEvents := by
  intro s id core pos line die unit sec r m w tr saved pa n e va ctx words statp x y word ps home now pushed written untouched onlyCaches
  refine ⟨?stat, ?release, ?acquire, ?fence, ?rollback, ?leaseL1, ?leaseL2, ?recalled, ?evicted, ?others, ?walk, ?invalidate, ?done⟩
  case stat =>
    intro hr hk hc hid
    refine ⟨_, exec_storeNoticeArrive_stat home hr hk hc hid, ?_, ?_⟩
    · rw [State.performStat_reqs, State.id_of_reqOf hr]
    · rintro rfl hx hrd hwr hgr hgw hp hclean
      obtain ⟨b, hunit, hctx, hcls, hhome⟩ := s.performStat_home r va.toNat n
      rw [hhome]
      rw [← hunit, ← hctx] at hx
      rw [← hctx, ← hcls] at hgr hgw
      exact State.readNum_statAdd hx hrd hwr hgr hgw hp hclean
  case release =>
    intro hr hk hw hrel hsent hold hreach
    have hmay : s.MayRelease id r m w := ⟨hr, hk, hw, hrel, hsent, hold, hreach⟩
    by_cases hs : m.scope = 5
    · refine ⟨_, hmay.exec_sys hs, fun q hq => State.mem_mapReq (Req.send_id _ _) hq, fun h => absurd hs h,
        fun _ => ⟨rfl, s.mem.written_push (r.core / 24), ?_, ?_⟩⟩
      · exact (s.warpOf_pushFor r.uid (r.core / 24)).trans (congrArg (Option.map _) hw)
      · exact (State.reqOf_mapReq (Req.send_id _ _) _ id).trans (congrArg (Option.map _) hr)
    · exact ⟨_, hmay.exec_near hs, fun q hq => State.mem_mapReq (Req.send_id _ _) hq,
        fun _ => ⟨rfl, (State.reqOf_mapReq (Req.send_id _ _) s id).trans (congrArg (Option.map _) hr)⟩, fun h => absurd h hs⟩
  case acquire =>
    intro hw ht
    exact ⟨_, exec_acquireComplete hw ht, if_pos rfl, rfl⟩
  case fence =>
    intro hw
    obtain ⟨⟨_, _, _, hwarp⟩, _, _, _, hstate⟩ := s.fencesEnded_rest (core / 24)
    have hcur := s.cur_fencesEnded (core / 24)
    refine ⟨_, exec_fenceComplete hw, ?_, ?_, fun g => ?_, fun hno => ?_, fun hex => ?_⟩
    · rw [hcur, hwarp]
    · rw [hstate]
    · rw [hcur, State.fenceMet_endFences]
      exact State.mem_fencesEnded
    · rw [hcur, State.endFences_ctime, State.mapWarp_mem, State.fencesPushed_of_none _ hno]
      exact ⟨rfl, rfl⟩
    · obtain ⟨hmem, hpush⟩ := State.fencesPushed_of_some (core / 24) hex
      rw [hcur, State.endFences_ctime, hpush]
      refine ⟨?_, rfl⟩
      change s.mem.Written (fun z => z.die = core / 24) (s.fencesPushed (core / 24)).mem.home
      rw [hmem]
      exact s.mem.written_push (core / 24)
  case rollback =>
    intro hw hr hf hh hs hc ht
    refine ⟨_, exec_faultRollback hw hr hf hh hs hc ht, fun q => State.mem_rolledBack_reqs, rfl, fun a ha q hq hu hle => ?_, State.map_unqueue _ _, rfl,
      fun h => Warp.mem_rollBack_holds, rfl⟩
    refine State.not_mem_unqueue ha (List.contains_iff_mem.2 (List.mem_map_of_mem (List.mem_filter.2 ⟨hq, ?_⟩)))
    simp [hu, hle]
  case leaseL1 =>
    intro hx he
    exact ⟨_, exec_leaseExpire_l1 hx he, s.mem.l1At_dropL1 unit sec, rfl, fun z hz => by rw [MemSys.mem_dropL1, and_iff_left hz]⟩
  case leaseL2 =>
    intro hy he
    obtain ⟨hdie, hsec⟩ := MemSys.place_of_l2At hy
    refine ⟨_, exec_leaseExpire_l2 hy he, ?_, rfl⟩
    rw [← hdie, ← hsec]
    refine (s.mem.l2At_putL2 { y with expiry := none }).trans ?_
    simp only [Option.isNone_none, Bool.true_and, beq_iff_eq]
  case recalled =>
    refine ⟨_, rfl, ?_, ?_, ?_, ?_⟩
    · exact congrArg (fun m => { s with mem := m }) (s.mem.recall_rest line fun _ => false)
    · exact fun z hz hl => MemSys.dirty_of_mem_recall hz hl rfl
    · exact s.mem.written_recall line
    · exact s.mem.untouched_recall line
  case evicted =>
    intro h
    refine ⟨_, exec_l2Eviction h, ?_, fun z => MemSys.mem_evict, ?_, ?_⟩
    · exact congrArg (fun m => { s with mem := m }) (s.mem.evict_rest die line)
    · exact s.mem.written_evict die line
    · exact s.mem.untouched_evict die line
  case others => exact fun hex hno => ⟨s, exec_l2Eviction_of_others hex hno, rfl⟩
  case walk =>
    intro hr h2 hz
    refine ⟨_, exec_pageWalkComplete hr h2 hz, s.fillTlb_rest core ctx va.toNat, fun hcore hw h1 u hu => ?_, fun d l hw => State.fillTlb_of_bad h2 hw⟩
    rw [State.fillTlb_of_walk h1 h2 hw]
    refine ⟨s.tlbLeaf ctx va.toNat e u, ?_, rfl, rfl, rfl, s.tlbLeaf_maps ctx va.toNat e u⟩
    rcases List.mem_pair.1 hu with rfl | rfl
    · exact mem_addTlb_of_mem (mem_addTlb_self _ _) (show u ≠ 192 + u / 24 by omega)
    · exact mem_addTlb_self _ _
  case invalidate =>
    intro hg hgo hb hall
    obtain ⟨conds, range, wait, hrange, hctx, heq⟩ := State.writeTlbic_all hgo hb hall
    refine ⟨_, exec_tlbicGo hg, ?_⟩
    rw [heq]
    refine ⟨?_, fun z => ?_, rfl⟩
    · change BitVec.getLsbD (_ ||| _) 30 = true
      rw [BitVec.getLsbD_or, show BitVec.getLsbD (0x40000000 : Word) 30 = true by decide, Bool.or_true]
    · refine List.mem_filter.trans (and_congr_right fun _ => ?_)
      rw [TlbEntry.inRange_all hrange, hctx, Bool.not_eq_true', beq_eq_false_iff_ne]
  case done =>
    intro hb hc hq
    refine ⟨_, exec_tlbInvalidationDone hb hc hq, ?_, fun z => ?_, rfl⟩
    · change BitVec.getLsbD (_ &&& _) 30 = false
      rw [BitVec.getLsbD_and, show BitVec.getLsbD (0xBFFFFFFF : Word) 30 = false by decide, Bool.and_false]
    · exact List.mem_filter.trans (and_congr_right fun _ => by rw [Bool.not_eq_true'])

end Sys2Proof.Machine
end

section
/-! PROOFS. The product of a scale group of 64 rows is exact (O54). -/

namespace Sys2Proof.Machine

/-! ## Planes of a mantissa (R106) -/

/-- Adding the terms of a range one after another gives their sum. -/
theorem foldl_range_add (f : Nat → Int) (n : Nat) (t : Int) : (List.range n).foldl (fun t i => t + f i) t = t + ∑ i ∈ Finset.range n, f i := by
  induction n with
  | zero => simp
  | succ n ih => rw [List.range_succ, List.foldl_append, ih, List.foldl_cons, List.foldl_nil, Finset.sum_range_succ, add_assoc]

/-- One more bit of a number. -/
theorem mod_two_pow_succ_eq (x n : Nat) : x % 2 ^ (n + 1) = x % 2 ^ n + 2 ^ n * (x.testBit n).toNat := by rw [Nat.mod_pow_succ, Nat.toNat_testBit]

/-- The bits of a number below position n, weighed by powers of two. -/
theorem sum_testBit (x n : Nat) : ∑ p ∈ Finset.range n, (2 : Int) ^ p * ((x.testBit p).toNat : Nat) = (x % 2 ^ n : Nat) := by
  induction n with
  | zero => simp [Nat.mod_one]
  | succ n ih =>
    rw [Finset.sum_range_succ, ih, mod_two_pow_succ_eq]
    push_cast
    rfl

/-- The bits of a mantissa, weighed by its plane weights, give its signed value: the top plane alone counts negative. -/
theorem sum_planeWeight_testBit {P x : Nat} (hP : 0 < P) (hx : x < 2 ^ P) :
    ∑ p ∈ Finset.range P, planeWeight p P * ((x.testBit p).toNat : Nat) = (BitVec.ofNat P x).toInt := by
  obtain ⟨n, rfl⟩ : ∃ n, P = n + 1 := ⟨P - 1, by omega⟩
  have hlow : ∑ p ∈ Finset.range n, planeWeight p (n + 1) * ((x.testBit p).toNat : Nat) = (x % 2 ^ n : Nat) := by
    rw [← sum_testBit]
    refine Finset.sum_congr rfl fun p hp => ?_
    have : p < n := Finset.mem_range.1 hp
    rw [planeWeight, if_neg (by omega)]
  have hsplit : x = x % 2 ^ n + 2 ^ n * (x.testBit n).toNat := by rw [← mod_two_pow_succ_eq, Nat.mod_eq_of_lt hx]
  have hmod : x % 2 ^ n < 2 ^ n := Nat.mod_lt _ (Nat.two_pow_pos n)
  have hpow : 2 ^ (n + 1) = 2 * 2 ^ n := Nat.pow_succ'
  rw [Finset.sum_range_succ, hlow, planeWeight, if_pos rfl, BitVec.toInt_eq_toNat_cond, BitVec.toNat_ofNat, Nat.mod_eq_of_lt hx, hpow]
  cases hb : x.testBit n
  · have hval : x = x % 2 ^ n := by simpa [hb] using hsplit
    rw [if_pos (by omega), ← hval]
    simp
  · have hval : x = x % 2 ^ n + 2 ^ n := by simpa [hb] using hsplit
    rw [if_neg (by omega)]
    simp only [Bool.toNat_true]
    zify at hval
    push_cast
    linarith

/-! ## The group product (R106, R107) -/

/-- A converter of a scale group of 64 rows gives the column count, whatever its repeat. -/
theorem converted_64 {rep : Nat} (hr : 0 < rep) (S : Nat) : converted 64 rep S = S := by
  rw [converted, Nat.mul_div_cancel _ (by decide), Nat.mul_assoc, Nat.mul_comm rep 64, Nat.mul_div_cancel _ (by omega)]

/-- Both bits of the mantissas of a row are set, on planes p and b. -/
def bothSet (p b : Nat) (x : Nat × Nat) : Bool := x.1.testBit p && x.2.testBit b

/-- The column count is the number of rows with both bits set. -/
theorem columnCount_eq_countP (ma mw : List Nat) (p b : Nat) : columnCount ma mw p b = (ma.zip mw).countP (bothSet p b) := by
  have hfold : ∀ (rows : List (Nat × Nat)) (t : Nat),
      rows.foldl (fun t x => if bothSet p b x then t + 1 else t) t = t + rows.countP (bothSet p b) := by
    intro rows
    induction rows with
    | nil => exact fun t => rfl
    | cons x rows ih =>
      intro t
      rw [List.foldl_cons, ih, List.countP_cons]
      split_ifs <;> omega
  exact (hfold _ 0).trans (Nat.zero_add _)

/-- The first row adds the product of its two bits. -/
theorem countP_bothSet_cons (x : Nat × Nat) (rows : List (Nat × Nat)) (p b : Nat) :
    (x :: rows).countP (bothSet p b) = rows.countP (bothSet p b) + (x.1.testBit p).toNat * (x.2.testBit b).toNat := by
  rw [List.countP_cons, bothSet]
  cases x.1.testBit p <;> cases x.2.testBit b <;> rfl

/-- The planes' counts, weighed, add up to the products of the signed mantissas. -/
theorem sum_countP_bothSet {pa pw : Nat} (ha : 0 < pa) (hw : 0 < pw) (rows : List (Nat × Nat)) (hx : ∀ x ∈ rows, x.1 < 2 ^ pa ∧ x.2 < 2 ^ pw) :
    ∑ p ∈ Finset.range pa, ∑ b ∈ Finset.range pw, planeWeight p pa * planeWeight b pw * (rows.countP (bothSet p b) : Nat)
      = (rows.map fun x => (BitVec.ofNat pa x.1).toInt * (BitVec.ofNat pw x.2).toInt).sum := by
  induction rows with
  | nil => simp
  | cons x rows ih =>
    obtain ⟨hxa, hxw⟩ := hx x List.mem_cons_self
    rw [List.map_cons, List.sum_cons, ← ih fun y hy => hx y (List.mem_cons_of_mem x hy), ← sum_planeWeight_testBit ha hxa, ← sum_planeWeight_testBit hw hxw,
      Finset.sum_mul_sum, ← Finset.sum_add_distrib]
    refine Finset.sum_congr rfl fun p _ => ?_
    rw [← Finset.sum_add_distrib]
    refine Finset.sum_congr rfl fun b _ => ?_
    rw [countP_bothSet_cons]
    push_cast
    ring

/-- The group product of a scale group of 64 rows, as a sum over the planes. -/
theorem groupProduct_64 {rep : Nat} (hr : 0 < rep) (pa pw : Nat) (ma mw : List Nat) : groupProduct pa pw 64 rep ma mw
    = ∑ p ∈ Finset.range pa, ∑ b ∈ Finset.range pw, planeWeight p pa * planeWeight b pw * ((ma.zip mw).countP (bothSet p b) : Nat) := by
  unfold groupProduct
  simp only [converted_64 hr, columnCount_eq_countP, foldl_range_add, zero_add]

/-- Settles O54: the converter gives the column counts, and the planes weigh the bits of the mantissas by their signed value. -/
theorem arrayProductIsExactAtScaleGroup64 : Obligations.ArrayProductIsExactAtScaleGroup64 := by
  intro pa pw rep ma mw ha hw hr _ hma hmw
  rw [groupProduct_64 hr]
  refine sum_countP_bothSet ha hw _ fun x hx => ?_
  obtain ⟨hxa, hxw⟩ := List.of_mem_zip (a := x.1) (b := x.2) hx
  exact ⟨hma _ hxa, hmw _ hxw⟩

end Sys2Proof.Machine
end

section
/-! PROOFS. An access of 16 bytes across the end of an array waits for the next array (O53 fails). -/

namespace Sys2Proof.Machine

/-! ## The second part of a store stands in the order of another array (R99, R133, R141)

The clauses of `Obligations.ArrayEventResults` for a load and a store that an array accepts ask that nothing waits at the array of each lane's first byte, and
say that the access is then made whole. An access of 16 bytes is made in two parts of 8, and `State.behind` looks for each part at the array of that part.
The statement asks for no alignment (R116), so the parts may lie in two arrays, of which the premises free the first only. -/

/-- A store of 16 bytes by lane 0, whose first part is the last 8 places of array 0 and whose second part begins at the first place of array 1. -/
def straddlingStore : MemReq := ⟨.spad, false, .store, 16, 0, 0, 0, [⟨0, 0x3FF8, 0x3FF8, 0, 0, 0, 0, 3, 0⟩], [], false, none⟩

/-- It as request 1, which no array has accepted. -/
def straddlingReq : Req := ⟨1, 1, 0, 0, 0, 0, 0, 0, 0, 1, 1, 1, .mem straddlingStore, false, false, false, false, none, false, (0, 0), false⟩

/-- An array of core 0 in storage mode that has accepted the items given. -/
def storageArray (phys : Nat) (queue : List ArrayItem) : ArrayRec := ⟨0, phys, 4, 0, false, 64, false, queue, [], []⟩

/-- Nothing waits at array 0; array 1 has accepted a byte that copy entry 10 writes to its first place. -/
def straddlingStoreArrives : State :=
  { State.reset with arrays := [storageArray 0 [], storageArray 1 [.write 10 [(0x4000, 1)] 0]], reqs := [straddlingReq] }

/-- The array of the store's first byte is array 0. -/
theorem arrayOf_straddlingStoreArrives : straddlingStoreArrives.arrayOf (cellArray 0x3FF8).1 (cellArray 0x3FF8).2 = some (storageArray 0 []) := by decide

/-- Nothing waits at the array of the first byte of each lane of the store. -/
theorem queue_of_straddlingStore : ∀ y ∈ straddlingStore.lanes, ∀ b,
    straddlingStoreArrives.arrayOf (cellArray y.pa).1 (cellArray y.pa).2 = some b → b.queue = [] := by
  intro y hy b hb
  obtain rfl := List.mem_singleton.1 hy
  obtain rfl := Option.some.inj (arrayOf_straddlingStoreArrives.symm.trans hb)
  rfl

/-- The store is accepted and its first part made; it stays in flight with its second part left, behind the byte of the copy. -/
theorem exec_straddlingStoreArrives {t : State} (h : exec (.arrayAccessAccept ⟨1, everyLane, 3⟩) straddlingStoreArrives = .next t) :
    t.reqs.map (fun q => q.mem?.map fun m => m.lanes.map (·.left)) = [some [2]] := by
  have key : (match exec (.arrayAccessAccept ⟨1, everyLane, 3⟩) straddlingStoreArrives with
      | .next t => t.reqs.map (fun q => q.mem?.map fun m => m.lanes.map (·.left)) | _ => []) = [some [2]] := by decide +kernel
  rw [h] at key
  exact key

/-- Refutes O53: the store of `straddlingStoreArrives` meets every premise of the clause for a store in MODE 00, yet its request is not gone. -/
theorem not_arrayEventResults : ¬ Obligations.ArrayEventResults := by
  intro h
  obtain ⟨-, -, haccess, -⟩ := h straddlingStoreArrives 1 0 0 straddlingReq straddlingReq (storageArray 0 []) false false false 0 0 0
    ⟨0, 0, 0, 0, 0, 0, false, 0, false, false, [], [], none, false⟩ [] [] [] straddlingStore ⟨0, 0x3FF8, 0x3FF8, 0, 0, 0, 0, 3, 0⟩ [] everyLane 3 [] 0
  obtain ⟨-, -, hstore, -⟩ := haccess rfl rfl
  obtain ⟨t, he, -, hgone, -⟩ := hstore ⟨rfl, rfl, rfl, rfl, by decide, by decide⟩ rfl (by decide) (by decide) (by decide) rfl queue_of_straddlingStore
  have hempty : t.reqs = [] := List.map_eq_nil_iff.1 (hgone.trans (by rfl))
  have hleft := exec_straddlingStoreArrives he
  rw [hempty] at hleft
  exact absurd hleft (by decide)

end Sys2Proof.Machine
end

section
/-! PROOFS. An atomic that its die's L2 performs makes its sector the newest of that L2 (O51 fails). -/

namespace Sys2Proof.Machine

/-! ## The order of an L2 after an atomic (R142; log 60)

The clause of `Obligations.MemoryAccessEvents` for an atomic that performs in the L2 of its die says that, unless the access marks its line for eviction first,
the L2 sectors are as they were. `State.atomicCopy` puts the sector that serves back with `MemSys.putL2`, at the head of the list, whose order says which line
is the oldest and leaves a full L2 (`MemSys.roomL2`). The clause holds only of a sector that stands there already. -/

/-- An addition of 1 to the 4 bytes at address 0 by lane 0 that performs in its die's L2 (scope `.die`). -/
def dieAtomic : MemReq := ⟨.global, false, .atom 0 true, 4, 0, 3, 0, [⟨0, 0, 0, 0, 1, 0, 0, 1, 0⟩], [4], false, none⟩

/-- It as request 1, which its target has accepted. -/
def dieAtomicReq : Req := ⟨1, 1, 0, 0, 0, 0, 0, 0, 0, 1, 1, 1, .mem dieAtomic, true, false, false, false, none, false, (0, 0), false⟩

/-- A clean sector of zeros in the L2 of die 0, under a lease up to Tidemark 50. -/
def leasedSector (sec : Nat) : L2Sector := ⟨0, sec, some 50, List.replicate 64 ⟨0, none⟩, 0, false, 0⟩

/-- The L2 of die 0 holds sector 1 and, older, sector 0, which the atomic is to use. -/
def dieAtomicPerforms : State :=
  { State.reset with mem := { State.reset.mem with l2 := [leasedSector 1, leasedSector 0] }, reqs := [dieAtomicReq] }

/-- The atomic leaves sector 0 as the newest. -/
theorem exec_dieAtomicPerforms {t : State} (h : exec (.atomicPerform ⟨1, everyLane⟩ 0) dieAtomicPerforms = .next t) : t.mem.l2.map (·.sec) = [0, 1] := by
  have key : (match exec (.atomicPerform ⟨1, everyLane⟩ 0) dieAtomicPerforms with | .next t => t.mem.l2.map (·.sec) | _ => []) = [0, 1] := by
    decide +kernel
  rw [h] at key
  exact key

/-- Refutes O51: the atomic of `dieAtomicPerforms` meets every premise of the clause for the L2 and marks no line for eviction first, yet the L2 is not as it was. -/
theorem not_memoryAccessEvents : ¬ Obligations.MemoryAccessEvents := by
  intro h
  obtain ⟨-, -, -, hatomic, -⟩ := h dieAtomicPerforms 1 dieAtomicReq dieAtomic 0 0 0 ⟨0, 0, 0, 0, 1, 0, 0, 1, 0⟩ 0 true false everyLane 0
    ⟨0, 0, 0, 0, 0, [], 0⟩ (leasedSector 0) ⟨0, 0, 0, 0, 1, 0, 0, 1, 0⟩ [] rfl rfl rfl
  obtain ⟨-, hnear⟩ := hatomic (by decide) rfl rfl rfl rfl (by decide) (by decide)
  obtain ⟨t, he, -, -, -, -, hl2, -⟩ := hnear (by decide) (by decide) (by decide) rfl (by decide) (by decide) (by decide) (by decide)
  have hsecs := exec_dieAtomicPerforms he
  rw [hl2 (by decide)] at hsecs
  exact absurd hsecs (by decide)

end Sys2Proof.Machine
end

section
/-! PROOFS. A request enters: the bindings of its results, and what it leaves of the warp and of memory (for O42). -/

namespace Sys2Proof.Machine

/-! ## Bindings (R60) -/

/-- The register file in which one write binds its G slot: the register keeps its values. -/
def bindOne (live act : Mask) (vs : List VReg) (x : RegWrite) : List VReg :=
  let old := vs.getD x.reg.toNat (.u 0)
  if (mergeWrite live act old x.val).isG then putAt 64 (.u 0) x.reg.toNat (.g (lanesOf old.lane)) vs else vs

/-- The writes that bind: in handler mode not those of the record register (R232). -/
def Arch.bindable (a : Arch) (ws : List RegWrite) : List RegWrite := if a.handler.isSome then ws.filter fun x => x.reg != 60 else ws

/-- Binding changes the register file only, one write after another. -/
theorem Arch.bind_eq (a : Arch) (live act : Mask) (ws : List RegWrite) :
    a.bind live act ws = { a with vregs := (a.bindable ws).foldl (bindOne live act) a.vregs } := rfl

/-- A binding keeps the value of every register in every lane. -/
theorem lane_bindOne (live act : Mask) (vs : List VReg) (x : RegWrite) (r : Reg) {l : Nat} (hl : l < 128) :
    ((bindOne live act vs x).getD r.toNat (.u 0)).lane l = (vs.getD r.toNat (.u 0)).lane l := by
  unfold bindOne
  dsimp only
  split
  · rw [List.getD_eq_getElem?_getD, getElem?_putAt, if_pos r.isLt, Option.getD_some]
    split
    · next h => rw [VReg.lane_lanesOf _ l hl, h]
    · rfl
  · rfl

/-- Bindings one after another keep it too. -/
theorem lane_foldl_bindOne (live act : Mask) (r : Reg) {l : Nat} (hl : l < 128) : ∀ (ws : List RegWrite) (vs : List VReg),
    ((ws.foldl (bindOne live act) vs).getD r.toNat (.u 0)).lane l = (vs.getD r.toNat (.u 0)).lane l
  | [], _ => rfl
  | x :: ws, vs => (lane_foldl_bindOne live act r hl ws (bindOne live act vs x)).trans (lane_bindOne live act vs x r hl)

/-- Every register reads as before its bindings. -/
theorem Arch.lane_bind (a : Arch) (live act : Mask) (ws : List RegWrite) (r : Reg) {l : Nat} (hl : l < 128) :
    ((a.bind live act ws).vreg r).lane l = (a.vreg r).lane l := by
  have hfile := lane_foldl_bindOne live act r hl (a.bindable ws) a.vregs
  rw [Arch.bind_eq]
  unfold Arch.vreg
  cases a.handler with
  | none => exact hfile
  | some h =>
    dsimp only
    split
    · rfl
    · exact hfile

/-! ## Requests -/

/-- What a TLB fill may change. -/
def State.withTlb (s : State) (tlb : List TlbEntry) : State := { s with mem := { s.mem with tlb := tlb } }

/-- The fills of a list of addresses change the TLBs only. -/
theorem State.foldl_fillTlb (ea : Nat → DWord) : ∀ (ls : List Nat) (s : State),
    ∃ tlb, ls.foldl (fun (s : State) l => s.fillTlb s.cur.core s.cur.ctx (ea l).toNat) s = s.withTlb tlb
  | [], _ => ⟨_, rfl⟩
  | l :: ls, s => by
    obtain ⟨tlb, h⟩ := State.foldl_fillTlb ea ls (s.fillTlb s.cur.core s.cur.ctx (ea l).toNat)
    refine ⟨tlb, h.trans ?_⟩
    rw [State.fillTlb_rest]
    rfl

/-- The state in which a memory request has entered, some TLBs filled (R34, R60, R126, R229). -/
def State.requesting (s : State) (c : Ctl) (m : MemReq) (v : VReg) (tlb : List TlbEntry) : State :=
  (s.withTlb tlb).addReq c (.mem m) (m.dests.map fun r => ⟨r, v⟩) [] false false

/-- Its results are pending. -/
theorem State.pends_requesting (s : State) (c : Ctl) (m : MemReq) (v : VReg) (tlb : List TlbEntry) : (s.requesting c m v tlb).cur.pends =
    if m.dests = [] then s.cur.pends else s.cur.pends ++ [⟨s.nextId, m.dests, [], false, none, false, s.cur.inHandler⟩] := by
  simp [State.requesting, State.addReq, State.withTlb, Function.comp_def]

/-- A memory request that enters and advances its split has issued: but for the TLBs it changes nothing outside the warp and the requests. -/
theorem State.issued_requesting (s : State) (c : Ctl) (m : MemReq) (v : VReg) (tlb : List TlbEntry) :
    s.Advanced ((s.requesting c m v tlb).advance c) c ∧ s.Issued ((s.requesting c m v tlb).advance c) c m := by
  obtain ⟨hmoved, hframe, hsets, -⟩ := State.moveLanes_spec (s.requesting c m v tlb) c fun _ => (s.requesting c m v tlb).next c
  have hcur := State.moveLanes_cur (s.requesting c m v tlb) c fun _ => (s.requesting c m v tlb).next c
  have hreqs : ((s.requesting c m v tlb).advance c).reqs = (s.requesting c m v tlb).reqs := (congrArg State.reqs hframe.rest :)
  have hmem : ((s.requesting c m v tlb).advance c).mem = (s.requesting c m v tlb).mem := (congrArg State.mem hframe.rest :)
  refine ⟨⟨hmoved.lanes, hmoved.handler⟩, hframe.rest.trans ?rest, hreqs, ?pending, congrArg Warp.snaps hcur, fun r l hl => ?regs,
    congrArg (·.arch.preds) hcur, hsets, hframe.lanes, ?mem⟩
  case rest => rw [hreqs, hmem]; rfl
  case pending => exact (congrArg Warp.pends hcur).trans (State.pends_requesting s c m v tlb)
  case regs => exact (congrArg (VReg.lane · l) (State.reg_advance _ c r)).trans (Arch.lane_bind s.cur.arch s.cur.live (s.act c) _ r hl)
  case mem => rw [hmem]; rfl

end Sys2Proof.Machine
end

section
/-! PROOFS. What the ten memory instructions send at issue, and the traps they take instead (O42, O43). -/

namespace Sys2Proof.Machine

/-! ## The checks of an access and its request -/

/-- The address space of an access. -/
def Space.of (spad : Bool) : Space := if spad then .spad else .global

/-- The place of lane l of an access, or why it has none. -/
def State.lanePlace (s : State) (m : MMod) (op : MemOp) (spad : Bool) (a : Reg) (rank : Option Reg) (l : Nat) : LanePlace :=
  if spad then s.spadTarget rank l ((s.accessEa m spad a l).setWidth 32)
  else s.globalLane s.cur.core s.cur.ctx op.need l (s.accessEa m spad a l)

/-- The lanes that access: every active one, or the lowest for the warp. -/
def usedLanes (act : Mask) (uni : Bool) : List Nat := if uni then [lowestLane act] else maskLanes act

/-- Lane l's part of a request, at its place. -/
def State.laneAcc (s : State) (m : MMod) (op : MemOp) (spad : Bool) (a : Reg) (data : Nat → Nat × Nat) (l p : Nat) (cp : BitVec 2) : LaneAcc :=
  ⟨l, (s.accessEa m spad a l).toNat, p, cp, (data l).1, (data l).2, 0, allParts (szBytes m.sz),
    if op == .store && Space.of spad == .global then allParts (szBytes m.sz) else 0⟩

/-- The request of an access whose lanes are given. -/
def State.accessReq (s : State) (m : MMod) (op : MemOp) (dests : List Reg) (spad : Bool) (a : Reg) (rank : Option Reg) (lanes : List LaneAcc) : MemReq :=
  ⟨Space.of spad, rank.isSome, op, szBytes m.sz, m.ord, m.scope.toNat, m.ch, lanes, dests, s.loadsOnce (Space.of spad) op a rank, none⟩

/-- The parts of a request at the lanes given, of those that have a place. -/
def State.placedLanes (s : State) (m : MMod) (op : MemOp) (spad : Bool) (a : Reg) (rank : Option Reg) (data : Nat → Nat × Nat) (ls : List Nat) :
    List LaneAcc :=
  ls.filterMap fun l => match s.lanePlace m op spad a rank l with
    | .ok (p, cp) => some (s.laneAcc m op spad a data l p cp)
    | .error _ => none

/-- The TLB fills of the lanes of a global access. -/
def State.fillLanes (s : State) (m : MMod) (spad : Bool) (a : Reg) (ls : List Nat) : State :=
  if spad then s else ls.foldl (fun (s' : State) l => s'.fillTlb s'.cur.core s'.cur.ctx (s.accessEa m spad a l).toNat) s

/-- The value under which the results of an access are bound: U for a load that serves the warp, else G (R59, R60). -/
def State.accessVal (s : State) (op : MemOp) (spad : Bool) (a : Reg) (rank : Option Reg) : VReg :=
  if s.loadsOnce (Space.of spad) op a rank then .u 0 else .g []

/-- An access with good names and bindings: alignment, the places of its lanes, then its request (R116, R129, R226). -/
def State.accessChecked (s : State) (c : Ctl) (m : MMod) (op : MemOp) (dests : List Reg) (spad : Bool) (a : Reg) (rank : Option Reg)
    (data : Nat → Nat × Nat) : State :=
  match misaligned (s.act c) (szBytes m.sz) fun l => (s.accessEa m spad a l).toNat with
  | some l => s.trapP (s.act c) 4 0 0 (some l) (s.accessEa m spad a l) op.acc
  | none => match firstFault ((maskLanes (s.act c)).map (s.lanePlace m op spad a rank)) with
    | some e => s.trapP (s.act c) e.cause e.detail e.aux (some e.lane) e.addr op.acc
    | none =>
      let use := usedLanes (s.act c) (s.loadsOnce (Space.of spad) op a rank)
      ((s.fillLanes m spad a use).addReq c (.mem (s.accessReq m op dests spad a rank (s.placedLanes m op spad a rank data use)))
        (dests.map fun r => ⟨r, s.accessVal op spad a rank⟩) [] false false).advance c

/-- An access opens with the checks of its names, its lanes and its bindings. -/
theorem State.access_eq (s : State) (c : Ctl) (m : MMod) (op : MemOp) (dests : List Reg) (spad : Bool) (a : Reg) (rank : Option Reg) (names : List Reg)
    (data : Nat → Nat × Nat) : s.access c m (Space.of spad) op dests a rank names data =
      if !(dests ++ addrRegsOf (Space.of spad) a rank ++ names).all s.cur.nameable then s.illegal (s.act c)
      else if s.act c = 0 then s.advance c
      else match s.cur.overflow (s.act c) (dests.map fun r => ⟨r, s.accessVal op spad a rank⟩) with
        | some r => s.trapP (s.act c) 8 0 r.toNat none 0 4
        | none => s.accessChecked c m op dests spad a rank data := by
  cases spad <;> rfl

/-- An access that is ready passes the first checks. -/
theorem State.access_of_ready {s : State} {c : Ctl} {op : MemOp} {dests : List Reg} {spad : Bool} {a : Reg} {rank : Option Reg} {names : List Reg}
    (hr : s.AccessReady c op dests spad a rank names) (m : MMod) (data : Nat → Nat × Nat) :
    s.access c m (Space.of spad) op dests a rank names data = s.accessChecked c m op dests spad a rank data := by
  have hnames : (dests ++ addrRegsOf (Space.of spad) a rank ++ names).all s.cur.nameable = true :=
    List.all_eq_true.2 (by cases spad <;> exact hr.named)
  have hov : s.cur.overflow (s.act c) (dests.map fun r => ⟨r, s.accessVal op spad a rank⟩) = none := by
    refine hr.fits _ (by simp [Function.comp_def]) fun hf w hw => ?_
    obtain ⟨r, -, rfl⟩ := List.mem_map.1 hw
    have huni : s.loadsOnce (Space.of spad) op a rank = true := by cases spad <;> exact hf
    simp only [State.accessVal, huni, if_true]
    rfl
  rw [State.access_eq, hnames, hov, if_neg (by decide), if_neg hr.some]

/-! ## Alignment (R116) -/

section
variable {s : State} {c : Ctl} {m : MMod} {op : MemOp} {dests : List Reg} {spad : Bool} {a : Reg} {rank : Option Reg} {data : Nat → Nat × Nat}

/-- The lowest active lane with a misaligned address traps. -/
theorem State.accessChecked_of_misaligned {l0 : Nat} (ha : s.active c l0 = true) (hbad : (s.accessEa m spad a l0).toNat % szBytes m.sz ≠ 0)
    (hlow : ∀ l < l0, s.active c l = true → (s.accessEa m spad a l).toNat % szBytes m.sz = 0) :
    s.accessChecked c m op dests spad a rank data = s.trapP (s.act c) 4 0 0 (some l0) (s.accessEa m spad a l0) op.acc := by
  have hmis : misaligned (s.act c) (szBytes m.sz) (fun l => (s.accessEa m spad a l).toNat) = some l0 :=
    maskLanes_find?_eq_some ha (by simpa using hbad) fun l hl hm => by simp [hlow l hl hm]
  simp only [State.accessChecked, hmis]

/-- No lane is at fault when every active one is aligned. -/
theorem State.misaligned_eq_none (h : ∀ l < 128, s.active c l = true → (s.accessEa m spad a l).toNat % szBytes m.sz = 0) :
    misaligned (s.act c) (szBytes m.sz) (fun l => (s.accessEa m spad a l).toNat) = none := by
  unfold misaligned
  rw [List.find?_eq_none]
  intro l hl
  rw [mem_maskLanes] at hl
  simp [h l (lane_lt hl) hl]

/-! ## The places of the lanes (R114, R125, R129, R226) -/

/-- The first fault of the lanes of a mask is that of the lowest lane without a place. -/
theorem firstFault_eq_some {act : Mask} {f : Nat → LanePlace} {l0 : Nat} {e : LaneFault} (ha : act.getLsbD l0 = true) (he : f l0 = .error e)
    (hlow : ∀ l < l0, act.getLsbD l = true → ∃ p, f l = .ok p) : firstFault ((maskLanes act).map f) = some e := by
  have hfind : (maskLanes act).find? (fun l => !(f l).isOk) = some l0 := by
    refine maskLanes_find?_eq_some ha (by rw [he]; rfl) fun l hl hm => ?_
    obtain ⟨p, hp⟩ := hlow l hl hm
    rw [hp]
    rfl
  obtain ⟨-, before, after, hsplit, hbefore⟩ := List.find?_eq_some_iff_append.1 hfind
  unfold firstFault
  rw [List.findSome?_eq_some_iff, hsplit]
  refine ⟨before.map f, f l0, after.map f, by simp, by rw [he], fun x hx => ?_⟩
  obtain ⟨l, hl, rfl⟩ := List.mem_map.1 hx
  have hok := hbefore l hl
  cases hf : f l with
  | ok p => rfl
  | error e' => simp [hf, Except.isOk, Except.toBool] at hok

/-- Lanes that all have a place meet no fault. -/
theorem firstFault_eq_none {act : Mask} {f : Nat → LanePlace} (h : ∀ l, act.getLsbD l = true → ∃ p, f l = .ok p) :
    firstFault ((maskLanes act).map f) = none := by
  unfold firstFault
  rw [List.findSome?_eq_none_iff]
  intro x hx
  obtain ⟨l, hl, rfl⟩ := List.mem_map.1 hx
  obtain ⟨p, hp⟩ := h l ((mem_maskLanes act l).1 hl)
  rw [hp]

/-- With every lane aligned, the lowest active lane without a place traps with its cause. -/
theorem State.accessChecked_of_fault {l0 : Nat} {e : LaneFault} (halign : ∀ l < 128, s.active c l = true → (s.accessEa m spad a l).toNat % szBytes m.sz = 0)
    (ha : s.active c l0 = true) (he : s.lanePlace m op spad a rank l0 = .error e)
    (hlow : ∀ l < l0, s.active c l = true → ∃ p, s.lanePlace m op spad a rank l = .ok p) :
    s.accessChecked c m op dests spad a rank data = s.trapP (s.act c) e.cause e.detail e.aux (some e.lane) e.addr op.acc := by
  simp only [State.accessChecked, State.misaligned_eq_none halign, firstFault_eq_some ha he hlow]

/-- A warp that takes traps enters its handler for the fault of a lane, with the kind of the access in the record (R231, R232). -/
theorem State.TakesTraps.accessTrapped (ht : s.TakesTraps) (c : Ctl) (op : MemOp) (cause : Nat) {detail aux : Nat} (lane : Nat) (addr : DWord)
    (hd : detail < 256) (ha : aux < 256) :
    s.AccessTrapped c op cause detail aux lane addr (s.trapP (s.act c) cause detail aux (some lane) addr op.acc) := by
  have h := ht.trapP_enters (s.act c) cause (some lane) addr op.acc hd ha
  cases op <;> exact h

/-! ## The request -/

/-- The fills of an access change the TLBs only. -/
theorem State.fillLanes_eq (s : State) (m : MMod) (spad : Bool) (a : Reg) (ls : List Nat) : ∃ tlb, s.fillLanes m spad a ls = s.withTlb tlb := by
  cases spad with
  | true => exact ⟨s.mem.tlb, rfl⟩
  | false => exact State.foldl_fillTlb (s.accessEa m false a) ls s

/-- The lanes used are active. -/
theorem active_of_mem_usedLanes {act : Mask} {uni : Bool} {l : Nat} (h0 : act ≠ 0) (hl : l ∈ usedLanes act uni) : act.getLsbD l = true := by
  cases uni with
  | false => exact (mem_maskLanes act l).1 hl
  | true =>
    obtain rfl := List.mem_singleton.1 hl
    obtain ⟨k, hk⟩ := exists_lane_of_ne_zero h0
    exact getLsbD_lowestLane hk

/-- The lowest active lane is the first of them. -/
theorem usedLanes_eq {act : Mask} (h0 : act ≠ 0) (uni : Bool) : usedLanes act uni = if uni then (maskLanes act).take 1 else maskLanes act := by
  cases uni with
  | false => rfl
  | true =>
    obtain ⟨k, hk⟩ := exists_lane_of_ne_zero h0
    cases h : maskLanes act with
    | nil => exact absurd ((mem_maskLanes act k).2 hk) (by simp [h])
    | cons l ls => simp [usedLanes, lowestLane, h]

/-- Lanes that all have a place are all in the request. -/
theorem State.placedLanes_eq {at' : Nat → Nat × BitVec 2} {ls : List Nat} (h : ∀ l ∈ ls, s.lanePlace m op spad a rank l = .ok (at' l)) :
    s.placedLanes m op spad a rank data ls = ls.map fun l => s.laneAcc m op spad a data l (at' l).1 (at' l).2 := by
  rw [← List.filterMap_eq_map]
  refine List.filterMap_congr fun l hl => ?_
  rw [h l hl]
  rfl

/-- With every lane aligned and in its place, the request issues with one access for each lane used. -/
theorem State.accessChecked_issues {at' : Nat → Nat × BitVec 2} (h0 : s.act c ≠ 0)
    (halign : ∀ l < 128, s.active c l = true → (s.accessEa m spad a l).toNat % szBytes m.sz = 0)
    (hplace : ∀ l < 128, s.active c l = true → s.lanePlace m op spad a rank l = .ok (at' l)) :
    ∃ tlb, s.accessChecked c m op dests spad a rank data = (s.requesting c (s.accessReq m op dests spad a rank
      ((usedLanes (s.act c) (s.loadsOnce (Space.of spad) op a rank)).map fun l => s.laneAcc m op spad a data l (at' l).1 (at' l).2))
      (s.accessVal op spad a rank) tlb).advance c := by
  obtain ⟨tlb, htlb⟩ := s.fillLanes_eq m spad a (usedLanes (s.act c) (s.loadsOnce (Space.of spad) op a rank))
  have hok : firstFault ((maskLanes (s.act c)).map (s.lanePlace m op spad a rank)) = none :=
    firstFault_eq_none fun l hl => ⟨at' l, hplace l (lane_lt hl) hl⟩
  have hlanes := State.placedLanes_eq (data := data) fun l (hl : l ∈ usedLanes (s.act c) (s.loadsOnce (Space.of spad) op a rank)) =>
    hplace l (lane_lt (active_of_mem_usedLanes h0 hl)) (active_of_mem_usedLanes h0 hl)
  refine ⟨tlb, ?_⟩
  simp only [State.accessChecked, State.misaligned_eq_none halign, hok, htlb, hlanes]
  rfl

/-- The place of a lane at the address that its registers give (R113, R114). -/
theorem State.lanePlace_eq (s : State) (m : MMod) (op : MemOp) (spad : Bool) (a : Reg) (rank : Option Reg) (l : Nat) :
    s.lanePlace m op spad a rank l = if spad then s.spadTarget rank l (s.rd a l + m.off)
      else s.globalLane s.cur.core s.cur.ctx op.need l (s.rdPair a l + m.off.signExtend 64) := by
  cases spad with
  | false => rfl
  | true => simp [State.lanePlace, State.accessEa]

/-- A part of a request as the statements write it: the notices of a global store have all to come. -/
theorem State.laneAcc_eq (s : State) (m : MMod) (op : MemOp) (spad : Bool) (a : Reg) (data : Nat → Nat × Nat) (l pa : Nat) (cp : BitVec 2) :
    s.laneAcc m op spad a data l pa cp = ⟨l, (s.accessEa m spad a l).toNat, pa, cp, (data l).1, (data l).2, 0, allParts (szBytes m.sz),
      if op = .store ∧ spad = false then allParts (szBytes m.sz) else 0⟩ := by
  cases spad <;> simp [State.laneAcc, Space.of]

/-! ## The memory instructions (R283, R336, R350, R360) -/

section
variable {names : List Reg} {i : Instr} (he : exec i s = .next (s.access c m (Space.of spad) op dests a rank names data))
include he

/-- An instruction that is an access issues it. -/
theorem State.issuesAccess : s.IssuesAccess i c m op dests spad a rank names data := by
  intro at' addrRegs uni ea place lanes used hr hp
  have hplace : ∀ l < 128, s.active c l = true → s.lanePlace m op spad a rank l = .ok (at' l) := by
    intro l hl ha
    rw [State.lanePlace_eq, ← (hp l hl ha).2]
    by_cases hs : spad = true <;> simp only [place, ea, hs, if_true, if_false, Bool.false_eq_true]
  obtain ⟨tlb, hissues⟩ := State.accessChecked_issues (dests := dests) (data := data) hr.some (fun l hl ha => (hp l hl ha).1) hplace
  have huni : s.loadsOnce (Space.of spad) op a rank = uni := by cases spad <;> rfl
  simp only [State.access_of_ready hr, hissues, State.accessReq, State.laneAcc_eq, usedLanes_eq hr.some, huni] at he
  exact ⟨_, he, s.issued_requesting c _ (s.accessVal op spad a rank) tlb⟩

/-- One that is ready traps at its lowest misaligned lane. -/
theorem State.misalignedTraps {l0 : Nat} (ht : s.TakesTraps) (ha : s.active c l0 = true) (hr : s.AccessReady c op dests spad a rank names)
    (hbad : (s.accessEa m spad a l0).toNat % szBytes m.sz ≠ 0)
    (hlow : ∀ l < l0, s.active c l = true → (s.accessEa m spad a l).toNat % szBytes m.sz = 0) :
    s.Completes i (s.AccessTrapped c op 4 0 0 l0 (s.accessEa m spad a l0)) := by
  rw [State.access_of_ready hr, State.accessChecked_of_misaligned ha hbad hlow] at he
  exact ⟨_, he, ht.accessTrapped c op 4 l0 _ (by decide) (by decide)⟩

/-- One that is ready and aligned traps at its lowest lane without a place. -/
theorem State.placeTraps {l0 : Nat} {e : LaneFault} (ht : s.TakesTraps) (ha : s.active c l0 = true) (hr : s.AccessReady c op dests spad a rank names)
    (halign : ∀ l < 128, s.active c l = true → (s.accessEa m spad a l).toNat % szBytes m.sz = 0) (hplace : s.lanePlace m op spad a rank l0 = .error e)
    (hlane : e.lane = l0) (hd : e.detail < 256) (haux : e.aux < 256)
    (hlow : ∀ l < l0, s.active c l = true → ∃ p, s.lanePlace m op spad a rank l = .ok p) :
    s.Completes i (s.AccessTrapped c op e.cause e.detail e.aux l0 e.addr) := by
  rw [State.access_of_ready hr, State.accessChecked_of_fault halign ha hplace hlow, hlane] at he
  exact ⟨_, he, ht.accessTrapped c op e.cause l0 _ hd haux⟩

end

end

/-- Settles O42: each of the ten instructions is an access, which issues or traps at its first lane without a place. -/
theorem memoryAccessesIssue : Obligations.MemoryAccessesIssue := by
  intro s c m op d a b k l0 e words load block stored ops xcmp does
  have hdoes : ∀ {i : Instr} {mo : MemOp} {dests : List Reg} (spad : Bool) {rank : Option Reg} {names : List Reg} {data : Nat → Nat × Nat},
      exec i s = .next (s.access c m (Space.of spad) mo dests a rank names data) → does i mo dests spad rank names data := by
    intro i mo dests spad rank names data he
    refine ⟨State.issuesAccess he, fun ht _ ha hr halign hplace hlane hd haux hlow => ?_⟩
    refine State.placeTraps he ht ha hr halign ((State.lanePlace_eq s m mo spad a rank l0).trans hplace) hlane hd haux fun l hl hact => ?_
    rw [State.lanePlace_eq]
    exact hlow l hl hact
  exact ⟨hdoes false rfl, hdoes true rfl, hdoes true rfl, hdoes false rfl, hdoes true rfl, hdoes true rfl, hdoes false rfl, hdoes true rfl, hdoes true rfl,
    hdoes false rfl⟩

/-- Settles O43: each of the ten instructions is an access, which checks the alignment of its lanes before their places. -/
theorem misalignedAccessTraps : Obligations.MisalignedAccessTraps := by
  intro s c m op d a b k l0 block ops traps load ht _ ha
  have htraps : ∀ {i : Instr} {mo : MemOp} {dests : List Reg} (spad : Bool) {rank : Option Reg} {names : List Reg} {data : Nat → Nat × Nat},
      exec i s = .next (s.access c m (Space.of spad) mo dests a rank names data) → traps i mo dests spad rank names :=
    fun _ _ _ _ he hr hbad hlow => State.misalignedTraps he ht ha hr hbad hlow
  exact ⟨htraps false rfl, htraps true rfl, htraps true rfl, htraps false rfl, htraps true rfl, htraps true rfl, htraps false rfl,
    htraps true rfl, htraps true rfl, htraps false rfl⟩

end Sys2Proof.Machine
end

section
/-! PROOFS. RESUME settles the entries of a queue by their numbers, also those of other queues (O56 fails). -/

namespace Sys2Proof.Machine

/-! ## A resumed queue settles an entry of another queue that has the same number (R151, R160)

The clause of `Obligations.CopyEngineEvents` for QCTL_RESUME says that the entries of every other queue are as they were. `State.resumeQueue` settles each entry
that its peer has refused meanwhile with `State.settleEntry`, which finds entries by number whatever their queue. The clause for QCTL_ABORT asks that no two
entries have one number; the clause for QCTL_RESUME does not, and fails of a state where an entry of another queue has the number of a refused one. -/

/-- Entry 10 of a queue, accepted in a given order. -/
def entryTen (q acc status : Nat) (phase : CopyPhase) : CopyEntry :=
  { id := 10, ins := 9, acc := acc, q := q, kind := .copy, uid := 1, core := 0, wg := 0, ctx := 0, tid := 0, statp := 0, addr := 0, org := [], dense := 0
    wide := false, ch := 0, tok := 0, lane := 0, bar := none, cond := none, phase := phase, seq := 0, next := 0, status := status, detail := 0, time := 0
    hdl := false, rec' := [], cnt := .zero, cols := [], rel := 0 }

/-- In queue 1: it waits to begin. -/
def waitingEntry : CopyEntry := entryTen 1 2 0 .waiting

/-- Queue 0 is held by the fault of an entry that its peer has refused; an entry of queue 1 has the number of that entry. -/
def sharedNumber : State :=
  { State.reset with copy := { State.reset.copy with
      queues := [⟨0, true, 0, false, true, 0, 0⟩], entries := [entryTen 0 1 3 (.faulted 0 0 1), waitingEntry] } }

/-- The resumption of queue 0 settles both entries. -/
theorem exec_sharedNumber {t : State} (h : exec (.qctlResume 0) sharedNumber = .next t) : t.copy.entries.map (·.phase) = [.moved, .moved] := by
  have key : (match exec (.qctlResume 0) sharedNumber with | .next t => t.copy.entries.map (·.phase) | _ => []) = [.moved, .moved] := by decide +kernel
  rw [h] at key
  exact key

/-- Refutes O56: the resumption of queue 0 changes the entry of queue 1, which the statement says stays. -/
theorem not_copyEngineEvents : ¬ Obligations.CopyEngineEvents := by
  intro h
  obtain ⟨-, hqctl, -⟩ := h sharedNumber 0 0 0 0 0 waitingEntry [] sharedNumber 0 0 0 ⟨0, 0, 0, 0, 0, [], 0, false⟩ false 0
    ⟨0, 0, 0, 0, 0, 0, 0, false, false, false, [], false, false, false, false, (0, 0)⟩ ⟨0, [], 0, 0⟩ ⟨0, 0, 0, 0, []⟩ ⟨0, 0, 0, 0, false⟩
    ⟨0, 0, 0, 0, 0, 0, 0, 0, false, [], [], (0, 0), none⟩ [] 0 [] 0 0 [] ⟨0, 0, 0, 0, 0, 0, 0, 0, false, [], [], (0, 0), none⟩
  obtain ⟨-, -, hresume, -⟩ := hqctl ⟨by decide, by decide⟩
  obtain ⟨t, he, -, -, -, hothers, -⟩ := hresume (by decide)
  have hmem : waitingEntry ∈ t.copy.entries := (hothers waitingEntry (by decide)).2 (List.mem_cons_of_mem _ List.mem_cons_self)
  have hphase : waitingEntry.phase ∈ t.copy.entries.map (·.phase) := List.mem_map_of_mem hmem
  rw [exec_sharedNumber he] at hphase
  exact absurd hphase (by decide)

end Sys2Proof.Machine
end

section
/-! PROOFS. Handle slots and parked tasks after an update: what a slot reads, what is released, what is placed (O55). -/

namespace Sys2Proof.Machine

/-! ## Slots (R171 to R175) -/

/-- A slot stands at the place a handle names. -/
def Slot.standsFor (h : DWord) (x : Slot) : Bool := x.isAt (handleCore h) (handleCtx h) (handleSlot h)

/-- An update of a slot that leaves it in its place. -/
def Slot.Stays (f : Slot → Slot) : Prop := ∀ x c k i, (f x).isAt c k i = x.isAt c k i

/-- The slot of a handle stands at its place. -/
theorem State.standsFor_of_slotOf {s : State} {h : DWord} {x : Slot} (hx : s.slotOf h = some x) : x.standsFor h = true :=
  List.find?_some (p := Slot.standsFor h) hx

/-- The place of a slot. -/
theorem Slot.isAt_iff {x : Slot} {c i : Nat} {k : BitVec 3} : x.isAt c k i = true ↔ x.core = c ∧ x.ctx = k ∧ x.idx = i := by
  simp only [Slot.isAt, Bool.and_eq_true, beq_iff_eq, and_assoc]

/-- The slot of a handle after an update of the slot of another or the same handle. -/
theorem State.slotOf_mapSlot {f : Slot → Slot} (hf : Slot.Stays f) (s : State) (h k : DWord) :
    (s.mapSlot h f).slotOf k = (s.slotOf k).map fun x => if x.standsFor h then f x else x := by
  have hcomp : Slot.standsFor k ∘ (fun x => if x.standsFor h then f x else x) = Slot.standsFor k := by
    funext x
    rw [Function.comp_apply]
    split
    · exact hf x _ _ _
    · rfl
  change List.find? (Slot.standsFor k) (updWhere (Slot.standsFor h) f s.tasks.slots) = _
  rw [updWhere, List.find?_map, hcomp]
  rfl

/-- The slot of a handle after an update of it. -/
theorem State.slotOf_mapSlot_self {f : Slot → Slot} (hf : Slot.Stays f) {s : State} {h : DWord} {x : Slot} (hx : s.slotOf h = some x) :
    (s.mapSlot h f).slotOf h = some (f x) := by
  rw [State.slotOf_mapSlot hf, hx, Option.map_some, if_pos (State.standsFor_of_slotOf hx)]

/-- The slot of a handle after an update of a handle with another slot. -/
theorem State.slotOf_mapSlot_of_ne {f : Slot → Slot} (hf : Slot.Stays f) {s : State} {h k : DWord} {x y : Slot} (hx : s.slotOf h = some x)
    (hy : s.slotOf k = some y) (hne : x ≠ y) : (s.mapSlot h f).slotOf k = some y := by
  rw [State.slotOf_mapSlot hf, hy, Option.map_some, if_neg]
  intro hat
  obtain ⟨hc, hk, hi⟩ := Slot.isAt_iff.1 hat
  obtain ⟨hc', hk', hi'⟩ := Slot.isAt_iff.1 (State.standsFor_of_slotOf hy)
  rw [State.slotOf, ← hc, hc', ← hk, hk', ← hi, hi'] at hx
  exact hne (Option.some.inj (hx.symm.trans hy))

/-- The slot of a handle after a slot is put. -/
theorem State.slotOf_putSlot (s : State) (x : Slot) (h : DWord) : (s.putSlot x).slotOf h = if x.standsFor h then some x else s.slotOf h := by
  change List.find? (Slot.standsFor h) (x :: s.tasks.slots.filter fun y => !y.isAt x.core x.ctx x.idx) = if _ then _ else List.find? (Slot.standsFor h) _
  split
  · next hat => rw [List.find?_cons_of_pos hat]
  · next hat =>
    rw [List.find?_cons_of_neg hat, List.find?_filter]
    refine congrArg (List.find? · s.tasks.slots) (funext fun y => ?_)
    by_cases hy : y.standsFor h = true
    · have hother : y.isAt x.core x.ctx x.idx = false := by
        refine Bool.eq_false_iff.2 fun hxy => hat ?_
        obtain ⟨hc, hk, hi⟩ := Slot.isAt_iff.1 hxy
        rw [← hy, Slot.standsFor, Slot.standsFor, Slot.isAt, Slot.isAt, hc, hk, hi]
      simp [hy, hother]
    · simp [hy]

/-- A slot that is the handle's still: a home slot that is not FREE, of its generation. -/
theorem State.liveSlot_of_slotOf {s : State} {h : DWord} {x : Slot} (hx : s.slotOf h = some x) (hh : x.home = true) (hs : x.state ≠ .free)
    (hg : x.gen = handleGen h) : s.liveSlot h = some x := by
  rw [State.liveSlot, hx, Option.filter_some, if_pos]
  simp [hh, hs, hg]

/-- A release changes the slots only (R175). -/
theorem State.tryFree_rest (s : State) (h : DWord) : ∃ slots, s.tryFree h = { s with tasks := { s.tasks with slots := slots } } := by
  unfold State.tryFree
  split
  · split
    · dsimp only
      split
      · split <;> exact ⟨_, rfl⟩
      · exact ⟨_, rfl⟩
    · exact ⟨_, rfl⟩
  · exact ⟨_, rfl⟩

/-- A slot that is not final, or not dropped, is not released (R175). -/
theorem State.tryFree_eq_self {s : State} {h : DWord} {x : Slot} (hx : s.slotOf h = some x) (hk : x.state.final = false ∨ x.dropped = false) :
    s.tryFree h = s := by
  unfold State.tryFree
  rw [hx]
  rcases hk with hk | hk <;> simp only [hk, Bool.false_and, Bool.and_false, Bool.false_eq_true, if_false]

/-- A final slot that is dropped and owes nothing is released (R175). -/
theorem State.tryFree_eq_putSlot {s : State} {h : DWord} {x : Slot} (hx : s.slotOf h = some x) (hs : x.state.final = true) (hd : x.dropped = true)
    (hc : x.chain = []) (ha : s.awaited h = false) (hf : x.forward = none) : s.tryFree h = s.putSlot x.cleared := by
  unfold State.tryFree
  simp only [hx, hs, hd, hc, ha, hf, List.isEmpty_nil, Bool.and_self, Bool.not_false, if_true]

/-- The slot that is released. -/
theorem State.slotOf_putSlot_cleared {s : State} {h : DWord} {x : Slot} (hx : s.slotOf h = some x) : (s.putSlot x.cleared).slotOf h = some x.cleared := by
  rw [State.slotOf_putSlot]
  exact if_pos (State.standsFor_of_slotOf hx)

/-- A handle breaks before its warp runs: BROKEN with a word, from a time on (R174). -/
def Slot.breakAt (word : DWord) (time : Nat) (x : Slot) : Slot := { x with state := .broken, brk := some (x.brk.getD word), time := time }

/-- The slot of a handle that breaks before its warp runs, and its decrements (R174, R183). -/
theorem State.breakUnrun_eq {s : State} {h : DWord} {x : Slot} (word : DWord) (hx : s.slotOf h = some x) (hh : x.home = true) (hp : x.state = .pending)
    (hg : x.gen = handleGen h) (hd : x.dropped = false) :
    s.breakUnrun h word = (s.mapSlot h fun y => Slot.breakAt word (s.tideOf (y.core / 24)) y).addLate h x.core x.words 0 := by
  have hlive : s.liveSlot h = some x := State.liveSlot_of_slotOf hx hh (by rw [hp]; decide) hg
  have hfinal : x.state.final = false := by rw [hp]; rfl
  have hbreak : s.breakSlot h word 0 = (s.mapSlot h fun y => Slot.breakAt word (s.tideOf (y.core / 24)) y).addLate h x.core x.words 0 := by
    unfold State.breakSlot
    simp only [hlive, hfinal, Bool.false_eq_true, if_false]
    rfl
  have hslot : (s.breakSlot h word 0).slotOf h = some (Slot.breakAt word (s.tideOf (x.core / 24)) x) := by
    rw [hbreak]
    exact State.slotOf_mapSlot_self (f := fun y => Slot.breakAt word (s.tideOf (y.core / 24)) y) (fun _ _ _ _ => rfl) hx
  unfold State.breakUnrun
  rw [hlive, Option.isSome_some, if_pos rfl, State.tryFree_eq_self hslot (.inr hd), hbreak]

/-- The slot of a handle that breaks before its warp runs; only the tasks change. -/
theorem State.breakUnrun_spec {s : State} {h : DWord} {x : Slot} (word : DWord) (hx : s.slotOf h = some x) (hh : x.home = true) (hp : x.state = .pending)
    (hg : x.gen = handleGen h) (hd : x.dropped = false) (hb : x.brk = none) : s.breakUnrun h word = { s with tasks := (s.breakUnrun h word).tasks }
      ∧ (s.breakUnrun h word).slotOf h = some { x with state := .broken, brk := some word, time := s.tideOf (x.core / 24) } := by
  rw [State.breakUnrun_eq word hx hh hp hg hd]
  refine ⟨rfl, ?_⟩
  have hslot := State.slotOf_mapSlot_self (f := fun y => Slot.breakAt word (s.tideOf (y.core / 24)) y) (fun _ _ _ _ => rfl) hx
  rw [Slot.breakAt, hb] at hslot
  exact hslot

/-! ## Reads at a home that no L2 holds dirty (R119) -/

/-- A recall that finds nothing dirty changes the L2s only. -/
theorem MemSys.Clean.recall_rest {m : MemSys} (h : m.Clean) (line : Nat) (keep : Nat → Bool) : m.recall line keep = { m with l2 := (m.recall line keep).l2 } := by
  have hnone : (m.l2.filter fun x => x.sec / 4 == line && x.dirty != 0 && !keep x.die) = [] :=
    List.filter_eq_nil_iff.2 fun x hx => by simp [h x hx]
  simp only [MemSys.recall, hnone, List.foldl_nil]

/-- So do several. -/
theorem MemSys.Clean.recalls_rest (f : Nat → Nat) (keep : Nat → Bool) (is : List Nat) : ∀ {m : MemSys}, m.Clean →
    ∃ l2, is.foldl (fun m i => m.recall (f i) keep) m = { m with l2 := l2 } := by
  induction is with
  | nil => exact fun {m} _ => ⟨m.l2, rfl⟩
  | cons i is ih =>
    intro m h
    obtain ⟨l2, hl2⟩ := ih (h.recall (f i) keep).2
    refine ⟨l2, hl2.trans ?_⟩
    rw [h.recall_rest (f i) keep]

/-- A read there changes the L2s only, and gives the bytes that stand there. -/
theorem State.homeRead_eq_of_clean {s : State} (h : s.mem.Clean) (pa n : Nat) : ∃ l2 : List L2Sector, (∀ z ∈ l2, z.dirty = 0)
    ∧ s.homeRead pa n = (readBytes s.mem.home pa n, { s with mem := { s.mem with l2 := l2 } }) := by
  obtain ⟨hbytes, -, hclean⟩ := State.homeRead_of_clean h pa n
  obtain ⟨l2, hl2⟩ := MemSys.Clean.recalls_rest (fun i => lineOf (pa + i)) (fun _ => false) (List.range n) h
  have hmem : (s.homeRead pa n).2.mem = { s.mem with l2 := l2 } := hl2
  refine ⟨l2, fun z hz => hclean z (by rw [hmem]; exact hz), Prod.ext hbytes ?_⟩
  exact congrArg (fun m => { s with mem := m }) hmem

/-! ## Ready queues and parked tasks (R147, R178 to R180) -/

/-- Tasks join their ready queues. -/
def State.addReady (s : State) (ts : List ReadyTask) : State := { s with tasks := { s.tasks with ready := s.tasks.ready ++ ts } }

/-- The entry of a task that is sent from a die to the ready queue of a core. -/
def State.readyEntry (s : State) (die core : Nat) (h upValue upHandle : DWord) (acq : Nat) : Option ReadyTask := (s.slotOf h).map fun z =>
  ⟨core, z.ctx, recPrio z.words, h, upValue, upHandle, acq, decide (die = core / 24), false, s.dueFrom die⟩

/-- A task that is put in a ready queue. -/
theorem State.enqueue_eq (s : State) (die core : Nat) (h upValue upHandle : DWord) (acq : Nat) :
    s.enqueue die core h upValue upHandle acq = s.addReady (s.readyEntry die core h upValue upHandle acq).toList := by
  unfold State.enqueue State.readyEntry
  cases s.slotOf h with
  | none => exact congrArg (fun ready => { s with tasks := { s.tasks with ready := ready } }) (List.append_nil _).symm
  | some z => rfl

/-- A fold each step of which puts at most one task in a ready queue, the same whatever joined before it. -/
theorem State.foldl_addReady {α : Type} {g : State → α → State} {o : State → α → Option ReadyTask} (hg : ∀ s a, g s a = s.addReady (o s a).toList)
    (ho : ∀ s ts a, o (State.addReady s ts) a = o s a) (as : List α) : ∀ s : State, as.foldl g s = s.addReady (as.filterMap (o s)) := by
  have hadd : ∀ (s : State) ts us, (s.addReady ts).addReady us = s.addReady (ts ++ us) :=
    fun s ts us => congrArg (fun ready => { s with tasks := { s.tasks with ready := ready } }) (List.append_assoc _ _ _)
  induction as with
  | nil => exact fun s => congrArg (fun ready => { s with tasks := { s.tasks with ready := ready } }) (List.append_nil _).symm
  | cons a as ih =>
    intro s
    rw [List.foldl_cons, ih, hg, hadd, funext (ho s (o s a).toList), List.filterMap_cons]
    cases o s a <;> rfl

/-- When the acquire of a task that is parked on a counter begins (R147, R385). -/
def State.parkTime (s : State) (pa : Nat) : Nat := max (s.mem.stampAt pa 4) (timeFor pa s.tasks.decTimes)

/-- The entry of a ready queue for a task that the counter at a place releases. -/
def State.readyFor (s : State) (pa : Nat) (q : ParkedTask) : Option ReadyTask := (s.slotOf q.handle).map fun z =>
  ⟨s.placeCore z.core z.ctx (z.words.getD 5 0), z.ctx, recPrio z.words, q.handle, 0, 0, s.parkTime pa,
    decide (homeDie pa = s.placeCore z.core z.ctx (z.words.getD 5 0) / 24), false, s.dueFrom (homeDie pa)⟩

/-- A released task joins its ready queue. -/
theorem State.placeByAddress_eq (s : State) (pa : Nat) (q : ParkedTask) :
    s.placeByAddress (homeDie pa) q.handle (s.parkTime pa) = s.addReady (s.readyFor pa q).toList := by
  unfold State.placeByAddress State.readyFor
  cases hx : s.slotOf q.handle with
  | none => exact congrArg (fun ready => { s with tasks := { s.tasks with ready := ready } }) (List.append_nil _).symm
  | some z =>
    dsimp only
    rw [State.enqueue_eq, State.readyEntry, hx]
    rfl

/-- A counter that is zero releases the tasks parked on it, in park order (R179). -/
theorem State.releaseParked_eq (s : State) (pa : Nat) : s.releaseParked pa = { s with tasks := { s.tasks with
    parked := s.tasks.parked.filter fun p => !(p.arrived && p.pa == pa)
    ready := s.tasks.ready ++ (s.tasks.parked.filter fun p => p.arrived && p.pa == pa).filterMap (s.readyFor pa) } } :=
  State.foldl_addReady (fun s q => s.placeByAddress_eq pa q) (fun _ _ _ => rfl) (s.tasks.parked.filter fun p => p.arrived && p.pa == pa)
    { s with tasks := { s.tasks with parked := s.tasks.parked.filter fun p => !(p.arrived && p.pa == pa) } }

end Sys2Proof.Machine
end

section
/-! PROOFS. Tasks that park, and tasks that start (O55). -/

namespace Sys2Proof.Machine

/-! ## PARK_ARRIVE (R179) -/

/-- The task stands parked at the home of its counter, whose read left the L2s as given. -/
def State.parkedAt (s : State) (p : ParkedTask) (l2 : List L2Sector) : State :=
  { s with mem := { s.mem with l2 := l2 }, tasks := { s.tasks with parked := s.tasks.parked.filter (fun q => q.handle != p.handle) ++ [{ p with arrived := true }] } }

/-- A task found on its way under a handle has that handle. -/
theorem handle_of_find?_parked {ps : List ParkedTask} {handle : DWord} {p : ParkedTask} (hp : ps.find? (fun q => q.handle == handle && !q.arrived) = some p) :
    p.handle = handle := by
  have h := List.find?_some hp
  rw [Bool.and_eq_true, beq_iff_eq] at h
  exact h.1

/-- A task that has come parks, and is released with the others there when the counter is zero. -/
theorem exec_parkArrive {s : State} {handle : DWord} {p : ParkedTask} (hp : s.tasks.parked.find? (fun q => q.handle == handle && !q.arrived) = some p)
    (hc : s.mem.Clean) (hb : s.pchBusy p.pa = false) (hd : p.due.2 ≤ s.tideOf p.due.1) : ∃ l2, exec (.parkArrive handle) s
      = .next (if readNum s.mem.home p.pa 4 = 0 then (s.parkedAt p l2).releaseParked p.pa else s.parkedAt p l2) := by
  obtain ⟨l2, -, hread⟩ := State.homeRead_eq_of_clean hc p.pa 4
  obtain rfl := handle_of_find?_parked hp
  refine ⟨l2, ?_⟩
  change execParkArrive p.handle s = _
  simp only [execParkArrive, hp, hb, Nat.not_lt.2 hd, decide_false, Bool.or_false, Bool.false_eq_true, if_false, hread]
  rfl

/-- The tasks parked at a place once one has come there: those before it, and it. -/
theorem State.parkedAt_there (s : State) (p : ParkedTask) (l2 : List L2Sector) :
    ((s.parkedAt p l2).tasks.parked.filter fun q => q.arrived && q.pa == p.pa).filterMap ((s.parkedAt p l2).readyFor p.pa)
      = (s.tasks.parked.filter (fun q => q.handle != p.handle && (q.arrived && q.pa == p.pa)) ++ [p]).filterMap (s.readyFor p.pa) := by
  change List.filterMap (s.readyFor p.pa) (List.filter _ (_ ++ _)) = _
  rw [List.filter_append, List.filter_filter, List.filter_singleton, List.filterMap_append, List.filterMap_append]
  simp only [beq_self_eq_true, Bool.and_self, Bool.and_comm]
  rfl

/-- The tasks parked elsewhere, and those on their way. -/
theorem State.parkedAt_elsewhere (s : State) (p : ParkedTask) (l2 : List L2Sector) : ((s.parkedAt p l2).tasks.parked.filter fun q => !(q.arrived && q.pa == p.pa))
    = s.tasks.parked.filter fun q => q.handle != p.handle && !(q.arrived && q.pa == p.pa) := by
  change List.filter _ (_ ++ _) = _
  rw [List.filter_append, List.filter_filter, List.filter_singleton]
  simp [Bool.and_comm]

/-! ## TASK_DISPATCH (R170, R180, R181) -/

/-- The head task of the context that a core runs, whose release condition is met and for whose result there is a slot. -/
structure State.Dispatchable (s : State) (core n : Nat) (rt : ReadyTask) (x : Slot) : Prop where
  context : ((List.range 8).find? fun k => s.runsOn (core / 24) (BitVec.ofNat 3 k)) = some n
  up : s.ctl.down.contains (core / 24) = false
  head : s.readyHead core (BitVec.ofNat 3 n) = some rt
  slot : s.slotOf rt.handle = some x
  pending : x.state = .pending
  gen : x.gen = handleGen rt.handle
  met : s.condMet x.cond = true
  room : x.core = core ∨ (s.lowestSlot core (BitVec.ofNat 3 n)).isSome = true

/-- The word of its release has come, if another die had to send it (R135, R146). -/
structure State.Heard (s : State) (core : Nat) (rt : ReadyTask) (x : Slot) : Prop where
  told : x.core / 24 = core / 24 ∨ rt.told = true
  came : rt.told = true → rt.due.2 ≤ s.tideOf rt.due.1

section
variable {s : State} {core n : Nat} {rt : ReadyTask} {x : Slot}

/-- A core that keeps its task, or has a free slot for the result, may dispatch. -/
theorem State.Dispatchable.may (h : s.Dispatchable core n rt x) :
    (!s.condMet x.cond || (x.core != core && (s.lowestSlot core (BitVec.ofNat 3 n)).isNone)) = false := by
  rw [h.met]
  rcases h.room with hc | hr
  · simp [hc]
  · simp [Option.isNone_eq_false_iff.2 hr]

/-- A task that is its slot's still, and waits there. -/
theorem State.Dispatchable.waits (h : s.Dispatchable core n rt x) : (x.state != .pending || x.gen != handleGen rt.handle) = false := by
  simp [h.pending, h.gen]

/-- Nothing of the release is still to be heard. -/
theorem State.Heard.test (h : s.Heard core rt x) :
    (x.core / 24 != core / 24 && !rt.told) = false ∧ (rt.told && decide (s.tideOf rt.due.1 < rt.due.2)) = false := by
  obtain ⟨htold, hcame⟩ := h
  refine ⟨by rcases htold with h | h <;> simp [h], ?_⟩
  cases ht : rt.told
  · rfl
  · simpa using hcame ht

/-- The release of a task that another die is to run is told there. -/
theorem State.Dispatchable.exec_tell (h : s.Dispatchable core n rt x) (hfar : x.core / 24 ≠ core / 24) (ht : rt.told = false) :
    exec (.taskDispatch core) s = .next (s.tellRelease rt.handle (x.core / 24)) := by
  change execTaskDispatch core s = _
  have hdie : (x.core / 24 != core / 24 && !rt.told) = true := by simp [hfar, ht]
  simp only [execTaskDispatch, dieOfCore, h.context, h.up, h.head, h.slot, h.waits, h.may, hdie, if_true, if_false, Bool.false_eq_true]

/-- A header that cannot be read breaks the task. -/
theorem State.Dispatchable.exec_unreadable (h : s.Dispatchable core n rt x) (hh : s.Heard core rt x)
    (hp : s.headerPlace core (BitVec.ofNat 3 n) (s.descOf n 1 + 128 * recLhidx x.words) = .error none) :
    exec (.taskDispatch core) s = .next ((s.dequeue rt.handle).breakUnrun rt.handle (breakWord 6 2 rt.handle)) := by
  change execTaskDispatch core s = _
  simp only [execTaskDispatch, dieOfCore, h.context, h.up, h.head, h.slot, h.waits, h.may, hh.test, if_false, Bool.false_eq_true, hp]

/-- So does one that is not valid. -/
theorem State.Dispatchable.exec_invalid (h : s.Dispatchable core n rt x) (hh : s.Heard core rt x) (hc : s.mem.Clean) {pa : Nat}
    (hp : s.headerPlace core (BitVec.ofNat 3 n) (s.descOf n 1 + 128 * recLhidx x.words) = .ok pa)
    (hv : (headerOf (readBytes s.mem.home pa 128)).validTask n = false) : ∃ l2, exec (.taskDispatch core) s
      = .next ((State.dequeue { s with mem := { s.mem with l2 := l2 } } rt.handle).breakUnrun rt.handle (breakWord 6 1 rt.handle)) := by
  obtain ⟨l2, -, hread⟩ := State.homeRead_eq_of_clean hc pa 128
  refine ⟨l2, ?_⟩
  change execTaskDispatch core s = _
  simp only [execTaskDispatch, dieOfCore, h.context, h.up, h.head, h.slot, h.waits, h.may, hh.test, if_false, Bool.false_eq_true, hp, hread, hv, Bool.not_false,
    if_true]

end

/-- The result slot of a task that runs away from its home: the lowest that is FREE (R173). -/
def State.withResultSlot (s : State) (core : Nat) (ctx : BitVec 3) (away : Bool) : State :=
  if away then
    let i := (s.lowestSlot core ctx).getD 0
    s.putSlot ⟨core, ctx, i, false, .running, s.slotGen core ctx i, false, none, none, [], [], false, none, none, 0, [], 0, (0, 0)⟩
  else s

/-- Its slot names the core that runs it and the result slot there. -/
def Slot.runOn (core : Nat) (result : Option Nat) (x : Slot) : Slot := { x with state := .running, exec := some core, forward := result }

/-- The workgroup of a task (R181). -/
def State.placeTaskOn (s : State) (core : Nat) (ctx : BitVec 3) (rt : ReadyTask) (x : Slot) (h : Header) (ps : List Nat) : State :=
  State.placeWg { s.dropCond x.cond with nextId := s.nextId + 1 } s.nextId
    ⟨core, none, 0, 0, [s.nextId], some rt.handle, [x.words.getD 3 0, x.words.getD 4 0], x.words.getD 1 0, max rt.acqTime (s.condTime x.cond)⟩
    h ctx ps (fun _ => taskArch x.words rt.handle rt.upValue rt.upHandle)

/-- A task starts on a core. -/
def State.startTask (s : State) (core : Nat) (ctx : BitVec 3) (rt : ReadyTask) (x : Slot) (h : Header) (ps : List Nat) : State :=
  (((s.withResultSlot core ctx (x.core != core)).placeTaskOn core ctx rt x h ps).dequeue rt.handle).mapSlot rt.handle
    (Slot.runOn core (if x.core = core then none else some ((s.lowestSlot core ctx).getD 0)))

/-- A task whose header is valid starts where its resources fit. -/
theorem State.Dispatchable.exec_start {s : State} {core n : Nat} {rt : ReadyTask} {x : Slot} (h : s.Dispatchable core n rt x) (hh : s.Heard core rt x)
    (hc : s.mem.Clean) {pa : Nat} {ps : List Nat}
    (hp : s.headerPlace core (BitVec.ofNat 3 n) (s.descOf n 1 + 128 * recLhidx x.words) = .ok pa)
    (hv : (headerOf (readBytes s.mem.home pa 128)).validTask n = true) (hf : s.fits core (headerOf (readBytes s.mem.home pa 128)) 1 = some ps) :
    ∃ l2, exec (.taskDispatch core) s = .next (State.startTask { s with mem := { s.mem with l2 := l2 } } core (BitVec.ofNat 3 n) rt x
      (headerOf (readBytes s.mem.home pa 128)) ps) := by
  obtain ⟨l2, -, hread⟩ := State.homeRead_eq_of_clean hc pa 128
  have hfits : State.fits { s with mem := { s.mem with l2 := l2 } } core (headerOf (readBytes s.mem.home pa 128)) 1 = some ps := hf
  refine ⟨l2, ?_⟩
  change execTaskDispatch core s = _
  simp only [execTaskDispatch, dieOfCore, h.context, h.up, h.head, h.slot, h.waits, h.may, hh.test, if_false, Bool.false_eq_true, hp, hread, hv, Bool.not_true, hfits]
  unfold State.startTask State.withResultSlot
  by_cases hcore : x.core = core
  · simp only [hcore, bne_self_eq_false, Bool.false_eq_true, if_false, if_true]
    rfl
  · have haway : (x.core != core) = true := by simpa using hcore
    simp only [haway, if_true, if_neg hcore]
    rfl

/-- A placed workgroup adds its warps to those of the part. -/
theorem State.mem_warps_placeWg (s : State) (key : Nat) (t : Seat) (h : Header) (ctx : BitVec 3) {ps : List Nat} (start : Nat → Arch) {i : Nat}
    (hi : i < ps.length) :
    Warp.fresh (s.nextId + i) t.core (ps.getD i 0) key i h ctx t.task t.succs t.argp t.acq (start i) ∈ (s.placeWg key t h ctx ps start).warps := by
  generalize hw : Warp.fresh (s.nextId + i) t.core (ps.getD i 0) key i h ctx t.task t.succs t.argp t.acq (start i) = w
  have hmem : w ∈ (List.range ps.length).map fun i => Warp.fresh (s.nextId + i) t.core (ps.getD i 0) key i h ctx t.task t.succs t.argp t.acq (start i) :=
    List.mem_map.2 ⟨i, List.mem_range.2 hi, hw⟩
  have hwarps : ∀ all : List Warp, w ∈ all → w ∈ all.headD .vacant :: all.tail := by
    intro all hall
    cases all with
    | nil => exact absurd hall List.not_mem_nil
    | cons a as => exact hall
  refine hwarps _ ?_
  split
  · exact List.mem_append_left _ hmem
  · exact List.mem_append_right _ hmem

/-- A task's lanes are Runnable at its entry (R181). -/
theorem taskArch_lane (words : List DWord) (h a b : DWord) {l : Nat} (hl : l < 128) : (taskArch words h a b).lane l = .start (words.getD 0 0) .runnable := by
  simp [taskArch, Arch.start, Arch.lane, hl]

/-- A pair of registers holds a value, uniformly. -/
def Arch.HoldsPair (a : Arch) (r : Nat) (z : DWord) : Prop := a.vregs.getD r (.u 0) = .u (loWord z) ∧ a.vregs.getD (r + 1) (.u 0) = .u (hiWord z)

/-- The registers a task starts with (R181). -/
theorem taskArch_regs (words : List DWord) (h a b : DWord) : (taskArch words h a b).HoldsPair 0 a ∧ (taskArch words h a b).HoldsPair 2 h
    ∧ (taskArch words h a b).HoldsPair 4 (words.getD 1 0) ∧ (taskArch words h a b).HoldsPair 6 (words.getD 2 0) ∧ (taskArch words h a b).HoldsPair 8 b := by
  simp [Arch.HoldsPair, taskArch, Arch.start]

section
variable (s : State) (core : Nat) (ctx : BitVec 3) (rt : ReadyTask) (x : Slot) (h : Header) (ps : List Nat)

/-- What the start of a task may change. -/
theorem State.startTask_rest : s.startTask core ctx rt x h ps = { s with
    cur := (s.startTask core ctx rt x h ps).cur, others := (s.startTask core ctx rt x h ps).others, wgs := (s.startTask core ctx rt x h ps).wgs
    arrays := (s.startTask core ctx rt x h ps).arrays, mem := (s.startTask core ctx rt x h ps).mem, tasks := (s.startTask core ctx rt x h ps).tasks
    conds := (s.startTask core ctx rt x h ps).conds, nextId := (s.startTask core ctx rt x h ps).nextId } := by
  unfold State.startTask State.withResultSlot
  split <;> rfl

/-- It writes nothing at the home. -/
theorem State.startTask_home : (s.startTask core ctx rt x h ps).mem.home = s.mem.home := by
  unfold State.startTask State.withResultSlot
  split <;> rfl

/-- The task leaves its ready queue. -/
theorem State.handle_ne_of_mem_startTask_ready {q : ReadyTask} (hq : q ∈ (s.startTask core ctx rt x h ps).tasks.ready) : q.handle ≠ rt.handle := by
  simpa using (List.mem_filter.1 hq).2

variable {s core rt x}

/-- Its slot is RUNNING. -/
theorem State.slotOf_startTask (hx : s.slotOf rt.handle = some x) : (s.startTask core ctx rt x h ps).slotOf rt.handle
    = some (Slot.runOn core (if x.core = core then none else some ((s.lowestSlot core ctx).getD 0)) x) := by
  have hstays : Slot.Stays (Slot.runOn core (if x.core = core then none else some ((s.lowestSlot core ctx).getD 0))) := fun _ _ _ _ => rfl
  refine State.slotOf_mapSlot_self hstays (?_ : (s.withResultSlot core ctx (x.core != core)).slotOf rt.handle = some x)
  unfold State.withResultSlot
  by_cases hcore : x.core = core
  · rw [hcore, bne_self_eq_false]
    exact hx
  · rw [if_pos (by simpa using hcore)]
    dsimp only
    rw [State.slotOf_putSlot, if_neg, hx]
    intro hat
    exact hcore ((Slot.isAt_iff.1 (State.standsFor_of_slotOf hx)).1.trans (Slot.isAt_iff.1 hat).1.symm)

variable (s core rt x)

/-- Its warp, at the one position given. -/
theorem State.warp_of_startTask (pos : Nat) : ∃ uid key, Warp.fresh uid core pos key 0 h ctx (some rt.handle) [x.words.getD 3 0, x.words.getD 4 0]
    (x.words.getD 1 0) (max rt.acqTime (s.condTime x.cond)) (taskArch x.words rt.handle rt.upValue rt.upHandle) ∈ (s.startTask core ctx rt x h [pos]).warps := by
  have hcond : (s.withResultSlot core ctx (x.core != core)).condTime x.cond = s.condTime x.cond := by
    unfold State.withResultSlot
    split <;> rfl
  rw [← hcond]
  exact ⟨_, _, State.mem_warps_placeWg _ _ _ h ctx (ps := [pos]) (i := 0) (fun _ => taskArch x.words rt.handle rt.upValue rt.upHandle) Nat.one_pos⟩

end

end Sys2Proof.Machine
end

section
/-! PROOFS. Tasks that settle, decrement and chain (O55). -/

namespace Sys2Proof.Machine

/-! ## HANDLE_RESOLVE and DECREMENT_ACKNOWLEDGE (R174, R183) -/

/-- Settling leaves a slot where it stands. -/
theorem Slot.settle_stays : Slot.Stays Slot.settle := by
  intro x c k i
  unfold Slot.settle
  dsimp only
  split <;> rfl

/-- A slot whose task records no decrement is final at once; one with decrements waits for them (R174, R183). -/
theorem Slot.settle_eq (x : Slot) : x.settle = if recDecs x.words = [] then { x with state := if x.brk.isSome then .broken else .resolved, decs := [] }
    else { x with state := .settling, decs := recDecs x.words } := by
  simp only [Slot.settle, List.isEmpty_iff]

/-- A final state is one of two. -/
theorem SlotState.final_ite (b : Bool) : (if b then SlotState.broken else .resolved).final = true := by cases b <;> rfl

/-- The slot of a task, its value or break released by now. -/
def State.releasedNow (s : State) (x : Slot) : Slot := { x with time := s.tideOf (x.exec.getD x.core / 24) }

/-- A recorded value or break whose condition holds is released. -/
theorem exec_handleResolve {s : State} {handle : DWord} {x : Slot} (hx : s.slotOf handle = some x) (hg : x.gen = handleGen handle) (hs : x.state = .running)
    (hv : x.value.isSome = true ∨ x.brk.isSome = true) (hc : s.condMet x.cond = true)
    (hw : ∀ w ∈ s.warps, w.task = some handle → w.hasExited = true → w.owesValue = false) :
    exec (.handleResolve handle) s = .next (((s.dropCond x.cond).mapSlot handle fun y => (s.releasedNow y).settle).tryFree handle) := by
  have hsome : (x.value.isSome || x.brk.isSome) = true := by simpa using hv
  have howes : (s.warps.any fun w => w.task == some handle && w.hasExited && w.owesValue) = false := by
    rw [List.any_eq_false]
    intro w hmem
    simp only [Bool.and_eq_true, beq_iff_eq, not_and, Bool.not_eq_true]
    exact fun h => hw w hmem h.1 h.2
  change execHandleResolve handle s = _
  simp only [execHandleResolve, hx, hs, hg, hsome, hc, howes, beq_self_eq_true, Bool.and_self, Bool.not_false, if_true]
  rfl

/-- The slot then. -/
theorem State.slotOf_resolving {s : State} {handle : DWord} {x : Slot} (hx : s.slotOf handle = some x) (k : Nat) :
    ((s.dropCond k).mapSlot handle fun y => (s.releasedNow y).settle).slotOf handle = some (s.releasedNow x).settle :=
  State.slotOf_mapSlot_self (f := fun y => (s.releasedNow y).settle) (fun y c k i => Slot.settle_stays (s.releasedNow y) c k i) hx

/-- The slot of a task all whose decrements are acknowledged. -/
def Slot.decided (x : Slot) : Slot := { x with state := if x.brk.isSome then .broken else .resolved, decs := [] }

/-- With every decrement acknowledged a slot is final. -/
theorem exec_decrementAcknowledge {s : State} {handle : DWord} {x : Slot} (hx : s.slotOf handle = some x) (hg : x.gen = handleGen handle)
    (hs : x.state = .settling) (ha : ∀ k ∈ x.decs, k.2 = true) (hd : x.due.2 ≤ s.tideOf x.due.1) :
    exec (.decrementAcknowledge handle) s = .next ((s.mapSlot handle fun y => (s.releasedNow y).decided).tryFree handle) := by
  have hall : (x.decs.all fun d => d.2) = true := List.all_eq_true.2 ha
  change execDecrementAcknowledge handle s = _
  simp only [execDecrementAcknowledge, hx, hs, hg, hall, hd, decide_true, beq_self_eq_true, Bool.and_self, if_true]
  rfl

/-! ## Numbers at the home (R2) -/

/-- Four bytes hold a number below 2 ^ 32. -/
theorem numLE_lt (bs : List Byte) : numLE bs < 256 ^ bs.length := by
  induction bs with
  | nil => exact Nat.one_pos
  | cons b bs ih =>
    have := b.isLt
    rw [numLE, List.length_cons, Nat.pow_succ]
    omega

/-- A number of n bytes. -/
theorem readNum_lt (m : List Host.Cell) (a n : Nat) : readNum m a n < 256 ^ n := by
  have h := numLE_lt (readBytes m a n)
  rwa [readBytes, List.length_map, List.length_range] at h

/-- A byte at the home after bytes are written there with the stamp of a release. -/
theorem State.readByte_homeWriteAs {s : State} (h : s.mem.Clean) (stamp : Option Stamp) (pa : Nat) (bs : List Byte) (a : Nat) :
    readByte (s.homeWriteAs stamp pa bs).mem.home a = if pa ≤ a ∧ a < pa + bs.length then bs.getD (a - pa) 0 else readByte s.mem.home a :=
  (h.readByte_writes stamp pa bs bs.length).2 a

/-- A number written with a stamp is read back. -/
theorem State.readNum_homeWriteAs {s : State} (h : s.mem.Clean) (stamp : Option Stamp) (pa n x : Nat) :
    readNum (s.homeWriteAs stamp pa (bytesLE n x)).mem.home pa n = x % 256 ^ n := by
  have hbytes : readBytes (s.homeWriteAs stamp pa (bytesLE n x)).mem.home pa n = readBytes (s.homeWrite pa (bytesLE n x)).mem.home pa n := by
    unfold State.homeWrite readBytes
    exact List.map_congr_left fun i _ => by rw [State.readByte_homeWriteAs h, State.readByte_homeWriteAs h]
  rw [← State.readNum_homeWrite h pa n x, readNum, readNum, hbytes]

/-- A write at the home changes memory only. -/
theorem State.homeWriteAs_rest (s : State) (stamp : Option Stamp) (pa : Nat) (bs : List Byte) :
    s.homeWriteAs stamp pa bs = { s with mem := (s.homeWriteAs stamp pa bs).mem } := rfl

/-- A fault-log record changes memory and the count of notices only. -/
theorem State.logRecord_rest (s : State) (r : LogRec) : ∃ mem notices, s.logRecord r = { s with mem := mem, notices := notices } := by
  unfold State.logRecord State.homeWrite
  dsimp only
  split
  · exact ⟨s.mem, s.notices, rfl⟩
  · split
    · rw [State.homeWriteAs_rest, State.homeWriteAs_rest s]
      exact ⟨_, _, rfl⟩
    · rw [State.homeWriteAs_rest]
      exact ⟨_, _, rfl⟩

/-! ## Decrements (R185) -/

/-- A core reaches the counter at a place for a context, and no cache holds a dirty byte. -/
structure State.Reaches (s : State) (ctx : BitVec 3) (core : Nat) (va : DWord) (pa : Nat) (e : DWord) : Prop where
  place : s.xlate core ctx va.toNat = .ok pa e
  read : leafRead e = true
  write : leafWrite e = true
  grantRead : s.grantedAll ctx.toNat 0 pa 4 false = true
  grantWrite : s.grantedAll ctx.toNat 0 pa 4 true = true
  quiet : s.pchBusy pa = false
  sound : s.mem.poisoned pa 4 = false
  clean : s.mem.Clean

/-- A counter is written one lower, with the stamp of a release from a core (R185, R385). -/
def State.countedDown (s : State) (core pa n : Nat) : State :=
  let time := (s.storeTimes core pa).getD 3 0
  let w := s.homeWriteAs (some ⟨4, 0, time⟩) pa (bytesLE 4 n)
  { w with tasks := { w.tasks with decTimes := raiseTime pa time w.tasks.decTimes } }

/-- Memory changes, and the times of decrements. -/
theorem State.countedDown_rest (s : State) (core pa n : Nat) : s.countedDown core pa n = { s with
    mem := (s.countedDown core pa n).mem, tasks := { s.tasks with decTimes := (s.countedDown core pa n).tasks.decTimes } } := by
  unfold State.countedDown
  dsimp only
  rw [State.homeWriteAs_rest]

/-- Memory holds the write. -/
theorem State.countedDown_mem (s : State) (core pa n : Nat) :
    (s.countedDown core pa n).mem = (s.homeWriteAs (some ⟨4, 0, (s.storeTimes core pa).getD 3 0⟩) pa (bytesLE 4 n)).mem := rfl

/-- The counter holds what was written. -/
theorem State.readNum_countedDown {s : State} (h : s.mem.Clean) (core pa n : Nat) : readNum (s.countedDown core pa n).mem.home pa 4 = n % 256 ^ 4 := by
  rw [State.countedDown_mem, State.readNum_homeWriteAs h]

/-- Bytes elsewhere stay. -/
theorem State.readByte_countedDown {s : State} (h : s.mem.Clean) (core pa n : Nat) {z : Nat} (hz : z < pa ∨ pa + 4 ≤ z) :
    readByte (s.countedDown core pa n).mem.home z = readByte s.mem.home z := by
  rw [State.countedDown_mem, State.readByte_homeWriteAs h, if_neg (by rw [length_bytesLE]; omega)]

section
variable {s : State} {handle : DWord} {core pa : Nat} {va e : DWord}

/-- The decrement of a counter that is reached and is not zero. -/
theorem State.Reaches.decrement_eq_countedDown (h : s.Reaches (handleCtx handle) core va pa e) (h0 : readNum s.mem.home pa 4 ≠ 0) (second : Bool) :
    ∃ l2 : List L2Sector, (∀ z ∈ l2, z.dirty = 0) ∧ s.decrement handle core va second =
      if readNum s.mem.home pa 4 = 1 then (State.countedDown { s with mem := { s.mem with l2 := l2 } } core pa (readNum s.mem.home pa 4 - 1)).releaseParked pa
      else State.countedDown { s with mem := { s.mem with l2 := l2 } } core pa (readNum s.mem.home pa 4 - 1) := by
  obtain ⟨l2, hl2, hread⟩ := State.homeRead_eq_of_clean h.clean pa 4
  refine ⟨l2, hl2, ?_⟩
  rw [readNum] at h0 ⊢
  simp only [State.decrement, h.place, h.read, h.write, h.grantRead, h.grantWrite, h.sound, Bool.not_true, Bool.or_self, Bool.false_eq_true, if_false, hread, h0,
    State.countedDown]

/-- A decrement of a counter that is not zero takes one from it; what the counter then releases joins its ready queues. -/
theorem State.Reaches.decrement_of_pos (h : s.Reaches (handleCtx handle) core va pa e) (h0 : readNum s.mem.home pa 4 ≠ 0) (second : Bool) :
    ∃ mem parked ready times, s.decrement handle core va second = { s with mem := mem, tasks := { s.tasks with parked := parked, ready := ready, decTimes := times } }
      ∧ readNum mem.home pa 4 = readNum s.mem.home pa 4 - 1 ∧ ∀ z, (z < pa ∨ pa + 4 ≤ z) → readByte mem.home z = readByte s.mem.home z := by
  obtain ⟨l2, hl2, hdec⟩ := h.decrement_eq_countedDown h0 second
  have hlt := readNum_lt s.mem.home pa 4
  generalize readNum s.mem.home pa 4 = old at *
  have hnum := State.readNum_countedDown (s := { s with mem := { s.mem with l2 := l2 } }) hl2 core pa (old - 1)
  rw [Nat.mod_eq_of_lt (Nat.lt_of_le_of_lt (Nat.sub_le old 1) hlt)] at hnum
  have hframe : ∀ z, (z < pa ∨ pa + 4 ≤ z) → _ := fun z hz =>
    State.readByte_countedDown (s := { s with mem := { s.mem with l2 := l2 } }) hl2 core pa (old - 1) hz
  have hrest := State.countedDown_rest { s with mem := { s.mem with l2 := l2 } } core pa (old - 1)
  rw [hrest] at hdec hnum hframe
  rw [hdec]
  split
  · rw [State.releaseParked_eq]
    exact ⟨_, _, _, _, rfl, hnum, hframe⟩
  · exact ⟨_, _, _, _, rfl, hnum, hframe⟩

/-- The slot whose decrement finds its counter zero is broken, unless it is already (R185). -/
def Slot.breakDec (second : Bool) (handle : DWord) (x : Slot) : Slot := { x with brk := some (x.brk.getD (breakWord 5 (if second then 1 else 0) handle)) }

/-- A decrement of a counter that is zero breaks the handle of its task, if that is its slot's still. -/
theorem State.Reaches.decrement_of_zero (h : s.Reaches (handleCtx handle) core va pa e) (h0 : readNum s.mem.home pa 4 = 0) (second : Bool) {x : Slot}
    (hx : s.liveSlot handle = some x) : (s.decrement handle core va second).tasks.slots = (s.mapSlot handle (Slot.breakDec second handle)).tasks.slots := by
  obtain ⟨l2, -, hread⟩ := State.homeRead_eq_of_clean h.clean pa 4
  obtain ⟨mem, notices, hlog⟩ := State.logRecord_rest { s with mem := { s.mem with l2 := l2 } } ⟨s.tideOf (homeDie pa), 4, 13, if second then 1 else 0, 0, 0xFFFF, 0,
    0, 0, va, handle, (handleCtx handle).toNat, 0, 0⟩
  have hlive : (State.liveSlot { s with mem := mem, notices := notices } handle).isNone = false := by
    rw [show State.liveSlot { s with mem := mem, notices := notices } handle = some x from hx]
    rfl
  rw [readNum] at h0
  simp only [State.decrement, h.place, h.read, h.write, h.grantRead, h.grantWrite, h.sound, Bool.not_true, Bool.or_self, Bool.false_eq_true, if_false, hread, h0, if_true]
  rw [hlog, State.releaseParked_eq, State.breakDec, hlive]
  rfl

/-- The decrements of one cc apply in ascending order of the core at a home slice (R185). -/
def State.InTurn (s : State) (pa core : Nat) : Prop := ∀ q ∈ s.tasks.decSeen, q.1 = sliceOf pa → q.2 ≤ core

/-- What `decMay` tests. -/
theorem State.decMay_iff (s : State) (pa core : Nat) : s.decMay (some (sliceOf pa)) core = true ↔ s.InTurn pa core := by
  simp only [State.decMay, List.all_eq_true, Bool.or_eq_true, bne_iff_ne, decide_eq_true_eq, State.InTurn, imp_iff_not_or]

/-- The place of a counter that is reached. -/
theorem State.Reaches.decPlace (h : s.Reaches (handleCtx handle) core va pa e) : s.decPlace core (handleCtx handle) va = some pa := by
  simp only [State.decPlace, h.place]

/-- A decrement in its turn applies and is noted. -/
theorem State.Reaches.decArrive (h : s.Reaches (handleCtx handle) core va pa e) (ht : s.InTurn pa core) (second : Bool) (done : Nat → State → State) :
    s.decArrive handle core va second done = done (homeDie pa) ((s.decrement handle core va second).seeDec (some (sliceOf pa)) core) := by
  simp only [State.decArrive, h.decPlace, Option.map_some, Option.any_some, (s.decMay_iff pa core).2 ht, h.quiet, Bool.not_false, Bool.and_self, if_true,
    Option.getD_some]

/-- One that follows a higher core's waits for a later cc. -/
theorem State.Reaches.decArrive_waits (h : s.Reaches (handleCtx handle) core va pa e) (ht : ¬s.InTurn pa core) (second : Bool) (done : Nat → State → State) :
    s.decArrive handle core va second done = s := by
  have hmay : s.decMay (some (sliceOf pa)) core = false := Bool.eq_false_iff.2 fun hm => ht ((s.decMay_iff pa core).1 hm)
  simp only [State.decArrive, h.decPlace, Option.map_some, hmay, Bool.false_and, Bool.false_eq_true, if_false]

end

/-- The acknowledgement of a decrement comes from a die. -/
def Slot.noteDec (second : Bool) (due : Nat × Nat) (x : Slot) : Slot :=
  { x with decs := x.decs.map (fun d => if d.1 == second then (d.1, true) else d), due := due }

/-- A settling slot makes a decrement that is still to be made, A before B. -/
theorem exec_successorDecrement {s : State} {handle : DWord} {x : Slot} {second : Bool} (hx : s.liveSlot handle = some x) (hs : x.state = .settling)
    (hd : x.decs.contains (second, false) = true) (ho : second = true → x.decs.contains (false, false) = false)
    (ht : x.time + 8 ≤ s.tideOf (x.exec.getD x.core / 24)) : exec (.successorDecrement handle second) s
      = .next (s.decArrive handle (x.exec.getD x.core) (x.words.getD (if second then 4 else 3) 0) second fun die t =>
          t.mapSlot handle (Slot.noteDec second (t.dueFrom die))) := by
  have hslot : ((s.liveSlot handle).filter fun x => x.state == .settling) = some x := by rw [hx, Option.filter_some, if_pos (by simp [hs])]
  have hfirst : (!second || !x.decs.contains (false, false)) = true := by
    cases second
    · rfl
    · simp only [ho rfl, Bool.not_false, Bool.or_true]
  change execSuccessorDecrement handle second s = _
  simp only [execSuccessorDecrement, hslot, hd, hfirst, dieOfCore, ht, decide_true, Bool.and_self, if_true]
  rfl

/-! ## Decrements that no slot waits for (R183, R190) -/

section
variable {s : State} {handle : DWord} {second : Bool} {ld : LateDec}

/-- One whose condition holds is sent. -/
theorem exec_successorDecrement_send (hn : (s.liveSlot handle).filter (fun x => x.state == .settling) = none)
    (hl : s.tasks.late.find? (fun q => q.handle == handle && q.second == second) = some ld) (hd : ld.due = none) (hc : s.condMet ld.cond = true) :
    exec (.successorDecrement handle second) s = .next { s with tasks := { s.tasks with
      late := s.tasks.late.map fun q => if q.handle == handle && q.second == second then { q with due := some (s.dueFrom (ld.core / 24)) } else q } } := by
  change execSuccessorDecrement handle second s = _
  simp only [execSuccessorDecrement, hn, hl, hd, hc, if_true, dieOfCore]

/-- One that has come arrives, A before B, and is gone. -/
theorem exec_successorDecrement_late (hn : (s.liveSlot handle).filter (fun x => x.state == .settling) = none)
    (hl : s.tasks.late.find? (fun q => q.handle == handle && q.second == second) = some ld) {came : Nat × Nat} (hd : ld.due = some came)
    (hc : came.2 ≤ s.tideOf came.1) (ho : second = true → ∀ q ∈ s.tasks.late, q.handle = handle → q.second = true) :
    exec (.successorDecrement handle second) s = .next (s.decArrive handle ld.core ld.va second fun _ t => { t with tasks := { t.tasks with
      late := t.tasks.late.filter fun q => !(q.handle == handle && q.second == second) } }) := by
  have hfirst : (!second || !(s.tasks.late.any fun y => y.handle == handle && !y.second)) = true := by
    cases second
    · rfl
    · have hany : (s.tasks.late.any fun y => y.handle == handle && !y.second) = false := by
        rw [List.any_eq_false]
        intro q hq
        simpa using ho rfl q hq
      rw [hany]
      rfl
  change execSuccessorDecrement handle second s = _
  simp only [execSuccessorDecrement, hn, hl, hd, hc, hfirst, decide_true, Bool.and_self, if_true]

end

/-! ## CHAIN_LIST_RUN (R184) -/

/-- The state of a slot has come from the die that made it to the slot's home. -/
theorem State.finalAt_home {s : State} {x : Slot} (hs : x.state.final = true)
    (ht : x.time + (if x.exec.getD x.core / 24 = x.core / 24 then 0 else 8) ≤ s.tideOf (x.exec.getD x.core / 24)) : s.finalAt x (x.core / 24) = true := by
  simp only [State.finalAt, dieOfCore, hs, if_true, Nat.add_zero, Bool.true_and]
  exact decide_eq_true ht

/-- The list of a slot is taken from it. -/
def Slot.unchained (x : Slot) : Slot := { x with chain := [] }

/-- The upstream has a value: its list starts in order on the core that made it. -/
theorem exec_chainListRun_resolved {s : State} {handle : DWord} {x : Slot} (hx : s.slotOf handle = some x) (hg : x.gen = handleGen handle)
    (hd : x.dropped = false) (hs : x.state = .resolved)
    (ht : x.time + (if x.exec.getD x.core / 24 = x.core / 24 then 0 else 8) ≤ s.tideOf (x.exec.getD x.core / 24)) :
    exec (.chainListRun handle) s = .next ((s.mapSlot handle Slot.unchained).addReady (x.chain.filterMap fun h =>
      (s.mapSlot handle Slot.unchained).readyEntry (x.core / 24) (x.exec.getD x.core) h (x.value.getD 0) handle x.time)) := by
  have hfinal := State.finalAt_home (s := s) (by rw [hs]; rfl) ht
  have hfold := State.foldl_addReady
    (g := fun t h => t.enqueue (x.core / 24) (x.exec.getD x.core) h (x.value.getD 0) handle x.time)
    (o := fun t h => t.readyEntry (x.core / 24) (x.exec.getD x.core) h (x.value.getD 0) handle x.time)
    (fun t h => t.enqueue_eq _ _ h _ _ _) (fun _ _ _ => rfl) x.chain (s.mapSlot handle Slot.unchained)
  have hslot : (s.mapSlot handle Slot.unchained).slotOf handle = some x.unchained := State.slotOf_mapSlot_self (f := Slot.unchained) (fun _ _ _ _ => rfl) hx
  have hfree := State.tryFree_eq_self (s := (s.mapSlot handle Slot.unchained).addReady (x.chain.filterMap fun h =>
    (s.mapSlot handle Slot.unchained).readyEntry (x.core / 24) (x.exec.getD x.core) h (x.value.getD 0) handle x.time)) hslot (.inr hd)
  rw [← hfree, ← hfold]
  change execChainListRun handle s = _
  simp only [execChainListRun, hx, hg, hs, dieOfCore, hfinal, Bool.not_true, bne_self_eq_false, Bool.or_self, Bool.false_eq_true, if_false]
  rfl

/-- The upstream has broken: the one task of its list breaks unrun. -/
theorem exec_chainListRun_broken {s : State} {handle h v : DWord} {x : Slot} (hx : s.slotOf handle = some x) (hg : x.gen = handleGen handle)
    (hs : x.state = .broken) (hb : x.brk = some v) (hc : x.chain = [h])
    (ht : x.time + (if x.exec.getD x.core / 24 = x.core / 24 then 0 else 8) ≤ s.tideOf (x.exec.getD x.core / 24)) :
    exec (.chainListRun handle) s = .next (((s.mapSlot handle Slot.unchained).breakUnrun h (upstreamWord v)).tryFree handle) := by
  have hfinal := State.finalAt_home (s := s) (by rw [hs]; rfl) ht
  change execChainListRun handle s = _
  simp only [execChainListRun, hx, hg, hs, hb, hc, dieOfCore, hfinal, Bool.not_true, bne_self_eq_false, Bool.or_self, Bool.false_eq_true, if_false,
    List.foldl_cons, List.foldl_nil]
  rfl

/-- What an instruction answers may be named otherwise. -/
theorem State.completes_of_eq {s t u : State} {i : Instr} {P : State → Prop} (he : exec i s = .next t) (ht : t = u) (hp : P u) : s.Completes i P :=
  ⟨u, ht ▸ he, hp⟩

/-! ## Slots that settle, and decrements that apply -/

/-- What settling keeps of a slot. -/
theorem Slot.settle_keeps (x : Slot) : x.settle.dropped = x.dropped ∧ x.settle.gen = x.gen ∧ x.settle.chain = x.chain ∧ x.settle.forward = x.forward := by
  unfold Slot.settle
  dsimp only
  split <;> exact ⟨rfl, rfl, rfl, rfl⟩

/-- The break word of a detail that fits its field (R189). -/
theorem breakWord_of_lt (cause : Nat) {detail : Nat} (h : detail < 256) (origin : DWord) :
    breakWord cause detail origin = BitVec.ofNat 64 (cause * 2 ^ 56 + detail * 2 ^ 48 + origin.toNat / 65536) := by rw [breakWord, Nat.mod_eq_of_lt h]

/-- The slot of a handle is one of the slots. -/
theorem State.slotOf_congr {s t : State} (h : s.tasks.slots = t.tasks.slots) (k : DWord) : s.slotOf k = t.slotOf k := by
  rw [State.slotOf, State.slotOf, h]

section
variable {s : State} {handle : DWord} {x : Slot} {second : Bool} {core pa : Nat} {va e : DWord}

/-- A slot that is settling still is its handle's. -/
theorem State.slotOf_noteDec {t : State} (h : t.slotOf handle = some x) (due : Nat × Nat) :
    (t.mapSlot handle (Slot.noteDec second due)).slotOf handle = some (x.noteDec second due) :=
  State.slotOf_mapSlot_self (f := Slot.noteDec second due) (fun _ _ _ _ => rfl) h

/-- What a decrement needs to reach its counter. -/
theorem State.Reaches.of_and {ctx : BitVec 3} (h : s.xlate core ctx va.toNat = .ok pa e ∧ leafRead e = true ∧ leafWrite e = true
    ∧ s.grantedAll ctx.toNat 0 pa 4 false = true ∧ s.grantedAll ctx.toNat 0 pa 4 true = true ∧ s.pchBusy pa = false ∧ s.mem.poisoned pa 4 = false
    ∧ s.mem.Clean) : s.Reaches ctx core va pa e := by
  obtain ⟨hplace, hread, hwrite, hgrantRead, hgrantWrite, hquiet, hsound, hclean⟩ := h
  exact ⟨hplace, hread, hwrite, hgrantRead, hgrantWrite, hquiet, hsound, hclean⟩

/-- The slot after a decrement that found its counter zero. -/
theorem State.Reaches.slotOf_decrement_of_zero (h : s.Reaches (handleCtx handle) core va pa e) (h0 : readNum s.mem.home pa 4 = 0)
    (hx : s.liveSlot handle = some x) (hs : s.slotOf handle = some x) : 
    ((s.decrement handle core va second).seeDec (some (sliceOf pa)) core).slotOf handle = some (x.breakDec second handle) :=
  (State.slotOf_congr (h.decrement_of_zero h0 second hx) handle).trans (State.slotOf_mapSlot_self (f := Slot.breakDec second handle) (fun _ _ _ _ => rfl) hs)

end

/-! ## What settling, decrements and chains leave -/

section
variable {s : State} {handle : DWord} {x : Slot}

/-- A value or break that is released settles its slot, which stays while it is not dropped. -/
theorem State.completes_handleResolve_kept (hx : s.slotOf handle = some x) (hg : x.gen = handleGen handle) (hs : x.state = .running)
    (hv : x.value.isSome = true ∨ x.brk.isSome = true) (hc : s.condMet x.cond = true)
    (hw : ∀ w ∈ s.warps, w.task = some handle → w.hasExited = true → w.owesValue = false) (hd : x.dropped = false) :
    s.Completes (.handleResolve handle) fun t => t = { s with tasks := t.tasks, conds := t.conds }
      ∧ t.slotOf handle = some (if recDecs x.words = [] then
          { x with state := if x.brk.isSome then .broken else .resolved, decs := [], time := s.tideOf (x.exec.getD x.core / 24) }
        else { x with state := .settling, decs := recDecs x.words, time := s.tideOf (x.exec.getD x.core / 24) }) := by
  have hslot := State.slotOf_resolving hx x.cond
  have hkept := State.tryFree_eq_self hslot (.inr ((Slot.settle_keeps _).1.trans hd))
  exact State.completes_of_eq (exec_handleResolve hx hg hs hv hc hw) hkept ⟨rfl, hslot.trans (congrArg some (Slot.settle_eq _))⟩

/-- One that is dropped, and owes nothing, is released. -/
theorem State.completes_handleResolve_freed (hx : s.slotOf handle = some x) (hg : x.gen = handleGen handle) (hs : x.state = .running)
    (hv : x.value.isSome = true ∨ x.brk.isSome = true) (hc : s.condMet x.cond = true)
    (hw : ∀ w ∈ s.warps, w.task = some handle → w.hasExited = true → w.owesValue = false) (hd : x.dropped = true) (hn : recDecs x.words = [])
    (hch : x.chain = []) (ha : s.awaited handle = false) (hf : x.forward = none) :
    s.Completes (.handleResolve handle) fun t => (t.slotOf handle).map (fun z => (z.state, z.gen)) = some (.free, x.gen + 1) := by
  have hslot := State.slotOf_resolving hx x.cond
  rw [Slot.settle_eq, if_pos (show recDecs (s.releasedNow x).words = [] from hn)] at hslot
  refine State.completes_of_eq (exec_handleResolve hx hg hs hv hc hw) (State.tryFree_eq_putSlot hslot (SlotState.final_ite _) hd hch ha hf) ?_
  rw [State.slotOf_putSlot_cleared hslot]
  rfl

/-- The task of a broken upstream's list breaks unrun, and makes its decrements without its slot (R183, R184). -/
theorem State.completes_chainListRun_broken {v k : DWord} {y : Slot} (hx : s.slotOf handle = some x) (hg : x.gen = handleGen handle) (hd : x.dropped = false)
    (hs : x.state = .broken) (ht : x.time + (if x.exec.getD x.core / 24 = x.core / 24 then 0 else 8) ≤ s.tideOf (x.exec.getD x.core / 24))
    (hb : x.brk = some v) (hk : x.chain = [k]) (hy : s.slotOf k = some y) (hyp : y.state = .pending) (hyd : y.dropped = false) (hyh : y.home = true)
    (hyg : y.gen = handleGen k) (hyb : y.brk = none) : s.Completes (.chainListRun handle) fun t =>
      t.slotOf k = some { y with state := .broken, brk := some (upstreamWord v), time := s.tideOf (y.core / 24) } ∧ t.tasks.ready = s.tasks.ready
      ∧ t.tasks.late = s.tasks.late ++ (recDecs y.words).map fun q => ⟨k, y.core, y.words.getD (if q.1 then 4 else 3) 0, q.1, 0, none⟩ := by
  have hne : x ≠ y := fun h => by rw [h, hyp] at hs; cases hs
  have hxslot := State.slotOf_mapSlot_self (f := Slot.unchained) (fun _ _ _ _ => rfl) hx
  have hyslot := State.slotOf_mapSlot_of_ne (f := Slot.unchained) (fun _ _ _ _ => rfl) hx hy hne
  obtain ⟨-, hbroken⟩ := State.breakUnrun_spec (upstreamWord v) hyslot hyh hyp hyg hyd hyb
  have hunrun := State.breakUnrun_eq (upstreamWord v) hyslot hyh hyp hyg hyd
  have hslot : ((s.mapSlot handle Slot.unchained).breakUnrun k (upstreamWord v)).slotOf handle = some x.unchained := by
    rw [hunrun]
    exact State.slotOf_mapSlot_of_ne (f := fun y => Slot.breakAt (upstreamWord v) (s.tideOf (y.core / 24)) y) (fun _ _ _ _ => rfl) hyslot hxslot
      fun h => by rw [h] at hyp; cases hyp.symm.trans hs
  refine State.completes_of_eq (exec_chainListRun_broken hx hg hs hb hk ht) (State.tryFree_eq_self hslot (.inr hd)) ⟨hbroken, ?_, ?_⟩ <;> rw [hunrun] <;> rfl

end

end Sys2Proof.Machine
end

section
/-! PROOFS. The answers of handles: requests once checked, HPOLL, HDROP and CHAIN (O55). -/

namespace Sys2Proof.Machine

/-! ## Requests apart from the arrival of their messages -/

/-- A request apart from when its message comes. -/
def Req.undated (r : Req) : Req := { r with due := (0, 0) }

/-- The requests once one is checked: what is behind it may leave the core (R227, R228). -/
def State.checkedReqs (s : State) (id : Nat) (r : Req) : List Req := updWhere (fun x => x.id == id) (fun x => { x with checked := true })
  (s.reqs.map fun x => if x.uid == r.uid && decide (id ≤ x.id) && x.isWrite then { x with due := s.dueFrom (x.core / 24) } else x)

/-- A check changes the requests, and what the warp keeps to roll back. -/
theorem State.checkReq_eq {s : State} {id : Nat} {r : Req} (hr : s.reqOf id = some r) :
    s.checkReq id = { s.mapWarp r.uid (Warp.dropSnap · id) with reqs := s.checkedReqs id r } := by
  unfold State.checkReq
  rw [hr]
  rfl

/-- An update that keeps the numbers of requests, and of those with another number all but the arrival, keeps these apart from it. -/
theorem undated_filter_map {g : Req → Req} {id : Nat} (hid : ∀ q, (g q).id = q.id) (hg : ∀ q, q.id ≠ id → (g q).undated = q.undated) (qs : List Req) :
    ((qs.map g).filter fun q => q.id != id).map Req.undated = (qs.filter fun q => q.id != id).map Req.undated := by
  have hcomp : (fun q : Req => q.id != id) ∘ g = fun q => q.id != id := funext fun q => by rw [Function.comp_apply, hid]
  rw [List.filter_map, hcomp, List.map_map]
  exact List.map_congr_left fun q hq => hg q (by simpa using (List.mem_filter.1 hq).2)

/-- The requests but the one that is checked and done. -/
theorem State.undated_checkedReqs (s : State) (id : Nat) (r : Req) :
    ((s.checkedReqs id r).filter fun q => q.id != id).map Req.undated = (s.reqs.filter fun q => q.id != id).map Req.undated := by
  rw [State.checkedReqs, updWhere, undated_filter_map]
  · refine undated_filter_map (fun q => ?_) (fun q _ => ?_) s.reqs <;> split <;> rfl
  · intro q
    split <;> rfl
  · intro q hq
    rw [if_neg (by simpa using hq)]

/-- Each of them stood before, apart from its arrival. -/
theorem State.of_mem_checkedReqs {s : State} {id : Nat} {r q : Req} (hq : q ∈ (s.checkedReqs id r).filter fun q => q.id != id) :
    ∃ q' ∈ s.reqs, q'.id ≠ id ∧ q'.undated = q.undated := by
  have hmem := List.mem_map_of_mem (f := Req.undated) hq
  rw [State.undated_checkedReqs] at hmem
  obtain ⟨q', hq', he⟩ := List.mem_map.1 hmem
  rw [List.mem_filter, bne_iff_ne] at hq'
  exact ⟨q', hq'.1, hq'.2, he⟩

/-- A request waits for the answer of a handle. -/
def Req.awaits (h : DWord) (r : Req) : Bool := r.checked && match r.kind with
  | .await hs _ _ _ => hs.any fun p => p.2 == h
  | _ => false

/-- A handle is awaited when a request waits for it. -/
theorem State.awaited_eq (s : State) (h : DWord) : s.awaited h = s.reqs.any (Req.awaits h) := rfl

/-- A request that is checked and done lets no other wait for a handle. -/
theorem State.awaited_checkedReqs {s t : State} {id : Nat} {r : Req} {h : DWord} (ht : t.reqs = (s.checkedReqs id r).filter fun q => q.id != id)
    (hs : s.awaited h = false) : t.awaited h = false := by
  rw [State.awaited_eq, List.any_eq_false] at hs ⊢
  intro q hq
  rw [ht] at hq
  obtain ⟨q', hq', -, he⟩ := State.of_mem_checkedReqs hq
  have hawaits : q'.undated.awaits h = q.undated.awaits h := congrArg (Req.awaits h) he
  exact hawaits ▸ hs q' hq'

/-! ## HANDLE_MESSAGE_ARRIVE (R172, R184, R324, R325) -/

/-- The message of a request that has no answer yet has come. -/
structure State.Asks (s : State) (id : Nat) (r : Req) : Prop where
  found : s.reqOf id = some r
  unchecked : r.checked = false
  sound : r.fault = none
  came : s.came r = true ∨ ∀ h ∈ r.handles, handleCore h / 24 = r.core / 24

section
variable {s : State} {id : Nat} {r : Req}

/-- It is answered now. -/
theorem State.Asks.test (h : s.Asks id r) : (r.checked || r.fault.isSome || !s.handleCame r r.handles) = false := by
  have hcame : s.handleCame r r.handles = true := by
    rcases h.came with hc | hn
    · rw [State.handleCame, hc, Bool.true_or]
    · rw [State.handleCame, Bool.or_eq_true]
      exact .inr (List.all_eq_true.2 fun k hk => beq_iff_eq.2 (hn k hk))
  rw [h.unchecked, h.sound, hcame]
  rfl

/-- The request stands there with the fault of a stale handle (R172). -/
theorem State.Asks.reqOf_failReq {t : State} (h : s.Asks id r) (ht : t.reqs = s.reqs) (l : Nat) : (t.failReq id 11 0 0 (some l) 0 4).reqOf id
    = some { r with fault := some ⟨11, 0, 0, some l, 0, 4, r.act, r.split, r.pc, r.pc⟩ } := by
  have hfound : t.reqOf id = some r := by rw [State.reqOf, ht]; exact h.found
  rw [State.failReq, State.reqOf_mapReq (f := fun r : Req => { r with fault := some ⟨11, 0, 0, some l, 0, 4, r.act, r.split, r.pc, r.pc⟩ }) (fun _ => rfl), hfound]
  rfl

/-- One handle is checked by itself. -/
theorem State.checkFault_singleton (s : State) (ctx : BitVec 3) (l : Nat) (h : DWord) :
    s.checkFault ctx [(l, h)] = if s.handleOk ctx h then none else some l := by
  cases hh : s.handleOk ctx h <;> simp [State.checkFault, hh]

/-- So it is before a drop. -/
theorem State.dropFault_singleton (s : State) (ctx : BitVec 3) (l : Nat) (h : DWord) :
    s.dropFault ctx [(l, h)] = if s.handleOk ctx h then none else some l := by
  cases hh : s.handleOk ctx h <;> simp [State.dropFault, hh]

/-- The lanes whose handle is final. -/
def State.finalLanes (s : State) (die : Nat) (hs : List (Nat × DWord)) : Mask := maskOf fun l => hs.any fun x => x.1 == l && (s.answer die x.2).isSome

/-- A warp takes the answer of its `HPOLL` (R325). -/
def Warp.takePoll (id time : Nat) (act : Mask) (p : PReg) (m : Mask) (w : Warp) : Warp :=
  ({ w.refetch with acqUntil := max w.acqUntil time }.mapArchFrom id fun a => a.writePred act p m).dropPend id

/-- An `HPOLL` whose handles are sound is answered. -/
theorem State.Asks.exec_hpoll {hs : List (Nat × DWord)} {p : PReg} (h : s.Asks id r) (hk : r.kind = .hpoll hs p) (hok : ∀ z ∈ hs, s.handleOk r.ctx z.2 = true) :
    exec (.handleMessageArrive id) s = .next (((s.checkReq id).mapWarp r.uid
      (Warp.takePoll id (s.answerTime (hs.map (·.2))) r.act p (s.finalLanes (r.core / 24) hs))).dropReq id) := by
  have hcheck : s.checkFault r.ctx hs = none := by
    rw [State.checkFault, Option.map_eq_none_iff, List.find?_eq_none]
    intro z hz
    rw [hok z hz]
    decide
  have hhandles : r.handles = hs.map (·.2) := by rw [Req.handles, hk]
  rw [← hhandles]
  change execHandleMessageArrive id s = _
  simp only [execHandleMessageArrive, h.found, h.test, hk, hcheck, Bool.false_eq_true, if_false]
  rfl

/-- One with a stale handle fails. -/
theorem State.Asks.exec_hpoll_stale {hs : List (Nat × DWord)} {p : PReg} {l : Nat} {v : DWord} (h : s.Asks id r) (hk : r.kind = .hpoll hs p)
    (hf : hs.find? (fun z => !s.handleOk r.ctx z.2) = some (l, v)) : exec (.handleMessageArrive id) s = .next (s.failReq id 11 0 0 (some l) 0 4) := by
  have hcheck : s.checkFault r.ctx hs = some l := by rw [State.checkFault, hf]; rfl
  change execHandleMessageArrive id s = _
  simp only [execHandleMessageArrive, h.found, h.test, hk, hcheck, Bool.false_eq_true, if_false]

/-- A slot is dropped (R324). -/
def Slot.drop (x : Slot) : Slot := { x with dropped := true }

/-- An `HDROP` of one handle. -/
theorem State.Asks.exec_hdrop {l : Nat} {handle : DWord} (h : s.Asks id r) (hk : r.kind = .hdrop [(l, handle)]) (hok : s.handleOk r.ctx handle = true) :
    exec (.handleMessageArrive id) s = .next ((((s.checkReq id).dropReq id).mapSlot handle Slot.drop).tryFree handle) := by
  have hcheck : s.dropFault r.ctx [(l, handle)] = none := by rw [State.dropFault_singleton, hok, if_pos rfl]
  change execHandleMessageArrive id s = _
  simp only [execHandleMessageArrive, h.found, h.test, hk, hcheck, Bool.false_eq_true, if_false]
  rfl

/-- One of a stale handle fails. -/
theorem State.Asks.exec_hdrop_stale {l : Nat} {handle : DWord} (h : s.Asks id r) (hk : r.kind = .hdrop [(l, handle)]) (hok : s.handleOk r.ctx handle = false) :
    exec (.handleMessageArrive id) s = .next (s.failReq id 11 0 0 (some l) 0 4) := by
  have hcheck : s.dropFault r.ctx [(l, handle)] = some l := by rw [State.dropFault_singleton, hok, if_neg Bool.false_ne_true]
  change execHandleMessageArrive id s = _
  simp only [execHandleMessageArrive, h.found, h.test, hk, hcheck, Bool.false_eq_true, if_false]

/-- A `CHAIN` of one lane joins its upstream. -/
theorem State.Asks.exec_chain {l : Nat} {up handle : DWord} (h : s.Asks id r) (hk : r.kind = .chain [(l, up, handle)]) (hok : s.handleOk r.ctx up = true) :
    exec (.handleMessageArrive id) s = .next (((s.checkReq id).dropReq id).joinChain up handle) := by
  have hcheck : s.checkFault r.ctx [(l, up)] = none := by rw [State.checkFault_singleton, hok, if_pos rfl]
  change execHandleMessageArrive id s = _
  simp only [execHandleMessageArrive, h.found, h.test, hk, List.map_cons, List.map_nil, hcheck, Bool.false_eq_true, if_false]
  rfl

/-- One whose upstream has gone keeps no slot. -/
theorem State.Asks.exec_chain_stale {l : Nat} {up handle : DWord} (h : s.Asks id r) (hk : r.kind = .chain [(l, up, handle)]) (hok : s.handleOk r.ctx up = false) :
    exec (.handleMessageArrive id) s = .next ((s.untake handle).failReq id 11 0 0 (some l) 0 4) := by
  have hcheck : s.checkFault r.ctx [(l, up)] = some l := by rw [State.checkFault_singleton, hok, if_neg Bool.false_ne_true]
  change execHandleMessageArrive id s = _
  simp only [execHandleMessageArrive, h.found, h.test, hk, List.map_cons, List.map_nil, hcheck, Bool.false_eq_true, if_false]
  rfl

/-- An `AWAIT` of one handle takes the answer, unless a switch has stopped its warp. -/
theorem State.Asks.exec_await {l : Nat} {handle : DWord} {d : Reg} {p : PReg} {t : Bool} (h : s.Asks id r) (hk : r.kind = .await [(l, handle)] d p t)
    (hok : s.handleOk r.ctx handle = true) (hf : s.frozen r.uid = false) :
    exec (.handleMessageArrive id) s = .next ((s.checkReq id).awaitAnswer r [(l, handle)] d p t) := by
  have hcheck : s.checkFault r.ctx [(l, handle)] = none := by rw [State.checkFault_singleton, hok, if_pos rfl]
  change execHandleMessageArrive id s = _
  simp only [execHandleMessageArrive, h.found, h.test, hk, hcheck, hf, Bool.false_eq_true, if_false]

end

/-! ## What the lanes and slots hold then -/

/-- A predicate after a write of it. -/
theorem Arch.getLsbD_preds_writePred (act : Mask) (a : Arch) {p : PReg} (hp : p ≠ 7) (v : Mask) {k : Nat} (hk : k < 128) :
    ((a.writePred act p v).preds.getD p.toNat 0).getLsbD k = if act.getLsbD k then v.getLsbD k else (a.preds.getD p.toNat 0).getLsbD k := by
  have h := Arch.pred_writePred act a p p v k hk
  simpa only [Arch.pred, if_neg hp, true_and] using h

/-- The warp that polled has its answer. -/
theorem State.finalLanes_poll (s : State) (id time die : Nat) (act : Mask) {p : PReg} (hp : p ≠ 7) (hs : List (Nat × DWord)) (w : Warp) {k : Nat} (hk : k < 128) :
    ((w.takePoll id time act p (s.finalLanes die hs)).arch.preds.getD p.toNat 0).getLsbD k
      = if act.getLsbD k then hs.any fun z => z.1 == k && (s.answer die z.2).isSome else (w.arch.preds.getD p.toNat 0).getLsbD k := by
  refine (Arch.getLsbD_preds_writePred act w.arch hp _ hk).trans ?_
  rw [State.finalLanes, getLsbD_maskOf, decide_eq_true hk, Bool.true_and]

/-- The slot of a handle does not hang on the requests and warps. -/
theorem State.slotOf_checkReq {s : State} {id : Nat} {r : Req} (hr : s.reqOf id = some r) (h : DWord) : ((s.checkReq id).dropReq id).slotOf h = s.slotOf h := by
  rw [State.checkReq_eq hr]
  rfl

/-- The requests once one is answered. -/
theorem State.undated_checkReq {s t : State} {id : Nat} {r : Req} (hr : s.reqOf id = some r) (ht : t.reqs = ((s.checkReq id).dropReq id).reqs) :
    t.reqs.map Req.undated = (s.reqs.filter fun q => q.id != id).map Req.undated := by
  rw [ht, State.checkReq_eq hr]
  exact State.undated_checkedReqs s id r

/-- An answered request changes the warps and the requests. -/
theorem State.checkReq_dropReq_rest {s : State} {id : Nat} {r : Req} (hr : s.reqOf id = some r) : (s.checkReq id).dropReq id
    = { s with cur := ((s.checkReq id).dropReq id).cur, others := ((s.checkReq id).dropReq id).others, reqs := ((s.checkReq id).dropReq id).reqs } := by
  rw [State.checkReq_eq hr]
  rfl

/-- A dropped slot. -/
theorem State.slotOf_drop {s : State} {h : DWord} {x : Slot} (hx : s.slotOf h = some x) : (s.mapSlot h Slot.drop).slotOf h = some x.drop :=
  State.slotOf_mapSlot_self (f := Slot.drop) (fun _ _ _ _ => rfl) hx

section
variable {s : State} {id : Nat} {r : Req} {l : Nat} {handle : DWord} {x : Slot}

/-- A dropped handle that is not final keeps its slot. -/
theorem State.Asks.completes_hdrop_kept (h : s.Asks id r) (hk : r.kind = .hdrop [(l, handle)]) (hok : s.handleOk r.ctx handle = true) (hx : s.slotOf handle = some x)
    (hs : x.state.final = false) : s.Completes (.handleMessageArrive id) fun t =>
      t.reqs.map Req.undated = (s.reqs.filter fun q => q.id != id).map Req.undated ∧ t.slotOf handle = some x.drop
      ∧ t = { s with cur := t.cur, others := t.others, reqs := t.reqs, tasks := t.tasks } := by
  have hslot := State.slotOf_drop ((State.slotOf_checkReq h.found handle).trans hx)
  refine State.completes_of_eq (h.exec_hdrop hk hok) (State.tryFree_eq_self hslot (.inl hs)) ⟨State.undated_checkReq h.found rfl, hslot, ?_⟩
  rw [State.checkReq_dropReq_rest h.found]
  rfl

/-- The slot of one that is final, and owes nothing, is released. -/
theorem State.Asks.completes_hdrop_freed (h : s.Asks id r) (hk : r.kind = .hdrop [(l, handle)]) (hok : s.handleOk r.ctx handle = true) (hx : s.slotOf handle = some x)
    (hs : x.state.final = true) (hc : x.chain = []) (ha : s.awaited handle = false) (hf : x.forward = none) : s.Completes (.handleMessageArrive id) fun t =>
      t.reqs.map Req.undated = (s.reqs.filter fun q => q.id != id).map Req.undated
      ∧ (t.slotOf handle).map (fun z => (z.state, z.gen, z.dropped)) = some (.free, x.gen + 1, false) := by
  have hslot := State.slotOf_drop ((State.slotOf_checkReq h.found handle).trans hx)
  have hawait : (((s.checkReq id).dropReq id).mapSlot handle Slot.drop).awaited handle = false :=
    State.awaited_checkedReqs (r := r) (id := id) (by rw [State.checkReq_eq h.found]; rfl) ha
  refine State.completes_of_eq (h.exec_hdrop hk hok) (State.tryFree_eq_putSlot hslot hs rfl hc hawait hf) ⟨State.undated_checkReq h.found rfl, ?_⟩
  rw [State.slotOf_putSlot_cleared hslot]
  rfl

end

/-- A slot whose `CHAIN` list is longer by one. -/
def Slot.chained (h : DWord) (x : Slot) : Slot := { x with chain := x.chain ++ [h] }

/-- An entry that waits joins its upstream's list (R184). -/
theorem State.joinChain_of_pending {s : State} {up h : DWord} {y : Slot} (hy : s.slotOf h = some y) (hh : y.home = true) (hg : y.gen = handleGen h)
    (hp : y.state = .pending) : s.joinChain up h = s.mapSlot up (Slot.chained h) := by
  rw [State.joinChain, State.liveSlot_of_slotOf hy hh (by rw [hp]; decide) hg, Option.map_some, hp, Option.getD_some, if_pos (by decide)]
  rfl

/-- One that has broken, and is not dropped, stays (R170). -/
theorem State.joinChain_of_broken {s : State} {up h : DWord} {y : Slot} (hy : s.slotOf h = some y) (hh : y.home = true) (hg : y.gen = handleGen h)
    (hb : y.state = .broken) (hd : y.dropped = false) : s.joinChain up h = s := by
  rw [State.joinChain, State.liveSlot_of_slotOf hy hh (by rw [hb]; decide) hg, Option.map_some, hb, Option.getD_some, if_neg (by decide)]
  exact State.tryFree_eq_self hy (.inr hd)

/-- A slot that is not kept is FREE (R310). -/
theorem State.slotOf_untake {s : State} {h : DWord} {y : Slot} (hy : s.slotOf h = some y) :
    (s.untake h).slotOf h = some { y with state := .free, dropped := false, brk := none, words := [] } :=
  State.slotOf_mapSlot_self (f := fun x : Slot => { x with state := .free, dropped := false, brk := none, words := [] }) (fun _ _ _ _ => rfl) hy

end Sys2Proof.Machine
end

section
/-! PROOFS. The answers of AWAIT and its trap (O55). -/

namespace Sys2Proof.Machine

/-! ## The answer of an AWAIT (R186, R187) -/

/-- An answer: a lane, its handle, the value or break word, whether it is broken. -/
abbrev Answer := Nat × DWord × DWord × Bool

/-- The lanes of some answers. -/
def answerLanes (xs : List Answer) : Mask := maskOf fun l => xs.any fun x => x.1 == l

/-- The word a lane takes. -/
def answerWord (xs : List Answer) (l : Nat) : DWord := match xs.find? fun x => x.1 == l with
  | some x => x.2.2.1
  | none => 0

/-- The register writes of some answers. -/
def answerWrites (xs : List Answer) (d : Reg) : List RegWrite :=
  [⟨d, .g (lanesOf fun l => loWord (answerWord xs l))⟩, ⟨d + 1, .g (lanesOf fun l => hiWord (answerWord xs l))⟩]

/-- A lane that waits for a request is Runnable again. -/
def Lane.woken (id : Nat) (x : Lane) : Lane := if x.st == .awaiting id then { x with st := .runnable, wait := 0 } else x

/-- The lanes of `writes` take their answers, those of `due` wake. -/
def Arch.takeAnswers (r : Req) (d : Reg) (p : PReg) (live : Mask) (writes due : List Answer) (a : Arch) : Arch :=
  (((answerWrites writes d).foldl (fun a x => if answerLanes writes = 0 then a else a.writeAs r.hdl live (answerLanes writes) x) a).writePred
    (answerLanes writes) p (maskOf fun l => writes.any fun x => x.1 == l && !x.2.2.2)).mapLanes (answerLanes due) fun _ => Lane.woken r.id

/-- A handler that was blocked on the request goes on. -/
def Arch.unblocked (id : Nat) (a : Arch) : Arch := match a.handler with
  | some h => if h.blk == some (.await id) then { a with handler := some { h with blk := none } } else a
  | none => a

/-- A warp takes the last answers of a request. -/
def Warp.takeAnswers (r : Req) (d : Reg) (p : PReg) (live : Mask) (writes due : List Answer) (time : Nat) (w : Warp) : Warp :=
  Warp.dropPend { (w.mapArchFrom r.id fun a => (a.takeAnswers r d p live writes due).unblocked r.id).refetch with
    acted := w.acted ||| answerLanes due, acqUntil := max w.acqUntil time } r.id

section
variable {s : State} {r : Req} {w : Warp} {l : Nat} {handle v : DWord} {broken t : Bool} {d : Reg} {p : PReg}

/-- The one handle of a request is final, and its lane takes the answer. -/
theorem State.awaitAnswer_of_quiet (hw : s.warpOf r.uid = some w) (hl : l < 128) (ha : s.answer (r.core / 24) handle = some (v, broken))
    (ht : (t && broken) = false) : s.awaitAnswer r [(l, handle)] d p t
      = ((s.mapWarp r.uid (Warp.takeAnswers r d p w.live [(l, handle, v, broken)] [(l, handle, v, broken)] (s.answerTime [handle]))).dropReq r.id).tryFree handle := by
  have hready : ([(l, handle)].filterMap fun x => (s.answer (dieOfCore r.core) x.2).map fun a => (x.1, x.2, a.1, a.2)) = [(l, handle, v, broken)] := by
    simp [dieOfCore, ha]
  have hlane : (answerLanes [(l, handle, v, broken)]).getLsbD l = true := by simp [answerLanes, hl]
  have hrest : ([(l, handle)].filter fun x => !(answerLanes [(l, handle, v, broken)]).getLsbD x.1) = [] := by simp [hlane]
  unfold answerLanes at hrest
  simp only [State.awaitAnswer, hw, hready, List.filter_singleton, ht, Bool.not_false, Bool.true_or, cond_true, cond_false, hrest, List.isEmpty_nil, if_true,
    Bool.true_and, List.foldl_cons, List.foldl_nil]
  rfl

/-- The one handle of an `AWAIT.T` is broken: the lane wakes, and takes the software trap. -/
theorem State.awaitAnswer_of_trap (hw : s.warpOf r.uid = some w) (hl : l < 128) (ha : s.answer (r.core / 24) handle = some (v, true))
    (hh : w.arch.handler = none) (hu : s.unchecked r.uid = []) {s1 : State}
    (hs1 : s1 = (((s.mapWarp r.uid (Warp.takeAnswers r d p w.live [] [(l, handle, v, true)] (s.answerTime [handle]))).dropReq r.id).tryFree handle).focus r.uid) :
    s.awaitAnswer r [(l, handle)] d p true
      = s1.takeTrap s1 ⟨15, 255, 0, some l, v, 4, r.act, answerLanes [(l, handle, v, true)] &&& s1.cur.live, r.pc, r.next⟩ := by
  have hready : ([(l, handle)].filterMap fun x => (s.answer (dieOfCore r.core) x.2).map fun a => (x.1, x.2, a.1, a.2)) = [(l, handle, v, true)] := by
    simp [dieOfCore, ha]
  have hlane : (answerLanes [(l, handle, v, true)]).getLsbD l = true := by simp [answerLanes, hl]
  have hrest : ([(l, handle)].filter fun x => !(answerLanes [(l, handle, v, true)]).getLsbD x.1) = [] := by simp [hlane]
  have hin : w.inHandler = false := by rw [Warp.inHandler, hh]; rfl
  unfold answerLanes at hrest
  subst hs1
  simp only [State.awaitAnswer, hw, hready, hin, hu, List.filter_singleton, Bool.not_true, Bool.not_false, Bool.false_and, Bool.and_self, cond_true,
    cond_false, hrest, List.isEmpty_nil, if_true, Bool.true_and, List.foldl_cons, List.foldl_nil, Bool.false_or]
  rfl

/-! ## What an arch holds once it has taken answers -/

/-- A write outside a handler changes registers only. -/
theorem Arch.writeAs_false_rest (live act : Mask) (a : Arch) (x : RegWrite) : ∃ vregs bad, a.writeAs false live act x = { a with vregs := vregs, bad := bad } :=
  ⟨_, _, rfl⟩

/-- Answers outside a handler change registers, predicates and lanes. -/
theorem Arch.takeAnswers_rest (hr : r.hdl = false) (live : Mask) (writes due : List Answer) (a : Arch) : ∃ vregs preds bad,
    a.takeAnswers r d p live writes due = { a.mapLanes (answerLanes due) fun _ => Lane.woken r.id with vregs := vregs, preds := preds, bad := bad } := by
  unfold Arch.takeAnswers answerWrites
  rw [hr, Arch.writePred_rest, List.foldl_cons, List.foldl_cons, List.foldl_nil]
  split <;> exact ⟨_, _, _, rfl⟩

/-- A lane then. -/
theorem Arch.lane_takeAnswers (hr : r.hdl = false) (live : Mask) (writes due : List Answer) (a : Arch) {k : Nat} (hk : k < 128) :
    (a.takeAnswers r d p live writes due).lane k = if (due.any fun x => x.1 == k) then (a.lane k).woken r.id else a.lane k := by
  obtain ⟨vregs, preds, bad, he⟩ := Arch.takeAnswers_rest (d := d) (p := p) hr live writes due a
  rw [he]
  refine (Arch.lane_mapLanes a (answerLanes due) (fun _ => Lane.woken r.id) k hk).trans ?_
  rw [answerLanes, getLsbD_maskOf, decide_eq_true hk, Bool.true_and]

/-- A lane that waits wakes. -/
theorem Lane.woken_of_awaiting {x : Lane} {id : Nat} (h : x.st = .awaiting id) : x.woken id = { x with st := .runnable, wait := 0 } := by
  rw [Lane.woken, h, if_pos (beq_self_eq_true _)]

/-- The registers a lane takes its answer in. -/
theorem Arch.vregs_takeAnswers (hr : r.hdl = false) (live : Mask) (h : DWord) (b : Bool) (hl : l < 128) (due : List Answer) (a : Arch) :
    ((a.takeAnswers r d p live [(l, h, v, b)] due).vregs.getD d.toNat (.u 0)).lane l = loWord v
    ∧ ((a.takeAnswers r d p live [(l, h, v, b)] due).vregs.getD (d + 1).toNat (.u 0)).lane l = hiWord v := by
  have hlane : (answerLanes [(l, h, v, b)]).getLsbD l = true := by simp [answerLanes, hl]
  have hne : answerLanes [(l, h, v, b)] ≠ 0 := fun h0 => by simp [h0] at hlane
  have hword : answerWord [(l, h, v, b)] l = v := by simp [answerWord]
  have hd : d ≠ d + 1 := by bv_omega
  unfold Arch.takeAnswers answerWrites
  rw [hr, Arch.writePred_rest, List.foldl_cons, List.foldl_cons, List.foldl_nil, if_neg hne, if_neg hne]
  simp only [Arch.mapLanes, Arch.writeAs, Bool.false_and, Bool.false_eq_true, if_false, Arch.put_vregs, if_neg hd, if_true]
  rw [mergeWrite_act _ _ _ _ _ hl hlane, mergeWrite_act _ _ _ _ _ hl hlane, VReg.lane_lanesOf _ _ hl, VReg.lane_lanesOf _ _ hl, hword]
  exact ⟨rfl, rfl⟩

/-- The predicate that says whether it is broken. -/
theorem Arch.preds_takeAnswers (hp : p ≠ 7) (live : Mask) (h : DWord) (b : Bool) (hl : l < 128) (due : List Answer) (a : Arch) :
    ((a.takeAnswers r d p live [(l, h, v, b)] due).preds.getD p.toNat 0).getLsbD l = !b := by
  have hlane : (answerLanes [(l, h, v, b)]).getLsbD l = true := by simp [answerLanes, hl]
  unfold Arch.takeAnswers
  refine (Arch.getLsbD_preds_writePred _ _ hp _ hl).trans ?_
  rw [hlane, if_pos rfl, getLsbD_maskOf]
  simp [hl]

/-- Nothing is blocked where no handler runs. -/
theorem Arch.unblocked_of_none {a : Arch} (h : a.handler = none) (id : Nat) : a.unblocked id = a := by rw [Arch.unblocked, h]

end

/-! ## The warp in focus takes the answer (R186, R187) -/

/-- The warp in focus by its name. -/
theorem State.warpOf_cur {s : State} {uid : Nat} (h : s.cur.uid = uid) (h0 : uid ≠ 0) : s.warpOf uid = some s.cur :=
  List.find?_cons_of_pos (by simp [h, h0])

/-- It is in focus already. -/
theorem State.focus_of_cur {s : State} {uid : Nat} (h : s.cur.uid = uid) : s.focus uid = s := if_pos h

/-- A check keeps the warp in focus but for what it rolls back to. -/
theorem State.checkReq_cur {s : State} {id : Nat} {r : Req} (hr : s.reqOf id = some r) (hu : s.cur.uid = r.uid) : (s.checkReq id).cur = s.cur.dropSnap id := by
  rw [State.checkReq_eq hr]
  exact if_pos hu

/-- A lane of the warp in focus waits for the one handle of a request, which is final. -/
structure State.Waits (s : State) (r : Req) (l : Nat) (handle : DWord) (v : DWord) (broken : Bool) : Prop where
  lane : l < 128
  focus : s.cur.uid = r.uid
  named : r.uid ≠ 0
  program : r.hdl = false
  handler : s.cur.arch.handler = none
  awaiting : (s.cur.lane l).st = .awaiting r.id
  answer : s.answer (r.core / 24) handle = some (v, broken)

/-- A check leaves it so. -/
theorem State.Waits.checkReq {s : State} {id : Nat} {r : Req} {l : Nat} {handle v : DWord} {broken : Bool} (h : s.Waits r l handle v broken)
    (hr : s.reqOf id = some r) : (s.checkReq id).Waits r l handle v broken := by
  have hcur := State.checkReq_cur hr h.focus
  refine ⟨h.lane, by rw [hcur]; exact h.focus, h.named, h.program, by rw [hcur]; exact h.handler, by rw [hcur]; exact h.awaiting, ?_⟩
  rw [State.checkReq_eq hr]
  exact h.answer

/-- The lane has its answer: Runnable, with the value or break word in its pair and the predicate; the other lanes stay. -/
def State.Answered (s t : State) (l : Nat) (handle v : DWord) (broken : Bool) (d : Reg) (p : PReg) : Prop :=
  (t.cur.lane l).st = .runnable ∧ (t.cur.lane l).wait = 0
    ∧ (t.cur.arch.vregs.getD d.toNat (.u 0)).lane l = loWord v ∧ (t.cur.arch.vregs.getD (d + 1).toNat (.u 0)).lane l = hiWord v
    ∧ (t.cur.arch.preds.getD p.toNat 0).getLsbD l = !broken ∧ (∀ k < 128, k ≠ l → t.cur.lane k = s.cur.lane k)
    ∧ t.cur.acqUntil = max s.cur.acqUntil (s.answerTime [handle])

/-- It is as good an answer where the warp has the same lanes, and answers have the same times. -/
theorem State.Answered.of_cur {s u t : State} {l : Nat} {handle v : DWord} {broken : Bool} {d : Reg} {p : PReg} (h : u.Answered t l handle v broken d p)
    (hlanes : u.cur.lane = s.cur.lane) (hacq : u.cur.acqUntil = s.cur.acqUntil) (htime : u.answerTime [handle] = s.answerTime [handle]) :
    s.Answered t l handle v broken d p := by
  unfold State.Answered at h ⊢
  rwa [hlanes, hacq, htime] at h

section
variable {s : State} {r : Req} {l : Nat} {handle v : DWord} {broken : Bool}

/-- The state of the warp in focus once it has taken the answers. -/
theorem State.Waits.arch_takeAnswers (h : s.Waits r l handle v broken) (d : Reg) (p : PReg) (live : Mask) (writes due : List Answer) (time : Nat) :
    (s.cur.takeAnswers r d p live writes due time).arch = s.cur.arch.takeAnswers r d p live writes due := by
  obtain ⟨vregs, preds, bad, he⟩ := Arch.takeAnswers_rest (d := d) (p := p) h.program live writes due s.cur.arch
  refine Arch.unblocked_of_none ?_ r.id
  rw [he]
  exact h.handler

/-- Its lane wakes. -/
theorem State.Waits.lane_takeAnswers (h : s.Waits r l handle v broken) (d : Reg) (p : PReg) (live : Mask) (writes : List Answer) (a : DWord × DWord × Bool) (time : Nat)
    {k : Nat} (hk : k < 128) : (s.cur.takeAnswers r d p live writes [(l, a)] time).lane k
      = if k = l then { s.cur.lane k with st := .runnable, wait := 0 } else s.cur.lane k := by
  rw [Warp.lane, h.arch_takeAnswers, Arch.lane_takeAnswers h.program live writes _ s.cur.arch hk]
  by_cases hkl : k = l
  · subst hkl
    rw [if_pos rfl, if_pos (by simp)]
    exact Lane.woken_of_awaiting h.awaiting
  · rw [if_neg hkl, if_neg (by simpa using fun e => hkl e.symm)]
    rfl

/-- The answer that no trap holds back reaches the lane. -/
theorem State.Waits.awaitAnswer_quiet (h : s.Waits r l handle v broken) (d : Reg) {p : PReg} (hp : p ≠ 7) {trapping : Bool} (ht : (trapping && broken) = false) :
    s.Answered (s.awaitAnswer r [(l, handle)] d p trapping) l handle v broken d p
      ∧ (s.awaitAnswer r [(l, handle)] d p trapping).reqs = s.reqs.filter fun q => q.id != r.id := by
  rw [State.awaitAnswer_of_quiet (State.warpOf_cur h.focus h.named) h.lane h.answer ht]
  obtain ⟨slots, hfree⟩ := State.tryFree_rest ((s.mapWarp r.uid (Warp.takeAnswers r d p s.cur.live [(l, handle, v, broken)] [(l, handle, v, broken)]
    (s.answerTime [handle]))).dropReq r.id) handle
  rw [hfree]
  refine ⟨?_, rfl⟩
  unfold State.Answered
  simp only [State.dropReq_cur, State.mapWarp_cur, if_pos h.focus]
  obtain ⟨hlo, hhi⟩ := Arch.vregs_takeAnswers (d := d) (p := p) (v := v) h.program s.cur.live handle broken h.lane [(l, handle, v, broken)] s.cur.arch
  rw [h.lane_takeAnswers _ _ _ _ _ _ h.lane, h.arch_takeAnswers, if_pos rfl]
  refine ⟨rfl, rfl, hlo, hhi, Arch.preds_takeAnswers hp _ _ _ h.lane _ _, fun k hk hne => ?_, rfl⟩
  rw [h.lane_takeAnswers _ _ _ _ _ _ hk, if_neg hne]

/-- A lane that is Runnable is alone in the handler mask. -/
theorem answerLanes_and_live {w : Warp} {l : Nat} (hl : l < 128) (hst : (w.lane l).st = .runnable) (a : DWord × DWord × Bool) :
    answerLanes [(l, a)] &&& w.live = BitVec.twoPow 128 l := by
  apply BitVec.eq_of_getLsbD_eq
  intro k hk
  have hlive : w.live.getLsbD k = (decide (k < 128) && !(w.lane k).exited) := Arch.getLsbD_live w.arch k
  rw [BitVec.getLsbD_and, answerLanes, getLsbD_maskOf, hlive, BitVec.getLsbD_twoPow]
  by_cases hkl : l = k
  · subst hkl
    simp [hl, Lane.exited, hst]
  · simp [hkl]

/-- A broken `AWAIT.T` whose warp has no other access unchecked takes the software trap (R187). -/
theorem State.Waits.awaitAnswer_trap (h : s.Waits r l handle v true) (d : Reg) (p : PReg) (hu : s.unchecked r.uid = []) (ht : s.cur.hdr.traph ≠ 0) :
    (s.awaitAnswer r [(l, handle)] d p true).reqs = s.reqs.filter (fun q => q.id != r.id)
      ∧ ((s.awaitAnswer r [(l, handle)] d p true).cur.lane l).st = .runnable
      ∧ (s.awaitAnswer r [(l, handle)] d p true).cur.arch.handler.map (fun h => (h.mask, h.pc, h.epc, h.words)) = some (BitVec.twoPow 128 l, s.cur.hdr.traph, r.next,
        recordOf 15 255 0 (some l) r.pc r.next v 4 r.act s.myTide) := by
  obtain ⟨slots, hfree⟩ := State.tryFree_rest ((s.mapWarp r.uid (Warp.takeAnswers r d p s.cur.live [] [(l, handle, v, true)] (s.answerTime [handle]))).dropReq r.id)
    handle
  generalize htaken : (((s.mapWarp r.uid (Warp.takeAnswers r d p s.cur.live [] [(l, handle, v, true)] (s.answerTime [handle]))).dropReq r.id).tryFree handle).focus
    r.uid = t
  have hcur : t.cur = s.cur.takeAnswers r d p s.cur.live [] [(l, handle, v, true)] (s.answerTime [handle]) ∧ t.reqs = s.reqs.filter (fun q => q.id != r.id)
      ∧ t.tide = s.tide := by
    rw [← htaken, hfree, State.focus_of_cur (by simp only [State.dropReq_cur, State.mapWarp_cur, if_pos h.focus]; exact h.focus)]
    exact ⟨if_pos h.focus, rfl, rfl⟩
  obtain ⟨hcur, hreqs, htide⟩ := hcur
  have hlane := h.lane_takeAnswers d p s.cur.live [] (handle, v, true) (s.answerTime [handle]) h.lane
  rw [← hcur, if_pos rfl] at hlane
  have hrun : (t.cur.lane l).st = .runnable := congrArg Lane.st hlane
  obtain ⟨vregs, preds, bad, harch⟩ := Arch.takeAnswers_rest (d := d) (p := p) h.program s.cur.live [] [(l, handle, v, true)] s.cur.arch
  have hhandler : t.cur.arch.handler = none := by
    rw [hcur, h.arch_takeAnswers, harch]
    exact h.handler
  have hun : t.unchecked t.cur.uid = [] := by
    rw [State.unchecked, List.filter_eq_nil_iff] at hu ⊢
    rw [hcur, hreqs]
    exact fun q hq hbad => hu q (List.mem_filter.1 hq).1 (by rwa [← h.focus])
  have htime : t.myTide = s.myTide := by
    rw [State.myTide, State.myTide, State.tideOf, State.tideOf, hcur, htide]
    rfl
  have htraph : t.cur.hdr.traph = s.cur.hdr.traph := by rw [hcur]; rfl
  rw [State.awaitAnswer_of_trap (State.warpOf_cur h.focus h.named) h.lane h.answer h.handler hu htaken.symm,
    State.takeTrap_enters _ hun hhandler (by rw [htraph]; exact ht), answerLanes_and_live h.lane hrun, ← htime, ← htraph,
    ← TrapInfo.record_eq 15 255 0 (some l) v 4 r.act (BitVec.twoPow 128 l) r.pc r.next t.myTide (by decide) (by decide)]
  exact ⟨hreqs, hrun, rfl⟩

end

/-- No access of the warp is unchecked once its last one is checked. -/
theorem State.unchecked_checkReq {s : State} {id : Nat} {r : Req} (hr : s.reqOf id = some r)
    (hc : ∀ q ∈ s.reqs, q.uid = r.uid → q.id ≠ id → q.checked = true) : (s.checkReq id).unchecked r.uid = [] := by
  rw [State.unchecked, State.checkReq_eq hr, List.filter_eq_nil_iff]
  intro q hq hbad
  rw [Bool.and_eq_true, beq_iff_eq, Bool.not_eq_true'] at hbad
  obtain ⟨huid, hq0⟩ := hbad
  by_cases hid : q.id = id
  · obtain ⟨x, -, rfl⟩ := List.mem_map.1 hq
    split at hq0
    · exact Bool.false_ne_true hq0.symm
    · next hne =>
      rw [if_neg hne] at hid
      exact hne (beq_iff_eq.2 hid)
  · obtain ⟨q', hq', hid', he⟩ := State.of_mem_checkedReqs (List.mem_filter.2 ⟨hq, bne_iff_ne.2 hid⟩)
    have huid' : q'.uid = r.uid := (congrArg Req.uid he : q'.undated.uid = q.undated.uid).trans huid
    have hchecked : q'.checked = q.checked := (congrArg Req.checked he : q'.undated.checked = q.undated.checked)
    rw [← hchecked, hc q' hq' huid' hid'] at hq0
    exact Bool.false_ne_true hq0.symm

section
variable {s : State} {id : Nat} {r : Req} {l : Nat} {handle v : DWord} {d : Reg} {p : PReg}

/-- The answer of an `AWAIT` whose handle is final at the arrival reaches its lane. -/
theorem State.Asks.completes_await {broken trapping : Bool} (h : s.Asks id r) (hw : s.Waits r l handle v broken) (hk : r.kind = .await [(l, handle)] d p trapping)
    (hok : s.handleOk r.ctx handle = true) (hf : s.frozen r.uid = false) (hp : p ≠ 7) (ht : (trapping && broken) = false) :
    s.Completes (.handleMessageArrive id) fun t =>
      t.reqs.map Req.undated = (s.reqs.filter fun q => q.id != id).map Req.undated ∧ s.Answered t l handle v broken d p := by
  obtain ⟨hanswered, hreqs⟩ := (hw.checkReq h.found).awaitAnswer_quiet d hp ht
  have hcur := State.checkReq_cur h.found hw.focus
  refine ⟨_, h.exec_await hk hok hf, State.undated_checkReq h.found ?_, hanswered.of_cur ?_ ?_ ?_⟩
  · rw [hreqs, State.id_of_reqOf h.found]
    rfl
  · rw [hcur]
    rfl
  · rw [hcur]
    rfl
  · rw [State.checkReq_eq h.found]
    rfl

/-- A broken `AWAIT.T` traps then. -/
theorem State.Asks.completes_await_trap (h : s.Asks id r) (hw : s.Waits r l handle v true) (hk : r.kind = .await [(l, handle)] d p true)
    (hok : s.handleOk r.ctx handle = true) (hf : s.frozen r.uid = false) (ht : s.cur.hdr.traph ≠ 0)
    (hc : ∀ q ∈ s.reqs, q.uid = r.uid → q.id ≠ id → q.checked = true) : s.Completes (.handleMessageArrive id) fun t =>
      t.reqs.map Req.undated = (s.reqs.filter fun q => q.id != id).map Req.undated ∧ (t.cur.lane l).st = .runnable
      ∧ t.cur.arch.handler.map (fun h => (h.mask, h.pc, h.epc, h.words)) = some (BitVec.twoPow 128 l, s.cur.hdr.traph, r.next,
        recordOf 15 255 0 (some l) r.pc r.next v 4 r.act s.myTide) := by
  have hcur := State.checkReq_cur h.found hw.focus
  obtain ⟨hreqs, hlane, hhandler⟩ := (hw.checkReq h.found).awaitAnswer_trap d p (State.unchecked_checkReq h.found hc) (by rw [hcur]; exact ht)
  refine ⟨_, h.exec_await hk hok hf, State.undated_checkReq h.found ?_, hlane, hhandler.trans ?_⟩
  · rw [hreqs, State.id_of_reqOf h.found]
    rfl
  · rw [State.myTide, hcur, State.checkReq_eq h.found]
    rfl

end

/-! ## AWAIT_WAKE (R186) -/

/-- What a wake does for one request. -/
def State.wakeStep (handle : DWord) (s : State) (r : Req) : State := match r.kind with
  | .await hs d p t => if r.checked && !s.frozen r.uid && hs.any (fun x => x.2 == handle) then s.awaitAnswer r hs d p t else s
  | _ => s

/-- A request that does not await the handle is passed over. -/
theorem State.wakeStep_eq_self {handle : DWord} {q : Req} (hq : ∀ hs d p t, q.kind = .await hs d p t → ∀ z ∈ hs, z.2 ≠ handle) (s : State) :
    s.wakeStep handle q = s := by
  unfold State.wakeStep
  split
  · next hs d p t hk =>
    have hany : hs.any (fun x => x.2 == handle) = false := by
      rw [List.any_eq_false]
      intro z hz
      simpa using hq hs d p t hk z hz
    rw [hany, Bool.and_false, if_neg Bool.false_ne_true]
  · rfl

/-- So are several. -/
theorem State.foldl_wakeStep_eq_self {handle : DWord} {qs : List Req} (hqs : ∀ q ∈ qs, ∀ hs d p t, q.kind = .await hs d p t → ∀ z ∈ hs, z.2 ≠ handle) :
    ∀ s : State, qs.foldl (State.wakeStep handle) s = s := by
  induction qs with
  | nil => exact fun _ => rfl
  | cons q qs ih =>
    intro s
    rw [List.foldl_cons, State.wakeStep_eq_self (hqs q List.mem_cons_self), ih fun q hq => hqs q (List.mem_cons_of_mem _ hq)]

/-- A handle that is answered has a slot. -/
theorem State.slotOf_of_answer {s : State} {die : Nat} {h : DWord} {a : DWord × Bool} (ha : s.answer die h = some a) : ∃ x, s.slotOf h = some x := by
  unfold State.answer at ha
  split at ha
  · next x hx => exact ⟨x, hx⟩
  · cases ha

/-- The one request that awaits the handle takes the answer. -/
theorem exec_awaitWake {s : State} {handle : DWord} {x : Slot} {pre post : List Req} {r : Req} {l : Nat} {d : Reg} {p : PReg} {t : Bool} (hx : s.slotOf handle = some x)
    (hs : s.reqs = pre ++ r :: post) (hk : r.kind = .await [(l, handle)] d p t) (hc : r.checked = true) (hf : s.frozen r.uid = false)
    (ho : ∀ q ∈ pre ++ post, ∀ hs d p t, q.kind = .await hs d p t → ∀ z ∈ hs, z.2 ≠ handle) :
    exec (.awaitWake handle) s = .next (s.awaitAnswer r [(l, handle)] d p t) := by
  have hstep : s.wakeStep handle r = s.awaitAnswer r [(l, handle)] d p t := by
    rw [State.wakeStep, hk]
    exact if_pos (by simp [hc, hf])
  have hfold : s.reqs.foldl (State.wakeStep handle) s = s.awaitAnswer r [(l, handle)] d p t := by
    rw [hs, List.foldl_append, List.foldl_cons, State.foldl_wakeStep_eq_self fun q hq => ho q (List.mem_append_left _ hq), hstep,
      State.foldl_wakeStep_eq_self fun q hq => ho q (List.mem_append_right _ hq)]
  rw [← hfold]
  change execAwaitWake handle s = _
  rw [execAwaitWake, hx]
  rfl

end Sys2Proof.Machine
end

section
/-! PROOFS. The events of tasks (O55). -/

namespace Sys2Proof.Machine

/-- Settles O55, clause by clause: each event's rule says what state the instruction answers with, and the rules of slots, counters and answers what
stands there. -/
theorem taskEventResults : Obligations.TaskEventResults := by
  intro s handle up x y p core n pa id l pos rt second e r hs pr d v broken trapping pre post ld clean counter src va final old head sent gone stale word reaches
    inTurn took u answered waits
  refine ⟨?parks, ?dispatches, ?settles, ?lateDecrements, ?answers, ?wakes⟩
  case parks =>
    intro hp hc hb hd
    obtain ⟨l2, he⟩ := exec_parkArrive hp hc hb hd
    obtain rfl := handle_of_find?_parked hp
    refine ⟨_, he, ?_⟩
    by_cases h0 : counter = 0
    · rw [if_pos h0, State.releaseParked_eq]
      exact ⟨rfl, rfl, rfl, fun h => absurd h0 h, fun _ => ⟨s.parkedAt_elsewhere p l2, congrArg (s.tasks.ready ++ ·) (s.parkedAt_there p l2)⟩⟩
    · rw [if_neg h0]
      exact ⟨rfl, rfl, rfl, fun _ => ⟨rfl, rfl⟩, fun h => absurd h h0⟩
  case dispatches =>
    intro hn hup hhead hx hp hg hm hroom
    have hmay : s.Dispatchable core n rt x := ⟨hn, hup, hhead, hx, hp, hg, hm, hroom⟩
    refine ⟨fun hfar ht => ⟨_, hmay.exec_tell hfar ht, ?_⟩, fun htold hcame => ?_⟩
    · simp only [State.tellRelease, beq_iff_eq]
    have hheard : s.Heard core rt x := ⟨htold, hcame⟩
    refine ⟨fun hc hpl hv hf => ?_, fun hh hd hb => ⟨fun hpl => ?_, fun hc hpl hv => ?_⟩⟩
    · obtain ⟨l2, he⟩ := hmay.exec_start hheard hc hpl hv hf
      obtain ⟨uid, key, hw⟩ := State.warp_of_startTask { s with mem := { s.mem with l2 := l2 } } core (BitVec.ofNat 3 n) rt x head pos
      obtain ⟨h0, h2, h4, h6, h8⟩ := taskArch_regs x.words rt.handle rt.upValue rt.upHandle
      have hlanes : ∀ k < 128, _ := fun k hk => taskArch_lane x.words rt.handle rt.upValue rt.upHandle (l := k) hk
      refine ⟨_, he, State.startTask_rest _ core _ rt x head [pos], State.startTask_home _ core _ rt x head [pos],
        fun q hq => State.handle_ne_of_mem_startTask_ready _ core _ rt x head [pos] hq, State.slotOf_startTask _ head [pos] hx, _, hw, rfl, rfl, rfl, rfl, rfl, rfl,
        rfl, rfl, fun k hk => ?_, h0, h2, h4, h6, h8⟩
      exact ⟨congrArg Lane.st (hlanes k hk), congrArg Lane.pc (hlanes k hk)⟩
    · obtain ⟨hrest, hslot⟩ := State.breakUnrun_spec (s := s.dequeue rt.handle) (breakWord 6 2 rt.handle) hx hh hp hg hd hb
      exact ⟨_, hmay.exec_unreadable hheard hpl, hrest, hslot⟩
    · obtain ⟨l2, he⟩ := hmay.exec_invalid hheard hc hpl hv
      obtain ⟨hrest, hslot⟩ := State.breakUnrun_spec (s := State.dequeue { s with mem := { s.mem with l2 := l2 } } rt.handle) (breakWord 6 1 rt.handle)
        hx hh hp hg hd hb
      refine ⟨_, he, ?_, hslot⟩
      rw [hrest]
      rfl
  case settles =>
    intro hx hg
    refine ⟨fun hs hv hc hw => ⟨State.completes_handleResolve_kept hx hg hs hv hc hw, State.completes_handleResolve_freed hx hg hs hv hc hw⟩,
      fun hh hs hd ho ht hr => ?_, fun hs ha hdue hd => ?_, fun hd hs ht => ?_,
      fun hd hs ht hb k => State.completes_chainListRun_broken hx hg hd hs ht hb⟩
    · have hlive := State.liveSlot_of_slotOf hx hh (by rw [hs]; decide) hg
      have hreach : s.Reaches (handleCtx handle) src va pa e := .of_and hr
      have hexec := exec_successorDecrement hlive hs hd ho ht
      refine ⟨fun hin => State.completes_of_eq hexec (hreach.decArrive hin second _) ⟨List.mem_cons_self, fun h0 => ?_, fun h0 => ?_⟩,
        fun hin => State.completes_of_eq hexec (hreach.decArrive_waits hin second _) rfl⟩
      · obtain ⟨mem, parked, ready, times, hdec, hnum, hframe⟩ := hreach.decrement_of_pos h0 second
        rw [hdec]
        exact ⟨⟨hnum, rfl, hframe⟩, State.slotOf_noteDec hx _⟩
      · have hword := breakWord_of_lt 5 (detail := if second then 1 else 0) (by split <;> decide) handle
        have hzero := hreach.slotOf_decrement_of_zero (second := second) h0 hlive hx
        rw [Slot.breakDec, hword] at hzero
        exact congrArg (Option.map fun z => (z.brk, z.decs)) (State.slotOf_noteDec (second := second) hzero _)
    · have hslot := State.slotOf_mapSlot_self (f := fun y => (s.releasedNow y).decided) (fun _ _ _ _ => rfl) hx
      have hkept := State.tryFree_eq_self hslot (.inr hd)
      exact State.completes_of_eq (exec_decrementAcknowledge hx hg hs ha hdue) hkept ⟨hslot, rfl⟩
    · have hslot := State.slotOf_mapSlot_self (f := Slot.unchained) (fun _ _ _ _ => rfl) hx
      refine ⟨_, exec_chainListRun_resolved hx hg hd hs ht, hslot, rfl, fun k hk z hz => List.mem_append_right _ (List.mem_filterMap.2 ⟨k, hk, ?_⟩)⟩
      rw [State.readyEntry, State.slotOf_mapSlot (f := Slot.unchained) (fun _ _ _ _ => rfl), hz, Option.map_some, Option.map_some]
      split <;> rfl
  case lateDecrements =>
    intro hn hl
    refine ⟨fun hd hc => ?_, fun came hd hc ho hr hin h0 => ?_⟩
    · refine ⟨_, exec_successorDecrement_send hn hl hd hc, ?_⟩
      simp only [Bool.and_eq_true, beq_iff_eq]
    · have hreach : s.Reaches (handleCtx handle) ld.core ld.va pa e := .of_and hr
      refine State.completes_of_eq (exec_successorDecrement_late hn hl hd hc ho) (hreach.decArrive hin second _) ?_
      obtain ⟨mem, parked, ready, times, hdec, hnum, hframe⟩ := hreach.decrement_of_pos h0 second
      rw [hdec]
      exact ⟨⟨hnum, rfl, hframe⟩, rfl⟩
  case answers =>
    intro hr hch hfl hca
    have hask : s.Asks id r := ⟨hr, hch, hfl, hca⟩
    refine ⟨fun hk hp hu hok => ?_, fun hk hf => ?_, fun hk hok hx => ⟨hask.completes_hdrop_kept hk hok hx, hask.completes_hdrop_freed hk hok hx⟩,
      fun hk hok => ?_,
      fun hk hy => ⟨fun hok hx hh hg => ⟨fun hp => ?_, fun hb hd => ?_⟩, fun hok => ?_⟩, fun hw hok => ?_⟩
    · have hexec := hask.exec_hpoll hk hok
      rw [State.checkReq_eq hr] at hexec
      refine ⟨_, hexec, State.undated_checkedReqs s id r, rfl, ?_⟩
      simp only [State.dropReq_cur, State.mapWarp_cur, Warp.dropSnap, if_pos hu.symm]
      exact ⟨fun k hk => State.finalLanes_poll s id _ _ r.act hp hs (s.cur.dropSnap id) hk, rfl⟩
    · exact ⟨_, hask.exec_hpoll_stale hk hf, hask.reqOf_failReq rfl l, rfl⟩
    · exact ⟨_, hask.exec_hdrop_stale hk hok, hask.reqOf_failReq rfl l, rfl⟩
    · have hyslot := (State.slotOf_checkReq hr handle).trans hy
      have hxslot := (State.slotOf_checkReq hr up).trans hx
      refine State.completes_of_eq (hask.exec_chain hk hok) (State.joinChain_of_pending hyslot hh hg hp) ⟨State.undated_checkReq hr rfl,
        State.slotOf_mapSlot_self (f := Slot.chained handle) (fun _ _ _ _ => rfl) hxslot, ?_⟩
      rw [State.checkReq_dropReq_rest hr]
      rfl
    · have hyslot := (State.slotOf_checkReq hr handle).trans hy
      exact State.completes_of_eq (hask.exec_chain hk hok) (State.joinChain_of_broken hyslot hh hg hb hd)
        ⟨State.undated_checkReq hr rfl, State.checkReq_dropReq_rest hr⟩
    · refine ⟨_, hask.exec_chain_stale hk hok, hask.reqOf_failReq rfl l, ?_⟩
      exact congrArg (Option.map (·.state)) (State.slotOf_untake hy)
    · obtain ⟨hl, hp, hu, h0, hhdl, hhan, hst, hk, hans, hfr⟩ := hw
      have hwaits : s.Waits r l handle v broken := ⟨hl, hu, h0, hhdl, hhan, hst, hans⟩
      refine ⟨hask.completes_await hwaits hk hok hfr hp, fun ht hb htr hall => ?_⟩
      subst hb ht
      exact hask.completes_await_trap hwaits hk hok hfr htr hall
  case wakes =>
    intro hs hc hf hw ht ho
    obtain ⟨hl, hp, hu, h0, hhdl, hhan, hst, hk, hans, hfr⟩ := hw
    have hwaits : s.Waits r l handle v broken := ⟨hl, hu, h0, hhdl, hhan, hst, hans⟩
    obtain ⟨z, hz⟩ := State.slotOf_of_answer hans
    obtain ⟨hanswered, hreqs⟩ := hwaits.awaitAnswer_quiet d hp ht
    refine ⟨_, exec_awaitWake hz hs hk hc hf fun q hq => (ho q hq).2, hanswered, ?_⟩
    have hothers : ∀ q ∈ pre ++ post, (q.id != r.id) = true := fun q hq => bne_iff_ne.2 (ho q hq).1
    rw [hreqs, hs, List.filter_append, List.filter_cons_of_neg (by simp), ← List.filter_append]
    exact List.filter_eq_self.2 hothers

end Sys2Proof.Machine
end

section
/-! PROOFS. A job card is read with a store whose notice is on its way (O47 fails). -/

namespace Sys2Proof.Machine

/-! ## A card is read through the stores that its die's L2 has accepted (R118, R206)

The clause of `Obligations.CopyAndBankJobsAreOffered` for the one card of a `BJOB` says that it holds the bytes at the home while no L1 and no L2 holds a sector. The
lines of the cards are read as a load of the warp reads them, and a load also finds the bytes of a store that its die's L2 has accepted and whose notice has
not reached the home (R118). Such a store stands in `MemSys.near`, of which the clause says nothing. -/

/-- Lane 0 stands at address 0, the other lanes have exited; 64 registers may be named and hold 0, and all may be G. -/
def oneLaneWarp : Warp :=
  { Warp.vacant with
    uid := 1, wg := 2, hdr := { Header.zero with resw := 0x2040 }
    arch := .start (.start 0 .runnable :: List.replicate 127 (.start 0 .exited)) }

/-- A store of the byte 1 at address 0 that the L2 of die 0 has accepted. -/
def acceptedStore : NearStore := ⟨0, 0, 0, 0, 0, [⟨1, none⟩], 8⟩

/-- The warp reads its card at address 0, which the page table of `headerHome` maps to itself, while the notice of the store is on its way; no cache holds a sector. -/
def cardUnderStore : State :=
  { State.reset with
    cur := oneLaneWarp, nextId := 3
    mem := { State.reset.mem with home := headerHome, near := [acceptedStore] }
    ctl := { State.reset.ctl with ctxs := [⟨0, 0, .running, 0, [0x10000, 0, 0x10000000000, 0, 0, 0]⟩] } }

/-- The true guard. -/
def trueGuard : Ctl := ⟨false, 7, 0, 0, false⟩

/-- The instruction may be issued: registers 0, 10 and 11 may be named, lane 0 is active and a slot is free for register 0. -/
theorem ready_cardUnderStore : cardUnderStore.Ready trueGuard [0, 10, 10 + 1] [0] false where
  named := by decide +kernel
  some := by decide +kernel
  room := .inr (by unfold State.HasRoom; decide +kernel)

/-- Lane 0 alone is active. -/
theorem active_cardUnderStore : (List.range 128).filter (cardUnderStore.active trueGuard) = [0] := by decide +kernel

/-- Its card has its place at address 0, with no error. -/
theorem blockLane_cardUnderStore : cardUnderStore.blockLane 0 (cardUnderStore.rdPair 10 0) 64 = .ok (0, 0) := by decide +kernel

/-- The card that it reads begins with the byte of the accepted store. -/
theorem blockReads_cardUnderStore :
    (cardUnderStore.blockReads (cardUnderStore.act trueGuard) 10 64).1 = [(0, 1 :: readBytes headerHome 1 63)] := by decide +kernel

/-- Refutes O47: the card of `cardUnderStore` begins with the byte of the accepted store, 1, and not with that at the home, 0. -/
theorem not_copyAndBankJobsAreOffered : ¬ Obligations.CopyAndBankJobsAreOffered := by
  intro h
  obtain ⟨-, -, -, -, hbjob⟩ := h cardUnderStore trueGuard ⟨0, 0, 0, false, 0, false, 0, 0⟩ 0 0 10 0 0 0 0 0
  have hread : ∀ l ∈ (List.range 128).filter (cardUnderStore.active trueGuard), (cardUnderStore.rdPair 10 l).toNat % 64 = 0
      ∧ (faultsWith 17 (cardUnderStore.blockLane l (cardUnderStore.rdPair 10 l) 64) = true
        ∨ ∃ p, cardUnderStore.blockLane l (cardUnderStore.rdPair 10 l) 64 = .ok p) := by
    intro l hl
    rw [active_cardUnderStore, List.mem_singleton] at hl
    subst hl
    exact ⟨by decide +kernel, .inr ⟨_, blockLane_cardUnderStore⟩⟩
  obtain ⟨-, -, -, -, -, -, -, hcard, -⟩ := hbjob ready_cardUnderStore hread
  have hhome := hcard rfl rfl 0 (0, 0) active_cardUnderStore blockLane_cardUnderStore rfl
  rw [blockReads_cardUnderStore] at hhome
  exact absurd hhome (by decide +kernel)

end Sys2Proof.Machine
end

section
/-! PROOFS. Records by number: contexts, timetable entries and queues after an update (for O59). -/

namespace Sys2Proof.Machine

/-! ## Records by key -/

/-- The entry of a key after one is put. -/
theorem getKey_putKey {α : Type} (key : α → Nat) (v : α) (k : Nat) (xs : List α) :
    getKey key k (putKey key v xs) = if key v = k then some v else getKey key k xs := by
  induction xs with
  | nil => by_cases h : key v = k <;> simp [putKey, getKey, h]
  | cons x xs ih =>
    unfold getKey at ih ⊢
    have hpos : ∀ {y ys}, key y = k → (y :: ys).find? (fun x => key x == k) = some y := fun h => List.find?_cons_of_pos (by simpa using h)
    have hneg : ∀ {y ys}, key y ≠ k → (y :: ys).find? (fun x => key x == k) = ys.find? fun x => key x == k := fun h => List.find?_cons_of_neg (by simpa using h)
    rcases Nat.lt_trichotomy (key v) (key x) with hlt | heq | hgt
    · rw [putKey, if_pos hlt]
      by_cases h : key v = k
      · rw [hpos h, if_pos h]
      · rw [hneg h, if_neg h]
    · rw [putKey, if_neg (by omega), if_pos heq]
      by_cases h : key v = k
      · rw [hpos h, if_pos h]
      · rw [hneg h, hneg (heq ▸ h), if_neg h]
    · rw [putKey, if_neg (by omega), if_neg (by omega)]
      by_cases h : key x = k
      · rw [hpos h, hpos h, if_neg (by omega)]
      · rw [hneg h, hneg h, ih]

/-- An entry found by its key has it. -/
theorem key_of_getKey {α : Type} {key : α → Nat} {k : Nat} {xs : List α} {v : α} (h : getKey key k xs = some v) : key v = k := by
  simpa using List.find?_some h

/-! ## Contexts (R213) -/

/-- The record of a context that is there. -/
theorem State.ctxOf_eq {s : State} {n : Nat} {k : Context} (h : getKey Context.n n s.ctl.ctxs = some k) : s.ctxOf n = k := by
  rw [State.ctxOf, h, Option.getD_some]

/-- A context after an update of it that keeps its number. -/
theorem State.getKey_mapCtx {f : Context → Context} (hf : ∀ y, (f y).n = y.n) (s : State) (n : Nat) :
    getKey Context.n n (s.mapCtx n f).ctl.ctxs = (getKey Context.n n s.ctl.ctxs).map f :=
  find?_updWhere (fun _ h => h) (fun y _ => by rw [hf]) s.ctl.ctxs

/-- Every record of a context's number is updated. -/
theorem State.of_mem_mapCtx {f : Context → Context} {s : State} {n : Nat} {y : Context} (hy : y ∈ (s.mapCtx n f).ctl.ctxs) (hn : y.n = n) : ∃ k, y = f k := by
  obtain ⟨k, -, rfl⟩ := List.mem_map.1 hy
  by_cases hk : (k.n == n) = true
  · exact ⟨k, if_pos hk⟩
  · rw [if_neg hk] at hn
    exact absurd (beq_iff_eq.2 hn) hk

/-- A context whose state is set. -/
theorem State.state_of_mem_setCtx {s : State} {n : Nat} {st : CtxState} {y : Context} (hy : y ∈ (s.setCtx n st).ctl.ctxs) (hn : y.n = n) : y.state = st := by
  obtain ⟨k, rfl⟩ := State.of_mem_mapCtx (f := fun c => { c with state := st }) hy hn
  rfl

/-! ## Timetable entries (R215) -/

/-- An entry has its number. -/
theorem State.ttOf_n (s : State) (n : Nat) : (s.ttOf n).n = n := by
  unfold State.ttOf
  cases h : getKey TtEntry.n n s.ctl.tt with
  | none => rfl
  | some e => exact key_of_getKey h

/-- Entries depend on the timetable alone. -/
theorem State.ttOf_congr {s t : State} (h : t.ctl.tt = s.ctl.tt) (n : Nat) : t.ttOf n = s.ttOf n := by
  rw [State.ttOf, State.ttOf, h]

/-- An entry whose LAST is set. -/
theorem State.ttOf_setLast (s : State) (n last : Nat) : (s.setLast n last).ttOf n = { s.ttOf n with last := last } := by
  unfold State.setLast State.putTt
  rw [State.ttOf, getKey_putKey, if_pos (s.ttOf_n n)]
  rfl

/-- The status of the firing that began a switch changes the timetable only. -/
theorem State.switchLast_rest (s : State) (entry : Option Nat) (last : Nat) :
    ∃ tt, s.switchLast entry last = { s with ctl := { s.ctl with tt := tt } } := by
  unfold State.switchLast
  split
  · split <;> exact ⟨_, rfl⟩
  · exact ⟨_, rfl⟩

/-- It is the LAST of its entry, while that still shows RUNNING. -/
theorem State.last_switchLast {s : State} {n : Nat} (h : (s.ttOf n).last = 1) (last : Nat) : ((s.switchLast (some n) last).ttOf n).last = last := by
  simp only [State.switchLast, h, beq_self_eq_true, if_true, State.ttOf_setLast]

/-! ## Queues (R151) -/

/-- A queue's record has its number. -/
theorem State.queueRec_q (s : State) (q : Nat) : (s.queueRec q).q = q := by
  unfold State.queueRec
  cases h : getKey QueueRec.q q s.copy.queues with
  | none => rfl
  | some r => exact key_of_getKey h

/-- The record of a queue after one is put. -/
theorem State.queueRec_putQueueRec (s : State) (r : QueueRec) (q : Nat) : (s.putQueueRec r).queueRec q = if r.q = q then r else s.queueRec q := by
  unfold State.putQueueRec
  rw [State.queueRec, getKey_putKey]
  split <;> rfl

/-- The records of queues depend on the list of them alone. -/
theorem State.queueRec_congr {s t : State} (h : t.copy.queues = s.copy.queues) (q : Nat) : t.queueRec q = s.queueRec q := by
  unfold State.queueRec
  rw [h]

/-- A queue pauses or resumes (R213, R222). -/
def State.setPaused (s : State) (b : Bool) (q : Nat) : State := s.putQueueRec { s.queueRec q with paused := b }

/-- PAUSED of a queue after another or the same queue pauses or resumes. -/
theorem State.paused_setPaused (s : State) (b : Bool) (q p : Nat) : ((s.setPaused b q).queueRec p).paused = if q = p then b else (s.queueRec p).paused := by
  rw [State.setPaused, State.queueRec_putQueueRec, State.queueRec_q]
  split <;> rfl

/-- Every queue of a list is paused, or resumed, after each is. -/
theorem State.paused_foldl {b : Bool} {g : State → Nat → State} (hg : ∀ s q, (g s q).copy.queues = (s.setPaused b q).copy.queues) {p : Nat} (qs : List Nat) :
    ∀ s : State, p ∈ qs ∨ (s.queueRec p).paused = b → ((qs.foldl g s).queueRec p).paused = b := by
  induction qs with
  | nil => exact fun s h => h.resolve_left List.not_mem_nil
  | cons q qs ih =>
    intro s h
    have hstep : ((g s q).queueRec p).paused = if q = p then b else (s.queueRec p).paused := by
      rw [State.queueRec_congr (hg s q), State.paused_setPaused]
    refine ih (g s q) ?_
    rcases h with h | h
    · rcases List.mem_cons.1 h with rfl | h
      · exact .inr (hstep.trans (if_pos rfl))
      · exact .inl h
    · exact .inr (hstep.trans (by rw [h, ite_self]))

end Sys2Proof.Machine
end

section
/-! PROOFS. A gang switch stops warps and pauses queues (O59). -/

namespace Sys2Proof.Machine

/-! ## The dies begin a switch (R216) -/

/-- A switch that stops the warps of context `c`. -/
structure Switch.Stopping (x : Switch) (c : Nat) : Prop where
  phase : x.phase = .stopping
  leaving : x.leaving = some c
  gang : x.teardown = false

/-- Every die has begun the switch when the Tidemark of each has reached its start. -/
theorem State.allBegun_eq_false {s : State} {x : Switch} (hx : s.ctl.switch = some x) (h : ∃ i < s.tide.length, s.tideOf i < x.start) : s.allBegun = false := by
  obtain ⟨i, hi, hlt⟩ := h
  rw [State.tideOf, List.getD_eq_getElem _ _ hi] at hlt
  simp only [State.allBegun, hx, List.all_eq_false]
  exact ⟨s.tide[i], List.getElem_mem hi, by simpa using hlt⟩

/-! ## Warps stop (R216, R219) -/

/-- Warps that stop join those of the switch. -/
theorem State.stopWarps_eq {s : State} {x : Switch} (hx : s.ctl.switch = some x) (uids : List Nat) :
    s.stopWarps uids = { s with ctl := { s.ctl with switch := some { x with stopped := x.stopped ++ uids } } } := by
  simp only [State.stopWarps, State.mapSwitch, hx, Option.map_some]

section
variable {s : State} {x : Switch} {c : Nat} (hx : s.ctl.switch = some x) (hs : x.Stopping c)
include hx hs

/-- The context that a gang switch stops. -/
theorem State.stoppingCtx_eq : s.stoppingCtx = some c := by
  simp only [State.stoppingCtx, hx, hs.phase, hs.leaving, hs.gang]
  rfl

/-- A compute die stops its warps from the start of the switch on. -/
theorem State.stoppingOn_eq (die : Nat) : s.stoppingOn die = decide (x.start ≤ s.tideOf die) := by
  simp only [State.stoppingOn, State.stoppingCtx_eq hx hs, State.switchOn, hx, Switch.began, hs.phase, hs.gang]
  rfl

/-- A running warp of the context stops when its die has begun the switch and nothing holds it. -/
theorem State.exec_warpStop {core pos : Nat} {w : Warp} (hw : s.warpAt core pos = some w) (hc : w.ctx.toNat = c) (hf : s.frozen w.uid = false)
    (hr : w.hasExited = false ∨ w.inHandler = true) :
    exec (.warpStop core pos) s = .next (if x.start ≤ s.tideOf (core / 24) ∧ s.stops w = true then s.stopWarps [w.uid] else s) := by
  have hrun : (!w.hasExited || w.inHandler) = true := by simpa using hr
  change execWarpStop core pos s = _
  simp only [execWarpStop, State.stoppingCtx_eq hx hs, hw, hc, hf, hrun, State.stoppingOn_eq hx hs, dieOfCore, beq_self_eq_true, Bool.not_false, Bool.true_and,
    Bool.and_eq_true, decide_eq_true_eq]

/-- The warps of the context that still run at the deadline stop there. -/
theorem State.exec_switchStopDeadline : exec .switchStopDeadline s = .next (s.stopWarps
    (((s.ctxWarps c).filter fun y => decide (x.start + 16000 ≤ s.tideOf (y.core / 24)) && !s.frozen y.uid).map (·.uid))) := by
  change execSwitchStopDeadline s = _
  simp only [execSwitchStopDeadline, State.stoppingCtx_eq hx hs, hx]
  rfl

end

/-- A warp is frozen once it is among those stopped. -/
theorem State.frozen_of_mem_stopped {s : State} {x : Switch} {uid : Nat} (hx : s.ctl.switch = some x) (h : uid ∈ x.stopped) : s.frozen uid = true := by
  simp only [State.frozen, hx, Bool.or_eq_true]
  exact .inl (List.contains_iff_mem.2 h)

/-! ## Queues pause (R164, R220) -/

/-- A message that is not acknowledged is to be sent again. -/
def RedMsg.unsent (m : RedMsg) : RedMsg := { m with sent := false, flying := false, ack := false }

/-- A queue whose entries all stand at a message boundary has paused. -/
def State.pauseQueue (s : State) (q : Nat) : State := { s.setPaused true q with copy := { (s.setPaused true q).copy with
  msgs := updWhere (fun m => m.q == q && !m.acked) RedMsg.unsent s.copy.msgs } }

/-- A queue of the context that leaves, on a die that has begun the switch, pauses at a message boundary. -/
theorem State.exec_queuePause {s : State} {x : Switch} {c q : Nat} (hx : s.ctl.switch = some x) (hp : x.phase = .stopping) (hl : x.leaving = some c)
    (hbegun : x.teardown = true ∨ x.start ≤ s.tideOf (q / 64)) (hb : (s.queueRec q).bound = true) (hc : (s.queueRec q).ctx.toNat = c)
    (hn : (s.queueRec q).paused = false) : exec (.queuePause q) s = .next (if (s.queued q).all s.atBoundary = true then s.pauseQueue q else s) := by
  have hon : s.switchOn (q / 64) = true := by
    simp only [State.switchOn, hx, Switch.began, Bool.or_eq_true, decide_eq_true_eq]
    exact hbegun.imp_left .inl
  have hleaving : s.leavingQueue q = true := by
    simp only [State.leavingQueue, hon, hx, hp, hb, hl, hc]
    simp
  change execQueuePause q s = _
  simp only [execQueuePause, hx, hl, hleaving, hc, hn, beq_self_eq_true, Bool.not_false, Bool.true_and]
  rfl

/-- The queue is paused, its messages that are not acknowledged are to be sent again, and nothing else changes. -/
theorem State.pauseQueue_spec (s : State) (q : Nat) : (s.pauseQueue q).queueRec q = { s.queueRec q with paused := true }
    ∧ (s.pauseQueue q).copy.msgs = s.copy.msgs.map (fun m => if m.q = q ∧ m.acked = false then { m with sent := false, flying := false, ack := false } else m)
    ∧ s.pauseQueue q = { s with copy := { s.copy with queues := (s.pauseQueue q).copy.queues, msgs := (s.pauseQueue q).copy.msgs } } := by
  refine ⟨?_, List.map_congr_left fun m _ => ?_, rfl⟩
  · have hrec := s.queueRec_putQueueRec { s.queueRec q with paused := true } q
    rw [if_pos (s.queueRec_q q)] at hrec
    exact hrec
  · by_cases h : m.q = q ∧ m.acked = false
    · rw [if_pos h, if_pos (by simp [h.1, h.2])]
      rfl
    · rw [if_neg h, if_neg (by simpa using h)]

end Sys2Proof.Machine
end

section
/-! PROOFS. The outgoing context of a gang switch is saved and leaves the cores (O59). -/

namespace Sys2Proof.Machine

/-! ## What saving changes besides the record it keeps (R91, R221) -/

/-- From s to t only memory, notices, workgroups, launches and the counter of free values change. -/
def State.SavesOnly (s t : State) : Prop :=
  ∃ mem notices wgs launches fresh, t = { s with mem := mem, notices := notices, wgs := wgs, launches := launches, fresh := fresh }

theorem State.SavesOnly.refl (s : State) : s.SavesOnly s := ⟨_, _, _, _, _, rfl⟩
theorem State.SavesOnly.trans {s t u : State} (h : s.SavesOnly t) (k : t.SavesOnly u) : s.SavesOnly u := by
  obtain ⟨_, _, _, _, _, rfl⟩ := h
  obtain ⟨_, _, _, _, _, rfl⟩ := k
  exact ⟨_, _, _, _, _, rfl⟩

/-- A fold whose steps save. -/
theorem State.SavesOnly.foldl {α : Type} {g : State → α → State} (hg : ∀ (t : State) a, t.SavesOnly (g t a)) (s : State) (xs : List α) : s.SavesOnly (xs.foldl g s) :=
  List.foldlRecOn xs g (motive := s.SavesOnly) (.refl s) fun t h a _ => h.trans (hg t a)

/-- A record of the fault log. -/
theorem State.savesOnly_logRecord (s : State) (r : LogRec) : s.SavesOnly (s.logRecord r) := by
  obtain ⟨_, _, h⟩ := s.logRecord_rest r
  exact ⟨_, _, _, _, _, h⟩

/-- Memory may change further. -/
theorem State.SavesOnly.withMem {s t : State} (h : s.SavesOnly t) (m : MemSys) : s.SavesOnly { t with mem := m } := by
  obtain ⟨_, _, _, _, _, rfl⟩ := h
  exact ⟨_, _, _, _, _, rfl⟩

/-- Bytes read at the home, and bytes written there. -/
theorem State.savesOnly_homeRead (s : State) (pa n : Nat) : s.SavesOnly (s.homeRead pa n).2 :=
  ⟨(s.homeRead pa n).2.mem, s.notices, s.wgs, s.launches, s.fresh, rfl⟩
theorem State.savesOnly_homeWrite (s : State) (pa : Nat) (bs : List Byte) : s.SavesOnly (s.homeWrite pa bs) :=
  ⟨(s.homeWrite pa bs).mem, s.notices, s.wgs, s.launches, s.fresh, rfl⟩

/-- An addition to a counter (R91). -/
theorem State.savesOnly_statAdd (s : State) (b : StatBy) (va n : Nat) : s.SavesOnly (s.statAdd b va n) := by
  unfold State.statAdd
  dsimp only
  split
  · split
    · exact s.savesOnly_logRecord _
    · exact .refl s
  · split
    · exact s.savesOnly_logRecord _
    · split
      · exact s.savesOnly_logRecord _
      · split
        · exact s.savesOnly_logRecord _
        · exact ((s.savesOnly_homeRead _ _).trans (State.savesOnly_homeWrite _ _ _)).withMem _

/-- The additions of a workgroup. -/
theorem State.savesOnly_addStats (s : State) (g : Workgroup) (handle : DWord) : s.SavesOnly (s.addStats g handle).1 := by
  unfold State.addStats
  exact List.foldlRecOn _ _ (motive := fun t : State × Nat => s.SavesOnly t.1) (.refl s) fun t h p _ => h.trans (t.1.savesOnly_statAdd _ _ _)

/-! ## The steps of a save -/

/-- The counters of a workgroup are added, and its launch notes when they have performed. -/
def State.takeStats (s : State) (g : Workgroup) : State :=
  let r := s.addStats (s.lowestPos g) (s.wgTask g.key)
  let s1 := r.1.mapWg g.key fun x => { x with stats := [] }
  match g.launch with
  | some k => s1.mapLaunch k fun l => { l with statTime := max l.statTime r.2 }
  | none => s1

/-- The counters of the workgroups of a context are added. -/
def State.savedStats (s : State) (ctx : Nat) : State := (s.wgs.filter fun g => g.ctx.toNat == ctx).foldl State.takeStats s

/-- Then the areas of its warps are written. -/
def State.savedWarps (s : State) (ctx : Nat) : State :=
  ((s.savedStats ctx).ctxWarps ctx).foldl (fun (t : State) w => t.saveWarp (s.descOf ctx 5) w) (s.savedStats ctx)

/-- Then the images of its arrays. -/
def State.savedArrays (s : State) (ctx : Nat) : State :=
  ((s.savedWarps ctx).ctxArrays ctx).foldl (fun (t : State) a => t.saveArray (s.descOf ctx 5) a) (s.savedWarps ctx)

/-- A warp of a context that is kept. -/
def State.keptWarps (s : State) (ctx : Nat) : List Warp :=
  ((s.savedStats ctx).warps.filter fun w => w.uid != 0 && w.ctx.toNat == ctx).map fun w => { w with acted := w.atSafe (w.safePoints s.switchTables) }

/-- What is kept of a context. -/
def State.keptCtx (s : State) (ctx : Nat) : SavedCtx where
  ctx := ctx
  warps := s.keptWarps ctx
  wgs := (s.savedArrays ctx).wgs.filter fun g => g.ctx.toNat == ctx
  arrays := (s.savedWarps ctx).ctxArrays ctx
  spadPoison := (s.savedArrays ctx).mem.spadPoison.filter fun w => inArrays ((s.savedWarps ctx).ctxArrays ctx) (8 * w)
  windows := (s.savedArrays ctx).copy.windows.filter fun w => (s.ctxQueues ctx).contains w.q

theorem State.savesOnly_takeStats (s : State) (g : Workgroup) : s.SavesOnly (s.takeStats g) := by
  have hadd := s.savesOnly_addStats (s.lowestPos g) (s.wgTask g.key)
  obtain ⟨_, _, _, _, _, hu⟩ := hadd
  unfold State.takeStats
  simp only [hu]
  split <;> exact ⟨_, _, _, _, _, rfl⟩

theorem State.savesOnly_savedStats (s : State) (ctx : Nat) : s.SavesOnly (s.savedStats ctx) := .foldl State.savesOnly_takeStats s _

theorem State.savesOnly_savedArrays (s : State) (ctx : Nat) : s.SavesOnly (s.savedArrays ctx) := by
  have hwarps : (s.savedStats ctx).SavesOnly (s.savedWarps ctx) := .foldl (fun t w => t.savesOnly_homeWrite _ _) _ _
  have harrays : (s.savedWarps ctx).SavesOnly (s.savedArrays ctx) := .foldl (fun t a => t.savesOnly_homeWrite _ _) _ _
  exact (s.savesOnly_savedStats ctx).trans (hwarps.trans harrays)

theorem State.savesOnly_saveRecords (s : State) (base ctx : Nat) : s.SavesOnly (s.saveRecords base ctx) := by
  have hcores : s.SavesOnly ((((s.wgs.filter fun g => g.ctx.toNat == ctx).map (·.core)).eraseDups).foldl
      (fun (s : State) c => s.homeWrite (base + c * 0x400000) ((List.range 4096).map (Config.recordByte (s.fresh + c)))) s) :=
    .foldl (fun t c => t.savesOnly_homeWrite _ _) _ _
  exact hcores.trans ⟨_, _, _, _, _, rfl⟩

/-- A context leaves the cores, and what is kept of it, its windows and its cards in CLEAN move (R163, R209, R221). -/
def State.withdraw (s : State) (ctx : Nat) (qs : List Nat) (kept : SavedCtx) : State :=
  let t := s.clearCtx ctx
  { t with
    cards := updWhere (fun k => k.ctx.toNat == ctx && k.phase == .clean) (fun k => { k with phase := .queued }) t.cards
    copy := { t.copy with windows := t.copy.windows.filter fun w => !qs.contains w.q }
    ctl := { t.ctl with saved := t.ctl.saved ++ [kept] } }

/-- Everything of a context is written. -/
def State.savedAll (s : State) (ctx : Nat) : State := (s.savedArrays ctx).saveRecords (s.descOf ctx 5) ctx

theorem State.savesOnly_savedAll (s : State) (ctx : Nat) : s.SavesOnly (s.savedAll ctx) :=
  (s.savesOnly_savedArrays ctx).trans (State.savesOnly_saveRecords _ _ _)

/-- A context is saved: everything is written, then it is withdrawn. -/
theorem State.saveCtx_eq (s : State) (ctx : Nat) : s.saveCtx ctx = (s.savedAll ctx).withdraw ctx (s.ctxQueues ctx) (s.keptCtx ctx) := by
  unfold State.saveCtx
  extract_lets base s1 ws s2 as s3 kept s4
  have hleft : s4 = (s.savedAll ctx).clearCtx ctx := rfl
  have hkept : kept = s.keptCtx ctx := rfl
  clear_value kept s4
  subst hleft hkept
  rfl

/-! ## What has left the cores -/

/-- No warp of a context is left on the cores. -/
theorem State.ctx_of_mem_warps_clearCtx {s : State} {ctx : Nat} {y : Warp} (hy : y ∈ (s.clearCtx ctx).warps) (h0 : y.uid ≠ 0) : y.ctx.toNat ≠ ctx := by
  have hkeep : y ∈ s.warps.filter fun w => w.uid != 0 && w.ctx.toNat != ctx := by
    change y ∈ (s.warps.filter fun w => w.uid != 0 && w.ctx.toNat != ctx).headD .vacant :: (s.warps.filter fun w => w.uid != 0 && w.ctx.toNat != ctx).tail at hy
    cases hk : s.warps.filter fun w => w.uid != 0 && w.ctx.toNat != ctx with
    | nil =>
      rw [hk, List.headD_nil, List.tail_nil, List.mem_singleton] at hy
      exact absurd (congrArg Warp.uid hy) h0
    | cons w ws => simpa [hk] using hy
  simpa [h0] using (List.mem_filter.1 hkeep).2

/-- No workgroup either. -/
theorem State.ctx_of_mem_wgs_clearCtx {s : State} {ctx : Nat} {y : Workgroup} (hy : y ∈ (s.clearCtx ctx).wgs) : y.ctx.toNat ≠ ctx := by
  simpa using (List.mem_filter.1 hy).2

/-- Every warp of a context is kept with its state. -/
theorem State.mem_keptWarps {s : State} {ctx : Nat} {y : Warp} (hy : y ∈ s.warps) (h0 : y.uid ≠ 0) (hc : y.ctx.toNat = ctx) :
    ∃ y' ∈ s.keptWarps ctx, y'.uid = y.uid ∧ y'.arch = y.arch := by
  obtain ⟨_, _, _, _, _, hstats⟩ := s.savesOnly_savedStats ctx
  refine ⟨_, List.mem_map_of_mem (List.mem_filter.2 ⟨?_, by simp [h0, hc]⟩), rfl, rfl⟩
  rw [hstats]
  exact hy

/-- Every sequence window of its queues is kept. -/
theorem State.mem_windows_keptCtx {s : State} {ctx : Nat} {y : RedWindow} (hy : y ∈ s.copy.windows) (hq : y.q ∈ s.ctxQueues ctx) :
    y ∈ (s.keptCtx ctx).windows := by
  obtain ⟨_, _, _, _, _, harrays⟩ := s.savesOnly_savedArrays ctx
  refine List.mem_filter.2 ⟨?_, List.contains_iff_mem.2 hq⟩
  rw [harrays]
  exact hy

/-! ## The save ends (R220, R221) -/

/-- What stands once a context is saved and READY: its warps and windows are kept, and neither they nor its workgroups are left. -/
structure State.SavedFrom (s t : State) (c : Nat) : Prop where
  cards : t.cards = s.cards.map fun k => if k.ctx.toNat = c ∧ k.phase = .clean then { k with phase := .queued } else k
  ready : ∀ y ∈ t.ctl.ctxs, y.n = c → y.state = .ready
  warps : ∀ y ∈ t.warps, y.uid ≠ 0 → y.ctx.toNat ≠ c
  wgs : ∀ g ∈ t.wgs, g.ctx.toNat ≠ c
  kept : ∃ z ∈ t.ctl.saved, z.ctx = c ∧ (∀ y ∈ s.warps, y.uid ≠ 0 → y.ctx.toNat = c → ∃ y' ∈ z.warps, y'.uid = y.uid ∧ y'.arch = y.arch)
    ∧ ∀ y ∈ s.copy.windows, y.q ∈ s.ctxQueues c → y ∈ z.windows ∧ y ∉ t.copy.windows

/-- The save leaves such a state, with the switch and the timetable as they were. -/
theorem State.savedFrom_saveCtx (s : State) (c : Nat) : s.SavedFrom ((s.saveCtx c).setCtx c .ready) c
    ∧ ((s.saveCtx c).setCtx c .ready).ctl.switch = s.ctl.switch ∧ ((s.saveCtx c).setCtx c .ready).ctl.tt = s.ctl.tt := by
  have hu := s.saveCtx_eq c
  have hsaves := s.savesOnly_savedAll c
  generalize s.savedAll c = u at hu hsaves
  have hcards : u.cards = s.cards := by obtain ⟨_, _, _, _, _, rfl⟩ := hsaves; rfl
  have hcopy : u.copy = s.copy := by obtain ⟨_, _, _, _, _, rfl⟩ := hsaves; rfl
  have hctl : u.ctl = s.ctl := by obtain ⟨_, _, _, _, _, rfl⟩ := hsaves; rfl
  rw [hu]
  refine ⟨⟨?cards, fun y hy hn => State.state_of_mem_setCtx hy hn, fun y hy => State.ctx_of_mem_warps_clearCtx (s := u) hy,
    fun g hg => State.ctx_of_mem_wgs_clearCtx (s := u) hg, s.keptCtx c, List.mem_append_right _ List.mem_cons_self, rfl, fun y hy h0 hc => State.mem_keptWarps hy h0 hc,
    fun y hy hq => ⟨State.mem_windows_keptCtx hy hq, ?windows⟩⟩, (congrArg CtlSys.switch hctl :), (congrArg CtlSys.tt hctl :)⟩
  case cards =>
    rw [← hcards]
    refine List.map_congr_left fun k _ => ?_
    by_cases h : k.ctx.toNat = c ∧ k.phase = .clean
    · rw [if_pos h, if_pos (by simp [h.1, h.2])]
    · rw [if_neg h, if_neg (by simpa using h)]
  case windows =>
    intro hmem
    have hkeep := (List.mem_filter.1 hmem).2
    rw [List.contains_iff_mem.2 hq] at hkeep
    exact absurd hkeep (by decide)

section
variable {s : State} {x : Switch} {c : Nat} (hx : s.ctl.switch = some x) (hs : x.Stopping c)
include hx hs

/-- The save waits until the context is drained and every die has begun the switch. -/
theorem State.exec_switchSaveComplete_waits (h : s.drained c = false ∨ s.allBegun = false) : exec .switchSaveComplete s = .next s := by
  have hwait : (!s.drained c || !s.allBegun) = true := by simpa using h
  change execSwitchSaveComplete s = _
  simp only [execSwitchSaveComplete, State.stoppingCtx_eq hx hs, hx, hwait, if_true]

/-- Then the context is saved and the switch goes on, or ends. -/
theorem State.exec_switchSaveComplete (hd : s.drained c = true) (hb : s.allBegun = true) : exec .switchSaveComplete s = .next (
    if x.entering.isSome then ((s.saveCtx c).setCtx c .ready).mapSwitch fun x => { x with phase := .restoring, leaving := none, stopped := [], tables := [] }
    else State.switchLast { (s.saveCtx c).setCtx c .ready with ctl := { ((s.saveCtx c).setCtx c .ready).ctl with switch := none } } x.entry 2) := by
  change execSwitchSaveComplete s = _
  simp only [execSwitchSaveComplete, State.stoppingCtx_eq hx hs, hx, hd, hb, Bool.not_true, Bool.or_self, Bool.false_eq_true, if_false]

end

end Sys2Proof.Machine
end

section
/-! PROOFS. What token writes, answers and traps leave of the control state, the queues and the instruction caches (for O59). -/

namespace Sys2Proof.Machine

/-! ## Control state and launches -/

/-- From s to t the launches and the control state stand, but for the token writes that are held. -/
structure State.KeepsControl (s t : State) : Prop where
  ctl : ∃ ws, t.ctl = { s.ctl with heldWrites := ws }
  launches : t.launches = s.launches

/-- And so do the queues and the instruction caches. -/
structure State.KeepsUnits (s t : State) : Prop extends s.KeepsControl t where
  queues : t.copy.queues = s.copy.queues
  icache : t.mem.icache = s.mem.icache

theorem State.KeepsControl.refl (s : State) : s.KeepsControl s := ⟨⟨_, rfl⟩, rfl⟩
theorem State.KeepsControl.trans {s t u : State} (h : s.KeepsControl t) (k : t.KeepsControl u) : s.KeepsControl u := by
  obtain ⟨_, h1⟩ := h.ctl
  obtain ⟨ws, h2⟩ := k.ctl
  exact ⟨⟨ws, by rw [h2, h1]⟩, k.launches.trans h.launches⟩
theorem State.KeepsControl.foldl {α : Type} {g : State → α → State} (hg : ∀ (t : State) a, t.KeepsControl (g t a)) (s : State) (xs : List α) :
    s.KeepsControl (xs.foldl g s) := List.foldlRecOn xs g (motive := s.KeepsControl) (.refl s) fun t h a _ => h.trans (hg t a)

/-- What the control state says of entries, contexts and the switch. -/
theorem State.KeepsControl.ctl_eq {s t : State} (h : s.KeepsControl t) : t.ctl.tt = s.ctl.tt ∧ t.ctl.ctxs = s.ctl.ctxs ∧ t.ctl.switch = s.ctl.switch := by
  obtain ⟨_, h⟩ := h.ctl
  rw [h]
  exact ⟨rfl, rfl, rfl⟩

theorem State.KeepsUnits.refl (s : State) : s.KeepsUnits s := ⟨.refl s, rfl, rfl⟩
theorem State.KeepsUnits.trans {s t u : State} (h : s.KeepsUnits t) (k : t.KeepsUnits u) : s.KeepsUnits u :=
  ⟨h.toKeepsControl.trans k.toKeepsControl, k.queues.trans h.queues, k.icache.trans h.icache⟩
theorem State.KeepsUnits.foldl {α : Type} {g : State → α → State} (hg : ∀ (t : State) a, t.KeepsUnits (g t a)) (s : State) (xs : List α) :
    s.KeepsUnits (xs.foldl g s) := List.foldlRecOn xs g (motive := s.KeepsUnits) (.refl s) fun t h a _ => h.trans (hg t a)

/-- An update of the other fields keeps. -/
theorem State.KeepsUnits.same {s t : State} (hc : t.ctl = s.ctl) (hl : t.launches = s.launches) (hq : t.copy.queues = s.copy.queues)
    (hi : t.mem.icache = s.mem.icache) : s.KeepsUnits t := ⟨⟨⟨s.ctl.heldWrites, hc⟩, hl⟩, hq, hi⟩

/-! ## Memory -/

/-- A write at the home leaves the instruction caches. -/
theorem State.icache_homeWriteAs (s : State) (stamp : Option Stamp) (pa : Nat) (bs : List Byte) : (s.homeWriteAs stamp pa bs).mem.icache = s.mem.icache := by
  refine List.foldlRecOn (List.range bs.length) _ (motive := fun m : MemSys => m.icache = s.mem.icache) rfl fun m h i _ => ?_
  have hrecall := congrArg MemSys.icache (m.recall_rest (lineOf (pa + i)) fun _ => false)
  exact hrecall.trans h

/-- So does a record of the fault log, which keeps everything but memory and notices. -/
theorem State.keepsUnits_logRecord (s : State) (r : LogRec) : s.KeepsUnits (s.logRecord r) := by
  have hicache : (s.logRecord r).mem.icache = s.mem.icache := by
    unfold State.logRecord State.homeWrite
    dsimp only
    split
    · rfl
    · split <;> simp only [State.icache_homeWriteAs]
  obtain ⟨_, _, h⟩ := s.logRecord_rest r
  rw [h] at hicache ⊢
  exact .same rfl rfl rfl hicache

/-! ## Tokens and handles (R159, R175, R220) -/

/-- A token write reaches its warp or is held. -/
theorem State.keepsUnits_writeToken (s : State) (uid ins : Nat) (hdl : Bool) (tok : Reg) (m : Mask) (x : Word) :
    s.KeepsUnits (s.writeToken uid ins hdl tok m x) := by
  unfold State.writeToken
  split
  · exact ⟨⟨⟨_, rfl⟩, rfl⟩, rfl, rfl⟩
  · exact .same rfl rfl rfl rfl

/-- A handle is released. -/
theorem State.keepsUnits_tryFree (s : State) (h : DWord) : s.KeepsUnits (s.tryFree h) := by
  obtain ⟨_, h⟩ := s.tryFree_rest h
  rw [h]
  exact .same rfl rfl rfl rfl

/-- Handles are released one after another. -/
theorem State.keepsUnits_tryFrees {α : Type} (f : α → DWord) (xs : List α) (s : State) : s.KeepsUnits (xs.foldl (fun s x => s.tryFree (f x)) s) :=
  .foldl (fun t x => t.keepsUnits_tryFree (f x)) s xs

/-! ## Traps (R229, R231, R235) -/

/-- A task completes. -/
theorem State.keepsUnits_completeTask (s : State) (brk : Option (Nat × Nat)) : s.KeepsUnits (s.completeTask brk) := by
  unfold State.completeTask
  dsimp only
  split
  · exact .refl s
  · split
    · exact .same rfl rfl rfl rfl
    · split
      · exact .refl s
      · split <;> exact .same rfl rfl rfl rfl

/-- Every lane of the warp in focus exits. -/
theorem State.keepsUnits_exitAll (s : State) (brk : Option (Nat × Nat)) : s.KeepsUnits (s.exitAll brk) := by
  have hexit : ∀ t : State, t.KeepsUnits (t.noteExit brk) := by
    intro t
    unfold State.noteExit
    dsimp only
    split
    · exact (t.keepsUnits_completeTask brk).trans (.same rfl rfl rfl rfl)
    · exact .refl t
  unfold State.exitAll
  dsimp only
  refine State.KeepsUnits.trans ?_ (hexit _)
  exact .same rfl rfl rfl rfl

/-- A trap is taken. -/
theorem State.keepsUnits_takeTrap (s : State) (t : TrapInfo) : s.KeepsUnits (s.takeTrap s t) := by
  have hunhandled : ∀ kind first second t, s.KeepsUnits (s.unhandledTrap kind first second t) :=
    fun _ _ _ _ => (s.keepsUnits_logRecord _).trans (State.keepsUnits_exitAll _ _)
  unfold State.takeTrap
  split
  · split
    · exact hunhandled _ _ _ _
    · split
      · exact hunhandled _ _ _ _
      · exact .same rfl rfl rfl rfl
  · exact .same rfl rfl rfl rfl

/-- A warp comes into focus. -/
theorem State.keepsUnits_focus (s : State) (uid : Nat) : s.KeepsUnits (s.focus uid) := by
  unfold State.focus
  split
  · exact .refl s
  · split
    · exact .same rfl rfl rfl rfl
    · exact .refl s

/-! ## Answers (R186) -/

/-- The lanes of an `AWAIT` take their answers. -/
theorem State.keepsUnits_awaitAnswer (s : State) (r : Req) (hs : List (Nat × DWord)) (d : Reg) (p : PReg) (t : Bool) :
    s.KeepsUnits (s.awaitAnswer r hs d p t) := by
  unfold State.awaitAnswer
  split
  · exact .same rfl rfl rfl rfl
  · extract_lets ready mayTrap due traps writes inList val wm dm put rest unblock s1 s2 s3 s4
    have h1 : s.KeepsUnits s1 := .same rfl rfl rfl rfl
    have h2 : s1.KeepsUnits s2 := by
      by_cases h : rest.isEmpty = true <;> simp only [s2, h, if_true, Bool.false_eq_true, if_false] <;> exact .same rfl rfl rfl rfl
    clear_value s2
    have hfree := State.keepsUnits_tryFrees (fun x : Nat × DWord × DWord × Bool => x.2.1) due s2
    have h3 : s.KeepsUnits s3 := (h1.trans h2).trans hfree
    clear_value traps s3
    cases traps with
    | nil => exact h3
    | cons x _ => exact (h3.trans (s3.keepsUnits_focus r.uid)).trans (State.keepsUnits_takeTrap _ _)

end Sys2Proof.Machine
end

section
/-! PROOFS. The incoming context of a gang switch: it comes back to its cores, or the switch fails (O59). -/

namespace Sys2Proof.Machine

/-! ## The descriptor (R214) -/

/-- The address that a CTXDn names. -/
def descAddr (v : DWord) : Nat := (v >>> 7).toNat % 2 ^ 45 * 128

/-- The L2s hold other sectors. -/
def State.withL2 (s : State) (l2 : List L2Sector) : State := { s with mem := { s.mem with l2 := l2 } }

/-- The bytes of an address in its register. -/
theorem bitsAt_ctxd (v : DWord) : bitsAt v.toNat 7 45 * 128 = descAddr v := by
  rw [bitsAt, descAddr, BitVec.toNat_ushiftRight]

/-- While no L2 holds a dirty byte, a descriptor is read as it stands at its home. -/
theorem State.readDescriptor_eq {s : State} (h : s.mem.Clean) {n : Nat} {k : Context} (hk : getKey Context.n n s.ctl.ctxs = some k) :
    ∃ l2, s.readDescriptor n = (descriptorOf (readBytes s.mem.home (descAddr k.ctxd) 128), s.withL2 l2) := by
  obtain ⟨l2, -, hread⟩ := State.homeRead_eq_of_clean h (descAddr k.ctxd) 128
  refine ⟨l2, ?_⟩
  rw [State.readDescriptor, State.ctxOf_eq hk, bitsAt_ctxd, hread]
  rfl

/-- A context takes the descriptor that was read. -/
def State.described (s : State) (c : Nat) (d : List DWord) : State := s.mapCtx c fun y => { y with desc := d }

/-- Its save area then stands at the base of that descriptor. -/
theorem State.descOf_described {s : State} {c : Nat} {k : Context} (hk : getKey Context.n c s.ctl.ctxs = some k) (d : List DWord) (i : Nat) :
    (s.described c d).descOf c i = (d.getD i 0).toNat := by
  rw [State.descOf, State.described, State.getKey_mapCtx (f := fun y => { y with desc := d }) (fun _ => rfl), hk]
  rfl

/-! ## A switch-in fails (R222) -/

/-- A context that is FAILED ends the switch into it; Estuary is notified. -/
def State.failed (s : State) (c err : Nat) : State :=
  { s.mapCtx c (fun x => { x with state := .failed, err := err }) with
    notices := s.notices + 1
    ctl := { (s.mapCtx c fun x => { x with state := .failed, err := err }).ctl with switch := none } }

/-- The LAST of its firing then tells it. -/
theorem State.failSwitchIn_eq (s : State) (c err : Nat) (entry : Option Nat) : s.failSwitchIn c err entry = (s.failed c err).switchLast entry 7 := rfl

/-- The context is FAILED with its error, the switch has ended and Estuary is notified; warps, workgroups and arrays are as they were. -/
theorem State.failSwitchIn_spec {s : State} {c : Nat} {k : Context} (hk : getKey Context.n c s.ctl.ctxs = some k) (err : Nat) (entry : Option Nat) :
    (getKey Context.n c (s.failSwitchIn c err entry).ctl.ctxs).map (fun y => (y.state, y.err)) = some (.failed, err)
    ∧ (s.failSwitchIn c err entry).ctl.switch = none ∧ (s.failSwitchIn c err entry).notices = s.notices + 1
    ∧ (s.failSwitchIn c err entry).warps = s.warps ∧ (s.failSwitchIn c err entry).wgs = s.wgs ∧ (s.failSwitchIn c err entry).arrays = s.arrays := by
  obtain ⟨tt, ht⟩ := (s.failed c err).switchLast_rest entry 7
  have hget := State.getKey_mapCtx (f := fun x => { x with state := .failed, err := err }) (fun _ => rfl) s c
  rw [hk] at hget
  rw [State.failSwitchIn_eq, ht]
  exact ⟨congrArg (Option.map fun y : Context => (y.state, y.err)) hget, rfl, rfl, rfl, rfl, rfl⟩

/-- The LAST of its firing is FAILED, while it still shows RUNNING. -/
theorem State.last_failSwitchIn {s : State} {n : Nat} (h : (s.ttOf n).last = 1) (c err : Nat) : ((s.failSwitchIn c err (some n)).ttOf n).last = 7 :=
  State.last_switchLast (s := s.failed c err) h 7

/-! ## The context comes back (R222) -/

/-- Where a warp stands. -/
def Warp.place (w : Warp) : Nat × Nat × Nat × Nat := (w.uid, w.core, w.pos, w.wg)

/-- From s to t only warps change, none of them its place. -/
def State.KeepsPlaces (s t : State) : Prop := ∃ cur others, t = { s with cur := cur, others := others } ∧ t.warps.map Warp.place = s.warps.map Warp.place

theorem State.KeepsPlaces.refl (s : State) : s.KeepsPlaces s := ⟨_, _, rfl, rfl⟩
theorem State.KeepsPlaces.trans {s t u : State} (h : s.KeepsPlaces t) (k : t.KeepsPlaces u) : s.KeepsPlaces u := by
  obtain ⟨_, _, rfl, h⟩ := h
  obtain ⟨_, _, rfl, k⟩ := k
  exact ⟨_, _, rfl, k.trans h⟩
theorem State.KeepsPlaces.foldl {α : Type} {g : State → α → State} (hg : ∀ (t : State) a, t.KeepsPlaces (g t a)) (s : State) (xs : List α) :
    s.KeepsPlaces (xs.foldl g s) := List.foldlRecOn xs g (motive := s.KeepsPlaces) (.refl s) fun t h a _ => h.trans (hg t a)

/-- An update of one warp that leaves it in its place. -/
theorem State.keepsPlaces_mapWarp {f : Warp → Warp} (hf : ∀ w, (f w).place = w.place) (s : State) (uid : Nat) : s.KeepsPlaces (s.mapWarp uid f) := by
  refine ⟨_, _, rfl, ?_⟩
  have hcur : ((s.mapWarp uid f).cur).place = s.cur.place := by
    rw [State.mapWarp_cur]
    split
    · exact hf _
    · rfl
  have hothers : (s.mapWarp uid f).others.map Warp.place = s.others.map Warp.place := by
    rw [State.mapWarp_others, updWhere, List.map_map]
    refine List.map_congr_left fun w _ => ?_
    rw [Function.comp_apply]
    split
    · exact hf _
    · rfl
  exact congrArg₂ List.cons hcur hothers

/-- A token that nothing is left to write ends. -/
theorem State.keepsPlaces_settlePend (s : State) (uid ins : Nat) : s.KeepsPlaces (s.settlePend uid ins) := by
  unfold State.settlePend
  split
  · exact .refl s
  · exact State.keepsPlaces_mapWarp (f := fun w => { w with pends := w.pends.filter fun p => p.id != ins }) (fun _ => rfl) s uid

/-- The tokens of a warp. -/
def State.settlePends (s : State) (u : Nat) : State := match s.warpOf u with
  | some w => (w.pends.filter fun p => p.async && p.preds.isEmpty).foldl (fun (s : State) p => s.settlePend u p.id) s
  | none => s

theorem State.keepsPlaces_settlePends (s : State) (u : Nat) : s.KeepsPlaces (s.settlePends u) := by
  unfold State.settlePends
  split
  · exact .foldl (fun t (p : Pend) => t.keepsPlaces_settlePend u p.id) s _
  · exact .refl s

/-- The held writes of some warps apply. -/
def State.writeHeld (s : State) (uids : List Nat) : State :=
  (s.ctl.heldWrites.filter fun h => uids.contains h.uid).foldl (fun (s : State) h => s.writeToken h.uid h.ins h.hdl h.tok h.mask h.word)
    { s with ctl := { s.ctl with heldWrites := s.ctl.heldWrites.filter fun h => !uids.contains h.uid } }

/-- A request of one of some warps is answered. -/
def State.answerHeld (uids : List Nat) (s : State) (r : Req) : State := match r.kind with
  | .await hs d p t => if r.checked && uids.contains r.uid then s.awaitAnswer r hs d p t else s
  | _ => s

/-- Held writes apply, then tokens end, then answers are given (R220, R240). -/
theorem State.applyHeld_eq (s : State) (uids : List Nat) : s.applyHeld uids =
    (uids.foldl State.settlePends (s.writeHeld uids)).reqs.foldl (State.answerHeld uids) (uids.foldl State.settlePends (s.writeHeld uids)) := rfl

theorem State.KeepsPlaces.keepsUnits {s t : State} (h : s.KeepsPlaces t) : s.KeepsUnits t := by
  obtain ⟨_, _, rfl, -⟩ := h
  exact .same rfl rfl rfl rfl

/-- None of them changes the control state, the queues or the instruction caches. -/
theorem State.keepsUnits_applyHeld (s : State) (uids : List Nat) : s.KeepsUnits (s.applyHeld uids) := by
  have hwrites : s.KeepsUnits (s.writeHeld uids) :=
    State.KeepsUnits.trans (t := { s with ctl := { s.ctl with heldWrites := s.ctl.heldWrites.filter fun h => !uids.contains h.uid } })
      ⟨⟨⟨_, rfl⟩, rfl⟩, rfl, rfl⟩ (.foldl (fun t (h : HeldWrite) => t.keepsUnits_writeToken h.uid h.ins h.hdl h.tok h.mask h.word) _ _)
  have htokens : (s.writeHeld uids).KeepsUnits (uids.foldl State.settlePends (s.writeHeld uids)) :=
    (State.KeepsPlaces.foldl State.keepsPlaces_settlePends _ uids).keepsUnits
  have hanswer : ∀ (t : State) r, t.KeepsUnits (State.answerHeld uids t r) := by
    intro t r
    unfold State.answerHeld
    split
    · split
      · exact t.keepsUnits_awaitAnswer _ _ _ _ _
      · exact .refl t
    · exact .refl t
  rw [State.applyHeld_eq]
  exact (hwrites.trans htokens).trans (.foldl hanswer _ _)

/-- With no request and no held write only tokens end. -/
theorem State.keepsPlaces_applyHeld {s : State} (hr : s.reqs = []) (hh : s.ctl.heldWrites = []) (uids : List Nat) : s.KeepsPlaces (s.applyHeld uids) := by
  have hwrites : s.writeHeld uids = s := by
    have hctl : ({ s.ctl with heldWrites := [] } : CtlSys) = s.ctl := by rw [← hh]
    simp only [State.writeHeld, hh, List.filter_nil, List.foldl_nil, hctl]
  have hplaces := State.KeepsPlaces.foldl State.keepsPlaces_settlePends s uids
  have hreqs : (uids.foldl State.settlePends s).reqs = [] := by
    obtain ⟨_, _, h, -⟩ := hplaces
    rw [h]
    exact hr
  rw [State.applyHeld_eq, hwrites, hreqs]
  exact hplaces

end Sys2Proof.Machine
end

section
/-! PROOFS. A switch-in runs to its end (O59). -/

namespace Sys2Proof.Machine

/-! ## What is restored (R222) -/

/-- The head and the tail of a list hold its entries. -/
theorem mem_headD_cons_tail {α : Type} {x d : α} {xs : List α} (h : x ∈ xs) : x ∈ xs.headD d :: xs.tail := by
  cases xs with
  | nil => exact absurd h List.not_mem_nil
  | cons y ys => exact h

/-- A warp that is kept stands at its core and position again. -/
theorem State.mem_warps_restoreCtx {s : State} {base : Nat} {z : SavedCtx} {y : Warp} (hy : y ∈ z.warps) :
    ∃ y' ∈ (s.restoreCtx base z).warps, y'.place = y.place := by
  have hmem := List.mem_map_of_mem (f := fun w : Warp => if w.hasExited && !w.inHandler then w else w.restore (s.areaReader base w)) hy
  have hplace : (if y.hasExited && !y.inHandler then y else y.restore (s.areaReader base y)).place = y.place := by split <;> rfl
  exact ⟨_, mem_headD_cons_tail (List.mem_append_left _ hmem), hplace⟩

/-- An array that is kept is there again, in compute mode by way of its transition. -/
theorem State.mem_arrays_restoreCtx {s : State} {base : Nat} {z : SavedCtx} {a : ArrayRec} (ha : a ∈ z.arrays) :
    { a with mode := if a.mode = 1 then 2 else a.mode, flips := [] } ∈ (s.restoreCtx base z).arrays := by
  have hmem := List.mem_map_of_mem (f := fun a : ArrayRec => { a with mode := if a.mode == 1 then 2 else a.mode, flips := [] }) ha
  have hmode : (if a.mode == 1 then (2 : BitVec 2) else a.mode) = if a.mode = 1 then 2 else a.mode := by simp only [beq_iff_eq]
  rw [← hmode]
  exact List.mem_append_right _ hmem

/-! ## The context runs (R222, R253) -/

/-- The instruction caches drop a context that comes back, and it is RUNNING. -/
def State.reopened (s : State) (c : Nat) : State := State.setCtx { s with
  mem := { s.mem with icache := s.mem.icache.filter fun y => y.ctx.toNat != c }
  ctl := { s.ctl with switch := none } } c .running

/-- A queue resumes and sends its messages. -/
def State.resumePaused (s : State) (q : Nat) : State := (s.setPaused false q).sendMessages q

/-- What is held for the warps of a context applies, and its queues resume. -/
def State.resumed (s : State) (c : Nat) (uids : List Nat) : State :=
  (((s.reopened c).applyHeld uids).ctxQueues c).foldl State.resumePaused ((s.reopened c).applyHeld uids)

/-- Messages are sent: only they change. -/
theorem State.sendMessages_rest (s : State) (q : Nat) : ∃ msgs, s.sendMessages q = { s with copy := { s.copy with msgs := msgs } } := by
  unfold State.sendMessages
  refine List.foldlRecOn _ _ (motive := fun t : State => ∃ msgs, t = { s with copy := { s.copy with msgs := msgs } }) ⟨_, rfl⟩ ?_
  rintro _ ⟨_, rfl⟩ m -
  dsimp only
  split <;> exact ⟨_, rfl⟩

/-- Queues resume: only queues and messages change. -/
theorem State.foldl_resumePaused_rest (s : State) (qs : List Nat) :
    ∃ queues msgs, qs.foldl State.resumePaused s = { s with copy := { s.copy with queues := queues, msgs := msgs } } := by
  refine List.foldlRecOn qs State.resumePaused (motive := fun t => ∃ queues msgs, t = { s with copy := { s.copy with queues := queues, msgs := msgs } })
    ⟨s.copy.queues, s.copy.msgs, rfl⟩ ?_
  rintro t ⟨_, _, ht⟩ q -
  obtain ⟨_, h⟩ := (t.setPaused false q).sendMessages_rest q
  rw [State.resumePaused, h, ht]
  exact ⟨_, _, rfl⟩

/-- The control state then says that the context runs and no switch is in progress; the timetable stands. -/
theorem State.ctl_resumed (s : State) (c : Nat) (uids : List Nat) :
    getKey Context.n c (s.resumed c uids).ctl.ctxs = (getKey Context.n c s.ctl.ctxs).map (fun y => { y with state := .running })
    ∧ (s.resumed c uids).ctl.switch = none ∧ (s.resumed c uids).ctl.tt = s.ctl.tt := by
  obtain ⟨htt, hctxs, hswitch⟩ := ((s.reopened c).keepsUnits_applyHeld uids).ctl_eq
  obtain ⟨_, _, h⟩ := ((s.reopened c).applyHeld uids).foldl_resumePaused_rest (((s.reopened c).applyHeld uids).ctxQueues c)
  rw [State.resumed, h]
  refine ⟨?_, hswitch, htt⟩
  rw [← State.getKey_mapCtx (f := fun y => { y with state := .running }) (fun _ => rfl)]
  exact congrArg (getKey Context.n c) hctxs

/-- No instruction cache holds a word of it. -/
theorem State.ctx_of_mem_icache_resumed {s : State} {c : Nat} {uids : List Nat} {y : ILine} (hy : y ∈ (s.resumed c uids).mem.icache) : y.ctx.toNat ≠ c := by
  obtain ⟨_, _, h⟩ := ((s.reopened c).applyHeld uids).foldl_resumePaused_rest (((s.reopened c).applyHeld uids).ctxQueues c)
  rw [State.resumed, h] at hy
  have hmem : y ∈ (s.reopened c).mem.icache := ((s.reopened c).keepsUnits_applyHeld uids).icache ▸ hy
  simpa using (List.mem_filter.1 hmem).2

/-- Each of its queues goes on. -/
theorem State.paused_resumed {s : State} {c : Nat} {uids : List Nat} {q : Nat} (hq : q ∈ s.ctxQueues c) : ((s.resumed c uids).queueRec q).paused = false := by
  have hsame : ((s.reopened c).applyHeld uids).ctxQueues c = s.ctxQueues c := by
    unfold State.ctxQueues
    rw [((s.reopened c).keepsUnits_applyHeld uids).queues]
    rfl
  refine State.paused_foldl (fun t p => ?_) _ _ (.inl (hsame ▸ hq))
  obtain ⟨_, h⟩ := (t.setPaused false p).sendMessages_rest p
  rw [State.resumePaused, h]

/-- Without requests and held writes the cores hold what was restored. -/
theorem State.resumed_idle {s : State} (hr : s.reqs = []) (hh : s.ctl.heldWrites = []) (c : Nat) (uids : List Nat) :
    (s.resumed c uids).wgs = s.wgs ∧ (s.resumed c uids).copy.windows = s.copy.windows ∧ (s.resumed c uids).arrays = s.arrays
    ∧ (s.resumed c uids).warps.map Warp.place = s.warps.map Warp.place := by
  obtain ⟨_, _, h⟩ := ((s.reopened c).applyHeld uids).foldl_resumePaused_rest (((s.reopened c).applyHeld uids).ctxQueues c)
  obtain ⟨_, _, hheld, hplaces⟩ := State.keepsPlaces_applyHeld (s := s.reopened c) hr hh uids
  rw [State.resumed, h]
  refine ⟨?_, ?_, ?_, hplaces⟩ <;> rw [hheld] <;> rfl

/-! ## The switch-in (R214, R216, R222) -/

/-- What is kept of a context, or nothing. -/
def State.savedOf (s : State) (c : Nat) : SavedCtx := (s.ctl.saved.find? fun k => k.ctx == c).getD ⟨c, [], [], [], [], []⟩

/-- The save area of a warp that has not exited is rejected (R65, R239). -/
def State.rejects (s : State) (base : Nat) (w : Warp) : Bool := !(w.hasExited && !w.inHandler) && areaRejected (s.areaReader base w) w.hdr.gmax

/-- The area of a warp as the statements write it. -/
theorem State.rejects_iff (s : State) (base : Nat) (w : Warp) : s.rejects base w = true ↔ (w.hasExited = false ∨ w.inHandler = true)
    ∧ areaRejected (fun off n => readNum s.mem.home (base + 0x400000 * w.core + 0x80000 + 0x9000 * w.pos + off) n) w.hdr.gmax = true := by
  have harea : s.areaReader base w = fun off n => readNum s.mem.home (base + 0x400000 * w.core + 0x80000 + 0x9000 * w.pos + off) n := by
    funext off n
    rw [State.areaReader, warpArea, Nat.mul_comm w.core]
  rw [State.rejects, harea]
  simp

section
variable {s : State} {x : Switch} (hx : s.ctl.switch = some x) (hp : x.phase = .restoring)
include hx hp

/-- A switch-in waits until every die has begun the switch. -/
theorem State.exec_switchIn_waits (hb : s.allBegun = false) : exec .switchIn s = .next s := by
  change execSwitchIn s = _
  cases he : x.entering <;> simp only [execSwitchIn, hx, hp, he, hb, Bool.not_false, if_true]

variable {c : Nat} (he : x.entering = some c) (hb : s.allBegun = true)
include he hb

/-- With a bad descriptor it fails. -/
theorem State.exec_switchIn_of_none {u : State} (hd : s.readDescriptor c = (none, u)) : exec .switchIn s = .next (u.failSwitchIn c 1 x.entry) := by
  change execSwitchIn s = _
  simp only [execSwitchIn, hx, hp, he, hb, hd, Bool.not_true, Bool.false_eq_true, if_false]

/-- With a descriptor it fails when an area is rejected, and else the context is restored and runs. -/
theorem State.exec_switchIn_of_some {u : State} {d : List DWord} (hd : s.readDescriptor c = (some d, u)) : exec .switchIn s = .next (
    if (u.savedOf c).warps.any ((u.described c d).rejects ((u.described c d).descOf c 5)) then (u.described c d).failSwitchIn c 2 x.entry
    else ((((u.described c d).restoreCtx ((u.described c d).descOf c 5) (u.savedOf c)).resumed c ((u.savedOf c).warps.map (·.uid))).switchLast x.entry 2)) := by
  change execSwitchIn s = _
  simp only [execSwitchIn, hx, hp, he, hb, hd, Bool.not_true, Bool.false_eq_true, if_false]
  rfl

end

end Sys2Proof.Machine
end

section
/-! PROOFS. Contexts are activated and torn down (O59). -/

namespace Sys2Proof.Machine

/-! ## Estuary's writes (R268, R271) -/

/-- A write that the access table grants. -/
theorem State.estuary_granted {s : State} {off n : Nat} (h : s.mgmtGranted 3 off n true = true) (f : State → State) : s.estuary off n f = f s := if_pos h

/-- A write that it refuses is logged in the log of context 0, and so are those of CTXDn. -/
theorem State.estuary_refused {s : State} {off n : Nat} (h : s.mgmtGranted 3 off n true = false) (f : State → State) :
    s.estuary off n f = s.logRecord ⟨s.tideOf 12, 3, 3, 4, 0, 0xFFFF, 0, 0, 0, BitVec.ofNat 64 off, 0, 0, 3, 64⟩ := if_neg (Bool.eq_false_iff.1 h)

/-- CTXDn with VALID = 1 is written by Estuary. -/
theorem exec_ctxdActivate {c : Nat} (hc : c < 8) (s : State) (v : DWord) :
    exec (.ctxdActivate c v) s = .next (s.estuary (0x41100 + 8 * c) 8 fun s => s.activate c v) := by
  change execCtxdActivate c v s = _
  rw [execCtxdActivate, if_pos hc]

/-- And so is the half of it that holds VALID = 0. -/
theorem exec_ctxdTeardown {c : Nat} (hc : c < 8) (s : State) : exec (.ctxdTeardown c) s = .next (s.estuary (0x41104 + 8 * c) 4 fun s => s.teardown c) := by
  change execCtxdTeardown c s = _
  rw [execCtxdTeardown, if_pos hc]

/-! ## Activation (R213, R214) -/

/-- Queues pause: only they change. -/
theorem State.foldl_setPaused_rest (s : State) (b : Bool) (qs : List Nat) :
    ∃ queues, qs.foldl (fun (t : State) q => t.setPaused b q) s = { s with copy := { s.copy with queues := queues } } := by
  refine List.foldlRecOn qs _ (motive := fun t : State => ∃ queues, t = { s with copy := { s.copy with queues := queues } }) ⟨s.copy.queues, rfl⟩ ?_
  rintro t ⟨_, ht⟩ q -
  rw [ht]
  exact ⟨_, rfl⟩

/-- The bits of CTXDn that are held name the same descriptor as the value written. -/
theorem descAddr_and (v : DWord) : descAddr (v &&& 0x800FFFFFFFFFFF80) = descAddr v := by
  have hmask : ∀ i < 45, (0x800FFFFFFFFFFF80 : DWord).getLsbD (7 + i) = true := by decide
  have hbits : ((v &&& 0x800FFFFFFFFFFF80) >>> 7).setWidth 45 = (v >>> 7).setWidth 45 := by
    refine BitVec.eq_of_getLsbD_eq fun i hi => ?_
    simp only [BitVec.getLsbD_setWidth, BitVec.getLsbD_ushiftRight, BitVec.getLsbD_and, hmask i hi, Bool.and_true]
  have hnat := congrArg BitVec.toNat hbits
  rw [BitVec.toNat_setWidth, BitVec.toNat_setWidth] at hnat
  rw [descAddr, descAddr, hnat]

/-- CTXDn takes a value. -/
def State.putCtxd (s : State) (n : Nat) (v : DWord) : State := s.mapCtx n fun c => { c with ctxd := v &&& 0x800FFFFFFFFFFF80 }

/-- A context whose descriptor is bad. -/
def State.descriptorBad (s : State) (n : Nat) : State := s.mapCtx n fun c => { c with err := 1, ctxd := c.ctxd &&& 0x000FFFFFFFFFFF80 }

/-- A context that is READY with a descriptor, its queues paused. -/
def State.activated (s : State) (n : Nat) (d : List DWord) : State :=
  (s.ctxQueues n).foldl (fun (t : State) q => t.setPaused true q) (s.mapCtx n fun c => { c with state := .ready, err := 0, desc := d })

/-- The activation changes the queues and the contexts. -/
theorem State.activated_rest (s : State) (n : Nat) (d : List DWord) : ∃ queues, s.activated n d =
    { s.mapCtx n (fun c => { c with state := .ready, err := 0, desc := d }) with copy := { s.copy with queues := queues } } :=
  State.foldl_setPaused_rest _ _ _

/-- A write without VALID, or to a context that is not EMPTY, does nothing. -/
theorem State.activate_eq_self {s : State} {n : Nat} {v : DWord} {k : Context} (hk : getKey Context.n n s.ctl.ctxs = some k)
    (h : k.state ≠ .empty ∨ v.getLsbD 63 = false) : s.activate n v = s := by
  rw [State.activate, State.ctxOf_eq hk, if_pos (by simpa using h)]

section
variable {s : State} {n : Nat} {v : DWord} {k : Context} (hk : getKey Context.n n s.ctl.ctxs = some k) (he : k.state = .empty)
  (hv : v.getLsbD 63 = true) (hclean : s.mem.Clean)
include hk

/-- CTXDn holds the value written. -/
theorem State.getKey_putCtxd : getKey Context.n n (s.putCtxd n v).ctl.ctxs = some { k with ctxd := v &&& 0x800FFFFFFFFFFF80 } := by
  rw [State.putCtxd, State.getKey_mapCtx (f := fun c => { c with ctxd := v &&& 0x800FFFFFFFFFFF80 }) (fun _ => rfl), hk]
  rfl

include hclean in
/-- The descriptor that is read is the one that the value written names. -/
theorem State.readDescriptor_putCtxd : ∃ l2, (s.putCtxd n v).readDescriptor n =
    (descriptorOf (readBytes s.mem.home (descAddr v) 128), (s.putCtxd n v).withL2 l2) := by
  obtain ⟨l2, hread⟩ := State.readDescriptor_eq (s := s.putCtxd n v) hclean (State.getKey_putCtxd hk)
  rw [descAddr_and] at hread
  exact ⟨l2, hread⟩

include he hv hclean

/-- With an invalid descriptor the context keeps the error. -/
theorem State.activate_of_none (hd : descriptorOf (readBytes s.mem.home (descAddr v) 128) = none) :
    ∃ l2, s.activate n v = ((s.putCtxd n v).withL2 l2).descriptorBad n := by
  obtain ⟨l2, hread⟩ := State.readDescriptor_putCtxd (v := v) hk hclean
  rw [hd, State.putCtxd] at hread
  refine ⟨l2, ?_⟩
  rw [State.activate, State.ctxOf_eq hk, if_neg (by simp [he, hv])]
  simp only [hread]
  rfl

/-- With a valid one it is READY. -/
theorem State.activate_of_some {d : List DWord} (hd : descriptorOf (readBytes s.mem.home (descAddr v) 128) = some d) :
    ∃ l2, s.activate n v = ((s.putCtxd n v).withL2 l2).activated n d := by
  obtain ⟨l2, hread⟩ := State.readDescriptor_putCtxd (v := v) hk hclean
  rw [hd, State.putCtxd] at hread
  refine ⟨l2, ?_⟩
  rw [State.activate, State.ctxOf_eq hk, if_neg (by simp [he, hv])]
  simp only [hread]
  rfl

/-- Neither the switch nor the warp in focus changes. -/
theorem State.activate_rest : (s.activate n v).ctl.switch = s.ctl.switch ∧ (s.activate n v).cur = s.cur := by
  cases hd : descriptorOf (readBytes s.mem.home (descAddr v) 128) with
  | none =>
    obtain ⟨l2, h⟩ := State.activate_of_none hk he hv hclean hd
    rw [h]
    exact ⟨rfl, rfl⟩
  | some d =>
    obtain ⟨l2, h⟩ := State.activate_of_some hk he hv hclean hd
    obtain ⟨_, hq⟩ := ((s.putCtxd n v).withL2 l2).activated_rest n d
    rw [h, hq]
    exact ⟨rfl, rfl⟩

/-- With a valid descriptor the context is READY and its queues are paused. -/
theorem State.ready_activate {d : List DWord} (hd : descriptorOf (readBytes s.mem.home (descAddr v) 128) = some d) :
    getKey Context.n n (s.activate n v).ctl.ctxs = some { k with ctxd := v &&& 0x800FFFFFFFFFFF80, state := .ready, err := 0, desc := d }
    ∧ ∀ q ∈ s.ctxQueues n, ((s.activate n v).queueRec q).paused = true := by
  obtain ⟨l2, h⟩ := State.activate_of_some hk he hv hclean hd
  rw [h]
  refine ⟨?_, fun q hq => State.paused_foldl (fun _ _ => rfl) _ _ (.inl hq)⟩
  obtain ⟨_, hq⟩ := ((s.putCtxd n v).withL2 l2).activated_rest n d
  have hready := State.getKey_mapCtx (f := fun c => { c with state := .ready, err := 0, desc := d }) (fun _ => rfl) ((s.putCtxd n v).withL2 l2) n
  rw [hq]
  exact hready.trans (congrArg (Option.map fun c : Context => { c with state := .ready, err := 0, desc := d }) (State.getKey_putCtxd hk))

/-- With an invalid one it stays EMPTY, with VALID clear and the error. -/
theorem State.error_activate (hd : descriptorOf (readBytes s.mem.home (descAddr v) 128) = none) :
    getKey Context.n n (s.activate n v).ctl.ctxs = some { k with ctxd := v &&& 0x000FFFFFFFFFFF80, err := 1 } := by
  obtain ⟨l2, h⟩ := State.activate_of_none hk he hv hclean hd
  have hbad := State.getKey_mapCtx (f := fun c => { c with err := 1, ctxd := c.ctxd &&& 0x000FFFFFFFFFFF80 }) (fun _ => rfl) ((s.putCtxd n v).withL2 l2) n
  have hval : v &&& 0x800FFFFFFFFFFF80 &&& 0x000FFFFFFFFFFF80 = v &&& 0x000FFFFFFFFFFF80 := BitVec.and_assoc v _ _
  rw [h, ← hval]
  exact hbad.trans (congrArg (Option.map fun c : Context => { c with err := 1, ctxd := c.ctxd &&& 0x000FFFFFFFFFFF80 }) (State.getKey_putCtxd hk))

end

/-! ## The work of a context ends (R188, R213) -/

/-- An entry of the timetable launched one of the launches of a context. -/
def State.endsLaunch (s : State) (ctx : BitVec 3) (e : TtEntry) : Bool :=
  match e.launch with | some k => ((s.launches.filter fun l => l.ctx == ctx).map (·.key)).contains k | none => false

/-- The launches of a context end, and the firings that made them. -/
def State.endLaunches (s : State) (ctx : BitVec 3) : State := { s with
  launches := s.launches.filter fun l => l.ctx != ctx
  ctl := { s.ctl with tt := updWhere (s.endsLaunch ctx) (fun e => { e with last := 6, launch := none }) s.ctl.tt } }

/-- A queue of a context stops for good. -/
def State.stopQueue (s : State) (q : Nat) : State := (s.abortQueue q true fun _ => true).setPaused false q

/-- Everything a context has under way is dropped or broken. -/
def State.endWork (s : State) (n : Nat) : State :=
  ((s.ctxQueues n).foldl State.stopQueue ((s.endLaunches (BitVec.ofNat 3 n)).dropUnaccepted n)).breakHandles (fun x => x.ctx == BitVec.ofNat 3 n) 8 0

/-- What the units and the control state hold of a context is gone, and it is EMPTY. -/
def State.emptyCtx (s : State) (n : Nat) (uids : List Nat) : State := { s with
  reqs := s.reqs.filter fun r => r.ctx != BitVec.ofNat 3 n
  cards := s.cards.filter fun k => k.ctx != BitVec.ofNat 3 n
  tasks := { s.tasks with
    slots := s.tasks.slots.map fun x => if x.ctx == BitVec.ofNat 3 n && x.state != .free then x.cleared else x
    late := s.tasks.late.filter fun d => handleCtx d.handle != BitVec.ofNat 3 n
    ready := s.tasks.ready.filter fun t => t.ctx != BitVec.ofNat 3 n
    parked := s.tasks.parked.filter fun p => handleCtx p.handle != BitVec.ofNat 3 n }
  mem := { s.mem with tlb := s.mem.tlb.filter fun t => t.ctx != BitVec.ofNat 3 n, icache := s.mem.icache.filter fun x => x.ctx != BitVec.ofNat 3 n }
  ctl := { s.ctl with
    saved := s.ctl.saved.filter fun k => k.ctx != n
    heldWrites := s.ctl.heldWrites.filter fun h => !uids.contains h.uid
    ctxs := updWhere (fun c => c.n == n) (fun c => { c with state := .empty, ctxd := c.ctxd &&& 0x7FFFFFFFFFFFFFFF }) s.ctl.ctxs } }

/-- The warps of a context, on the cores and in what is kept of it. -/
def State.uidsOf (s : State) (ctx : BitVec 3) : List Nat := ((s.warps ++ s.ctl.saved.flatMap (·.warps)).filter fun w => w.ctx == ctx).map (·.uid)

/-- A teardown ends the work of a context, then clears the cores and the units of it. -/
theorem State.tearDown_eq (s : State) (n : Nat) :
    s.tearDown n = ((s.endWork n).clearCtx n).emptyCtx n ((s.endWork n).uidsOf (BitVec.ofNat 3 n)) := by
  unfold State.tearDown
  extract_lets ctx dead ended qs ctl s1 s2 s3 uids s4
  have hwork : s3 = s.endWork n := rfl
  have huids : uids = (s.endWork n).uidsOf (BitVec.ofNat 3 n) := rfl
  clear_value uids s3
  subst hwork huids
  rfl

/-- The entries of a queue are aborted: control state and launches stand. -/
theorem State.keepsControl_abortQueue (s : State) (q : Nat) (all : Bool) (lost : CopyEntry → Bool) : s.KeepsControl (s.abortQueue q all lost) := by
  have hleave : ∀ (t : State) j status, t.KeepsControl (t.leaveMarkers j status) := by
    intro t j status
    unfold State.leaveMarkers State.settleToken
    dsimp only
    have hleft : t.KeepsControl { t with copy := { t.copy with
      entries := t.copy.entries.filter fun e => e.kind != .marker j.id, joins := t.copy.joins.filter fun x => x.id != j.id } } := ⟨⟨_, rfl⟩, rfl⟩
    have hwritten := hleft.trans (State.keepsUnits_writeToken _ j.uid j.id j.hdl j.tok j.act (statusWord status 0)).toKeepsControl
    split
    · exact hwritten
    · exact hwritten.trans ⟨⟨_, rfl⟩, rfl⟩
  have hentry : ∀ (t : State) e b, t.KeepsControl (t.abortEntry e all b) := fun t e b => ⟨⟨_, rfl⟩, rfl⟩
  unfold State.abortQueue
  dsimp only
  refine State.KeepsControl.trans (t := s.putQueueRec { s.queueRec q with flt := false, qflt := 0 }) ⟨⟨_, rfl⟩, rfl⟩ (.foldl (fun t e => ?_) _ _)
  split
  · split
    · exact hleave _ _ _
    · exact .refl t
  · exact hentry _ _ _

/-- From the end of its launches on, the launches and the control state stand. -/
theorem State.keepsControl_endWork (s : State) (n : Nat) : (s.endLaunches (BitVec.ofNat 3 n)).KeepsControl (s.endWork n) := by
  have hstop : ∀ (t : State) q, t.KeepsControl (t.stopQueue q) := fun t q => (t.keepsControl_abortQueue q true fun _ => true).trans ⟨⟨_, rfl⟩, rfl⟩
  have hbreak : ∀ (t : State) hit cause detail, t.KeepsControl (t.breakHandles hit cause detail) := by
    intro t hit cause detail
    unfold State.breakHandles
    refine .foldl (fun u x => ?_) t _
    exact State.KeepsControl.trans (t := u.mapSlot (mkHandle x.core x.idx x.ctx x.gen) fun y =>
      { y with state := .broken, brk := some (y.brk.getD (breakWord cause detail (mkHandle x.core x.idx x.ctx x.gen))), decs := [] }) ⟨⟨_, rfl⟩, rfl⟩
      (State.keepsUnits_tryFree _ _).toKeepsControl
  have hdrop : (s.endLaunches (BitVec.ofNat 3 n)).KeepsControl ((s.endLaunches (BitVec.ofNat 3 n)).dropUnaccepted n) := ⟨⟨_, rfl⟩, rfl⟩
  exact (hdrop.trans (.foldl hstop _ _)).trans (hbreak _ _ _ _)

/-! ## Nothing of the context is left (R213) -/

/-- Nothing of context c is left in t, and it is EMPTY; the launch of entry n that was of c has ended. -/
structure State.TornDown (s t : State) (c n : Nat) : Prop where
  contexts : ∀ y ∈ t.ctl.ctxs, y.n = c → y.state = .empty ∧ y.ctxd.getLsbD 63 = false
  warps : ∀ y ∈ t.warps, y.uid ≠ 0 → y.ctx.toNat ≠ c
  wgs : ∀ y ∈ t.wgs, y.ctx.toNat ≠ c
  reqs : ∀ y ∈ t.reqs, y.ctx ≠ BitVec.ofNat 3 c
  cards : ∀ y ∈ t.cards, y.ctx ≠ BitVec.ofNat 3 c
  slots : ∀ y ∈ t.tasks.slots, y.ctx = BitVec.ofNat 3 c → y.state = .free
  ready : ∀ y ∈ t.tasks.ready, y.ctx ≠ BitVec.ofNat 3 c
  launches : ∀ y ∈ t.launches, y.ctx ≠ BitVec.ofNat 3 c
  firing : ∀ l ∈ s.launches, l.ctx = BitVec.ofNat 3 c → (s.ttOf n).launch = some l.key → (t.ttOf n).last = 6 ∧ (t.ttOf n).launch = none
  tlb : ∀ y ∈ t.mem.tlb, y.ctx ≠ BitVec.ofNat 3 c
  saved : ∀ y ∈ t.ctl.saved, y.ctx ≠ c

/-- The firing of a launch that ends shows it. -/
theorem State.ttOf_endLaunches {s : State} {n : Nat} {ctx : BitVec 3} {l : Launch} (hl : l ∈ s.launches) (hc : l.ctx = ctx) (ht : (s.ttOf n).launch = some l.key) :
    ((s.endLaunches ctx).ttOf n).last = 6 ∧ ((s.endLaunches ctx).ttOf n).launch = none := by
  have hends : s.endsLaunch ctx (s.ttOf n) = true := by
    simp only [State.endsLaunch, ht]
    exact List.contains_iff_mem.2 (List.mem_map_of_mem (List.mem_filter.2 ⟨hl, by simp [hc]⟩))
  have hget : getKey TtEntry.n n s.ctl.tt = some (s.ttOf n) := by
    cases h : getKey TtEntry.n n s.ctl.tt with
    | none =>
      rw [State.ttOf, h] at ht
      exact absurd ht (by simp)
    | some e => rw [State.ttOf, h, Option.getD_some]
  have hcomp : (fun e : TtEntry => e.n == n) ∘ (fun e => if s.endsLaunch ctx e then { e with last := 6, launch := none } else e) = fun e : TtEntry => e.n == n := by
    funext e
    rw [Function.comp_apply]
    split <;> rfl
  have hafter : (s.endLaunches ctx).ttOf n = { s.ttOf n with last := 6, launch := none } := by
    rw [State.ttOf, State.endLaunches, getKey, updWhere, List.find?_map, hcomp]
    unfold getKey at hget
    rw [hget, Option.map_some, Option.getD_some, if_pos hends]
  rw [hafter]
  exact ⟨rfl, rfl⟩

/-- A teardown leaves nothing of its context. -/
theorem State.tornDown_tearDown (s : State) (c n : Nat) : s.TornDown (s.tearDown c) c n := by
  have hkeeps := s.keepsControl_endWork c
  obtain ⟨htt, -, -⟩ := hkeeps.ctl_eq
  rw [State.tearDown_eq]
  generalize (s.endWork c).uidsOf (BitVec.ofNat 3 c) = uids
  constructor
  case contexts =>
    intro y hy hn
    obtain ⟨k, rfl⟩ := State.of_mem_mapCtx (s := s.endWork c) (f := fun c => { c with state := .empty, ctxd := c.ctxd &&& 0x7FFFFFFFFFFFFFFF }) hy hn
    exact ⟨rfl, by simp⟩
  case warps => exact fun y hy => State.ctx_of_mem_warps_clearCtx (s := s.endWork c) hy
  case wgs => exact fun y hy => State.ctx_of_mem_wgs_clearCtx (s := s.endWork c) hy
  case reqs => exact fun y hy => by simpa using (List.mem_filter.1 hy).2
  case cards => exact fun y hy => by simpa using (List.mem_filter.1 hy).2
  case slots =>
    intro y hy hc
    obtain ⟨x, -, rfl⟩ := List.mem_map.1 hy
    by_cases hx : (x.ctx == BitVec.ofNat 3 c && x.state != .free) = true
    · rw [if_pos hx]
      rfl
    · rw [if_neg hx] at hc ⊢
      simpa [hc] using hx
  case ready => exact fun y hy => by simpa using (List.mem_filter.1 hy).2
  case launches =>
    intro y hy
    have hmem : y ∈ (s.endWork c).launches := hy
    rw [hkeeps.launches] at hmem
    simpa using (List.mem_filter.1 hmem).2
  case firing =>
    intro l hl hc ht
    rw [State.ttOf_congr (t := ((s.endWork c).clearCtx c).emptyCtx c uids) htt]
    exact State.ttOf_endLaunches hl hc ht
  case tlb => exact fun y hy => by simpa using (List.mem_filter.1 hy).2
  case saved => exact fun y hy => by simpa using (List.mem_filter.1 hy).2

/-! ## Teardown (R213) -/

section
variable {s : State} {n : Nat} {k : Context} (hk : getKey Context.n n s.ctl.ctxs = some k)
include hk

/-- A READY or FAILED context is torn down. -/
theorem State.teardown_of_idle (h : k.state = .ready ∨ k.state = .failed) : s.teardown n = s.tearDown n := by
  rw [State.teardown, State.ctxOf_eq hk]
  rcases h with h | h <;> rw [h]

/-- An EMPTY or SWITCHING one is left. -/
theorem State.teardown_eq_self (h : k.state = .empty ∨ k.state = .switching) : s.teardown n = s := by
  rw [State.teardown, State.ctxOf_eq hk]
  rcases h with h | h <;> rw [h]

/-- A RUNNING one is first stopped. -/
theorem State.teardown_of_running (h : k.state = .running) : s.teardown n = { (s.setCtx n .switching).dropUnaccepted n with
    ctl := { ((s.setCtx n .switching).dropUnaccepted n).ctl with
      switch := some ⟨.stopping, some n, none, none, s.tideOf 12, 0, true, (s.warps.filter fun w => w.uid != 0 && w.ctx.toNat == n).map (·.uid), []⟩ } } := by
  rw [State.teardown, State.ctxOf_eq hk, h]

end

/-- What a context that is stopped has accepted has completed, and its queues have stopped at a message boundary. -/
structure State.Drains (s : State) (c : Nat) : Prop where
  reqs : ∀ r ∈ s.reqs, r.ctx.toNat = c → r.survives = true → r.open = false
  arrays : ∀ a ∈ s.ctxArrays c, a.axms = []
  cards : ∀ k ∈ s.cards, k.ctx.toNat = c → k.phase ≠ .run ∧ k.phase ≠ .done
  queues : ∀ q ∈ s.ctxQueues c, (s.queueRec q).paused = true

/-- Some accepted work of a context is under way. -/
def State.busy (s : State) (n : Nat) : Bool := (s.reqs.any fun r => r.ctx.toNat == n && r.survives && r.open)
  || (s.ctxArrays n).any (fun a => !a.axms.isEmpty)
  || (s.cards.any fun k => k.ctx.toNat == n && (k.phase == .run || k.phase == .done))
  || (s.ctxQueues n).any fun q => !(s.queueRec q).paused

theorem State.busy_eq_false_iff (s : State) (c : Nat) : s.busy c = false ↔ s.Drains c := by
  constructor
  · intro h
    simp only [State.busy, Bool.or_eq_false_iff, List.any_eq_false] at h
    obtain ⟨⟨⟨hr, ha⟩, hk⟩, hq⟩ := h
    exact ⟨fun r hm hc hs => by simpa [hc, hs] using hr r hm, fun a hm => by simpa using ha a hm, fun k hm hc => by simpa [hc] using hk k hm,
      fun q hm => by simpa using hq q hm⟩
  · rintro ⟨hr, ha, hk, hq⟩
    simp only [State.busy, Bool.or_eq_false_iff, List.any_eq_false]
    refine ⟨⟨⟨fun r hm => ?_, fun a hm => by simp [ha a hm]⟩, fun k hm => ?_⟩, fun q hm => by simp [hq q hm]⟩
    · have := hr r hm
      grind
    · have := hk k hm
      grind

/-- A context that was stopped is torn down once it is not busy. -/
theorem State.exec_contextStopDone {s : State} {x : Switch} {c : Nat} (hx : s.ctl.switch = some x) (ht : x.teardown = true) (hl : x.leaving = some c) :
    exec (.contextStopDone c) s = .next (if s.busy c then s else State.tearDown { s with ctl := { s.ctl with switch := none } } c) := by
  have hexec : exec (.contextStopDone c) s = .next (if !s.busy c then State.tearDown { s with ctl := { s.ctl with switch := none } } c else s) := by
    change execContextStopDone c s = _
    simp only [execContextStopDone, hx, ht, hl, beq_self_eq_true, Bool.true_and]
    rfl
  rw [hexec]
  cases s.busy c <;> rfl

end Sys2Proof.Machine
end

section
/-! PROOFS. What each event of contexts and gang switching completes with (O59 holds). -/

namespace Sys2Proof.Machine

/-! ## The switch out (R216, R219 to R221) -/

section
variable {s : State} {x : Switch} {c : Nat} (hx : s.ctl.switch = some x) (hs : x.Stopping c)
include hx hs

/-- A warp of the context stops once its die has begun the switch and nothing holds it, and else goes on. -/
theorem State.completes_warpStop {core pos : Nat} {w : Warp} (hw : s.warpAt core pos = some w) (hc : w.ctx.toNat = c) (hf : s.frozen w.uid = false)
    (hr : w.hasExited = false ∨ w.inHandler = true) :
    (x.start ≤ s.tideOf (core / 24) → s.stops w = true → s.Completes (.warpStop core pos) fun t => t = { s with ctl := { s.ctl with switch := t.ctl.switch } }
      ∧ t.ctl.switch = some { x with stopped := x.stopped ++ [w.uid] } ∧ t.frozen w.uid = true)
    ∧ (s.tideOf (core / 24) < x.start ∨ s.stops w = false → s.Completes (.warpStop core pos) fun t => t = s) := by
  have hexec := State.exec_warpStop hx hs hw hc hf hr
  refine ⟨fun hstart hstops => ?_, fun hwait => ⟨s, ?_, rfl⟩⟩
  · rw [if_pos ⟨hstart, hstops⟩, State.stopWarps_eq hx] at hexec
    exact ⟨_, hexec, rfl, rfl, State.frozen_of_mem_stopped rfl (List.mem_append_right _ List.mem_cons_self)⟩
  · rw [hexec, if_neg]
    rintro ⟨hstart, hstops⟩
    exact hwait.elim (Nat.not_lt.2 hstart) (Bool.eq_false_iff.1 · hstops)

/-- Once it is drained and every die has begun, the context is saved and READY; the switch goes on with the one that enters, or ends. -/
theorem State.completes_switchSaveComplete (hd : s.drained c = true) (hb : s.allBegun = true) : s.Completes .switchSaveComplete fun t => s.SavedFrom t c
    ∧ (x.entering = none → t.ctl.switch = none ∧ ∀ n, x.entry = some n → (s.ttOf n).last = 1 → (t.ttOf n).last = 2)
    ∧ (x.entering ≠ none → t.ctl.switch = some { x with phase := .restoring, leaving := none, stopped := [], tables := [] }) := by
  have hexec := State.exec_switchSaveComplete hx hs hd hb
  obtain ⟨hsaved, hswitch, htt⟩ := s.savedFrom_saveCtx c
  generalize (s.saveCtx c).setCtx c .ready = u at hexec hsaved hswitch htt
  cases he : x.entering with
  | none =>
    rw [he, if_neg (by decide)] at hexec
    obtain ⟨tt, hrest⟩ := State.switchLast_rest { u with ctl := { u.ctl with switch := none } } x.entry 2
    refine ⟨_, hexec, ?_, fun _ => ⟨by rw [hrest], fun n hn hlast => ?_⟩, fun h => absurd rfl h⟩
    · rw [hrest]
      exact ⟨hsaved.cards, hsaved.ready, hsaved.warps, hsaved.wgs, hsaved.kept⟩
    · rw [hn]
      refine State.last_switchLast ?_ 2
      rw [← hlast]
      exact congrArg TtEntry.last (State.ttOf_congr htt n)
  | some e =>
    rw [he, Option.isSome_some, if_pos rfl] at hexec
    refine ⟨_, hexec, ⟨hsaved.cards, hsaved.ready, hsaved.warps, hsaved.wgs, hsaved.kept⟩, fun h => absurd h (by simp), fun _ => ?_⟩
    rw [State.mapSwitch, hswitch, hx, ← he]
    rfl

end

/-- A queue of the context that leaves pauses once every entry stands at a message boundary, and else goes on. -/
theorem State.completes_queuePause {s : State} {x : Switch} {c q : Nat} (hx : s.ctl.switch = some x) (hp : x.phase = .stopping) (hl : x.leaving = some c)
    (hbegun : x.teardown = true ∨ x.start ≤ s.tideOf (q / 64)) (hb : (s.queueRec q).bound = true) (hc : (s.queueRec q).ctx.toNat = c)
    (hn : (s.queueRec q).paused = false) :
    ((∀ e ∈ s.queued q, s.atBoundary e = true) → exec (.queuePause q) s = .next (s.pauseQueue q))
    ∧ ((∃ e ∈ s.queued q, s.atBoundary e = false) → exec (.queuePause q) s = .next s) := by
  have hexec := State.exec_queuePause hx hp hl hbegun hb hc hn
  refine ⟨fun hall => ?_, fun ⟨e, he, hat⟩ => ?_⟩
  · rw [hexec, if_pos (List.all_eq_true.2 hall)]
  · rw [hexec, if_neg]
    exact fun hall => absurd (List.all_eq_true.1 hall e he) (Bool.eq_false_iff.1 hat)

/-! ## The switch in (R214, R222) -/

/-- From s to t the workgroups, windows, warps and arrays that are kept of a context come back, warps at their places and arrays not in compute mode. -/
structure State.Reinstates (s t : State) (z : SavedCtx) : Prop where
  wgs : t.wgs = s.wgs ++ z.wgs
  windows : t.copy.windows = s.copy.windows ++ z.windows
  warps : ∀ y ∈ z.warps, y.uid ≠ 0 → ∃ y' ∈ t.warps, y'.uid = y.uid ∧ y'.core = y.core ∧ y'.pos = y.pos ∧ y'.wg = y.wg
  arrays : ∀ a ∈ z.arrays, ∃ a' ∈ t.arrays, a'.core = a.core ∧ a'.phys = a.phys ∧ a'.mode = (if a.mode = 1 then 2 else a.mode) ∧ a'.flips = []

/-- Without requests and held writes a context that is restored and runs is reinstated. -/
theorem State.reinstates_resumed (s : State) (c base : Nat) (z : SavedCtx) (uids : List Nat) (hr : s.reqs = []) (hh : s.ctl.heldWrites = []) :
    s.Reinstates ((s.restoreCtx base z).resumed c uids) z := by
  obtain ⟨hwgs, hwindows, harrays, hplaces⟩ := State.resumed_idle (s := s.restoreCtx base z) hr hh c uids
  refine ⟨hwgs, hwindows, fun y hy _ => ?_, fun a ha => ?_⟩
  · obtain ⟨y1, hy1, hplace1⟩ := State.mem_warps_restoreCtx (s := s) (base := base) hy
    obtain ⟨y2, hy2, hplace2⟩ := List.mem_map.1 (hplaces ▸ List.mem_map_of_mem hy1)
    have hplace := hplace2.trans hplace1
    simp only [Warp.place, Prod.mk.injEq] at hplace
    exact ⟨y2, hy2, hplace⟩
  · have hmem := State.mem_arrays_restoreCtx (s := s) (base := base) ha
    rw [← harrays] at hmem
    exact ⟨_, hmem, rfl, rfl, rfl, rfl⟩

section
variable {s : State} {x : Switch} {c : Nat} {k : Context} (hx : s.ctl.switch = some x) (hp : x.phase = .restoring) (he : x.entering = some c)
  (hb : s.allBegun = true) (hclean : s.mem.Clean) (hk : getKey Context.n c s.ctl.ctxs = some k)
include hx hp he hb hclean hk

/-- A bad descriptor fails the switch-in. -/
theorem State.completes_switchIn_of_none (hd : descriptorOf (readBytes s.mem.home (descAddr k.ctxd) 128) = none) : s.Completes .switchIn fun t =>
    (getKey Context.n c t.ctl.ctxs).map (fun y => (y.state, y.err)) = some (.failed, 1) ∧ t.ctl.switch = none ∧ t.notices = s.notices + 1
    ∧ ∀ n, x.entry = some n → (s.ttOf n).last = 1 → (t.ttOf n).last = 7 := by
  obtain ⟨l2, hread⟩ := State.readDescriptor_eq hclean hk
  rw [hd] at hread
  obtain ⟨hctx, hswitch, hnotices, -⟩ := State.failSwitchIn_spec (s := s.withL2 l2) hk 1 x.entry
  refine ⟨_, State.exec_switchIn_of_none hx hp he hb hread, hctx, hswitch, hnotices, fun n hn hlast => ?_⟩
  rw [hn]
  exact State.last_failSwitchIn (s := s.withL2 l2) hlast c 1

variable {d : List DWord} (hd : descriptorOf (readBytes s.mem.home (descAddr k.ctxd) 128) = some d)
include hd

/-- With a good descriptor the areas of the warps decide whether the context comes back. -/
theorem State.exec_switchIn_of_descriptor : ∃ l2, exec .switchIn s = .next (
    if (s.savedOf c).warps.any (s.rejects (d.getD 5 0).toNat) then ((s.withL2 l2).described c d).failSwitchIn c 2 x.entry
    else ((((s.withL2 l2).described c d).restoreCtx (d.getD 5 0).toNat (s.savedOf c)).resumed c ((s.savedOf c).warps.map (·.uid))).switchLast x.entry 2) := by
  obtain ⟨l2, hread⟩ := State.readDescriptor_eq hclean hk
  rw [hd] at hread
  have hexec := State.exec_switchIn_of_some hx hp he hb hread
  rw [State.descOf_described (s := s.withL2 l2) hk] at hexec
  exact ⟨l2, hexec⟩

/-- An area that is rejected fails the switch-in, and nothing is restored. -/
theorem State.completes_switchIn_of_rejects (hr : ∃ y ∈ (s.savedOf c).warps, s.rejects (d.getD 5 0).toNat y = true) : s.Completes .switchIn fun t =>
    (getKey Context.n c t.ctl.ctxs).map (fun y => (y.state, y.err)) = some (.failed, 2) ∧ t.ctl.switch = none ∧ t.notices = s.notices + 1
    ∧ t.warps = s.warps ∧ t.wgs = s.wgs ∧ t.arrays = s.arrays ∧ ∀ n, x.entry = some n → (s.ttOf n).last = 1 → (t.ttOf n).last = 7 := by
  obtain ⟨l2, hexec⟩ := State.exec_switchIn_of_descriptor hx hp he hb hclean hk hd
  rw [if_pos (List.any_eq_true.2 hr)] at hexec
  have hget := State.getKey_mapCtx (f := fun y => { y with desc := d }) (fun _ => rfl) (s.withL2 l2) c
  rw [show getKey Context.n c (s.withL2 l2).ctl.ctxs = some k from hk] at hget
  obtain ⟨hctx, hswitch, hnotices, hwarps, hwgs, harrays⟩ := State.failSwitchIn_spec (s := (s.withL2 l2).described c d) hget 2 x.entry
  refine ⟨_, hexec, hctx, hswitch, hnotices, hwarps, hwgs, harrays, fun n hn hlast => ?_⟩
  rw [hn]
  exact State.last_failSwitchIn (s := (s.withL2 l2).described c d) hlast c 2

/-- Else the context runs again with its queues, and stands on its cores as it was kept. -/
theorem State.completes_switchIn_of_not_rejects (hr : ∀ y ∈ (s.savedOf c).warps, ¬s.rejects (d.getD 5 0).toNat y = true) : s.Completes .switchIn fun t =>
    (getKey Context.n c t.ctl.ctxs).map (fun y => (y.state, y.desc)) = some (.running, d) ∧ t.ctl.switch = none
    ∧ (∀ y ∈ t.mem.icache, y.ctx.toNat ≠ c) ∧ (∀ q ∈ s.ctxQueues c, (t.queueRec q).paused = false)
    ∧ (∀ n, x.entry = some n → (s.ttOf n).last = 1 → (t.ttOf n).last = 2)
    ∧ (s.reqs = [] → s.ctl.heldWrites = [] → s.Reinstates t (s.savedOf c)) := by
  obtain ⟨l2, hexec⟩ := State.exec_switchIn_of_descriptor hx hp he hb hclean hk hd
  rw [if_neg (by simpa using hr)] at hexec
  have hget := State.getKey_mapCtx (f := fun y => { y with desc := d }) (fun _ => rfl) (s.withL2 l2) c
  rw [show getKey Context.n c (s.withL2 l2).ctl.ctxs = some k from hk] at hget
  generalize s.savedOf c = z at hexec ⊢
  generalize z.warps.map (·.uid) = uids at hexec
  have hidle := ((s.withL2 l2).described c d).reinstates_resumed c (d.getD 5 0).toNat z uids
  have hpaused : ∀ q ∈ s.ctxQueues c, (((((s.withL2 l2).described c d).restoreCtx (d.getD 5 0).toNat z).resumed c uids).queueRec q).paused = false :=
    fun q hq => State.paused_resumed hq
  obtain ⟨hctx, hswitch, htt⟩ := (((s.withL2 l2).described c d).restoreCtx (d.getD 5 0).toNat z).ctl_resumed c uids
  replace hctx := hctx.trans (congrArg (Option.map fun y : Context => { y with state := .running }) hget)
  have hicache := @State.ctx_of_mem_icache_resumed (((s.withL2 l2).described c d).restoreCtx (d.getD 5 0).toNat z) c uids
  generalize (((s.withL2 l2).described c d).restoreCtx (d.getD 5 0).toNat z).resumed c uids = u at *
  obtain ⟨tt, hrest⟩ := u.switchLast_rest x.entry 2
  refine ⟨_, hexec, ?_, ?_, ?_, ?_, fun n hn hlast => ?_, fun hreqs hheld => ?_⟩
  · rw [hrest]
    exact congrArg (Option.map fun y : Context => (y.state, y.desc)) hctx
  · rw [hrest]
    exact hswitch
  · rw [hrest]
    exact fun y => hicache
  · rw [hrest]
    exact hpaused
  · rw [hn]
    exact State.last_switchLast ((congrArg TtEntry.last (State.ttOf_congr (s := s) htt n)).trans hlast) 2
  · obtain ⟨hwgs, hwindows, hwarps, harrays⟩ := hidle hreqs hheld
    rw [hrest]
    exact ⟨hwgs, hwindows, hwarps, harrays⟩

end

/-- What is kept of a context, as a statement finds it. -/
theorem State.savedOf_eq {s : State} {c : Nat} {z : SavedCtx}
    (h : ((∀ y ∈ s.ctl.saved, y.ctx ≠ c) ∧ z = ⟨c, [], [], [], [], []⟩) ∨ (s.ctl.saved.find? fun y => y.ctx == c) = some z) : s.savedOf c = z := by
  rcases h with ⟨hnone, rfl⟩ | hsome
  · rw [State.savedOf, List.find?_eq_none.2 (by simpa using hnone)]
    rfl
  · rw [State.savedOf, hsome]
    rfl

/-! ## Teardown (R213) -/

/-- A RUNNING context is SWITCHING while a teardown stops it, and its warps no longer run. -/
theorem State.stopping_teardown {s : State} {c : Nat} {k : Context} (hk : getKey Context.n c s.ctl.ctxs = some k) (h : k.state = .running) :
    (∀ y ∈ (s.teardown c).ctl.ctxs, y.n = c → y.state = .switching)
    ∧ ((s.teardown c).ctl.switch.map fun y => (y.teardown, y.leaving)) = some (true, some c) ∧ (s.teardown c).mem = s.mem
    ∧ ∀ y ∈ s.warps, y.uid ≠ 0 → y.ctx.toNat = c → (s.teardown c).frozen y.uid = true := by
  rw [State.teardown_of_running hk h]
  refine ⟨fun y hy hn => State.state_of_mem_setCtx hy hn, rfl, rfl, fun y hy h0 hc => State.frozen_of_mem_stopped rfl ?_⟩
  exact List.mem_map_of_mem (List.mem_filter.2 ⟨hy, by simp [h0, hc]⟩)

/-- Settles O59: each event is evaluated to one state, and the lemmas about the operations that make that state say what it leaves. -/
theorem contextEvents : Obligations.ContextEvents := by
  intro s core pos c q n w x v d k z leaves stoppingFrom onlySwitch clean at' last refused cleared drains rejected
  have hstopping : stoppingFrom → s.ctl.switch = some x ∧ x.Stopping c := fun ⟨⟨hx, hp, hl⟩, ht⟩ => ⟨hx, hp, hl, ht⟩
  have hcleared : ∀ {u t : State}, u.TornDown t c n → u.launches = s.launches → u.ttOf n = s.ttOf n → cleared t := by
    rintro u t ⟨hctxs, hwarps, hwgs, hreqs, hcards, hslots, hready, hlaunches, hfiring, htlb, hsaved⟩ hl htt
    rw [hl, htt] at hfiring
    exact ⟨hctxs, hwarps, hwgs, hreqs, hcards, hslots, hready, hlaunches, hfiring, htlb, hsaved⟩
  refine ⟨?warpStop, ?deadline, ?queuePause, ?save, ?saveWaits, ?switchInWaits, ?switchIn, ?refused, ?activate, ?teardown, ?stopDone⟩
  case warpStop =>
    intro hs hw hc hf hr
    obtain ⟨hx, hs⟩ := hstopping hs
    exact State.completes_warpStop hx hs hw hc hf hr
  case deadline =>
    intro hs
    obtain ⟨hx, hs⟩ := hstopping hs
    exact State.completes_of_eq (State.exec_switchStopDeadline hx hs) (State.stopWarps_eq hx _) ⟨rfl, rfl⟩
  case queuePause =>
    rintro ⟨hx, hp, hl⟩ hbegun hb hc hn
    obtain ⟨hpause, hgoOn⟩ := State.completes_queuePause hx hp hl hbegun hb hc hn
    exact ⟨fun hall => ⟨_, hpause hall, s.pauseQueue_spec q⟩, fun hex => ⟨s, hgoOn hex, rfl⟩⟩
  case save =>
    intro hs hd hb
    obtain ⟨hx, hs⟩ := hstopping hs
    obtain ⟨t, hexec, ⟨hcards, hready, hwarps, hwgs, hkept⟩, hends, hgoesOn⟩ := State.completes_switchSaveComplete hx hs hd hb
    exact ⟨t, hexec, hcards, hready, hwarps, hwgs, hkept, fun he => (hends he).imp_right fun h => h n, hgoesOn⟩
  case saveWaits =>
    intro hs hwait
    obtain ⟨hx, hs⟩ := hstopping hs
    exact ⟨s, State.exec_switchSaveComplete_waits hx hs (hwait.imp_right (State.allBegun_eq_false hx)), rfl⟩
  case switchInWaits =>
    exact fun hx hp hwait => ⟨s, State.exec_switchIn_waits hx hp (State.allBegun_eq_false hx hwait), rfl⟩
  case switchIn =>
    intro hx hp he hb hclean hk
    refine ⟨fun hd => ?_, fun hd => ⟨fun hz hr => ?_, fun hz hr => ?_⟩⟩
    · obtain ⟨t, hexec, hctx, hswitch, hnotices, hlast⟩ := State.completes_switchIn_of_none hx hp he hb hclean hk hd
      exact ⟨t, hexec, hctx, hswitch, hnotices, hlast n⟩
    · obtain rfl := State.savedOf_eq (.inr hz)
      simp only [rejected, ← State.rejects_iff] at hr
      obtain ⟨t, hexec, hctx, hswitch, hnotices, hwarps, hwgs, harrays, hlast⟩ := State.completes_switchIn_of_rejects hx hp he hb hclean hk hd hr
      exact ⟨t, hexec, hctx, hswitch, hnotices, hwarps, hwgs, harrays, hlast n⟩
    · obtain rfl := State.savedOf_eq hz
      simp only [rejected, ← State.rejects_iff] at hr
      obtain ⟨t, hexec, hctx, hswitch, hicache, hqueues, hlast, hidle⟩ := State.completes_switchIn_of_not_rejects hx hp he hb hclean hk hd hr
      refine ⟨t, hexec, hctx, hswitch, hicache, hqueues, hlast n, fun hreqs hheld => ?_⟩
      obtain ⟨hwgs, hwindows, hwarps, harrays⟩ := hidle hreqs hheld
      exact ⟨hwgs, hwindows, hwarps, harrays⟩
  case refused =>
    exact fun hc => ⟨fun hg => State.completes_of_eq (exec_ctxdActivate hc s v) (State.estuary_refused hg _) rfl,
      fun hg => State.completes_of_eq (exec_ctxdTeardown hc s) (State.estuary_refused hg _) rfl⟩
  case activate =>
    intro hc hg hk
    have hexec := exec_ctxdActivate hc s v
    refine ⟨fun he hv hclean => ?_, fun h => ?_⟩
    · obtain ⟨hswitch, hcur⟩ := State.activate_rest hk he hv hclean
      exact State.completes_of_eq hexec (State.estuary_granted hg _) ⟨hswitch, hcur, State.ready_activate hk he hv hclean, State.error_activate hk he hv hclean⟩
    · exact State.completes_of_eq hexec (State.estuary_granted hg _) (State.activate_eq_self hk h)
  case teardown =>
    intro hc hg hk
    have hexec := exec_ctxdTeardown hc s
    rw [State.estuary_granted hg] at hexec
    refine ⟨fun h => ?_, fun h => ⟨_, hexec, State.stopping_teardown hk h⟩, fun h => ⟨_, hexec, State.teardown_eq_self hk h⟩⟩
    rw [State.teardown_of_idle hk h] at hexec
    exact ⟨_, hexec, hcleared (s.tornDown_tearDown c n) rfl rfl⟩
  case stopDone =>
    intro _ hx ht hl
    have hexec := State.exec_contextStopDone hx ht hl
    refine ⟨fun hd => ?_, fun hd => ?_⟩
    · obtain ⟨hreqs, harrays, hcards, hqueues⟩ := hd
      rw [(s.busy_eq_false_iff c).2 ⟨hreqs, harrays, hcards, hqueues⟩] at hexec
      exact ⟨_, hexec, hcleared (State.tornDown_tearDown { s with ctl := { s.ctl with switch := none } } c n) rfl rfl⟩
    · have hbusy : s.busy c = true := by
        by_contra hidle
        obtain ⟨hreqs, harrays, hcards, hqueues⟩ := (s.busy_eq_false_iff c).1 (Bool.eq_false_iff.2 hidle)
        exact hd ⟨hreqs, harrays, hcards, hqueues⟩
      rw [hbusy, if_pos rfl] at hexec
      exact ⟨s, hexec, rfl⟩

end Sys2Proof.Machine
end

section
/-! PROOFS. A `CHAIN` that has waited for slots does not check its upstream handles again at issue (O50 fails). -/

namespace Sys2Proof.Machine

/-! ## A CHAIN issues again with a handle that has become stale (R172, R177, R310)

The last clause of `Obligations.HandleInstructionResults` says that a `CHAIN` whose lowest stale upstream handle is that of lane `l0` takes cause 11 at issue. A `CHAIN` that
has waited for slots issues again with what it read before (`State.readBefore`) and checks nothing at issue: its upstream check is then the answer of the homes. The
clause does not ask that nothing has been read before. -/

/-- The null record that lane 0 of the warp read before it waited for slots. -/
def readRecord : SlotRead := ⟨0, 1, [(0, List.replicate 8 0)], [(0, 0)]⟩

/-- A warp with a handler, whose instruction at address 0 has read its record; every register holds 0, which is no handle. -/
def waitedWarp : Warp := { oneLaneWarp with hdr := { oneLaneWarp.hdr with traph := 0x2000 }, reads := [readRecord] }

/-- The warp issues again once slots are free. -/
def chainWaited : State := { State.reset with cur := waitedWarp, nextId := 3 }

/-- The warp may enter its handler. -/
theorem takesTraps_chainWaited : chainWaited.TakesTraps := ⟨rfl, by decide +kernel, rfl⟩

/-- The `CHAIN` may be issued: its registers may be named, lane 0 is active and slots are free for registers 0 and 1. -/
theorem ready_chainWaited : chainWaited.Ready trueGuard [0, 0 + 1, 10, 10 + 1, 12, 12 + 1] [0, 0 + 1] false where
  named := by decide +kernel
  some := by decide +kernel
  room := .inr (by unfold State.HasRoom; decide +kernel)

/-- The `CHAIN` takes its slot and enters no handler. -/
theorem exec_chainWaited {t : State} (h : exec (.chain trueGuard 0 10 12) chainWaited = .next t) : t.cur.arch.handler = none := by
  have key : (match exec (.chain trueGuard 0 10 12) chainWaited with | .next t => t.cur.arch.handler | _ => none) = none := by decide +kernel
  rw [h] at key
  exact key

/-- Refutes O50: the upstream handle of `chainWaited` is stale, yet its `CHAIN` enters no handler. -/
theorem not_handleInstructionResults : ¬ Obligations.HandleInstructionResults := by
  intro h
  have hc := h chainWaited trueGuard 0 10 12 0 0 0 ⟨0, 0, 0, true, .free, 0, false, none, none, [], [], false, none, none, 0, [], 0, (0, 0)⟩ 0
  obtain ⟨-, -, -, -, -, -, -, hstale⟩ := hc (by decide +kernel)
  obtain ⟨t, he, henter⟩ := hstale takesTraps_chainWaited ready_chainWaited (by decide) (by decide +kernel) (by decide +kernel) fun l hl => absurd hl l.not_lt_zero
  have hnone := exec_chainWaited he
  rw [henter] at hnone
  exact Option.some_ne_none _ hnone

end Sys2Proof.Machine
end

section
/-! PROOFS. An `INVOKE` places its task through a page-table entry that the read of its record has recalled (O49 fails). -/

namespace Sys2Proof.Machine

/-! ## The walk of PLACE after the record has been read (R119, R126, R169, R178)

The clause of `Obligations.InvokeAndChainResults` for `INVOKE` without a named core says that the task of a valid record goes to the core that `State.placeCore`
finds in the state before. The records are read first, as a load reads them, and a load recalls the line of its bytes; PLACE is walked in the state after that.
Where a page-table entry lies in the line of a record and another die's L2 holds it dirty, the walk finds the entry that the recall has brought home. -/

/-- The cells of home memory that hold the page table of `headerHome`, whose second gigabyte has no entry, and a record at 0x20040, in the line of the table of level 2.
The record is zero but for PLACE, 0x40000800. -/
def recordHome : List Host.Cell := headerHome ++ [(0x20069, 0x08), (0x2006B, 0x40)]

/-- The L2 of die 1 holds dirty the entry of the second gigabyte, which maps it to the addresses from 0 on. -/
def dirtyEntry : L2Sector := ⟨1, 0x800, none, List.replicate 8 ⟨0, none⟩ ++ [⟨0x0B, none⟩], 0x100, false, 0⟩

/-- The warp of `oneLaneWarp` with the address of the record in register 10. -/
def invokingWarp : Warp := { oneLaneWarp with arch := { oneLaneWarp.arch with vregs := oneLaneWarp.arch.vregs.set 10 (.u 0x20040) } }

/-- The warp is about to invoke a task whose PLACE stands in the second gigabyte. -/
def placeUnderRecall : State :=
  { cardUnderStore with cur := invokingWarp, mem := { State.reset.mem with home := recordHome, l2 := [dirtyEntry] } }

/-- The `INVOKE` may be issued: its registers may be named, lane 0 is active and slots are free for registers 0 and 1. -/
theorem ready_placeUnderRecall : placeUnderRecall.Ready trueGuard ([0, 0 + 1, 10, 10 + 1] ++ []) [0, 0 + 1] false where
  named := by decide +kernel
  some := by decide +kernel
  room := .inr (by unfold State.HasRoom; decide +kernel)

/-- Lane 0 alone is active. -/
theorem active_placeUnderRecall : (List.range 128).filter (placeUnderRecall.active trueGuard) = [0] := by decide +kernel

/-- Its record has its place at its address, with no error. -/
theorem blockLane_placeUnderRecall : placeUnderRecall.blockLane 0 (placeUnderRecall.rdPair 10 0) 64 = .ok (0x20040, 0) := by decide +kernel

/-- The task goes to core 1. -/
theorem exec_placeUnderRecall {t : State} (h : exec (.invoke trueGuard 0 10) placeUnderRecall = .next t) : t.tasks.ready.map (·.core) = [1] := by
  have key : (match exec (.invoke trueGuard 0 10) placeUnderRecall with | .next t => t.tasks.ready.map (·.core) | _ => []) = [1] := by decide +kernel
  rw [h] at key
  exact key

/-- Refutes O49: the task of `placeUnderRecall` goes to core 1, and not to core 0, the warp's own, which PLACE selects
before the record is read, when it has no translation. -/
theorem not_invokeAndChainResults : ¬ Obligations.InvokeAndChainResults := by
  intro h
  obtain ⟨hinvoke, -⟩ := h placeUnderRecall trueGuard 0 10 0 0 fun _ => (0, 0)
  have hplace : ∀ l ∈ (List.range 128).filter (placeUnderRecall.active trueGuard), (placeUnderRecall.rdPair 10 l).toNat % 64 = 0
      ∧ ∃ p, placeUnderRecall.blockLane l (placeUnderRecall.rdPair 10 l) 64 = .ok p := by
    intro l hl
    rw [active_placeUnderRecall, List.mem_singleton] at hl
    subst hl
    exact ⟨by decide +kernel, _, blockLane_placeUnderRecall⟩
  obtain ⟨t, he, handle, -, -, -, -, -, -, -, -, -, -, hlanes⟩ :=
    hinvoke ready_placeUnderRecall (by decide +kernel) (by decide +kernel) hplace (by decide +kernel)
  obtain ⟨-, x, -, -, -, -, -, hvalid, -⟩ := hlanes 0 (by decide +kernel)
  obtain ⟨-, -, hready⟩ := hvalid (by decide +kernel)
  have hcore := List.mem_map_of_mem (f := ReadyTask.core) hready
  rw [exec_placeUnderRecall he, List.mem_singleton] at hcore
  dsimp only at hcore
  exact absurd hcore (by decide +kernel)

end Sys2Proof.Machine
end

section
/-! PROOFS. A scratchpad access that its arrays accept and make at once (for O48). -/

namespace Sys2Proof.Machine

/-! ## What the arrays have accepted (R99)

An access that goes whole enters the queues of its arrays and leaves them again. What stands before it in a queue does not change meanwhile. -/

/-- An array without what it has accepted. -/
def ArrayRec.unqueued (a : ArrayRec) : ArrayRec := { a with queue := [] }

/-- What an array has accepted before access `id`. -/
def ArrayRec.before (id : Nat) (a : ArrayRec) : List ArrayItem := a.queue.takeWhile fun q => q != .access id

/-- An update of an array that changes only what it has accepted, and of it nothing that stands before access `id`. -/
structure KeepsBefore (id : Nat) (f : ArrayRec → ArrayRec) : Prop where
  unqueued : ∀ a, (f a).unqueued = a.unqueued
  before : ∀ a, (f a).before id = a.before id

/-- Nothing comes to stand before an access when it enters at the end. -/
theorem ArrayRec.before_append (id : Nat) (a : ArrayRec) : ({ a with queue := a.queue ++ [.access id] } : ArrayRec).before id = a.before id := by
  unfold ArrayRec.before
  induction a.queue with
  | nil => simp
  | cons q qs ih => rw [List.cons_append, List.takeWhile_cons, List.takeWhile_cons, ih]

/-- The arrays named accept an access. -/
theorem State.foldl_accept (id : Nat) : ∀ (ps : List (Nat × Nat)) (s : State), ∃ f, KeepsBefore id f
    ∧ ps.foldl (fun (s : State) p => s.mapArray p.1 p.2 fun a => { a with queue := a.queue ++ [.access id] }) s = { s with arrays := s.arrays.map f }
  | [], s => ⟨fun a => a, ⟨fun _ => rfl, fun _ => rfl⟩, by rw [List.map_id']; rfl⟩
  | p :: ps, s => by
    obtain ⟨f, hf, hfold⟩ := State.foldl_accept id ps (s.mapArray p.1 p.2 fun a => { a with queue := a.queue ++ [.access id] })
    refine ⟨fun a => f (if a.core == p.1 && a.phys == p.2 then { a with queue := a.queue ++ [.access id] } else a), ⟨fun a => ?_, fun a => ?_⟩, ?_⟩
    · rw [hf.unqueued]
      split <;> rfl
    · rw [hf.before]
      split
      · exact a.before_append id
      · rfl
    · rw [List.foldl_cons, hfold, State.mapArray_arrays, updWhere, List.map_map]
      rfl

/-- Such an update keeps the place and the mode of an array. -/
theorem KeepsBefore.place {id : Nat} {f : ArrayRec → ArrayRec} (hf : KeepsBefore id f) (a : ArrayRec) :
    (f a).core = a.core ∧ (f a).phys = a.phys ∧ (f a).mode = a.mode :=
  ⟨(congrArg ArrayRec.core (hf.unqueued a) :), (congrArg ArrayRec.phys (hf.unqueued a) :), (congrArg ArrayRec.mode (hf.unqueued a) :)⟩

/-- Each array is found after the update as it was before it. -/
theorem State.arrayOf_map {s u : State} {id : Nat} {f : ArrayRec → ArrayRec} (hf : KeepsBefore id f) (ha : u.arrays = s.arrays.map f) (core phys : Nat) :
    u.arrayOf core phys = (s.arrayOf core phys).map f := by
  have hcomp : (fun a : ArrayRec => a.core == core && a.phys == phys) ∘ f = fun a => a.core == core && a.phys == phys :=
    funext fun a => by rw [Function.comp_apply, (hf.place a).1, (hf.place a).2.1]
  rw [State.arrayOf, ha, List.find?_map, hcomp]
  rfl

/-- The mode of a place stays. -/
theorem State.modeAt_map {s u : State} {id : Nat} {f : ArrayRec → ArrayRec} (hf : KeepsBefore id f) (ha : u.arrays = s.arrays.map f) (cell : Nat) :
    u.modeAt cell = s.modeAt cell := by
  have hmode : ArrayRec.mode ∘ f = ArrayRec.mode := funext fun a => (hf.place a).2.2
  rw [State.modeAt, State.arrayOf_map hf ha, Option.map_map, hmode]
  rfl

/-! ## The requests in flight -/

/-- An update of requests that keeps their numbers, and the accesses of those whose number is not `id`. -/
structure KeepsAccess (id : Nat) (g : Req → Req) : Prop where
  id_eq : ∀ x, (g x).id = x.id
  mem : ∀ x, x.id ≠ id → (g x).mem? = x.mem?

/-- The access of every other request is found when request `r` has entered and some requests have been updated. -/
theorem State.reqOf_entered {s u : State} {r : Req} {g : Req → Req} (hg : KeepsAccess r.id g) (hu : u.reqs = (s.reqs ++ [r]).map g) {k : Nat} (hk : k ≠ r.id) :
    (u.reqOf k).bind Req.mem? = (s.reqOf k).bind Req.mem? := by
  have hcomp : (fun x : Req => x.id == k) ∘ g = fun x => x.id == k := funext fun x => by rw [Function.comp_apply, hg.id_eq]
  have hr : [r].find? (fun x => x.id == k) = none := by simpa using Ne.symm hk
  rw [State.reqOf, hu, List.find?_map, hcomp, List.find?_append, hr, Option.or_none, Option.bind_map, State.reqOf]
  refine Option.bind_congr fun x hx => hg.mem x ?_
  have hid : x.id = k := by simpa using List.find?_some hx
  rw [hid]
  exact hk

/-- An access stands behind nothing after it has entered when nothing stood in its way. -/
theorem State.behind_entered {s u : State} {r : Req} {f : ArrayRec → ArrayRec} {g : Req → Req} (hf : KeepsBefore r.id f) (hg : KeepsAccess r.id g)
    (ha : u.arrays = s.arrays.map f) (hu : u.reqs = (s.reqs ++ [r]).map g) {load : Bool} {a n : Nat} (h : s.behind r.id load a n = false) :
    u.behind r.id load a n = false := by
  unfold State.behind at h ⊢
  rw [State.arrayOf_map hf ha]
  cases har : s.arrayOf (cellArray a).1 (cellArray a).2 with
  | none => rfl
  | some ar =>
    rw [har] at h
    simp only [Option.map_some] at h ⊢
    have hbefore : (f ar).queue.takeWhile (fun q => q != .access r.id) = ar.queue.takeWhile fun q => q != .access r.id := hf.before ar
    rw [hbefore, List.any_eq_false]
    rw [List.any_eq_false] at h
    intro q hq
    have hne : (q != .access r.id) = true := List.mem_takeWhile_imp (p := fun q : ArrayItem => q != .access r.id) hq
    cases q with
    | access k =>
      have hk : k ≠ r.id := fun hk => by simp [hk] at hne
      simpa only [State.reqOf_entered hg hu hk] using h _ hq
    | write k cs due => exact h _ hq
    | mode b uid => exact h _ hq

/-! ## Acceptance (R99, R123, R227) -/

/-- A warp with other checkpoints and completion times. -/
def Warp.timed (w : Warp) (snaps : List (Nat × Arch)) (ctime : List Nat) : Warp := { w with snaps := snaps, ctime := ctime }

/-- Arrays that accept a load only take it into their order. -/
theorem State.acceptAccess_load (s : State) (r : Req) {m : MemReq} (hm : m.isLoad = true) : ∃ f, KeepsBefore r.id f
    ∧ s.acceptAccess r m = { s with arrays := s.arrays.map f, reqs := updWhere (fun x => x.id == r.id) (fun x => { x with held := true }) s.reqs } := by
  obtain ⟨f, hf, hfold⟩ := State.foldl_accept r.id m.arrays s
  refine ⟨f, hf, ?_⟩
  unfold State.acceptAccess
  rw [hfold]
  simp only [hm, if_true]
  rfl

/-- An update of the request with number `id` leaves the other accesses alone. -/
theorem KeepsAccess.at {k : Req → Req} (hk : ∀ x, (k x).id = x.id) (id : Nat) : KeepsAccess id fun x => if x.id == id then k x else x where
  id_eq x := by
    split
    · exact hk x
    · rfl
  mem x hx := by rw [if_neg (by simpa using hx)]

/-- Two such updates, one after the other, are one. -/
theorem KeepsAccess.comp {id : Nat} {g k : Req → Req} (hk : KeepsAccess id k) (hg : KeepsAccess id g) : KeepsAccess id (k ∘ g) where
  id_eq x := (hk.id_eq (g x)).trans (hg.id_eq x)
  mem x hx := (hk.mem (g x) (by rwa [hg.id_eq])).trans (hg.mem x hx)

/-- A request that is there is checked: the requests of its warp behind it may leave the core, and its checkpoint is dropped (R227, R228). -/
theorem State.checkReq_of_mem {s : State} {r : Req} (hr : r ∈ s.reqs) : ∃ g snaps others, KeepsAccess r.id g
    ∧ s.checkReq r.id = { s with cur := s.cur.timed snaps s.cur.ctime, others := others, reqs := s.reqs.map g } := by
  obtain ⟨q, hq⟩ : ∃ q, s.reqOf r.id = some q := Option.isSome_iff_exists.1 (List.find?_isSome.2 ⟨r, hr, beq_self_eq_true _⟩)
  have hdate : KeepsAccess r.id fun x => if x.uid == q.uid && decide (r.id ≤ x.id) && x.isWrite then { x with due := s.dueFrom (x.core / 24) } else x :=
    ⟨fun x => by split <;> rfl, fun x _ => by split <;> rfl⟩
  have hcur : ∃ snaps, (s.mapWarp q.uid (Warp.dropSnap · r.id)).cur = s.cur.timed snaps s.cur.ctime := by
    rw [State.mapWarp_cur]
    split
    · exact ⟨_, rfl⟩
    · exact ⟨s.cur.snaps, rfl⟩
  obtain ⟨snaps, hsnaps⟩ := hcur
  refine ⟨_, snaps, (s.mapWarp q.uid (Warp.dropSnap · r.id)).others, (KeepsAccess.at (k := fun x => { x with checked := true }) (fun _ => rfl) r.id).comp hdate, ?_⟩
  rw [State.checkReq_eq hq, State.checkedReqs, updWhere, List.map_map, ← hsnaps]
  rfl

/-- The completion times of a warp's access are noted. -/
theorem State.noteTimes_rest (s : State) (uid id : Nat) (ts : List Nat) : ∃ ctime others conds,
    s.noteTimes uid id ts = { s with cur := s.cur.timed s.cur.snaps ctime, others := others, conds := conds } := by
  have hcur : ∃ ctime, (s.mapWarp uid (Warp.raiseCtime · ts)).cur = s.cur.timed s.cur.snaps ctime := by
    rw [State.mapWarp_cur]
    split
    · exact ⟨_, rfl⟩
    · exact ⟨s.cur.ctime, rfl⟩
  obtain ⟨ctime, hctime⟩ := hcur
  refine ⟨ctime, (s.mapWarp uid (Warp.raiseCtime · ts)).others, (s.noteTimes uid id ts).conds, ?_⟩
  rw [← hctime]
  rfl

/-- A store that arrays accept is also checked, and its warp learns its completion times. -/
theorem State.acceptAccess_store {s : State} {r : Req} {m : MemReq} (hm : m.isLoad = false) (hr : r ∈ s.reqs) : ∃ f g snaps ctime others conds, KeepsBefore r.id f
    ∧ KeepsAccess r.id g ∧ s.acceptAccess r m
      = { s with cur := s.cur.timed snaps ctime, others := others, conds := conds, arrays := s.arrays.map f, reqs := s.reqs.map g } := by
  obtain ⟨f, hf, hfold⟩ := State.foldl_accept r.id m.arrays s
  obtain ⟨g, snaps, others, hg, hcheck⟩ := State.checkReq_of_mem (s := { s with arrays := s.arrays.map f }) hr
  obtain ⟨ctime, others', conds, htimes⟩ := State.noteTimes_rest (State.checkReq { s with arrays := s.arrays.map f } r.id) r.uid r.id
    (List.replicate 5 (s.tideOf (dieOfCore r.core)))
  refine ⟨f, _, snaps, ctime, others', conds, hf, (KeepsAccess.at (k := fun x => { x with held := true }) (fun _ => rfl) r.id).comp hg, ?_⟩
  unfold State.acceptAccess
  simp only [hm, Bool.false_eq_true, if_false]
  rw [hfold]
  refine (congrArg (fun t : State => t.mapReq r.id fun x => { x with held := true }) htimes).trans ?_
  rw [hcheck, ← List.map_map]
  rfl


/-! ## Parts made (R100, R141) -/

/-- An access of entries of 4 or 8 bytes none of whose parts is made. -/
structure MemReq.Untouched (m : MemReq) : Prop where
  size : m.sz = 4 ∨ m.sz = 8
  lanes : ∀ x ∈ m.lanes, x.lane < 128 ∧ x.left = 1 ∧ x.far = 0

/-- Every part of such an access. -/
def MemReq.wholes (m : MemReq) : List (LaneAcc × List Nat) := m.lanes.map fun x => (x, [0])

/-- Such an access has one part in each lane, of its size. -/
theorem MemReq.Untouched.parts {m : MemReq} (h : m.Untouched) : partsOf m.sz = [0] ∧ partLen m.sz = m.sz := by
  obtain h | h := h.size <;> rw [h] <;> exact ⟨rfl, rfl⟩

/-- The place of the one part. -/
theorem LaneAcc.partAt_zero (x : LaneAcc) : x.partAt 0 = x.pa := Nat.add_zero _

/-- No part of a lane that goes whole is left to meet. -/
theorem meetsAny_gone {m : MemReq} (hp : partsOf m.sz = [0]) (x : LaneAcc) (a k : Nat) :
    x.meetsAny m.sz ((1 : BitVec 2) &&& ~~~ partBits [0]) a k = false := by
  have hgone : ((1 : BitVec 2) &&& ~~~ partBits [0]).getLsbD 0 = false := by decide
  rw [LaneAcc.meetsAny, hp, List.any_cons, hgone]
  rfl

/-- Lanes that have gone whole. -/
def GoneWhole (done : List (LaneAcc × List Nat)) : Prop := ∀ p ∈ done, p.1.left = 1 ∧ p.2 = [0]

/-- They keep no lane above them waiting (R133). -/
theorem lowerLeft_of_goneWhole {m : MemReq} (hp : partsOf m.sz = [0]) {done : List (LaneAcc × List Nat)} (hd : GoneWhole done) (x : LaneAcc) (h : Nat) :
    lowerLeft m (·.left) done x h = false := by
  rw [lowerLeft, List.any_eq_false]
  intro p hpd
  rw [(hd p hpd).1, (hd p hpd).2, meetsAny_gone hp]
  exact Bool.false_ne_true

/-- The parts of one more lane that go, of an access that goes as far as it may. -/
def MemReq.goOne (m : MemReq) (may : LaneAcc → Nat → Bool) (done : List (LaneAcc × List Nat)) (x : LaneAcc) : List (LaneAcc × List Nat) :=
  done ++ [(x, (partsOf m.sz).filter fun h =>
    everyLane.getLsbD x.lane && (3 : BitVec 2).getLsbD h && x.left.getLsbD h && may x h && (m.isLoad || !lowerLeft m (·.left) done x h))]

/-- A lane that may goes whole after others that have. -/
theorem MemReq.goOne_eq {m : MemReq} (hp : partsOf m.sz = [0]) {may : LaneAcc → Nat → Bool} {done : List (LaneAcc × List Nat)} (hd : GoneWhole done) {x : LaneAcc}
    (hlane : x.lane < 128) (hleft : x.left = 1) (hmay : may x 0 = true) : m.goOne may done x = done ++ [(x, [0])] := by
  have hgoes : (everyLane.getLsbD x.lane && (3 : BitVec 2).getLsbD 0 && x.left.getLsbD 0 && may x 0 && (m.isLoad || !lowerLeft m (·.left) done x 0)) = true := by
    rw [lowerLeft_of_goneWhole hp hd, hmay, hleft, everyLane, BitVec.getLsbD_allOnes, decide_eq_true hlane]
    cases m.isLoad <;> decide
  rw [goOne, hp, List.filter_cons, if_pos hgoes, List.filter_nil]

/-- Lanes that may go whole one after another. -/
theorem MemReq.foldl_goOne {m : MemReq} (hp : partsOf m.sz = [0]) {may : LaneAcc → Nat → Bool} : ∀ (xs : List LaneAcc) (done : List (LaneAcc × List Nat)),
    GoneWhole done → (∀ x ∈ xs, x.lane < 128 ∧ x.left = 1 ∧ may x 0 = true) → xs.foldl (m.goOne may) done = done ++ xs.map fun x => (x, [0])
  | [], done, _, _ => (List.append_nil done).symm
  | x :: xs, done, hd, hxs => by
    obtain ⟨hlane, hleft, hmay⟩ := hxs x List.mem_cons_self
    have hd' : GoneWhole (done ++ [(x, [0])]) := by
      intro p hpd
      obtain hpd | hpd := List.mem_append.1 hpd
      · exact hd p hpd
      · rw [List.mem_singleton.1 hpd]
        exact ⟨hleft, rfl⟩
    rw [List.foldl_cons, MemReq.goOne_eq hp hd hlane hleft hmay, MemReq.foldl_goOne hp xs _ hd' fun y hy => hxs y (List.mem_cons_of_mem _ hy), List.append_assoc]
    rfl

/-- Every part goes when every lane may. -/
theorem MemReq.Untouched.going_eq {m : MemReq} (h : m.Untouched) {may : LaneAcc → Nat → Bool} (hmay : ∀ x ∈ m.lanes, may x 0 = true) :
    m.going everyLane 3 (·.left) may = m.wholes :=
  MemReq.foldl_goOne h.parts.1 m.lanes [] (fun _ hp => absurd hp List.not_mem_nil) fun x hx => ⟨(h.lanes x hx).1, (h.lanes x hx).2.1, hmay x hx⟩

/-- A lane with no part left. -/
def LaneAcc.made (x : LaneAcc) : LaneAcc := { x with left := 0 }
/-- A lane that has loaded n bytes. -/
def LaneAcc.loaded (spad : List Host.Cell) (n : Nat) (x : LaneAcc) : LaneAcc := { x with res := x.res + readNum spad x.pa n, left := 0 }
/-- The bytes after a lane has stored n of them. -/
def LaneAcc.stored (n : Nat) (spad : List Host.Cell) (x : LaneAcc) : List Host.Cell := writeBytes spad x.pa (bytesLE n (bitsAt x.data 0 64))

/-- The one part of a lane is made. -/
def Making.one (m : MemReq) (v : Making) (x : LaneAcc) : Making := { (v.part m x 0).1 with lanes := (v.part m x 0).1.lanes ++ [(v.part m x 0).2] }

/-- The one part is all that was left. -/
theorem LaneAcc.take_zero {x : LaneAcc} (h : x.left = 1) : x.take 0 = x.made := by
  rw [LaneAcc.take, h]
  rfl

/-- A lane of a load is made: its value is read. -/
theorem Making.one_load {m : MemReq} {sgn : Bool} (hm : m.op = .load sgn) (h : m.Untouched) (v : Making) {x : LaneAcc} (hx : x.left = 1) :
    ∃ bad, v.one m x = { v with lanes := v.lanes ++ [x.loaded v.spad m.sz], bad := bad } := by
  refine ⟨(v.one m x).bad, ?_⟩
  unfold Making.one Making.part
  simp only [hm, h.parts.2, LaneAcc.partAt_zero, Nat.mul_zero, Nat.pow_zero, Nat.mul_one]
  rw [LaneAcc.take_zero (x := { x with res := x.res + readNum v.spad x.pa m.sz }) hx]
  rfl

/-- A lane of a store is made: its bytes are written. -/
theorem Making.one_store {m : MemReq} (hm : m.op = .store) (h : m.Untouched) (v : Making) {x : LaneAcc} (hx : x.left = 1) :
    ∃ poison, v.one m x = { v with spad := x.stored m.sz v.spad, poison := poison, lanes := v.lanes ++ [x.made] } := by
  refine ⟨(v.one m x).poison, ?_⟩
  unfold Making.one Making.part
  simp only [hm, h.parts.2, LaneAcc.partAt_zero, Nat.mul_zero]
  rw [LaneAcc.take_zero hx]
  rfl

/-- The lanes of a load are made one after another. -/
theorem Making.foldl_load {m : MemReq} {sgn : Bool} (hm : m.op = .load sgn) (h : m.Untouched) : ∀ (xs : List LaneAcc) (v : Making), (∀ x ∈ xs, x.left = 1) →
    ∃ bad, xs.foldl (Making.one m) v = { v with lanes := v.lanes ++ xs.map (LaneAcc.loaded v.spad m.sz), bad := bad }
  | [], v, _ => ⟨v.bad, by rw [List.map_nil, List.append_nil]; rfl⟩
  | x :: xs, v, hxs => by
    obtain ⟨bad, hone⟩ := v.one_load hm h (hxs x List.mem_cons_self)
    obtain ⟨bad', hrest⟩ := Making.foldl_load hm h xs (v.one m x) fun y hy => hxs y (List.mem_cons_of_mem _ hy)
    refine ⟨bad', ?_⟩
    rw [List.foldl_cons, hrest, hone, List.append_assoc]
    rfl

/-- The lanes of a store are made one after another. -/
theorem Making.foldl_store {m : MemReq} (hm : m.op = .store) (h : m.Untouched) : ∀ (xs : List LaneAcc) (v : Making), (∀ x ∈ xs, x.left = 1) →
    ∃ poison, xs.foldl (Making.one m) v = { v with spad := xs.foldl (fun spad x => x.stored m.sz spad) v.spad, poison := poison, lanes := v.lanes ++ xs.map LaneAcc.made }
  | [], v, _ => ⟨v.poison, by rw [List.map_nil, List.append_nil]; rfl⟩
  | x :: xs, v, hxs => by
    obtain ⟨poison, hone⟩ := v.one_store hm h (hxs x List.mem_cons_self)
    obtain ⟨poison', hrest⟩ := Making.foldl_store hm h xs (v.one m x) fun y hy => hxs y (List.mem_cons_of_mem _ hy)
    refine ⟨poison', ?_⟩
    rw [List.foldl_cons, hrest, hone, List.append_assoc]
    rfl

/-- What making has given before its first part. -/
def State.making (s : State) : Making := ⟨s.mem.spad, s.mem.spadPoison, [], .zero, false⟩

/-- What making every part gives is the fold of the lanes. -/
theorem MemReq.foldl_wholes (m : MemReq) (v : Making) : m.wholes.foldl (fun (v : Making) (p : LaneAcc × List Nat) =>
      let u := p.2.foldl (fun (u : Making × LaneAcc) h => u.1.part m u.2 h) (v, p.1)
      { u.1 with lanes := u.1.lanes ++ [u.2] }) v = m.lanes.foldl (Making.one m) v := List.foldl_map

/-- An access none of whose lanes has a part left leaves the queues of its arrays. -/
def ArrayRec.release (id : Nat) (ls : List LaneAcc) (a : ArrayRec) : ArrayRec :=
  if ls.any fun x => x.left != 0 && cellArray x.pa == (a.core, a.phys) then a else { a with queue := a.queue.filter fun q => q != .access id }

/-- Leaving the queues changes nothing else of an array. -/
theorem ArrayRec.unqueued_release (id : Nat) (ls : List LaneAcc) (a : ArrayRec) : (a.release id ls).unqueued = a.unqueued := by
  unfold ArrayRec.release
  split <;> rfl

/-- Every part of a load is made: its value is bound. -/
theorem State.makeParts_load {m : MemReq} {sgn : Bool} (hm : m.op = .load sgn) (h : m.Untouched) (s : State) (r : Req) : ∃ bad : Bool,
    s.makeParts r m m.wholes = { s with
      arrays := s.arrays.map (ArrayRec.release r.id (m.lanes.map (LaneAcc.loaded s.mem.spad m.sz)))
      reqs := updWhere (fun x => x.id == r.id) (fun x => { x with served := true }) (updWhere (fun x => x.id == r.id) (fun x => { x with struck := x.struck || (bad && r.checked) })
        (updWhere (fun x => x.id == r.id) (fun x => { x with kind := .mem { m with lanes := m.lanes.map (LaneAcc.loaded s.mem.spad m.sz) } }) s.reqs)) } := by
  obtain ⟨bad, hfold⟩ := Making.foldl_load hm h m.lanes s.making fun x hx => (h.lanes x hx).2.1
  have hgone : allGone (m.lanes.map (LaneAcc.loaded s.mem.spad m.sz)) = true := by
    rw [allGone, List.all_map, List.all_eq_true]
    intro x hx
    simp [LaneAcc.loaded, (h.lanes x hx).2.2]
  have hstore : m.isStore = false := by
    rw [MemReq.isStore, hm]
    rfl
  refine ⟨bad, ?_⟩
  unfold State.makeParts
  rw [MemReq.foldl_wholes]
  rw [show (⟨s.mem.spad, s.mem.spadPoison, [], .zero, false⟩ : Making) = s.making from rfl, hfold]
  simp only [State.making, List.nil_append, hgone, hstore, Bool.not_true, Bool.false_eq_true, if_false, State.countFor, if_true]
  rfl

/-- Every part of a store is made: its bytes are written and its request is gone. -/
theorem State.makeParts_store {m : MemReq} (hm : m.op = .store) (h : m.Untouched) (s : State) (r : Req) : ∃ reqs poison,
    s.makeParts r m m.wholes = { s with
      arrays := s.arrays.map (ArrayRec.release r.id (m.lanes.map LaneAcc.made))
      reqs := reqs
      mem := { s.mem with spad := m.lanes.foldl (fun spad x => x.stored m.sz spad) s.mem.spad, spadPoison := poison } } := by
  obtain ⟨poison, hfold⟩ := Making.foldl_store hm h m.lanes s.making fun x hx => (h.lanes x hx).2.1
  have hgone : allGone (m.lanes.map LaneAcc.made) = true := by
    rw [allGone, List.all_map, List.all_eq_true]
    intro x hx
    simp [LaneAcc.made, (h.lanes x hx).2.2]
  have hstore : m.isStore = true := by
    rw [MemReq.isStore, hm]
    rfl
  refine ⟨(s.makeParts r m m.wholes).reqs, poison, ?_⟩
  unfold State.makeParts
  rw [MemReq.foldl_wholes]
  rw [show (⟨s.mem.spad, s.mem.spadPoison, [], .zero, false⟩ : Making) = s.making from rfl, hfold]
  simp only [State.making, List.nil_append, hgone, hstore, Bool.not_true, Bool.false_eq_true, if_false, State.countFor, if_true]
  rfl

/-! ## A queue instruction enters its access (R99, R100, R193) -/

/-- The request of a memory access at its issue. -/
def State.newReq (s : State) (c : Ctl) (m : MemReq) : Req :=
  ⟨s.nextId, s.cur.uid, s.cur.core, s.cur.pos, s.cur.ctx, s.cur.wg, tidOf c, s.ipc, s.next c, s.act c, s.split, s.cur.live, .mem m, true, false, false, false, none,
    s.cur.inHandler, s.dueFrom (dieOfCore s.cur.core), false⟩

/-- With nothing to write, nothing is bound. -/
theorem Arch.bind_nil (a : Arch) (live act : Mask) : a.bind live act [] = a := by
  rw [Arch.bind_eq, Arch.bindable]
  cases a.handler.isSome <;> rfl

/-- A memory access that writes no register enters: beside the request only what answers with its predicates is pending. -/
theorem State.addReq_nil (s : State) (c : Ctl) (m : MemReq) (preds : List PReg) : s.addReq c (.mem m) [] preds false true = { s with
    nextId := s.nextId + 1, reqs := s.reqs ++ [s.newReq c m]
    cur := { s.cur with pends := if preds.isEmpty then s.cur.pends else s.cur.pends ++ [⟨s.nextId, [], preds, false, none, false, s.cur.inHandler⟩] } } := by
  simp only [State.addReq, Arch.bind_nil]
  rfl

/-- The arrays accept the request that has entered, and what may be made of it is. -/
theorem State.enterQueue_eq (s : State) (c : Ctl) (m : MemReq) (ws : List RegWrite) (preds : List PReg) :
    let u := (s.addReq c (.mem m) ws preds false true).acceptAccess (s.newReq c m) m
    s.enterQueue c m ws preds = u.makeParts (s.newReq c m) m (m.going everyLane 3 (·.left) (u.mayMake (s.newReq c m) m)) := by
  have hlast : (s.addReq c (.mem m) ws preds false true).reqs.getLast? = some (s.newReq c m) := List.getLast?_concat
  unfold State.enterQueue
  simp only [hlast]

/-- A queue read: nothing that its arrays have accepted stands in its way, so it is made at once and its values are bound. -/
theorem State.enterQueue_load {s : State} {c : Ctl} {m : MemReq} {sgn : Bool} (hm : m.op = .load sgn) (h : m.Untouched) (ws : List RegWrite) (preds : List PReg)
    (hfree : ∀ x ∈ m.lanes, s.behind s.nextId true x.pa m.sz = false) : ∃ arrays reqs,
    s.enterQueue c m ws preds = { s.addReq c (.mem m) ws preds false true with arrays := arrays, reqs := reqs }
    ∧ arrays.map ArrayRec.unqueued = s.arrays.map ArrayRec.unqueued
    ∧ ∃ r ∈ reqs, r.id = s.nextId ∧ r.served = true ∧ r.checked = true ∧ r.act = s.act c
      ∧ r.kind = .mem { m with lanes := m.lanes.map (LaneAcc.loaded s.mem.spad m.sz) } := by
  have hload : m.isLoad = true := by
    rw [MemReq.isLoad, hm]
  obtain ⟨f, hf, hacc⟩ := (s.addReq c (.mem m) ws preds false true).acceptAccess_load (s.newReq c m) hload
  have hmay : ∀ x ∈ m.lanes, ((s.addReq c (.mem m) ws preds false true).acceptAccess (s.newReq c m) m).mayMake (s.newReq c m) m x 0 = true := by
    intro x hx
    have hbehind : ((s.addReq c (.mem m) ws preds false true).acceptAccess (s.newReq c m) m).behind (s.newReq c m).id true x.pa m.sz = false :=
      State.behind_entered (s := s) hf (KeepsAccess.at (k := fun x => { x with held := true }) (fun _ => rfl) (s.newReq c m).id) (by rw [hacc]; rfl)
        (by rw [hacc]; rfl) (hfree x hx)
    rw [State.mayMake, hload, LaneAcc.partAt_zero, h.parts.2, hbehind]
    rfl
  obtain ⟨bad, hmake⟩ := State.makeParts_load hm h ((s.addReq c (.mem m) ws preds false true).acceptAccess (s.newReq c m) m) (s.newReq c m)
  rw [State.enterQueue_eq]
  dsimp only
  rw [h.going_eq hmay, hmake, hacc]
  refine ⟨_, _, rfl, ?_, ?_⟩
  · rw [List.map_map, List.map_map]
    exact List.map_congr_left fun a _ => (ArrayRec.unqueued_release _ _ _).trans (hf.unqueued a)
  · have hin : ∀ (k : Req → Req) (x : Req) (xs : List Req), x ∈ xs → x.id = s.nextId → k x ∈ updWhere (fun x => x.id == s.nextId) k xs := fun k x xs hx hid =>
      List.mem_map.2 ⟨x, hx, if_pos (beq_iff_eq.2 hid)⟩
    refine ⟨_, hin _ _ _ (hin _ _ _ (hin _ _ _ (hin _ _ _ (List.mem_append_right _ List.mem_cons_self) rfl) rfl) rfl) rfl, rfl, rfl, rfl, rfl, rfl⟩

/-- A queue write in MODE 00: nothing stands in its way, so its bytes are written at once and its request is gone. -/
theorem State.enterQueue_store {s : State} {c : Ctl} {m : MemReq} (hm : m.op = .store) (h : m.Untouched)
    (hfree : ∀ x ∈ m.lanes, s.modeAt x.pa = 0 ∧ s.behind s.nextId false x.pa m.sz = false) : ∃ snaps ctime others conds arrays reqs poison,
    s.enterQueue c m [] [] = { s with
      cur := s.cur.timed snaps ctime, others := others, conds := conds, arrays := arrays, reqs := reqs, nextId := s.nextId + 1
      mem := { s.mem with spad := m.lanes.foldl (fun spad x => x.stored m.sz spad) s.mem.spad, spadPoison := poison } }
    ∧ arrays.map ArrayRec.unqueued = s.arrays.map ArrayRec.unqueued := by
  have hload : m.isLoad = false := by
    rw [MemReq.isLoad, hm]
  obtain ⟨f, g, snaps, ctime, others, conds, hf, hg, hacc⟩ := State.acceptAccess_store (s := s.addReq c (.mem m) [] [] false true) (r := s.newReq c m) hload
    (List.mem_append_right _ List.mem_cons_self)
  have hmay : ∀ x ∈ m.lanes, ((s.addReq c (.mem m) [] [] false true).acceptAccess (s.newReq c m) m).mayMake (s.newReq c m) m x 0 = true := by
    intro x hx
    have hbehind : ((s.addReq c (.mem m) [] [] false true).acceptAccess (s.newReq c m) m).behind (s.newReq c m).id false x.pa m.sz = false :=
      State.behind_entered (s := s) hf hg (by rw [hacc]; rfl) (by rw [hacc]; rfl) (hfree x hx).2
    have hmode : ((s.addReq c (.mem m) [] [] false true).acceptAccess (s.newReq c m) m).modeAt x.pa = 0 :=
      (State.modeAt_map (s := s) hf (by rw [hacc]; rfl) x.pa).trans (hfree x hx).1
    rw [State.mayMake, hload, LaneAcc.partAt_zero, h.parts.2, hbehind, hmode]
    rfl
  obtain ⟨reqs, poison, hmake⟩ := State.makeParts_store hm h ((s.addReq c (.mem m) [] [] false true).acceptAccess (s.newReq c m) m) (s.newReq c m)
  rw [State.enterQueue_eq]
  dsimp only
  rw [h.going_eq hmay, hmake, hacc, State.addReq_nil]
  refine ⟨snaps, ctime, others, conds, _, reqs, poison, rfl, ?_⟩
  rw [List.map_map, List.map_map]
  exact List.map_congr_left fun a _ => (ArrayRec.unqueued_release _ _ _).trans (hf.unqueued a)

end Sys2Proof.Machine
end

section
/-! PROOFS. Lane queues: the ring and its entries, the lanes that take them, and the bytes they store (for O48). -/

namespace Sys2Proof.Machine

/-! ## The ring (R192) -/

/-- The scratchpad address of the entry with counter value i. -/
def LaneQueue.entryAddr (x : LaneQueue) (i : Nat) : Nat := x.base + x.esz * (i % x.size)
/-- The place of that entry in the arrays of its workgroup. -/
def Workgroup.entryCell (g : Workgroup) (x : LaneQueue) (i : Nat) : Nat :=
  spadCell g.core (g.arrays.getD (x.entryAddr i / 12288) 0) (x.entryAddr i % 12288)

/-- The ring lies in the scratchpad of the workgroup. -/
def Workgroup.holds (g : Workgroup) (x : LaneQueue) : Prop := x.base + x.esz * x.size ≤ 12288 * g.arrays.length

/-- An entry has 4 or 8 bytes. -/
theorem LaneQueue.esz_cases (x : LaneQueue) : x.esz = 4 ∨ x.esz = 8 := by
  rw [LaneQueue.esz]
  cases x.esz8
  · exact .inl rfl
  · exact .inr rfl

/-- Every entry lies in the scratchpad. -/
theorem Workgroup.holds.entryAddr_lt {g : Workgroup} {x : LaneQueue} (h : g.holds x) (i : Nat) : x.entryAddr i < 12288 * g.arrays.length := by
  have hpos : 0 < x.esz := by
    obtain h | h := x.esz_cases <;> omega
  have hi : x.esz * (i % x.size) < x.esz * x.size := Nat.mul_lt_mul_of_pos_left (Nat.mod_lt i (Nat.two_pow_pos _)) hpos
  unfold Workgroup.holds at h
  unfold LaneQueue.entryAddr
  omega

/-- The place of an entry. -/
theorem State.entryPlace_eq {s : State} {g : Workgroup} {x : LaneQueue} (hg : s.wgOf s.cur.wg = some g) (h : g.holds x) (i : Nat) :
    s.entryPlace x i = (x.entryAddr i, g.entryCell x i) := by
  have hplace : spadPlace g.arrays.length (x.base + x.esz * (i % x.size)) = some (x.entryAddr i / 12288, x.entryAddr i % 12288) := if_pos (h.entryAddr_lt i)
  unfold State.entryPlace
  simp only [hg, hplace]
  rfl

/-- Entries stand at multiples of their size. -/
theorem Workgroup.entryCell_mod (g : Workgroup) {x : LaneQueue} (h : x.base % x.esz = 0) (i : Nat) : g.entryCell x i % x.esz = 0 := by
  unfold Workgroup.entryCell spadCell LaneQueue.entryAddr
  generalize g.core * 32 + _ = a
  obtain hz | hz := x.esz_cases <;> rw [hz] at h ⊢ <;> omega

/-- Two entries that do not stand at one place do not meet. -/
theorem Workgroup.entryCell_apart (g : Workgroup) {x : LaneQueue} (h : x.base % x.esz = 0) {i j : Nat} (hij : g.entryCell x i ≠ g.entryCell x j) :
    g.entryCell x i + x.esz ≤ g.entryCell x j ∨ g.entryCell x j + x.esz ≤ g.entryCell x i := by
  have hi := g.entryCell_mod h i
  have hj := g.entryCell_mod h j
  obtain hz | hz := x.esz_cases <;> rw [hz] at hi hj ⊢ <;> omega

/-- An entry stands in one word of 8 bytes. -/
theorem Workgroup.entryCell_word (g : Workgroup) {x : LaneQueue} (h : x.base % x.esz = 0) (i : Nat) :
    (g.entryCell x i + x.esz - 1) / 8 = g.entryCell x i / 8 := by
  have hi := g.entryCell_mod h i
  obtain hz | hz := x.esz_cases <;> rw [hz] at hi ⊢ <;> omega

/-! ## The lanes that take an entry (R193) -/

/-- The active lanes take entries in ascending order, as many as there are. -/
theorem takers_eq (act : Mask) (first room : Nat) :
    takers act first room = (List.range (min (maskLanes act).length room)).map fun k => ((maskLanes act).getD k 0, first + k) := by
  unfold takers
  dsimp only
  rw [List.length_take, Nat.min_comm]
  refine List.map_congr_left fun k hk => ?_
  have hroom : k < room := lt_of_lt_of_le (List.mem_range.1 hk) (Nat.min_le_right _ _)
  rw [List.getD_eq_getElem?_getD, List.getElem?_take, if_pos hroom, List.getD_eq_getElem?_getD]

/-- They are the first ones. -/
theorem map_fst_takers (act : Mask) (first room : Nat) :
    (takers act first room).map Prod.fst = (maskLanes act).take (min (maskLanes act).length room) := by
  rw [takers_eq, List.map_map]
  refine List.ext_getElem (by simp) fun k hk hk' => ?_
  have hlen : k < (maskLanes act).length := by
    rw [List.length_take] at hk'
    omega
  rw [List.getElem_map, List.getElem_range, List.getElem_take, Function.comp_apply, List.getD_eq_getElem _ _ hlen]

/-- The predicate names them. -/
theorem getLsbD_takenMask (act : Mask) (first room l : Nat) :
    (takenMask (takers act first room)).getLsbD l = ((maskLanes act).take (min (maskLanes act).length room)).contains l := by
  have hany : ((takers act first room).any fun t => t.1 == l) = ((maskLanes act).take (min (maskLanes act).length room)).contains l := by
    rw [← map_fst_takers act first, Bool.eq_iff_iff]
    simp
  rw [takenMask, getLsbD_maskOf, hany, Bool.and_eq_right_iff_imp, List.contains_iff_mem, decide_eq_true_eq]
  exact fun h => lane_lt ((mem_maskLanes act l).1 (List.mem_of_mem_take h))

/-- Lane k's access to its entry. -/
def Workgroup.entryAcc (g : Workgroup) (x : LaneQueue) (lanes : List Nat) (data : Nat → Nat) (first k : Nat) : LaneAcc :=
  ⟨lanes.getD k 0, x.entryAddr (first + k), g.entryCell x (first + k), 0, data (lanes.getD k 0), 0, 0, 1, 0⟩

/-- The accesses of the first n lanes. -/
def Workgroup.entryAccs (g : Workgroup) (x : LaneQueue) (lanes : List Nat) (data : Nat → Nat) (first n : Nat) : List LaneAcc :=
  (List.range n).map (g.entryAcc x lanes data first)

/-- The accesses of the lanes that take an entry. -/
theorem State.map_entryLane {s : State} {g : Workgroup} {x : LaneQueue} (hg : s.wgOf s.cur.wg = some g) (h : g.holds x) (data : Nat → Nat) (act : Mask)
    (first room : Nat) : (takers act first room).map (s.entryLane x data) = g.entryAccs x (maskLanes act) data first (min (maskLanes act).length room) := by
  rw [takers_eq, List.map_map]
  refine List.map_congr_left fun k _ => ?_
  rw [Function.comp_apply, State.entryLane, State.entryPlace_eq hg h]
  rfl

section
variable {g : Workgroup} {x : LaneQueue} {data : Nat → Nat} {first n : Nat}

/-- An access of the list is that of some lane. -/
theorem Workgroup.mem_entryAccs {lanes : List Nat} {y : LaneAcc} : y ∈ g.entryAccs x lanes data first n ↔ ∃ k < n, g.entryAcc x lanes data first k = y := by
  simp [Workgroup.entryAccs]

/-- The k-th access of the list. -/
theorem Workgroup.getElem?_entryAccs {lanes : List Nat} {k : Nat} (hk : k < n) :
    (g.entryAccs x lanes data first n)[k]? = some (g.entryAcc x lanes data first k) := by
  simp [Workgroup.entryAccs, hk]

/-- What stands in the list at k is the access of lane k. -/
theorem Workgroup.of_getElem?_entryAccs {lanes : List Nat} {k : Nat} {y : LaneAcc} (h : (g.entryAccs x lanes data first n)[k]? = some y) :
    k < n ∧ g.entryAcc x lanes data first k = y := by
  have hk : k < n := by
    obtain ⟨hk, -⟩ := List.getElem?_eq_some_iff.1 h
    simpa [Workgroup.entryAccs] using hk
  exact ⟨hk, Option.some.inj ((Workgroup.getElem?_entryAccs hk).symm.trans h)⟩

/-- There are as many accesses as lanes that take an entry. -/
theorem Workgroup.length_entryAccs {lanes : List Nat} : (g.entryAccs x lanes data first n).length = n := by
  rw [Workgroup.entryAccs, List.length_map, List.length_range]

/-- None of the accesses is made yet. -/
theorem Workgroup.untouched_entryAccs {act : Mask} (hn : n ≤ (maskLanes act).length) (op : MemOp) (dests : List Reg) (pred : Option (PReg × Mask)) :
    MemReq.Untouched ⟨.spad, false, op, x.esz, 0, 0, 0, g.entryAccs x (maskLanes act) data first n, dests, false, pred⟩ where
  size := x.esz_cases
  lanes y hy := by
    obtain ⟨k, hk, rfl⟩ := Workgroup.mem_entryAccs.1 hy
    have hlane : (maskLanes act).getD k 0 ∈ maskLanes act := by
      rw [List.getD_eq_getElem _ _ (lt_of_lt_of_le hk hn)]
      exact List.getElem_mem _
    exact ⟨lane_lt ((mem_maskLanes act _).1 hlane), rfl, rfl⟩

end

/-! ## The bytes stored -/

/-- A byte that no lane stores stays. -/
theorem readByte_foldl_stored {n z : Nat} : ∀ (xs : List LaneAcc) (m : List Host.Cell), (∀ x ∈ xs, z < x.pa ∨ x.pa + n ≤ z) →
    readByte (xs.foldl (fun spad x => x.stored n spad) m) z = readByte m z
  | [], _, _ => rfl
  | x :: xs, m, h => by
    have hx := h x List.mem_cons_self
    rw [List.foldl_cons, readByte_foldl_stored xs _ fun y hy => h y (List.mem_cons_of_mem _ hy), LaneAcc.stored, readByte_writeBytes, length_bytesLE, if_neg (by omega)]

/-- A number is of its bytes. -/
theorem readNum_of_readByte {m m' : List Host.Cell} {a n : Nat} (h : ∀ i < n, readByte m (a + i) = readByte m' (a + i)) : readNum m a n = readNum m' a n := by
  rw [readNum, readNum, readBytes, readBytes, List.map_congr_left fun i hi => h i (List.mem_range.1 hi)]

/-- What a lane stores is read back. -/
theorem readNum_stored (x : LaneAcc) (n : Nat) (m : List Host.Cell) : readNum (x.stored n m) x.pa n = bitsAt x.data 0 64 % 256 ^ n := by
  have hbytes : readBytes (x.stored n m) x.pa n = bytesLE n (bitsAt x.data 0 64) := by
    refine List.ext_getElem (by simp [readBytes, length_bytesLE]) fun i hi hi' => ?_
    rw [length_bytesLE] at hi'
    simp only [readBytes, List.getElem_map, List.getElem_range]
    rw [LaneAcc.stored, readByte_writeBytes, length_bytesLE, if_pos (by omega), Nat.add_sub_cancel_left, List.getD_eq_getElem]
  rw [readNum, hbytes, numLE_bytesLE]

/-- What the k-th lane stores is read back when no other lane stores there. -/
theorem readNum_foldl_stored {n : Nat} {x : LaneAcc} : ∀ (xs : List LaneAcc) (k : Nat) (m : List Host.Cell), xs[k]? = some x →
    (∀ j y, xs[j]? = some y → j ≠ k → y.pa + n ≤ x.pa ∨ x.pa + n ≤ y.pa) →
    readNum (xs.foldl (fun spad x => x.stored n spad) m) x.pa n = bitsAt x.data 0 64 % 256 ^ n
  | [], k, _, hk, _ => by simp at hk
  | y :: ys, 0, m, hk, hapart => by
    obtain rfl : y = x := by simpa using hk
    refine (readNum_of_readByte fun i hi => readByte_foldl_stored ys _ fun z hz => ?_).trans (readNum_stored y n m)
    obtain ⟨j, hj⟩ := List.mem_iff_getElem?.1 hz
    have := hapart (j + 1) z (by simpa using hj) (Nat.succ_ne_zero j)
    omega
  | y :: ys, k + 1, m, hk, hapart =>
    readNum_foldl_stored ys k _ (by simpa using hk) fun j z hj hjk => hapart (j + 1) z (by simpa using hj) fun h => hjk (Nat.succ_inj.1 h)

end Sys2Proof.Machine
end

section
/-! PROOFS. QINIT, QPUSH and QPOP (O48). -/

namespace Sys2Proof.Machine

/-! ## Advancing -/

/-- An advance changes the warp's state and its marks: the lanes and the handler go on, every register and predicate reads as before. -/
theorem State.advance_spec (s : State) (c : Ctl) : ∃ a y, s.advance c = { s with cur := { s.cur with arch := a, ymNew := y } }
    ∧ s.Advanced { s with cur := { s.cur with arch := a, ymNew := y } } c ∧ (∀ r, a.vreg r = s.reg r)
    ∧ ∀ o, ({ s.cur with arch := a, ymNew := y } : Warp).pred o = s.cur.pred o := by
  obtain ⟨hmoved, hframe, -, -⟩ := State.moveLanes_spec s c fun _ => s.next c
  have hcur := State.moveLanes_cur s c fun _ => s.next c
  obtain ⟨a, y, hw⟩ : ∃ a y, (s.advance c).cur = { s.cur with arch := a, ymNew := y } := ⟨_, _, hcur⟩
  have hstate : s.advance c = { s with cur := { s.cur with arch := a, ymNew := y } } := hframe.rest.trans (congrArg (fun w => { s with cur := w }) hw)
  have harch : (s.advance c).cur.arch = a := congrArg Warp.arch hw
  refine ⟨a, y, hstate, ?_, fun r => ?_, fun o => ?_⟩
  · rw [← hstate]
    exact ⟨hmoved.lanes, hmoved.handler⟩
  · rw [← harch]
    exact hframe.regs r List.not_mem_nil
  · rw [← hw]
    exact congrArg (·.pred o) hcur

/-! ## QINIT (R192, R348) -/

/-- The queue of the workgroup in focus. -/
theorem State.queueAt_eq {s : State} {g : Workgroup} (hg : s.wgOf s.cur.wg = some g) (q : BitVec 3) : s.queueAt q = g.queues[q.toNat]? := by
  rw [State.queueAt, hg]
  rfl

/-- A queue that is replaced and an advance. -/
theorem State.putQueue_advance (s : State) (c : Ctl) (q : BitVec 3) (y : LaneQueue) :
    s.Advanced ((s.putQueue q y).advance c) c ∧ s.WarpFrame { (s.putQueue q y).advance c with wgs := s.wgs } [] Lane.noPc
      ∧ ((s.putQueue q y).advance c).wgs = (s.putQueue q y).wgs := by
  obtain ⟨hmoved, hframe, -, -⟩ := State.moveLanes_spec (s.putQueue q y) c fun _ => s.next c
  exact ⟨⟨hmoved.lanes, hmoved.handler⟩,
    ⟨(congrArg (fun u : State => { u with wgs := s.wgs }) hframe.rest :), hframe.warp, hframe.regs, hframe.preds, hframe.failing, hframe.lanes, hframe.handler⟩,
    (congrArg State.wgs hframe.rest :)⟩

/-- QINIT makes the ring when it may. -/
theorem State.exec_qinit {s : State} {c : Ctl} {q : BitVec 3} {a : Reg} {log2n : BitVec 4} {d8 : Bool} {g : Workgroup} {x : LaneQueue}
    (hg : s.wgOf s.cur.wg = some g) (h0 : s.act c ≠ 0) (ha : s.cur.nameable a = true) (hu : (s.reg a).isU = true) (hx : g.queues[q.toNat]? = some x)
    (hbase : (s.rd a 0).toNat % (if d8 then 8 else 4) = 0) (hfit : (s.rd a 0).toNat + (if d8 then 8 else 4) * 2 ^ log2n.toNat ≤ 12288 * g.arrays.length) :
    exec (.qinit c q a log2n d8) s = .next ((s.putQueue q ⟨true, (s.rd a 0).toNat, log2n.toNat, d8, 0, 0⟩).advance c) := by
  have htotal : s.arrayTotal = g.arrays.length := by
    rw [State.arrayTotal, hg]
  have hgood : ((s.queueAt q).isNone || !(s.reg a).isU || (s.rd a 0).toNat % (if d8 then 8 else 4) != 0
      || decide (12288 * s.arrayTotal < (s.rd a 0).toNat + (if d8 then 8 else 4) * 2 ^ log2n.toNat)) = false := by
    rw [State.queueAt_eq hg, hx, hu, hbase, htotal, decide_eq_false (Nat.not_lt.2 hfit)]
    rfl
  change execQinit c q a log2n d8 s = _
  unfold execQinit
  dsimp only
  rw [ha, if_neg (by decide), if_neg h0]
  exact congrArg _ (if_neg (by rw [Bool.not_eq_true]; exact hgood))

/-! ## QPUSH (R193) -/

section
variable {s : State} {c : Ctl} {q : BitVec 3} {g : Workgroup} {x : LaneQueue}

/-- The accesses of entries written in MODE 00 are made at once: their bytes are written. With no entry there is no access. -/
theorem State.enter_writes {n : Nat} (hn : n ≤ (maskLanes (s.act c)).length) (data : Nat → Nat) (first : Nat)
    (hfree : ∀ k < n, s.modeAt (g.entryCell x (first + k)) = 0 ∧ s.behind s.nextId false (g.entryCell x (first + k)) x.esz = false) :
    let accs := g.entryAccs x (maskLanes (s.act c)) data first n
    ∃ snaps ctime others conds arrays reqs poison,
      (if accs.isEmpty then s else s.enterQueue c ⟨.spad, false, .store, x.esz, 0, 0, 0, accs, [], false, none⟩ [] []) = { s with
        cur := s.cur.timed snaps ctime, others := others, conds := conds, arrays := arrays, reqs := reqs, nextId := if n = 0 then s.nextId else s.nextId + 1
        mem := { s.mem with spad := accs.foldl (fun spad y => y.stored x.esz spad) s.mem.spad, spadPoison := poison } }
      ∧ arrays.map ArrayRec.unqueued = s.arrays.map ArrayRec.unqueued := by
  intro accs
  by_cases h0 : n = 0
  · subst h0
    exact ⟨s.cur.snaps, s.cur.ctime, s.others, s.conds, s.arrays, s.reqs, s.mem.spadPoison, rfl, rfl⟩
  · have hne : accs.isEmpty = false := by
      rw [List.isEmpty_eq_false_iff, ← List.length_pos_iff]
      simpa [accs, Workgroup.entryAccs] using Nat.pos_of_ne_zero h0
    obtain ⟨snaps, ctime, others, conds, arrays, reqs, poison, henter, harrays⟩ := State.enterQueue_store (s := s) (c := c) rfl
      (Workgroup.untouched_entryAccs (g := g) (x := x) (data := data) (first := first) hn .store [] none) (fun y hy => by
        obtain ⟨k, hk, rfl⟩ := Workgroup.mem_entryAccs.1 hy
        exact hfree k hk)
    refine ⟨snaps, ctime, others, conds, arrays, reqs, poison, ?_, harrays⟩
    rw [hne, if_neg (by decide), if_neg h0, henter]

/-- The answer of the unit: a load without lanes, whose predicate names the lanes that had an entry. -/
def unitAnswer (p : PReg) (x : LaneQueue) (ts : List (Nat × Nat)) : MemReq := ⟨.spad, false, .load false, x.esz, 0, 0, 0, [], [], false, some (p, takenMask ts)⟩

/-- A load without lanes has nothing left to make. -/
theorem untouched_unitAnswer (p : PReg) (x : LaneQueue) (ts : List (Nat × Nat)) : (unitAnswer p x ts).Untouched :=
  ⟨x.esz_cases, fun _ h => absurd h List.not_mem_nil⟩

/-- The state after a QPUSH, before it advances: its entries are written, and the answer of its unit is pending. -/
def State.pushed (s : State) (c : Ctl) (p : PReg) (q : BitVec 3) (x : LaneQueue) (ts : List (Nat × Nat)) (accs : List LaneAcc) : State :=
  let s1 := s.putQueue q { x with tail := x.tail + BitVec.ofNat 32 ts.length }
  let s2 := if accs.isEmpty then s1 else s1.enterQueue c ⟨.spad, false, .store, x.esz, 0, 0, 0, accs, [], false, none⟩ [] []
  s2.enterQueue c (unitAnswer p x ts) [] [p]

/-- QPUSH pushes when its ring may be used and its entries stand in MODE 00. -/
theorem State.exec_qpush {d8 : Bool} {p : PReg} {b : Reg} (hg : s.wgOf s.cur.wg = some g) (h0 : s.act c ≠ 0) (hx : g.queues[q.toNat]? = some x)
    (hinit : x.init = true) (hsize : x.esz8 = d8) (hin : g.holds x) (hnames : ∀ r ∈ (if d8 then [b, b + 1] else [b]), s.cur.nameable r = true)
    (hmode : ∀ k < min (maskLanes (s.act c)).length (x.size - x.count), s.modeAt (g.entryCell x (x.tail.toNat + k)) = 0) :
    exec (.qpush c d8 p q b) s = .next ((s.pushed c p q x (takers (s.act c) x.tail.toNat (x.size - x.count))
      (g.entryAccs x (maskLanes (s.act c)) (fun l => if d8 then (s.rdPair b l).toNat else (s.rd b l).toNat) x.tail.toNat
        (min (maskLanes (s.act c)).length (x.size - x.count)))).advance c) := by
  have hnm : (if d8 then pairRegs b else [b]).all s.cur.nameable = true := List.all_eq_true.2 hnames
  have hgood : (!x.init || x.esz8 != d8) = false := by simp [hinit, hsize]
  have hfree : ∀ data : Nat → Nat, (g.entryAccs x (maskLanes (s.act c)) data x.tail.toNat (min (maskLanes (s.act c)).length (x.size - x.count))).find?
      (fun y => s.modeAt y.pa == 2 || s.modeAt y.pa == 1) = none := by
    intro data
    rw [List.find?_eq_none]
    intro y hy
    obtain ⟨k, hk, rfl⟩ := Workgroup.mem_entryAccs.1 hy
    have hm : s.modeAt (g.entryAcc x (maskLanes (s.act c)) data x.tail.toNat k).pa = 0 := hmode k hk
    rw [hm]
    decide
  change execQpush c d8 p q b s = _
  unfold execQpush
  simp only [hnm, Bool.not_true, Bool.false_eq_true, if_false, h0, State.queueAt_eq hg, hx, hgood, State.map_entryLane hg hin, hfree]
  rfl

/-- As many lanes as there are, or as there are entries, take one. -/
theorem length_takers (act : Mask) (first room : Nat) : (takers act first room).length = min (maskLanes act).length room := by
  rw [takers_eq, List.length_map, List.length_range]

/-- What a QPUSH leaves before it advances: the bytes of its entries are written and the answer is bound. -/
theorem State.pushed_spec {n : Nat} (hn : n ≤ (maskLanes (s.act c)).length) (p : PReg) (q : BitVec 3) (data : Nat → Nat) (first : Nat) (ts : List (Nat × Nat))
    (hfree : ∀ k < n, s.modeAt (g.entryCell x (first + k)) = 0 ∧ s.behind s.nextId false (g.entryCell x (first + k)) x.esz = false) :
    let accs := g.entryAccs x (maskLanes (s.act c)) data first n
    let last := if n = 0 then s.nextId else s.nextId + 1
    ∃ snaps ctime others conds arrays reqs poison,
      s.pushed c p q x ts accs = { s with
        cur := { s.cur.timed snaps ctime with pends := s.cur.pends ++ [⟨last, [], [p], false, none, false, s.cur.inHandler⟩] }
        others := others, conds := conds, arrays := arrays, reqs := reqs, nextId := last + 1
        wgs := (s.putQueue q { x with tail := x.tail + BitVec.ofNat 32 ts.length }).wgs
        mem := { s.mem with spad := accs.foldl (fun spad y => y.stored x.esz spad) s.mem.spad, spadPoison := poison } }
      ∧ arrays.map ArrayRec.unqueued = s.arrays.map ArrayRec.unqueued
      ∧ ∃ r ∈ reqs, r.id = last ∧ r.served = true ∧ r.act = s.act c ∧ r.kind = .mem (unitAnswer p x ts) := by
  intro accs last
  obtain ⟨snaps, ctime, others, conds, arrays, reqs, poison, hwrites, harrays⟩ := State.enter_writes
    (s := s.putQueue q { x with tail := x.tail + BitVec.ofNat 32 ts.length }) hn data first hfree
  obtain ⟨arrays', reqs', hanswer, harrays', r, hr, hid, hserved, -, hact, hkind⟩ := State.enterQueue_load (s := { s with
      cur := s.cur.timed snaps ctime, others := others, conds := conds, arrays := arrays, reqs := reqs, nextId := last
      wgs := (s.putQueue q { x with tail := x.tail + BitVec.ofNat 32 ts.length }).wgs
      mem := { s.mem with spad := accs.foldl (fun spad y => y.stored x.esz spad) s.mem.spad, spadPoison := poison } })
    (c := c) rfl (untouched_unitAnswer p x ts) [] [p] fun _ h => absurd h List.not_mem_nil
  rw [State.addReq_nil] at hanswer
  exact ⟨snaps, ctime, others, conds, arrays', reqs', poison,
    (congrArg (fun u : State => u.enterQueue c (unitAnswer p x ts) [] [p]) hwrites).trans hanswer, harrays'.trans harrays, r, hr, hid, hserved, hact, hkind⟩

/-! ## QPOP (R193, R349) -/

/-- The registers of reads are those that are read. -/
theorem map_reg_dests (dests : List Reg) : (dests.map fun r => (⟨r, .g []⟩ : RegWrite)).map (·.reg) = dests := by
  rw [List.map_map]
  exact List.map_id' _

/-- The access of a QPOP: one entry for each lane that takes one. -/
def popReq (p : PReg) (x : LaneQueue) (ts : List (Nat × Nat)) (accs : List LaneAcc) (dests : List Reg) : MemReq :=
  ⟨.spad, false, .load false, x.esz, 0, 0, 0, accs, dests, false, some (p, takenMask ts)⟩

/-- The state after a QPOP, before it advances: the head has moved, and its entries are read. -/
def State.popped (s : State) (c : Ctl) (p : PReg) (q : BitVec 3) (x : LaneQueue) (ts : List (Nat × Nat)) (accs : List LaneAcc) (dests : List Reg) : State :=
  (s.putQueue q { x with head := x.head + BitVec.ofNat 32 ts.length }).enterQueue c (popReq p x ts accs dests) (dests.map fun r => ⟨r, .g []⟩) [p]

/-- A memory access that reads registers and answers with a predicate enters: they are bound and pending. -/
theorem State.addReq_dests (s : State) (c : Ctl) (m : MemReq) (dests : List Reg) (p : PReg) :
    s.addReq c (.mem m) (dests.map fun r => ⟨r, .g []⟩) [p] false true = { s with
      nextId := s.nextId + 1, reqs := s.reqs ++ [s.newReq c m]
      cur := { s.cur with
        arch := s.cur.arch.bind s.cur.live (s.act c) (dests.map fun r => ⟨r, .g []⟩)
        pends := s.cur.pends ++ [⟨s.nextId, dests, [p], false, none, false, s.cur.inHandler⟩] } } := by
  simp only [State.addReq, map_reg_dests, List.isEmpty_cons, Bool.and_false, Bool.false_eq_true, if_false]
  rfl

/-- What a QPOP leaves before it advances: the registers of its entries and its predicate are bound, and its values are read. -/
theorem State.popped_spec {n : Nat} (hn : n ≤ (maskLanes (s.act c)).length) (p : PReg) (q : BitVec 3) (first : Nat) (ts : List (Nat × Nat)) {dests : List Reg}
    (hfree : ∀ k < n, s.behind s.nextId true (g.entryCell x (first + k)) x.esz = false) :
    let accs := g.entryAccs x (maskLanes (s.act c)) (fun _ => 0) first n
    ∃ arrays reqs,
      s.popped c p q x ts accs dests = { s with
        cur := { s.cur with
          arch := s.cur.arch.bind s.cur.live (s.act c) (dests.map fun r => ⟨r, .g []⟩)
          pends := s.cur.pends ++ [⟨s.nextId, dests, [p], false, none, false, s.cur.inHandler⟩] }
        wgs := (s.putQueue q { x with head := x.head + BitVec.ofNat 32 ts.length }).wgs, arrays := arrays, reqs := reqs, nextId := s.nextId + 1 }
      ∧ arrays.map ArrayRec.unqueued = s.arrays.map ArrayRec.unqueued
      ∧ ∃ r ∈ reqs, r.id = s.nextId ∧ r.served = true ∧ r.checked = true ∧ r.act = s.act c
        ∧ r.kind = .mem { popReq p x ts accs dests with lanes := accs.map (LaneAcc.loaded s.mem.spad x.esz) } := by
  intro accs
  obtain ⟨arrays, reqs, henter, harrays, hreq⟩ := State.enterQueue_load (s := s.putQueue q { x with head := x.head + BitVec.ofNat 32 ts.length }) (c := c)
    (m := popReq p x ts accs dests) rfl (Workgroup.untouched_entryAccs hn _ _ _) (dests.map fun r => ⟨r, .g []⟩) [p] fun y hy => by
      obtain ⟨k, hk, rfl⟩ := Workgroup.mem_entryAccs.1 hy
      exact hfree k hk
  exact ⟨arrays, reqs, by rw [State.popped, henter, State.addReq_dests]; rfl, harrays, hreq⟩

/-- No lane fails whose entry has no uncorrectable error (R238). -/
theorem State.failingLanes_popReq {act : Mask} {n : Nat} (hn : n ≤ (maskLanes act).length) (hbase : x.base % x.esz = 0) {data : Nat → Nat} {first : Nat}
    (hpoison : ∀ k < n, g.entryCell x (first + k) / 8 ∉ s.mem.spadPoison) (core : Nat) (p : PReg) (ts : List (Nat × Nat)) (dests : List Reg) :
    s.failingLanes core (popReq p x ts (g.entryAccs x (maskLanes act) data first n) dests) = [] := by
  have hun : (popReq p x ts (g.entryAccs x (maskLanes act) data first n) dests).Untouched := Workgroup.untouched_entryAccs hn _ _ _
  unfold State.failingLanes
  rw [hun.parts.1, hun.parts.2, List.filter_eq_nil_iff]
  intro y hy
  obtain ⟨k, hk, rfl⟩ := Workgroup.mem_entryAccs.1 hy
  have hclean : (s.mem.spadPoison.any fun w => decide (g.entryCell x (first + k) / 8 ≤ w) && decide (w ≤ (g.entryCell x (first + k) + x.esz - 1) / 8)) = false := by
    rw [List.any_eq_false]
    intro w hw hrange
    rw [g.entryCell_word hbase, Bool.and_eq_true, decide_eq_true_eq, decide_eq_true_eq] at hrange
    exact hpoison k hk (le_antisymm hrange.1 hrange.2 ▸ hw)
  rw [List.any_cons, LaneAcc.partAt_zero]
  simp only [List.any_nil, Bool.or_false, Bool.and_eq_true]
  exact fun h => absurd (h.2.symm.trans hclean) (by decide)

/-- QPOP pops when its ring may be used and its entries have no uncorrectable error. -/
theorem State.exec_qpop {d8 : Bool} {p : PReg} {d : Reg} (hg : s.wgOf s.cur.wg = some g)
    (hr : s.Ready c (if d8 then [d, d + 1] else [d]) (if d8 then [d, d + 1] else [d]) false) (hx : g.queues[q.toNat]? = some x)
    (hinit : x.init = true) (hsize : x.esz8 = d8) (hbase : x.base % x.esz = 0) (hin : g.holds x)
    (hpoison : ∀ k < min (maskLanes (s.act c)).length x.count, g.entryCell x (x.head.toNat + k) / 8 ∉ s.mem.spadPoison) :
    exec (.qpop c d8 p q d) s = .next ((s.popped c p q x (takers (s.act c) x.head.toNat x.count)
      (g.entryAccs x (maskLanes (s.act c)) (fun _ => 0) x.head.toNat (min (maskLanes (s.act c)).length x.count)) (if d8 then [d, d + 1] else [d])).advance c) := by
  have hnm : (if d8 then pairRegs d else [d]).all s.cur.nameable = true := List.all_eq_true.2 hr.named
  have hov : s.cur.overflow (s.act c) ((if d8 then pairRegs d else [d]).map fun r => ⟨r, .g []⟩) = none :=
    hr.fits _ (map_reg_dests _) fun h => absurd h Bool.false_ne_true
  have hgood : (!x.init || x.esz8 != d8) = false := by simp [hinit, hsize]
  have hwell : s.failingLanes s.cur.core (popReq p x (takers (s.act c) x.head.toNat x.count)
      (g.entryAccs x (maskLanes (s.act c)) (fun _ => 0) x.head.toNat (min (maskLanes (s.act c)).length x.count)) (if d8 then pairRegs d else [d])) = [] :=
    State.failingLanes_popReq (Nat.min_le_left _ _) hbase hpoison _ _ _ _
  change execQpop c d8 p q d s = _
  unfold execQpop
  simp only [popReq] at hwell
  simp only [hnm, Bool.not_true, Bool.false_eq_true, if_false, hr.some, hov, State.queueAt_eq hg, hx, hgood, State.map_entryLane hg hin, hwell]
  rfl

end

/-- A binding leaves every other register as it was. -/
theorem getD_bindOne_of_ne (live act : Mask) (vs : List VReg) (x : RegWrite) {r : Reg} (h : r ≠ x.reg) :
    (bindOne live act vs x).getD r.toNat (.u 0) = vs.getD r.toNat (.u 0) := by
  unfold bindOne
  dsimp only
  split
  · rw [List.getD_eq_getElem?_getD, getElem?_putAt, if_pos r.isLt, Option.getD_some, if_neg fun e => h (BitVec.eq_of_toNat_eq e)]
  · rfl

/-- Bindings one after another do. -/
theorem getD_foldl_bindOne_of_notMem (live act : Mask) {r : Reg} : ∀ (ws : List RegWrite) (vs : List VReg), r ∉ ws.map (·.reg) →
    (ws.foldl (bindOne live act) vs).getD r.toNat (.u 0) = vs.getD r.toNat (.u 0)
  | [], _, _ => rfl
  | x :: ws, vs, h => by
    rw [List.map_cons, List.mem_cons, not_or] at h
    exact (getD_foldl_bindOne_of_notMem live act ws _ h.2).trans (getD_bindOne_of_ne live act vs x h.1)

/-- A register that no binding names is as it was. -/
theorem Arch.vreg_bind_of_notMem (a : Arch) (live act : Mask) {ws : List RegWrite} {r : Reg} (h : r ∉ ws.map (·.reg)) : (a.bind live act ws).vreg r = a.vreg r := by
  have hsub : r ∉ (a.bindable ws).map (·.reg) := by
    rw [Arch.bindable]
    split
    · exact fun hr => h ((List.filter_sublist.map _).subset hr)
    · exact h
  have hfile := getD_foldl_bindOne_of_notMem live act (a.bindable ws) a.vregs hsub
  rw [Arch.bind_eq]
  unfold Arch.vreg
  cases a.handler with
  | none => exact hfile
  | some h =>
    dsimp only
    rw [hfile]

/-! ## The statement -/

/-- What an entry takes fits in it. -/
theorem bitsAt_entry {x : LaneQueue} (s : State) (b : Reg) (l : Nat) :
    bitsAt (if x.esz8 then (s.rdPair b l).toNat else (s.rd b l).toNat) 0 64 % 256 ^ x.esz = if x.esz8 then (s.rdPair b l).toNat else (s.rd b l).toNat := by
  have hpair := (s.rdPair b l).isLt
  have hword := (s.rd b l).isLt
  rw [LaneQueue.esz, bitsAt, Nat.shiftRight_zero]
  cases x.esz8 <;> simp <;> omega

/-- Settles O48: each instruction is evaluated to one state, in which its entries have been accepted and made at once. -/
theorem laneQueueResults : Obligations.LaneQueueResults := by
  intro s c q a b d log2n d8 p x g lanes esz base size held slot cell queueIs inside dests taken answer modes hg h0
  refine ⟨fun ha hu hx hbase hfit => ?_, fun hx hinit hsize hbase hin => ?_⟩
  · obtain ⟨hadvanced, hframe, hwgs⟩ := s.putQueue_advance c q ⟨true, base, log2n.toNat, d8, 0, 0⟩
    exact ⟨_, State.exec_qinit hg h0 ha hu hx hbase hfit, hadvanced, hframe, hwgs⟩
  subst hsize
  have hholds : g.holds x := hin
  refine ⟨fun hnames hfree => ?_, fun hr hfree hpoison => ?_⟩
  · have hroom : ∀ k < min (maskLanes (s.act c)).length (x.size - x.count),
        s.modeAt (g.entryCell x (x.tail.toNat + k)) = 0 ∧ s.behind s.nextId false (g.entryCell x (x.tail.toNat + k)) x.esz = false := hfree
    have he := State.exec_qpush (p := p) hg h0 hx hinit rfl hholds hnames fun k hk => (hroom k hk).1
    obtain ⟨snaps, ctime, others, conds, arrays, reqs, poison, hpushed, harrays, req, hreq, hid, hserved, hact, hkind⟩ :=
      State.pushed_spec (s := s) (c := c) (x := x) (Nat.min_le_left _ _) p q (fun l => if x.esz8 then (s.rdPair b l).toNat else (s.rd b l).toNat) x.tail.toNat
        (takers (s.act c) x.tail.toNat (x.size - x.count)) hroom
    have hspec := State.advance_spec (s.pushed c p q x (takers (s.act c) x.tail.toNat (x.size - x.count))
      (g.entryAccs x (maskLanes (s.act c)) (fun l => if x.esz8 then (s.rdPair b l).toNat else (s.rd b l).toNat) x.tail.toNat
        (min (maskLanes (s.act c)).length (x.size - x.count)))) c
    rw [hpushed] at hspec he
    obtain ⟨arch, ym, hadv, hadvanced, hregs, hpreds⟩ := hspec
    rw [hadv] at he
    rw [length_takers] at he hadvanced
    refine ⟨_, he, ⟨hadvanced.lanes, hadvanced.handler⟩, rfl, rfl, harrays, hregs, hpreds, rfl, ⟨req, hreq, hid, hserved, hact, _, hkind, rfl, rfl, _, rfl, fun l _ => ?_⟩,
      fun k hk hone => ?_, fun z hz => ?_⟩
    · exact getLsbD_takenMask _ _ _ l
    · exact (readNum_foldl_stored _ k _ (Workgroup.getElem?_entryAccs hk) fun j y hj hjk => by
        obtain ⟨hjn, rfl⟩ := Workgroup.of_getElem?_entryAccs hj
        exact Workgroup.entryCell_apart g hbase fun h => hjk (hone j hjn h)).trans (bitsAt_entry s b _)
    · refine readByte_foldl_stored _ _ fun y hy => ?_
      obtain ⟨k, hk, rfl⟩ := Workgroup.mem_entryAccs.1 hy
      exact hz k hk
  · have hbehind : ∀ k < min (maskLanes (s.act c)).length x.count, s.behind s.nextId true (g.entryCell x (x.head.toNat + k)) x.esz = false := hfree
    have he := State.exec_qpop (p := p) hg hr hx hinit rfl hbase hholds hpoison
    obtain ⟨arrays, reqs, hpopped, harrays, req, hreq, hid, hserved, hchecked, hact, hkind⟩ := State.popped_spec (s := s) (c := c) (x := x)
      (Nat.min_le_left _ _) p q x.head.toNat (takers (s.act c) x.head.toNat x.count) (dests := if x.esz8 then [d, d + 1] else [d]) hbehind
    have hspec := State.advance_spec (s.popped c p q x (takers (s.act c) x.head.toNat x.count)
      (g.entryAccs x (maskLanes (s.act c)) (fun _ => 0) x.head.toNat (min (maskLanes (s.act c)).length x.count)) (if x.esz8 then [d, d + 1] else [d])) c
    rw [hpopped] at hspec he
    obtain ⟨arch, ym, hadv, hadvanced, hregs, hpreds⟩ := hspec
    rw [hadv] at he
    rw [length_takers] at he hadvanced
    refine ⟨_, he, ⟨hadvanced.lanes, hadvanced.handler⟩, rfl, rfl, harrays, fun o l hl => ?_, fun o ho => ?_, hpreds, rfl, req, hreq, hid, hserved, hchecked, hact,
      _, hkind, rfl, rfl, rfl, ⟨_, rfl, fun l _ => ?_⟩, (List.length_map _).trans Workgroup.length_entryAccs, fun k hk z hz => ?_⟩
    · rw [State.rd, State.reg, hregs o]
      exact Arch.lane_bind _ _ _ _ _ hl
    · rw [State.reg, hregs o]
      exact Arch.vreg_bind_of_notMem _ _ _ (by rwa [map_reg_dests])
    · exact getLsbD_takenMask _ _ _ l
    · have hk' : k < min (maskLanes (s.act c)).length x.count := hk
      rw [List.getElem?_map, Workgroup.getElem?_entryAccs hk'] at hz
      obtain rfl := Option.some.inj hz
      exact ⟨rfl, Nat.zero_add _⟩

end Sys2Proof.Machine
end

section
/-! PROOFS. After every step a stalled warp and a held split have a reason (O10). -/

namespace Sys2Proof.Machine

/-! ## What a turn settles (R158, R206, R229) -/

/-- A step settles the state that its turn leaves. -/
theorem step_settles {s t : State} (h : step s = .next t) : ∃ u : State, t = u.settle := by
  unfold step at h
  split at h
  · cases h
  · cases hu : s.turn.2.take s.turn.1 with
    | next u =>
      rw [hu] at h
      exact ⟨u, (Host.Outcome.next.inj h).symm⟩
    | fault r => rw [hu] at h; cases h
    | refused r => rw [hu] at h; cases h

/-- The warps after an update of every warp. -/
theorem State.mem_warps_mapWarps {s : State} {f : Warp → Warp} {w : Warp} : w ∈ (s.mapWarps f).warps ↔ ∃ v ∈ s.warps, f v = w :=
  List.mem_map (l := s.warps)

/-- A warp that is still stalled has an access to be checked (R229). -/
theorem State.unchecked_of_stalled {u : State} {w : Warp} (hw : w ∈ u.settle.warps) (hs : w.stalled = true) : u.settle.unchecked w.uid ≠ [] := by
  obtain ⟨v, -, rfl⟩ := State.mem_warps_mapWarps.1 hw
  obtain ⟨-, hopen⟩ := Bool.and_eq_true_iff.1 hs
  exact fun he => by simp [show u.unchecked v.uid = [] from he] at hopen

/-- A hold that stands for a queue has an entry that is not yet accepted (R158). -/
theorem State.entry_of_held {u : State} {w : Warp} {h : Hold} {ins : Nat} (hw : w ∈ u.settle.warps) (hh : h ∈ w.holds) (hk : h.kind = .queue ins) :
    ∃ e ∈ u.settle.copy.entries, e.ins = ins ∧ e.acc = 0 := by
  obtain ⟨v, -, rfl⟩ := State.mem_warps_mapWarps.1 hw
  obtain ⟨-, hwaits⟩ := List.mem_filter.1 hh
  rw [hk] at hwaits
  obtain ⟨e, he, hins⟩ := List.any_eq_true.1 hwaits
  exact ⟨e, he, by simpa using hins⟩

/-- A hold that stands for a bank dispatcher has a card that is not yet accepted (R206). -/
theorem State.card_of_held {u : State} {w : Warp} {h : Hold} {ins : Nat} (hw : w ∈ u.settle.warps) (hh : h ∈ w.holds) (hk : h.kind = .jobs ins) :
    ∃ k ∈ u.settle.cards, k.ins = ins ∧ k.acc = 0 := by
  obtain ⟨v, -, rfl⟩ := State.mem_warps_mapWarps.1 hw
  obtain ⟨-, hwaits⟩ := List.mem_filter.1 hh
  rw [hk] at hwaits
  obtain ⟨k, hcard, hins⟩ := List.any_eq_true.1 hwaits
  exact ⟨k, hcard, by simpa using hins⟩

/-- Settles O10: every step ends by settling, which drops the stalls and the holds whose reason has ended. -/
theorem everyStepSettles : Obligations.EveryStepSettles := by
  intro s t hstep w hw
  obtain ⟨u, rfl⟩ := step_settles hstep
  refine ⟨State.unchecked_of_stalled hw, fun h hh => ?_⟩
  cases hk : h.kind with
  | queue ins => exact State.entry_of_held hw hh hk
  | jobs ins => exact State.card_of_held hw hh hk
  | slots n => trivial

end Sys2Proof.Machine
end

section
/-! PROOFS. What a trap leaves: the handler entered (O38), or the warp exited and a record in the fault log (O41). -/

namespace Sys2Proof.Machine

/-! ## The handler is entered (R231, R232) -/

/-- Entering the handler sets the mask, the resume point and the record of the trap, and nothing else. -/
theorem State.enterHandler_enters (s : State) (cause : Nat) {detail aux : Nat} (lane : Option Nat) (addr : DWord) (acc : Nat) (actm hm : Mask) (tpc rpc : DWord)
    (hd : detail < 256) (ha : aux < 256) :
    s.EnteredHandler (s.enterHandler ⟨cause, detail, aux, lane, addr, acc, actm, hm, tpc, rpc⟩) hm rpc
      (recordOf cause detail aux lane tpc rpc addr acc actm s.myTide) := by
  unfold State.EnteredHandler State.enterHandler
  rw [TrapInfo.record_eq _ _ _ _ _ _ _ _ _ _ _ hd ha]

/-- A trap after the split has advanced enters the handler in the state that the advance leaves. -/
theorem State.TakesTraps.takeTrap_advance {s : State} (h : s.TakesTraps) (c : Ctl) (t : TrapInfo) : s.takeTrap (s.advance c) t = (s.advance c).enterHandler t := by
  have hhandler : (s.advance c).cur.arch.handler = none := by
    unfold State.advance
    rw [State.moveLanes_handler, h.outside]; rfl
  have htraph : (s.advance c).cur.hdr.traph ≠ 0 := by
    unfold State.advance
    rw [State.moveLanes_cur]
    exact h.handler
  have hchecked : s.unchecked s.cur.uid = [] := h.checked
  simp only [State.takeTrap, hchecked, List.isEmpty_nil, if_true, hhandler, htraph, if_false]

/-- The time of the warp does not move as it advances. -/
theorem State.myTide_advance (s : State) (c : Ctl) : (s.advance c).myTide = s.myTide := by
  unfold State.advance
  rw [State.moveLanes_state, State.myTide, State.moveLanes_cur]
  rfl

/-- An instruction that names a register beyond REGS is illegal (R31). -/
theorem State.commit_unnameable {s : State} {names : List Reg} {r : Reg} (hr : r ∈ names) (hn : s.cur.nameable r = false) (c : Ctl) (ws : List RegWrite)
    (ps : List (PReg × Mask)) (n : Counts) : s.commit c names ws ps n = s.illegal (s.act c) := by
  have hall : names.all s.cur.nameable = false := List.all_eq_false.2 ⟨r, hr, by simp [hn]⟩
  simp only [State.commit, hall, Bool.not_false, if_true]

/-- With an active lane `BRK` takes its trap at itself (R304). -/
theorem exec_brk {s : State} {c : Ctl} (ha : s.act c ≠ 0) : exec (.brk c) s = .next (s.trapP (s.act c) 16 0 0 none 0 4) := by
  change execBrk c s = _
  simp only [execBrk, ha, if_false]

/-- With an active lane `TRAP` takes its trap once the split has advanced (R365). -/
theorem exec_trap {s : State} {c : Ctl} (code : BitVec 8) (ha : s.act c ≠ 0) :
    exec (.trap c code) s = .next (s.takeTrap (s.advance c) ⟨15, code.toNat, 0, none, 0, 4, s.act c, s.split &&& s.cur.live, s.ipc, s.next c⟩) := by
  change execTrap c code s = _
  simp only [execTrap, ha, if_false]

/-- Settles O38: a warp that takes traps enters its handler, after the advance for `TRAP` and at the instruction for the others. -/
theorem trapEntry : Obligations.TrapEntry := by
  intro s c code d a b ht ha
  have htraps : ∀ {i : Instr} {cause : Nat}, exec i s = .next (s.trapP (s.act c) cause 0 0 none 0 4) → s.TrapsAt i c cause 0 0 none 0 4 :=
    fun he => ⟨_, he, ht.trapP_enters _ _ _ _ _ (by decide) (by decide)⟩
  refine ⟨htraps (exec_brk ha), ⟨_, exec_trap code ha, ?_⟩, fun hn => htraps ?_, fun hn => htraps ?_⟩
  · rw [ht.takeTrap_advance, ← s.myTide_advance c]
    exact (s.advance c).enterHandler_enters _ _ _ _ _ _ _ _ code.isLt (by decide)
  · exact congrArg Host.Outcome.next (State.commit_unnameable (names := [d, a]) (by simp) hn c _ _ _)
  · exact congrArg Host.Outcome.next (State.commit_unnameable (names := [d, a] ++ [b]) (by simp) hn c _ _ _)

/-! ## The fault log (R237) -/

/-- What a record leaves of memory and the notices does not depend on the warp in focus. -/
theorem State.logRecord_focus (s : State) (w : Warp) (r : LogRec) :
    (State.logRecord { s with cur := w } r).mem = (s.logRecord r).mem ∧ (State.logRecord { s with cur := w } r).notices = (s.logRecord r).notices := by
  constructor
  · simp only [State.logRecord, apply_ite State.mem]
    rfl
  · simp only [State.logRecord, apply_ite State.notices]
    rfl

/-! ## The warp exits (R41, R183, R235) -/

/-- A task that completes leaves memory and the notices. -/
theorem State.completeTask_mem (s : State) (brk : Option (Nat × Nat)) : (s.completeTask brk).mem = s.mem ∧ (s.completeTask brk).notices = s.notices := by
  unfold State.completeTask
  dsimp only
  split
  · exact ⟨rfl, rfl⟩
  · split
    · exact ⟨rfl, rfl⟩
    · split
      · exact ⟨rfl, rfl⟩
      · split <;> exact ⟨rfl, rfl⟩

/-- Noting that a warp exits leaves memory and the notices. -/
theorem State.noteExit_mem (s : State) (brk : Option (Nat × Nat)) : (s.noteExit brk).mem = s.mem ∧ (s.noteExit brk).notices = s.notices := by
  unfold State.noteExit
  split
  · exact s.completeTask_mem brk
  · exact ⟨rfl, rfl⟩

/-- A warp that is noted to exit has exited, in its handler or out of it as before. -/
theorem State.noteExit_of_exited {s : State} (brk : Option (Nat × Nat)) (h : s.cur.hasExited = true) :
    (s.noteExit brk).cur.hasExited = true ∧ (s.noteExit brk).cur.inHandler = s.cur.inHandler := by
  rw [State.noteExit_cur brk h]
  exact ⟨h, rfl⟩

/-- A warp whose lanes all exit has exited. -/
theorem Warp.hasExited_exitLanes (w : Warp) : (w.exitLanes w.live).hasExited = true := by
  obtain ⟨-, hlanes, -⟩ := Warp.exitLanes_spec w w.live _ fun _ => rfl
  rw [Warp.hasExited_iff]
  intro l hl
  rw [hlanes l hl]
  by_cases hlive : w.live.getLsbD l = true
  · rw [if_pos hlive]
  · have hst : (w.lane l).st = .exited := by
      rw [show w.live.getLsbD l = _ from Arch.getLsbD_live w.arch l] at hlive
      simp only [hl, decide_true, Bool.true_and, Lane.exited, Bool.not_eq_true', Bool.not_eq_false, beq_iff_eq] at hlive
      exact hlive
    rw [if_neg hlive, if_neg fun h => by simp [hst] at h]
    exact hst

/-- The warp out of its handler. -/
def Warp.outOfHandler (w : Warp) : Warp := { w with arch := { w.arch with handler := none } }

/-- Every lane of the warp in focus exits, out of its handler; memory and the notices stand. -/
theorem State.exitAll_spec (s : State) (brk : Option (Nat × Nat)) :
    (s.exitAll brk).cur.hasExited = true ∧ (s.exitAll brk).cur.inHandler = false ∧ (s.exitAll brk).mem = s.mem ∧ (s.exitAll brk).notices = s.notices := by
  have hall : s.exitAll brk = State.noteExit { s with cur := s.cur.outOfHandler.exitLanes s.cur.outOfHandler.live } brk := rfl
  have hexited := s.cur.outOfHandler.hasExited_exitLanes
  obtain ⟨hmem, hnotices⟩ := State.noteExit_mem { s with cur := s.cur.outOfHandler.exitLanes s.cur.outOfHandler.live } brk
  obtain ⟨hstill, hin⟩ := State.noteExit_of_exited (s := { s with cur := s.cur.outOfHandler.exitLanes s.cur.outOfHandler.live }) brk hexited
  rw [hall]
  exact ⟨hstill, hin, hmem, hnotices⟩

/-! ## Unhandled traps and double faults (R233, R235) -/

/-- The warp in focus has exited, out of its handler, and the fault log has taken `r`. -/
structure State.ExitsWith (s t : State) (r : LogRec) : Prop where
  exited : t.cur.hasExited = true
  outside : t.cur.inHandler = false
  mem : t.mem = (s.logRecord r).mem
  notices : t.notices = (s.logRecord r).notices

/-- The log is the same whether or not the split has advanced. -/
theorem State.ExitsWith.of_advance {s t : State} {c : Ctl} {r : LogRec} (h : (s.advance c).ExitsWith t r) : s.ExitsWith t r := by
  have hstate : s.advance c = { s with cur := (s.advance c).cur } := s.moveLanes_state c _
  obtain ⟨hmem, hnotices⟩ := s.logRecord_focus (s.advance c).cur r
  exact ⟨h.exited, h.outside, (h.mem.trans (congrArg (fun u : State => (u.logRecord r).mem) hstate)).trans hmem,
    (h.notices.trans (congrArg (fun u : State => (u.logRecord r).notices) hstate)).trans hnotices⟩

/-- The record of an unhandled trap of the warp in focus. -/
def State.trapRecord (s : State) (kind first second : Nat) (t : TrapInfo) : LogRec :=
  ⟨s.myTide, kind, first, t.detail % 256, second, s.cur.core, s.cur.pos, t.lane.getD 0, t.tpc, t.addr, s.cur.task.getD 0, s.cur.ctx.toNat, 0, 0⟩

/-- An unhandled trap exits the warp and logs its record. -/
theorem State.unhandledTrap_exits (s : State) (kind first second : Nat) (t : TrapInfo) :
    s.ExitsWith (s.unhandledTrap kind first second t) (s.trapRecord kind first second t) := by
  obtain ⟨hexited, houtside, hmem, hnotices⟩ := (s.logRecord (s.trapRecord kind first second t)).exitAll_spec (some (1, first))
  exact ⟨hexited, houtside, hmem, hnotices⟩

/-- The record of a double fault: of the first trap, what the words of its handler say, and the cause of the second (R235, R237). -/
def State.doubleRecord (s : State) (h : Handler) (second : Nat) : LogRec :=
  ⟨s.myTide, 2, (h.words.getD 0 0 >>> 24).toNat, ((h.words.getD 0 0 >>> 16) &&& 255).toNat, second, s.cur.core, s.cur.pos,
    if (h.words.getD 0 0).getLsbD 7 then (h.words.getD 0 0 &&& 127).toNat else 0, pairOf (h.words.getD 1 0) (h.words.getD 2 0),
    pairOf (h.words.getD 5 0) (h.words.getD 6 0), s.cur.task.getD 0, s.cur.ctx.toNat, 0, 0⟩

/-- What a double fault logs is read from the words of the handler. -/
theorem State.trapRecord_double (s : State) (h : Handler) (t : TrapInfo) : s.trapRecord 2 h.cause t.cause (h.firstTrap t) = s.doubleRecord h t.cause := by
  have hcause : h.cause = (h.words.getD 0 0 >>> 24).toNat := by
    rw [Handler.cause, BitVec.toNat_ushiftRight, Nat.shiftRight_eq_div_pow]
  have hdetail : bitsAt (h.words.getD 0 0).toNat 16 8 % 256 = ((h.words.getD 0 0 >>> 16) &&& 255).toNat := by
    rw [BitVec.toNat_and, BitVec.toNat_ushiftRight]
    exact (Nat.mod_mod _ _).trans (Nat.and_two_pow_sub_one_eq_mod _ 8).symm
  have hlane : (if bitAt (h.words.getD 0 0).toNat 7 then some (bitsAt (h.words.getD 0 0).toNat 0 7) else none).getD 0
      = if (h.words.getD 0 0).getLsbD 7 then (h.words.getD 0 0 &&& 127).toNat else 0 := by
    rw [apply_ite (Option.getD · 0), BitVec.toNat_and]
    exact congrArg (if bitAt (h.words.getD 0 0).toNat 7 then · else 0) (Nat.and_two_pow_sub_one_eq_mod _ 7).symm
  rw [State.trapRecord, State.doubleRecord, hcause]
  simp only [Handler.firstTrap, hdetail, hlane]

/-- In the handler a trap is a double fault, taken in the state `u` that the instruction's effect leaves. -/
theorem State.takeTrap_double {s u : State} {h : Handler} (hm : s.mayTrap) (hh : u.cur.arch.handler = some h) (t : TrapInfo) :
    u.ExitsWith (s.takeTrap u t) (u.doubleRecord h t.cause) := by
  have hchecked : s.unchecked s.cur.uid = [] := hm
  simp only [State.takeTrap, hchecked, List.isEmpty_nil, if_true, hh]
  exact u.trapRecord_double h t ▸ u.unhandledTrap_exits _ _ _ _

/-- Without a handler to enter a trap is unhandled. -/
theorem State.takeTrap_unhandled {s : State} (hm : s.mayTrap) (hh : s.cur.arch.handler = none) (ht : s.cur.hdr.traph = 0) (t : TrapInfo) :
    s.ExitsWith (s.takeTrap s t) (s.trapRecord 1 t.cause 0 t) := by
  have hchecked : s.unchecked s.cur.uid = [] := hm
  simp only [State.takeTrap, hchecked, List.isEmpty_nil, if_true, hh, ht]
  exact s.unhandledTrap_exits _ _ _ _

/-- A double fault after the split has advanced logs what it would log before. -/
theorem State.takeTrap_double_advance {s : State} {h : Handler} (hm : s.mayTrap) (hh : s.cur.arch.handler = some h) (c : Ctl) (t : TrapInfo) :
    s.ExitsWith (s.takeTrap (s.advance c) t) (s.doubleRecord h t.cause) := by
  have hhandler : ∃ pc, (s.advance c).cur.arch.handler = some { h with pc := pc } := by
    unfold State.advance
    rw [State.moveLanes_handler, hh]
    exact ⟨_, rfl⟩
  obtain ⟨pc, hpc⟩ := hhandler
  have hrecord : (s.advance c).doubleRecord { h with pc := pc } t.cause = s.doubleRecord h t.cause := by
    rw [State.doubleRecord, s.myTide_advance c, State.advance, State.moveLanes_cur]
    rfl
  exact State.ExitsWith.of_advance (hrecord ▸ State.takeTrap_double hm hpc t)

/-! ## Instructions that the handler may not use (R233) -/

section
variable {s : State} {c : Ctl} (ha : s.act c ≠ 0) (hi : s.cur.inHandler = true)
include ha hi

/-- In the handler a call is illegal, whatever registers it names. -/
theorem callOp_inHandler (names : List Reg) (computed : Bool) (f : Nat → DWord) : callOp s c names computed f = s.illegal (s.act c) := by
  simp only [callOp, ha, hi, if_false, if_true, State.barred, ite_self]

/-- In the handler every form of `BAR` is illegal, whatever the barrier. -/
theorem State.barOp_inHandler (b : BitVec 5) (k : State) : s.barOp c b k = s.illegal (s.act c) := by
  simp only [State.barOp, ha, hi, if_false, if_true, State.barred, ite_self]

/-- In the handler `RET` is illegal. -/
theorem exec_ret_inHandler : exec (.ret c) s = .next (s.illegal (s.act c)) := by
  change execRet c s = _
  simp only [execRet, ha, hi, if_false, if_true, State.barred, ite_self]

/-- In the handler `JWAIT` is illegal. -/
theorem exec_jwait_inHandler (j : SetNo) : exec (.jwait c j) s = .next (s.illegal (s.act c)) := by
  change execJwait c j s = _
  simp only [execJwait, ha, hi, if_false, if_true, State.barred]

end

/-- Settles O41: without a handler `BRK` is unhandled; in it every listed instruction traps, and the trap is a double fault. -/
theorem unhandledTraps : Obligations.UnhandledTraps := by
  intro s c code off a j b ha hm w logs
  refine ⟨fun hh ht => ?_, ?_⟩
  · obtain ⟨hexited, -, hmem, hnotices⟩ := State.takeTrap_unhandled hm hh ht ⟨16, 0, 0, none, 0, 4, s.act c, s.split &&& s.cur.live, s.ipc, s.ipc⟩
    exact ⟨_, exec_brk ha, hexited, hmem, hnotices⟩
  · intro h hh first doubles
    have hi : s.cur.inHandler = true := by simp [Warp.inHandler, show s.cur.arch.handler = some h from hh]
    have hdouble : ∀ {i : Instr} {second : Nat} {t : State}, exec i s = .next t → s.ExitsWith t (s.doubleRecord h second) → doubles i second :=
      fun he ht => ⟨_, he, ht.exited, ht.outside, ht.mem, ht.notices⟩
    have hillegal : ∀ {i : Instr}, exec i s = .next (s.illegal (s.act c)) → doubles i 1 := fun he => hdouble he (State.takeTrap_double hm hh _)
    have hcall := callOp_inHandler ha hi
    have hbar := State.barOp_inHandler ha hi b
    exact ⟨hdouble (exec_brk ha) (State.takeTrap_double hm hh _), hdouble (exec_trap code ha) (State.takeTrap_double_advance hm hh c _),
      hillegal (congrArg _ (hcall _ _ _)), hillegal (congrArg _ (hcall _ _ _)),
      hillegal (exec_ret_inHandler ha hi), hillegal (exec_jwait_inHandler ha hi j),
      hillegal (congrArg _ (hbar _)), hillegal (congrArg _ (hbar _)), hillegal (congrArg _ (hbar _))⟩

end Sys2Proof.Machine
end

section
/-! PROOFS. The words of an instruction and their fields; the decoder and the encoder agree (O1, O2, O3, O4). -/

namespace Sys2Proof

open Machine WellFormed Encode

/-! ## Slices of words -/

/-- The slice at bit 0 that takes every bit. -/
theorem extractLsb'_self {n k : Nat} (x : BitVec n) (h : k = 0) : x.extractLsb' k n = x := by
  subst h
  exact BitVec.extractLsb'_eq_self

/-- The slice of a word that was widened. -/
theorem extractLsb'_setWidth_self {n m : Nat} (x : BitVec n) (h : n ≤ m) : (x.setWidth m).extractLsb' 0 n = x := by
  rw [BitVec.extractLsb'_setWidth_of_le (by omega), BitVec.extractLsb'_eq_self]

/-- A flag is its own bit 0. -/
theorem getLsbD_ofBool_self (b : Bool) {i : Nat} (h : i = 0) : (BitVec.ofBool b).getLsbD i = b := by
  subst h
  simp

/-- The bit of a flag that stands lowest. -/
theorem getLsbD_append_ofBool {n : Nat} (x : BitVec n) (b : Bool) {i : Nat} (h : i = 0) : (x ++ BitVec.ofBool b).getLsbD i = b := by
  rw [BitVec.getLsbD_append, if_pos (by omega), getLsbD_ofBool_self b h]

/-- A bit above the low part. -/
theorem getLsbD_append_high {n m : Nat} (x : BitVec n) (y : BitVec m) {i : Nat} (h : m ≤ i) : (x ++ y).getLsbD i = x.getLsbD (i - m) := by
  rw [BitVec.getLsbD_append, if_neg (by omega)]

/-- A flag as the slice of one bit. -/
theorem ofBool_getLsbD {n : Nat} (x : BitVec n) (i : Nat) : BitVec.ofBool (x.getLsbD i) = x.extractLsb' i 1 := by
  ext j hj
  obtain rfl : j = 0 := by omega
  simp

/-! ## The three words and their fields (R243 to R245) -/

/-- The words of some fields hold those fields. -/
theorem Raw.ofWords_words (r : Raw) : Raw.ofWords r.base r.ext r.lit = r := by
  cases r
  simp only [Raw.ofWords, Raw.base, Raw.ext, Raw.mk.injEq, and_true]
  refine ⟨?_, ?_, ?_, ?_, ?_, ?_, ?_, ?_, ?_, ?_, ?_, ?_, ?_, ?_, ?_, ?_, ?_, ?_, ?_, ?_⟩ <;>
    simp (disch := omega) only [BitVec.extractLsb'_append_eq_of_add_le, BitVec.extractLsb'_append_eq_of_le, extractLsb'_self,
      getLsbD_append_ofBool, getLsbD_append_high, getLsbD_ofBool_self]

/-- The base word is made of its fields. -/
theorem Raw.base_ofWords (base : Word) (ext lit : DWord) : (Raw.ofWords base ext lit).base = base := by
  simp (disch := omega) only [Raw.ofWords, Raw.base, ofBool_getLsbD, BitVec.extractLsb'_append_extractLsb'_eq_extractLsb']
  exact BitVec.extractLsb'_eq_self

/-- The extension word is made of its fields. -/
theorem Raw.ext_ofWords (base : Word) (ext lit : DWord) : (Raw.ofWords base ext lit).ext = ext := by
  simp (disch := omega) only [Raw.ofWords, Raw.ext, ofBool_getLsbD, BitVec.extractLsb'_append_extractLsb'_eq_extractLsb']
  exact BitVec.extractLsb'_eq_self

/-! ## Words as bytes (R2, R241) -/

/-- The decoder's bytes are those of the machine. -/
theorem leBytes_eq_bytesLE (n : Nat) : ∀ x, leBytes n x = bytesLE n x := by
  induction n with
  | zero => intro x; rfl
  | succ n ih => intro x; rw [leBytes, bytesLE, ih]

/-- The decoder's numbers are those of the machine. -/
theorem leNat_eq_numLE (bs : List Byte) : leNat bs = numLE bs := by
  induction bs with
  | nil => rfl
  | cons b bs ih => rw [leNat, numLE, ih]

/-- A byte string is the bytes of its number. -/
theorem bytesLE_numLE (bs : List Byte) : bytesLE bs.length (numLE bs) = bs := by
  induction bs with
  | nil => rfl
  | cons b bs ih =>
    have hb := b.isLt
    have hlow : BitVec.ofNat 8 (b.toNat + 256 * numLE bs) = b := by
      apply BitVec.eq_of_toNat_eq
      rw [BitVec.toNat_ofNat]
      omega
    have hrest : (b.toNat + 256 * numLE bs) / 256 = numLE bs := by omega
    rw [List.length_cons, bytesLE, numLE, hlow, hrest, ih]

/-- The number of a byte string has no more bytes than it. -/
theorem numLE_lt (bs : List Byte) : numLE bs < 256 ^ bs.length := by
  rw [← bytesLE_numLE bs, length_bytesLE, numLE_bytesLE]
  exact Nat.mod_lt _ (Nat.pow_pos (by decide))

/-- A word is read back from its bytes. -/
theorem ofNat_leNat_leBytes {n k : Nat} (h : 2 ^ n = 256 ^ k) (x : BitVec n) : BitVec.ofNat n (leNat (leBytes k x.toNat)) = x := by
  rw [leNat_eq_numLE, leBytes_eq_bytesLE, numLE_bytesLE, ← h, Nat.mod_eq_of_lt x.isLt, BitVec.ofNat_toNat, BitVec.setWidth_eq]

/-- Bytes are read back from their word. -/
theorem leBytes_ofNat_leNat {n k : Nat} (h : 2 ^ n = 256 ^ k) {bs : List Byte} (hk : bs.length = k) :
    leBytes k (BitVec.ofNat n (leNat bs)).toNat = bs := by
  subst hk
  rw [leNat_eq_numLE, leBytes_eq_bytesLE, BitVec.toNat_ofNat, h, Nat.mod_eq_of_lt (numLE_lt bs), bytesLE_numLE]

/-- As many bytes as asked. -/
theorem length_leBytes (n x : Nat) : (leBytes n x).length = n := by rw [leBytes_eq_bytesLE, length_bytesLE]

/-- The base word at the head of a byte string. -/
def baseOf (bs : List Byte) : Word := BitVec.ofNat 32 (leNat (bs.take 4))

/-- The double word at an offset of a byte string. -/
def dwordAt (k : Nat) (bs : List Byte) : DWord := BitVec.ofNat 64 (leNat ((bs.drop k).take 8))

/-- The base word is read from its four bytes. -/
theorem baseOf_leBytes (x : Word) (bs : List Byte) : baseOf (leBytes 4 x.toNat ++ bs) = x := by
  rw [baseOf, List.take_left' (length_leBytes _ _), ofNat_leNat_leBytes (by decide)]

/-- A double word is read from its eight bytes. -/
theorem dwordAt_leBytes {k : Nat} {xs : List Byte} (hk : xs.length = k) (x : DWord) (bs : List Byte) :
    dwordAt k (xs ++ (leBytes 8 x.toNat ++ bs)) = x := by
  rw [dwordAt, List.drop_left' hk, List.take_left' (length_leBytes _ _), ofNat_leNat_leBytes (by decide)]

/-- The four bytes of the base word. -/
theorem leBytes_baseOf {bs : List Byte} (h : 4 ≤ bs.length) : leBytes 4 (baseOf bs).toNat = bs.take 4 :=
  leBytes_ofNat_leNat (by decide) (List.length_take_of_le h)

/-- The eight bytes of a double word. -/
theorem leBytes_dwordAt {k : Nat} {bs : List Byte} (h : k + 8 ≤ bs.length) : leBytes 8 (dwordAt k bs).toNat = (bs.drop k).take 8 :=
  leBytes_ofNat_leNat (by decide) (List.length_take_of_le (by rw [List.length_drop]; omega))

/-- The four LEN codes. -/
theorem len_cases (x : BitVec 2) : x = 0 ∨ x = 1 ∨ x = 2 ∨ x = 3 := by
  revert x
  decide

/-- The fields read from bytes, by the LEN code of the base word (R241). -/
theorem rawOfBytes_eq {bs : List Byte} {n : BitVec 2} (h : (baseOf bs).extractLsb' 0 2 = n) : rawOfBytes bs =
    Raw.ofWords (baseOf bs) (if n.getLsbD 0 then dwordAt 4 bs else 0)
      (if n.getLsbD 1 then (if n.getLsbD 0 then dwordAt 12 bs else dwordAt 4 bs) else 0) := by
  have hraw : rawOfBytes bs = if n == 0 then Raw.ofWords (baseOf bs) 0 0 else if n == 1 then Raw.ofWords (baseOf bs) (dwordAt 4 bs) 0
      else if n == 2 then Raw.ofWords (baseOf bs) 0 (dwordAt 4 bs) else Raw.ofWords (baseOf bs) (dwordAt 4 bs) (dwordAt 12 bs) := by
    subst h
    rfl
  rw [hraw]
  rcases len_cases n with rfl | rfl | rfl | rfl <;> rfl

/-- The LEN code of the fields read from bytes. -/
theorem rawOfBytes_len (bs : List Byte) : (rawOfBytes bs).len = (baseOf bs).extractLsb' 0 2 := by
  rw [rawOfBytes_eq rfl]
  rfl

/-- The fields use no word that LEN leaves out (R241). -/
def Raw.Present (r : Raw) : Prop := (r.len.getLsbD 0 = false → r.ext = 0) ∧ (r.len.getLsbD 1 = false → r.lit = 0)

/-- The bytes of some fields, by their LEN code. -/
theorem Raw.bytes_eq {r : Raw} {n : BitVec 2} (h : r.len = n) : r.bytes = leBytes 4 r.base.toNat ++
    ((if n.getLsbD 0 then leBytes 8 r.ext.toNat else []) ++ (if n.getLsbD 1 then leBytes 8 r.lit.toNat else [])) := by
  subst h
  exact List.append_assoc _ _ _

/-- Fields are read back from their bytes, whatever follows. -/
theorem rawOfBytes_bytes {r : Raw} (h : r.Present) (rest : List Byte) : rawOfBytes (r.bytes ++ rest) = r := by
  have hwords := r.ofWords_words
  have hbase : baseOf (r.bytes ++ rest) = r.base := by rw [Raw.bytes_eq rfl, List.append_assoc, baseOf_leBytes]
  obtain ⟨hext, hlit⟩ := h
  have hlen : (baseOf (r.bytes ++ rest)).extractLsb' 0 2 = r.len := by rw [hbase]; exact congrArg Raw.len hwords
  rw [rawOfBytes_eq hlen, hbase]
  refine Eq.trans ?_ hwords
  have h4 := length_leBytes 4 r.base.toNat
  rcases len_cases r.len with hn | hn | hn | hn <;> rw [hn] at hext hlit ⊢ <;> rw [Raw.bytes_eq hn]
  · rw [hext rfl, hlit rfl]; rfl
  · rw [hlit rfl]
    exact congrArg (Raw.ofWords r.base · 0) ((congrArg (dwordAt 4) (by simp)).trans (dwordAt_leBytes h4 r.ext rest))
  · rw [hext rfl]
    exact congrArg (Raw.ofWords r.base 0) ((congrArg (dwordAt 4) (by simp)).trans (dwordAt_leBytes h4 r.lit rest))
  · have h12 : (leBytes 4 r.base.toNat ++ leBytes 8 r.ext.toNat).length = 12 := by rw [List.length_append, length_leBytes, length_leBytes]
    exact congrArg₂ (Raw.ofWords r.base) ((congrArg (dwordAt 4) (by simp)).trans (dwordAt_leBytes h4 r.ext (leBytes 8 r.lit.toNat ++ rest)))
      ((congrArg (dwordAt 12) (by simp)).trans (dwordAt_leBytes h12 r.lit rest))

/-- The length of an instruction's bytes (R241). -/
theorem Raw.length_bytes (r : Raw) : r.bytes.length = lenBytes r.len := by
  rw [Raw.bytes_eq rfl, List.length_append, length_leBytes, List.length_append]
  rcases len_cases r.len with hn | hn | hn | hn <;> rw [hn] <;> simp [length_leBytes, lenBytes]

/-- Bytes are those of the fields read from them, and what follows. -/
theorem bytes_rawOfBytes {bs : List Byte} (h : lenBytes (rawOfBytes bs).len ≤ bs.length) :
    (rawOfBytes bs).bytes ++ bs.drop (lenBytes (rawOfBytes bs).len) = bs := by
  have hlen := rawOfBytes_len bs
  have hraw := rawOfBytes_eq (bs := bs) rfl
  rw [← hlen] at hraw
  have hbase : (rawOfBytes bs).base = baseOf bs := by rw [hraw, Raw.base_ofWords]
  have hext := congrArg Raw.ext hraw
  have hlit := congrArg Raw.lit hraw
  rw [Raw.ext_ofWords] at hext
  have h12 : bs.take 12 = bs.take 4 ++ (bs.drop 4).take 8 := List.take_add (i := 4) (j := 8)
  have h20 : bs.take 20 = bs.take 12 ++ (bs.drop 12).take 8 := List.take_add (i := 12) (j := 8)
  have hhead : (rawOfBytes bs).bytes = bs.take (lenBytes (rawOfBytes bs).len) := by
    rw [Raw.bytes_eq rfl, hbase, hext, hlit]
    rcases len_cases (rawOfBytes bs).len with hn | hn | hn | hn <;> rw [hn] at h ⊢ <;> simp only [lenBytes] at h ⊢
    · rw [leBytes_baseOf h]
      exact List.append_nil _
    · rw [leBytes_baseOf (le_trans (by decide) h)]
      refine Eq.trans ?_ h12.symm
      exact congrArg (bs.take 4 ++ ·) ((List.append_nil _).trans (leBytes_dwordAt h))
    · rw [leBytes_baseOf (le_trans (by decide) h)]
      refine Eq.trans ?_ h12.symm
      exact congrArg (bs.take 4 ++ ·) (leBytes_dwordAt h)
    · rw [leBytes_baseOf (le_trans (by decide) h)]
      refine Eq.trans ?_ (h20.trans (by rw [h12, List.append_assoc])).symm
      exact congrArg (bs.take 4 ++ ·) (congrArg₂ (· ++ ·) (leBytes_dwordAt (le_trans (by decide) h)) (leBytes_dwordAt h))
  rw [hhead, List.take_append_drop]

/-! ## Which fields stand in which word -/

/-- LEN is one of the codes the form accepts. -/
theorem len_mem_of_lenOk {c : Ctl} {ls : List Nat} (h : lenOk c ls = true) : c.len.toNat ∈ ls := by
  simp only [lenOk, Bool.and_eq_true, List.contains_eq_mem, decide_eq_true_eq] at h
  exact h.1

/-- A form whose codes are odd has the extension word. -/
theorem hasExt_of_lenOk {c : Ctl} {ls : List Nat} (h : lenOk c ls = true) (hls : ∀ n ∈ ls, n % 2 = 1) : c.len.getLsbD 0 = true := by
  have := hls _ (len_mem_of_lenOk h)
  rcases len_cases c.len with hn | hn | hn | hn <;> simp [hn] at this ⊢

/-- A form whose codes are 2 and 3 has the literal word. -/
theorem hasLit_of_lenOk {c : Ctl} {ls : List Nat} (h : lenOk c ls = true) (hls : ∀ n ∈ ls, 2 ≤ n) : c.len.getLsbD 1 = true := by
  have := hls _ (len_mem_of_lenOk h)
  rcases len_cases c.len with hn | hn | hn | hn <;> simp [hn] at this ⊢

/-- A form whose codes are 0 and 1 has no literal word. -/
theorem noLit_of_lenOk {c : Ctl} {ls : List Nat} (h : lenOk c ls = true) (hls : ∀ n ∈ ls, n < 2) : c.len.getLsbD 1 = false := by
  have := hls _ (len_mem_of_lenOk h)
  rcases len_cases c.len with hn | hn | hn | hn <;> simp [hn] at this ⊢

/-- Without an extension word TID and YH read as zero (R246). -/
theorem tid_yh_of_lenOk {c : Ctl} {ls : List Nat} (h : lenOk c ls = true) (he : c.len.getLsbD 0 = false) : c.tid = 0 ∧ c.yh = false := by
  have he : c.hasExt = false := he
  simpa [lenOk, he] using (Bool.and_eq_true_iff.1 h).2

/-- Without an extension word the fields it would carry are zero (R244). -/
theorem of_ext {c : Ctl} {p : Bool} (h : ext c p = true) (he : c.len.getLsbD 0 = false) : p = true := by
  have he : c.hasExt = false := he
  simpa [ext, he] using h

/-- A well-formed instruction without an extension word has no field in it. -/
theorem Instr.ext_eq_zero {i : Instr} {r : Raw} (hw : i.wellFormed = true) (hr : i.toRaw = some r) (he : r.len.getLsbD 0 = false) : r.ext = 0 := by
  replace hw := And.intro hw True.intro
  cases i <;> cases hr <;> simp only [Instr.wellFormed, Bool.and_eq_true, and_assoc] at hw <;> obtain ⟨hlen, hw⟩ := hw
  case imad | imadImmediate | bfe | bfi | sel | selImmediate | ffma | ffmaImmediate | hfma2 | hfma2Immediate | fclass | ldx | stx | atomsCluster
    | fence | cctlWb | cctlIcore | cctlIdie | cctlIdev | jenterF | barArrive | barWait | bcopy | bcopyr | xred | qfence | amode | acfg | axm
    | aqryImmediate | invokeCore | invokePark | await | awaitT | hpoll | swrite | timeCc | sleepRegister | sleepAbs | statOne =>
    exact absurd ((hasExt_of_lenOk hlen (by decide)).symm.trans he) (by decide)
  case unif | shape | brx | callx | ret | exit | yield | nop | brk | stat | trapret | jenter | jquit | jwait | jget | jput | aqry | invoke | chain
    | hset | hdrop | bjob | time | qinit =>
    obtain ⟨ht, hy⟩ := tid_yh_of_lenOk hlen he
    simp [Raw.ext, blank, ht, hy]
  all_goals
    obtain ⟨ht, hy⟩ := tid_yh_of_lenOk hlen he
    have hzero := of_ext hw.1 he
    simp [imod0, fmod0, mmod0] at hzero
    simp [Raw.ext, int, logic, flt, mem, wun, blank, ht, hy, hzero]

/-- A well-formed instruction without a literal word has no literal. -/
theorem Instr.lit_eq_zero {i : Instr} {r : Raw} (hw : i.wellFormed = true) (hr : i.toRaw = some r) (hl : r.len.getLsbD 1 = false) : r.lit = 0 := by
  replace hw := And.intro hw True.intro
  cases i <;> cases hr
  case iaddImmediate | isubImmediate | imulImmediate | imulhImmediate | imadImmediate | iminImmediate | imaxImmediate | andImmediate | orImmediate
    | xorImmediate | shlImmediate | shrImmediate | sarImmediate | icmpImmediate | selImmediate | leaImmediate | faddImmediate | fsubImmediate
    | fmulImmediate | ffmaImmediate | fminImmediate | fmaxImmediate | fcmpImmediate | hadd2Immediate | hmul2Immediate | hfma2Immediate
    | hmin2Immediate | hmax2Immediate | movi | lanexImmediate | qinit | qpush | qpop =>
    simp only [Instr.wellFormed, Bool.and_eq_true, and_assoc] at hw
    exact absurd ((hasLit_of_lenOk hw.1 (by decide)).symm.trans hl) (by decide)
  all_goals rfl

/-- The fields of a well-formed instruction stand in words it has. -/
theorem Instr.present {i : Instr} {r : Raw} (hw : i.wellFormed = true) (hr : i.toRaw = some r) : r.Present :=
  ⟨Instr.ext_eq_zero hw hr, Instr.lit_eq_zero hw hr⟩

/-! ## The form that OP, LEN and MOD name -/

@[simp] theorem getLsbD_wun_five (w un : Bool) : (wun w un).getLsbD 5 = w := by cases w <;> cases un <;> decide
@[simp] theorem getLsbD_wun_four (w un : Bool) : (wun w un).getLsbD 4 = un := by cases w <;> cases un <;> decide
@[simp] theorem loWord_lit32 (x : Word) : loWord (lit32 x) = x := by simp [loWord, lit32]
@[simp] theorem pOf_p6 (p : PReg) : pOf (p6 p) = p := by simp [pOf, p6]
@[simp] theorem jOf_j6 (j : SetNo) : jOf (j6 j) = j := by simp [jOf, j6]

/-- The form of `CCTL` that MOD names (R308). -/
def Raw.cctlForm (r : Raw) : Nat → Option Instr
  | 0 => some (.cctlL1inv r.ctl r.a r.imm)
  | 1 => some (.cctlWb r.ctl r.a r.imm)
  | 2 => some (.cctlIcore r.ctl)
  | 3 => some (.cctlIdie r.ctl)
  | 4 => some (.cctlIdev r.ctl)
  | _ => none

/-- The decoder's form of `CCTL`. -/
theorem Raw.candidate_cctl {r : Raw} (h : r.op = 0x5A) {k : Nat} (hk : r.op3.toNat = k) : r.candidate = r.cctlForm k := by
  cases r
  subst h hk
  rfl

/-- The form of `PREF` that MOD names (R345). -/
def Raw.prefForm (r : Raw) : Nat → Option Instr
  | 0 => some (.pref r.ctl false r.a r.imm)
  | 1 => some (.pref r.ctl true r.a r.imm)
  | _ => none

/-- The decoder's form of `PREF`. -/
theorem Raw.candidate_pref {r : Raw} (h : r.op = 0x5B) {k : Nat} (hk : r.op3.toNat = k) : r.candidate = r.prefForm k := by
  cases r
  subst h hk
  rfl

/-- The decoder takes from a well-formed instruction's fields the form it is, with its operands. -/
theorem Instr.candidate_toRaw {i : Instr} {r : Raw} (hw : i.wellFormed = true) (hr : i.toRaw = some r) : r.candidate = some i := by
  replace hw := And.intro hw True.intro
  cases i <;> cases hr
  case iadd | isub | imul | imulh | imad | imin | imax | and | or | xor | shl | shr | sar | icmp | sel | lea | fadd | fsub | fmul | ffma | fmin | fmax
    | fcmp | hadd2 | hmul2 | hfma2 | hmin2 | hmax2 | lanex =>
    simp only [Instr.wellFormed, Bool.and_eq_true, and_assoc] at hw
    have hlit := noLit_of_lenOk hw.1 (by decide)
    change some _ = some _
    simp (disch := omega) only [hlit, Bool.false_eq_true, if_false, Raw.hasLit, Raw.ctl, Raw.imod, Raw.fmod, int, logic, flt, blank, getLsbD_wun_five,
      getLsbD_wun_four, pOf_p6, BitVec.extractLsb'_append_eq_of_add_le, BitVec.extractLsb'_append_eq_of_le, extractLsb'_self, extractLsb'_setWidth_self,
      getLsbD_append_ofBool, getLsbD_append_high, getLsbD_ofBool_self]
  case iaddImmediate | isubImmediate | imulImmediate | imulhImmediate | imadImmediate | iminImmediate | imaxImmediate | andImmediate | orImmediate
    | xorImmediate | shlImmediate | shrImmediate | sarImmediate | icmpImmediate | selImmediate | leaImmediate | faddImmediate | fsubImmediate
    | fmulImmediate | ffmaImmediate | fminImmediate | fmaxImmediate | fcmpImmediate | hadd2Immediate | hmul2Immediate | hfma2Immediate
    | hmin2Immediate | hmax2Immediate | lanexImmediate =>
    simp only [Instr.wellFormed, Bool.and_eq_true, and_assoc] at hw
    have hlit := hasLit_of_lenOk hw.1 (by decide)
    change some _ = some _
    simp (disch := omega) only [hlit, if_true, Raw.hasLit, Raw.ctl, Raw.imod, Raw.fmod, int, logic, flt, blank, getLsbD_wun_five,
      getLsbD_wun_four, pOf_p6, loWord_lit32, BitVec.extractLsb'_append_eq_of_add_le, BitVec.extractLsb'_append_eq_of_le, extractLsb'_self,
      extractLsb'_setWidth_self, getLsbD_append_ofBool, getLsbD_append_high, getLsbD_ofBool_self]
  case cctlL1inv => exact (Raw.candidate_cctl rfl (k := 0) (by simp [Raw.op3, blank])).trans rfl
  case cctlWb => exact (Raw.candidate_cctl rfl (k := 1) (by simp [Raw.op3])).trans rfl
  case cctlIcore => exact (Raw.candidate_cctl rfl (k := 2) (by simp [Raw.op3])).trans rfl
  case cctlIdie => exact (Raw.candidate_cctl rfl (k := 3) (by simp [Raw.op3])).trans rfl
  case cctlIdev => exact (Raw.candidate_cctl rfl (k := 4) (by simp [Raw.op3])).trans rfl
  case pref c l2 a off =>
    cases l2 with
    | false => exact (Raw.candidate_pref rfl (k := 0) (by simp [Raw.op3])).trans rfl
    | true => exact (Raw.candidate_pref rfl (k := 1) (by simp [Raw.op3])).trans rfl
  case atomsCluster c m op d a b k =>
    simp only [Instr.wellFormed, Bool.and_eq_true, and_assoc, bne_iff_ne] at hw
    have hk : (k == 0) = false := beq_false_of_ne hw.2.2.1
    change some _ = some _
    simp (disch := omega) only [hk, Bool.false_eq_true, if_false, Raw.ctl, Raw.mmod, Raw.op3, mem, blank, BitVec.extractLsb'_append_eq_of_add_le,
      BitVec.extractLsb'_append_eq_of_le, extractLsb'_self]
  all_goals
    change some _ = some _
    simp (disch := omega) only [beq_self_eq_true, Bool.false_eq_true, if_true, if_false, Raw.ctl, Raw.imod, Raw.fmod, Raw.mmod, Raw.op3, Raw.cmod, Raw.amod,
      int, logic, flt, mem, copy, blank, getLsbD_wun_five, getLsbD_wun_four, pOf_p6, jOf_j6, BitVec.extractLsb'_append_eq_of_add_le,
      BitVec.extractLsb'_append_eq_of_le, extractLsb'_self, extractLsb'_setWidth_self, getLsbD_append_ofBool, getLsbD_append_high, getLsbD_ofBool_self,
      BitVec.reduceGetLsb, Nat.reduceSub]

/-! ## Decoding and encoding (R241, R244, R252) -/

/-- The fields of a well-formed instruction stand for it. -/
theorem decodeRaw_toRaw {i : Instr} {r : Raw} (hw : i.wellFormed = true) (hr : i.toRaw = some r) : decodeRaw r = some i := by
  simp only [decodeRaw, Instr.candidate_toRaw hw hr, hr, hw, and_self, if_true]

/-- Fields that stand for an instruction are its own, and it is well formed. -/
theorem toRaw_of_decodeRaw {i : Instr} {r : Raw} (h : decodeRaw r = some i) : i.toRaw = some r ∧ i.wellFormed = true := by
  unfold decodeRaw at h
  split at h
  · cases h
  · split at h
    · next hj => exact Option.some.inj h ▸ hj
    · cases h

/-- What a decoding says: the bytes are long enough, the fields at their head stand for the instruction, and the rest follows. -/
theorem decode_eq_some {bs rest : List Byte} {i : Instr} : decode bs = some (i, rest) ↔
    4 ≤ bs.length ∧ lenBytes (rawOfBytes bs).len ≤ bs.length ∧ decodeRaw (rawOfBytes bs) = some i ∧ bs.drop (lenBytes (rawOfBytes bs).len) = rest := by
  unfold decode
  by_cases h : bs.length < 4 ∨ bs.length < lenBytes (rawOfBytes bs).len
  · simp only [h, if_true]
    constructor
    · intro hn; cases hn
    · rintro ⟨h4, hn, -, -⟩; omega
  · simp only [h, if_false]
    simp only [not_or, not_lt] at h
    simp only [h, true_and, Option.map_eq_some_iff, Prod.mk.injEq]
    constructor
    · rintro ⟨j, hj, rfl, hd⟩; exact ⟨hj, hd⟩
    · rintro ⟨hj, hd⟩; exact ⟨i, hj, rfl, hd⟩

/-- Every instruction takes at least the base word. -/
theorem four_le_lenBytes (n : BitVec 2) : 4 ≤ lenBytes n := by
  revert n
  decide

/-- Settles O1: the bytes give the fields back, and the fields the instruction. -/
theorem decodeEncodeRoundTrip : Obligations.DecodeEncodeRoundTrip := by
  intro i bs rest hw he
  obtain ⟨r, hr, rfl⟩ := Option.map_eq_some_iff.1 he
  have hraw := rawOfBytes_bytes (Instr.present hw hr) rest
  have hlong : lenBytes r.len ≤ (r.bytes ++ rest).length := by rw [List.length_append, r.length_bytes]; omega
  rw [decode_eq_some, hraw]
  exact ⟨le_trans (four_le_lenBytes _) hlong, hlong, decodeRaw_toRaw hw hr, List.drop_left' r.length_bytes⟩

/-- Settles O2: the decoder accepts fields only as those of its instruction, and bytes are those of the fields read from them. -/
theorem decodedBytesAreTheEncoding : Obligations.DecodedBytesAreTheEncoding := by
  intro bs rest i h
  obtain ⟨-, hlong, hraw, rfl⟩ := decode_eq_some.1 h
  obtain ⟨hr, hw⟩ := toRaw_of_decodeRaw hraw
  exact ⟨hw, _, congrArg (Option.map Raw.bytes) hr, bytes_rawOfBytes hlong⟩

/-- The two functions of a LEN code agree. -/
theorem lenOf_eq_lenBytes (n : BitVec 2) : lenOf n = lenBytes n := by
  revert n
  decide

/-- Settles O3: what the decoder drops is as long as the LEN code says, and the controls of the instruction hold that code. -/
theorem decodedLength : Obligations.DecodedLength := by
  intro bs rest i c s h hc
  obtain ⟨-, hlong, hraw, rfl⟩ := decode_eq_some.1 h
  obtain ⟨hr, -⟩ := toRaw_of_decodeRaw hraw
  obtain rfl : (rawOfBytes bs).ctl = c := by simpa [instrCtl, hr] using hc
  have hdrop : bs.length = (bs.drop (lenBytes (rawOfBytes bs).len)).length + lenBytes (rawOfBytes bs).len := by
    rw [List.length_drop]; omega
  refine ⟨?_, ?_⟩
  · refine hdrop.trans (congrArg (_ + ·) ?_)
    simp only [lenBytes, beq_iff_eq]
    rfl
  · rw [State.next, lenOf_eq_lenBytes, Nat.sub_eq_of_eq_add' hdrop]
    rfl

/-- Settles O4: the words are decoded. -/
theorem workedEncodings : Obligations.WorkedEncodings := by
  refine ⟨?_, ?_, ?_, ?_, ?_, ?_, ?_, ?_⟩ <;> decide

end Sys2Proof
end

section
/-! PROOFS. The integer family: sums, products, extrema, negations and absolute values (O12, O13). -/

namespace Sys2Proof.Machine

/-! ## What an affine row holds in each lane (R59) -/

/-- What a row of R59 gives, when it applies, is not G and holds `f l` in lane l. -/
def RowHolds (o : Option VReg) (f : Nat → Word) : Prop := ∀ v, o = some v → v.isG = false ∧ ∀ l, v.lane l = f l

/-- No row. -/
theorem rowHolds_none (f : Nat → Word) : RowHolds none f := fun _ h => nomatch h

/-- A row that names a base and a stride. -/
theorem rowHolds_mkAffine {u : Bool} {b st : Word} {f : Nat → Word} (hu : u = true → st = 0) (hf : ∀ l, b + st * BitVec.ofNat 32 l = f l) :
    RowHolds (some (mkAffine u b st)) f := by
  intro v hv
  cases hv
  exact ⟨mkAffine_isG u b st, fun l => (mkAffine_lane u b st hu l).trans (hf l)⟩

/-- The row of `IADD` and `ISUB`. -/
theorem rowHolds_affSum (sub : Bool) (va vb : VReg) :
    RowHolds (affSum sub va vb) fun l => if sub then va.lane l - vb.lane l else va.lane l + vb.lane l := by
  cases ha : va.affine with
  | none => simp only [affSum, ha]; exact rowHolds_none _
  | some x =>
    cases hb : vb.affine with
    | none => simp only [affSum, ha, hb]; exact rowHolds_none _
    | some y =>
      rw [affSum_eq sub ha hb]
      refine rowHolds_mkAffine (fun hu => ?_) fun l => ?_
      · obtain ⟨hua, hub⟩ := Bool.and_eq_true_iff.1 hu
        rw [affine_isU ha hua, affine_isU hb hub]
        cases sub <;> rfl
      · rw [affine_lane ha, affine_lane hb]
        cases sub <;> simp only [Bool.false_eq_true, if_false, if_true] <;> ring

/-- The row of `IMUL` and `SHL`, for an operation that distributes over base and stride. -/
theorem rowHolds_affScale {f : Word → Word → Word} (hf : ∀ x st k y : Word, f x y + f st y * k = f (x + st * k) y) (h0 : ∀ y, f 0 y = 0) (va vb : VReg) :
    RowHolds (affScale f va vb) fun l => f (va.lane l) (vb.lane l) := by
  cases ha : va.affine with
  | none => simp only [affScale, ha]; exact rowHolds_none _
  | some x =>
    cases vb with
    | u k =>
      rw [affScale_eq f k ha]
      refine rowHolds_mkAffine (fun hu => by rw [affine_isU ha hu, h0]) fun l => ?_
      rw [affine_lane ha, hf]
      rfl
    | a b st => simp only [affScale, ha]; exact rowHolds_none _
    | g xs => simp only [affScale, ha]; exact rowHolds_none _

/-- The row of `IMAD`. -/
theorem rowHolds_affMad (va vb vc : VReg) : RowHolds (affMad va vb vc) fun l => va.lane l * vb.lane l + vc.lane l := by
  cases ha : va.affine with
  | none => simp only [affMad, ha]; exact rowHolds_none _
  | some x =>
    cases vb with
    | u k =>
      cases hc : vc.affine with
      | none => simp only [affMad, ha, hc]; exact rowHolds_none _
      | some z =>
        rw [affMad_eq k ha hc]
        refine rowHolds_mkAffine (fun hu => ?_) fun l => ?_
        · obtain ⟨hua, huc⟩ := Bool.and_eq_true_iff.1 hu
          rw [affine_isU ha hua, affine_isU hc huc]
          simp
        · rw [affine_lane ha, affine_lane hc, VReg.lane]
          ring
    | a b st => simp only [affMad, ha]; exact rowHolds_none _
    | g xs => simp only [affMad, ha]; exact rowHolds_none _

/-- The row of `INEG`. -/
theorem rowHolds_affNeg (va : VReg) : RowHolds (affNeg va) fun l => -va.lane l := by
  cases ha : va.affine with
  | none => simp only [affNeg, ha, Option.map_none]; exact rowHolds_none _
  | some x =>
    rw [affNeg_eq ha]
    refine rowHolds_mkAffine (fun hu => by rw [affine_isU ha hu]; simp) fun l => ?_
    rw [affine_lane ha]
    ring

/-- The rows apply to sources that are not G. -/
theorem affSum_isSome (sub : Bool) {va vb : VReg} (ha : va.isG = false) (hb : vb.isG = false) : (affSum sub va vb).isSome = true := by
  obtain ⟨x, hx⟩ := affine_of_flat ha
  obtain ⟨y, hy⟩ := affine_of_flat hb
  rw [affSum_eq sub hx hy]
  rfl
/-- The rows of a scale apply to a first source that is not G and a U second source. -/
theorem affScale_isSome (f : Word → Word → Word) {va vb : VReg} (ha : va.isG = false) (hb : vb.isU = true) : (affScale f va vb).isSome = true := by
  obtain ⟨x, hx⟩ := affine_of_flat ha
  cases vb with
  | u k => rw [affScale_eq f k hx]; rfl
  | a b st => cases hb
  | g xs => cases hb
/-- The row of a multiply-add applies to sources that are not G and a U second source. -/
theorem affMad_isSome {va vb vc : VReg} (ha : va.isG = false) (hb : vb.isU = true) (hc : vc.isG = false) : (affMad va vb vc).isSome = true := by
  obtain ⟨x, hx⟩ := affine_of_flat ha
  obtain ⟨z, hz⟩ := affine_of_flat hc
  cases vb with
  | u k => rw [affMad_eq k hx hz]; rfl
  | a b st => cases hb
  | g xs => cases hb
/-- The row of a negation applies to a source that is not G. -/
theorem affNeg_isSome {va : VReg} (ha : va.isG = false) : (affNeg va).isSome = true := by
  obtain ⟨x, hx⟩ := affine_of_flat ha
  rw [affNeg_eq hx]
  rfl

/-- A meaning that commits what a row gives, or else the lanes' values, yields those values. -/
theorem State.yields_of_row {s : State} {i : Instr} {c : Ctl} {names : List Reg} {d : Reg} {flat : Bool} {f : Nat → Word} {n : Counts}
    {o : Option VReg} {v : VReg} (he : exec i s = .next (s.commit c names [⟨d, o.getD v⟩] [] n)) (hr : s.Ready c names [d] flat)
    (hf : flat = true → o.isSome = true ∨ v.isG = false) (ho : RowHolds o f) (hv : ∀ l < 128, v.lane l = f l) : s.Yields i c d f n := by
  cases o with
  | none => exact State.yields_of_commit v he hr (fun h => (hf h).resolve_left (by simp)) hv
  | some u =>
    obtain ⟨hG, hl⟩ := ho u rfl
    exact State.yields_of_commit u he hr (fun _ => hG) fun l _ => hl l

/-- Without SAT a row of the modular results is a row of the fitted results; under SAT there is no row (R328). -/
theorem rowHolds_unless_sat {un sat : Bool} {o : Option VReg} {t : Nat → Int} (h : sat = false → RowHolds o fun l => BitVec.ofInt 32 (t l)) :
    RowHolds (if sat then none else o) fun l => fitInt un sat 32 (t l) := by
  cases sat with
  | true => exact rowHolds_none _
  | false => exact h rfl

/-! ## The forms of the family in the terms of the statements (R327) -/

/-- A word operation of two sources: the exact result brought to 32 bits, or the affine row. -/
theorem intBin_word {m : IMod} (hw : m.w = false) (s : State) (c : Ctl) (d a : Reg) (b : Src) (f : Int → Int → Int) (aff : VReg → VReg → Option VReg) :
    intBin s c m d a b f aff = s.commit c ([d, a] ++ b.names)
      [⟨d, (if m.sat then none else aff (s.reg a) (b.val s)).getD
        (shape2 (fun x y => fitInt m.un m.sat 32 (f (intOf m.un x) (intOf m.un y))) (s.reg a) (b.val s))⟩] []
      (laneCounts (s.act c) fun l => fitCount m.un m.sat 32 (f (intOf m.un (s.rd a l)) (intOf m.un (b.at s l)))) := by
  simp only [intBin, hw, Bool.false_eq_true, if_false, readInt_intOf (by decide : 0 < 32), fun t => (narrow_eq m.un m.sat 32 t).1,
    fun t => (narrow_eq m.un m.sat 32 t).2]
  rfl

/-- A pair operation of two sources. -/
theorem intBin_pair {m : IMod} (hw : m.w = true) (s : State) (c : Ctl) (d a : Reg) (b : Src) (f : Int → Int → Int) (aff : VReg → VReg → Option VReg) :
    intBin s c m d a b f aff = s.commit c (pairRegs d ++ pairRegs a ++ b.pairNames)
      (pairResult d (s.pairU a && b.pairU s) fun l => fitInt m.un m.sat 64 (f (intOf m.un (s.rdPair a l)) (intOf m.un (b.pair s l)))) []
      (laneCounts (s.act c) fun l => fitCount m.un m.sat 64 (f (intOf m.un (s.rdPair a l)) (intOf m.un (b.pair s l)))) := by
  simp only [intBin, hw, if_true, readInt_intOf (by decide : 0 < 64), fun t => (narrow_eq m.un m.sat 64 t).1, fun t => (narrow_eq m.un m.sat 64 t).2]

/-- A word multiply-add. -/
theorem intMad_word {m : IMod} (hw : m.w = false) (s : State) (c : Ctl) (d a : Reg) (b : Src) (e : Reg) :
    intMad s c m d a b e = s.commit c ([d, a, e] ++ b.names)
      [⟨d, (if m.sat then none else affMad (s.reg a) (b.val s) (s.reg e)).getD
        (shape3 (fun x y z => fitInt m.un m.sat 32 (intOf m.un x * intOf m.un y + intOf m.un z)) (s.reg a) (b.val s) (s.reg e))⟩] []
      (laneCounts (s.act c) fun l => fitCount m.un m.sat 32 (intOf m.un (s.rd a l) * intOf m.un (b.at s l) + intOf m.un (s.rd e l))) := by
  simp only [intMad, hw, Bool.false_eq_true, if_false, readInt_intOf (by decide : 0 < 32), fun t => (narrow_eq m.un m.sat 32 t).1,
    fun t => (narrow_eq m.un m.sat 32 t).2]
  rfl

/-- A pair multiply-add. -/
theorem intMad_pair {m : IMod} (hw : m.w = true) (s : State) (c : Ctl) (d a : Reg) (b : Src) (e : Reg) :
    intMad s c m d a b e = s.commit c (pairRegs d ++ pairRegs a ++ b.pairNames ++ pairRegs e)
      (pairResult d (s.pairU a && b.pairU s && s.pairU e) fun l =>
        fitInt m.un m.sat 64 (intOf m.un (s.rdPair a l) * intOf m.un (b.pair s l) + intOf m.un (s.rdPair e l))) []
      (laneCounts (s.act c) fun l =>
        fitCount m.un m.sat 64 (intOf m.un (s.rdPair a l) * intOf m.un (b.pair s l) + intOf m.un (s.rdPair e l))) := by
  simp only [intMad, hw, if_true, readInt_intOf (by decide : 0 < 64), fun t => (narrow_eq m.un m.sat 64 t).1, fun t => (narrow_eq m.un m.sat 64 t).2]

/-- A word operation of one signed source. -/
theorem intUn_word {m : IMod} (hw : m.w = false) (s : State) (c : Ctl) (d a : Reg) (f : Int → Int) (aff : VReg → Option VReg) :
    intUn s c m d a f aff = s.commit c [d, a]
      [⟨d, (if m.sat then none else aff (s.reg a)).getD (shape1 (fun x => fitInt false m.sat 32 (f x.toInt)) (s.reg a))⟩] []
      (laneCounts (s.act c) fun l => fitCount false m.sat 32 (f (s.rd a l).toInt)) := by
  simp only [intUn, hw, Bool.false_eq_true, if_false, readInt_intOf (by decide : 0 < 32), fun t => (narrow_eq false m.sat 32 t).1,
    fun t => (narrow_eq false m.sat 32 t).2]
  rfl

/-- A pair operation of one signed source. -/
theorem intUn_pair {m : IMod} (hw : m.w = true) (s : State) (c : Ctl) (d a : Reg) (f : Int → Int) (aff : VReg → Option VReg) :
    intUn s c m d a f aff = s.commit c (pairRegs d ++ pairRegs a)
      (pairResult d (s.pairU a) fun l => fitInt false m.sat 64 (f (s.rdPair a l).toInt)) []
      (laneCounts (s.act c) fun l => fitCount false m.sat 64 (f (s.rdPair a l).toInt)) := by
  simp only [intUn, hw, if_true, readInt_intOf (by decide : 0 < 64), fun t => (narrow_eq false m.sat 64 t).1, fun t => (narrow_eq false m.sat 64 t).2]
  rfl

/-! ## Two sources (O12) -/

/-- An instruction whose meaning is an operation of two sources does what R327 says; it is flat when its row applies or both sources are U. -/
theorem State.integerTwo_of_intBin {s : State} {i : Instr} {c : Ctl} {m : IMod} {d a : Reg} {b : Src} {f : Int → Int → Int} {fl : Bool}
    {aff : VReg → VReg → Option VReg} (he : exec i s = .next (intBin s c m d a b f aff))
    (hrow : RowHolds (aff (s.reg a) (b.val s)) fun l => BitVec.ofInt 32 (f (intOf m.un (s.rd a l)) (intOf m.un (b.at s l))))
    (hfl : fl = true → (m.sat = false ∧ (aff (s.reg a) (b.val s)).isSome = true) ∨ ((s.reg a).isU = true ∧ b.isU s = true)) :
    s.IntegerTwo i c m d a b f fl := by
  refine ⟨fun hw hr => ?_, fun hw hr => ?_⟩
  · rw [intBin_word hw] at he
    refine State.yields_of_row he hr (fun h => ?_) (rowHolds_unless_sat fun _ => hrow) fun l hl => shape2_lane _ _ _ l hl
    exact (hfl h).imp (fun ⟨hsat, hsome⟩ => by rwa [hsat]) fun ⟨ha, hb⟩ => shape2_flat _ _ _ ha hb
  · rw [intBin_pair hw] at he
    refine State.yieldsPair_of_pairResult he hr (fun hu l => ?_) fun _ _ => rfl
    obtain ⟨ha, hb⟩ := Bool.and_eq_true_iff.1 hu
    rw [s.pairU_eq a ha l 0, b.pairU_eq s hb l 0]

/-- An instruction that takes no affine row is flat when both sources are U. -/
theorem State.integerTwo_of_noRow {s : State} {i : Instr} {c : Ctl} {m : IMod} {d a : Reg} {b : Src} {f : Int → Int → Int}
    (he : exec i s = .next (intBin s c m d a b f fun _ _ => none)) : s.IntegerTwo i c m d a b f ((s.reg a).isU && b.isU s) :=
  State.integerTwo_of_intBin he (rowHolds_none _) fun h => .inr (Bool.and_eq_true_iff.1 h)

/-- `IADD` and `ISUB` are flat when both sources are U, or neither is G and SAT is off. -/
theorem State.integerTwo_of_affSum {s : State} {i : Instr} {c : Ctl} {m : IMod} {d a : Reg} {b : Src} {f : Int → Int → Int} (sub : Bool)
    (he : exec i s = .next (intBin s c m d a b f (affSum sub))) (hf : ∀ x y : Int, f x y = if sub then x - y else x + y) :
    s.IntegerTwo i c m d a b f (((s.reg a).isU && b.isU s) || (!m.sat && s.flat a && b.flat s)) := by
  refine State.integerTwo_of_intBin he ?_ fun h => ?_
  · have hval : ∀ l, BitVec.ofInt 32 (f (intOf m.un (s.rd a l)) (intOf m.un (b.at s l)))
        = if sub then (s.reg a).lane l - (b.val s).lane l else (s.reg a).lane l + (b.val s).lane l := by
      intro l
      rw [hf]
      cases sub
      · simp only [Bool.false_eq_true, if_false, BitVec.ofInt_add, ofInt_intOf]; rfl
      · simp only [if_true, Int.sub_eq_add_neg, BitVec.ofInt_add, BitVec.ofInt_neg, ofInt_intOf, ← BitVec.sub_eq_add_neg]; rfl
    simp only [hval]
    exact rowHolds_affSum sub _ _
  · rcases Bool.or_eq_true_iff.1 h with hu | hflat
    · exact .inr (Bool.and_eq_true_iff.1 hu)
    · simp only [Bool.and_eq_true, Bool.not_eq_true', State.flat, Src.flat] at hflat
      obtain ⟨⟨hsat, ha⟩, hb⟩ := hflat
      exact .inl ⟨hsat, affSum_isSome sub ha hb⟩

/-- `IMUL` is flat when the second source is U and the first is U, or not G with SAT off. -/
theorem State.integerTwo_of_affScale {s : State} {i : Instr} {c : Ctl} {m : IMod} {d a : Reg} {b : Src}
    (he : exec i s = .next (intBin s c m d a b (· * ·) (affScale (· * ·)))) :
    s.IntegerTwo i c m d a b (· * ·) (((s.reg a).isU || (!m.sat && s.flat a)) && b.isU s) := by
  refine State.integerTwo_of_intBin he ?_ fun h => ?_
  · simp only [BitVec.ofInt_mul, ofInt_intOf]
    exact rowHolds_affScale (fun x st k y => by ring) (fun y => by ring) _ _
  · obtain ⟨ha, hb⟩ := Bool.and_eq_true_iff.1 h
    rcases Bool.or_eq_true_iff.1 ha with hu | hflat
    · exact .inr ⟨hu, hb⟩
    · simp only [Bool.and_eq_true, Bool.not_eq_true', State.flat] at hflat
      exact .inl ⟨hflat.1, affScale_isSome _ hflat.2 hb⟩

/-- The high half of a product, with the modulus of the statement. -/
theorem mulHigh_eq (m : IMod) : mulHigh m = fun x y => x * y / 2 ^ (if m.w then 64 else 32) := by
  funext x y
  unfold mulHigh
  cases m.w <;> rfl

/-- Settles O12: each form commits its exact result brought to Z bits, or the affine row, which holds the same values. -/
theorem integerTwoSourceResults : Obligations.IntegerTwoSourceResults := by
  intro s c m d a b imm flat flatMul flatU high
  have hhigh : mulHigh m = high := mulHigh_eq m
  have hadd : ∀ x y : Int, x + y = if false = true then x - y else x + y := fun _ _ => rfl
  have hsub : ∀ x y : Int, x - y = if true = true then x - y else x + y := fun _ _ => rfl
  refine ⟨State.integerTwo_of_affSum false rfl hadd, State.integerTwo_of_affSum false rfl hadd,
    State.integerTwo_of_affSum true rfl hsub, State.integerTwo_of_affSum true rfl hsub,
    State.integerTwo_of_affScale rfl, State.integerTwo_of_affScale rfl,
    State.integerTwo_of_noRow ?_, State.integerTwo_of_noRow ?_,
    State.integerTwo_of_noRow rfl, State.integerTwo_of_noRow rfl, State.integerTwo_of_noRow rfl, State.integerTwo_of_noRow rfl⟩
  · rw [← hhigh]; rfl
  · rw [← hhigh]; rfl

/-! ## Multiply-add, absolute value and negation (O13) -/

/-- `IMAD` does what R327 says of a product and a sum. -/
theorem State.yields_of_intMad {s : State} {i : Instr} {c : Ctl} {m : IMod} {d a e : Reg} {b : Src} (he : exec i s = .next (intMad s c m d a b e))
    (hw : m.w = false) (hr : s.Ready c ([d, a, e] ++ b.names) [d]
      (((s.reg a).isU && b.isU s && (s.reg e).isU) || (!m.sat && s.flat a && b.isU s && s.flat e))) :
    s.Yields i c d (fun l => fitInt m.un m.sat 32 (intOf m.un (s.rd a l) * intOf m.un (b.at s l) + intOf m.un (s.rd e l)))
      (laneCounts (s.act c) fun l => fitCount m.un m.sat 32 (intOf m.un (s.rd a l) * intOf m.un (b.at s l) + intOf m.un (s.rd e l))) := by
  rw [intMad_word hw] at he
  refine State.yields_of_row he hr (fun h => ?_) (rowHolds_unless_sat fun _ => ?_) fun l hl => shape3_lane _ _ _ _ l hl
  · simp only [Bool.or_eq_true, Bool.and_eq_true, Bool.not_eq_true', State.flat] at h
    rcases h with ⟨⟨ha, hb⟩, hc⟩ | ⟨⟨⟨hsat, ha⟩, hb⟩, hc⟩
    · exact .inr (shape3_flat _ _ _ _ ha hb hc)
    · rw [hsat]; exact .inl (affMad_isSome ha hb hc)
  · simp only [BitVec.ofInt_add, BitVec.ofInt_mul, ofInt_intOf]
    exact rowHolds_affMad _ _ _

/-- `IMAD` on pairs. -/
theorem State.yieldsPair_of_intMad {s : State} {i : Instr} {c : Ctl} {m : IMod} {d a e : Reg} {b : Src}
    (he : exec i s = .next (intMad s c m d a b e)) (hw : m.w = true)
    (hr : s.Ready c (pairRegs d ++ pairRegs a ++ b.pairNames ++ pairRegs e) [d, d + 1] (s.pairU a && b.pairU s && s.pairU e)) :
    s.YieldsPair i c d (fun l => fitInt m.un m.sat 64 (intOf m.un (s.rdPair a l) * intOf m.un (b.pair s l) + intOf m.un (s.rdPair e l)))
      (laneCounts (s.act c) fun l =>
        fitCount m.un m.sat 64 (intOf m.un (s.rdPair a l) * intOf m.un (b.pair s l) + intOf m.un (s.rdPair e l))) := by
  rw [intMad_pair hw] at he
  refine State.yieldsPair_of_pairResult he hr (fun hu l => ?_) fun _ _ => rfl
  simp only [Bool.and_eq_true] at hu
  obtain ⟨⟨ha, hb⟩, hc⟩ := hu
  rw [s.pairU_eq a ha l 0, b.pairU_eq s hb l 0, s.pairU_eq e hc l 0]

/-- A word operation of one signed source does what R327 says. -/
theorem State.yields_of_intUn {s : State} {i : Instr} {c : Ctl} {m : IMod} {d a : Reg} {f : Int → Int} {aff : VReg → Option VReg} {fl : Bool}
    (he : exec i s = .next (intUn s c m d a f aff)) (hrow : RowHolds (aff (s.reg a)) fun l => BitVec.ofInt 32 (f (s.rd a l).toInt))
    (hfl : fl = true → (m.sat = false ∧ (aff (s.reg a)).isSome = true) ∨ (s.reg a).isU = true) (hw : m.w = false) (hr : s.Ready c [d, a] [d] fl) :
    s.Yields i c d (fun l => fitInt false m.sat 32 (f (s.rd a l).toInt)) (laneCounts (s.act c) fun l => fitCount false m.sat 32 (f (s.rd a l).toInt)) := by
  rw [intUn_word hw] at he
  refine State.yields_of_row he hr (fun h => ?_) (rowHolds_unless_sat fun _ => hrow) fun l hl => shape1_lane _ _ l hl
  exact (hfl h).imp (fun ⟨hsat, hsome⟩ => by rwa [hsat]) (shape1_flat _ _)

/-- A pair operation of one signed source does what R327 says. -/
theorem State.yieldsPair_of_intUn {s : State} {i : Instr} {c : Ctl} {m : IMod} {d a : Reg} {f : Int → Int} {aff : VReg → Option VReg}
    (he : exec i s = .next (intUn s c m d a f aff)) (hw : m.w = true) (hr : s.Ready c (pairRegs d ++ pairRegs a) [d, d + 1] (s.pairU a)) :
    s.YieldsPair i c d (fun l => fitInt false m.sat 64 (f (s.rdPair a l).toInt))
      (laneCounts (s.act c) fun l => fitCount false m.sat 64 (f (s.rdPair a l).toInt)) := by
  rw [intUn_pair hw] at he
  refine State.yieldsPair_of_pairResult he hr (fun hu l => ?_) fun _ _ => rfl
  rw [s.pairU_eq a hu l 0]

/-- Settles O13: as O12, with the rows of the multiply-add and of the negation. -/
theorem integerMadAbsNegResults : Obligations.IntegerMadAbsNegResults := by
  intro s c m d a b e imm mad one
  have habs : exec (.iabs c m d a) s = .next (intUn s c m d a (fun x => |x|) fun _ => none) := by
    change execIabs c m d a s = _
    simp only [execIabs, Int.abs_eq_natAbs]
  refine ⟨⟨State.yields_of_intMad rfl, State.yieldsPair_of_intMad rfl⟩, ⟨State.yields_of_intMad rfl, State.yieldsPair_of_intMad rfl⟩,
    ⟨State.yields_of_intUn habs (rowHolds_none _) .inr, State.yieldsPair_of_intUn habs⟩,
    ⟨State.yields_of_intUn (f := fun x => -x) rfl ?_ fun h => ?_, State.yieldsPair_of_intUn rfl⟩⟩
  · simp only [BitVec.ofInt_neg, BitVec.ofInt_toInt]
    exact rowHolds_affNeg _
  · rcases Bool.or_eq_true_iff.1 h with hu | hflat
    · exact .inr hu
    · simp only [Bool.and_eq_true, Bool.not_eq_true', State.flat] at hflat
      exact .inl ⟨hflat.1, affNeg_isSome hflat.2⟩

end Sys2Proof.Machine
end

section
/-! PROOFS. Logic, shifts, `LEA`, bit counts, bit fields and bit reversal (O14 to O17). -/

namespace Sys2Proof.Machine

/-! ## Lane-wise operations of one and of two sources -/

/-- An instruction whose meaning is a lane-wise operation of two sources yields the values of any functions equal to those it computes. -/
theorem State.bitwiseTwo_of_bitBin {s : State} {i : Instr} {c : Ctl} {w : Bool} {d a : Reg} {b : Src} {f f' : Word → Word → Word}
    {g g' : DWord → DWord → DWord} (he : exec i s = .next (bitBin s c w d a b f' g')) (hf : ∀ x y, f' x y = f x y) (hg : ∀ x y, g' x y = g x y) :
    s.BitwiseTwo i c w d a b f g := by
  refine ⟨fun hw hr => ?_, fun hw hr => ?_⟩
  · simp only [bitBin, hw, Bool.false_eq_true, if_false] at he
    refine State.yields_of_commit _ he hr (fun h => ?_) fun l hl => (shape2_lane _ _ _ l hl).trans (hf _ _)
    obtain ⟨ha, hb⟩ := Bool.and_eq_true_iff.1 h
    exact shape2_flat _ _ _ ha hb
  · simp only [bitBin, hw, if_true] at he
    refine State.yieldsPair_of_pairResult he hr (fun h l => ?_) fun l _ => hg _ _
    obtain ⟨ha, hb⟩ := Bool.and_eq_true_iff.1 h
    rw [s.pairU_eq a ha l 0, b.pairU_eq s hb l 0]

/-- The same for one source. -/
theorem State.bitwiseOne_of_bitUn {s : State} {i : Instr} {c : Ctl} {w : Bool} {d a : Reg} {f f' : Word → Word} {g g' : DWord → DWord}
    (he : exec i s = .next (bitUn s c w d a f' g')) (hf : ∀ x, f' x = f x) (hg : ∀ x, g' x = g x) : s.BitwiseOne i c w d a f g := by
  refine ⟨fun hw hr => ?_, fun hw hr => ?_⟩
  · simp only [bitUn, hw, Bool.false_eq_true, if_false] at he
    exact State.yields_of_commit _ he hr (shape1_flat _ _) fun l hl => (shape1_lane _ _ l hl).trans (hf _)
  · simp only [bitUn, hw, if_true] at he
    exact State.yieldsPair_of_pairResult he hr (fun h l => by rw [s.pairU_eq a h l 0]) fun l _ => hg _

/-- Settles O14: each form is the lane-wise operation of its name. -/
theorem logicResults : Obligations.LogicResults := by
  intro s c w d a b imm
  have two : ∀ {i : Instr} {x : Src} {f : Word → Word → Word} {g : DWord → DWord → DWord},
      exec i s = .next (bitBin s c w d a x f g) → s.BitwiseTwo i c w d a x f g :=
    fun he => State.bitwiseTwo_of_bitBin he (fun _ _ => rfl) fun _ _ => rfl
  exact ⟨two rfl, two rfl, two rfl, two rfl, two rfl, two rfl, State.bitwiseOne_of_bitUn rfl (fun _ => rfl) fun _ => rfl⟩

/-! ## Shift values (R354) -/

/-- A left shift by a count, 0 from Z on. -/
theorem ofNat_shlN_eq {n : Nat} (x : BitVec n) (k : Nat) : BitVec.ofNat n (shlN n x.toNat k) = x <<< k := by
  apply BitVec.eq_of_toNat_eq
  rw [BitVec.toNat_ofNat, BitVec.toNat_shiftLeft, Nat.shiftLeft_eq, shlN]
  split
  · next h =>
    obtain ⟨m, rfl⟩ := Nat.exists_eq_add_of_le h
    rw [Nat.pow_add, Nat.mul_left_comm, Nat.mul_mod_right, Nat.zero_mod]
  · rw [Nat.mod_mod]

/-- A right shift by a count, 0 from Z on. -/
theorem ofNat_shrN_eq {n : Nat} (x : BitVec n) (k : Nat) : BitVec.ofNat n (shrN n x.toNat k) = x >>> k := by
  apply BitVec.eq_of_toNat_eq
  rw [BitVec.toNat_ofNat, BitVec.toNat_ushiftRight, Nat.shiftRight_eq_div_pow, shrN]
  split
  · next h => rw [Nat.div_eq_of_lt (lt_of_lt_of_le x.isLt (Nat.pow_le_pow_right (by decide) h)), Nat.zero_mod]
  · exact Nat.mod_eq_of_lt (lt_of_le_of_lt (Nat.div_le_self _ _) x.isLt)

/-- A number of magnitude at most 2^m, shifted arithmetically by m or more, is its sign. -/
theorem ediv_two_pow_eq_sign {t : Int} {m : Nat} (hlo : -(2 ^ m) ≤ t) (hhi : t < 2 ^ m) : t / 2 ^ m = if t < 0 then -1 else 0 := by
  split
  · next h => exact Int.ediv_eq_neg_one_of_neg_of_le h (by omega)
  · next h => exact Int.ediv_eq_zero_of_lt (by omega) hhi

/-- An arithmetic right shift by a count, the sign from Z on. -/
theorem ofNat_sarN_eq {n : Nat} (hn : 0 < n) (x : BitVec n) (k : Nat) : BitVec.ofNat n (sarN n x.toNat k) = x.sshiftRight k := by
  have hdiv : x.toInt / (2 ^ min k n : Int) = x.toInt / 2 ^ k := by
    rcases Nat.le_total k n with hk | hk
    · rw [Nat.min_eq_left hk]
    · have hhalf : (2 : Int) ^ (n - 1) ≤ 2 ^ n := by gcongr <;> omega
      have hlo : -(2 ^ n : Int) ≤ x.toInt := (neg_le_neg hhalf).trans (BitVec.le_toInt x)
      have hhi : x.toInt < (2 ^ n : Int) := lt_of_lt_of_le BitVec.toInt_lt hhalf
      have hpow : (2 : Int) ^ n ≤ 2 ^ k := by gcongr; omega
      rw [Nat.min_eq_right hk, ediv_two_pow_eq_sign hlo hhi, ediv_two_pow_eq_sign (by omega) (by omega)]
  rw [sarN, wrapInt_ofInt, signedVal_toInt hn, hdiv, BitVec.sshiftRight_eq, Int.shiftRight_eq_div_pow]
  norm_cast

/-! ## Shifts and LEA (O15) -/

/-- A U second source gives one count. -/
theorem Src.count_eq (b : Src) (s : State) (h : b.isU s = true) (l k : Nat) : b.count s l = b.count s k := by
  cases b with
  | reg r => exact congrArg BitVec.toNat (VReg.isU_lane (s.reg r) h l k)
  | imm x => rfl

/-- An instruction whose meaning is a shift yields the shifted values. -/
theorem State.shifts_of_shiftOp {s : State} {i : Instr} {c : Ctl} {w : Bool} {d a : Reg} {b : Src} {sh : Nat → Nat → Nat → Nat} {affine : Bool}
    {f : Word → Nat → Word} {g : DWord → Nat → DWord} {fl : Bool} (he : exec i s = .next (shiftOp s c w d a b sh affine))
    (hf : ∀ x k, BitVec.ofNat 32 (sh 32 x.toNat k) = f x k) (hg : ∀ x k, BitVec.ofNat 64 (sh 64 x.toNat k) = g x k)
    (hrow : affine = true → RowHolds (affScale (fun x y => f x y.toNat) (s.reg a) (b.val s)) fun l => f (s.rd a l) (b.at s l).toNat)
    (hfl : fl = true → (affine = true ∧ s.flat a = true ∨ (s.reg a).isU = true) ∧ b.isU s = true) : s.Shifts i c w d a b f g fl := by
  refine ⟨fun hw hr => ?_, fun hw hr => ?_⟩
  · simp only [shiftOp, hw, Bool.false_eq_true, if_false, hf] at he
    refine State.yields_of_row he hr (fun h => ?_) ?_ fun l hl => shape2_lane _ _ _ l hl
    · obtain ⟨⟨haff, ha⟩ | ha, hb⟩ := hfl h
      · rw [if_pos haff]
        exact .inl (affScale_isSome _ (by simpa [State.flat] using ha) hb)
      · exact .inr (shape2_flat _ _ _ ha hb)
    · cases affine with
      | true => exact hrow rfl
      | false => exact rowHolds_none _
  · simp only [shiftOp, hw, if_true, hg] at he
    refine State.yieldsPair_of_pairResult he hr (fun h l => ?_) fun _ _ => rfl
    obtain ⟨ha, hb⟩ := Bool.and_eq_true_iff.1 h
    rw [s.pairU_eq a ha l 0, b.count_eq s hb l 0]

/-- The row of a left shift: it distributes over base and stride. -/
theorem rowHolds_shl (va vb : VReg) : RowHolds (affScale (fun x y => x <<< y.toNat) va vb) fun l => va.lane l <<< (vb.lane l).toNat :=
  rowHolds_affScale (fun x st k y => by simp only [BitVec.shiftLeft_eq_mul_twoPow]; ring) (fun y => BitVec.zero_shiftLeft _) va vb

/-- What `LEA` leaves: the first source and the shifted second. -/
theorem State.yields_of_leaOp {s : State} {i : Instr} {c : Ctl} {w un : Bool} {d a : Reg} {b : Src} {shift : BitVec 5}
    (he : exec i s = .next (leaOp s c w un d a b shift)) (hw : w = false) (hr : s.Ready c ([d, a] ++ b.names) [d] ((s.reg a).isU && b.isU s)) :
    s.Yields i c d (fun l => s.rd a l + (b.at s l <<< shift.toNat)) .zero := by
  simp only [leaOp, hw, Bool.false_eq_true, if_false] at he
  refine State.yields_of_commit _ he hr (fun h => ?_) fun l hl => shape2_lane _ _ _ l hl
  obtain ⟨ha, hb⟩ := Bool.and_eq_true_iff.1 h
  exact shape2_flat _ _ _ ha hb

/-- What `LEA.W` leaves, for an index `idx` that is one value where the second source is U. -/
theorem State.yieldsPair_of_lea {s : State} {i : Instr} {c : Ctl} {d a : Reg} {b : Src} {shift : BitVec 5} {idx : Nat → DWord}
    (he : exec i s = .next (s.commit c (pairRegs d ++ pairRegs a ++ b.names)
      (pairResult d (s.pairU a && b.isU s) fun l => s.rdPair a l + (idx l <<< shift.toNat)) [] .zero))
    (hidx : b.isU s = true → ∀ l, idx l = idx 0)
    (hr : s.Ready c (pairRegs d ++ pairRegs a ++ b.names) [d, d + 1] (s.pairU a && b.isU s)) :
    s.YieldsPair i c d (fun l => s.rdPair a l + (idx l <<< shift.toNat)) .zero := by
  refine State.yieldsPair_of_pairResult he hr (fun h l => ?_) fun _ _ => rfl
  obtain ⟨ha, hb⟩ := Bool.and_eq_true_iff.1 h
  rw [s.pairU_eq a ha l 0, hidx hb]

/-- Settles O15: the shifts by their values for every count, `SHL` with its affine row, and `LEA` by its index. -/
theorem shiftAndLeaResults : Obligations.ShiftAndLeaResults := by
  intro s c w un d a b imm shift left other lea
  have hleft : ∀ x : Src, left x = true → (true = true ∧ s.flat a = true ∨ (s.reg a).isU = true) ∧ x.isU s = true :=
    fun x h => (Bool.and_eq_true_iff.1 h).imp_left fun ha => .inl ⟨rfl, ha⟩
  have hother : ∀ x : Src, other x = true → (false = true ∧ s.flat a = true ∨ (s.reg a).isU = true) ∧ x.isU s = true :=
    fun x h => (Bool.and_eq_true_iff.1 h).imp_left .inr
  refine ⟨State.shifts_of_shiftOp rfl ofNat_shlN_eq ofNat_shlN_eq (fun _ => rowHolds_shl _ _) (hleft _),
    State.shifts_of_shiftOp rfl ofNat_shlN_eq ofNat_shlN_eq (fun _ => rowHolds_shl _ _) (hleft _),
    State.shifts_of_shiftOp rfl ofNat_shrN_eq ofNat_shrN_eq nofun (hother _),
    State.shifts_of_shiftOp rfl ofNat_shrN_eq ofNat_shrN_eq nofun (hother _),
    State.shifts_of_shiftOp rfl (ofNat_sarN_eq (by decide)) (ofNat_sarN_eq (by decide)) nofun (hother _),
    State.shifts_of_shiftOp rfl (ofNat_sarN_eq (by decide)) (ofNat_sarN_eq (by decide)) nofun (hother _),
    ⟨State.yields_of_leaOp (un := un) rfl, fun hw => State.yieldsPair_of_lea (b := .reg b) (by subst hw; rfl) fun hb l => ?_⟩,
    ⟨State.yields_of_leaOp (un := false) rfl, fun hw => State.yieldsPair_of_lea (b := .imm imm) (by subst hw; rfl) fun _ _ => rfl⟩⟩
  have hU : s.rd b l = s.rd b 0 := VReg.isU_lane (s.reg b) hb l 0
  simp only [hU]

/-! ## Bit counts and bit fields (O16) -/

/-- The number of set bits. -/
theorem popCount_eq {n : Nat} (x : BitVec n) : popCount n x.toNat = (List.range n).countP fun i => x.getLsbD i :=
  List.countP_eq_length_filter.symm

/-- The number of leading zeros, by the highest set bit. -/
theorem leadingZeros_eq (n : Nat) : ∀ x : Nat, x < 2 ^ n → leadingZeros n x = if x = 0 then n else n - 1 - Nat.log2 x := by
  induction n with
  | zero => intro x hx; rw [if_pos (by simpa using hx)]; rfl
  | succ n ih =>
    intro x hx
    rw [leadingZeros]
    by_cases hlt : x < 2 ^ n
    · rw [if_neg (by simp [Nat.testBit_lt_two_pow hlt]), ih x hlt]
      split
      · omega
      · next h0 => have := (Nat.log2_lt h0).2 hlt; omega
    · have hle : 2 ^ n ≤ x := Nat.le_of_not_lt hlt
      have h0 : x ≠ 0 := by have := Nat.two_pow_pos n; omega
      have hlog : x.log2 = n := (Nat.log2_eq_iff h0).2 ⟨hle, hx⟩
      have htop : x.testBit n = true := hlog ▸ Nat.testBit_log2 h0
      rw [if_pos htop, if_neg h0, hlog]
      omega

/-- A field read from a value (R299). -/
theorem ofNat_bfeVal {n : Nat} (un : Bool) (x : BitVec n) (pos wid : Nat) (hw : 0 < wid) : BitVec.ofNat n (bfeVal un n x.toNat pos wid)
    = if un then (x.extractLsb' pos wid).setWidth n else (x.extractLsb' pos wid).signExtend n := by
  have hfield : bitsAt x.toNat pos wid = (x.extractLsb' pos wid).toNat := rfl
  cases un with
  | true =>
    apply BitVec.eq_of_toNat_eq
    simp only [bfeVal, hfield, if_true, BitVec.toNat_ofNat, BitVec.toNat_setWidth, Nat.mod_mod]
  | false =>
    simp only [bfeVal, hfield, Bool.false_eq_true, if_false, wrapInt_ofInt, signedVal_toInt hw]
    rfl

/-- The bits of a value with a field put in (R299). -/
theorem testBit_bfiVal (x base pos wid i : Nat) :
    (bfiVal x base pos wid).testBit i = if pos ≤ i ∧ i < pos + wid then x.testBit (i - pos) else base.testBit i := by
  have hsum : bfiVal x base pos wid = 2 ^ pos * (2 ^ wid * (base / 2 ^ (pos + wid)) + x % 2 ^ wid) + base % 2 ^ pos := by
    rw [bfiVal, Nat.pow_add]
    ring
  rw [hsum, Nat.testBit_two_pow_mul_add _ (Nat.mod_lt _ (Nat.two_pow_pos _)), Nat.testBit_mod_two_pow]
  by_cases hlo : i < pos
  · rw [if_pos hlo, if_neg (by omega)]
    simp [hlo]
  · rw [if_neg hlo, Nat.testBit_two_pow_mul_add _ (Nat.mod_lt _ (Nat.two_pow_pos _)), Nat.testBit_mod_two_pow]
    by_cases hhi : i < pos + wid
    · have hk : i - pos < wid := by omega
      rw [if_pos hk, if_pos ⟨by omega, hhi⟩]
      simp [hk]
    · rw [if_neg (by omega), if_neg (by omega), Nat.testBit_div_two_pow]
      congr 1
      omega

/-- The lanes of a field's mask: its bits below the width. -/
theorem getLsbD_fieldMask {n pos wid i : Nat} (hi : i < n) :
    ((BitVec.ofNat n (2 ^ wid - 1)) <<< pos).getLsbD i = decide (pos ≤ i ∧ i < pos + wid) := by
  rw [BitVec.getLsbD_shiftLeft, BitVec.getLsbD_ofNat, Nat.testBit_two_pow_sub_one]
  by_cases hlo : i < pos
  · simp [hlo]
  · have hk : i - pos < n := by omega
    simp only [hi, hlo, hk, decide_true, decide_false, Bool.not_false, Bool.true_and]
    exact decide_eq_decide.2 (by omega)

/-- A field put into a value (R299). -/
theorem ofNat_bfiVal {n : Nat} (x y : BitVec n) (pos wid : Nat) : BitVec.ofNat n (bfiVal x.toNat y.toNat pos wid)
    = (y &&& ~~~((BitVec.ofNat n (2 ^ wid - 1)) <<< pos)) ||| ((x <<< pos) &&& ((BitVec.ofNat n (2 ^ wid - 1)) <<< pos)) := by
  apply BitVec.eq_of_getLsbD_eq
  intro i hi
  rw [BitVec.getLsbD_ofNat, testBit_bfiVal, BitVec.getLsbD_or, BitVec.getLsbD_and, BitVec.getLsbD_and, BitVec.getLsbD_not, getLsbD_fieldMask hi,
    BitVec.getLsbD_shiftLeft]
  by_cases hin : pos ≤ i ∧ i < pos + wid
  · have hlo : ¬i < pos := by omega
    simp only [hi, hin, hlo, and_self, decide_true, decide_false, Bool.not_true, Bool.not_false, Bool.and_false, Bool.false_or, Bool.and_true,
      Bool.true_and, if_true]
    rfl
  · simp only [hi, hin, decide_true, decide_false, Bool.not_false, Bool.and_false, Bool.or_false, Bool.and_true, Bool.true_and, if_false]
    rfl

/-- The number of leading zeros in the terms of the statement. -/
theorem ofNat_leadingZeros {n : Nat} (x : BitVec n) :
    BitVec.ofNat n (leadingZeros n x.toNat) = BitVec.ofNat n (if x = 0 then n else n - 1 - Nat.log2 x.toNat) := by
  have h0 : x.toNat = 0 ↔ x = 0 := ⟨fun h => BitVec.eq_of_toNat_eq h, fun h => by rw [h]; rfl⟩
  simp only [leadingZeros_eq n x.toNat x.isLt, h0]

/-- Settles O16: each form commits its count or its field, on words and on pairs. -/
theorem bitFieldResults : Obligations.BitFieldResults := by
  intro s c w un d a e pos wid1 count zeros field mask insert
  refine ⟨State.bitwiseOne_of_bitUn rfl (fun x => ?_) fun x => ?_, State.bitwiseOne_of_bitUn rfl ofNat_leadingZeros ofNat_leadingZeros,
    State.bitwiseOne_of_bitUn rfl (fun x => ofNat_bfeVal un x _ _ (Nat.succ_pos _)) fun x => ofNat_bfeVal un x _ _ (Nat.succ_pos _),
    State.bitwiseTwo_of_bitBin rfl (fun x y => ofNat_bfiVal x y _ _) fun x y => ofNat_bfiVal x y _ _⟩
  · exact congrArg (BitVec.ofNat 32) (popCount_eq x)
  · exact congrArg (BitVec.ofNat 64) (popCount_eq x)

/-! ## Bit reversal (O17) -/

/-- After k bits the sum that reverses is a multiple of 2^(n - k), whose quotient holds those bits in reverse order. -/
theorem reverseSum_testBit (n x : Nat) : ∀ k ≤ n, ∃ q, (List.range k).foldl (fun t i => if x.testBit i then t + 2 ^ (n - 1 - i) else t) 0 = 2 ^ (n - k) * q
    ∧ ∀ j < k, q.testBit j = x.testBit (k - 1 - j) := by
  intro k
  induction k with
  | zero => exact fun _ => ⟨0, rfl, fun j hj => absurd hj (Nat.not_lt_zero j)⟩
  | succ k ih =>
    intro hk
    obtain ⟨q, hq, hbits⟩ := ih (by omega)
    have hpow : 2 ^ (n - k) = 2 ^ (n - (k + 1)) * 2 := by rw [← Nat.pow_succ]; congr 1; omega
    refine ⟨2 * q + (x.testBit k).toNat, ?_, fun j hj => ?_⟩
    · rw [List.range_succ, List.foldl_append, List.foldl_cons, List.foldl_nil, hq, hpow, show n - 1 - k = n - (k + 1) by omega]
      cases x.testBit k
      · simp only [Bool.false_eq_true, if_false, Bool.toNat_false]; ring
      · simp only [if_true, Bool.toNat_true]; ring
    · cases j with
      | zero => cases h : x.testBit k <;> simp [Nat.testBit_zero, h]
      | succ j =>
        have hhalf : (2 * q + (x.testBit k).toNat) / 2 = q := by
          have := Bool.toNat_lt (x.testBit k)
          omega
        rw [Nat.testBit_succ, hhalf, hbits j (by omega)]
        congr 1
        omega

/-- The value with its bits in reverse order (R303). -/
theorem ofNat_reverseBits {n : Nat} (x : BitVec n) : BitVec.ofNat n (reverseBits n x.toNat) = x.reverse := by
  obtain ⟨q, hq, hbits⟩ := reverseSum_testBit n x.toNat n (Nat.le_refl n)
  rw [Nat.sub_self, Nat.pow_zero, Nat.one_mul] at hq
  apply BitVec.eq_of_getLsbD_eq
  intro i hi
  rw [BitVec.getLsbD_ofNat, reverseBits, hq, hbits i hi, BitVec.getLsbD_reverse, BitVec.getMsbD_eq_getLsbD]
  rfl

/-- Bit i of a reversed value. -/
theorem getLsbD_reverse_of_lt {n i : Nat} (x : BitVec n) (hi : i < n) : x.reverse.getLsbD i = x.getLsbD (n - 1 - i) := by
  rw [BitVec.getLsbD_reverse, BitVec.getMsbD_eq_getLsbD, decide_eq_true hi, Bool.true_and]

/-- A whole write leaves U where a U result is written, and G where the result is not U (R58). -/
theorem mergeWrite_shape {live act : Mask} {v : VReg} (old : VReg) (hw : wholeWrite live act = true) (hv : v.isU = false → v.isG = true) :
    (mergeWrite live act old v).isU = v.isU ∧ (mergeWrite live act old v).isG = !v.isU := by
  cases hU : v.isU with
  | true =>
    have hG := VReg.isG_of_isU hU
    rw [mergeWrite_whole old hw hG]
    exact ⟨hU, hG⟩
  | false =>
    have hG : (mergeWrite live act old v).isG = true := by rw [mergeWrite_isG, hv hU, Bool.or_true]
    exact ⟨VReg.isU_of_isG hG, hG⟩

/-- Writes of distinct registers: each register that is not the record register holds its merged value. -/
theorem Arch.vreg_writes (live act : Mask) (ws : List RegWrite) : ∀ a : Arch, (ws.map (·.reg)).Nodup → ∀ x ∈ ws, a.handler = none ∨ x.reg ≠ 60 →
    (ws.foldl (fun a y => a.write live act y) a).vreg x.reg = mergeWrite live act (a.vreg x.reg) x.val := by
  induction ws with
  | nil => exact fun _ _ x hx => nomatch hx
  | cons w ws ih =>
    intro a hn x hx hrec
    obtain ⟨hw, hns⟩ := List.nodup_cons.1 hn
    rw [List.foldl_cons]
    rcases List.mem_cons.1 hx with rfl | hx
    · rw [((Arch.writes_spec live act ws (a.write live act x) hns).2.1 x.reg hw).1]
      exact Arch.vreg_write_self live act a x hrec
    · have hne : x.reg ≠ w.reg := fun e => hw (List.mem_map.2 ⟨x, hx, e⟩)
      have hhandler : (a.write live act w).handler = none ∨ x.reg ≠ 60 := by
        refine hrec.imp_left fun h => ?_
        have hmap := (Arch.write_rest live act a w).2.2.2
        rw [h] at hmap
        simpa using hmap
      rw [ih _ hns x hx hhandler, Arch.vreg_write_ne live act a w x.reg hne]

/-- What a commit leaves in a register it writes. -/
theorem State.reg_commit {s : State} {c : Ctl} {names : List Reg} {ws : List RegWrite} {flat : Bool} (n : Counts)
    (hr : s.Ready c names (ws.map (·.reg)) flat) (hf : flat = true → ∀ x ∈ ws, x.val.isG = false) (hd : (ws.map (·.reg)).Nodup)
    {x : RegWrite} (hx : x ∈ ws) (hrec : s.isRecord x.reg = false) :
    (s.commit c names ws [] n).reg x.reg = mergeWrite s.cur.live (s.act c) (s.reg x.reg) x.val := by
  rw [State.commit_eq [] n hr.named hr.some (hr.fits ws rfl hf), State.reg_advance, State.reg, State.cur_count]
  refine Arch.vreg_writes _ _ ws s.cur.arch hd x hx ?_
  cases hh : s.cur.arch.handler with
  | none => exact .inl rfl
  | some h => exact .inr (by simpa [State.isRecord, Warp.inHandler, hh] using hrec)

/-- A value given as U where `u` says, and else as G, in every lane. -/
theorem uniform_shape (u : Bool) (x : Word) (xs : List Word) :
    (if u then VReg.u x else .g xs).isU = u ∧ (u = true → (if u then VReg.u x else .g xs).isG = false)
      ∧ (u = false → (if u then VReg.u x else .g xs).isG = true) := by
  cases u <;> simp [VReg.isU, VReg.isG]

/-- A result of one source is U where the source is, and else G. -/
theorem shape1_shape (f : Word → Word) (a : VReg) : (shape1 f a).isU = a.isU ∧ (a.isU = false → (shape1 f a).isG = true) := by
  cases a with
  | u x => exact ⟨rfl, fun h => nomatch h⟩
  | a b st => exact ⟨rfl, fun _ => rfl⟩
  | g xs => exact ⟨rfl, fun _ => rfl⟩

/-- A whole write of a lane-wise operation of one source leaves the shape of the source. -/
theorem State.shape_bitUn_word {s : State} {c : Ctl} {d a : Reg} (f : Word → Word) (g : DWord → DWord) (hr : s.Ready c [d, a] [d] (s.reg a).isU)
    (hwhole : wholeWrite s.cur.live (s.act c) = true) (hd : s.isRecord d = false) :
    ((bitUn s c false d a f g).reg d).isU = (s.reg a).isU ∧ ((bitUn s c false d a f g).reg d).isG = !(s.reg a).isU := by
  obtain ⟨hU, hG⟩ := shape1_shape f (s.reg a)
  have hreg : (bitUn s c false d a f g).reg d = mergeWrite s.cur.live (s.act c) (s.reg d) (shape1 f (s.reg a)) :=
    State.reg_commit (ws := [⟨d, shape1 f (s.reg a)⟩]) .zero hr (by simpa using shape1_flat f (s.reg a)) (by simp) (List.mem_singleton_self _) hd
  rw [hreg, ← hU]
  exact mergeWrite_shape _ hwhole (hU ▸ hG)

/-- A whole write of an operation on pairs leaves both halves U where the source pair is. -/
theorem State.shape_bitUn_pair {s : State} {c : Ctl} {d a : Reg} (f : Word → Word) (g : DWord → DWord)
    (hr : s.Ready c (pairRegs d ++ pairRegs a) [d, d + 1] (s.pairU a)) (hwhole : wholeWrite s.cur.live (s.act c) = true) (hd : s.isRecord d = false)
    (hd1 : s.isRecord (d + 1) = false) :
    ∀ r ∈ [d, d + 1], ((bitUn s c true d a f g).reg r).isU = s.pairU a ∧ ((bitUn s c true d a f g).reg r).isG = !s.pairU a := by
  obtain ⟨hlo, hloU, hloG⟩ := uniform_shape (s.pairU a) (loWord (g (s.rdPair a 0))) (lanesOf fun l => loWord (g (s.rdPair a l)))
  obtain ⟨hhi, hhiU, hhiG⟩ := uniform_shape (s.pairU a) (hiWord (g (s.rdPair a 0))) (lanesOf fun l => hiWord (g (s.rdPair a l)))
  have he : bitUn s c true d a f g = s.commit c (pairRegs d ++ pairRegs a) _ [] .zero :=
    congrArg (s.commit c (pairRegs d ++ pairRegs a) · [] .zero) (pairResult_eq d (s.pairU a) fun l => g (s.rdPair a l))
  rw [he]
  generalize (if s.pairU a then VReg.u (loWord (g (s.rdPair a 0))) else .g (lanesOf fun l => loWord (g (s.rdPair a l)))) = u at *
  generalize (if s.pairU a then VReg.u (hiWord (g (s.rdPair a 0))) else .g (lanesOf fun l => hiWord (g (s.rdPair a l)))) = v at *
  have hshape : ∀ x ∈ [(⟨d, u⟩ : RegWrite), ⟨d + 1, v⟩], s.isRecord x.reg = false → x.val.isU = s.pairU a → (s.pairU a = false → x.val.isG = true) →
      ((s.commit c (pairRegs d ++ pairRegs a) [⟨d, u⟩, ⟨d + 1, v⟩] [] .zero).reg x.reg).isU = s.pairU a
        ∧ ((s.commit c (pairRegs d ++ pairRegs a) [⟨d, u⟩, ⟨d + 1, v⟩] [] .zero).reg x.reg).isG = !s.pairU a := by
    intro x hx hrec hU hG
    rw [State.reg_commit .zero hr (fun h => by simp [hloU h, hhiU h]) (by simp) hx hrec, ← hU]
    exact mergeWrite_shape _ hwhole (hU ▸ hG)
  intro r hrm
  rcases List.mem_pair.1 hrm with rfl | rfl
  · exact hshape ⟨r, u⟩ (by simp) hd hlo hloG
  · exact hshape ⟨d + 1, v⟩ (by simp) hd1 hhi hhiG

/-- Settles O17: reversal is `BitVec.reverse`, a whole write keeps the shape of its value, and the two facts of the entry are evaluated. -/
theorem bitReversal : Obligations.BitReversal := by
  intro s c w d a
  refine ⟨State.bitwiseOne_of_bitUn rfl ofNat_reverseBits ofNat_reverseBits, fun x i hi => getLsbD_reverse_of_lt x hi,
    fun x i hi => getLsbD_reverse_of_lt x hi, fun hw hr hwhole hd => ?_, fun hw hr hwhole hd hd1 => ?_,
    (ofNat_reverseBits (0x00000001 : Word)).symm.trans (by decide), by decide⟩
  · subst hw
    exact ⟨_, rfl, State.shape_bitUn_word _ _ hr hwhole hd⟩
  · subst hw
    have hshape := State.shape_bitUn_pair (fun x => BitVec.ofNat 32 (reverseBits 32 x.toNat)) (fun x => BitVec.ofNat 64 (reverseBits 64 x.toNat)) hr
      hwhole hd hd1
    obtain ⟨hU, hG⟩ := hshape d (by simp)
    obtain ⟨hU1, hG1⟩ := hshape (d + 1) (by simp)
    exact ⟨_, rfl, hU, hU1, hG, hG1⟩

end Sys2Proof.Machine
end

section
/-! PROOFS. Compares, moves, lane exchange, votes and predicates (O18, O22 to O24). -/

namespace Sys2Proof.Machine

/-! ## Compares (O18) -/

/-- `ICMP` on words sets the bit of its condition. -/
theorem State.yieldsPred_of_icmp_word {s : State} {i : Instr} {c : Ctl} {w un : Bool} {cond : BitVec 3} {p : PReg} {a : Reg} {b : Src}
    (he : exec i s = .next (icmpOp s c w un cond p a b)) (hw : w = false) (hr : s.Ready c ([a] ++ b.names) [] true) :
    s.YieldsPred i c p (fun l => intCond cond (intOf un (s.rd a l)) (intOf un (b.at s l))) .zero := by
  simp only [icmpOp, hw, Bool.false_eq_true, if_false, readInt_intOf (by decide : 0 < 32)] at he
  exact State.yieldsPred_of_commit _ he hr fun l hl _ => by rw [getLsbD_maskOf, decide_eq_true hl, Bool.true_and]; rfl

/-- `ICMP` on pairs sets the bit of its condition. -/
theorem State.yieldsPred_of_icmp_pair {s : State} {i : Instr} {c : Ctl} {w un : Bool} {cond : BitVec 3} {p : PReg} {a : Reg} {b : Src}
    (he : exec i s = .next (icmpOp s c w un cond p a b)) (hw : w = true) (hr : s.Ready c (pairRegs a ++ b.pairNames) [] true) :
    s.YieldsPred i c p (fun l => intCond cond (intOf un (s.rdPair a l)) (intOf un (b.pair s l))) .zero := by
  simp only [icmpOp, hw, if_true, readInt_intOf (by decide : 0 < 64)] at he
  exact State.yieldsPred_of_commit _ he hr fun l hl _ => by rw [getLsbD_maskOf, decide_eq_true hl, Bool.true_and]

/-- `FCMP` sets the bit of its condition and raises its counts. -/
theorem State.yieldsPred_of_fcmp {s : State} {i : Instr} {c : Ctl} {fzi : Bool} {cond : BitVec 3} {p : PReg} {a : Reg} {b : Src}
    (he : exec i s = .next (fcmpOp s c fzi cond p a b)) (hr : s.Ready c ([a] ++ b.names) [] true) :
    s.YieldsPred i c p (fun l => (fcmpBit fzi cond (s.rd a l).toNat (b.at s l).toNat).1)
      (laneCounts (s.act c) fun l => (fcmpBit fzi cond (s.rd a l).toNat (b.at s l).toNat).2) := by
  rw [fcmpOp] at he
  exact State.yieldsPred_of_commit _ he hr fun l hl _ => by rw [getLsbD_maskOf, decide_eq_true hl, Bool.true_and]; rfl

/-- Settles O18: each compare commits the mask of its condition. -/
theorem compareResults : Obligations.CompareResults := by
  intro s c w un fzi cond p a b imm fimm mask icmp fcmp
  refine ⟨⟨State.yieldsPred_of_icmp_word rfl, State.yieldsPred_of_icmp_pair rfl⟩, ⟨State.yieldsPred_of_icmp_word rfl, State.yieldsPred_of_icmp_pair rfl⟩,
    State.yieldsPred_of_fcmp rfl, State.yieldsPred_of_fcmp rfl, fun hr => State.yieldsPred_of_commit _ rfl hr fun l hl _ => ?_⟩
  rw [getLsbD_maskOf, decide_eq_true hl, Bool.true_and]

/-! ## Moves and selection (O22) -/

/-- Predicate p7 holds in every lane (R61). -/
theorem Warp.getLsbD_pred_seven (w : Warp) {l : Nat} (hl : l < 128) : (w.pred 7).getLsbD l = true := by
  simp only [Warp.pred, if_true, BitVec.getLsbD_allOnes, hl, decide_true]

/-- `SEL` takes its first source where the predicate holds and its second elsewhere. -/
theorem State.yields_of_selOp {s : State} {i : Instr} {c : Ctl} {d a : Reg} {b : Src} {p : PReg} (he : exec i s = .next (selOp s c d a b p))
    (hr : s.Ready c ([d, a] ++ b.names) [d] (p == 7 && (s.reg a).isU && b.isU s)) :
    s.Yields i c d (fun l => if (s.cur.pred p).getLsbD l then s.rd a l else b.at s l) .zero := by
  rw [selOp] at he
  refine State.yields_of_commit _ he hr (fun h => ?_) fun l hl => ?_
  · simp only [Bool.and_eq_true, beq_iff_eq] at h
    obtain ⟨⟨hp, ha⟩, hb⟩ := h
    rw [if_pos ⟨hp, ha, hb⟩]
    exact VReg.isG_of_isU ha
  · split
    · next h =>
      rw [h.1, s.cur.getLsbD_pred_seven hl]
      rfl
    · rw [VReg.lane_lanesOf _ l hl]
      rfl

/-- Settles O22: each move commits its value, a pair of U halves as U. -/
theorem moveAndSelectResults : Obligations.MoveAndSelectResults := by
  intro s c w d a b imm lit p sel
  refine ⟨fun hw hr => ?_, fun hw hr => ?_, fun hw hr => ?_, fun hw hr => ?_, State.yields_of_selOp rfl, State.yields_of_selOp rfl⟩
  · subst hw
    exact State.yields_of_commit _ rfl hr (by simp [State.flat]) fun _ _ => rfl
  · subst hw
    exact State.yieldsPair_of_pairResult rfl hr (fun h l => s.pairU_eq a h l 0) fun _ _ => rfl
  · subst hw
    exact State.yields_of_commit _ rfl hr (fun _ => rfl) fun _ _ => rfl
  · subst hw
    exact State.yieldsPair_of_commit _ _ rfl hr (fun _ => ⟨rfl, rfl⟩) fun _ _ => ⟨rfl, rfl⟩

/-! ## Lane exchange (O23) -/

/-- The source lane of each mode, in a segment of 128 / 2^seg lanes (R335). -/
theorem lanexSrc_eq (seg : BitVec 3) (mode : BitVec 2) (l k : Nat) : lanexSrc seg mode l k =
    (let n := 128 / 2 ^ seg.toNat
     if mode = 0 then l / n * n + k % n
     else if mode = 1 then l / n * n + (l % n ^^^ k % n)
     else if mode = 2 then (if k ≤ l % n then l - k else l)
     else (if l % n + k < n then l + k else l)) := by
  unfold lanexSrc
  rw [Nat.shiftRight_eq_div_pow]
  generalize 128 / 2 ^ seg.toNat = n
  have hbase : l - l % n = l / n * n := by have := Nat.div_add_mod' l n; omega
  have hmod : l % n ≤ l := Nat.mod_le _ _
  obtain rfl | rfl | rfl | rfl : mode = 0 ∨ mode = 1 ∨ mode = 2 ∨ mode = 3 := by revert mode; decide
  · exact congrArg (· + k % n) hbase
  · exact congrArg (· + (l % n ^^^ k % n)) hbase
  · change (if k ≤ l % n then l - l % n + (l % n - k) else l) = if k ≤ l % n then l - k else l
    split
    · omega
    · rfl
  · change (if l % n + k < n then l - l % n + (l % n + k) else l) = if l % n + k < n then l + k else l
    split
    · omega
    · rfl

/-- Settles O23: both forms commit what the source lane holds. -/
theorem laneExchangeResults : Obligations.LaneExchangeResults := by
  intro s c seg mode d a b imm n src does
  have hdoes : ∀ {i : Instr} {x : Src}, exec i s = .next (lanexOp s c seg mode d a x) → does i x := by
    intro i x he hr
    refine State.yields_of_commit _ he hr (fun h => nomatch h) fun l hl => ?_
    rw [VReg.lane_lanesOf _ l hl]
    exact congrArg (s.rd a) (lanexSrc_eq seg mode l _)
  exact ⟨hdoes rfl, hdoes rfl⟩

/-! ## Votes and predicates (O24) -/

/-- A mask of all lanes or of none holds its value in every lane. -/
theorem getLsbD_allLanes (b : Bool) {l : Nat} (hl : l < 128) : (if b then BitVec.allOnes 128 else 0 : Mask).getLsbD l = b := by
  cases b
  · exact BitVec.getLsbD_zero
  · exact (BitVec.getLsbD_allOnes).trans (decide_eq_true hl)

/-- The lanes of one mask are all in another. -/
theorem and_beq_right (m act : Mask) : (m &&& act == act) = (List.range 128).all fun l => !act.getLsbD l || m.getLsbD l := by
  rw [Bool.eq_iff_iff, beq_iff_eq, List.all_eq_true]
  refine ⟨fun h l _ => ?_, fun h => BitVec.eq_of_getLsbD_eq fun l hl => ?_⟩
  · cases ha : act.getLsbD l with
    | false => rfl
    | true =>
      rw [← h, BitVec.getLsbD_and, Bool.and_eq_true] at ha
      rw [ha.1]
      rfl
  · have hor := h l (List.mem_range.2 hl)
    rw [BitVec.getLsbD_and]
    cases ha : act.getLsbD l
    · exact Bool.and_false _
    · rw [ha] at hor
      simpa using hor

/-- A mask is empty when no lane is in it. -/
theorem beq_zero_eq_not_any (m : Mask) : (m == 0) = !(List.range 128).any fun l => m.getLsbD l := by
  rw [Bool.eq_iff_iff, beq_iff_eq, Bool.not_eq_true', List.any_eq_false]
  refine ⟨fun h l _ => by simp [h], fun h => BitVec.eq_of_getLsbD_eq fun l hl => ?_⟩
  exact (Bool.not_eq_true _ ▸ h l (List.mem_range.2 hl)).trans BitVec.getLsbD_zero.symm

/-- The number of set bits below n of a mask. -/
theorem popCount_mask (n : Nat) (m : Mask) : popCount n m.toNat = (List.range n).countP fun l => m.getLsbD l := List.countP_eq_length_filter.symm

/-- A word of a mask (R367). -/
theorem ofNat_bitsAt_mask (m : Mask) (k : Nat) : BitVec.ofNat 32 (bitsAt m.toNat k 32) = (m >>> k).setWidth 32 := by
  apply BitVec.eq_of_toNat_eq
  rw [BitVec.toNat_ofNat, bitsAt, Nat.mod_mod, BitVec.toNat_setWidth, BitVec.toNat_ushiftRight]

/-- The words of a ballot. -/
def ballotWrites (d : Reg) (m : Mask) : List RegWrite := [⟨d, .u ((m >>> 0).setWidth 32)⟩, ⟨d + 1, .u ((m >>> 32).setWidth 32)⟩,
  ⟨d + 2, .u ((m >>> 64).setWidth 32)⟩, ⟨d + 3, .u ((m >>> 96).setWidth 32)⟩]

/-- `VOTE.BAL` commits the four words of the ballot. -/
theorem exec_voteBal (s : State) (c : Ctl) (d : Reg) (p : PReg) :
    exec (.vote c 3 d p) s = .next (s.commit c [d, d + 1, d + 2, d + 3] (ballotWrites d (s.cur.pred p &&& s.act c)) [] .zero) := by
  have hd : d + 0 = d := BitVec.add_zero d
  change Host.Outcome.next (s.commit c [d + 0, d + 1, d + 2, d + 3] [⟨d + 0, .u (BitVec.ofNat 32 (bitsAt _ 0 32))⟩,
    ⟨d + 1, .u (BitVec.ofNat 32 (bitsAt _ 32 32))⟩, ⟨d + 2, .u (BitVec.ofNat 32 (bitsAt _ 64 32))⟩, ⟨d + 3, .u (BitVec.ofNat 32 (bitsAt _ 96 32))⟩]
    [] .zero) = _
  simp only [ofNat_bitsAt_mask, hd]
  rfl

/-- Four registers in a row differ. -/
theorem regs_four_nodup (d : Reg) : [d, d + 1, d + 2, d + 3].Nodup := by
  revert d
  decide

/-- What `VOTE.BAL` leaves in its four registers. -/
theorem State.completes_voteBal {s : State} {c : Ctl} {d : Reg} {p : PReg} (hr : s.Ready c [d, d + 1, d + 2, d + 3] [d, d + 1, d + 2, d + 3] true) :
    s.Completes (.vote c 3 d p) fun t =>
      (∀ i < 4, s.Wrote t c (d + BitVec.ofNat 6 i) fun _ => ((s.cur.pred p &&& s.act c) >>> (32 * i)).setWidth 32)
      ∧ s.Advanced t c ∧ s.RegFrame t [d, d + 1, d + 2, d + 3] [] := by
  obtain ⟨hwrote, -, hadv, hframe, -⟩ := State.commit_spec (flat := true) (ballotWrites d (s.cur.pred p &&& s.act c)) [] .zero hr
    (by simp [ballotWrites, VReg.isG]) (regs_four_nodup d) List.nodup_nil
  refine ⟨_, exec_voteBal s c d p, fun i hi => ?_, hadv, hframe⟩
  have hmem : (⟨d + BitVec.ofNat 6 i, .u (((s.cur.pred p &&& s.act c) >>> (32 * i)).setWidth 32)⟩ : RegWrite)
      ∈ ballotWrites d (s.cur.pred p &&& s.act c) := by
    obtain rfl | rfl | rfl | rfl : i = 0 ∨ i = 1 ∨ i = 2 ∨ i = 3 := by omega
    · exact (BitVec.add_zero d).symm ▸ List.mem_cons_self
    · exact .tail _ (.head _)
    · exact .tail _ (.tail _ (.head _))
    · exact .tail _ (.tail _ (.tail _ (.head _)))
  exact hwrote _ hmem

/-- Settles O24: each form commits its mask, its ballot or its count. -/
theorem voteAndPredicateResults : Obligations.VoteAndPredicateResults := by
  intro s c form opc pfx d x y p on all any bit
  have hon : ∀ l, on l = (s.cur.pred p &&& s.act c).getLsbD l := fun l => (Bool.and_comm _ _).trans (BitVec.getLsbD_and).symm
  have hall : (s.cur.pred p &&& s.act c == s.act c) = all := and_beq_right _ _
  have hnone : (s.cur.pred p &&& s.act c == 0) = !any := by
    rw [beq_zero_eq_not_any]
    exact congrArg (fun f => !(List.range 128).any f) (funext fun l => (hon l).symm)
  have hcount : ∀ n, popCount n (s.cur.pred p &&& s.act c).toNat = (List.range n).countP on := fun n =>
    (popCount_mask n _).trans (congrArg (fun f => (List.range n).countP f) (funext fun l => (hon l).symm))
  refine ⟨fun hr => ⟨?_, ?_, ?_, ?_, ?_, ?_, ?_⟩, ?_, ?_, fun hr => ?_⟩
  · rintro rfl
    exact State.yieldsPred_of_commit _ rfl hr fun l hl _ => (getLsbD_allLanes _ hl).trans hall
  · rintro rfl
    exact State.yieldsPred_of_commit _ rfl hr fun l hl _ => (getLsbD_allLanes _ hl).trans ((congrArg (!·) hnone).trans (Bool.not_not any))
  · rintro rfl
    refine State.yieldsPred_of_commit _ rfl hr fun l hl _ => (getLsbD_allLanes _ hl).trans ?_
    rw [hall, hnone, Bool.or_comm]
  · rintro rfl
    exact State.yieldsPred_of_commit _ rfl hr fun l _ _ => BitVec.getLsbD_and
  · rintro rfl
    exact State.yieldsPred_of_commit _ rfl hr fun l _ _ => BitVec.getLsbD_or
  · rintro rfl
    exact State.yieldsPred_of_commit _ rfl hr fun l _ _ => BitVec.getLsbD_xor
  · rintro rfl
    refine State.yieldsPred_of_commit _ rfl hr fun l hl _ => BitVec.getLsbD_and.trans ?_
    rw [BitVec.getLsbD_not, decide_eq_true hl, Bool.true_and]
  · rintro rfl hr
    exact State.completes_voteBal hr
  · rintro rfl hr
    exact State.yieldsPred_of_commit _ rfl hr fun l hl _ => by rw [psetMask]; exact (getLsbD_maskOf _ l).trans (by rw [decide_eq_true hl, Bool.true_and])
  · cases pfx with
    | true =>
      refine State.yields_of_commit _ rfl hr (fun h => nomatch h) fun l hl => (VReg.lane_lanesOf _ l hl).trans ?_
      exact congrArg (BitVec.ofNat 32) (hcount l)
    | false =>
      exact State.yields_of_commit _ rfl hr (fun _ => rfl) fun _ _ => congrArg (BitVec.ofNat 32) (hcount 128)

end Sys2Proof.Machine
end

section
/-! PROOFS. A halted part, calls, returns and writes of the depth (O7, O27, O28, O36). -/

namespace Sys2Proof.Machine

/-- Settles O7: the step asks for a reset first. -/
theorem haltedPartStops : Obligations.HaltedPartStops := by
  intro s hphase hreset
  simp only [step, hphase, hreset, decide_true, Bool.not_false, Bool.and_self, if_true]

/-! ## Lanes that move and take a depth -/

/-- The lanes of a mask with new depths. -/
def State.withDepth (s : State) (m : Mask) (g : Nat → BitVec 16 → BitVec 16) : State :=
  { s with cur := s.cur.mapLanes m fun l x => { x with depth := g l x.depth } }

/-- A lane after a change of depths. -/
theorem State.lane_withDepth (s : State) (m : Mask) (g : Nat → BitVec 16 → BitVec 16) {l : Nat} (hl : l < 128) :
    (s.withDepth m g).cur.lane l = if m.getLsbD l then { s.cur.lane l with depth := g l (s.cur.lane l).depth } else s.cur.lane l :=
  Warp.lane_mapLanes s.cur m (fun l x => { x with depth := g l x.depth }) l hl

/-- Lanes that move and take new depths change in nothing else. -/
theorem State.moveLanes_withDepth (s : State) (c : Ctl) (f : Nat → DWord) (m : Mask) (g : Nat → BitVec 16 → BitVec 16) :
    s.Moved ((s.moveLanes c f).withDepth m g) f ∧ s.WarpFrame ((s.moveLanes c f).withDepth m g) [] Lane.noDepth
      ∧ ((s.moveLanes c f).withDepth m g).cur.arch.sets = s.cur.arch.sets
      ∧ ∀ l < 128, (((s.moveLanes c f).withDepth m g).cur.lane l).depth = if m.getLsbD l then g l (s.cur.lane l).depth else (s.cur.lane l).depth := by
  obtain ⟨hm, hf, hs, -⟩ := State.moveLanes_spec s c f
  generalize s.moveLanes c f = u at hm hf hs
  have hlane := fun l (hl : l < 128) => State.lane_withDepth u m g hl
  have hframe : s.WarpFrame u [] Lane.noDepth := { hf with lanes := fun l hl => noDepth_of_noPc (hf.lanes l hl) }
  refine ⟨⟨fun l hl => ?_, hm.handler⟩, ?_, hs, fun l hl => ?_⟩
  · rw [← hm.lanes l hl, hlane l hl]
    split <;> rfl
  · refine hframe.setLanes (u.withDepth m g).cur.arch.lanes u.cur.arch.sets u.cur.acted fun l hl => ?_
    change ((u.withDepth m g).cur.lane l).noDepth = _
    rw [hlane l hl]
    split <;> rfl
  · rw [hlane l hl, ← depth_of_noPc (hf.lanes l hl)]
    split <;> rfl

/-! ## A write besides a frame -/

/-- The warp with one register written by the lanes of a mask. -/
def State.withWrite (s : State) (live act : Mask) (x : RegWrite) : State := { s with cur := { s.cur with arch := s.cur.arch.write live act x } }

/-- A write changes no lane. -/
theorem State.lane_withWrite (s : State) (live act : Mask) (x : RegWrite) (l : Nat) : (s.withWrite live act x).cur.lane l = s.cur.lane l := by
  simp only [State.withWrite, Warp.lane, Arch.lane, (Arch.write_rest live act s.cur.arch x).1]

/-- A write leaves the PC, mask, resume point and block of the handler. -/
theorem State.handler_withWrite {β : Type} (s : State) (live act : Mask) (x : RegWrite) (f : Mask × DWord × DWord × Option HandlerBlock → β) :
    (s.withWrite live act x).cur.arch.handler.map (fun h => f (h.mask, h.pc, h.epc, h.blk)) = s.cur.arch.handler.map fun h => f (h.mask, h.pc, h.epc, h.blk) := by
  simpa [State.withWrite, Option.map_map, Function.comp_def] using congrArg (Option.map f) (Arch.write_rest live act s.cur.arch x).2.2.2

/-- A write keeps where the lanes have moved. -/
theorem State.Moved.withWrite {s u : State} {f : Nat → DWord} (h : s.Moved u f) (live act : Mask) (x : RegWrite) : s.Moved (u.withWrite live act x) f :=
  ⟨fun l hl => by rw [State.lane_withWrite]; exact h.lanes l hl, (State.handler_withWrite u live act x fun y => y.2.1).trans h.handler⟩

/-- Outside the handler a write adds its register to what a frame lets change. -/
theorem State.WarpFrame.withWrite {s u : State} {keep : Lane → Lane} (h : s.WarpFrame u [] keep) (hi : s.cur.inHandler = false) (live act : Mask)
    (x : RegWrite) : s.WarpFrame (u.withWrite live act x) [x.reg] keep where
  rest := congrArg (fun v : State => { v with cur := (u.withWrite live act x).cur }) h.rest
  warp := congrArg (fun w : Warp => { w with arch := (u.withWrite live act x).cur.arch }) h.warp
  regs r hr := (Arch.vreg_write_ne live act u.cur.arch x r (by simpa using hr)).trans (h.regs r (by simp))
  preds p := by
    rw [← h.preds p]
    simp only [Warp.pred, State.withWrite, (Arch.write_rest live act u.cur.arch x).2.1]
  failing r hr := (Arch.write_bad live act u.cur.arch x r (by simpa using hr)).trans (h.failing r (by simp))
  lanes l hl := by rw [State.lane_withWrite]; exact h.lanes l hl
  handler := by
    have hu : u.cur.arch.handler = none := by simpa [Warp.inHandler] using (h.inHandler_eq.trans hi)
    have hs : s.cur.arch.handler = none := by simpa [Warp.inHandler] using hi
    have hw : (u.withWrite live act x).cur.arch.handler = none := by
      have := State.handler_withWrite u live act x id
      rw [hu] at this
      simpa using this
    rw [hw, hs]

/-- Outside the handler such a write leaves its value in the active lanes and what the register held in the others (R58). -/
theorem State.WarpFrame.wrote_withWrite {s u : State} {c : Ctl} {keep : Lane → Lane} (h : s.WarpFrame u [] keep) (hi : s.cur.inHandler = false)
    (x : RegWrite) : s.Wrote (u.withWrite s.cur.live (s.act c) x) c x.reg x.val.lane := by
  have hu : u.cur.arch.handler = none := by simpa [Warp.inHandler] using (h.inHandler_eq.trans hi)
  have hrec : s.isRecord x.reg = false := by rw [State.isRecord, hi, Bool.false_and]
  have hreg : u.cur.arch.vreg x.reg = s.reg x.reg := h.regs x.reg (by simp)
  intro l hl
  obtain ⟨hact, hidle, -⟩ := Arch.vreg_write_lane s.cur.live (s.act c) u.cur.arch x l hl
  simp only [hu, Option.isSome_none, Bool.false_and, Bool.false_eq_true, if_false, false_implies, and_true] at hact
  rw [hreg] at hidle
  refine ⟨fun ha => ?_, fun ha => hidle ha, fun hx => absurd hx.1 (by rw [hrec]; decide)⟩
  rw [if_neg (by rw [hrec]; decide)]
  exact hact ha.1

/-! ## CALL and CALLX (R306) -/

/-- Of v62 alone only v62 binds, when it is not G. -/
theorem State.binding_link {s : State} (hG : (s.cur.arch.vregs.getD 62 (.u 0)).isG = false) : s.binding [62] = [62] := by
  have hcongr : s.binding [62] = (List.range 64).filter fun r => r == 62 := by
    refine List.filter_congr fun r _ => ?_
    by_cases hr : r = 62
    · subst hr
      rw [hG]
      decide
    · have h62 : ((62 : Reg).toNat == r) = false := beq_eq_false_iff_ne.2 fun h => hr (h.symm.trans rfl)
      simp only [List.any_cons, List.any_nil, h62, Bool.or_self, Bool.false_and, beq_eq_false_iff_ne.2 hr]
  rw [hcongr]
  decide

/-- The register a call writes: the return address, in every lane. -/
def State.callLink (s : State) (c : Ctl) : RegWrite := ⟨62, .g (lanesOf fun _ => loWord (s.next c))⟩

/-- What a call that completes leaves. -/
def State.called (s : State) (c : Ctl) (t : Nat → DWord) : State :=
  ((s.branch c t).withDepth (s.act c) fun _ x => x + 1).withWrite s.cur.live (s.act c) (s.callLink c)

/-- A link without a slot overflows at v62 (R60). -/
theorem State.overflow_callLink {s : State} {c : Ctl} (hi : s.cur.inHandler = false) (hG : (s.cur.arch.vregs.getD 62 (.u 0)).isG = false)
    (hfull : s.cur.arch.gCount = s.cur.hdr.gmax) : s.cur.overflow (s.act c) [s.callLink c] = some 62 := by
  refine State.overflow_eq_some (n := 62) hi (fun x hx => .inl ?_) ?_
  · rw [List.mem_singleton.1 hx]
    rfl
  · change (s.binding [62])[_]? = _
    rw [State.binding_link hG, hfull, Nat.sub_self]
    rfl

/-- An active lane stands at a depth. -/
def State.someAtDepth (s : State) (c : Ctl) (d : BitVec 16) : Prop := ∃ l < 128, s.active c l = true ∧ (s.cur.lane l).depth = d

/-- The test of the depths of the active lanes. -/
theorem State.someAtDepth_iff (s : State) (c : Ctl) (d : BitVec 16) :
    ((maskLanes (s.act c)).any fun l => (s.cur.lane l).depth == d) = true ↔ s.someAtDepth c d := by
  simp only [List.any_eq_true, mem_maskLanes, beq_iff_eq]
  exact ⟨fun ⟨l, ha, hd⟩ => ⟨l, lane_lt ha, ha, hd⟩, fun ⟨l, _, ha, hd⟩ => ⟨l, ha, hd⟩⟩

/-- An instruction with a lane at a depth has an active lane. -/
theorem State.someAtDepth.act_ne_zero {s : State} {c : Ctl} {d : BitVec 16} (h : s.someAtDepth c d) : s.act c ≠ 0 := by
  obtain ⟨l, -, ha, -⟩ := h
  exact mask_ne_zero ha

/-- No active lane stands at a depth. -/
theorem State.any_depth_eq_false {s : State} {c : Ctl} {d : BitVec 16} (h : ¬s.someAtDepth c d) :
    ((maskLanes (s.act c)).any fun l => (s.cur.lane l).depth == d) = false := Bool.eq_false_iff.2 fun ht => h ((s.someAtDepth_iff c d).1 ht)

section
variable {s : State} {c : Ctl} {names : List Reg} {computed : Bool} {t : Nat → DWord}

/-- A call with REGS below 63 is illegal. -/
theorem callOp_short (h : s.cur.hdr.regs < 63) : callOp s c names computed t = s.illegal (s.act c) := by
  simp only [callOp, h, decide_true, Bool.true_or, if_true]

/-- A call at the greatest depth is illegal. -/
theorem callOp_deepest (hr : 63 ≤ s.cur.hdr.regs) (hn : names.all s.cur.nameable = true) (hi : s.cur.inHandler = false) (hd : s.someAtDepth c 65535) :
    callOp s c names computed t = s.illegal (s.act c) := by
  simp only [callOp, Nat.not_lt.2 hr, decide_false, hn, Bool.not_true, Bool.or_self, Bool.false_eq_true, if_false, hd.act_ne_zero, hi, (s.someAtDepth_iff c 65535).2 hd, if_true]

/-- A call that is legal first finds a slot for its link, then checks its targets, and completes. -/
theorem callOp_legal (hr : 63 ≤ s.cur.hdr.regs) (hn : names.all s.cur.nameable = true) (hact : s.act c ≠ 0) (hi : s.cur.inHandler = false)
    (hd : ¬s.someAtDepth c 65535) :
    callOp s c names computed t = match s.cur.overflow (s.act c) [s.callLink c] with
      | some r => s.trapP (s.act c) 8 0 r.toNat none 0 4
      | none => match (if computed then s.targetTrap (s.act c) t else none) with
        | some x => x
        | none => s.called c t := by
  simp only [callOp, Nat.not_lt.2 hr, decide_false, hn, Bool.not_true, Bool.or_self, Bool.false_eq_true, if_false, hact, hi, State.any_depth_eq_false hd]
  rfl

/-- A call whose link has a slot checks its targets. -/
theorem callOp_room (hr : 63 ≤ s.cur.hdr.regs) (hn : names.all s.cur.nameable = true) (hact : s.act c ≠ 0) (hi : s.cur.inHandler = false)
    (hd : ¬s.someAtDepth c 65535) (hroom : s.HasRoom [62]) :
    callOp s c names computed t = match (if computed then s.targetTrap (s.act c) t else none) with
      | some x => x
      | none => s.called c t := by
  rw [callOp_legal hr hn hact hi hd, show s.cur.overflow (s.act c) [s.callLink c] = none from State.overflow_single_eq_none (.inr hroom)]

end

/-- What a call leaves of the lanes, of v62 and of the rest (R306). -/
theorem State.called_spec {s : State} (c : Ctl) (t : Nat → DWord) (hi : s.cur.inHandler = false) :
    s.Moved (s.called c t) (fun l => if s.active c l then t l else s.next c) ∧ s.Wrote (s.called c t) c 62 (fun _ => (s.next c).setWidth 32)
      ∧ (∀ l < 128, ((s.called c t).cur.lane l).depth = if s.active c l then (s.cur.lane l).depth + 1 else (s.cur.lane l).depth)
      ∧ s.WarpFrame (s.called c t) [62] Lane.noDepth ∧ (s.called c t).cur.arch.sets = s.cur.arch.sets := by
  obtain ⟨hm, hf, hs, hd⟩ := State.moveLanes_withDepth s c (fun l => if s.active c l then t l else s.next c) (s.act c) fun _ x => x + 1
  refine ⟨hm.withWrite _ _ _, fun l hl => ?_, fun l hl => ?_, hf.withWrite hi _ _ (s.callLink c),
    (Arch.write_rest s.cur.live (s.act c) _ (s.callLink c)).2.2.1.trans hs⟩
  · have hval : (s.callLink c).val.lane l = (s.next c).setWidth 32 := VReg.lane_lanesOf _ l hl
    have hwrote := hf.wrote_withWrite (c := c) hi (s.callLink c) l hl
    rw [hval] at hwrote
    exact hwrote
  · rw [State.called, State.lane_withWrite]
    exact hd l hl

/-- Settles O27: a call that is illegal, overflows or has a bad target traps, and any other moves, links and deepens. -/
theorem callResults : Obligations.CallResults := by
  intro s c off a l0 deep calls stops
  have hcalls : ∀ {i : Instr} {names : List Reg} {computed : Bool} {t : Nat → DWord}, exec i s = .next (callOp s c names computed t) →
      names.all s.cur.nameable = true → (s.cur.inHandler = false → (if computed then s.targetTrap (s.act c) t else none) = none) → calls i t := by
    intro i names computed t he hn ht hr hact hi hroom hd
    rw [callOp_room hr hn hact hi hd hroom, ht hi] at he
    exact ⟨_, he, State.called_spec c t hi⟩
  have hstops : ∀ {i : Instr} {names : List Reg} {computed : Bool} {t : Nat → DWord}, exec i s = .next (callOp s c names computed t) →
      names.all s.cur.nameable = true → stops i := by
    intro i names computed t he hn htake
    have hi : s.cur.inHandler = false := by rw [Warp.inHandler, htake.outside]; rfl
    refine ⟨fun hr => ?_, fun hr hd => ?_, fun hr hd hact hG hfull => ?_⟩
    · rw [callOp_short hr] at he
      exact ⟨_, he, htake.trapP_enters _ _ _ _ _ (by omega) (by omega)⟩
    · rw [callOp_deepest hr hn hi hd] at he
      exact ⟨_, he, htake.trapP_enters _ _ _ _ _ (by omega) (by omega)⟩
    · rw [callOp_legal hr hn hact hi hd, State.overflow_callLink hi hG hfull] at he
      exact ⟨_, he, htake.trapP_enters _ _ _ _ _ (by omega) (by decide)⟩
  refine ⟨hcalls (names := []) (computed := false) rfl rfl fun _ => rfl, hstops (names := []) (computed := false) rfl rfl, fun hn hn1 => ?_⟩
  have hnames : (pairRegs a).all s.cur.nameable = true := by simp only [pairRegs, List.all_cons, List.all_nil, hn, hn1, Bool.and_self]
  refine ⟨fun hgood => hcalls (computed := true) rfl hnames fun _ => ?_, hstops (computed := true) rfl hnames, fun htake hr hd hroom _ ha => ?_⟩
  · rw [if_pos rfl]
    exact State.targetTrap_eq_none fun l hl hact _ => hgood l hl hact
  · have hi : s.cur.inHandler = false := by rw [Warp.inHandler, htake.outside]; rfl
    have hact : s.act c ≠ 0 := mask_ne_zero ha
    have he : exec (.callx c a) s = .next (match s.targetTrap (s.act c) (s.rdPair a) with | some x => x | none => s.called c (s.rdPair a)) :=
      congrArg Host.Outcome.next (callOp_room (computed := true) hr hnames hact hi hd hroom)
    refine ⟨fun hbad hlow => ?_, fun hbad hal hlow => ?_⟩
    · rw [State.targetTrap_misaligned hi ha hbad hlow] at he
      exact ⟨_, he, htake.trapP_enters _ _ _ _ _ (by omega) (by omega)⟩
    · rw [State.targetTrap_beyond hi ha hbad hal hlow] at he
      exact ⟨_, he, htake.trapP_enters _ _ _ _ _ (by omega) (by omega)⟩

/-! ## Frame-bound sets left behind (R54) -/

/-- At its new depth an active lane leaves the frame-bound set k behind. -/
def State.leavesSet (s : State) (c : Ctl) (depth : Nat → Nat) (k : Nat) : Prop :=
  ∃ l < 128, s.active c l = true ∧ (s.setNo k).fb = true ∧ (s.setNo k).m.getLsbD l = true ∧ depth l < (s.setNo k).d.toNat

/-- The test that `orphan` makes of a set. -/
theorem State.leavesSet_iff (s : State) (c : Ctl) (depth : Nat → Nat) (k : Nat) :
    ((s.setNo k).fb && (maskLanes (s.act c &&& (s.setNo k).m)).any fun l => decide (depth l < (s.setNo k).d.toNat)) = true ↔ s.leavesSet c depth k := by
  simp only [Bool.and_eq_true, List.any_eq_true, mem_maskLanes, BitVec.getLsbD_and, decide_eq_true_eq]
  constructor
  · rintro ⟨hfb, l, ⟨ha, hm⟩, hd⟩
    exact ⟨l, lane_lt ha, ha, hfb, hm, hd⟩
  · rintro ⟨l, -, ha, hfb, hm, hd⟩
    exact ⟨hfb, l, ⟨ha, hm⟩, hd⟩

/-- No set is left behind. -/
theorem State.orphan_eq_none {s : State} {c : Ctl} {depth : Nat → Nat} (h : ∀ k < 16, ¬s.leavesSet c depth k) :
    s.cur.orphan (s.act c) depth = none := by
  unfold Warp.orphan
  rw [List.find?_eq_none]
  exact fun k hk ht => h k (List.mem_range.1 hk) ((s.leavesSet_iff c depth k).1 ht)

/-- The lowest set left behind. -/
theorem State.orphan_eq_some {s : State} {c : Ctl} {depth : Nat → Nat} {k : Nat} (hk : k < 16) (hleft : s.leavesSet c depth k)
    (hlow : ∀ j < k, ¬s.leavesSet c depth j) : s.cur.orphan (s.act c) depth = some k := by
  unfold Warp.orphan
  rw [List.find?_range_eq_some]
  refine ⟨(s.leavesSet_iff c depth k).2 hleft, List.mem_range.2 hk, fun j hj => ?_⟩
  rw [Bool.not_eq_true', Bool.eq_false_iff]
  exact fun ht => hlow j hj ((s.leavesSet_iff c depth j).1 ht)

/-! ## RET (R352) -/

/-- The address that lane l returns to. -/
def State.returnTo (s : State) (l : Nat) : DWord := (s.ipc &&& 0x00FFFFFF00000000) + (s.rd 62 l).setWidth 64

/-- The depth of lane l after a return. -/
def State.depthBelow (s : State) (l : Nat) : Nat := (s.cur.lane l).depth.toNat - 1

/-- What a return that completes leaves. -/
def State.afterRet (s : State) (c : Ctl) : State := (s.branch c s.returnTo).withDepth (s.act c) fun _ x => x - 1

section
variable {s : State} {c : Ctl}

/-- A return with REGS below 64 is illegal. -/
theorem exec_ret_short (h : s.cur.hdr.regs < 64) : exec (.ret c) s = .next (s.illegal (s.act c)) := by
  change execRet c s = _
  simp only [execRet, h, if_true]

/-- A return at depth 0 is illegal. -/
theorem exec_ret_shallowest (hr : 64 ≤ s.cur.hdr.regs) (hi : s.cur.inHandler = false) (hd : s.someAtDepth c 0) :
    exec (.ret c) s = .next (s.illegal (s.act c)) := by
  change execRet c s = _
  simp only [execRet, Nat.not_lt.2 hr, if_false, hd.act_ne_zero, hi, Bool.false_eq_true, (s.someAtDepth_iff c 0).2 hd, if_true]

/-- A return that is legal checks the sets it would leave behind, then its addresses, and completes. -/
theorem exec_ret_legal (hr : 64 ≤ s.cur.hdr.regs) (hact : s.act c ≠ 0) (hi : s.cur.inHandler = false) (hd : ¬s.someAtDepth c 0) :
    exec (.ret c) s = .next (match s.cur.orphan (s.act c) s.depthBelow with
      | some j => s.trapP (s.act c) 9 1 j none 0 4
      | none => match (maskLanes (s.act c)).find? fun l => (s.returnTo l).toNat % 4 != 0 with
        | some l => s.trapP (s.act c) 4 0 0 (some l) (s.returnTo l) 3
        | none => s.afterRet c) := by
  change execRet c s = _
  simp only [execRet, Nat.not_lt.2 hr, if_false, hact, hi, Bool.false_eq_true, State.any_depth_eq_false hd]
  rfl

end

/-- Settles O28: the tests in the order of R352, each with its trap, and the return itself. -/
theorem returnResult : Obligations.ReturnResult := by
  intro s c k l0 target shallow leaves
  refine ⟨fun hr hact hi hd hleaves halign => ?_, fun htake => ?_⟩
  · have hfind : (maskLanes (s.act c)).find? (fun l => (s.returnTo l).toNat % 4 != 0) = none := by
      rw [List.find?_eq_none]
      intro l hl
      have ha := (mem_maskLanes _ l).1 hl
      simpa using show (s.returnTo l).toNat % 4 = 0 from halign l (lane_lt ha) ha
    have he := exec_ret_legal hr hact hi hd
    rw [State.orphan_eq_none (depth := s.depthBelow) hleaves, hfind] at he
    obtain ⟨hm, hf, hs, hdepth⟩ := State.moveLanes_withDepth s c (fun l => if s.active c l then s.returnTo l else s.next c) (s.act c) fun _ x => x - 1
    exact ⟨_, he, hm, hdepth, hf, hs⟩
  · have hi : s.cur.inHandler = false := by rw [Warp.inHandler, htake.outside]; rfl
    refine ⟨fun hr => ?_, fun hr hd => ?_, fun hr hd hk hleft hlow => ?_, fun hr hd hleaves _ ha hbad hlow => ?_⟩
    · exact ⟨_, exec_ret_short hr, htake.trapP_enters _ _ _ _ _ (by omega) (by omega)⟩
    · exact ⟨_, exec_ret_shallowest hr hi hd, htake.trapP_enters _ _ _ _ _ (by omega) (by omega)⟩
    · have hact : s.act c ≠ 0 := by
        obtain ⟨l, -, ha, -⟩ := hleft
        exact mask_ne_zero ha
      have he := exec_ret_legal hr hact hi hd
      rw [State.orphan_eq_some (depth := s.depthBelow) hk hleft hlow] at he
      exact ⟨_, he, htake.trapP_enters _ _ _ _ _ (by omega) (by omega)⟩
    · have hbad : (s.returnTo l0).toNat % 4 ≠ 0 := hbad
      have hlow : ∀ l < l0, s.active c l = true → (s.returnTo l).toNat % 4 = 0 := hlow
      have he := exec_ret_legal hr (mask_ne_zero ha) hi hd
      rw [State.orphan_eq_none (depth := s.depthBelow) hleaves,
        maskLanes_find?_eq_some (p := fun l => (s.returnTo l).toNat % 4 != 0) ha (by simpa using hbad) fun l hl hm => by simpa using hlow l hl hm] at he
      exact ⟨_, he, htake.trapP_enters _ _ _ _ _ (by omega) (by omega)⟩

/-! ## SWRITE (R359) -/

/-- A write of depths that fit and leave no set behind advances the split and sets them. -/
theorem exec_swrite {s : State} {c : Ctl} {a : Reg} (hn : s.cur.nameable a = true) (hact : s.act c ≠ 0)
    (hfit : ∀ l < 128, s.active c l = true → (s.rd a l).toNat ≤ 65535) (hsets : ∀ k < 16, ¬s.leavesSet c (fun l => (s.rd a l).toNat) k) :
    exec (.swrite c a) s = .next ((s.advance c).withDepth (s.act c) fun l _ => (s.rd a l).setWidth 16) := by
  have hany : ((maskLanes (s.act c)).any fun l => decide (65535 < (s.rd a l).toNat)) = false :=
    maskLanes_any_eq_false fun l hl => decide_eq_false (Nat.not_lt.2 (hfit l (lane_lt hl) hl))
  change execSwrite c a s = _
  simp only [execSwrite, hn, Bool.not_true, Bool.false_eq_true, if_false, hact, hany, State.orphan_eq_none hsets]
  rfl

/-- Settles O36: the hypotheses pass both tests, and the lanes advance with their new depths. -/
theorem depthWriteResult : Obligations.DepthWriteResult := by
  intro s c a hn hact hfit hsets
  have hleft : ∀ k < 16, ¬s.leavesSet c (fun l => (s.rd a l).toNat) k := by
    rintro k hk ⟨l, hl, ha, hfb, hm, hd⟩
    exact absurd (hsets k hk l hl ha hfb hm) (Nat.not_le.2 hd)
  obtain ⟨hm, hf, hs, hdepth⟩ := State.moveLanes_withDepth s c (fun _ => s.next c) (s.act c) fun l _ => (s.rd a l).setWidth 16
  exact ⟨_, exec_swrite hn hact hfit hleft, hm.advanced, hf, hs, hdepth⟩

end Sys2Proof.Machine
end

section
/-! PROOFS. Sleep, the return from a trap, and barriers (O34, O37, O40). -/

namespace Sys2Proof.Machine

/-! ## Lanes that block -/

/-- The lanes of a mask blocked in the states `st`, holding the PC they block at. -/
def State.blockLanes (s : State) (m : Mask) (st : Nat → LaneState) (pc : DWord) : State :=
  { s with cur := s.cur.mapLanes m fun l x => { x with st := st l, wait := 0, bpc := pc } }

/-- A lane after a block. -/
theorem State.lane_blockLanes (s : State) (m : Mask) (st : Nat → LaneState) (pc : DWord) {l : Nat} (hl : l < 128) :
    (s.blockLanes m st pc).cur.lane l = if m.getLsbD l then { s.cur.lane l with st := st l, wait := 0, bpc := pc } else s.cur.lane l :=
  Warp.lane_mapLanes s.cur m (fun l x => { x with st := st l, wait := 0, bpc := pc }) l hl

/-- Blocking lanes of an advanced warp. -/
theorem State.AdvancedTo.blockLanes {s u : State} {c : Ctl} {g : Nat → LaneState × BitVec 16} (h : s.AdvancedTo u c g) (m : Mask)
    (st : Nat → LaneState) (pc : DWord) : s.AdvancedTo (u.blockLanes m st pc) c fun l => if m.getLsbD l then (st l, 0) else g l := by
  have hlane := fun l (hl : l < 128) => State.lane_blockLanes u m st pc hl
  refine ⟨⟨fun l hl => ?_, h.advanced.handler⟩, h.sets, fun l hl => ?_, ?_⟩
  · rw [← h.advanced.lanes l hl, hlane l hl]
    split <;> rfl
  · rw [hlane l hl, ← h.lanes l hl]
    split <;> rfl
  · refine h.frame.setLanes (u.blockLanes m st pc).cur.arch.lanes u.cur.arch.sets u.cur.acted fun l hl => ?_
    change ((u.blockLanes m st pc).cur.lane l).noState = _
    rw [hlane l hl]
    split <;> rfl

/-- The warp with its handler split blocked. -/
def State.blockHandler (s : State) (h : Handler) (b : HandlerBlock) : State :=
  { s with cur := { s.cur with arch := { s.cur.arch with handler := some { h with blk := some b } } } }

/-- Blocking the handler split of an advanced warp. -/
theorem State.AdvancedTo.blockHandler {s u : State} {c : Ctl} {g : Nat → LaneState × BitVec 16} (ha : s.AdvancedTo u c g) {h : Handler}
    (hh : u.cur.arch.handler = some h) (b : HandlerBlock) : s.AdvancedTo (u.blockHandler h b) c g := by
  refine ⟨⟨ha.advanced.lanes, ?_⟩, ha.sets, ha.lanes, ?_⟩
  · rw [← ha.advanced.handler, hh]
    rfl
  · refine ⟨congrArg (fun v : State => { v with cur := (u.blockHandler h b).cur }) ha.frame.rest,
      congrArg (fun w : Warp => { w with arch := (u.blockHandler h b).cur.arch }) ha.frame.warp, fun r hr => ?_, ha.frame.preds, ha.frame.failing,
      ha.frame.lanes, ?_⟩
    · refine Eq.trans (Arch.vreg_congr (u.blockHandler h b).cur.arch u.cur.arch rfl ?_ r) (ha.frame.regs r hr)
      rw [hh]
      rfl
    · rw [← ha.frame.handler, hh]
      rfl

/-! ## SLEEP (R357, R233) -/

/-- The greatest of some numbers and a start: no number exceeds it, and it is the start or one of them. -/
theorem foldl_max_spec (w : Nat → Nat) (xs : List Nat) : ∀ u, u ≤ xs.foldl (fun t l => max t (w l)) u
    ∧ (∀ l ∈ xs, w l ≤ xs.foldl (fun t l => max t (w l)) u)
    ∧ (xs.foldl (fun t l => max t (w l)) u = u ∨ ∃ l ∈ xs, w l = xs.foldl (fun t l => max t (w l)) u) := by
  induction xs with
  | nil => exact fun u => ⟨le_rfl, fun _ h => absurd h List.not_mem_nil, .inl rfl⟩
  | cons x xs ih =>
    intro u
    obtain ⟨hle, hall, hor⟩ := ih (max u (w x))
    rw [List.foldl_cons]
    refine ⟨(le_max_left _ _).trans hle, fun l hl => ?_, ?_⟩
    · rcases List.mem_cons.1 hl with rfl | hl
      · exact (le_max_right _ _).trans hle
      · exact hall l hl
    · rcases hor with he | ⟨l, hl, he⟩
      · rcases max_choice u (w x) with hm | hm
        · exact .inl (he.trans hm)
        · exact .inr ⟨x, List.mem_cons_self, hm.symm.trans he.symm⟩
      · exact .inr ⟨l, List.mem_cons_of_mem _ hl, he⟩

/-- The active lanes whose wake time lies ahead of the die's Tidemark. -/
def State.lateLanes (s : State) (c : Ctl) (w : Nat → Nat) : Mask := s.act c &&& maskOf fun l => decide (s.myTide < w l)

/-- A late lane is active and its wake time lies ahead. -/
theorem State.mem_lateLanes (s : State) (c : Ctl) (w : Nat → Nat) (l : Nat) :
    (s.lateLanes c w).getLsbD l = true ↔ s.active c l = true ∧ s.myTide < w l := by
  rw [State.lateLanes, BitVec.getLsbD_and, getLsbD_maskOf, Bool.and_eq_true, Bool.and_eq_true, decide_eq_true_eq, decide_eq_true_eq]
  exact ⟨fun ⟨ha, _, hw⟩ => ⟨ha, hw⟩, fun ⟨ha, hw⟩ => ⟨ha, lane_lt ha, hw⟩⟩

/-- The latest wake time of the late lanes. -/
def State.wakeTime (s : State) (c : Ctl) (w : Nat → Nat) : Nat := (maskLanes (s.lateLanes c w)).foldl (fun t l => max t (w l)) 0

/-- A late lane wakes at the latest time, and none wakes later. -/
theorem State.wakeTime_spec {s : State} {c : Ctl} {w : Nat → Nat} (h : s.lateLanes c w ≠ 0) :
    (∃ l < 128, (s.active c l = true ∧ s.myTide < w l) ∧ w l = s.wakeTime c w)
      ∧ ∀ l < 128, s.active c l = true ∧ s.myTide < w l → w l ≤ s.wakeTime c w := by
  obtain ⟨-, hall, hor⟩ := foldl_max_spec w (maskLanes (s.lateLanes c w)) 0
  have hle : ∀ l, s.active c l = true ∧ s.myTide < w l → w l ≤ s.wakeTime c w :=
    fun l hl => hall l ((mem_maskLanes _ l).2 ((s.mem_lateLanes c w l).2 hl))
  refine ⟨?_, fun l _ => hle l⟩
  obtain ⟨l, hl⟩ := exists_lane_of_ne_zero h
  have hlate := (s.mem_lateLanes c w l).1 hl
  rcases hor with h0 | ⟨k, hk, he⟩
  · have hpos := hle l hlate
    rw [State.wakeTime, h0] at hpos
    omega
  · have hklate := (s.mem_lateLanes c w k).1 ((mem_maskLanes _ k).1 hk)
    exact ⟨k, lane_lt hklate.1, hklate, he⟩

/-- What a sleep does at issue: it advances, and where a lane is late it blocks the late lanes or, in handler mode, the handler split. -/
theorem State.sleepOp_eq {s : State} {c : Ctl} {names : List Reg} {w : Nat → Nat} (hn : ∀ r ∈ names, s.cur.nameable r = true) :
    s.sleepOp c names w = if s.lateLanes c w = 0 then s.advance c
      else match (s.advance c).cur.arch.handler with
        | some h => (s.advance c).blockHandler h (.sleep (s.wakeTime c w))
        | none => (s.advance c).blockLanes (s.lateLanes c w) (fun l => .sleeping (w l)) s.ipc := by
  simp only [State.sleepOp, List.all_eq_true.2 hn, Bool.not_true, Bool.false_eq_true, if_false]
  rfl

/-- Handler mode after an advance has the block it had. -/
theorem State.advance_blk {s : State} {c : Ctl} {h : Handler} (hh : (s.advance c).cur.arch.handler = some h) :
    some h.blk = s.cur.arch.handler.map (·.blk) := by
  have hmap := State.moveLanes_handler s c fun _ => s.next c
  rw [show (s.moveLanes c fun _ => s.next c).cur.arch.handler = some h from hh] at hmap
  cases hs : s.cur.arch.handler with
  | none => rw [hs] at hmap; exact nomatch hmap
  | some k =>
    rw [hs] at hmap
    obtain rfl := Option.some.inj hmap
    rfl

/-- Settles O37: no late lane, a handler split that blocks until the latest wake time, or late lanes that sleep. -/
theorem sleepResults : Obligations.SleepResults := by
  intro s c n a sleeps
  have hsleeps : ∀ {i : Instr} {names : List Reg} {w : Nat → Nat}, exec i s = .next (s.sleepOp c names w) → sleeps i names w := by
    intro i names w he hn
    let late (l : Nat) : Prop := s.active c l = true ∧ s.myTide < w l
    rw [State.sleepOp_eq hn] at he
    have hadv := s.advance_advancedTo c
    have hin : (s.advance c).cur.inHandler = s.cur.inHandler := hadv.frame.inHandler_eq
    have hlate : ∀ l, (s.lateLanes c w).getLsbD l = true ↔ late l := s.mem_lateLanes c w
    by_cases h0 : s.lateLanes c w = 0
    · have hnone : ∀ l, ¬late l := fun l hl => mask_ne_zero ((hlate l).2 hl) h0
      rw [if_pos h0] at he
      exact ⟨_, he, hadv.advanced, hadv.frame, hadv.sets, fun l hl => ⟨fun _ h => absurd h (hnone l), fun _ => Prod.ext_iff.1 (hadv.lanes l hl)⟩,
        fun h hh => ⟨fun _ => State.advance_blk hh, fun ⟨l, _, h⟩ => absurd h (hnone l)⟩⟩
    · obtain ⟨hwake, hmax⟩ := State.wakeTime_spec h0
      rw [if_neg h0] at he
      cases hh : (s.advance c).cur.arch.handler with
      | some h =>
        rw [hh] at he
        have hblock := hadv.blockHandler hh (.sleep (s.wakeTime c w))
        have hmode : s.cur.inHandler = true := by rw [← hin, Warp.inHandler, hh]; rfl
        refine ⟨_, he, hblock.advanced, hblock.frame, hblock.sets, fun l hl => ⟨fun hi => ?_, fun _ => Prod.ext_iff.1 (hblock.lanes l hl)⟩,
          fun k hk => ?_⟩
        · exact absurd (hi.symm.trans hmode) (by decide)
        · obtain rfl := Option.some.inj hk
          obtain ⟨l, hl, hlw, he⟩ := hwake
          exact ⟨fun hno => absurd hlw (hno l hl), fun _ => ⟨_, rfl, ⟨l, hl, hlw, he⟩, hmax⟩⟩
      | none =>
        rw [hh] at he
        have hblock := hadv.blockLanes (s.lateLanes c w) (fun l => .sleeping (w l)) s.ipc
        have hmode : s.cur.inHandler = false := by rw [← hin, Warp.inHandler, hh]; rfl
        refine ⟨_, he, hblock.advanced, hblock.frame, hblock.sets, fun l hl => ?_, fun k hk => ?_⟩
        · have hl' := hblock.lanes l hl
          refine ⟨fun _ hlw => ?_, fun hno => ?_⟩
          · rw [if_pos ((hlate l).2 hlw)] at hl'
            exact Prod.ext_iff.1 hl'
          · have hnl : ¬late l := hno.resolve_left (by rw [hmode]; decide)
            rw [if_neg fun ht => hnl ((hlate l).1 ht)] at hl'
            exact Prod.ext_iff.1 hl'
        · exact absurd (hh.symm.trans hk) nofun
  exact ⟨hsleeps rfl, hsleeps rfl, hsleeps (names := pairRegs a) rfl⟩

/-! ## TRAPRET (R234, R366) -/

/-- The PC a return from the handler resumes at (R232). -/
def Handler.resumePc (h : Handler) : DWord := pairOf (h.words.getD 3 0) (h.words.getD 4 0 &&& 0xFFFFFF)

/-- A lane after the return from the handler. -/
def Handler.resume (h : Handler) (l : Nat) (x : Lane) : Lane :=
  { x with wait := 0, pc := if h.mask.getLsbD l = true ∧ x.st = .runnable ∧ x.pc = h.epc then h.resumePc else x.pc }

/-- The return ends handler mode, resumes the lanes and lets go what is fetched ahead. -/
theorem State.trapReturn_eq {s : State} {h : Handler} (hh : s.cur.arch.handler = some h) :
    s.trapReturn = { s with cur := { s.cur with
      arch := { s.cur.arch with handler := none, lanes := s.trapReturn.cur.arch.lanes }, fetched := [] } } := by
  simp only [State.trapReturn, hh]
  rfl

/-- The lanes after the return. -/
theorem State.trapReturn_lane {s : State} {h : Handler} (hh : s.cur.arch.handler = some h) {l : Nat} (hl : l < 128) :
    s.trapReturn.cur.lane l = h.resume l (s.cur.lane l) := by
  have hmap := Warp.lane_mapLanes s.cur (BitVec.allOnes 128) (fun l x => { x with
    wait := 0, pc := if h.mask.getLsbD l && x.runnable && x.pc == h.epc then h.resumePc else x.pc }) l hl
  rw [BitVec.getLsbD_allOnes, decide_eq_true hl, if_pos rfl] at hmap
  simp only [State.trapReturn, hh]
  refine hmap.trans ?_
  simp only [Handler.resume, Lane.runnable, Bool.and_eq_true, beq_iff_eq, and_assoc]

/-- The state `TRAPRET` returns from: under YH the lanes of the handler split are marked (R39). -/
def State.yieldForReturn (s : State) (c : Ctl) : State := if c.yh then s.markYield s.split else s

/-- Marking changes the marks only. -/
theorem State.yieldForReturn_lane (s : State) (c : Ctl) {l : Nat} (hl : l < 128) :
    (s.yieldForReturn c).cur.lane l = { s.cur.lane l with ym := (s.cur.lane l).ym || (c.yh && s.split.getLsbD l) } := by
  cases hy : c.yh with
  | true =>
    simp only [State.yieldForReturn, hy, if_true, State.markYield_lane s s.split hl, Bool.true_and, Bool.or_comm]
  | false => simp only [State.yieldForReturn, hy, Bool.false_eq_true, if_false, Bool.false_and, Bool.or_false]

/-- Marking changes no other part of the state. -/
theorem State.yieldForReturn_eq (s : State) (c : Ctl) : s.yieldForReturn c = { s with cur := { s.cur with
    arch := { s.cur.arch with lanes := (s.yieldForReturn c).cur.arch.lanes }, ymNew := (s.yieldForReturn c).cur.ymNew } } := by
  cases hy : c.yh <;> simp only [State.yieldForReturn, hy, if_true, Bool.false_eq_true, if_false] <;> rfl

/-- Settles O40: the return on the marked warp, the advance of an empty mask, and the trap outside the handler. -/
theorem trapReturn : Obligations.TrapReturn := by
  intro s c h
  refine ⟨fun hact hh => ?_, fun hact hh => ?_, fun hact htake => ?_, by decide⟩
  · have hmark := s.yieldForReturn_eq c
    have hu : (s.yieldForReturn c).cur.arch.handler = some h := by rw [hmark]; exact hh
    have he : exec (.trapret c) s = .next (s.yieldForReturn c).trapReturn := by
      have hi : s.cur.inHandler = true := by rw [Warp.inHandler, hh]; rfl
      change execTrapret c s = _
      simp only [execTrapret, hact, if_false, hi, if_true, State.yieldForReturn]
      cases c.yh <;> rfl
    refine ⟨_, he, ?_, fun l hl => ?_⟩
    · have hret := State.trapReturn_eq hu
      generalize (s.yieldForReturn c).trapReturn = t at hret ⊢
      generalize s.yieldForReturn c = u at hmark hret
      rw [hret, hmark]
    · rw [State.trapReturn_lane hu hl, State.yieldForReturn_lane s c hl]
      rfl
  · have hi : s.cur.inHandler = true := by rw [Warp.inHandler, hh]; rfl
    have hadv := s.advance_advancedTo c
    obtain ⟨-, hf, -, -⟩ := State.moveLanes_spec s c fun _ => s.next c
    refine ⟨s.advance c, ?_, hadv.frame.inHandler_eq.trans hi, hadv.advanced, hf, hadv.sets⟩
    change execTrapret c s = _
    simp only [execTrapret, hact, if_true]
  · have hi : s.cur.inHandler = false := by rw [Warp.inHandler, htake.outside]; rfl
    refine ⟨s.illegal (s.act c), ?_, htake.trapP_enters _ _ _ _ _ (by omega) (by omega)⟩
    change execTrapret c s = _
    simp only [execTrapret, hact, if_false, hi, Bool.false_eq_true]

/-! ## BAR (R293, R294) -/

/-- The entries of a list with one of them changed. -/
theorem getElem?_updAt {α : Type} (f : α → α) (xs : List α) : ∀ n k : Nat, (updAt f n xs)[k]? = if k = n then xs[k]?.map f else xs[k]? := by
  induction xs with
  | nil => intro n k; cases n <;> simp [updAt]
  | cons x xs ih =>
    intro n k
    cases n with
    | zero => cases k <;> simp [updAt]
    | succ n =>
      cases k with
      | zero => simp [updAt]
      | succ k => simpa [updAt] using ih n k

/-- The state `t` with what the warp of `s` has fetched ahead. -/
def State.refetched (s t : State) : State := { t with cur := { t.cur with fetched := s.cur.fetched } }

/-- The state `k` with nothing fetched ahead. -/
def State.unfetched (k : State) : State := { k with cur := k.cur.refetch }

/-- A frame over `k` is one over `k` without what is fetched ahead, but for that. -/
theorem State.WarpFrame.refetched {s k : State} {ds : List Reg} {keep : Lane → Lane} (h : s.WarpFrame k ds keep) :
    s.WarpFrame (s.refetched k.unfetched) ds keep := by
  have hfetched : k.cur.fetched = s.cur.fetched := (congrArg Warp.fetched h.warp :)
  have he : s.refetched k.unfetched = k := by
    simp only [State.refetched, State.unfetched, Warp.refetch, ← hfetched]
  rwa [he]

/-- Letting go what is fetched ahead moves no lane. -/
theorem State.Advanced.unfetched {s k : State} {c : Ctl} (h : s.Advanced k c) : s.Advanced k.unfetched c := ⟨h.lanes, h.handler⟩

/-- Outside the handler a barrier instruction of a barrier the workgroup has, with an active lane, has its effect (R293). -/
theorem State.barOp_eq {s : State} {c : Ctl} {b : BitVec 5} (k : State) (hb : b.toNat < s.cur.hdr.bars) (ha : s.act c ≠ 0)
    (hi : s.cur.inHandler = false) : s.barOp c b k = k.unfetched := by
  simp only [State.barOp, Nat.not_le.2 hb, if_false, ha, hi, Bool.false_eq_true]
  rfl

/-- The warp's arrival at a barrier of its workgroup. -/
def Workgroup.arriveAt (g : Workgroup) (b : BitVec 5) (index : Nat) : Workgroup :=
  { g with bars := updAt (fun x => (x.arrive index).1) b.toNat g.bars }

/-- The barriers of the workgroups after an arrival (R293). -/
theorem State.mem_wgs_arrive (s : State) (b : BitVec 5) (index : Nat) {g : Workgroup} (hg : g ∈ s.wgs) :
    ∃ h ∈ (s.mapWg s.cur.wg fun g => g.arriveAt b index).wgs, h = { g with bars := h.bars } ∧ ∀ k z, g.bars[k]? = some z →
      h.bars[k]? = some (if g.key = s.cur.wg ∧ k = b.toNat then
        (if z.arrived.getLsbD index then { z with deferred := z.deferred ||| (1 <<< index) } else { z with arrived := z.arrived ||| (1 <<< index) })
        else z) := by
  refine ⟨if g.key == s.cur.wg then g.arriveAt b index else g, List.mem_map_of_mem hg, ?_, fun k z hz => ?_⟩
  · split <;> rfl
  · by_cases hkey : g.key = s.cur.wg
    · rw [if_pos (beq_iff_eq.2 hkey), Workgroup.arriveAt, getElem?_updAt, hz]
      by_cases hk : k = b.toNat
      · rw [if_pos hk, if_pos ⟨hkey, hk⟩, Option.map_some, Barrier.arrive]
        split <;> rfl
      · rw [if_neg hk, if_neg fun h => hk h.2]
    · rw [if_neg (by simpa using hkey), if_neg fun h => hkey h.1, hz]

/-- Settles O34: the lanes that wait are blocked, an arrival is counted in the warp's own workgroup, and what is fetched ahead is let go. -/
theorem barrierResults : Obligations.BarrierResults := by
  intro s c b x refetches blocks hb ha hi
  have hadv := s.advance_advancedTo c
  have hblocks : ∀ {i : Instr} {st : LaneState}, exec i s = .next (s.barOp c b (s.blockAtBar c st)) → blocks i st := by
    intro i st he
    rw [State.barOp_eq _ hb ha hi] at he
    have hblock := hadv.blockLanes (s.act c) (fun _ => st) s.ipc
    exact ⟨_, he, hblock.advanced.unfetched, rfl, hblock.frame.refetched, hblock.sets, hblock.lanes⟩
  have hwait : ∀ {k : State}, (if x.arrived.getLsbD s.cur.index then s.blockAtBar c (.atBarrier b false (some x.phase)) else s.advance c) = k →
      exec (.barWait c b) s = .next (s.barOp c b k) := by
    rintro k rfl
    rfl
  refine ⟨hblocks rfl, fun hx => hblocks (hwait (if_pos hx)), fun hx => ?_, ?_⟩
  · have he := hwait (if_neg (by rw [hx]; decide))
    rw [State.barOp_eq _ hb ha hi] at he
    obtain ⟨-, hf, -, -⟩ := State.moveLanes_spec s c fun _ => s.next c
    exact ⟨_, he, hadv.advanced.unfetched, rfl, hf.refetched⟩
  · let arrived : State := s.mapWg s.cur.wg fun g => g.arriveAt b s.cur.index
    have he : exec (.barArrive c b) s = .next (s.barOp c b (arrived.advance c)) := rfl
    rw [State.barOp_eq _ hb ha hi] at he
    obtain ⟨hm, hf, -, -⟩ := State.moveLanes_spec arrived c fun _ => arrived.next c
    have hadvanced : s.Advanced (arrived.advance c) c := ⟨hm.lanes, hm.handler⟩
    have hrest : arrived.advance c = { arrived with cur := (arrived.advance c).cur } := hf.rest
    have hwgs : (arrived.advance c).wgs = arrived.wgs := (congrArg State.wgs hrest :)
    have hframe : s.WarpFrame { arrived.advance c with wgs := s.wgs } [] Lane.noPc :=
      { rest := congrArg (fun u : State => { u with wgs := s.wgs }) hrest
        warp := hf.warp
        regs := hf.regs
        preds := hf.preds
        failing := hf.failing
        lanes := hf.lanes
        handler := hf.handler }
    have hrecord : (arrived.advance c).unfetched = { s with cur := (arrived.advance c).unfetched.cur, wgs := arrived.wgs } := congrArg State.unfetched hrest
    refine ⟨_, he, hadvanced.unfetched, rfl, ?_, hframe.refetched, fun g hg => ?_⟩
    · exact hrecord.trans (congrArg (fun gs => { s with cur := (arrived.advance c).unfetched.cur, wgs := gs }) hwgs.symm)
    · obtain ⟨h, hh, hrecord⟩ := s.mem_wgs_arrive b s.cur.index hg
      exact ⟨h, hwgs ▸ hh, hrecord⟩

end Sys2Proof.Machine
end

section
/-! PROOFS. The array instructions at issue (O46). -/

namespace Sys2Proof.Machine

/-! ## Requests that enter (R34, R60, R229) -/

/-- What is pending after a request has entered. -/
theorem State.pends_addReq (s : State) (c : Ctl) (k : ReqKind) (ws : List RegWrite) (preds : List PReg) (async checked : Bool) :
    (s.addReq c k ws preds async checked).cur.pends = if ws.map (·.reg) = [] ∧ preds = [] then s.cur.pends
      else s.cur.pends ++ [⟨s.nextId, ws.map (·.reg), preds, async, none, false, s.cur.inHandler⟩] := by
  simp only [State.addReq, Bool.and_eq_true, List.isEmpty_iff, List.map_eq_nil_iff]

/-- A request that enters and advances its split is as `Requested` says. -/
theorem State.requested_addReq (s : State) (c : Ctl) (k : ReqKind) (ws : List RegWrite) (preds : List PReg) (async checked : Bool) :
    s.Advanced ((s.addReq c k ws preds async checked).advance c) c
      ∧ s.Requested ((s.addReq c k ws preds async checked).advance c) c k (ws.map (·.reg)) preds async checked := by
  have hpends := s.pends_addReq c k ws preds async checked
  obtain ⟨hmoved, hframe, hsets, hacted⟩ := State.moveLanes_spec (s.addReq c k ws preds async checked) c fun _ => (s.addReq c k ws preds async checked).next c
  have hcur := State.moveLanes_cur (s.addReq c k ws preds async checked) c fun _ => (s.addReq c k ws preds async checked).next c
  have hreqs : ((s.addReq c k ws preds async checked).advance c).reqs = (s.addReq c k ws preds async checked).reqs := (congrArg State.reqs hframe.rest :)
  have hpending : ((s.addReq c k ws preds async checked).advance c).cur.pends = (s.addReq c k ws preds async checked).cur.pends :=
    (congrArg Warp.pends hcur :)
  have hsnaps : ((s.addReq c k ws preds async checked).advance c).cur.snaps = (s.addReq c k ws preds async checked).cur.snaps :=
    (congrArg Warp.snaps hcur :)
  have hacted : ((s.addReq c k ws preds async checked).advance c).cur.acted = (s.addReq c k ws preds async checked).cur.acted := hacted
  refine ⟨⟨hmoved.lanes, hmoved.handler⟩, ?_⟩
  constructor
  case rest => exact hframe.rest.trans (by rw [hreqs]; rfl)
  case req => exact hreqs
  case warp =>
    have hwarp : ((s.addReq c k ws preds async checked).advance c).cur = _ := hframe.warp
    rw [hpending, hsnaps]
    rw [show ((s.addReq c k ws preds async checked).moveLanes c fun _ => (s.addReq c k ws preds async checked).next c).cur.acted = _ from hacted] at hwarp
    exact hwarp
  case pending => exact hpending.trans hpends
  case checkpoint => exact hsnaps
  case regs => exact fun r l hl => (congrArg (VReg.lane · l) (State.reg_advance _ c r)).trans (Arch.lane_bind s.cur.arch s.cur.live (s.act c) ws r hl)
  case others => exact fun r hr => (State.reg_advance _ c r).trans (Arch.vreg_bind_of_notMem s.cur.arch s.cur.live (s.act c) hr)
  case preds => exact congrArg (·.arch.preds) hcur
  case sets => exact hsets
  case lanes => exact fun l hl => noState_of_noPc (hframe.lanes l hl)

/-- The G slots left for the destinations suffice, whichever lanes are written. -/
theorem State.overflow_eq_none_of_hasRoom {s : State} {ws : List RegWrite} (act : Mask) (h : s.HasRoom (ws.map (·.reg))) :
    s.cur.overflow act ws = none := by
  have hcount : (s.cur.binds act ws).length ≤ ((ws.map (·.reg)).filter fun d => !(s.cur.arch.vregs.getD d.toNat (.u 0)).isG && !s.isRecord d).length := by
    have hle : (s.cur.binds act ws).length ≤ ws.countP fun x => !(s.cur.filed x.reg).isG && !s.isRecord x.reg := by
      unfold Warp.binds Warp.fileWrites State.isRecord
      cases hi : s.cur.inHandler with
      | false =>
        simp only [Bool.false_eq_true, if_false, Bool.false_and, Bool.not_false, Bool.and_true, ← List.countP_eq_length_filter]
        exact List.countP_mono_left fun x _ hx => (Bool.and_eq_true_iff.1 hx).2
      | true =>
        simp only [if_true, Bool.true_and, List.filter_filter, ← List.countP_eq_length_filter]
        refine List.countP_mono_left fun x _ hx => ?_
        obtain ⟨hx, h60⟩ := Bool.and_eq_true_iff.1 hx
        exact Bool.and_eq_true_iff.2 ⟨(Bool.and_eq_true_iff.1 hx).2, h60⟩
    rw [List.filter_map, List.length_map, ← List.countP_eq_length_filter]
    exact hle
  exact Warp.overflow_eq_none (.inr ((Nat.add_le_add_left hcount _).trans h))

/-! ## AMODE (R278) -/

/-- The arrays a mask names (R278). -/
def namedArrays (w : Word) : List Nat := (List.range 32).filter fun j => w.getLsbD j

/-- The physical arrays of those named. -/
def State.namedPhys (s : State) (w : Word) : List Nat := (namedArrays w).filterMap fun j => (s.myArray j).map (·.phys)

/-- What an `AMODE` does whose mask is known. -/
def State.amodeOf (s : State) (c : Ctl) (tc : Bool) (w : Word) : State :=
  if (namedArrays w).any fun j => decide (s.arrayTotal ≤ j) then s.trapP (s.act c) 6 0xFF 0 none 0 4
  else match (if tc then (namedArrays w).find? fun j => ((s.myArray j).map (·.usable)).getD 0 == 0 else none) with
    | some j => s.trapP (s.act c) 7 j 0 none 0 4
    | none => (if (s.namedPhys w).isEmpty then s else s.addReq c (.amode (s.namedPhys w) tc) [] [] false true).advance c

/-- `AMODE` with a literal mask. -/
theorem exec_amode_literal {s : State} {c : Ctl} (tc : Bool) (a : Reg) (mask : Word) (hact : s.act c ≠ 0) :
    exec (.amode c false tc a mask) s = .next (s.amodeOf c tc mask) := by
  change execAmode c false tc a mask s = _
  simp only [execAmode, Bool.false_and, Bool.false_eq_true, if_false, hact]
  rfl

/-- `AMODE` with the mask in a U register. -/
theorem exec_amode_register {s : State} {c : Ctl} (tc : Bool) {a : Reg} (mask : Word) (hact : s.act c ≠ 0) (hn : s.cur.nameable a = true)
    (hu : (s.reg a).isU = true) : exec (.amode c true tc a mask) s = .next (s.amodeOf c tc (s.rd a 0)) := by
  change execAmode c true tc a mask s = _
  simp only [execAmode, hn, hu, Bool.not_true, Bool.and_false, Bool.false_eq_true, if_false, if_true, hact]
  rfl

/-- `AMODE` of arrays of the workgroup, usable where they are to compute, asks them for the mode. -/
theorem State.amodeOf_accepted {s : State} {c : Ctl} {tc : Bool} {w : Word}
    (h : ∀ j ∈ namedArrays w, j < s.arrayTotal ∧ (tc = true → ∃ y, s.myArray j = some y ∧ y.usable ≠ 0)) :
    s.amodeOf c tc w = (if s.namedPhys w = [] then s else s.addReq c (.amode (s.namedPhys w) tc) [] [] false true).advance c := by
  have htotal : ((namedArrays w).any fun j => decide (s.arrayTotal ≤ j)) = false := by
    rw [List.any_eq_false]
    intro j hj
    simpa using (h j hj).1
  have husable : (if tc then (namedArrays w).find? fun j => ((s.myArray j).map (·.usable)).getD 0 == 0 else none) = none := by
    cases tc with
    | false => rfl
    | true =>
      rw [if_pos rfl, List.find?_eq_none]
      intro j hj
      obtain ⟨y, hy, hne⟩ := (h j hj).2 rfl
      simpa [hy] using hne
  simp only [State.amodeOf, htotal, Bool.false_eq_true, if_false, husable, List.isEmpty_iff]

/-- `AMODE` of an array the workgroup has not takes the array fault. -/
theorem State.amodeOf_beyond {s : State} {c : Ctl} {tc : Bool} {w : Word} (h : ∃ j ∈ namedArrays w, s.arrayTotal ≤ j) :
    s.amodeOf c tc w = s.trapP (s.act c) 6 255 0 none 0 4 := by
  have htotal : ((namedArrays w).any fun j => decide (s.arrayTotal ≤ j)) = true := by
    obtain ⟨j, hj, hle⟩ := h
    exact List.any_eq_true.2 ⟨j, hj, decide_eq_true hle⟩
  rw [State.amodeOf, htotal, if_pos rfl]

/-! ## ACFG (R276) -/

/-- The workgroup has no array from its number of arrays on. -/
theorem State.myArray_beyond {s : State} {j : Nat} (h : s.arrayTotal ≤ j) : s.myArray j = none := by
  unfold State.arrayTotal at h
  unfold State.myArray
  cases hg : s.wgOf s.cur.wg with
  | none => rfl
  | some g =>
    rw [hg] at h
    rw [Option.bind_some, List.getElem?_eq_none h]
    rfl

/-- `ACFG` of an array of the workgroup asks it for the configuration. -/
theorem exec_acfg {s : State} {c : Ctl} (a6 : Bool) (sgc : BitVec 2) {arr : BitVec 5} {x : ArrayRec} (hact : s.act c ≠ 0)
    (hx : s.myArray arr.toNat = some x) :
    exec (.acfg c a6 sgc arr) s = .next ((s.addReq c (.acfg x.phys arr.toNat a6 (32 * 2 ^ sgc.toNat)) [] [] false false).advance c) := by
  change execAcfg c a6 sgc arr s = _
  simp only [execAcfg, hact, if_false, hx]

/-- `ACFG` of any other array takes the array fault. -/
theorem exec_acfg_beyond {s : State} {c : Ctl} (a6 : Bool) (sgc : BitVec 2) {arr : BitVec 5} (hact : s.act c ≠ 0) (hx : s.arrayTotal ≤ arr.toNat) :
    exec (.acfg c a6 sgc arr) s = .next (s.trapP (s.act c) 6 255 0 none 0 4) := by
  change execAcfg c a6 sgc arr s = _
  simp only [execAcfg, hact, if_false, State.myArray_beyond hx]

/-! ## AXM (R289, R102) -/

/-- The job that an `AXM` sends: what it reads of its fragments (R102). -/
def State.axmJob (s : State) (c : Ctl) (m : AMod) (d a : Reg) : AxmJob :=
  ⟨s.nextId, s.cur.uid, tidOf c, d, m.m1.toNat + 1, m.k1.toNat + 1, m.pa6, 2 ^ m.rep.toNat, m.fzi, m.fzo,
    (List.range (m.m1.toNat + 1)).map fun i => (List.range (m.k1.toNat + 1)).map (s.activation m a i),
    (List.range (m.m1.toNat + 1)).map fun i => (List.range 64).map (s.accumulator d i), none, s.cur.inHandler⟩

/-- An `AXM` whose K fits a usable array of the workgroup sends its job. -/
theorem exec_axm {s : State} {c : Ctl} {m : AMod} {d a : Reg} {x : ArrayRec} (hr : s.Ready c (axmD m d ++ axmA m a) (axmD m d) false)
    (hx : s.myArray m.arr.toNat = some x) (hk : m.k1.toNat + 1 ≤ 64 * x.usable) :
    exec (.axm c m d a) s = .next ((s.addReq c (.axm x.phys m.arr.toNat (s.axmJob c m d a)) ((axmD m d).map fun r => ⟨r, .g []⟩) [] false false).advance c) := by
  have hroom : s.HasRoom (((axmD m d).map fun r => (⟨r, .g []⟩ : RegWrite)).map (·.reg)) := by
    rw [map_reg_dests]
    exact hr.room.resolve_left fun h => absurd h.1 (by decide)
  change execAxm c m d a s = _
  simp only [execAxm, List.all_eq_true.2 hr.named, Bool.not_true, Bool.false_eq_true, if_false, hr.some,
    State.overflow_eq_none_of_hasRoom (BitVec.allOnes 128) hroom, hx, Nat.not_lt.2 hk]
  rfl

/-- An element of a table of rows. -/
theorem getD_getD_table {α : Type} (f : Nat → Nat → α) (v : α) {M K i k : Nat} (hi : i < M) (hk : k < K) :
    ((((List.range M).map fun i => (List.range K).map (f i)).getD i []).getD k v) = f i k := by
  simp [List.getD_eq_getElem?_getD, hi, hk]

/-- The low half of a word, as an FP32 code (R66). -/
theorem shiftLeft_half (y : Word) : y <<< 16 = BitVec.ofNat 32 (y.toNat % 65536 * 65536) := by
  apply BitVec.eq_of_toNat_eq
  rw [BitVec.toNat_shiftLeft, BitVec.toNat_ofNat, Nat.shiftLeft_eq]
  omega

/-- The high half of a word, as an FP32 code (R66). -/
theorem and_highHalf (y : Word) : y &&& (0xFFFF0000 : Word) = BitVec.ofNat 32 (y.toNat / 65536 * 65536) := by
  have hmask : y &&& (0xFFFF0000 : Word) = (y >>> 16) <<< 16 := by
    apply BitVec.eq_of_getLsbD_eq
    intro i hi
    have h32 : (0xFFFF0000 : Word).getLsbD i = decide (16 ≤ i) := by
      revert i
      decide
    rw [BitVec.getLsbD_and, h32, BitVec.getLsbD_shiftLeft, BitVec.getLsbD_ushiftRight]
    by_cases h : 16 ≤ i
    · simp [h, hi, Nat.not_lt.2 h]
    · simp [h, Nat.lt_of_not_le h]
  have hlt := y.isLt
  rw [hmask]
  apply BitVec.eq_of_toNat_eq
  rw [BitVec.toNat_shiftLeft, BitVec.toNat_ushiftRight, BitVec.toNat_ofNat, Nat.shiftLeft_eq, Nat.shiftRight_eq_div_pow]

/-- The activation in the terms of the statement (R102). -/
theorem State.activation_eq (s : State) (m : AMod) (a : Reg) (i k : Nat) : s.activation m a i k =
    if m.bf16 then
      BitVec.ofNat 32 ((if k < 128 then (s.rd (a + BitVec.ofNat 6 i) (k % 128)).toNat % 65536
        else (s.rd (a + BitVec.ofNat 6 i) (k % 128)).toNat / 65536) * 65536)
    else s.rd (a + BitVec.ofNat 6 (i * ((m.k1.toNat + 1 + 127) / 128) + k / 128)) (k % 128) := by
  unfold State.activation
  split
  · by_cases h : k < 128
    · simp only [h, if_true, shiftLeft_half]
    · simp only [h, if_false, and_highHalf]
  · rfl

/-- `AQRY` leaves what the array number of each lane names. -/
theorem State.yields_of_aqry {s : State} {i : Instr} {c : Ctl} {d : Reg} {names : List Reg} {j : Nat → Nat} (he : exec i s = .next (aqryOp s c d names j))
    (hr : s.Ready c (d :: names) [d] false) : s.Yields i c d (fun l => if j l < 32 then s.acap (j l) else 0) .zero :=
  State.yields_of_commit _ he hr (fun h => nomatch h) fun l hl => VReg.lane_lanesOf _ l hl

/-- Settles O46: the requests, the faults of arrays beyond A, the fragments of `AXM` and the capability words. -/
theorem arrayInstructionResults : Obligations.ArrayInstructionResults := by
  intro s c tc a6 sgc m d a mask arr x named amode M K kr dBlock aBlock activation hact
  have hamode : ∀ {i : Instr} {w : Word}, exec i s = .next (s.amodeOf c tc w) → amode i w := by
    intro i w he
    refine ⟨fun h => ?_, fun htake h => ?_⟩
    · rw [State.amodeOf_accepted h] at he
      by_cases hts : s.namedPhys w = []
      · rw [if_pos hts] at he
        obtain ⟨-, hf, -, -⟩ := State.moveLanes_spec s c fun _ => s.next c
        exact ⟨_, he, (s.advance_advancedTo c).advanced, fun _ => hf, fun hne => absurd hts hne⟩
      · rw [if_neg hts] at he
        obtain ⟨hadv, hreq⟩ := s.requested_addReq c (.amode (s.namedPhys w) tc) [] [] false true
        exact ⟨_, he, hadv, fun h0 => absurd h0 hts, fun _ => hreq⟩
    · rw [State.amodeOf_beyond h] at he
      exact ⟨_, he, htake.trapP_enters _ _ _ _ _ (by omega) (by omega)⟩
  refine ⟨hamode (exec_amode_literal tc a mask hact), fun hn hu => hamode (exec_amode_register tc mask hact hn hu), fun hx => ?_, fun htake hx => ?_,
    fun hr hx hk => ?_, State.yields_of_aqry rfl, fun hr => ?_⟩
  · obtain ⟨hadv, hreq⟩ := s.requested_addReq c (.acfg x.phys arr.toNat a6 (32 * 2 ^ sgc.toNat)) [] [] false false
    exact ⟨_, exec_acfg a6 sgc hact hx, hadv, hreq⟩
  · exact ⟨_, exec_acfg_beyond a6 sgc hact hx, htake.trapP_enters _ _ _ _ _ (by omega) (by omega)⟩
  · obtain ⟨hadv, hreq⟩ := s.requested_addReq c (.axm x.phys m.arr.toNat (s.axmJob c m d a)) ((axmD m d).map fun r => ⟨r, .g []⟩) [] false false
    rw [map_reg_dests] at hreq
    refine ⟨_, exec_axm hr hx hk, hadv, s.axmJob c m d a, hreq, rfl, fun i hi k hk => ?_, fun i hi n hn => ?_⟩
    · exact (getD_getD_table (s.activation m a) 0 hi hk).trans (s.activation_eq m a i k)
    · exact getD_getD_table (s.accumulator d) 0 hi hn
  · have hlt : arr.toNat < 32 := arr.isLt
    simpa only [hlt, if_true] using State.yields_of_aqry (i := .aqryImmediate c d arr) (names := []) (j := fun _ => arr.toNat) rfl hr

end Sys2Proof.Machine
end

section
/-! PROOFS. Fences, cache control and prefetch (O44). -/

namespace Sys2Proof.Machine

/-! ## FENCE (R320) -/

/-- The state with one more fence placed. -/
def State.withFence (s : State) (ord : BitVec 2) (scope : BitVec 3) : State :=
  { s with cur := { s.cur with fences := s.cur.fences ++ [⟨ord.getLsbD 0, ord.getLsbD 1, scope.toNat, s.nextId, false⟩] } }

/-- `FENCE` with an active lane places its fence and advances. -/
theorem exec_fence {s : State} {c : Ctl} (ord : BitVec 2) (scope : BitVec 3) (hact : s.act c ≠ 0) :
    exec (.fence c ord scope) s = .next ((s.withFence ord scope).advance c) := by
  change execFence c ord scope s = _
  simp only [execFence, hact, if_false]
  rfl

/-- An advance of a state that differs from `s` outside the lanes advances `s`. -/
theorem State.Moved.advanced_of {s u t : State} {c : Ctl} (h : u.Moved t fun _ => u.next c) (hcur : u.cur.arch = s.cur.arch)
    (hacted : u.cur.acted = s.cur.acted) (hipc : u.ipc = s.ipc) : s.Advanced t c := by
  have hin : u.cur.inHandler = s.cur.inHandler := by rw [Warp.inHandler, Warp.inHandler, hcur]
  have hlane : ∀ l, u.cur.lane l = s.cur.lane l := fun l => by rw [Warp.lane, Warp.lane, hcur]
  have hsplit : u.split = s.split := by
    unfold State.split Warp.splitAt
    simp only [hcur, hlane, hipc, hacted]
  have hnext : u.next c = s.next c := by rw [State.next, State.next, hipc]
  obtain ⟨hlanes, hhandler⟩ := h
  refine ⟨fun l hl => ?_, ?_⟩
  · rw [hlanes l hl, hin, hsplit, hnext, hlane]
  · rw [hhandler, hcur, hnext]

/-- What a fence leaves besides its condition. -/
theorem State.withFence_spec (s : State) (c : Ctl) (ord : BitVec 2) (scope : BitVec 3) :
    s.Advanced ((s.withFence ord scope).advance c) c
      ∧ ((s.withFence ord scope).advance c).cur.fences = s.cur.fences ++ [⟨ord.getLsbD 0, ord.getLsbD 1, scope.toNat, s.nextId, false⟩]
      ∧ s.WarpFrame { (s.withFence ord scope).advance c with cur := { ((s.withFence ord scope).advance c).cur with fences := s.cur.fences } } [] Lane.noPc := by
  obtain ⟨hmoved, hframe, -, -⟩ := State.moveLanes_spec (s.withFence ord scope) c fun _ => (s.withFence ord scope).next c
  have hwarp : ((s.withFence ord scope).advance c).cur = _ := hframe.warp
  have hrest : (s.withFence ord scope).advance c = _ := hframe.rest
  refine ⟨hmoved.advanced_of rfl rfl rfl, congrArg Warp.fences hwarp, ?_⟩
  constructor
  case rest => exact congrArg (fun u : State => { u with cur := { ((s.withFence ord scope).advance c).cur with fences := s.cur.fences } }) hrest
  case warp => exact congrArg (fun w : Warp => { w with fences := s.cur.fences }) hwarp
  case regs => exact hframe.regs
  case preds => exact hframe.preds
  case failing => exact hframe.failing
  case lanes => exact hframe.lanes
  case handler => exact hframe.handler

/-! ## The instruction-cache forms of CCTL (R308, R309) -/

/-- The state in which the warp fetches anew and the caches of the cores `hit` names hold no word of its context. -/
def State.droppedWords (s : State) (hit : Nat → Bool) : State :=
  { s with cur := s.cur.refetch, mem := { s.mem with icache := s.mem.icache.filter fun x => !(hit x.core && x.ctx == s.cur.ctx) } }

/-- With an active lane those words are dropped and the split advances. -/
theorem State.cctlInst_eq {s : State} {c : Ctl} (hit : Nat → Bool) (hact : s.act c ≠ 0) : s.cctlInst c hit = (s.droppedWords hit).advance c := by
  simp only [State.cctlInst, hact, if_false]
  rfl

/-- What that leaves. -/
theorem State.droppedWords_spec (s : State) (c : Ctl) (hit : Nat → Bool) :
    s.Advanced ((s.droppedWords hit).advance c) c
      ∧ (s.droppedWords hit).advance c = { s with cur := ((s.droppedWords hit).advance c).cur, mem := ((s.droppedWords hit).advance c).mem }
      ∧ ((s.droppedWords hit).advance c).cur.fetched = []
      ∧ ((s.droppedWords hit).advance c).mem = { s.mem with icache := ((s.droppedWords hit).advance c).mem.icache }
      ∧ ∀ x, x ∈ ((s.droppedWords hit).advance c).mem.icache ↔ x ∈ s.mem.icache ∧ ¬(hit x.core = true ∧ x.ctx = s.cur.ctx) := by
  obtain ⟨hmoved, hframe, -, -⟩ := State.moveLanes_spec (s.droppedWords hit) c fun _ => (s.droppedWords hit).next c
  have hwarp : ((s.droppedWords hit).advance c).cur = _ := hframe.warp
  have hrest : (s.droppedWords hit).advance c = { s.droppedWords hit with cur := ((s.droppedWords hit).advance c).cur } := hframe.rest
  have hmem : ((s.droppedWords hit).advance c).mem = (s.droppedWords hit).mem := (congrArg State.mem hrest :)
  refine ⟨hmoved.advanced_of rfl rfl rfl, ?_, congrArg Warp.fetched hwarp, by rw [hmem]; rfl, fun x => ?_⟩
  · rw [hmem]
    exact hrest
  · rw [hmem]
    refine List.mem_filter.trans (and_congr_right fun _ => ?_)
    rw [Bool.not_eq_true', Bool.eq_false_iff, ne_eq, Bool.and_eq_true, beq_iff_eq]

/-! ## The lines that lanes name (R308) -/

/-- A place names a line that the caches may hold: not one that bypasses them. -/
def caches (p : Nat × BitVec 2) : Bool := !(p.2 == 2 || isHostPa p.1)

/-- Line n is named by a lane of a list. -/
def namesLine (at' : Nat → Nat × BitVec 2) (ls : List Nat) (n : Nat) : Prop := ∃ l ∈ ls, caches (at' l) = true ∧ lineOf (at' l).1 = n

/-- The effect of an address form on the lines its lanes name, in lane order. -/
def State.onLines (s : State) (at' : Nat → Nat × BitVec 2) (f : State → Nat → State) (ls : List Nat) : State :=
  ls.foldl (fun s l => if caches (at' l) then f s (at' l).1 else s) s

/-- An address form whose lanes all have a place acts on the lines they name and advances. -/
theorem State.cctlLines_eq {s : State} {c : Ctl} {a : Reg} {off : Word} {at' : Nat → Nat × BitVec 2} (f : State → Nat → State)
    (hn : (pairRegs a).all s.cur.nameable = true) (hact : s.act c ≠ 0)
    (hplace : ∀ l < 128, s.active c l = true → s.globalLane s.cur.core s.cur.ctx ⟨true, false⟩ l (s.rdPair a l + off.signExtend 64) = .ok (at' l)) :
    s.cctlLines c a off f = (s.onLines at' f (maskLanes (s.act c))).advance c := by
  have hlanes : s.lineLanes (s.act c) a off = (maskLanes (s.act c)).map fun l => .ok (at' l) := by
    refine List.map_congr_left fun l hl => ?_
    have ha := (mem_maskLanes _ l).1 hl
    exact hplace l (lane_lt ha) ha
  have hfault : firstFault ((maskLanes (s.act c)).map fun l => (.ok (at' l) : LanePlace)) = none := by
    rw [firstFault, List.findSome?_eq_none_iff]
    intro x hx
    obtain ⟨l, -, rfl⟩ := List.mem_map.1 hx
    rfl
  simp only [State.cctlLines, hn, Bool.not_true, Bool.false_eq_true, if_false, hact, hlanes, hfault, List.foldl_map]
  refine congrArg (fun u : State => u.advance c) (congrArg (fun g => List.foldl g s (maskLanes (s.act c))) (funext fun u => funext fun l => ?_))
  simp only [caches, Bool.not_eq_true']
  cases ((at' l).2 == 2 || isHostPa (at' l).1) <;> rfl

/-- The lines that the active lanes name, in the terms of the statement. -/
theorem State.namesLine_iff (s : State) (c : Ctl) (at' : Nat → Nat × BitVec 2) (n : Nat) : namesLine at' (maskLanes (s.act c)) n ↔
    ∃ l < 128, s.active c l = true ∧ (at' l).2 ≠ 2 ∧ isHostPa (at' l).1 = false ∧ lineOf (at' l).1 = n := by
  simp only [namesLine, caches, mem_maskLanes, Bool.not_eq_true', Bool.or_eq_false_iff, beq_eq_false_iff_ne, and_assoc]
  exact exists_congr fun l => ⟨fun ⟨ha, h⟩ => ⟨lane_lt ha, ha, h⟩, fun ⟨_, ha, h⟩ => ⟨ha, h⟩⟩

/-! ## CCTL.L1INV (R308) -/

/-- The L1 of the issuing core without a line. -/
def State.dropLine (s : State) (pa : Nat) : State :=
  { s with mem := { s.mem with l1 := s.mem.l1.filter fun x => !(x.core == s.cur.core && x.sec / 4 == lineOf pa) } }

/-- Dropping lines changes the L1s only, of which the sectors of the lines named are gone. -/
theorem State.onLines_dropLine (at' : Nat → Nat × BitVec 2) (ls : List Nat) : ∀ s : State,
    s.onLines at' State.dropLine ls = { s with mem := { s.mem with l1 := (s.onLines at' State.dropLine ls).mem.l1 } }
      ∧ ∀ x, x ∈ (s.onLines at' State.dropLine ls).mem.l1 ↔ x ∈ s.mem.l1 ∧ ¬(x.core = s.cur.core ∧ namesLine at' ls (x.sec / 4)) := by
  induction ls with
  | nil => exact fun s => ⟨rfl, fun x => ⟨fun h => ⟨h, fun ⟨_, l, hl, _⟩ => List.not_mem_nil hl⟩, fun h => h.1⟩⟩
  | cons l ls ih =>
    intro s
    by_cases hc : caches (at' l) = true
    · have he : s.onLines at' State.dropLine (l :: ls) = (s.dropLine (at' l).1).onLines at' State.dropLine ls := by
        simp only [State.onLines, List.foldl_cons, hc, if_true]
      obtain ⟨hrest, hmem⟩ := ih (s.dropLine (at' l).1)
      rw [he]
      refine ⟨hrest, fun x => (hmem x).trans ?_⟩
      have hdrop : x ∈ (s.dropLine (at' l).1).mem.l1 ↔ x ∈ s.mem.l1 ∧ ¬(x.core = s.cur.core ∧ lineOf (at' l).1 = x.sec / 4) := by
        refine List.mem_filter.trans (and_congr_right fun _ => ?_)
        rw [Bool.not_eq_true', Bool.eq_false_iff, ne_eq, Bool.and_eq_true, beq_iff_eq, beq_iff_eq, eq_comm (a := x.sec / 4)]
      rw [hdrop, and_assoc]
      refine and_congr_right fun _ => ?_
      change (_ ∧ ¬(x.core = s.cur.core ∧ _)) ↔ _
      simp only [namesLine, List.mem_cons, exists_eq_or_imp, hc, true_and]
      rw [← not_or, ← and_or_left]
    · have he : s.onLines at' State.dropLine (l :: ls) = s.onLines at' State.dropLine ls := by
        simp only [State.onLines, List.foldl_cons, hc, if_false, Bool.false_eq_true]
      obtain ⟨hrest, hmem⟩ := ih s
      rw [he]
      refine ⟨hrest, fun x => (hmem x).trans (and_congr_right fun _ => ?_)⟩
      simp only [namesLine, List.mem_cons, exists_eq_or_imp, hc, Bool.false_eq_true, false_and, false_or]

/-! ## CCTL.WB (R308) -/

/-- The dirty bytes of a line reach the home, and its completion time enters `ctime(.sys)`. -/
def State.writeLine (s : State) (pa : Nat) : State :=
  if s.mem.l2.any fun x => x.sec / 4 == lineOf pa && x.dirty != 0 then
    { s with
      mem := s.mem.recall (lineOf pa) fun _ => false
      cur := s.cur.raiseCtime [0, 0, 0, 0, completion (s.homeNow pa fun _ => true) (s.mem.leaseOf (lineOf pa))] }
  else s

/-- `u` is `s` but for its memory and the completion times of its warp. -/
def State.SameButTimes (s u : State) : Prop := ∃ mem ctime, u = { s with mem := mem, cur := { s.cur with ctime := ctime } }

/-- Writing a line back changes no more. -/
theorem State.SameButTimes.writeLine {s u : State} (h : s.SameButTimes u) (pa : Nat) : s.SameButTimes (u.writeLine pa) := by
  obtain ⟨mem, ctime, rfl⟩ := h
  unfold State.writeLine
  split
  · exact ⟨_, _, rfl⟩
  · exact ⟨_, _, rfl⟩

/-! ## Lines with dirty bytes -/

/-- An L2 holds a dirty byte of a line. -/
def MemSys.DirtyLine (m : MemSys) (line : Nat) : Prop := ∃ x ∈ m.l2, x.sec / 4 = line ∧ x.dirty ≠ 0

/-- From `m` to `n` no line has become dirty, the scratchpad stands, and at the home every byte of a line that was clean. -/
structure MemSys.Spares (m n : MemSys) : Prop where
  spad : n.spad = m.spad
  dirty : ∀ line, n.DirtyLine line → m.DirtyLine line
  home : ∀ pa, ¬m.DirtyLine (pa / 256) → readByte n.home pa = readByte m.home pa

theorem MemSys.Spares.refl (m : MemSys) : m.Spares m := ⟨rfl, fun _ h => h, fun _ _ => rfl⟩

theorem MemSys.Spares.trans {m n o : MemSys} (h : m.Spares n) (k : n.Spares o) : m.Spares o :=
  ⟨k.spad.trans h.spad, fun line hd => h.dirty line (k.dirty line hd), fun pa hc => (k.home pa fun hd => hc (h.dirty _ hd)).trans (h.home pa hc)⟩

/-- Changing caches only, without a dirty byte of a line that was clean. -/
theorem MemSys.Spares.of_caches {m n o : MemSys} (h : m.Spares n) (hs : o.spad = n.spad) (hh : o.home = n.home)
    (hd : ∀ x ∈ o.l2, x.dirty ≠ 0 → m.DirtyLine (x.sec / 4)) : m.Spares o where
  spad := hs.trans h.spad
  dirty := by
    rintro line ⟨x, hx, rfl, hne⟩
    exact hd x hx hne
  home pa hc := by rw [hh]; exact h.home pa hc

/-- The same where each sector that an L2 holds was there. -/
theorem MemSys.Spares.of_sublist {m n o : MemSys} (h : m.Spares n) (hs : o.spad = n.spad) (hh : o.home = n.home) (hl : ∀ x ∈ o.l2, x ∈ n.l2) :
    m.Spares o := h.of_caches hs hh fun x hx hne => h.dirty _ ⟨x, hl x hx, rfl, hne⟩

/-- Writing dirty bytes to the home spares the clean lines. -/
theorem MemSys.Spares.writeBacks {m n : MemSys} (h : m.Spares n) (p : L2Sector → Bool) : m.Spares ((n.l2.filter p).foldl MemSys.writeBack n) := by
  have honly := MemSys.writeBacks_onlyHome (n.l2.filter p) n
  refine h.trans ⟨by obtain ⟨_, _, _, he⟩ := honly; rw [he], fun line hd => ?_, fun pa hc => ?_⟩
  · rwa [MemSys.DirtyLine, honly.l2_eq] at hd
  · refine n.untouched_writeBacks (hit := fun _ => True) (fun _ _ => trivial) pa fun y hy _ hsec => ?_
    have hzero : y.dirty = 0 := by
      by_contra hne
      exact hc ⟨y, hy, by omega, hne⟩
    rw [hzero]
    exact BitVec.getLsbD_zero

/-- A recall spares the clean lines. -/
theorem MemSys.Spares.recall {m n : MemSys} (h : m.Spares n) (line : Nat) (keep : Nat → Bool) : m.Spares (n.recall line keep) := by
  have hback := h.writeBacks fun x => x.sec / 4 == line && x.dirty != 0 && !keep x.die
  refine hback.of_caches rfl rfl fun y hy hne => ?_
  obtain ⟨x, hx, rfl⟩ := List.mem_map.1 (List.mem_filter.1 hy).1
  split at hne
  · exact absurd rfl hne
  · next hhit =>
    rw [if_neg hhit]
    exact hback.dirty _ ⟨x, hx, rfl, hne⟩

/-- An eviction spares the clean lines. -/
theorem MemSys.Spares.evict {m n : MemSys} (h : m.Spares n) (die line : Nat) : m.Spares (n.evict die line) :=
  (h.writeBacks fun x => x.die == die && x.sec / 4 == line).of_sublist rfl rfl fun _ hx => (List.mem_filter.1 hx).1

/-- Making room in an L2 spares the clean lines. -/
theorem MemSys.Spares.roomL2 {m n : MemSys} (h : m.Spares n) (die line : Nat) : m.Spares (n.roomL2 die line) := by
  unfold MemSys.roomL2
  split
  · exact h
  · dsimp only
    split
    · exact h
    · split
      · exact h.evict _ _
      · exact h.evict _ _
      · exact h

/-- Putting a sector that holds a dirty byte of a dirty line only. -/
theorem MemSys.Spares.putL2 {m n : MemSys} (h : m.Spares n) {x : L2Sector} (hx : x.dirty ≠ 0 → m.DirtyLine (x.sec / 4)) : m.Spares (n.putL2 x) := by
  refine h.of_caches rfl rfl fun y hy hne => ?_
  have hold : ∀ {p : L2Sector → Bool}, y ∈ n.l2.filter p → m.DirtyLine (y.sec / 4) :=
    fun hy => h.dirty _ ⟨y, (List.mem_filter.1 hy).1, rfl, hne⟩
  unfold MemSys.putL2 at hy
  dsimp only at hy
  split at hy
  · exact hold hy
  · rcases List.mem_cons.1 hy with rfl | hy
    · exact hx hne
    · exact hold hy

/-- A sector that an L2 holds is one of its list, of its die and number. -/
theorem MemSys.mem_of_l2At {m : MemSys} {die sec : Nat} {x : L2Sector} (h : m.l2At die sec = some x) : x ∈ m.l2 ∧ x.sec = sec := by
  refine ⟨List.mem_of_find?_eq_some h, ?_⟩
  have hp := List.find?_some h
  exact beq_iff_eq.1 (Bool.and_eq_true_iff.1 hp).2

/-- Filling a sector of an L2 spares the clean lines. -/
theorem State.spares_fillL2 {m : MemSys} {s : State} (h : m.Spares s.mem) (die sec lease : Nat) (others ef : Bool) :
    m.Spares (s.fillL2 die sec lease others ef).2.mem := by
  have hrecalled : m.Spares (if others then s.mem.recall (sec / 4) (· == die) else s.mem) := by
    split
    · exact h.recall _ _
    · exact h
  unfold State.fillL2
  dsimp only
  generalize (if others = true then s.mem.recall (sec / 4) (· == die) else s.mem) = n at hrecalled ⊢
  refine MemSys.Spares.of_sublist ((hrecalled.roomL2 die (sec / 4)).putL2 (fun hne => ?_)) rfl rfl fun _ hx => hx
  cases hold : n.l2At die sec with
  | none => exact absurd (by simp only [hold]) hne
  | some x =>
    obtain ⟨hmem, hsec⟩ := MemSys.mem_of_l2At hold
    exact hrecalled.dirty _ ⟨x, hmem, by rw [hsec], by simpa only [hold] using hne⟩

/-- The sector of an L2, or an empty one. -/
def MemSys.sectorIn (m : MemSys) (die sec : Nat) : L2Sector := (m.l2At die sec).getD ⟨die, sec, none, List.replicate 64 ⟨0, none⟩, 0, false, 0⟩

/-- It holds a dirty byte of a dirty line only. -/
theorem MemSys.Spares.sectorIn {m n : MemSys} (h : m.Spares n) {die sec : Nat} (hd : (n.sectorIn die sec).dirty ≠ 0) :
    m.DirtyLine ((n.sectorIn die sec).sec / 4) := by
  unfold MemSys.sectorIn at hd ⊢
  cases hx : n.l2At die sec with
  | none =>
    rw [hx] at hd
    exact absurd rfl hd
  | some x =>
    rw [hx] at hd
    exact h.dirty _ ⟨x, (MemSys.mem_of_l2At hx).1, rfl, hd⟩

/-- Loading through the caches spares the clean lines. -/
theorem State.spares_loadBytes {m : MemSys} {s : State} (h : m.Spares s.mem) (core : Nat) (cp ch : BitVec 2) (pa n leaseL2 leaseL1 : Nat) :
    m.Spares (s.loadBytes core cp ch pa n leaseL2 leaseL1).2.mem := by
  have hserved : m.Spares (if s.mem.l2Serves (dieOfCore core) (sectorOf pa) (s.tideOf (dieOfCore core)) (pa % 64) n then
      (s.mem.sectorIn (dieOfCore core) (sectorOf pa), { s with mem := s.mem.putL2 { s.mem.sectorIn (dieOfCore core) (sectorOf pa) with
        ef := (s.mem.sectorIn (dieOfCore core) (sectorOf pa)).ef || ch.getLsbD 1 } })
      else s.fillL2 (dieOfCore core) (sectorOf pa) leaseL2 true (ch.getLsbD 1) : L2Sector × State).2.mem := by
    split
    · exact h.putL2 h.sectorIn
    · exact State.spares_fillL2 h _ _ _ _ _
  unfold State.loadBytes
  dsimp only
  split
  · exact (h.recall (lineOf pa) fun _ => false).of_sublist rfl rfl fun _ hx => (List.mem_filter.1 hx).1
  · split
    · exact h
    · dsimp only
      split
      · split
        · split
          · exact hserved.of_sublist rfl rfl fun _ hx => hx
          · exact hserved.of_sublist rfl rfl fun _ hx => hx
        · exact hserved.of_sublist rfl rfl fun _ hx => hx
      · exact hserved.of_sublist rfl rfl fun _ hx => hx

/-- After a line is written back none of its sectors is dirty. -/
theorem State.writeLine_cleans (s : State) (pa : Nat) {x : L2Sector} (hx : x ∈ (s.writeLine pa).mem.l2) (hl : x.sec / 4 = lineOf pa) : x.dirty = 0 := by
  unfold State.writeLine at hx
  split at hx
  · exact MemSys.dirty_of_mem_recall hx hl rfl
  · next hany =>
    by_contra hd
    exact hany (List.any_eq_true.2 ⟨x, hx, Bool.and_eq_true_iff.2 ⟨beq_iff_eq.2 hl, bne_iff_ne.2 hd⟩⟩)

/-- After a line is written back it is clean, and no clean line has become dirty. -/
theorem State.spares_writeLine {m : MemSys} {s : State} (h : m.Spares s.mem) (pa : Nat) : m.Spares (s.writeLine pa).mem := by
  unfold State.writeLine
  split
  · exact h.recall (lineOf pa) fun _ => false
  · exact h

/-- Lines written back one after another are clean in the end. -/
theorem State.onLines_writeLine {s : State} (at' : Nat → Nat × BitVec 2) (ls : List Nat) : ∀ u : State, s.SameButTimes u →
    s.SameButTimes (u.onLines at' State.writeLine ls) ∧ u.mem.Spares (u.onLines at' State.writeLine ls).mem
      ∧ ∀ n, namesLine at' ls n → ¬(u.onLines at' State.writeLine ls).mem.DirtyLine n := by
  induction ls with
  | nil => exact fun u h => ⟨h, .refl _, fun n ⟨_, hl, _⟩ => absurd hl List.not_mem_nil⟩
  | cons l ls ih =>
    intro u h
    by_cases hc : caches (at' l) = true
    · have he : u.onLines at' State.writeLine (l :: ls) = (u.writeLine (at' l).1).onLines at' State.writeLine ls := by
        simp only [State.onLines, List.foldl_cons, hc, if_true]
      obtain ⟨hsame, hspares, hclean⟩ := ih (u.writeLine (at' l).1) (h.writeLine _)
      rw [he]
      refine ⟨hsame, (State.spares_writeLine (.refl _) _).trans hspares, ?_⟩
      rintro n ⟨k, hk, hcaches, rfl⟩
      rcases List.mem_cons.1 hk with rfl | hk
      · intro hd
        obtain ⟨x, hx, hline, hne⟩ := hspares.dirty _ hd
        exact hne (State.writeLine_cleans u _ hx hline)
      · exact hclean _ ⟨k, hk, hcaches, rfl⟩
    · have he : u.onLines at' State.writeLine (l :: ls) = u.onLines at' State.writeLine ls := by
        simp only [State.onLines, List.foldl_cons, hc, if_false, Bool.false_eq_true]
      obtain ⟨hsame, hspares, hclean⟩ := ih u h
      rw [he]
      refine ⟨hsame, hspares, ?_⟩
      rintro n ⟨k, hk, hcaches, rfl⟩
      rcases List.mem_cons.1 hk with rfl | hk
      · exact absurd hcaches hc
      · exact hclean _ ⟨k, hk, hcaches, rfl⟩

/-! ## PREF (R345) -/

/-- A load changes the memory only. -/
theorem State.loadBytes_rest (s : State) (core : Nat) (cp ch : BitVec 2) (pa n leaseL2 leaseL1 : Nat) :
    (s.loadBytes core cp ch pa n leaseL2 leaseL1).2 = { s with mem := (s.loadBytes core cp ch pa n leaseL2 leaseL1).2.mem } := by
  unfold State.loadBytes
  dsimp only
  split
  · rfl
  · split
    · rfl
    · have hr : ∀ {r : L2Sector × State} {mem : MemSys}, r.2 = { s with mem := r.2.mem } → { r.2 with mem := mem } = { s with mem := mem } :=
        fun {_ mem} h => congrArg (fun u : State => { u with mem := mem }) h
      refine hr ?_
      split <;> rfl

/-- The sectors of one lane are filled, where its place has any to fill. -/
def State.prefetch (l2 : Bool) (s : State) (p : LanePlace) : State := match p with
  | .ok (pa, cp) =>
    if bypasses cp pa || !s.grantedAll s.cur.ctx.toNat 0 (64 * sectorOf pa) 64 false then s
    else if l2 then
      if s.mem.l2Serves (dieOfCore s.cur.core) (sectorOf pa) (s.tideOf (dieOfCore s.cur.core)) 0 64 then s
      else (s.fillL2 (dieOfCore s.cur.core) (sectorOf pa) 4096 true false).2
    else (s.loadBytes s.cur.core cp 0 (64 * sectorOf pa) 64 4096 4096).2
  | .error _ => s

/-- `PREF` fills the sectors of its lanes and advances. -/
theorem exec_pref {s : State} {c : Ctl} {l2 : Bool} {a : Reg} {off : Word} (hn : (pairRegs a).all s.cur.nameable = true) :
    exec (.pref c l2 a off) s = .next (((s.lineLanes (s.act c) a off).foldl (State.prefetch l2) s).advance c) := by
  change execPref c l2 a off s = _
  simp only [execPref, hn, Bool.not_true, Bool.false_eq_true, if_false]
  rfl

/-- A fill changes the memory only, and spares the clean lines. -/
theorem State.prefetch_spares {s u : State} (l2 : Bool) (p : LanePlace) (hu : u = { s with mem := u.mem }) (h : s.mem.Spares u.mem) :
    u.prefetch l2 p = { s with mem := (u.prefetch l2 p).mem } ∧ s.mem.Spares (u.prefetch l2 p).mem := by
  have hchange : ∀ {v : State}, v = { u with mem := v.mem } → v = { s with mem := v.mem } :=
    fun {v} hv => hv.trans (congrArg (fun w : State => { w with mem := v.mem }) hu)
  unfold State.prefetch
  split
  · split
    · exact ⟨hu, h⟩
    · split
      · split
        · exact ⟨hu, h⟩
        · exact ⟨hchange rfl, State.spares_fillL2 h _ _ _ _ _⟩
      · exact ⟨hchange (State.loadBytes_rest u _ _ _ _ _ _ _), State.spares_loadBytes h _ _ _ _ _ _ _⟩
  · exact ⟨hu, h⟩

/-- Nor do the fills of several lanes. -/
theorem State.prefetches_spare {s : State} (l2 : Bool) (ps : List LanePlace) : ∀ u : State, u = { s with mem := u.mem } → s.mem.Spares u.mem →
    ps.foldl (State.prefetch l2) u = { s with mem := (ps.foldl (State.prefetch l2) u).mem } ∧ s.mem.Spares (ps.foldl (State.prefetch l2) u).mem := by
  induction ps with
  | nil => exact fun u hu h => ⟨hu, h⟩
  | cons p ps ih =>
    intro u hu h
    obtain ⟨hu, h⟩ := State.prefetch_spares l2 p hu h
    exact ih _ hu h

/-- Advancing a state that differs in its memory only advances `s`, and keeps that memory. -/
theorem State.advance_withMem (s : State) (c : Ctl) (m : MemSys) :
    s.Advanced (State.advance { s with mem := m } c) c ∧ (State.advance { s with mem := m } c).mem = m
      ∧ State.advance { s with mem := m } c = { s with cur := (State.advance { s with mem := m } c).cur, mem := m }
      ∧ s.WarpFrame { State.advance { s with mem := m } c with mem := s.mem } [] Lane.noPc := by
  obtain ⟨hmoved, hframe, -, -⟩ := State.moveLanes_spec { s with mem := m } c fun _ => s.next c
  have hrest : State.advance { s with mem := m } c = { s with cur := (State.advance { s with mem := m } c).cur, mem := m } := hframe.rest
  refine ⟨⟨hmoved.lanes, hmoved.handler⟩, (congrArg State.mem hrest :), hrest, ?_⟩
  constructor
  case rest => exact congrArg (fun u : State => { u with mem := s.mem }) hrest
  case warp => exact hframe.warp
  case regs => exact hframe.regs
  case preds => exact hframe.preds
  case failing => exact hframe.failing
  case lanes => exact hframe.lanes
  case handler => exact hframe.handler

/-- Settles O44: a fence placed, cached words and lines dropped, lines written back, and sectors filled, each before the split advances. -/
theorem fenceAndCacheControlResults : Obligations.FenceAndCacheControlResults := by
  intro s c ord scope a off l2 at' ea places line drops
  have hdrops : ∀ {i : Instr} (hit : Nat → Bool), exec i s = .next (s.cctlInst c hit) → s.act c ≠ 0 → drops i fun k => hit k = true := by
    intro i hit he hact
    rw [State.cctlInst_eq hit hact] at he
    exact ⟨_, he, s.droppedWords_spec c hit⟩
  refine ⟨fun hact => ⟨_, exec_fence ord scope hact, s.withFence_spec c ord scope⟩, fun hact => ⟨?_, ?_, ?_⟩, fun hn hn1 => ?_⟩
  · simpa only [beq_iff_eq] using hdrops (fun k => k == s.cur.core) rfl hact
  · simpa only [beq_iff_eq, dieOfCore] using hdrops (fun k => dieOfCore k == dieOfCore s.cur.core) rfl hact
  · simpa only using hdrops (fun _ => true) rfl hact
  have hnames : (pairRegs a).all s.cur.nameable = true := by simp only [pairRegs, List.all_cons, List.all_nil, hn, hn1, Bool.and_self]
  refine ⟨fun hact hplace => ⟨?_, ?_⟩, ?_⟩
  · have he : exec (.cctlL1inv c a off) s = .next (s.cctlLines c a off State.dropLine) := rfl
    rw [State.cctlLines_eq State.dropLine hnames hact hplace] at he
    obtain ⟨hrest, hmem⟩ := State.onLines_dropLine at' (maskLanes (s.act c)) s
    generalize s.onLines at' State.dropLine (maskLanes (s.act c)) = u at he hrest hmem
    obtain ⟨hadv, htmem, htrest, -⟩ := s.advance_withMem c { s.mem with l1 := u.mem.l1 }
    rw [hrest] at he
    refine ⟨_, he, hadv, by rw [htmem]; exact htrest, by rw [htmem], fun x => ?_⟩
    rw [htmem]
    refine (hmem x).trans ?_
    rw [State.namesLine_iff]
  · have he : exec (.cctlWb c a off) s = .next (s.cctlLines c a off State.writeLine) := rfl
    rw [State.cctlLines_eq State.writeLine hnames hact hplace] at he
    obtain ⟨⟨mem, ctime, hsame⟩, -, hclean⟩ := State.onLines_writeLine at' (maskLanes (s.act c)) s ⟨s.mem, s.cur.ctime, rfl⟩
    generalize s.onLines at' State.writeLine (maskLanes (s.act c)) = u at he hsame hclean
    obtain ⟨hmoved, hframe, -, -⟩ := State.moveLanes_spec u c fun _ => u.next c
    have hrest : u.advance c = { u with cur := (u.advance c).cur } := hframe.rest
    have hmem : (u.advance c).mem = u.mem := (congrArg State.mem hrest :)
    refine ⟨_, he, hmoved.advanced_of (by rw [hsame]) (by rw [hsame]) (by rw [hsame]), ?_, fun x hx hline => ?_⟩
    · rw [hmem]
      exact hrest.trans (congrArg (fun v : State => { v with cur := (u.advance c).cur, mem := u.mem }) hsame)
    · rw [hmem] at hx
      by_contra hne
      exact hclean _ ((s.namesLine_iff c at' _).2 hline) ⟨x, hx, rfl, hne⟩
  · have he := exec_pref (c := c) (l2 := l2) (off := off) hnames
    obtain ⟨hrest, hspares⟩ := State.prefetches_spare l2 (s.lineLanes (s.act c) a off) s rfl (.refl _)
    generalize (s.lineLanes (s.act c) a off).foldl (State.prefetch l2) s = u at he hrest hspares
    obtain ⟨hadv, htmem, -, hframe⟩ := s.advance_withMem c u.mem
    rw [hrest] at he
    refine ⟨_, he, hadv, hframe, by rw [htmem]; exact hspares.spad, fun pa hclean => ?_⟩
    rw [htmem]
    refine hspares.home pa ?_
    rintro ⟨x, hx, hline, hne⟩
    exact hne (hclean x hx hline.symm)

end Sys2Proof.Machine
end
